-- ==== Sys2Proof/Word.lean ====
section
/-! DEFINITION. The word types of the machine and their plainest arithmetic. -/

namespace Sys2Proof

/-- A byte. -/
abbrev Byte := BitVec 8

/-- A register of the SQ, a pointer, an address: 64 bits (R96). -/
abbrev Word := BitVec 64

/-- A granule of register space: 1 KiB (R21). -/
abbrev Granule := BitVec 8192

/-- A 32-bit element. -/
abbrev Elem := BitVec 32

/-- `n` bits of the natural number `w` from bit `lo`, as a number. -/
def seg (w lo n : Nat) : Nat := w / 2 ^ lo % 2 ^ n

/-- `n` bits of the natural number `w` from bit `lo`, as a bit vector. -/
def bits (w lo n : Nat) : BitVec n := BitVec.ofNat n (w / 2 ^ lo)

/-- Sign extension to 64 bits (R59). -/
abbrev sext64 {n : Nat} (v : BitVec n) : Word := v.signExtend 64

/-- Zero extension to 64 bits. -/
abbrev zext64 {n : Nat} (v : BitVec n) : Word := v.setWidth 64

end Sys2Proof
end

