-- ==== Sys2Proof/Config.lean ====
section
/-! DEFINITION. What one device fixes, and the free values: constants without a body, so that no proof can see their value. -/

namespace Sys2Proof.Config

/-- The `n`-th free value of a run: a value that the spec leaves open (assumption log 10). -/
opaque freeWord : Nat → Word

/-- A free choice among `k` alternatives, from the `n`-th free value; 0 where there is none to choose among. -/
def freeChoice (n k : Nat) : Nat := if k = 0 then 0 else (freeWord n).toNat % k

/-- The set of a die's snoop filter that the entry of a line goes to: its slice, and its set in the slice (R306 gives 16 slices of 8,192
entries, each 16-way, and not which bits of the address choose). -/
opaque filterSet : Nat → Nat

/-- SHA-384, which the claims of a quote use (R468): left uninterpreted. -/
opaque sha384 : List Byte → List Byte

/-- The secret that the ROM derives from the SRAM PUF (R460): a free value. -/
opaque deviceSecret : List Byte

/-- A TCG DICE layer: from the secret below it and a measurement (R460): left uninterpreted. -/
opaque dice : List Byte → List Byte → List Byte

/-- The DICE identity of a device, from its secret, and the identity that a debug token names (R465): left uninterpreted. -/
opaque identity : List Byte → List Byte
opaque tokenIdentity : List Byte → List Byte

/-- The signature of a quote over its claims with the alias key of a DICE layer (R468): left uninterpreted. -/
opaque signature : List Byte → List Byte → List Byte

/-- The certificate chain from a DICE layer back to the PUF-derived device identity (R468): a free value. -/
opaque certificates : List Byte → List Byte

/-- RSASSA-PSS with SHA-384, and SLH-DSA-SHA2-192s (R461): a key, a message and a signature verify. Left uninterpreted. -/
opaque rsaPss : List Byte → List Byte → List Byte → Bool
opaque slhDsa : List Byte → List Byte → List Byte → Bool

/-- The two keys of the Walilacon anchor in the boot ROM, RSA-3072 and SLH-DSA (R461): free values. -/
opaque anchorRsa : List Byte
opaque anchorSlh : List Byte

/-- What an owner record says: the owner's two keys and the minimum image version (R461). The spec gives no layout. -/
opaque ownerRsa : List Byte → List Byte
opaque ownerSlh : List Byte → List Byte
opaque ownerMinimum : List Byte → Nat

/-- The version of an image; none for an image that is malformed (R461, R463). The spec gives no layout. -/
opaque imageVersion : List Byte → Option Nat

/-- Where the manager's SRAM and boot ROM stand in the window of the device registers (R343, R458): the spec gives no address. -/
opaque sramPage : Nat
opaque romPage : Nat
def sramBase : Nat := 4096 * sramPage
def romBase : Nat := 4096 * romPage

/-- A byte of the boot ROM (R458): a free value. -/
opaque romByte : Nat → Byte

/-- The payload of a flit of a kind (R442): for the code of a reduction or of a cause, a length or count, an address and data. The spec does
not give its layout, so a free value. -/
opaque flitPayload : Nat → Nat → Nat → Word → List Byte → List Byte

end Sys2Proof.Config
end

