-- ==== Sys2Proof/Syntax.lean ====
section
/-! DEFINITION. The syntax: one constructor per row of the opcode table, and the small types its rows carry. -/

namespace Sys2Proof

/-- The five engines of a core (R20). -/
inductive Engine where
  | ae | ve | me | ce | xe
  deriving DecidableEq, Repr

/-- The unit id of an engine (R20). -/
def Engine.id : Engine → Nat
  | .ae => 1 | .ve => 2 | .me => 3 | .ce => 4 | .xe => 5

/-- The engine of a unit id, if the id names one (R20). -/
def Engine.ofId : Nat → Option Engine
  | 1 => some .ae | 2 => some .ve | 3 => some .me | 4 => some .ce | 5 => some .xe | _ => none

/-- A unit of a core: the SQ or an engine (R20). -/
inductive UnitId where
  | sq | eng (e : Engine)
  deriving DecidableEq, Repr

/-- The id of a unit (R20). -/
def UnitId.id : UnitId → Nat
  | .sq => 0 | .eng e => e.id

/-- A holder of copies of sectors (R303): the SQ data cache or instruction cache of a core, the loop buffer of an engine, the
plates of a quad; and a directory level in its role as a child: the cluster of a quad, the L2 of a die (R309). -/
inductive Holder where
  | dcache (core : Nat) | icache (core : Nat) | loopBuf (core : Nat) (e : Engine) | plates (quad : Nat)
  | cluster (quad : Nat) | l2 (die : Nat)
  deriving DecidableEq, Repr

/-- A directory (R306): the cluster directory of a quad, the filter of a die, or the package directory. -/
inductive DirId where
  | cluster (quad : Nat) | die (d : Nat) | package
  deriving DecidableEq, Repr

/-- The kind of a grant (R308). -/
inductive Grant where
  | s | e | m
  deriving DecidableEq, Repr


/-- A request that arrives from another package of the pod job (R433, R394, R400): a write, a read, a reduction, a signal, the news that
every other package's members have arrived at a pod barrier of a group, or that the group of another package has failed. -/
inductive RemoteReq where
  | write (va : Word) (data : List Byte)
  | read (va : Word) (len : Nat)
  | reduce (op : BitVec 3) (va : Word) (data : List Byte)
  | signal (va v : Word)
  | podTrip (group : Nat) (id : BitVec 5)
  | podAbort (group : Nat)
  deriving DecidableEq, Repr

/-- What the target of a remote access answers (R434, R436): done, with the data of a read, or a cause code after a number of bytes. -/
inductive RemoteAns where
  | done (data : List Byte)
  | fault (code : BitVec 8) (count : Nat)
  deriving DecidableEq, Repr

/-- A remote access as it arrives (R433, R442): the port that received its flit, the flit's SEQ, TAG and CLASS, and what it asks. -/
structure AccessFlit where
  port : BitVec 4
  seq : BitVec 12
  tag : BitVec 8
  cls : BitVec 4
  req : RemoteReq
  deriving DecidableEq, Repr

/-- An answer as it arrives (R434, R442): the port that received its flit, the flit's SEQ and TAG, and what it says. -/
structure AnswerFlit where
  port : BitVec 4
  seq : BitVec 12
  tag : BitVec 8
  ans : RemoteAns
  deriving DecidableEq, Repr

/-- A DATA on its way (R308, R431): toward the directory or down to a requester, whether it arrives poisoned, and whether the stack of the
sector's home can no longer correct it (R473). -/
structure DataFlit where
  up : Bool
  poisoned : Bool
  ecc : Bool := false
  deriving DecidableEq, Repr

/-- A member of a pod job (R432, R443): its device, whether a context is bound there, and its route of ports. -/
structure PodMember where
  dev : Nat
  bound : Bool
  ports : List Nat
  deriving DecidableEq, Repr

/-- What the start sequence finds and reads (R460-R463): that the self-test failed, or that an image could not be fetched (1 no DHCPv6 lease,
2 HTTP or TLS failure, 3 malformed); the live list; for plates with stuck columns the quad, the plate and the columns remapped; the image
and the owner record, each with its two signatures; what the image assigns; and the debug token with its two signatures (R465). -/
structure Boot where
  selfTest : Bool
  fetch : BitVec 2
  live : List Word
  stuck : List (Nat × Nat × Nat)
  image : List Byte
  imageSigRsa : List Byte
  imageSigSlh : List Byte
  owner : List Byte
  ownerSigRsa : List Byte
  ownerSigSlh : List Byte
  worldq : Word
  worldr : Word
  worldu : Word
  debug : BitVec 2
  token : List Byte
  tokenSigRsa : List Byte
  tokenSigSlh : List Byte
  deriving DecidableEq, Repr

/-- A host access to BAR0 (R475, R476): a write of bytes, or a read of so many bytes. -/
inductive BarAccess where
  | write (data : List Byte)
  | read (len : Nat)
  deriving DecidableEq, Repr

/-- A PCIe AtomicOp of the host (R474): FetchAdd, Swap, or CAS with the value to compare. -/
inductive HostAtomic where
  | fetchAdd
  | swap
  | cas (compare : Word)
  deriving DecidableEq, Repr

/-- A host access to BAR2 that writes (R474, R477): bytes, or an AtomicOp on 4 or 8 bytes with its operand. -/
inductive ApertureAct where
  | write (data : List Byte)
  | atomic (op : HostAtomic) (wide : Bool) (v : Word)
  deriving DecidableEq, Repr

/-- A debug request over the management port (R467): a system register, a register of the SQ, or a dword of a snapshot part, read or
written. -/
inductive DebugReq where
  | readSys (n : Nat) | writeSys (n : Nat) (v : Word)
  | readX (r : BitVec 5) | writeX (r : BitVec 5) (v : Word)
  | readSnap (part off : Nat) | writeSnap (part off : Nat) (v : Word)
  deriving DecidableEq, Repr

/-- Every row of the opcode table: one constructor each. The arguments are the fields of the encoding, lowest bit
first; a row without an encoding carries the data that its agents bring to it. -/
inductive Instr where
  /-- ADD (SQ; R107) -/
  | add (rd ra rb : BitVec 5) (w : BitVec 1)
  /-- SUB (SQ; R107) -/
  | sub (rd ra rb : BitVec 5) (w : BitVec 1)
  /-- AND (SQ; R107) -/
  | and (rd ra rb : BitVec 5)
  /-- OR (SQ; R107) -/
  | or (rd ra rb : BitVec 5)
  /-- XOR (SQ; R107) -/
  | xor (rd ra rb : BitVec 5)
  /-- ANDN (SQ; R107) -/
  | andn (rd ra rb : BitVec 5)
  /-- SLL (SQ; R107) -/
  | sll (rd ra rb : BitVec 5) (w : BitVec 1)
  /-- SRL (SQ; R107) -/
  | srl (rd ra rb : BitVec 5) (w : BitVec 1)
  /-- SRA (SQ; R107) -/
  | sra (rd ra rb : BitVec 5) (w : BitVec 1)
  /-- ROL (SQ; R107) -/
  | rol (rd ra rb : BitVec 5) (w : BitVec 1)
  /-- SLT (SQ; R107) -/
  | slt (rd ra rb : BitVec 5)
  /-- SLTN (SQ; R107) -/
  | sltn (rd ra rb : BitVec 5)
  /-- MIN (SQ; R107) -/
  | min (rd ra rb : BitVec 5)
  /-- MAX (SQ; R107) -/
  | max (rd ra rb : BitVec 5)
  /-- MINN (SQ; R107) -/
  | minn (rd ra rb : BitVec 5)
  /-- MAXN (SQ; R107) -/
  | maxn (rd ra rb : BitVec 5)
  /-- MUL (SQ; R107) -/
  | mul (rd ra rb : BitVec 5) (w : BitVec 1)
  /-- MULH (SQ; R107) -/
  | mulh (rd ra rb : BitVec 5)
  /-- MULHN (SQ; R107) -/
  | mulhn (rd ra rb : BitVec 5)
  /-- DIV (SQ; R108) -/
  | div (rd ra rb : BitVec 5) (w : BitVec 1)
  /-- DIVN (SQ; R108) -/
  | divn (rd ra rb : BitVec 5) (w : BitVec 1)
  /-- REM (SQ; R108) -/
  | rem (rd ra rb : BitVec 5) (w : BitVec 1)
  /-- REMN (SQ; R108) -/
  | remn (rd ra rb : BitVec 5) (w : BitVec 1)
  /-- CLZ (SQ; R107) -/
  | clz (rd ra : BitVec 5) (w : BitVec 1)
  /-- CTZ (SQ; R107) -/
  | ctz (rd ra : BitVec 5) (w : BitVec 1)
  /-- POPC (SQ; R107) -/
  | popc (rd ra : BitVec 5) (w : BitVec 1)
  /-- BSWAP (SQ; R107) -/
  | bswap (rd ra : BitVec 5) (w : BitVec 1)
  /-- SEXT (SQ; R107) -/
  | sext (rd ra : BitVec 5) (width : BitVec 2)
  /-- ZEXT (SQ; R107) -/
  | zext (rd ra : BitVec 5) (width : BitVec 2)
  /-- ADDI (SQ; R110) -/
  | addi (rd ra : BitVec 5) (imm : BitVec 15)
  /-- ANDI (SQ; R110) -/
  | andi (rd ra : BitVec 5) (imm : BitVec 15)
  /-- ORI (SQ; R110) -/
  | ori (rd ra : BitVec 5) (imm : BitVec 15)
  /-- XORI (SQ; R110) -/
  | xori (rd ra : BitVec 5) (imm : BitVec 15)
  /-- SLLI (SQ; R110) -/
  | slli (rd ra : BitVec 5) (amt : BitVec 6) (w : BitVec 1)
  /-- SRLI (SQ; R110) -/
  | srli (rd ra : BitVec 5) (amt : BitVec 6) (w : BitVec 1)
  /-- SRAI (SQ; R110) -/
  | srai (rd ra : BitVec 5) (amt : BitVec 6) (w : BitVec 1)
  /-- ROLI (SQ; R110) -/
  | roli (rd ra : BitVec 5) (amt : BitVec 6) (w : BitVec 1)
  /-- SLTI (SQ; R110) -/
  | slti (rd ra : BitVec 5) (imm : BitVec 15)
  /-- SLTNI (SQ; R110) -/
  | sltni (rd ra : BitVec 5) (imm : BitVec 15)
  /-- MOVW (SQ; R111) -/
  | movw (rd : BitVec 5) (k : BitVec 2) (keep : BitVec 1) (imm : BitVec 16)
  /-- LD (SQ; R112) -/
  | ld (rd ra : BitVec 5) (cls : BitVec 4) (sz : BitVec 2) (off : BitVec 9)
  /-- LDN (SQ; R112) -/
  | ldn (rd ra : BitVec 5) (cls : BitVec 4) (sz : BitVec 2) (off : BitVec 9)
  /-- ST (SQ; R112) -/
  | st (rd ra : BitVec 5) (cls : BitVec 4) (sz : BitVec 2) (off : BitVec 9)
  /-- LDX (SQ; R112) -/
  | ldx (rd ra : BitVec 5) (cls : BitVec 4) (sz hint : BitVec 2) (off : BitVec 6)
  /-- LDXN (SQ; R112) -/
  | ldxn (rd ra : BitVec 5) (cls : BitVec 4) (sz hint : BitVec 2) (off : BitVec 6)
  /-- STX (SQ; R112) -/
  | stx (rd ra : BitVec 5) (cls : BitVec 4) (sz hint : BitVec 2) (off : BitVec 6)
  /-- AMOADD (SQ; R299) -/
  | amoadd (rd ra rb : BitVec 5) (cls : BitVec 4) (scope : BitVec 3) (ord : BitVec 2) (wide : BitVec 1)
  /-- AMOAND (SQ; R299) -/
  | amoand (rd ra rb : BitVec 5) (cls : BitVec 4) (scope : BitVec 3) (ord : BitVec 2) (wide : BitVec 1)
  /-- AMOOR (SQ; R299) -/
  | amoor (rd ra rb : BitVec 5) (cls : BitVec 4) (scope : BitVec 3) (ord : BitVec 2) (wide : BitVec 1)
  /-- AMOXOR (SQ; R299) -/
  | amoxor (rd ra rb : BitVec 5) (cls : BitVec 4) (scope : BitVec 3) (ord : BitVec 2) (wide : BitVec 1)
  /-- AMOMIN (SQ; R299) -/
  | amomin (rd ra rb : BitVec 5) (cls : BitVec 4) (scope : BitVec 3) (ord : BitVec 2) (wide : BitVec 1)
  /-- AMOMAX (SQ; R299) -/
  | amomax (rd ra rb : BitVec 5) (cls : BitVec 4) (scope : BitVec 3) (ord : BitVec 2) (wide : BitVec 1)
  /-- AMOMINN (SQ; R299) -/
  | amominn (rd ra rb : BitVec 5) (cls : BitVec 4) (scope : BitVec 3) (ord : BitVec 2) (wide : BitVec 1)
  /-- AMOMAXN (SQ; R299) -/
  | amomaxn (rd ra rb : BitVec 5) (cls : BitVec 4) (scope : BitVec 3) (ord : BitVec 2) (wide : BitVec 1)
  /-- AMOSWP (SQ; R299) -/
  | amoswp (rd ra rb : BitVec 5) (cls : BitVec 4) (scope : BitVec 3) (ord : BitVec 2) (wide : BitVec 1)
  /-- CAS (SQ; R300) -/
  | cas (rd ra rb : BitVec 5) (cls : BitVec 4) (scope : BitVec 3) (ord : BitVec 2) (wide : BitVec 1)
  /-- LDO (SQ; R297) -/
  | ldo (rd ra : BitVec 5) (cls : BitVec 4) (scope : BitVec 3) (ord : BitVec 2) (wide : BitVec 1)
  /-- STO (SQ; R298) -/
  | sto (ra rb : BitVec 5) (cls : BitVec 4) (scope : BitVec 3) (ord : BitVec 2) (wide : BitVec 1)
  /-- FENCE_C (SQ; R301) -/
  | fenceC (scope : BitVec 3) (mask : BitVec 16)
  /-- FENCE_M (SQ; R182) -/
  | fenceM (mask : BitVec 5)
  /-- PUBC (SQ; R339) -/
  | pubc (ra rb : BitVec 5) (scope : BitVec 3)
  /-- CACHE (SQ; R321) -/
  | cache (ra rb : BitVec 5) (op : BitVec 2) (scope : BitVec 3)
  /-- BEQ (SQ; R113) -/
  | beq (ra rb : BitVec 5) (off : BitVec 15)
  /-- BNE (SQ; R113) -/
  | bne (ra rb : BitVec 5) (off : BitVec 15)
  /-- BLT (SQ; R113) -/
  | blt (ra rb : BitVec 5) (off : BitVec 15)
  /-- BGE (SQ; R113) -/
  | bge (ra rb : BitVec 5) (off : BitVec 15)
  /-- BLTN (SQ; R113) -/
  | bltn (ra rb : BitVec 5) (off : BitVec 15)
  /-- BGEN (SQ; R113) -/
  | bgen (ra rb : BitVec 5) (off : BitVec 15)
  /-- JAL (SQ; R114) -/
  | jal (rd : BitVec 5) (off : BitVec 20)
  /-- JALR (SQ; R114) -/
  | jalr (rd ra : BitVec 5) (imm : BitVec 15)
  /-- ENQ (SQ; R178) -/
  | enq (eng : BitVec 3) (ra ab : BitVec 5) (give take1 take2 take3 : BitVec 3)
  /-- RENQ (SQ; R179) -/
  | renq (ra rb : BitVec 5) (eng : BitVec 3)
  /-- RENQ_NB (SQ; R179) -/
  | renqNb (rd ra rb : BitVec 5) (eng : BitVec 3)
  /-- TWAIT (SQ; R180) -/
  | twait (eng : BitVec 3)
  /-- TSIG (SQ; R180) -/
  | tsig (eng : BitVec 3)
  /-- TCNT (SQ; R180) -/
  | tcnt (rd : BitVec 5) (eng : BitVec 3)
  /-- BPOP (SQ; R181) -/
  | bpop (rd : BitVec 5) (eng : BitVec 3)
  /-- BPOP_S (SQ; R117) -/
  | bpopS (rd : BitVec 5) (eng : BitVec 3)
  /-- BPUSH (SQ; R181) -/
  | bpush (ra : BitVec 5) (eng : BitVec 3)
  /-- SPEC (SQ; R115) -/
  | spec (off : BitVec 20)
  /-- COMMIT (SQ; R118) -/
  | commit
  /-- ABORT (SQ; R118) -/
  | abort
  /-- SPECQ (SQ; R121) -/
  | specq (rd : BitVec 5)
  /-- BARA (SQ; R396) -/
  | bara (scope : BitVec 3) (id : BitVec 5)
  /-- BARW (SQ; R396) -/
  | barw (scope : BitVec 3) (id : BitVec 5)
  /-- BARAW (SQ; R396) -/
  | baraw (scope : BitVec 3) (id : BitVec 5)
  /-- PQPUSH (SQ; R391) -/
  | pqpush (ra rb : BitVec 5) (scope : BitVec 3)
  /-- PQPOP (SQ; R391) -/
  | pqpop (rd : BitVec 5) (scope : BitVec 3)
  /-- PQPEEK (SQ; R391) -/
  | pqpeek (rd : BitVec 5) (scope : BitVec 3)
  /-- RDTIME (SQ; R123) -/
  | rdtime (rd : BitVec 5)
  /-- SLEEPU (SQ; R217) -/
  | sleepu (ra : BitVec 5) (eng : BitVec 3)
  /-- TRAP (SQ; R122) -/
  | trap (code : BitVec 12)
  /-- ERET (SQ; R122) -/
  | eret
  /-- WFI (SQ; R122) -/
  | wfi
  /-- BRK (SQ; R122) -/
  | brk
  /-- RDSYS (SQ; R106) -/
  | rdsys (rd : BitVec 5) (reg : BitVec 12)
  /-- WRSYS (SQ; R106) -/
  | wrsys (ra : BitVec 5) (reg : BitVec 12)
  /-- WVIEW (SQ; R133) -/
  | wview (ra : BitVec 5) (view : BitVec 3)
  /-- TDSET (SQ; R203) -/
  | tdset (ra : BitVec 5) (id : BitVec 8)
  /-- PATCH (SQ; R341) -/
  | patch (ra rb off width : BitVec 5)
  /-- TLBINV_VA (SQ; R356) -/
  | tlbinvVa (ra : BitVec 5)
  /-- TLBINV_CTX (SQ; R356) -/
  | tlbinvCtx (ra : BitVec 5)
  /-- TLBINV_ALL (SQ; R356) -/
  | tlbinvAll
  /-- ERESUME (SQ; R184) -/
  | eresume (eng : BitVec 3)
  /-- EFREEZE (SQ; R185) -/
  | efreeze (eng : BitVec 3)
  /-- EQUERY (SQ; R186) -/
  | equery (rd : BitVec 5) (eng : BitVec 3)
  /-- C_ADDI (compact SQ form; R66) -/
  | cAddi (rd : BitVec 5) (imm : BitVec 6)
  /-- C_MOV (compact SQ form; R66) -/
  | cMov (rd rs : BitVec 5)
  /-- C_ADD (compact SQ form; R66) -/
  | cAdd (rd rs : BitVec 5)
  /-- C_SUB (compact SQ form; R66) -/
  | cSub (rd rs : BitVec 5)
  /-- C_LD (compact SQ form; R66) -/
  | cLd (rd : BitVec 5) (off : BitVec 6)
  /-- C_ST (compact SQ form; R66) -/
  | cSt (rd : BitVec 5) (off : BitVec 6)
  /-- C_BEQZ (compact SQ form; R66) -/
  | cBeqz (ra : BitVec 5) (off : BitVec 6)
  /-- C_BNEZ (compact SQ form; R66) -/
  | cBnez (ra : BitVec 5) (off : BitVec 6)
  /-- C_J (compact SQ form; R66) -/
  | cJ (off : BitVec 11)
  /-- C_SLLI (compact SQ form; R66) -/
  | cSlli (rd : BitVec 5) (amt : BitVec 6)
  /-- C_SRLI (compact SQ form; R66) -/
  | cSrli (rd : BitVec 5) (amt : BitVec 6)
  /-- C_ANDI (compact SQ form; R66) -/
  | cAndi (rd : BitVec 5) (imm : BitVec 6)
  /-- C_RET (compact SQ form; R66) -/
  | cRet
  /-- C_TWAIT (compact SQ form; R66) -/
  | cTwait (eng : BitVec 3)
  /-- NOP (block control word; R159) -/
  | nop
  /-- BEXIT (block control word; R160) -/
  | bexit (tgt : BitVec 3)
  /-- BSKIP (block control word; R161) -/
  | bskip (tgt : BitVec 3) (cnt : BitVec 8)
  /-- STOP (block control word; R159) -/
  | stop
  /-- BPUSHM (block control word; R162) -/
  | bpushm (tgt msk : BitVec 3) (summary : BitVec 2)
  /-- VMSEL (block control word; R163) -/
  | vmsel (msk : BitVec 3)
  /-- ROT (block control word; R164) -/
  | rot (view : BitVec 3)
  /-- VADD (VE; R145) -/
  | vadd (d s1 s2 : BitVec 8) (m : BitVec 1)
  /-- VSUB (VE; R145) -/
  | vsub (d s1 s2 : BitVec 8) (m : BitVec 1)
  /-- VMUL (VE; R145) -/
  | vmul (d s1 s2 : BitVec 8) (m : BitVec 1)
  /-- VFMA (VE; R145) -/
  | vfma (d s1 s2 : BitVec 8) (m : BitVec 1)
  /-- VFMS (VE; R145) -/
  | vfms (d s1 s2 : BitVec 8) (m : BitVec 1)
  /-- VMIN (VE; R145) -/
  | vmin (d s1 s2 : BitVec 8) (m : BitVec 1)
  /-- VMAX (VE; R145) -/
  | vmax (d s1 s2 : BitVec 8) (m : BitVec 1)
  /-- VAND (VE; R145) -/
  | vand (d s1 s2 : BitVec 8) (m : BitVec 1)
  /-- VOR (VE; R145) -/
  | vor (d s1 s2 : BitVec 8) (m : BitVec 1)
  /-- VXOR (VE; R145) -/
  | vxor (d s1 s2 : BitVec 8) (m : BitVec 1)
  /-- VSHL (VE; R145) -/
  | vshl (d s1 s2 : BitVec 8) (m : BitVec 1)
  /-- VSHR (VE; R145) -/
  | vshr (d s1 s2 : BitVec 8) (m : BitVec 1)
  /-- VADDS (VE; R145) -/
  | vadds (d s1 s2 : BitVec 8) (m : BitVec 1)
  /-- VSUBS (VE; R145) -/
  | vsubs (d s1 s2 : BitVec 8) (m : BitVec 1)
  /-- VMULH (VE; R145) -/
  | vmulh (d s1 s2 : BitVec 8) (m : BitVec 1)
  /-- VABSD (VE; R145) -/
  | vabsd (d s1 s2 : BitVec 8) (m : BitVec 1)
  /-- VCMPEQ (VE; R146) -/
  | vcmpeq (d : BitVec 3) (s1 s2 : BitVec 8) (m : BitVec 1)
  /-- VCMPNE (VE; R146) -/
  | vcmpne (d : BitVec 3) (s1 s2 : BitVec 8) (m : BitVec 1)
  /-- VCMPLT (VE; R146) -/
  | vcmplt (d : BitVec 3) (s1 s2 : BitVec 8) (m : BitVec 1)
  /-- VCMPLE (VE; R146) -/
  | vcmple (d : BitVec 3) (s1 s2 : BitVec 8) (m : BitVec 1)
  /-- VSEL (VE; R147) -/
  | vsel (d s1 s2 : BitVec 8)
  /-- VPERM (VE; R148) -/
  | vperm (d s1 s2 : BitVec 8) (m : BitVec 1)
  /-- VDOT4 (VE; R151) -/
  | vdot4 (d s1 s2 : BitVec 8) (m : BitVec 1)
  /-- VLUT (VE; R149) -/
  | vlut (d s1 s2 : BitVec 8) (m : BitVec 1)
  /-- VSCL (VE; R150) -/
  | vscl (d s1 s2 : BitVec 8) (m : BitVec 1)
  /-- VMAND (VE; R152) -/
  | vmand (d s1 s2 : BitVec 3)
  /-- VMOR (VE; R152) -/
  | vmor (d s1 s2 : BitVec 3)
  /-- VMXOR (VE; R152) -/
  | vmxor (d s1 s2 : BitVec 3)
  /-- VMOV (VE; R153) -/
  | vmov (d s1 : BitVec 8) (m : BitVec 1)
  /-- VNEG (VE; R153) -/
  | vneg (d s1 : BitVec 8) (m : BitVec 1)
  /-- VABS (VE; R153) -/
  | vabs (d s1 : BitVec 8) (m : BitVec 1)
  /-- VNOT (VE; R153) -/
  | vnot (d s1 : BitVec 8) (m : BitVec 1)
  /-- VCVT (VE; R154) -/
  | vcvt (d s1 : BitVec 8) (m : BitVec 1)
  /-- VCVTD (VE; R267) -/
  | vcvtd (d s1 : BitVec 8)
  /-- VCVTU (VE; R268) -/
  | vcvtu (d s1 : BitVec 8) (m : BitVec 1)
  /-- VRND (VE; R153) -/
  | vrnd (d s1 : BitVec 8) (m : BitVec 1)
  /-- VEXP2 (VE; R49) -/
  | vexp2 (d s1 : BitVec 8) (m : BitVec 1)
  /-- VLOG2 (VE; R49) -/
  | vlog2 (d s1 : BitVec 8) (m : BitVec 1)
  /-- VEXP (VE; R49) -/
  | vexp (d s1 : BitVec 8) (m : BitVec 1)
  /-- VRCP (VE; R49) -/
  | vrcp (d s1 : BitVec 8) (m : BitVec 1)
  /-- VRSQ (VE; R49) -/
  | vrsq (d s1 : BitVec 8) (m : BitVec 1)
  /-- VSQRT (VE; R49) -/
  | vsqrt (d s1 : BitVec 8) (m : BitVec 1)
  /-- VSIG (VE; R49) -/
  | vsig (d s1 : BitVec 8) (m : BitVec 1)
  /-- VTANH (VE; R49) -/
  | vtanh (d s1 : BitVec 8) (m : BitVec 1)
  /-- VRDSUM (VE; R155) -/
  | vrdsum (d s1 : BitVec 8) (m : BitVec 1)
  /-- VRDMAX (VE; R155) -/
  | vrdmax (d s1 : BitVec 8) (m : BitVec 1)
  /-- VRDMIN (VE; R155) -/
  | vrdmin (d s1 : BitVec 8) (m : BitVec 1)
  /-- VPOPC (VE; R153) -/
  | vpopc (d s1 : BitVec 8) (m : BitVec 1)
  /-- VCLZ (VE; R153) -/
  | vclz (d s1 : BitVec 8) (m : BitVec 1)
  /-- VBCAST (VE; R153) -/
  | vbcast (d s1 : BitVec 8) (m : BitVec 1)
  /-- VMNOT (VE; R152) -/
  | vmnot (d s1 : BitVec 3)
  /-- VMCNT (VE; R156) -/
  | vmcnt (d : BitVec 8) (s1 : BitVec 3) (m : BitVec 1)
  /-- VIOTA (VE; R156) -/
  | viota (d : BitVec 8) (m : BitVec 1)
  /-- VMODE (VE; R157) -/
  | vmode (mode : BitVec 4)
  /-- SCSET (VE; R270) -/
  | scset (d s1 : BitVec 8)
  /-- SCADDE (VE; R270) -/
  | scadde (d s1 : BitVec 8)
  /-- SCMAX (VE; R270) -/
  | scmax (d s1 : BitVec 8)
  /-- SCMIN (VE; R270) -/
  | scmin (d s1 : BitVec 8)
  /-- SCMOV (VE; R270) -/
  | scmov (d s1 : BitVec 8)
  /-- SCBIND (VE; R270) -/
  | scbind (d s1 : BitVec 8)
  /-- SCUNB (VE; R270) -/
  | scunb (d : BitVec 8)
  /-- SCRD (VE; R270) -/
  | scrd (d s1 : BitVec 8)
  /-- SCWR (VE; R270) -/
  | scwr (d s1 : BitVec 8)
  /-- SCNEW (VE; R270) -/
  | scnew (d : BitVec 8)
  /-- VMOVI (VE; R158) -/
  | vmovi (d : BitVec 8) (imm : BitVec 16) (m : BitVec 1)
  /-- LDV (AE; R204) -/
  | ldv (opd : BitVec 8) (p cls : BitVec 4) (imm : BitVec 10)
  /-- STV (AE; R204) -/
  | stv (opd : BitVec 8) (p cls : BitVec 4) (imm : BitVec 10)
  /-- LDS (AE; R204) -/
  | lds (opd : BitVec 8) (p cls : BitVec 4) (imm : BitVec 10)
  /-- STS (AE; R204) -/
  | sts (opd : BitVec 8) (p cls : BitVec 4) (imm : BitVec 10)
  /-- GATH (AE; R205) -/
  | gath (opd : BitVec 8) (p cls idx : BitVec 4) (size : BitVec 2) (zp : BitVec 1)
  /-- SCAT (AE; R207) -/
  | scat (opd : BitVec 8) (p cls idx : BitVec 4) (size : BitVec 2)
  /-- LDT (AE; R272) -/
  | ldt (opd : BitVec 8) (p cls : BitVec 4) (id : BitVec 8)
  /-- STT (AE; R273) -/
  | stt (opd : BitVec 8) (p cls : BitVec 4) (id : BitVec 8)
  /-- LDI (AE; R208) -/
  | ldi (pd : BitVec 4) (size : BitVec 2) (p cls : BitVec 4) (imm : BitVec 10)
  /-- PREF (AE; R209) -/
  | pref (p cls : BitVec 4) (imm : BitVec 10)
  /-- SRCHK (AE; R407) -/
  | srchk (opd : BitVec 8) (p cls : BitVec 4) (cols : BitVec 8) (k : BitVec 2)
  /-- HIST (AE; R408) -/
  | hist (opd : BitVec 8) (p cls : BitVec 4) (experts : BitVec 8)
  /-- ATOMS (AE; R210) -/
  | atoms (opd : BitVec 8) (p cls : BitVec 4) (op : BitVec 3)
  /-- SPILLP (AE; R275) -/
  | spillp (opd : BitVec 8) (p cls : BitVec 4)
  /-- FILLP (AE; R276) -/
  | fillp (opd : BitVec 8) (p cls : BitVec 4)
  /-- PADDI (AE; R89) -/
  | paddi (pd ps : BitVec 4) (imm : BitVec 18)
  /-- PADD (AE; R89) -/
  | padd (pd ps : BitVec 4)
  /-- PMOVI (AE; R89) -/
  | pmovi (pd : BitVec 4) (imm : BitVec 18)
  /-- PMOVA (AE; R89) -/
  | pmova (pd : BitVec 4) (arg : BitVec 2)
  /-- PMULI (AE; R89) -/
  | pmuli (pd ps : BitVec 4) (imm : BitVec 18)
  /-- PCMP (AE; R211) -/
  | pcmp (ps pt : BitVec 4) (cond tgt : BitVec 3)
  /-- MMUL (ME; R240) -/
  | mmul (acc : BitVec 4) (src : BitVec 8) (q : BitVec 3) (n : BitVec 2) (rows : BitVec 7) (z sc : BitVec 1)
  /-- MFILL (ME; R245) -/
  | mfill (q reps : BitVec 3)
  /-- MPIN (ME; R245) -/
  | mpin (q : BitVec 3)
  /-- MUNPIN (ME; R245) -/
  | munpin (q : BitVec 3)
  /-- MINV (ME; R245) -/
  | minv (q : BitVec 3)
  /-- MQRY (ME; R245) -/
  | mqry (q tgt : BitVec 3)
  /-- LREL (ME; R246) -/
  | lrel
  /-- MCLR (ME; R247) -/
  | mclr (acc : BitVec 4)
  /-- MQSET (ME; R244) -/
  | mqset (q : BitVec 3) (id : BitVec 8) (arg : BitVec 2) (grow : BitVec 1)
  /-- MQADD (ME; R244) -/
  | mqadd (q : BitVec 3) (k : BitVec 20)
  /-- MSTAT (ME; R247) -/
  | mstat (acc : BitVec 4)
  /-- CPY (CE; R214) -/
  | cpy (pa pb pc : BitVec 3) (cls : BitVec 4) (dspace sspace : BitVec 2)
  /-- CPYT (CE; R274) -/
  | cpyt (pa pb pc : BitVec 3) (cls : BitVec 4) (id : BitVec 8)
  /-- CPYACC (CE; R248) -/
  | cpyacc (pa pb : BitVec 3) (cls acc ty : BitVec 4)
  /-- FILL (CE; R215) -/
  | fill (pa pb pc : BitVec 3) (cls : BitVec 4) (dspace esz : BitVec 2)
  /-- ETCH (CE; R429) -/
  | etch (pa pb pc : BitVec 3) (ch : BitVec 9)
  /-- ROUNDO (CE; R429) -/
  | roundo (id : BitVec 4)
  /-- ROUNDC (CE; R429) -/
  | roundc (id : BitVec 4)
  /-- XPUT (XE; R437) -/
  | xput (pa pb pc : BitVec 3) (cls : BitVec 4) (dev : BitVec 10)
  /-- XGET (XE; R437) -/
  | xget (pa pb pc : BitVec 3) (cls : BitVec 4) (dev : BitVec 10)
  /-- XRED (XE; R437) -/
  | xred (pa pb pc : BitVec 3) (cls : BitVec 4) (dev : BitVec 10) (op : BitVec 3)
  /-- XSIG (XE; R438) -/
  | xsig (pa pb : BitVec 3) (cls : BitVec 4) (dev : BitVec 10)
  /-- XSEND (XE; R413) -/
  | xsend (pa pb pc : BitVec 3) (cls : BitVec 4) (tgt : BitVec 8)
  /-- XADM (XE; R410) -/
  | xadm (pa pb pc : BitVec 3)
  /-- XREFQ (XE; R414) -/
  | xrefq (pa pb : BitVec 3)
  /-- XWAIT (XE; R439) -/
  | xwait (pa pb : BitVec 3) (cond : BitVec 2)
  /-- ENTRY_START (step; R169) -/
  | entryStart (e : Engine)
  /-- REPETITION_END (step; R171) -/
  | repetitionEnd (e : Engine) (half : Bool)
  /-- ENTRY_COMPLETE (step; R173) -/
  | entryComplete (e : Engine)
  /-- VE_WRITE_LAND (step; R138) -/
  | veWriteLand
  /-- DATA_QUEUE_ARRIVAL (step; R176) -/
  | dataQueueArrival (q : BitVec 3)
  /-- AE_LOAD_RETURN (step; R193) -/
  | aeLoadReturn (idx : Nat)
  /-- LDI_DATA_RETURN (step; R208) -/
  | ldiDataReturn (idx : Nat)
  /-- SCRATCHPAD_ACCESS_COMPLETE (step; R198) -/
  | scratchpadAccessComplete (idx : Nat)
  /-- SLEEPU_WAKE (step; R217) -/
  | sleepuWake
  /-- QUEUE_WAIT_RESUME (step; R177) -/
  | queueWaitResume (u : UnitId)
  /-- CHECK_RESOLVE (step; R117) -/
  | checkResolve
  /-- ASYNC_TRAP_ENTRY (step; R101) -/
  | asyncTrapEntry
  /-- PARK_WAKE (step; R355) -/
  | parkWake (line : Nat)
  /-- PAGE_RECLASSIFY (step; R318) -/
  | pageReclassify (leaf level : Nat)
  /-- LEASE_GRANT (step; R231) -/
  | leaseGrant (quad : BitVec 6)
  /-- LEASE_RUN_END (step; R231) -/
  | leaseRunEnd (quad : BitVec 6)
  /-- PLATE_FILL_COMPLETE (step; R242) -/
  | plateFillComplete (quad : BitVec 6) (plate : BitVec 4) (remaps : Nat)
  /-- MMUL_COMPLETE (step; R242) -/
  | mmulComplete
  /-- GETS (step; R311) -/
  | gets (h : Holder) (sector : Nat) (ctx : BitVec 6) (hint : BitVec 2)
  /-- GETM (step; R311) -/
  | getm (h : Holder) (sector : Nat) (ctx : BitVec 6) (window : Bool) (hint : BitVec 2)
  /-- PUTM (step; R311) -/
  | putm (h : Holder) (sector : Nat)
  /-- INV (step; R310) -/
  | inv (h : Holder) (sector : Nat)
  /-- INVACK (step; R311) -/
  | invack (h : Holder) (sector : Nat) (up : Bool)
  /-- FWD_S (step; R310) -/
  | fwdS (h : Holder) (sector : Nat)
  /-- FWD_M (step; R310) -/
  | fwdM (h : Holder) (sector : Nat)
  /-- DATA (step; R310) -/
  | data (h : Holder) (sector : Nat) (flit : DataFlit)
  /-- REPLACEMENT (step; R315) -/
  | replacement (h : Holder) (sector : Nat)
  /-- CREATE (step; R361) -/
  | create
  /-- START (step; R360) -/
  | start
  /-- DESTROY (step; R363) -/
  | destroy
  /-- SCRUB_COMPLETE (step; R363) -/
  | scrubComplete (ctx : BitVec 6)
  /-- FREEZE (step; R364) -/
  | freeze (core : BitVec 8)
  /-- FREEZE_COMPLETE (step; R364) -/
  | freezeComplete (core : BitVec 8)
  /-- RESUME (step; R370) -/
  | resume (core : BitVec 8)
  /-- RESTORE (step; R372) -/
  | restore (core : BitVec 8) (mgr : BitVec 2)
  /-- SNAPDATA_ACCESS (step; R375) -/
  | snapdataAccess (mgr : BitVec 2) (value : Option Word)
  /-- GRAPHADDR_WRITE (step; R378) -/
  | graphaddrWrite (fn : BitVec 6) (v : Word)
  /-- TRIGGER_WRITE (step; R381) -/
  | triggerWrite (fn : BitVec 6) (v : Word)
  /-- LAUNCH_REGISTER_WRITE (step; R475, R476), or a read of BAR0 -/
  | launchRegisterWrite (fn : BitVec 6) (off : Nat) (act : BarAccess)
  /-- GROUP_PLACE (step; R385) -/
  | groupPlace
  /-- QUANTUM_EXPIRY (step; R387) -/
  | quantumExpiry (group : Nat)
  /-- CORE_EXIT (step; R482) -/
  | coreExit
  /-- GROUP_FAIL (step; R484) -/
  | groupFail (core : BitVec 8)
  /-- LAUNCH_END (step; R383) -/
  | launchEnd (launch : Nat)
  /-- COMPLETION_INTERRUPT (step; R383) -/
  | completionInterrupt (launch : Nat)
  /-- ROW_ARRIVAL (step; R411) -/
  | rowArrival (sender : BitVec 8)
  /-- SEND_ANSWER (step; R413) -/
  | sendAnswer (idx : Nat)
  /-- REFUSAL_ARRIVAL (step; R413) -/
  | refusalArrival (idx : Nat)
  /-- ETCH_UNIT_RUN (step; R422) -/
  | etchUnitRun (chan : BitVec 9)
  /-- ETCH_YIELD (step; R426) -/
  | etchYield (chan : BitVec 9) (ops : Nat)
  /-- ROUND_ACK (step; R428) -/
  | roundAck (round : BitVec 4) (chan : BitVec 9)
  /-- REMOTE_ACCESS (step; R433) -/
  | remoteAccess (dev : BitVec 10) (core : BitVec 8) (flit : AccessFlit)
  /-- REMOTE_ACK (step; R434) -/
  | remoteAck (flit : AnswerFlit)
  /-- FLIT_RECEIVE (step; R442) -/
  | flitReceive (port : BitVec 4) (flit : List Byte) (corrected : Nat)
  /-- REPLAY_REQUEST (step; R442) -/
  | replayRequest (port : BitVec 4) (seq : BitVec 12)
  /-- LANE_FAILURE (step; R441) -/
  | laneFailure (port : BitVec 4)
  /-- TRAIN_COMPLETE (step; R441) -/
  | trainComplete (port : BitVec 4) (lanes : BitVec 3) (peer : BitVec 10)
  /-- LINK_START (step; R469) -/
  | linkStart (port : BitVec 4)
  /-- LINK_STOP (step; R469) -/
  | linkStop (port : BitVec 4)
  /-- START_SEQUENCE (step; R460) -/
  | startSequence (src : BitVec 8) (boot : Boot)
  /-- MINIMAL_MODE_RETRY (step; R462) -/
  | minimalModeRetry (boot : Boot)
  /-- THERMAL_TRIP (step; R480) -/
  | thermalTrip (boot : Boot)
  /-- ATTESTATION_REQUEST (step; R468) -/
  | attestationRequest (nonce : List Byte)
  /-- WORLDQ_WRITE (step; R464) -/
  | worldqWrite (v : Word)
  /-- WORLDR_WRITE (step; R464) -/
  | worldrWrite (v : Word)
  /-- WORLDU_WRITE (step; R464) -/
  | worlduWrite (v : Word)
  /-- DEBUGST_WRITE (step; R465) -/
  | debugstWrite (v : Word)
  /-- QUAD_P1 (step; R466) -/
  | quadP1 (quad : BitVec 6) (mgr : BitVec 2)
  /-- QUAD_P2 (step; R466) -/
  | quadP2 (quad : BitVec 6) (mgr : BitVec 2)
  /-- QUAD_WAKE (step; R466) -/
  | quadWake (quad : BitVec 6)
  /-- DIE_SLEEP (step; R466) -/
  | dieSleep (die : BitVec 2)
  /-- DIE_WAKE (step; R466) -/
  | dieWake (die : BitVec 2)
  /-- FNPOLICY_WRITE (step; R471) -/
  | fnpolicyWrite (v : Word)
  /-- PLMASK_WRITE (step; R250) -/
  | plmaskWrite (v : Word)
  /-- PLTAG_WRITE (step; R254) -/
  | pltagWrite (n : BitVec 4) (v : Word)
  /-- ESTATE_WRITE (step; R188) -/
  | estateWrite (e : Engine) (v : Word)
  /-- VMODE_WRITE (step; R41) -/
  | vmodeWrite (v : Word)
  /-- VIEW_WORD_WRITE (step; R134) -/
  | viewWordWrite (k : BitVec 4) (v : Word)
  /-- APERTURE_READ (step; R477) -/
  | apertureRead (fn : BitVec 6) (off len : Nat)
  /-- APERTURE_WRITE (step; R477) -/
  | apertureWrite (fn : BitVec 6) (off : Nat) (act : ApertureAct)
  /-- ILLEGAL_INSTRUCTION (step; R78) -/
  | illegalInstruction
  /-- FETCH_FAULT (step; R332) -/
  | fetchFault
  /-- HOST_LINK_COMPLETION (step; R295) -/
  | hostLinkCompletion (ok : Bool)
  /-- DEBUG_ACCESS (step; R467) -/
  | debugAccess (core : BitVec 8) (req : DebugReq)
  /-- WATCHDOG (step; R463) -/
  | watchdog (boot : Boot)
  /-- POD_JOB (step; R432) -/
  | podJob (device : BitVec 10) (ctx : Option (BitVec 6)) (route : List PodMember) (pkgs : BitVec 11)
  /-- QUAD_P0 (step; R466) -/
  | quadP0 (quad : BitVec 6) (mgr : BitVec 2)
  deriving DecidableEq, Repr

end Sys2Proof
end

