-- ==== Sys2Proof/WellFormed.lean ====
section
/-! DEFINITION. The operand field and the checks that make an encoding reserved. -/

namespace Sys2Proof

/-- What an 8-bit operand field names (R73). -/
inductive Operand where
  /-- The main file: index `i` of view `v`. -/
  | main (v : BitVec 3) (i : BitVec 4)
  /-- Entry `o` of the operand file. -/
  | ofile (o : BitVec 4)
  /-- The down-converter over accumulator `t`. -/
  | dc (t : BitVec 4)
  /-- Queue `q`: a data queue or a store queue by position. -/
  | queue (q : BitVec 2)
  /-- The latched value. -/
  | lat
  /-- The broadcast of argument `a`. -/
  | arg (a : BitVec 2)
  /-- The constant zero. -/
  | vzero
  /-- A reserved value. -/
  | reserved
  deriving DecidableEq, Repr

/-- The operand of a field value (R73). -/
def operand (f : BitVec 8) : Operand :=
  let n := f.toNat
  if n < 128 then .main (bits n 4 3) (bits n 0 4)
  else if n < 144 then .ofile (bits n 0 4)
  else if 160 ≤ n ∧ n < 172 then .dc (bits n 0 4)
  else if 192 ≤ n ∧ n < 196 then .queue (bits n 0 2)
  else if n = 200 then .lat
  else if 208 ≤ n ∧ n < 212 then .arg (bits n 0 2)
  else if n = 212 then .vzero
  else .reserved

/-- Allowed as a VE source (R73). -/
def veSource (f : BitVec 8) : Bool :=
  match operand f with
  | .main _ _ | .ofile _ | .queue _ | .lat | .arg _ | .vzero => true
  | .dc _ | .reserved => false

/-- Allowed as a VE destination (R73): a push names sq0 or sq1. -/
def veDest (f : BitVec 8) : Bool :=
  match operand f with
  | .main _ _ | .ofile _ => true
  | .queue q => q.toNat < 2
  | .dc _ | .lat | .arg _ | .vzero | .reserved => false

/-- Allowed as an ME A source (R73). -/
def meSource (f : BitVec 8) : Bool :=
  match operand f with
  | .main _ _ | .ofile _ | .dc _ | .vzero => true
  | .queue _ | .lat | .arg _ | .reserved => false

/-- Allowed as an AE load destination (R73). -/
def aeDest (f : BitVec 8) : Bool :=
  match operand f with
  | .main _ _ | .ofile _ | .queue _ => true
  | .dc _ | .lat | .arg _ | .vzero | .reserved => false

/-- Allowed as an AE store source (R73): a pop names sq0 or sq1. -/
def aeSource (f : BitVec 8) : Bool :=
  match operand f with
  | .main _ _ | .ofile _ => true
  | .queue q => q.toNat < 2
  | .dc _ | .lat | .arg _ | .vzero | .reserved => false

/-- Names a granule of the main file. -/
def mainOnly (f : BitVec 8) : Bool := f.toNat < 128

/-- Names a granule of the main file or an entry of the operand file. -/
def stored (f : BitVec 8) : Bool := f.toNat < 144

/-- Why an encoding is no instruction (R78). -/
inductive Reject where
  /-- No instruction has this opcode, function or fixed bits. -/
  | opcode
  /-- A scope code that the instruction does not allow. -/
  | scope
  /-- Hint code 3. -/
  | hint
  /-- An ordering code that the instruction does not allow. -/
  | ord
  /-- A unit id that the field does not allow. -/
  | unit
  /-- A reserved value of a subfield. -/
  | subfield
  /-- An operand field value not allowed in its position. -/
  | operand
  /-- Both main-file sources of a V3 word of one parity (R74): ILLEGAL_BANK. -/
  | bank
  deriving DecidableEq, Repr

/-- `none` where the check holds, the rejection where it does not. -/
def need (b : Bool) (r : Reject) : Option Reject := if b then none else some r

/-- The first of two rejections. -/
def andThen (a b : Option Reject) : Option Reject :=
  match a with
  | some r => some r
  | none => b

/-- An engine field: 1 to 5 (R83). -/
def engineField (e : BitVec 3) : Option Reject := need (1 ≤ e.toNat && e.toNat ≤ 5) .unit

/-- A give or take field of ENQ: 0 to 5 or none, and not the engine itself (R63). -/
def linkField (eng u : BitVec 3) : Option Reject := need (u.toNat ≠ 6 && u ≠ eng) .unit

/-- Two take fields that name one unit are reserved (R63). -/
def distinctTakes (a b : BitVec 3) : Option Reject := need (a ≠ b || a.toNat = 7) .unit

/-- A scope field with least and greatest code. -/
def scopeField (lo hi : Nat) (s : BitVec 3) : Option Reject := need (lo ≤ s.toNat && s.toNat ≤ hi) .scope

/-- The parity rule of a V3 word (R74). -/
def bankRule (s1 s2 : BitVec 8) : Option Reject :=
  need (!(mainOnly s1 && mainOnly s2 && s1.toNat % 2 == s2.toNat % 2)) .bank

/-- The operand checks of a V3 word: ILLEGAL_INSTRUCTION ranks before ILLEGAL_BANK (R80). -/
def v3Fields (d s1 s2 : BitVec 8) : Option Reject :=
  andThen (need (veDest d && veSource s1 && veSource s2) .operand) (bankRule s1 s2)

/-- The operand checks of a compare, whose destination is a mask. -/
def cmpFields (s1 s2 : BitVec 8) : Option Reject :=
  andThen (need (veSource s1 && veSource s2) .operand) (bankRule s1 s2)

/-- The operand checks of a VX word. -/
def vxFields (d s1 : BitVec 8) : Option Reject := need (veDest d && veSource s1) .operand

/-- The scope and id of a barrier (R83). -/
def barFields (scope : BitVec 3) (id : BitVec 5) : Option Reject :=
  andThen (scopeField 2 5 scope) (need (id.toNat < (if scope.toNat = 5 then 8 else 16)) .subfield)

/-- The register pair of PQPOP and PQPEEK: even and not zero (R83). -/
def pairField (rd : BitVec 5) : Option Reject := need (rd.toNat % 2 = 0 && rd.toNat ≠ 0) .subfield

/-- A producer or target unit of a control word: 0 to 5 (R70). -/
def unitField (u : BitVec 3) : Option Reject := need (u.toNat ≤ 5) .unit

/-- An accumulator field: 0 to 11 (R76). -/
def accField (a : BitVec 4) : Option Reject := need (a.toNat ≤ 11) .subfield

/-- A space code: 0 to 2 (R92). -/
def spaceField (s : BitVec 2) : Option Reject := need (s.toNat ≤ 2) .subfield

/-- The operand checks of VFMA, VFMS and VDOT4, which also read d (R145). -/
def fmaFields (d s1 s2 : BitVec 8) : Option Reject := andThen (need (stored d) .operand) (v3Fields d s1 s2)

/-- The fields of an operand-file or main-file pair (R267 and R268 name which). -/
def pairOperands (d s1 : Bool) : Option Reject := need (d && s1) .operand

/-- The A source of an MMUL (R240): in the ME column, not the down-converter over a tile of the panel, and an operand-file
range that ends by of15. `n` and `rows` are the fields, one less than the counts. -/
def mmulSource (acc : BitVec 4) (n : BitVec 2) (src : BitVec 8) (rows : BitVec 7) : Bool :=
  match operand src with
  | .main _ _ | .vzero => true
  | .ofile o => o.toNat + (rows.toNat + 8) / 8 - 1 ≤ 15
  | .dc t => !(acc.toNat ≤ t.toNat && t.toNat ≤ acc.toNat + n.toNat)
  | .queue _ | .lat | .arg _ | .reserved => false

/-- What makes an instruction ill-formed on every decoder that has it, if anything (R78). -/
def Instr.defect : Instr → Option Reject
  | .add _ _ _ _ => none
  | .sub _ _ _ _ => none
  | .and _ _ _ => none
  | .or _ _ _ => none
  | .xor _ _ _ => none
  | .andn _ _ _ => none
  | .sll _ _ _ _ => none
  | .srl _ _ _ _ => none
  | .sra _ _ _ _ => none
  | .rol _ _ _ _ => none
  | .slt _ _ _ => none
  | .sltn _ _ _ => none
  | .min _ _ _ => none
  | .max _ _ _ => none
  | .minn _ _ _ => none
  | .maxn _ _ _ => none
  | .mul _ _ _ _ => none
  | .mulh _ _ _ => none
  | .mulhn _ _ _ => none
  | .div _ _ _ _ => none
  | .divn _ _ _ _ => none
  | .rem _ _ _ _ => none
  | .remn _ _ _ _ => none
  | .clz _ _ _ => none
  | .ctz _ _ _ => none
  | .popc _ _ _ => none
  | .bswap _ _ _ => none
  | .sext _ _ width => need (width.toNat ≠ 3) .subfield
  | .zext _ _ width => need (width.toNat ≠ 3) .subfield
  | .addi _ _ _ => none
  | .andi _ _ _ => none
  | .ori _ _ _ => none
  | .xori _ _ _ => none
  | .slli _ _ amt w => need (w.toNat = 0 || amt.toNat < 32) .subfield
  | .srli _ _ amt w => need (w.toNat = 0 || amt.toNat < 32) .subfield
  | .srai _ _ amt w => need (w.toNat = 0 || amt.toNat < 32) .subfield
  | .roli _ _ amt w => need (w.toNat = 0 || amt.toNat < 32) .subfield
  | .slti _ _ _ => none
  | .sltni _ _ _ => none
  | .movw _ _ _ _ => none
  | .ld _ _ _ _ _ => none
  | .ldn _ _ _ _ _ => none
  | .st _ _ _ _ _ => none
  | .ldx _ _ _ _ hint _ => need (hint.toNat ≠ 3) .hint
  | .ldxn _ _ _ _ hint _ => need (hint.toNat ≠ 3) .hint
  | .stx _ _ _ _ hint _ => need (hint.toNat ≠ 3) .hint
  | .amoadd _ _ _ _ scope _ _ => scopeField 0 6 scope
  | .amoand _ _ _ _ scope _ _ => scopeField 0 6 scope
  | .amoor _ _ _ _ scope _ _ => scopeField 0 6 scope
  | .amoxor _ _ _ _ scope _ _ => scopeField 0 6 scope
  | .amomin _ _ _ _ scope _ _ => scopeField 0 6 scope
  | .amomax _ _ _ _ scope _ _ => scopeField 0 6 scope
  | .amominn _ _ _ _ scope _ _ => scopeField 0 6 scope
  | .amomaxn _ _ _ _ scope _ _ => scopeField 0 6 scope
  | .amoswp _ _ _ _ scope _ _ => scopeField 0 6 scope
  | .cas _ _ _ _ scope _ _ => scopeField 0 6 scope
  | .ldo _ _ _ scope ord _ => andThen (scopeField 0 6 scope) (need (ord.toNat ≤ 1) .ord)
  | .sto _ _ _ scope ord _ => andThen (scopeField 0 6 scope) (need (ord.toNat = 0 || ord.toNat = 2) .ord)
  | .fenceC scope _ => scopeField 0 6 scope
  | .fenceM _ => none
  | .pubc _ _ scope => scopeField 1 6 scope
  | .cache _ _ op scope => andThen (scopeField 1 6 scope) (need (op.toNat ≠ 3) .subfield)
  | .beq _ _ _ => none
  | .bne _ _ _ => none
  | .blt _ _ _ => none
  | .bge _ _ _ => none
  | .bltn _ _ _ => none
  | .bgen _ _ _ => none
  | .jal _ _ => none
  | .jalr _ _ _ => none
  | .enq eng _ _ give take1 take2 take3 => andThen (engineField eng) (andThen (linkField eng give) (andThen (linkField eng take1) (andThen (linkField eng take2)
      (andThen (linkField eng take3) (andThen (distinctTakes take1 take2) (andThen (distinctTakes take1 take3)
      (distinctTakes take2 take3)))))))
  | .renq _ _ eng => engineField eng
  | .renqNb _ _ _ eng => engineField eng
  | .twait eng => engineField eng
  | .tsig eng => engineField eng
  | .tcnt _ eng => engineField eng
  | .bpop _ eng => engineField eng
  | .bpopS _ eng => engineField eng
  | .bpush _ eng => engineField eng
  | .spec _ => none
  | .commit => none
  | .abort => none
  | .specq _ => none
  | .bara scope id => barFields scope id
  | .barw scope id => barFields scope id
  | .baraw scope id => barFields scope id
  | .pqpush _ _ scope => scopeField 3 4 scope
  | .pqpop rd scope => andThen (pairField rd) (scopeField 3 4 scope)
  | .pqpeek rd scope => andThen (pairField rd) (scopeField 3 4 scope)
  | .rdtime _ => none
  | .sleepu _ eng => need (1 ≤ eng.toNat && eng.toNat ≠ 6) .unit
  | .trap _ => none
  | .eret => none
  | .wfi => none
  | .brk => none
  | .rdsys _ _ => none
  | .wrsys _ _ => none
  | .wview _ _ => none
  | .tdset _ _ => none
  | .patch _ _ off width => need (off.toNat + width.toNat + 1 ≤ 32) .subfield
  | .tlbinvVa _ => none
  | .tlbinvCtx _ => none
  | .tlbinvAll => none
  | .eresume eng => engineField eng
  | .efreeze eng => engineField eng
  | .equery _ eng => engineField eng
  | .cAddi _ _ => none
  | .cMov _ _ => none
  | .cAdd _ _ => none
  | .cSub _ _ => none
  | .cLd _ _ => none
  | .cSt _ _ => none
  | .cBeqz _ _ => none
  | .cBnez _ _ => none
  | .cJ _ => none
  | .cSlli _ _ => none
  | .cSrli _ _ => none
  | .cAndi _ _ => none
  | .cRet => none
  | .cTwait eng => engineField eng
  | .nop => none
  | .bexit tgt => unitField tgt
  | .bskip tgt cnt => andThen (unitField tgt) (need (cnt.toNat ≠ 0) .subfield)
  | .stop => none
  | .bpushm tgt _ summary => andThen (need (tgt.toNat ≤ 5 && tgt.toNat ≠ 2) .unit) (need (summary.toNat ≠ 3) .subfield)
  | .vmsel _ => none
  | .rot _ => none
  | .vadd d s1 s2 _ => v3Fields d s1 s2
  | .vsub d s1 s2 _ => v3Fields d s1 s2
  | .vmul d s1 s2 _ => v3Fields d s1 s2
  | .vfma d s1 s2 _ => fmaFields d s1 s2
  | .vfms d s1 s2 _ => fmaFields d s1 s2
  | .vmin d s1 s2 _ => v3Fields d s1 s2
  | .vmax d s1 s2 _ => v3Fields d s1 s2
  | .vand d s1 s2 _ => v3Fields d s1 s2
  | .vor d s1 s2 _ => v3Fields d s1 s2
  | .vxor d s1 s2 _ => v3Fields d s1 s2
  | .vshl d s1 s2 _ => v3Fields d s1 s2
  | .vshr d s1 s2 _ => v3Fields d s1 s2
  | .vadds d s1 s2 _ => v3Fields d s1 s2
  | .vsubs d s1 s2 _ => v3Fields d s1 s2
  | .vmulh d s1 s2 _ => v3Fields d s1 s2
  | .vabsd d s1 s2 _ => v3Fields d s1 s2
  | .vcmpeq _ s1 s2 _ => cmpFields s1 s2
  | .vcmpne _ s1 s2 _ => cmpFields s1 s2
  | .vcmplt _ s1 s2 _ => cmpFields s1 s2
  | .vcmple _ s1 s2 _ => cmpFields s1 s2
  | .vsel d s1 s2 => v3Fields d s1 s2
  | .vperm d s1 s2 _ => v3Fields d s1 s2
  | .vdot4 d s1 s2 _ => fmaFields d s1 s2
  | .vlut d s1 s2 _ => v3Fields d s1 s2
  | .vscl d s1 s2 _ => v3Fields d s1 s2
  | .vmand _ _ _ => none
  | .vmor _ _ _ => none
  | .vmxor _ _ _ => none
  | .vmov d s1 _ => vxFields d s1
  | .vneg d s1 _ => vxFields d s1
  | .vabs d s1 _ => vxFields d s1
  | .vnot d s1 _ => vxFields d s1
  | .vcvt d s1 _ => pairOperands (mainOnly d) (mainOnly s1)
  | .vcvtd d s1 => pairOperands (mainOnly d) (stored s1)
  | .vcvtu d s1 _ => pairOperands (stored d) (mainOnly s1)
  | .vrnd d s1 _ => vxFields d s1
  | .vexp2 d s1 _ => vxFields d s1
  | .vlog2 d s1 _ => vxFields d s1
  | .vexp d s1 _ => vxFields d s1
  | .vrcp d s1 _ => vxFields d s1
  | .vrsq d s1 _ => vxFields d s1
  | .vsqrt d s1 _ => vxFields d s1
  | .vsig d s1 _ => vxFields d s1
  | .vtanh d s1 _ => vxFields d s1
  | .vrdsum d s1 _ => vxFields d s1
  | .vrdmax d s1 _ => vxFields d s1
  | .vrdmin d s1 _ => vxFields d s1
  | .vpopc d s1 _ => vxFields d s1
  | .vclz d s1 _ => vxFields d s1
  | .vbcast d s1 _ => vxFields d s1
  | .vmnot _ _ => none
  | .vmcnt d _ _ => need (veDest d) .operand
  | .viota d _ => need (veDest d) .operand
  | .vmode _ => none
  | .scset d s1 => pairOperands (mainOnly d) (veSource s1)
  | .scadde d s1 => pairOperands (mainOnly d) (veSource s1)
  | .scmax d s1 => pairOperands (mainOnly d) (veSource s1)
  | .scmin d s1 => pairOperands (mainOnly d) (veSource s1)
  | .scmov d s1 => pairOperands (mainOnly d) (mainOnly s1)
  | .scbind d s1 => pairOperands (mainOnly d) (mainOnly s1)
  | .scunb d => need (mainOnly d) .operand
  | .scrd d s1 => pairOperands (stored d) (mainOnly s1)
  | .scwr d s1 => pairOperands (mainOnly d) (veSource s1)
  | .scnew d => need (mainOnly d) .operand
  | .vmovi d _ _ => need (veDest d) .operand
  | .ldv opd _ _ _ => need (aeDest opd) .operand
  | .stv opd _ _ _ => need (aeSource opd) .operand
  | .lds opd _ _ _ => need (aeDest opd) .operand
  | .sts opd _ _ _ => need (aeSource opd) .operand
  | .gath opd _ _ idx size _ => andThen (need (aeDest opd) .operand) (need (idx.toNat + 1024 / 2 ^ (7 + size.toNat) - 1 ≤ 15) .subfield)
  | .scat opd _ _ idx size => andThen (need (aeSource opd) .operand) (need (idx.toNat + 1024 / 2 ^ (7 + size.toNat) - 1 ≤ 15) .subfield)
  | .ldt opd p _ _ => andThen (need (mainOnly opd) .operand) (need (p.toNat ≠ 15) .subfield)
  | .stt opd p _ _ => andThen (need (mainOnly opd) .operand) (need (p.toNat ≠ 15) .subfield)
  | .ldi _ _ _ _ _ => none
  | .pref _ _ _ => none
  | .srchk opd _ _ _ _ => need (aeDest opd) .operand
  | .hist opd _ _ _ => need (aeSource opd) .operand
  | .atoms opd _ _ op => andThen (need (aeSource opd) .operand) (need (op.toNat ≤ 4) .subfield)
  | .spillp opd _ _ => need (mainOnly opd) .operand
  | .fillp opd _ _ => need (mainOnly opd) .operand
  | .paddi _ _ _ => none
  | .padd _ _ => none
  | .pmovi _ _ => none
  | .pmova _ _ => none
  | .pmuli _ _ _ => none
  | .pcmp _ _ cond tgt => andThen (need (cond.toNat ≤ 5) .subfield) (need (tgt.toNat ≤ 5 && tgt.toNat ≠ 1) .unit)
  | .mmul acc src q n rows _ _ => andThen (need (acc.toNat + n.toNat ≤ 11 && q.toNat + n.toNat ≤ 7) .subfield) (need (mmulSource acc n src rows) .operand)
  | .mfill _ _ => none
  | .mpin _ => none
  | .munpin _ => none
  | .minv _ => none
  | .mqry _ tgt => need (tgt.toNat ≤ 5 && tgt.toNat ≠ 3) .unit
  | .lrel => none
  | .mclr acc => accField acc
  | .mqset _ _ _ _ => none
  | .mqadd _ _ => none
  | .mstat acc => accField acc
  | .cpy _ _ _ _ dspace sspace => andThen (spaceField dspace) (spaceField sspace)
  | .cpyt pa _ _ _ _ => need (pa.toNat ≠ 7) .subfield
  | .cpyacc _ _ _ acc ty => andThen (accField acc) (need (ty.toNat = 0 || ty.toNat = 2 || ty.toNat = 4 || ty.toNat = 6 || ty.toNat = 7 || ty.toNat = 8) .subfield)
  | .fill _ _ _ _ dspace _ => spaceField dspace
  | .etch _ _ _ _ => none
  | .roundo _ => none
  | .roundc _ => none
  | .xput _ _ _ _ _ => none
  | .xget _ _ _ _ _ => none
  | .xred _ _ _ _ _ op => need (op.toNat ≤ 3) .subfield
  | .xsig _ _ _ _ => none
  | .xsend _ _ _ _ _ => none
  | .xadm _ _ _ => none
  | .xrefq _ _ => none
  | .xwait _ _ cond => need (cond.toNat ≠ 3) .subfield
  | .entryStart _ => none
  | .repetitionEnd _ _ => none
  | .entryComplete _ => none
  | .veWriteLand => none
  | .dataQueueArrival _ => none
  | .aeLoadReturn _ => none
  | .ldiDataReturn _ => none
  | .scratchpadAccessComplete _ => none
  | .sleepuWake => none
  | .queueWaitResume _ => none
  | .checkResolve => none
  | .asyncTrapEntry => none
  | .parkWake _ => none
  | .pageReclassify _ _ => none
  | .leaseGrant _ => none
  | .leaseRunEnd _ => none
  | .plateFillComplete _ _ _ => none
  | .mmulComplete => none
  | .gets _ _ _ _ => none
  | .getm _ _ _ _ _ => none
  | .putm _ _ => none
  | .inv _ _ => none
  | .invack _ _ _ => none
  | .fwdS _ _ => none
  | .fwdM _ _ => none
  | .data _ _ _ => none
  | .replacement _ _ => none
  | .create => none
  | .start => none
  | .destroy => none
  | .scrubComplete _ => none
  | .freeze _ => none
  | .freezeComplete _ => none
  | .resume _ => none
  | .restore _ _ => none
  | .snapdataAccess _ _ => none
  | .graphaddrWrite _ _ => none
  | .triggerWrite _ _ => none
  | .launchRegisterWrite _ _ _ => none
  | .groupPlace => none
  | .quantumExpiry _ => none
  | .coreExit => none
  | .groupFail _ => none
  | .launchEnd _ => none
  | .completionInterrupt _ => none
  | .rowArrival _ => none
  | .sendAnswer _ => none
  | .refusalArrival _ => none
  | .etchUnitRun _ => none
  | .etchYield _ _ => none
  | .roundAck _ _ => none
  | .remoteAccess _ _ _ => none
  | .remoteAck _ => none
  | .flitReceive _ _ _ => none
  | .replayRequest _ _ => none
  | .laneFailure _ => none
  | .trainComplete _ _ _ => none
  | .linkStart _ => none
  | .linkStop _ => none
  | .startSequence _ _ => none
  | .minimalModeRetry _ => none
  | .thermalTrip _ => none
  | .attestationRequest _ => none
  | .worldqWrite _ => none
  | .worldrWrite _ => none
  | .worlduWrite _ => none
  | .debugstWrite _ => none
  | .quadP1 _ _ => none
  | .quadP2 _ _ => none
  | .quadWake _ => none
  | .dieSleep _ => none
  | .dieWake _ => none
  | .fnpolicyWrite _ => none
  | .plmaskWrite _ => none
  | .pltagWrite _ _ => none
  | .estateWrite _ _ => none
  | .vmodeWrite _ => none
  | .viewWordWrite _ _ => none
  | .apertureRead _ _ _ => none
  | .apertureWrite _ _ _ => none
  | .illegalInstruction => none
  | .fetchFault => none
  | .hostLinkCompletion _ => none
  | .debugAccess _ _ => none
  | .watchdog _ => none
  | .podJob _ _ _ _ => none
  | .quadP0 _ _ => none

/-- An engine-specific check: no control word names the executing engine, the VE's own words stand on no other engine
(R70), and the CE and XE have pointers p0 to p7 only (R77). -/
def Instr.defectOn (e : Engine) : Instr → Option Reject
  | .bexit tgt => need (tgt.toNat ≠ e.id) .unit
  | .bskip tgt _ => need (tgt.toNat ≠ e.id) .unit
  | .bpushm _ _ _ => need (e = .ve) .opcode
  | .vmsel _ => need (e = .ve) .opcode
  | .rot _ => need (e = .ve) .opcode
  | .paddi pd ps _ => need (e = .ae || (pd.toNat < 8 && ps.toNat < 8)) .subfield
  | .padd pd ps => need (e = .ae || (pd.toNat < 8 && ps.toNat < 8)) .subfield
  | .pmovi pd _ => need (e = .ae || pd.toNat < 8) .subfield
  | .pmova pd _ => need (e = .ae || pd.toNat < 8) .subfield
  | .pmuli pd ps _ => need (e = .ae || (pd.toNat < 8 && ps.toNat < 8)) .subfield
  | _ => none

/-- No check of R78 refuses the instruction. -/
abbrev Instr.WellFormed (i : Instr) : Prop := i.defect = none

end Sys2Proof
end

