-- ==== Sys2Proof/Decode.lean ====
section
/-! DEFINITION. The six decoders, total on every word, and the encoder. A word is a number; bit 0 is the lowest bit of the first
halfword (R56). -/

namespace Sys2Proof

/-- The 32-bit words of the SQ by major opcode (R61, R81-R84). -/
def rawSq (w : Nat) : Option Instr :=
  match seg w 1 6 with
  | 1 =>
    match seg w 22 9 with
    | 0 => some (.add (bits w 7 5) (bits w 12 5) (bits w 17 5) (bits w 31 1))
    | 1 => some (.sub (bits w 7 5) (bits w 12 5) (bits w 17 5) (bits w 31 1))
    | 2 => if seg w 31 1 = 0 then some (.and (bits w 7 5) (bits w 12 5) (bits w 17 5)) else none
    | 3 => if seg w 31 1 = 0 then some (.or (bits w 7 5) (bits w 12 5) (bits w 17 5)) else none
    | 4 => if seg w 31 1 = 0 then some (.xor (bits w 7 5) (bits w 12 5) (bits w 17 5)) else none
    | 5 => if seg w 31 1 = 0 then some (.andn (bits w 7 5) (bits w 12 5) (bits w 17 5)) else none
    | 8 => some (.sll (bits w 7 5) (bits w 12 5) (bits w 17 5) (bits w 31 1))
    | 9 => some (.srl (bits w 7 5) (bits w 12 5) (bits w 17 5) (bits w 31 1))
    | 10 => some (.sra (bits w 7 5) (bits w 12 5) (bits w 17 5) (bits w 31 1))
    | 11 => some (.rol (bits w 7 5) (bits w 12 5) (bits w 17 5) (bits w 31 1))
    | 16 => if seg w 31 1 = 0 then some (.slt (bits w 7 5) (bits w 12 5) (bits w 17 5)) else none
    | 17 => if seg w 31 1 = 0 then some (.sltn (bits w 7 5) (bits w 12 5) (bits w 17 5)) else none
    | 18 => if seg w 31 1 = 0 then some (.min (bits w 7 5) (bits w 12 5) (bits w 17 5)) else none
    | 19 => if seg w 31 1 = 0 then some (.max (bits w 7 5) (bits w 12 5) (bits w 17 5)) else none
    | 20 => if seg w 31 1 = 0 then some (.minn (bits w 7 5) (bits w 12 5) (bits w 17 5)) else none
    | 21 => if seg w 31 1 = 0 then some (.maxn (bits w 7 5) (bits w 12 5) (bits w 17 5)) else none
    | 32 => some (.mul (bits w 7 5) (bits w 12 5) (bits w 17 5) (bits w 31 1))
    | 33 => if seg w 31 1 = 0 then some (.mulh (bits w 7 5) (bits w 12 5) (bits w 17 5)) else none
    | 34 => if seg w 31 1 = 0 then some (.mulhn (bits w 7 5) (bits w 12 5) (bits w 17 5)) else none
    | 36 => some (.div (bits w 7 5) (bits w 12 5) (bits w 17 5) (bits w 31 1))
    | 37 => some (.divn (bits w 7 5) (bits w 12 5) (bits w 17 5) (bits w 31 1))
    | 38 => some (.rem (bits w 7 5) (bits w 12 5) (bits w 17 5) (bits w 31 1))
    | 39 => some (.remn (bits w 7 5) (bits w 12 5) (bits w 17 5) (bits w 31 1))
    | 48 => if seg w 17 5 = 0 then some (.clz (bits w 7 5) (bits w 12 5) (bits w 31 1)) else none
    | 49 => if seg w 17 5 = 0 then some (.ctz (bits w 7 5) (bits w 12 5) (bits w 31 1)) else none
    | 50 => if seg w 17 5 = 0 then some (.popc (bits w 7 5) (bits w 12 5) (bits w 31 1)) else none
    | 51 => if seg w 17 5 = 0 then some (.bswap (bits w 7 5) (bits w 12 5) (bits w 31 1)) else none
    | 52 => if seg w 19 3 = 0 ∧ seg w 31 1 = 0 then some (.sext (bits w 7 5) (bits w 12 5) (bits w 17 2)) else none
    | 53 => if seg w 19 3 = 0 ∧ seg w 31 1 = 0 then some (.zext (bits w 7 5) (bits w 12 5) (bits w 17 2)) else none
    | _ => none
  | 2 => some (.addi (bits w 7 5) (bits w 12 5) (bits w 17 15))
  | 3 => some (.andi (bits w 7 5) (bits w 12 5) (bits w 17 15))
  | 4 => some (.ori (bits w 7 5) (bits w 12 5) (bits w 17 15))
  | 5 => some (.xori (bits w 7 5) (bits w 12 5) (bits w 17 15))
  | 6 =>
    match seg w 24 8 with
    | 0 => some (.slli (bits w 7 5) (bits w 12 5) (bits w 17 6) (bits w 23 1))
    | 1 => some (.srli (bits w 7 5) (bits w 12 5) (bits w 17 6) (bits w 23 1))
    | 2 => some (.srai (bits w 7 5) (bits w 12 5) (bits w 17 6) (bits w 23 1))
    | 3 => some (.roli (bits w 7 5) (bits w 12 5) (bits w 17 6) (bits w 23 1))
    | _ => none
  | 7 => some (.slti (bits w 7 5) (bits w 12 5) (bits w 17 15))
  | 8 => some (.sltni (bits w 7 5) (bits w 12 5) (bits w 17 15))
  | 9 => if seg w 15 1 = 0 then some (.movw (bits w 7 5) (bits w 12 2) (bits w 14 1) (bits w 16 16)) else none
  | 10 => some (.ld (bits w 7 5) (bits w 12 5) (bits w 17 4) (bits w 21 2) (bits w 23 9))
  | 11 => some (.ldn (bits w 7 5) (bits w 12 5) (bits w 17 4) (bits w 21 2) (bits w 23 9))
  | 12 => some (.st (bits w 7 5) (bits w 12 5) (bits w 17 4) (bits w 21 2) (bits w 23 9))
  | 13 =>
    match seg w 23 1 with
    | 0 => some (.ldxn (bits w 7 5) (bits w 12 5) (bits w 17 4) (bits w 21 2) (bits w 24 2) (bits w 26 6))
    | 1 => some (.ldx (bits w 7 5) (bits w 12 5) (bits w 17 4) (bits w 21 2) (bits w 24 2) (bits w 26 6))
    | _ => none
  | 14 => if seg w 23 1 = 0 then some (.stx (bits w 7 5) (bits w 12 5) (bits w 17 4) (bits w 21 2) (bits w 24 2) (bits w 26 6)) else none
  | 15 => some (.amoadd (bits w 7 5) (bits w 12 5) (bits w 17 5) (bits w 22 4) (bits w 26 3) (bits w 29 2) (bits w 31 1))
  | 16 => some (.amoand (bits w 7 5) (bits w 12 5) (bits w 17 5) (bits w 22 4) (bits w 26 3) (bits w 29 2) (bits w 31 1))
  | 17 => some (.amoor (bits w 7 5) (bits w 12 5) (bits w 17 5) (bits w 22 4) (bits w 26 3) (bits w 29 2) (bits w 31 1))
  | 18 => some (.amoxor (bits w 7 5) (bits w 12 5) (bits w 17 5) (bits w 22 4) (bits w 26 3) (bits w 29 2) (bits w 31 1))
  | 19 => some (.amomin (bits w 7 5) (bits w 12 5) (bits w 17 5) (bits w 22 4) (bits w 26 3) (bits w 29 2) (bits w 31 1))
  | 20 => some (.amomax (bits w 7 5) (bits w 12 5) (bits w 17 5) (bits w 22 4) (bits w 26 3) (bits w 29 2) (bits w 31 1))
  | 21 => some (.amominn (bits w 7 5) (bits w 12 5) (bits w 17 5) (bits w 22 4) (bits w 26 3) (bits w 29 2) (bits w 31 1))
  | 22 => some (.amomaxn (bits w 7 5) (bits w 12 5) (bits w 17 5) (bits w 22 4) (bits w 26 3) (bits w 29 2) (bits w 31 1))
  | 23 => some (.amoswp (bits w 7 5) (bits w 12 5) (bits w 17 5) (bits w 22 4) (bits w 26 3) (bits w 29 2) (bits w 31 1))
  | 24 => some (.cas (bits w 7 5) (bits w 12 5) (bits w 17 5) (bits w 22 4) (bits w 26 3) (bits w 29 2) (bits w 31 1))
  | 25 => if seg w 17 5 = 0 then some (.ldo (bits w 7 5) (bits w 12 5) (bits w 22 4) (bits w 26 3) (bits w 29 2) (bits w 31 1)) else none
  | 26 => if seg w 7 5 = 0 then some (.sto (bits w 12 5) (bits w 17 5) (bits w 22 4) (bits w 26 3) (bits w 29 2) (bits w 31 1)) else none
  | 27 => if seg w 10 6 = 0 then some (.fenceC (bits w 7 3) (bits w 16 16)) else none
  | 28 => if seg w 12 20 = 0 then some (.fenceM (bits w 7 5)) else none
  | 29 => if seg w 7 5 = 0 ∧ seg w 25 7 = 0 then some (.pubc (bits w 12 5) (bits w 17 5) (bits w 22 3)) else none
  | 30 => if seg w 7 5 = 0 ∧ seg w 27 5 = 0 then some (.cache (bits w 12 5) (bits w 17 5) (bits w 22 2) (bits w 24 3)) else none
  | 32 => some (.beq (bits w 7 5) (bits w 12 5) (bits w 17 15))
  | 33 => some (.bne (bits w 7 5) (bits w 12 5) (bits w 17 15))
  | 34 => some (.blt (bits w 7 5) (bits w 12 5) (bits w 17 15))
  | 35 => some (.bge (bits w 7 5) (bits w 12 5) (bits w 17 15))
  | 36 => some (.bltn (bits w 7 5) (bits w 12 5) (bits w 17 15))
  | 37 => some (.bgen (bits w 7 5) (bits w 12 5) (bits w 17 15))
  | 38 => some (.jal (bits w 7 5) (bits w 12 20))
  | 39 => some (.jalr (bits w 7 5) (bits w 12 5) (bits w 17 15))
  | 40 => some (.enq (bits w 7 3) (bits w 10 5) (bits w 15 5) (bits w 20 3) (bits w 23 3) (bits w 26 3) (bits w 29 3))
  | 41 =>
    match seg w 25 7 with
    | 0 => if seg w 7 5 = 0 then some (.renq (bits w 12 5) (bits w 17 5) (bits w 22 3)) else none
    | 1 => some (.renqNb (bits w 7 5) (bits w 12 5) (bits w 17 5) (bits w 22 3))
    | _ => none
  | 42 =>
    match seg w 22 3 with
    | 0 => if seg w 7 15 = 0 ∧ seg w 28 4 = 0 then some (.twait (bits w 25 3)) else none
    | 1 => if seg w 7 15 = 0 ∧ seg w 28 4 = 0 then some (.tsig (bits w 25 3)) else none
    | 2 => if seg w 12 10 = 0 ∧ seg w 28 4 = 0 then some (.tcnt (bits w 7 5) (bits w 25 3)) else none
    | _ => none
  | 43 =>
    match seg w 22 2 with
    | 0 => if seg w 12 10 = 0 ∧ seg w 27 5 = 0 then some (.bpop (bits w 7 5) (bits w 24 3)) else none
    | 1 => if seg w 12 10 = 0 ∧ seg w 27 5 = 0 then some (.bpopS (bits w 7 5) (bits w 24 3)) else none
    | 2 => if seg w 7 5 = 0 ∧ seg w 17 5 = 0 ∧ seg w 27 5 = 0 then some (.bpush (bits w 12 5) (bits w 24 3)) else none
    | _ => none
  | 44 => if seg w 7 5 = 0 then some (.spec (bits w 12 20)) else none
  | 45 =>
    match seg w 22 10 with
    | 0 => if seg w 7 15 = 0 then some .commit else none
    | 1 => if seg w 7 15 = 0 then some .abort else none
    | 2 => if seg w 12 10 = 0 then some (.specq (bits w 7 5)) else none
    | _ => none
  | 46 =>
    match seg w 22 2 with
    | 0 => if seg w 7 15 = 0 then some (.bara (bits w 24 3) (bits w 27 5)) else none
    | 1 => if seg w 7 15 = 0 then some (.barw (bits w 24 3) (bits w 27 5)) else none
    | 2 => if seg w 7 15 = 0 then some (.baraw (bits w 24 3) (bits w 27 5)) else none
    | _ => none
  | 47 =>
    match seg w 22 2 with
    | 0 => if seg w 7 5 = 0 ∧ seg w 27 5 = 0 then some (.pqpush (bits w 12 5) (bits w 17 5) (bits w 24 3)) else none
    | 1 => if seg w 12 10 = 0 ∧ seg w 27 5 = 0 then some (.pqpop (bits w 7 5) (bits w 24 3)) else none
    | 2 => if seg w 12 10 = 0 ∧ seg w 27 5 = 0 then some (.pqpeek (bits w 7 5) (bits w 24 3)) else none
    | _ => none
  | 48 =>
    match seg w 22 2 with
    | 0 => if seg w 12 10 = 0 ∧ seg w 24 8 = 0 then some (.rdtime (bits w 7 5)) else none
    | 1 => if seg w 7 5 = 0 ∧ seg w 17 5 = 0 ∧ seg w 27 5 = 0 then some (.sleepu (bits w 12 5) (bits w 24 3)) else none
    | _ => none
  | 49 =>
    match seg w 7 13 with
    | 0 => some (.trap (bits w 20 12))
    | 1024 => if seg w 20 12 = 0 then some .eret else none
    | 2048 => if seg w 20 12 = 0 then some .wfi else none
    | 3072 => if seg w 20 12 = 0 then some .brk else none
    | _ => none
  | 50 => if seg w 12 5 = 0 ∧ seg w 29 3 = 0 then some (.rdsys (bits w 7 5) (bits w 17 12)) else none
  | 51 => if seg w 7 5 = 0 ∧ seg w 29 3 = 0 then some (.wrsys (bits w 12 5) (bits w 17 12)) else none
  | 52 => if seg w 7 5 = 0 ∧ seg w 17 5 = 0 ∧ seg w 25 7 = 0 then some (.wview (bits w 12 5) (bits w 22 3)) else none
  | 53 => if seg w 7 5 = 0 ∧ seg w 17 5 = 0 ∧ seg w 30 2 = 0 then some (.tdset (bits w 12 5) (bits w 22 8)) else none
  | 54 => if seg w 7 5 = 0 then some (.patch (bits w 12 5) (bits w 17 5) (bits w 22 5) (bits w 27 5)) else none
  | 55 =>
    match seg w 22 10 with
    | 0 => if seg w 7 5 = 0 ∧ seg w 17 5 = 0 then some (.tlbinvVa (bits w 12 5)) else none
    | 1 => if seg w 7 5 = 0 ∧ seg w 17 5 = 0 then some (.tlbinvCtx (bits w 12 5)) else none
    | 2 => if seg w 7 15 = 0 then some .tlbinvAll else none
    | _ => none
  | 56 =>
    match seg w 22 2 with
    | 0 => if seg w 7 15 = 0 ∧ seg w 27 5 = 0 then some (.eresume (bits w 24 3)) else none
    | 1 => if seg w 7 15 = 0 ∧ seg w 27 5 = 0 then some (.efreeze (bits w 24 3)) else none
    | 2 => if seg w 12 10 = 0 ∧ seg w 27 5 = 0 then some (.equery (bits w 7 5) (bits w 24 3)) else none
    | _ => none
  | _ => none

/-- The 16-bit words of the SQ by op (R65). -/
def rawCompact (w : Nat) : Option Instr :=
  match seg w 1 4 with
  | 1 => some (.cAddi (bits w 5 5) (bits w 10 6))
  | 2 => if seg w 15 1 = 0 then some (.cMov (bits w 5 5) (bits w 10 5)) else none
  | 3 => if seg w 15 1 = 0 then some (.cAdd (bits w 5 5) (bits w 10 5)) else none
  | 4 => if seg w 15 1 = 0 then some (.cSub (bits w 5 5) (bits w 10 5)) else none
  | 5 => some (.cLd (bits w 5 5) (bits w 10 6))
  | 6 => some (.cSt (bits w 5 5) (bits w 10 6))
  | 7 => some (.cBeqz (bits w 5 5) (bits w 10 6))
  | 8 => some (.cBnez (bits w 5 5) (bits w 10 6))
  | 9 => some (.cJ (bits w 5 11))
  | 10 => some (.cSlli (bits w 5 5) (bits w 10 6))
  | 11 => some (.cSrli (bits w 5 5) (bits w 10 6))
  | 12 => some (.cAndi (bits w 5 5) (bits w 10 6))
  | 13 => if seg w 5 11 = 0 then some .cRet else none
  | 14 => if seg w 8 8 = 0 then some (.cTwait (bits w 5 3)) else none
  | _ => none

/-- The block control words by op (R70). -/
def rawControl (w : Nat) : Option Instr :=
  match seg w 1 4 with
  | 1 => if seg w 5 11 = 0 then some .nop else none
  | 2 => if seg w 8 8 = 0 then some (.bexit (bits w 5 3)) else none
  | 3 => some (.bskip (bits w 5 3) (bits w 8 8))
  | 4 => if seg w 5 11 = 0 then some .stop else none
  | 5 => if seg w 13 3 = 0 then some (.bpushm (bits w 5 3) (bits w 8 3) (bits w 11 2)) else none
  | 6 => if seg w 8 8 = 0 then some (.vmsel (bits w 5 3)) else none
  | 7 => if seg w 8 8 = 0 then some (.rot (bits w 5 3)) else none
  | _ => none

/-- The 32-bit words of the VE (R72, R85-R87). -/
def rawVe (w : Nat) : Option Instr :=
  match seg w 1 6 with
  | 0 => some (.vadd (bits w 7 8) (bits w 15 8) (bits w 23 8) (bits w 31 1))
  | 1 => some (.vsub (bits w 7 8) (bits w 15 8) (bits w 23 8) (bits w 31 1))
  | 2 => some (.vmul (bits w 7 8) (bits w 15 8) (bits w 23 8) (bits w 31 1))
  | 3 => some (.vfma (bits w 7 8) (bits w 15 8) (bits w 23 8) (bits w 31 1))
  | 4 => some (.vfms (bits w 7 8) (bits w 15 8) (bits w 23 8) (bits w 31 1))
  | 5 => some (.vmin (bits w 7 8) (bits w 15 8) (bits w 23 8) (bits w 31 1))
  | 6 => some (.vmax (bits w 7 8) (bits w 15 8) (bits w 23 8) (bits w 31 1))
  | 7 => some (.vand (bits w 7 8) (bits w 15 8) (bits w 23 8) (bits w 31 1))
  | 8 => some (.vor (bits w 7 8) (bits w 15 8) (bits w 23 8) (bits w 31 1))
  | 9 => some (.vxor (bits w 7 8) (bits w 15 8) (bits w 23 8) (bits w 31 1))
  | 10 => some (.vshl (bits w 7 8) (bits w 15 8) (bits w 23 8) (bits w 31 1))
  | 11 => some (.vshr (bits w 7 8) (bits w 15 8) (bits w 23 8) (bits w 31 1))
  | 12 => some (.vadds (bits w 7 8) (bits w 15 8) (bits w 23 8) (bits w 31 1))
  | 13 => some (.vsubs (bits w 7 8) (bits w 15 8) (bits w 23 8) (bits w 31 1))
  | 14 => some (.vmulh (bits w 7 8) (bits w 15 8) (bits w 23 8) (bits w 31 1))
  | 15 => some (.vabsd (bits w 7 8) (bits w 15 8) (bits w 23 8) (bits w 31 1))
  | 16 => if seg w 10 5 = 0 then some (.vcmpeq (bits w 7 3) (bits w 15 8) (bits w 23 8) (bits w 31 1)) else none
  | 17 => if seg w 10 5 = 0 then some (.vcmpne (bits w 7 3) (bits w 15 8) (bits w 23 8) (bits w 31 1)) else none
  | 18 => if seg w 10 5 = 0 then some (.vcmplt (bits w 7 3) (bits w 15 8) (bits w 23 8) (bits w 31 1)) else none
  | 19 => if seg w 10 5 = 0 then some (.vcmple (bits w 7 3) (bits w 15 8) (bits w 23 8) (bits w 31 1)) else none
  | 20 => if seg w 31 1 = 0 then some (.vsel (bits w 7 8) (bits w 15 8) (bits w 23 8)) else none
  | 21 => some (.vperm (bits w 7 8) (bits w 15 8) (bits w 23 8) (bits w 31 1))
  | 22 => some (.vdot4 (bits w 7 8) (bits w 15 8) (bits w 23 8) (bits w 31 1))
  | 23 => some (.vlut (bits w 7 8) (bits w 15 8) (bits w 23 8) (bits w 31 1))
  | 24 => some (.vscl (bits w 7 8) (bits w 15 8) (bits w 23 8) (bits w 31 1))
  | 25 => if seg w 10 5 = 0 ∧ seg w 18 5 = 0 ∧ seg w 26 6 = 0 then some (.vmand (bits w 7 3) (bits w 15 3) (bits w 23 3)) else none
  | 26 => if seg w 10 5 = 0 ∧ seg w 18 5 = 0 ∧ seg w 26 6 = 0 then some (.vmor (bits w 7 3) (bits w 15 3) (bits w 23 3)) else none
  | 27 => if seg w 10 5 = 0 ∧ seg w 18 5 = 0 ∧ seg w 26 6 = 0 then some (.vmxor (bits w 7 3) (bits w 15 3) (bits w 23 3)) else none
  | 62 =>
    match seg w 23 8 with
    | 0 => some (.vmov (bits w 7 8) (bits w 15 8) (bits w 31 1))
    | 1 => some (.vneg (bits w 7 8) (bits w 15 8) (bits w 31 1))
    | 2 => some (.vabs (bits w 7 8) (bits w 15 8) (bits w 31 1))
    | 3 => some (.vnot (bits w 7 8) (bits w 15 8) (bits w 31 1))
    | 4 => some (.vcvt (bits w 7 8) (bits w 15 8) (bits w 31 1))
    | 5 => if seg w 31 1 = 0 then some (.vcvtd (bits w 7 8) (bits w 15 8)) else none
    | 6 => some (.vcvtu (bits w 7 8) (bits w 15 8) (bits w 31 1))
    | 7 => some (.vrnd (bits w 7 8) (bits w 15 8) (bits w 31 1))
    | 8 => some (.vexp2 (bits w 7 8) (bits w 15 8) (bits w 31 1))
    | 9 => some (.vlog2 (bits w 7 8) (bits w 15 8) (bits w 31 1))
    | 10 => some (.vexp (bits w 7 8) (bits w 15 8) (bits w 31 1))
    | 11 => some (.vrcp (bits w 7 8) (bits w 15 8) (bits w 31 1))
    | 12 => some (.vrsq (bits w 7 8) (bits w 15 8) (bits w 31 1))
    | 13 => some (.vsqrt (bits w 7 8) (bits w 15 8) (bits w 31 1))
    | 14 => some (.vsig (bits w 7 8) (bits w 15 8) (bits w 31 1))
    | 15 => some (.vtanh (bits w 7 8) (bits w 15 8) (bits w 31 1))
    | 16 => some (.vrdsum (bits w 7 8) (bits w 15 8) (bits w 31 1))
    | 17 => some (.vrdmax (bits w 7 8) (bits w 15 8) (bits w 31 1))
    | 18 => some (.vrdmin (bits w 7 8) (bits w 15 8) (bits w 31 1))
    | 19 => some (.vpopc (bits w 7 8) (bits w 15 8) (bits w 31 1))
    | 20 => some (.vclz (bits w 7 8) (bits w 15 8) (bits w 31 1))
    | 21 => some (.vbcast (bits w 7 8) (bits w 15 8) (bits w 31 1))
    | 22 => if seg w 10 5 = 0 ∧ seg w 18 5 = 0 ∧ seg w 31 1 = 0 then some (.vmnot (bits w 7 3) (bits w 15 3)) else none
    | 23 => if seg w 18 5 = 0 then some (.vmcnt (bits w 7 8) (bits w 15 3) (bits w 31 1)) else none
    | 24 => if seg w 15 8 = 212 then some (.viota (bits w 7 8) (bits w 31 1)) else none
    | 25 => if seg w 7 8 = 0 ∧ seg w 19 4 = 0 ∧ seg w 31 1 = 0 then some (.vmode (bits w 15 4)) else none
    | 64 => if seg w 31 1 = 0 then some (.scset (bits w 7 8) (bits w 15 8)) else none
    | 65 => if seg w 31 1 = 0 then some (.scadde (bits w 7 8) (bits w 15 8)) else none
    | 66 => if seg w 31 1 = 0 then some (.scmax (bits w 7 8) (bits w 15 8)) else none
    | 67 => if seg w 31 1 = 0 then some (.scmin (bits w 7 8) (bits w 15 8)) else none
    | 68 => if seg w 31 1 = 0 then some (.scmov (bits w 7 8) (bits w 15 8)) else none
    | 69 => if seg w 31 1 = 0 then some (.scbind (bits w 7 8) (bits w 15 8)) else none
    | 70 => if seg w 15 8 = 212 ∧ seg w 31 1 = 0 then some (.scunb (bits w 7 8)) else none
    | 71 => if seg w 31 1 = 0 then some (.scrd (bits w 7 8) (bits w 15 8)) else none
    | 72 => if seg w 31 1 = 0 then some (.scwr (bits w 7 8) (bits w 15 8)) else none
    | 73 => if seg w 15 8 = 212 ∧ seg w 31 1 = 0 then some (.scnew (bits w 7 8)) else none
    | _ => none
  | 63 => some (.vmovi (bits w 7 8) (bits w 15 16) (bits w 31 1))
  | _ => none

/-- The 32-bit words of the AE (R75, R88). -/
def rawAe (w : Nat) : Option Instr :=
  match seg w 1 5 with
  | 1 => some (.ldv (bits w 6 8) (bits w 14 4) (bits w 18 4) (bits w 22 10))
  | 2 => some (.stv (bits w 6 8) (bits w 14 4) (bits w 18 4) (bits w 22 10))
  | 3 => some (.lds (bits w 6 8) (bits w 14 4) (bits w 18 4) (bits w 22 10))
  | 4 => some (.sts (bits w 6 8) (bits w 14 4) (bits w 18 4) (bits w 22 10))
  | 5 => if seg w 29 3 = 0 then some (.gath (bits w 6 8) (bits w 14 4) (bits w 18 4) (bits w 22 4) (bits w 26 2) (bits w 28 1)) else none
  | 6 => if seg w 28 4 = 0 then some (.scat (bits w 6 8) (bits w 14 4) (bits w 18 4) (bits w 22 4) (bits w 26 2)) else none
  | 7 => if seg w 30 2 = 0 then some (.ldt (bits w 6 8) (bits w 14 4) (bits w 18 4) (bits w 22 8)) else none
  | 8 => if seg w 30 2 = 0 then some (.stt (bits w 6 8) (bits w 14 4) (bits w 18 4) (bits w 22 8)) else none
  | 9 => if seg w 12 2 = 0 then some (.ldi (bits w 6 4) (bits w 10 2) (bits w 14 4) (bits w 18 4) (bits w 22 10)) else none
  | 10 => if seg w 6 8 = 0 then some (.pref (bits w 14 4) (bits w 18 4) (bits w 22 10)) else none
  | 11 => some (.srchk (bits w 6 8) (bits w 14 4) (bits w 18 4) (bits w 22 8) (bits w 30 2))
  | 12 => if seg w 30 2 = 0 then some (.hist (bits w 6 8) (bits w 14 4) (bits w 18 4) (bits w 22 8)) else none
  | 13 => if seg w 25 7 = 0 then some (.atoms (bits w 6 8) (bits w 14 4) (bits w 18 4) (bits w 22 3)) else none
  | 14 => if seg w 22 10 = 0 then some (.spillp (bits w 6 8) (bits w 14 4) (bits w 18 4)) else none
  | 15 => if seg w 22 10 = 0 then some (.fillp (bits w 6 8) (bits w 14 4) (bits w 18 4)) else none
  | 16 => some (.paddi (bits w 6 4) (bits w 10 4) (bits w 14 18))
  | 17 => if seg w 14 18 = 0 then some (.padd (bits w 6 4) (bits w 10 4)) else none
  | 18 => if seg w 10 4 = 0 then some (.pmovi (bits w 6 4) (bits w 14 18)) else none
  | 19 => if seg w 10 4 = 0 ∧ seg w 16 16 = 0 then some (.pmova (bits w 6 4) (bits w 14 2)) else none
  | 20 => some (.pmuli (bits w 6 4) (bits w 10 4) (bits w 14 18))
  | 21 => if seg w 20 12 = 0 then some (.pcmp (bits w 6 4) (bits w 10 4) (bits w 14 3) (bits w 17 3)) else none
  | _ => none

/-- The 32-bit words of the ME (R76, R90). -/
def rawMe (w : Nat) : Option Instr :=
  match seg w 1 5 with
  | 1 => some (.mmul (bits w 6 4) (bits w 10 8) (bits w 18 3) (bits w 21 2) (bits w 23 7) (bits w 30 1) (bits w 31 1))
  | 2 => if seg w 12 20 = 0 then some (.mfill (bits w 6 3) (bits w 9 3)) else none
  | 3 => if seg w 9 23 = 0 then some (.mpin (bits w 6 3)) else none
  | 4 => if seg w 9 23 = 0 then some (.munpin (bits w 6 3)) else none
  | 5 => if seg w 9 23 = 0 then some (.minv (bits w 6 3)) else none
  | 6 => if seg w 9 3 = 0 ∧ seg w 15 17 = 0 then some (.mqry (bits w 6 3) (bits w 12 3)) else none
  | 7 => if seg w 6 26 = 0 then some .lrel else none
  | 8 => if seg w 10 22 = 0 then some (.mclr (bits w 6 4)) else none
  | 9 => if seg w 9 3 = 0 ∧ seg w 23 9 = 0 then some (.mqset (bits w 6 3) (bits w 12 8) (bits w 20 2) (bits w 22 1)) else none
  | 10 => if seg w 9 3 = 0 then some (.mqadd (bits w 6 3) (bits w 12 20)) else none
  | 11 => if seg w 10 22 = 0 then some (.mstat (bits w 6 4)) else none
  | _ => none

/-- The pointer operations, format AP, of the AE, CE and XE (R77, R89). -/
def rawPointer (w : Nat) : Option Instr :=
  match seg w 1 5 with
  | 16 => some (.paddi (bits w 6 4) (bits w 10 4) (bits w 14 18))
  | 17 => if seg w 14 18 = 0 then some (.padd (bits w 6 4) (bits w 10 4)) else none
  | 18 => if seg w 10 4 = 0 then some (.pmovi (bits w 6 4) (bits w 14 18)) else none
  | 19 => if seg w 10 4 = 0 ∧ seg w 16 16 = 0 then some (.pmova (bits w 6 4) (bits w 14 2)) else none
  | 20 => some (.pmuli (bits w 6 4) (bits w 10 4) (bits w 14 18))
  | _ => none

/-- The 32-bit words of the CE (R77, R92). -/
def rawCe (w : Nat) : Option Instr :=
  match seg w 1 5 with
  | 1 => if seg w 23 9 = 0 then some (.cpy (bits w 6 3) (bits w 9 3) (bits w 12 3) (bits w 15 4) (bits w 19 2) (bits w 21 2)) else none
  | 2 => if seg w 27 5 = 0 then some (.cpyt (bits w 6 3) (bits w 9 3) (bits w 12 3) (bits w 15 4) (bits w 19 8)) else none
  | 3 => if seg w 12 3 = 0 ∧ seg w 27 5 = 0 then some (.cpyacc (bits w 6 3) (bits w 9 3) (bits w 15 4) (bits w 19 4) (bits w 23 4)) else none
  | 4 => if seg w 23 9 = 0 then some (.fill (bits w 6 3) (bits w 9 3) (bits w 12 3) (bits w 15 4) (bits w 19 2) (bits w 21 2)) else none
  | 5 => if seg w 15 4 = 0 ∧ seg w 28 4 = 0 then some (.etch (bits w 6 3) (bits w 9 3) (bits w 12 3) (bits w 19 9)) else none
  | 6 => if seg w 6 13 = 0 ∧ seg w 23 9 = 0 then some (.roundo (bits w 19 4)) else none
  | 7 => if seg w 6 13 = 0 ∧ seg w 23 9 = 0 then some (.roundc (bits w 19 4)) else none
  | _ => rawPointer w

/-- The 32-bit words of the XE (R77, R93). -/
def rawXe (w : Nat) : Option Instr :=
  match seg w 1 5 with
  | 1 => if seg w 29 3 = 0 then some (.xput (bits w 6 3) (bits w 9 3) (bits w 12 3) (bits w 15 4) (bits w 19 10)) else none
  | 2 => if seg w 29 3 = 0 then some (.xget (bits w 6 3) (bits w 9 3) (bits w 12 3) (bits w 15 4) (bits w 19 10)) else none
  | 3 => some (.xred (bits w 6 3) (bits w 9 3) (bits w 12 3) (bits w 15 4) (bits w 19 10) (bits w 29 3))
  | 4 => if seg w 12 3 = 0 ∧ seg w 29 3 = 0 then some (.xsig (bits w 6 3) (bits w 9 3) (bits w 15 4) (bits w 19 10)) else none
  | 5 => if seg w 27 5 = 0 then some (.xsend (bits w 6 3) (bits w 9 3) (bits w 12 3) (bits w 15 4) (bits w 19 8)) else none
  | 6 => if seg w 15 17 = 0 then some (.xadm (bits w 6 3) (bits w 9 3) (bits w 12 3)) else none
  | 7 => if seg w 12 20 = 0 then some (.xrefq (bits w 6 3) (bits w 9 3)) else none
  | 8 => if seg w 12 7 = 0 ∧ seg w 21 11 = 0 then some (.xwait (bits w 6 3) (bits w 9 3) (bits w 19 2)) else none
  | _ => rawPointer w

/-- The instruction, if no check of R78 refuses it. -/
def checked (r : Option Instr) : Except Reject Instr :=
  match r with
  | none => .error .opcode
  | some i =>
    match i.defect with
    | some e => .error e
    | none => .ok i

/-- A word that also stands in a block of engine `e`. -/
def checkedOn (e : Engine) (r : Option Instr) : Except Reject Instr :=
  match checked r with
  | .error x => .error x
  | .ok i =>
    match i.defectOn e with
    | some x => .error x
    | none => .ok i

/-- The SQ's decoder: 16 bits where L is 0, else 32 bits (R56). -/
def decodeSq (w : Nat) : Except Reject Instr :=
  if w % 2 = 0 then checked (rawCompact (w % 2 ^ 16)) else checked (rawSq (w % 2 ^ 32))

/-- The decoder of an engine's own 32-bit words. -/
def rawEngine (e : Engine) (w : Nat) : Option Instr :=
  match e with
  | .ae => rawAe w
  | .ve => rawVe w
  | .me => rawMe w
  | .ce => rawCe w
  | .xe => rawXe w

/-- The decoder of the words of a block of engine `e` (R67). -/
def decodeEngine (e : Engine) (w : Nat) : Except Reject Instr :=
  if w % 2 = 0 then checkedOn e (rawControl (w % 2 ^ 16)) else checkedOn e (rawEngine e (w % 2 ^ 32))

/-- A 32-bit word, by the first decoder that accepts it, in the order SQ, VE, AE, ME, CE, XE (assumption log 8). The table's
numbering shares words among the six decoders, and each decoder reads them by its own map. -/
def decodeAny32 (w : Nat) : Option Instr :=
  match decodeSq w with
  | .ok i => some i
  | .error _ =>
    match decodeEngine .ve w with
    | .ok i => some i
    | .error _ =>
      match decodeEngine .ae w with
      | .ok i => some i
      | .error _ =>
        match decodeEngine .me w with
        | .ok i => some i
        | .error _ =>
          match decodeEngine .ce w with
          | .ok i => some i
          | .error _ => (decodeEngine .xe w).toOption

/-- A 16-bit word: a compact SQ form, else a control word of the VE's blocks (assumption log 8). -/
def decodeAny16 (w : Nat) : Option Instr :=
  match decodeSq w with
  | .ok i => some i
  | .error _ => (decodeEngine .ve w).toOption

/-- The instruction read from a row's word, bits numbered as the opcode table numbers them. No instruction has operand words
beyond its 16 or 32 bits, so a row's `nbits` is its whole length. -/
def decodeTableWord (nbits w : Nat) : Option Instr :=
  if nbits = 16 then decodeAny16 (w % 2 ^ 16)
  else if nbits = 32 then decodeAny32 (w % 2 ^ 32)
  else none

/-- The word of an instruction, from the same encoding tables; 0 for a row of the table without an encoding. -/
def encode : Instr → Nat
  | .add rd ra rb w => 3 + rd.toNat * 128 + ra.toNat * 4096 + rb.toNat * 131072 + w.toNat * 2147483648
  | .sub rd ra rb w => 4194307 + rd.toNat * 128 + ra.toNat * 4096 + rb.toNat * 131072 + w.toNat * 2147483648
  | .and rd ra rb => 8388611 + rd.toNat * 128 + ra.toNat * 4096 + rb.toNat * 131072
  | .or rd ra rb => 12582915 + rd.toNat * 128 + ra.toNat * 4096 + rb.toNat * 131072
  | .xor rd ra rb => 16777219 + rd.toNat * 128 + ra.toNat * 4096 + rb.toNat * 131072
  | .andn rd ra rb => 20971523 + rd.toNat * 128 + ra.toNat * 4096 + rb.toNat * 131072
  | .sll rd ra rb w => 33554435 + rd.toNat * 128 + ra.toNat * 4096 + rb.toNat * 131072 + w.toNat * 2147483648
  | .srl rd ra rb w => 37748739 + rd.toNat * 128 + ra.toNat * 4096 + rb.toNat * 131072 + w.toNat * 2147483648
  | .sra rd ra rb w => 41943043 + rd.toNat * 128 + ra.toNat * 4096 + rb.toNat * 131072 + w.toNat * 2147483648
  | .rol rd ra rb w => 46137347 + rd.toNat * 128 + ra.toNat * 4096 + rb.toNat * 131072 + w.toNat * 2147483648
  | .slt rd ra rb => 67108867 + rd.toNat * 128 + ra.toNat * 4096 + rb.toNat * 131072
  | .sltn rd ra rb => 71303171 + rd.toNat * 128 + ra.toNat * 4096 + rb.toNat * 131072
  | .min rd ra rb => 75497475 + rd.toNat * 128 + ra.toNat * 4096 + rb.toNat * 131072
  | .max rd ra rb => 79691779 + rd.toNat * 128 + ra.toNat * 4096 + rb.toNat * 131072
  | .minn rd ra rb => 83886083 + rd.toNat * 128 + ra.toNat * 4096 + rb.toNat * 131072
  | .maxn rd ra rb => 88080387 + rd.toNat * 128 + ra.toNat * 4096 + rb.toNat * 131072
  | .mul rd ra rb w => 134217731 + rd.toNat * 128 + ra.toNat * 4096 + rb.toNat * 131072 + w.toNat * 2147483648
  | .mulh rd ra rb => 138412035 + rd.toNat * 128 + ra.toNat * 4096 + rb.toNat * 131072
  | .mulhn rd ra rb => 142606339 + rd.toNat * 128 + ra.toNat * 4096 + rb.toNat * 131072
  | .div rd ra rb w => 150994947 + rd.toNat * 128 + ra.toNat * 4096 + rb.toNat * 131072 + w.toNat * 2147483648
  | .divn rd ra rb w => 155189251 + rd.toNat * 128 + ra.toNat * 4096 + rb.toNat * 131072 + w.toNat * 2147483648
  | .rem rd ra rb w => 159383555 + rd.toNat * 128 + ra.toNat * 4096 + rb.toNat * 131072 + w.toNat * 2147483648
  | .remn rd ra rb w => 163577859 + rd.toNat * 128 + ra.toNat * 4096 + rb.toNat * 131072 + w.toNat * 2147483648
  | .clz rd ra w => 201326595 + rd.toNat * 128 + ra.toNat * 4096 + w.toNat * 2147483648
  | .ctz rd ra w => 205520899 + rd.toNat * 128 + ra.toNat * 4096 + w.toNat * 2147483648
  | .popc rd ra w => 209715203 + rd.toNat * 128 + ra.toNat * 4096 + w.toNat * 2147483648
  | .bswap rd ra w => 213909507 + rd.toNat * 128 + ra.toNat * 4096 + w.toNat * 2147483648
  | .sext rd ra width => 218103811 + rd.toNat * 128 + ra.toNat * 4096 + width.toNat * 131072
  | .zext rd ra width => 222298115 + rd.toNat * 128 + ra.toNat * 4096 + width.toNat * 131072
  | .addi rd ra imm => 5 + rd.toNat * 128 + ra.toNat * 4096 + imm.toNat * 131072
  | .andi rd ra imm => 7 + rd.toNat * 128 + ra.toNat * 4096 + imm.toNat * 131072
  | .ori rd ra imm => 9 + rd.toNat * 128 + ra.toNat * 4096 + imm.toNat * 131072
  | .xori rd ra imm => 11 + rd.toNat * 128 + ra.toNat * 4096 + imm.toNat * 131072
  | .slli rd ra amt w => 13 + rd.toNat * 128 + ra.toNat * 4096 + amt.toNat * 131072 + w.toNat * 8388608
  | .srli rd ra amt w => 16777229 + rd.toNat * 128 + ra.toNat * 4096 + amt.toNat * 131072 + w.toNat * 8388608
  | .srai rd ra amt w => 33554445 + rd.toNat * 128 + ra.toNat * 4096 + amt.toNat * 131072 + w.toNat * 8388608
  | .roli rd ra amt w => 50331661 + rd.toNat * 128 + ra.toNat * 4096 + amt.toNat * 131072 + w.toNat * 8388608
  | .slti rd ra imm => 15 + rd.toNat * 128 + ra.toNat * 4096 + imm.toNat * 131072
  | .sltni rd ra imm => 17 + rd.toNat * 128 + ra.toNat * 4096 + imm.toNat * 131072
  | .movw rd k keep imm => 19 + rd.toNat * 128 + k.toNat * 4096 + keep.toNat * 16384 + imm.toNat * 65536
  | .ld rd ra cls sz off => 21 + rd.toNat * 128 + ra.toNat * 4096 + cls.toNat * 131072 + sz.toNat * 2097152 + off.toNat * 8388608
  | .ldn rd ra cls sz off => 23 + rd.toNat * 128 + ra.toNat * 4096 + cls.toNat * 131072 + sz.toNat * 2097152 + off.toNat * 8388608
  | .st rd ra cls sz off => 25 + rd.toNat * 128 + ra.toNat * 4096 + cls.toNat * 131072 + sz.toNat * 2097152 + off.toNat * 8388608
  | .ldx rd ra cls sz hint off => 8388635 + rd.toNat * 128 + ra.toNat * 4096 + cls.toNat * 131072 + sz.toNat * 2097152 + hint.toNat * 16777216 + off.toNat * 67108864
  | .ldxn rd ra cls sz hint off => 27 + rd.toNat * 128 + ra.toNat * 4096 + cls.toNat * 131072 + sz.toNat * 2097152 + hint.toNat * 16777216 + off.toNat * 67108864
  | .stx rd ra cls sz hint off => 29 + rd.toNat * 128 + ra.toNat * 4096 + cls.toNat * 131072 + sz.toNat * 2097152 + hint.toNat * 16777216 + off.toNat * 67108864
  | .amoadd rd ra rb cls scope ord wide => 31 + rd.toNat * 128 + ra.toNat * 4096 + rb.toNat * 131072 + cls.toNat * 4194304 + scope.toNat * 67108864 + ord.toNat * 536870912 + wide.toNat * 2147483648
  | .amoand rd ra rb cls scope ord wide => 33 + rd.toNat * 128 + ra.toNat * 4096 + rb.toNat * 131072 + cls.toNat * 4194304 + scope.toNat * 67108864 + ord.toNat * 536870912 + wide.toNat * 2147483648
  | .amoor rd ra rb cls scope ord wide => 35 + rd.toNat * 128 + ra.toNat * 4096 + rb.toNat * 131072 + cls.toNat * 4194304 + scope.toNat * 67108864 + ord.toNat * 536870912 + wide.toNat * 2147483648
  | .amoxor rd ra rb cls scope ord wide => 37 + rd.toNat * 128 + ra.toNat * 4096 + rb.toNat * 131072 + cls.toNat * 4194304 + scope.toNat * 67108864 + ord.toNat * 536870912 + wide.toNat * 2147483648
  | .amomin rd ra rb cls scope ord wide => 39 + rd.toNat * 128 + ra.toNat * 4096 + rb.toNat * 131072 + cls.toNat * 4194304 + scope.toNat * 67108864 + ord.toNat * 536870912 + wide.toNat * 2147483648
  | .amomax rd ra rb cls scope ord wide => 41 + rd.toNat * 128 + ra.toNat * 4096 + rb.toNat * 131072 + cls.toNat * 4194304 + scope.toNat * 67108864 + ord.toNat * 536870912 + wide.toNat * 2147483648
  | .amominn rd ra rb cls scope ord wide => 43 + rd.toNat * 128 + ra.toNat * 4096 + rb.toNat * 131072 + cls.toNat * 4194304 + scope.toNat * 67108864 + ord.toNat * 536870912 + wide.toNat * 2147483648
  | .amomaxn rd ra rb cls scope ord wide => 45 + rd.toNat * 128 + ra.toNat * 4096 + rb.toNat * 131072 + cls.toNat * 4194304 + scope.toNat * 67108864 + ord.toNat * 536870912 + wide.toNat * 2147483648
  | .amoswp rd ra rb cls scope ord wide => 47 + rd.toNat * 128 + ra.toNat * 4096 + rb.toNat * 131072 + cls.toNat * 4194304 + scope.toNat * 67108864 + ord.toNat * 536870912 + wide.toNat * 2147483648
  | .cas rd ra rb cls scope ord wide => 49 + rd.toNat * 128 + ra.toNat * 4096 + rb.toNat * 131072 + cls.toNat * 4194304 + scope.toNat * 67108864 + ord.toNat * 536870912 + wide.toNat * 2147483648
  | .ldo rd ra cls scope ord wide => 51 + rd.toNat * 128 + ra.toNat * 4096 + cls.toNat * 4194304 + scope.toNat * 67108864 + ord.toNat * 536870912 + wide.toNat * 2147483648
  | .sto ra rb cls scope ord wide => 53 + ra.toNat * 4096 + rb.toNat * 131072 + cls.toNat * 4194304 + scope.toNat * 67108864 + ord.toNat * 536870912 + wide.toNat * 2147483648
  | .fenceC scope mask => 55 + scope.toNat * 128 + mask.toNat * 65536
  | .fenceM mask => 57 + mask.toNat * 128
  | .pubc ra rb scope => 59 + ra.toNat * 4096 + rb.toNat * 131072 + scope.toNat * 4194304
  | .cache ra rb op scope => 61 + ra.toNat * 4096 + rb.toNat * 131072 + op.toNat * 4194304 + scope.toNat * 16777216
  | .beq ra rb off => 65 + ra.toNat * 128 + rb.toNat * 4096 + off.toNat * 131072
  | .bne ra rb off => 67 + ra.toNat * 128 + rb.toNat * 4096 + off.toNat * 131072
  | .blt ra rb off => 69 + ra.toNat * 128 + rb.toNat * 4096 + off.toNat * 131072
  | .bge ra rb off => 71 + ra.toNat * 128 + rb.toNat * 4096 + off.toNat * 131072
  | .bltn ra rb off => 73 + ra.toNat * 128 + rb.toNat * 4096 + off.toNat * 131072
  | .bgen ra rb off => 75 + ra.toNat * 128 + rb.toNat * 4096 + off.toNat * 131072
  | .jal rd off => 77 + rd.toNat * 128 + off.toNat * 4096
  | .jalr rd ra imm => 79 + rd.toNat * 128 + ra.toNat * 4096 + imm.toNat * 131072
  | .enq eng ra ab give take1 take2 take3 => 81 + eng.toNat * 128 + ra.toNat * 1024 + ab.toNat * 32768 + give.toNat * 1048576 + take1.toNat * 8388608 + take2.toNat * 67108864 + take3.toNat * 536870912
  | .renq ra rb eng => 83 + ra.toNat * 4096 + rb.toNat * 131072 + eng.toNat * 4194304
  | .renqNb rd ra rb eng => 33554515 + rd.toNat * 128 + ra.toNat * 4096 + rb.toNat * 131072 + eng.toNat * 4194304
  | .twait eng => 85 + eng.toNat * 33554432
  | .tsig eng => 4194389 + eng.toNat * 33554432
  | .tcnt rd eng => 8388693 + rd.toNat * 128 + eng.toNat * 33554432
  | .bpop rd eng => 87 + rd.toNat * 128 + eng.toNat * 16777216
  | .bpopS rd eng => 4194391 + rd.toNat * 128 + eng.toNat * 16777216
  | .bpush ra eng => 8388695 + ra.toNat * 4096 + eng.toNat * 16777216
  | .spec off => 89 + off.toNat * 4096
  | .commit => 91
  | .abort => 4194395
  | .specq rd => 8388699 + rd.toNat * 128
  | .bara scope id => 93 + scope.toNat * 16777216 + id.toNat * 134217728
  | .barw scope id => 4194397 + scope.toNat * 16777216 + id.toNat * 134217728
  | .baraw scope id => 8388701 + scope.toNat * 16777216 + id.toNat * 134217728
  | .pqpush ra rb scope => 95 + ra.toNat * 4096 + rb.toNat * 131072 + scope.toNat * 16777216
  | .pqpop rd scope => 4194399 + rd.toNat * 128 + scope.toNat * 16777216
  | .pqpeek rd scope => 8388703 + rd.toNat * 128 + scope.toNat * 16777216
  | .rdtime rd => 97 + rd.toNat * 128
  | .sleepu ra eng => 4194401 + ra.toNat * 4096 + eng.toNat * 16777216
  | .trap code => 99 + code.toNat * 1048576
  | .eret => 131171
  | .wfi => 262243
  | .brk => 393315
  | .rdsys rd reg => 101 + rd.toNat * 128 + reg.toNat * 131072
  | .wrsys ra reg => 103 + ra.toNat * 4096 + reg.toNat * 131072
  | .wview ra view => 105 + ra.toNat * 4096 + view.toNat * 4194304
  | .tdset ra id => 107 + ra.toNat * 4096 + id.toNat * 4194304
  | .patch ra rb off width => 109 + ra.toNat * 4096 + rb.toNat * 131072 + off.toNat * 4194304 + width.toNat * 134217728
  | .tlbinvVa ra => 111 + ra.toNat * 4096
  | .tlbinvCtx ra => 4194415 + ra.toNat * 4096
  | .tlbinvAll => 8388719
  | .eresume eng => 113 + eng.toNat * 16777216
  | .efreeze eng => 4194417 + eng.toNat * 16777216
  | .equery rd eng => 8388721 + rd.toNat * 128 + eng.toNat * 16777216
  | .cAddi rd imm => 2 + rd.toNat * 32 + imm.toNat * 1024
  | .cMov rd rs => 4 + rd.toNat * 32 + rs.toNat * 1024
  | .cAdd rd rs => 6 + rd.toNat * 32 + rs.toNat * 1024
  | .cSub rd rs => 8 + rd.toNat * 32 + rs.toNat * 1024
  | .cLd rd off => 10 + rd.toNat * 32 + off.toNat * 1024
  | .cSt rd off => 12 + rd.toNat * 32 + off.toNat * 1024
  | .cBeqz ra off => 14 + ra.toNat * 32 + off.toNat * 1024
  | .cBnez ra off => 16 + ra.toNat * 32 + off.toNat * 1024
  | .cJ off => 18 + off.toNat * 32
  | .cSlli rd amt => 20 + rd.toNat * 32 + amt.toNat * 1024
  | .cSrli rd amt => 22 + rd.toNat * 32 + amt.toNat * 1024
  | .cAndi rd imm => 24 + rd.toNat * 32 + imm.toNat * 1024
  | .cRet => 26
  | .cTwait eng => 28 + eng.toNat * 32
  | .nop => 2
  | .bexit tgt => 4 + tgt.toNat * 32
  | .bskip tgt cnt => 6 + tgt.toNat * 32 + cnt.toNat * 256
  | .stop => 8
  | .bpushm tgt msk summary => 10 + tgt.toNat * 32 + msk.toNat * 256 + summary.toNat * 2048
  | .vmsel msk => 12 + msk.toNat * 32
  | .rot view => 14 + view.toNat * 32
  | .vadd d s1 s2 m => 1 + d.toNat * 128 + s1.toNat * 32768 + s2.toNat * 8388608 + m.toNat * 2147483648
  | .vsub d s1 s2 m => 3 + d.toNat * 128 + s1.toNat * 32768 + s2.toNat * 8388608 + m.toNat * 2147483648
  | .vmul d s1 s2 m => 5 + d.toNat * 128 + s1.toNat * 32768 + s2.toNat * 8388608 + m.toNat * 2147483648
  | .vfma d s1 s2 m => 7 + d.toNat * 128 + s1.toNat * 32768 + s2.toNat * 8388608 + m.toNat * 2147483648
  | .vfms d s1 s2 m => 9 + d.toNat * 128 + s1.toNat * 32768 + s2.toNat * 8388608 + m.toNat * 2147483648
  | .vmin d s1 s2 m => 11 + d.toNat * 128 + s1.toNat * 32768 + s2.toNat * 8388608 + m.toNat * 2147483648
  | .vmax d s1 s2 m => 13 + d.toNat * 128 + s1.toNat * 32768 + s2.toNat * 8388608 + m.toNat * 2147483648
  | .vand d s1 s2 m => 15 + d.toNat * 128 + s1.toNat * 32768 + s2.toNat * 8388608 + m.toNat * 2147483648
  | .vor d s1 s2 m => 17 + d.toNat * 128 + s1.toNat * 32768 + s2.toNat * 8388608 + m.toNat * 2147483648
  | .vxor d s1 s2 m => 19 + d.toNat * 128 + s1.toNat * 32768 + s2.toNat * 8388608 + m.toNat * 2147483648
  | .vshl d s1 s2 m => 21 + d.toNat * 128 + s1.toNat * 32768 + s2.toNat * 8388608 + m.toNat * 2147483648
  | .vshr d s1 s2 m => 23 + d.toNat * 128 + s1.toNat * 32768 + s2.toNat * 8388608 + m.toNat * 2147483648
  | .vadds d s1 s2 m => 25 + d.toNat * 128 + s1.toNat * 32768 + s2.toNat * 8388608 + m.toNat * 2147483648
  | .vsubs d s1 s2 m => 27 + d.toNat * 128 + s1.toNat * 32768 + s2.toNat * 8388608 + m.toNat * 2147483648
  | .vmulh d s1 s2 m => 29 + d.toNat * 128 + s1.toNat * 32768 + s2.toNat * 8388608 + m.toNat * 2147483648
  | .vabsd d s1 s2 m => 31 + d.toNat * 128 + s1.toNat * 32768 + s2.toNat * 8388608 + m.toNat * 2147483648
  | .vcmpeq d s1 s2 m => 33 + d.toNat * 128 + s1.toNat * 32768 + s2.toNat * 8388608 + m.toNat * 2147483648
  | .vcmpne d s1 s2 m => 35 + d.toNat * 128 + s1.toNat * 32768 + s2.toNat * 8388608 + m.toNat * 2147483648
  | .vcmplt d s1 s2 m => 37 + d.toNat * 128 + s1.toNat * 32768 + s2.toNat * 8388608 + m.toNat * 2147483648
  | .vcmple d s1 s2 m => 39 + d.toNat * 128 + s1.toNat * 32768 + s2.toNat * 8388608 + m.toNat * 2147483648
  | .vsel d s1 s2 => 41 + d.toNat * 128 + s1.toNat * 32768 + s2.toNat * 8388608
  | .vperm d s1 s2 m => 43 + d.toNat * 128 + s1.toNat * 32768 + s2.toNat * 8388608 + m.toNat * 2147483648
  | .vdot4 d s1 s2 m => 45 + d.toNat * 128 + s1.toNat * 32768 + s2.toNat * 8388608 + m.toNat * 2147483648
  | .vlut d s1 s2 m => 47 + d.toNat * 128 + s1.toNat * 32768 + s2.toNat * 8388608 + m.toNat * 2147483648
  | .vscl d s1 s2 m => 49 + d.toNat * 128 + s1.toNat * 32768 + s2.toNat * 8388608 + m.toNat * 2147483648
  | .vmand d s1 s2 => 51 + d.toNat * 128 + s1.toNat * 32768 + s2.toNat * 8388608
  | .vmor d s1 s2 => 53 + d.toNat * 128 + s1.toNat * 32768 + s2.toNat * 8388608
  | .vmxor d s1 s2 => 55 + d.toNat * 128 + s1.toNat * 32768 + s2.toNat * 8388608
  | .vmov d s1 m => 125 + d.toNat * 128 + s1.toNat * 32768 + m.toNat * 2147483648
  | .vneg d s1 m => 8388733 + d.toNat * 128 + s1.toNat * 32768 + m.toNat * 2147483648
  | .vabs d s1 m => 16777341 + d.toNat * 128 + s1.toNat * 32768 + m.toNat * 2147483648
  | .vnot d s1 m => 25165949 + d.toNat * 128 + s1.toNat * 32768 + m.toNat * 2147483648
  | .vcvt d s1 m => 33554557 + d.toNat * 128 + s1.toNat * 32768 + m.toNat * 2147483648
  | .vcvtd d s1 => 41943165 + d.toNat * 128 + s1.toNat * 32768
  | .vcvtu d s1 m => 50331773 + d.toNat * 128 + s1.toNat * 32768 + m.toNat * 2147483648
  | .vrnd d s1 m => 58720381 + d.toNat * 128 + s1.toNat * 32768 + m.toNat * 2147483648
  | .vexp2 d s1 m => 67108989 + d.toNat * 128 + s1.toNat * 32768 + m.toNat * 2147483648
  | .vlog2 d s1 m => 75497597 + d.toNat * 128 + s1.toNat * 32768 + m.toNat * 2147483648
  | .vexp d s1 m => 83886205 + d.toNat * 128 + s1.toNat * 32768 + m.toNat * 2147483648
  | .vrcp d s1 m => 92274813 + d.toNat * 128 + s1.toNat * 32768 + m.toNat * 2147483648
  | .vrsq d s1 m => 100663421 + d.toNat * 128 + s1.toNat * 32768 + m.toNat * 2147483648
  | .vsqrt d s1 m => 109052029 + d.toNat * 128 + s1.toNat * 32768 + m.toNat * 2147483648
  | .vsig d s1 m => 117440637 + d.toNat * 128 + s1.toNat * 32768 + m.toNat * 2147483648
  | .vtanh d s1 m => 125829245 + d.toNat * 128 + s1.toNat * 32768 + m.toNat * 2147483648
  | .vrdsum d s1 m => 134217853 + d.toNat * 128 + s1.toNat * 32768 + m.toNat * 2147483648
  | .vrdmax d s1 m => 142606461 + d.toNat * 128 + s1.toNat * 32768 + m.toNat * 2147483648
  | .vrdmin d s1 m => 150995069 + d.toNat * 128 + s1.toNat * 32768 + m.toNat * 2147483648
  | .vpopc d s1 m => 159383677 + d.toNat * 128 + s1.toNat * 32768 + m.toNat * 2147483648
  | .vclz d s1 m => 167772285 + d.toNat * 128 + s1.toNat * 32768 + m.toNat * 2147483648
  | .vbcast d s1 m => 176160893 + d.toNat * 128 + s1.toNat * 32768 + m.toNat * 2147483648
  | .vmnot d s1 => 184549501 + d.toNat * 128 + s1.toNat * 32768
  | .vmcnt d s1 m => 192938109 + d.toNat * 128 + s1.toNat * 32768 + m.toNat * 2147483648
  | .viota d m => 208273533 + d.toNat * 128 + m.toNat * 2147483648
  | .vmode mode => 209715325 + mode.toNat * 32768
  | .scset d s1 => 536871037 + d.toNat * 128 + s1.toNat * 32768
  | .scadde d s1 => 545259645 + d.toNat * 128 + s1.toNat * 32768
  | .scmax d s1 => 553648253 + d.toNat * 128 + s1.toNat * 32768
  | .scmin d s1 => 562036861 + d.toNat * 128 + s1.toNat * 32768
  | .scmov d s1 => 570425469 + d.toNat * 128 + s1.toNat * 32768
  | .scbind d s1 => 578814077 + d.toNat * 128 + s1.toNat * 32768
  | .scunb d => 594149501 + d.toNat * 128
  | .scrd d s1 => 595591293 + d.toNat * 128 + s1.toNat * 32768
  | .scwr d s1 => 603979901 + d.toNat * 128 + s1.toNat * 32768
  | .scnew d => 619315325 + d.toNat * 128
  | .vmovi d imm m => 127 + d.toNat * 128 + imm.toNat * 32768 + m.toNat * 2147483648
  | .ldv opd p cls imm => 3 + opd.toNat * 64 + p.toNat * 16384 + cls.toNat * 262144 + imm.toNat * 4194304
  | .stv opd p cls imm => 5 + opd.toNat * 64 + p.toNat * 16384 + cls.toNat * 262144 + imm.toNat * 4194304
  | .lds opd p cls imm => 7 + opd.toNat * 64 + p.toNat * 16384 + cls.toNat * 262144 + imm.toNat * 4194304
  | .sts opd p cls imm => 9 + opd.toNat * 64 + p.toNat * 16384 + cls.toNat * 262144 + imm.toNat * 4194304
  | .gath opd p cls idx size zp => 11 + opd.toNat * 64 + p.toNat * 16384 + cls.toNat * 262144 + idx.toNat * 4194304 + size.toNat * 67108864 + zp.toNat * 268435456
  | .scat opd p cls idx size => 13 + opd.toNat * 64 + p.toNat * 16384 + cls.toNat * 262144 + idx.toNat * 4194304 + size.toNat * 67108864
  | .ldt opd p cls id => 15 + opd.toNat * 64 + p.toNat * 16384 + cls.toNat * 262144 + id.toNat * 4194304
  | .stt opd p cls id => 17 + opd.toNat * 64 + p.toNat * 16384 + cls.toNat * 262144 + id.toNat * 4194304
  | .ldi pd size p cls imm => 19 + pd.toNat * 64 + size.toNat * 1024 + p.toNat * 16384 + cls.toNat * 262144 + imm.toNat * 4194304
  | .pref p cls imm => 21 + p.toNat * 16384 + cls.toNat * 262144 + imm.toNat * 4194304
  | .srchk opd p cls cols k => 23 + opd.toNat * 64 + p.toNat * 16384 + cls.toNat * 262144 + cols.toNat * 4194304 + k.toNat * 1073741824
  | .hist opd p cls experts => 25 + opd.toNat * 64 + p.toNat * 16384 + cls.toNat * 262144 + experts.toNat * 4194304
  | .atoms opd p cls op => 27 + opd.toNat * 64 + p.toNat * 16384 + cls.toNat * 262144 + op.toNat * 4194304
  | .spillp opd p cls => 29 + opd.toNat * 64 + p.toNat * 16384 + cls.toNat * 262144
  | .fillp opd p cls => 31 + opd.toNat * 64 + p.toNat * 16384 + cls.toNat * 262144
  | .paddi pd ps imm => 33 + pd.toNat * 64 + ps.toNat * 1024 + imm.toNat * 16384
  | .padd pd ps => 35 + pd.toNat * 64 + ps.toNat * 1024
  | .pmovi pd imm => 37 + pd.toNat * 64 + imm.toNat * 16384
  | .pmova pd arg => 39 + pd.toNat * 64 + arg.toNat * 16384
  | .pmuli pd ps imm => 41 + pd.toNat * 64 + ps.toNat * 1024 + imm.toNat * 16384
  | .pcmp ps pt cond tgt => 43 + ps.toNat * 64 + pt.toNat * 1024 + cond.toNat * 16384 + tgt.toNat * 131072
  | .mmul acc src q n rows z sc => 3 + acc.toNat * 64 + src.toNat * 1024 + q.toNat * 262144 + n.toNat * 2097152 + rows.toNat * 8388608 + z.toNat * 1073741824 + sc.toNat * 2147483648
  | .mfill q reps => 5 + q.toNat * 64 + reps.toNat * 512
  | .mpin q => 7 + q.toNat * 64
  | .munpin q => 9 + q.toNat * 64
  | .minv q => 11 + q.toNat * 64
  | .mqry q tgt => 13 + q.toNat * 64 + tgt.toNat * 4096
  | .lrel => 15
  | .mclr acc => 17 + acc.toNat * 64
  | .mqset q id arg grow => 19 + q.toNat * 64 + id.toNat * 4096 + arg.toNat * 1048576 + grow.toNat * 4194304
  | .mqadd q k => 21 + q.toNat * 64 + k.toNat * 4096
  | .mstat acc => 23 + acc.toNat * 64
  | .cpy pa pb pc cls dspace sspace => 3 + pa.toNat * 64 + pb.toNat * 512 + pc.toNat * 4096 + cls.toNat * 32768 + dspace.toNat * 524288 + sspace.toNat * 2097152
  | .cpyt pa pb pc cls id => 5 + pa.toNat * 64 + pb.toNat * 512 + pc.toNat * 4096 + cls.toNat * 32768 + id.toNat * 524288
  | .cpyacc pa pb cls acc ty => 7 + pa.toNat * 64 + pb.toNat * 512 + cls.toNat * 32768 + acc.toNat * 524288 + ty.toNat * 8388608
  | .fill pa pb pc cls dspace esz => 9 + pa.toNat * 64 + pb.toNat * 512 + pc.toNat * 4096 + cls.toNat * 32768 + dspace.toNat * 524288 + esz.toNat * 2097152
  | .etch pa pb pc ch => 11 + pa.toNat * 64 + pb.toNat * 512 + pc.toNat * 4096 + ch.toNat * 524288
  | .roundo id => 13 + id.toNat * 524288
  | .roundc id => 15 + id.toNat * 524288
  | .xput pa pb pc cls dev => 3 + pa.toNat * 64 + pb.toNat * 512 + pc.toNat * 4096 + cls.toNat * 32768 + dev.toNat * 524288
  | .xget pa pb pc cls dev => 5 + pa.toNat * 64 + pb.toNat * 512 + pc.toNat * 4096 + cls.toNat * 32768 + dev.toNat * 524288
  | .xred pa pb pc cls dev op => 7 + pa.toNat * 64 + pb.toNat * 512 + pc.toNat * 4096 + cls.toNat * 32768 + dev.toNat * 524288 + op.toNat * 536870912
  | .xsig pa pb cls dev => 9 + pa.toNat * 64 + pb.toNat * 512 + cls.toNat * 32768 + dev.toNat * 524288
  | .xsend pa pb pc cls tgt => 11 + pa.toNat * 64 + pb.toNat * 512 + pc.toNat * 4096 + cls.toNat * 32768 + tgt.toNat * 524288
  | .xadm pa pb pc => 13 + pa.toNat * 64 + pb.toNat * 512 + pc.toNat * 4096
  | .xrefq pa pb => 15 + pa.toNat * 64 + pb.toNat * 512
  | .xwait pa pb cond => 17 + pa.toNat * 64 + pb.toNat * 512 + cond.toNat * 524288
  | .entryStart _ => 0
  | .repetitionEnd _ _ => 0
  | .entryComplete _ => 0
  | .veWriteLand => 0
  | .dataQueueArrival _ => 0
  | .aeLoadReturn _ => 0
  | .ldiDataReturn _ => 0
  | .scratchpadAccessComplete _ => 0
  | .sleepuWake => 0
  | .queueWaitResume _ => 0
  | .checkResolve => 0
  | .asyncTrapEntry => 0
  | .parkWake _ => 0
  | .pageReclassify _ _ => 0
  | .leaseGrant _ => 0
  | .leaseRunEnd _ => 0
  | .plateFillComplete _ _ _ => 0
  | .mmulComplete => 0
  | .gets _ _ _ _ => 0
  | .getm _ _ _ _ _ => 0
  | .putm _ _ => 0
  | .inv _ _ => 0
  | .invack _ _ _ => 0
  | .fwdS _ _ => 0
  | .fwdM _ _ => 0
  | .data _ _ _ => 0
  | .replacement _ _ => 0
  | .create => 0
  | .start => 0
  | .destroy => 0
  | .scrubComplete _ => 0
  | .freeze _ => 0
  | .freezeComplete _ => 0
  | .resume _ => 0
  | .restore _ _ => 0
  | .snapdataAccess _ _ => 0
  | .graphaddrWrite _ _ => 0
  | .triggerWrite _ _ => 0
  | .launchRegisterWrite _ _ _ => 0
  | .groupPlace => 0
  | .quantumExpiry _ => 0
  | .coreExit => 0
  | .groupFail _ => 0
  | .launchEnd _ => 0
  | .completionInterrupt _ => 0
  | .rowArrival _ => 0
  | .sendAnswer _ => 0
  | .refusalArrival _ => 0
  | .etchUnitRun _ => 0
  | .etchYield _ _ => 0
  | .roundAck _ _ => 0
  | .remoteAccess _ _ _ => 0
  | .remoteAck _ => 0
  | .flitReceive _ _ _ => 0
  | .replayRequest _ _ => 0
  | .laneFailure _ => 0
  | .trainComplete _ _ _ => 0
  | .linkStart _ => 0
  | .linkStop _ => 0
  | .startSequence _ _ => 0
  | .minimalModeRetry _ => 0
  | .thermalTrip _ => 0
  | .attestationRequest _ => 0
  | .worldqWrite _ => 0
  | .worldrWrite _ => 0
  | .worlduWrite _ => 0
  | .debugstWrite _ => 0
  | .quadP1 _ _ => 0
  | .quadP2 _ _ => 0
  | .quadWake _ => 0
  | .dieSleep _ => 0
  | .dieWake _ => 0
  | .fnpolicyWrite _ => 0
  | .plmaskWrite _ => 0
  | .pltagWrite _ _ => 0
  | .estateWrite _ _ => 0
  | .vmodeWrite _ => 0
  | .viewWordWrite _ _ => 0
  | .apertureRead _ _ _ => 0
  | .apertureWrite _ _ _ => 0
  | .illegalInstruction => 0
  | .fetchFault => 0
  | .hostLinkCompletion _ => 0
  | .debugAccess _ _ => 0
  | .watchdog _ => 0
  | .podJob _ _ _ _ => 0
  | .quadP0 _ _ => 0

/-- How many bits the word of an instruction has: 16, 32, or 0 without an encoding (R56). -/
def wordBits : Instr → Nat
  | .add _ _ _ _ => 32
  | .sub _ _ _ _ => 32
  | .and _ _ _ => 32
  | .or _ _ _ => 32
  | .xor _ _ _ => 32
  | .andn _ _ _ => 32
  | .sll _ _ _ _ => 32
  | .srl _ _ _ _ => 32
  | .sra _ _ _ _ => 32
  | .rol _ _ _ _ => 32
  | .slt _ _ _ => 32
  | .sltn _ _ _ => 32
  | .min _ _ _ => 32
  | .max _ _ _ => 32
  | .minn _ _ _ => 32
  | .maxn _ _ _ => 32
  | .mul _ _ _ _ => 32
  | .mulh _ _ _ => 32
  | .mulhn _ _ _ => 32
  | .div _ _ _ _ => 32
  | .divn _ _ _ _ => 32
  | .rem _ _ _ _ => 32
  | .remn _ _ _ _ => 32
  | .clz _ _ _ => 32
  | .ctz _ _ _ => 32
  | .popc _ _ _ => 32
  | .bswap _ _ _ => 32
  | .sext _ _ _ => 32
  | .zext _ _ _ => 32
  | .addi _ _ _ => 32
  | .andi _ _ _ => 32
  | .ori _ _ _ => 32
  | .xori _ _ _ => 32
  | .slli _ _ _ _ => 32
  | .srli _ _ _ _ => 32
  | .srai _ _ _ _ => 32
  | .roli _ _ _ _ => 32
  | .slti _ _ _ => 32
  | .sltni _ _ _ => 32
  | .movw _ _ _ _ => 32
  | .ld _ _ _ _ _ => 32
  | .ldn _ _ _ _ _ => 32
  | .st _ _ _ _ _ => 32
  | .ldx _ _ _ _ _ _ => 32
  | .ldxn _ _ _ _ _ _ => 32
  | .stx _ _ _ _ _ _ => 32
  | .amoadd _ _ _ _ _ _ _ => 32
  | .amoand _ _ _ _ _ _ _ => 32
  | .amoor _ _ _ _ _ _ _ => 32
  | .amoxor _ _ _ _ _ _ _ => 32
  | .amomin _ _ _ _ _ _ _ => 32
  | .amomax _ _ _ _ _ _ _ => 32
  | .amominn _ _ _ _ _ _ _ => 32
  | .amomaxn _ _ _ _ _ _ _ => 32
  | .amoswp _ _ _ _ _ _ _ => 32
  | .cas _ _ _ _ _ _ _ => 32
  | .ldo _ _ _ _ _ _ => 32
  | .sto _ _ _ _ _ _ => 32
  | .fenceC _ _ => 32
  | .fenceM _ => 32
  | .pubc _ _ _ => 32
  | .cache _ _ _ _ => 32
  | .beq _ _ _ => 32
  | .bne _ _ _ => 32
  | .blt _ _ _ => 32
  | .bge _ _ _ => 32
  | .bltn _ _ _ => 32
  | .bgen _ _ _ => 32
  | .jal _ _ => 32
  | .jalr _ _ _ => 32
  | .enq _ _ _ _ _ _ _ => 32
  | .renq _ _ _ => 32
  | .renqNb _ _ _ _ => 32
  | .twait _ => 32
  | .tsig _ => 32
  | .tcnt _ _ => 32
  | .bpop _ _ => 32
  | .bpopS _ _ => 32
  | .bpush _ _ => 32
  | .spec _ => 32
  | .commit => 32
  | .abort => 32
  | .specq _ => 32
  | .bara _ _ => 32
  | .barw _ _ => 32
  | .baraw _ _ => 32
  | .pqpush _ _ _ => 32
  | .pqpop _ _ => 32
  | .pqpeek _ _ => 32
  | .rdtime _ => 32
  | .sleepu _ _ => 32
  | .trap _ => 32
  | .eret => 32
  | .wfi => 32
  | .brk => 32
  | .rdsys _ _ => 32
  | .wrsys _ _ => 32
  | .wview _ _ => 32
  | .tdset _ _ => 32
  | .patch _ _ _ _ => 32
  | .tlbinvVa _ => 32
  | .tlbinvCtx _ => 32
  | .tlbinvAll => 32
  | .eresume _ => 32
  | .efreeze _ => 32
  | .equery _ _ => 32
  | .cAddi _ _ => 16
  | .cMov _ _ => 16
  | .cAdd _ _ => 16
  | .cSub _ _ => 16
  | .cLd _ _ => 16
  | .cSt _ _ => 16
  | .cBeqz _ _ => 16
  | .cBnez _ _ => 16
  | .cJ _ => 16
  | .cSlli _ _ => 16
  | .cSrli _ _ => 16
  | .cAndi _ _ => 16
  | .cRet => 16
  | .cTwait _ => 16
  | .nop => 16
  | .bexit _ => 16
  | .bskip _ _ => 16
  | .stop => 16
  | .bpushm _ _ _ => 16
  | .vmsel _ => 16
  | .rot _ => 16
  | .vadd _ _ _ _ => 32
  | .vsub _ _ _ _ => 32
  | .vmul _ _ _ _ => 32
  | .vfma _ _ _ _ => 32
  | .vfms _ _ _ _ => 32
  | .vmin _ _ _ _ => 32
  | .vmax _ _ _ _ => 32
  | .vand _ _ _ _ => 32
  | .vor _ _ _ _ => 32
  | .vxor _ _ _ _ => 32
  | .vshl _ _ _ _ => 32
  | .vshr _ _ _ _ => 32
  | .vadds _ _ _ _ => 32
  | .vsubs _ _ _ _ => 32
  | .vmulh _ _ _ _ => 32
  | .vabsd _ _ _ _ => 32
  | .vcmpeq _ _ _ _ => 32
  | .vcmpne _ _ _ _ => 32
  | .vcmplt _ _ _ _ => 32
  | .vcmple _ _ _ _ => 32
  | .vsel _ _ _ => 32
  | .vperm _ _ _ _ => 32
  | .vdot4 _ _ _ _ => 32
  | .vlut _ _ _ _ => 32
  | .vscl _ _ _ _ => 32
  | .vmand _ _ _ => 32
  | .vmor _ _ _ => 32
  | .vmxor _ _ _ => 32
  | .vmov _ _ _ => 32
  | .vneg _ _ _ => 32
  | .vabs _ _ _ => 32
  | .vnot _ _ _ => 32
  | .vcvt _ _ _ => 32
  | .vcvtd _ _ => 32
  | .vcvtu _ _ _ => 32
  | .vrnd _ _ _ => 32
  | .vexp2 _ _ _ => 32
  | .vlog2 _ _ _ => 32
  | .vexp _ _ _ => 32
  | .vrcp _ _ _ => 32
  | .vrsq _ _ _ => 32
  | .vsqrt _ _ _ => 32
  | .vsig _ _ _ => 32
  | .vtanh _ _ _ => 32
  | .vrdsum _ _ _ => 32
  | .vrdmax _ _ _ => 32
  | .vrdmin _ _ _ => 32
  | .vpopc _ _ _ => 32
  | .vclz _ _ _ => 32
  | .vbcast _ _ _ => 32
  | .vmnot _ _ => 32
  | .vmcnt _ _ _ => 32
  | .viota _ _ => 32
  | .vmode _ => 32
  | .scset _ _ => 32
  | .scadde _ _ => 32
  | .scmax _ _ => 32
  | .scmin _ _ => 32
  | .scmov _ _ => 32
  | .scbind _ _ => 32
  | .scunb _ => 32
  | .scrd _ _ => 32
  | .scwr _ _ => 32
  | .scnew _ => 32
  | .vmovi _ _ _ => 32
  | .ldv _ _ _ _ => 32
  | .stv _ _ _ _ => 32
  | .lds _ _ _ _ => 32
  | .sts _ _ _ _ => 32
  | .gath _ _ _ _ _ _ => 32
  | .scat _ _ _ _ _ => 32
  | .ldt _ _ _ _ => 32
  | .stt _ _ _ _ => 32
  | .ldi _ _ _ _ _ => 32
  | .pref _ _ _ => 32
  | .srchk _ _ _ _ _ => 32
  | .hist _ _ _ _ => 32
  | .atoms _ _ _ _ => 32
  | .spillp _ _ _ => 32
  | .fillp _ _ _ => 32
  | .paddi _ _ _ => 32
  | .padd _ _ => 32
  | .pmovi _ _ => 32
  | .pmova _ _ => 32
  | .pmuli _ _ _ => 32
  | .pcmp _ _ _ _ => 32
  | .mmul _ _ _ _ _ _ _ => 32
  | .mfill _ _ => 32
  | .mpin _ => 32
  | .munpin _ => 32
  | .minv _ => 32
  | .mqry _ _ => 32
  | .lrel => 32
  | .mclr _ => 32
  | .mqset _ _ _ _ => 32
  | .mqadd _ _ => 32
  | .mstat _ => 32
  | .cpy _ _ _ _ _ _ => 32
  | .cpyt _ _ _ _ _ => 32
  | .cpyacc _ _ _ _ _ => 32
  | .fill _ _ _ _ _ _ => 32
  | .etch _ _ _ _ => 32
  | .roundo _ => 32
  | .roundc _ => 32
  | .xput _ _ _ _ _ => 32
  | .xget _ _ _ _ _ => 32
  | .xred _ _ _ _ _ _ => 32
  | .xsig _ _ _ _ => 32
  | .xsend _ _ _ _ _ => 32
  | .xadm _ _ _ => 32
  | .xrefq _ _ => 32
  | .xwait _ _ _ => 32
  | .entryStart _ => 0
  | .repetitionEnd _ _ => 0
  | .entryComplete _ => 0
  | .veWriteLand => 0
  | .dataQueueArrival _ => 0
  | .aeLoadReturn _ => 0
  | .ldiDataReturn _ => 0
  | .scratchpadAccessComplete _ => 0
  | .sleepuWake => 0
  | .queueWaitResume _ => 0
  | .checkResolve => 0
  | .asyncTrapEntry => 0
  | .parkWake _ => 0
  | .pageReclassify _ _ => 0
  | .leaseGrant _ => 0
  | .leaseRunEnd _ => 0
  | .plateFillComplete _ _ _ => 0
  | .mmulComplete => 0
  | .gets _ _ _ _ => 0
  | .getm _ _ _ _ _ => 0
  | .putm _ _ => 0
  | .inv _ _ => 0
  | .invack _ _ _ => 0
  | .fwdS _ _ => 0
  | .fwdM _ _ => 0
  | .data _ _ _ => 0
  | .replacement _ _ => 0
  | .create => 0
  | .start => 0
  | .destroy => 0
  | .scrubComplete _ => 0
  | .freeze _ => 0
  | .freezeComplete _ => 0
  | .resume _ => 0
  | .restore _ _ => 0
  | .snapdataAccess _ _ => 0
  | .graphaddrWrite _ _ => 0
  | .triggerWrite _ _ => 0
  | .launchRegisterWrite _ _ _ => 0
  | .groupPlace => 0
  | .quantumExpiry _ => 0
  | .coreExit => 0
  | .groupFail _ => 0
  | .launchEnd _ => 0
  | .completionInterrupt _ => 0
  | .rowArrival _ => 0
  | .sendAnswer _ => 0
  | .refusalArrival _ => 0
  | .etchUnitRun _ => 0
  | .etchYield _ _ => 0
  | .roundAck _ _ => 0
  | .remoteAccess _ _ _ => 0
  | .remoteAck _ => 0
  | .flitReceive _ _ _ => 0
  | .replayRequest _ _ => 0
  | .laneFailure _ => 0
  | .trainComplete _ _ _ => 0
  | .linkStart _ => 0
  | .linkStop _ => 0
  | .startSequence _ _ => 0
  | .minimalModeRetry _ => 0
  | .thermalTrip _ => 0
  | .attestationRequest _ => 0
  | .worldqWrite _ => 0
  | .worldrWrite _ => 0
  | .worlduWrite _ => 0
  | .debugstWrite _ => 0
  | .quadP1 _ _ => 0
  | .quadP2 _ _ => 0
  | .quadWake _ => 0
  | .dieSleep _ => 0
  | .dieWake _ => 0
  | .fnpolicyWrite _ => 0
  | .plmaskWrite _ => 0
  | .pltagWrite _ _ => 0
  | .estateWrite _ _ => 0
  | .vmodeWrite _ => 0
  | .viewWordWrite _ _ => 0
  | .apertureRead _ _ _ => 0
  | .apertureWrite _ _ _ => 0
  | .illegalInstruction => 0
  | .fetchFault => 0
  | .hostLinkCompletion _ => 0
  | .debugAccess _ _ => 0
  | .watchdog _ => 0
  | .podJob _ _ _ _ => 0
  | .quadP0 _ _ => 0

/-- The word of an instruction as the bytes the hardware stores: little-endian (R56). -/
def encodeBytes (i : Instr) : List Byte :=
  (List.range (wordBits i / 8)).map fun k => bits (encode i) (8 * k) 8

end Sys2Proof
end

