-- ==== Sys2Proof/Machine/State.lean ====
section
/-! DEFINITION. The state of the machine as plain data, and the state after reset. -/

namespace Sys2Proof.Machine

/-! ## Containers -/

/-- A sparse map by number: pairs in strictly rising order of key. What an unlisted key reads as is the map's own default. -/
abbrev SMap (α : Type) := List (Nat × α)

/-- A byte store: pairs in strictly rising order of address, none of them zero; an unlisted byte reads zero (assumption log 3). -/
abbrev Memory := List Host.Cell

/-! ## Causes, faults and refusals -/

/-- The causes of R100. -/
inductive Cause where
  | illegalInstruction | illegalBank | blockKind | blockSpace | misaligned | pageRead | pageWrite | pageFetch | permWx
  | unpublishedFetch | staleBinding | unboundScale | tintExhausted | plateAllPinned | plateNone | tilePlacement
  | promiseMissed | eccUncorrectable | poisonConsumed | trapInstruction | breakpoint | privilege | viewInvalid
  | channelMissing | descriptorInvalid | engineFault | queueTarget
  deriving DecidableEq, Repr

/-- The 8-bit code of a cause (R100). -/
def Cause.code : Cause → BitVec 8
  | .illegalInstruction => 0x01 | .illegalBank => 0x02 | .blockKind => 0x03 | .blockSpace => 0x04 | .misaligned => 0x05
  | .pageRead => 0x06 | .pageWrite => 0x07 | .pageFetch => 0x08 | .permWx => 0x09 | .unpublishedFetch => 0x0A
  | .staleBinding => 0x0B | .unboundScale => 0x0C | .tintExhausted => 0x0D | .plateAllPinned => 0x0E | .plateNone => 0x0F
  | .tilePlacement => 0x10 | .promiseMissed => 0x11 | .eccUncorrectable => 0x12 | .poisonConsumed => 0x13
  | .trapInstruction => 0x14 | .breakpoint => 0x15 | .privilege => 0x16 | .viewInvalid => 0x17 | .channelMissing => 0x18
  | .descriptorInvalid => 0x19 | .engineFault => 0x1A | .queueTarget => 0x1B

/-- The reasons a step can stop with a fault. -/
inductive Fault where
  /-- Raised by a manager core's access to the device-register window 0xC000_0000_0000 to 0xFFFF_FFFF_FFFF (R343): the spec
  gives no register of that window. Safe: the hardware goes on where the model stops. -/
  | deviceRegisters
  deriving DecidableEq, Repr

/-- The reasons a step can be refused. -/
inductive Refusal where
  /-- Raised by an arm of the dispatch whose instruction has no meaning yet. Safe: nothing is claimed of it. -/
  | notModelled (mnemonic : String)
  deriving DecidableEq, Repr

/-! ## The scalar sequencer -/

/-- STATUS (R98): the trap and privilege state. -/
structure Status where
  intrap : Bool := false
  pie : Bool := false
  ie : Bool := false
  ppriv : BitVec 2 := 0
  priv : BitVec 2 := 0
  deriving DecidableEq, Repr, Inhabited

/-- The trap registers (R98, R104); the manager's copies have the same maps (R459). -/
structure TrapRegs where
  status : Status := {}
  epc : Word := 0
  cause : Word := 0
  badaddr : Word := 0
  tvec : Word := 0
  scratch : Word := 0
  deriving DecidableEq, Repr, Inhabited

/-- A translation held in a TLB (R351). -/
structure Tlb where
  ctx : BitVec 6
  base : Nat
  size : Nat
  frame : Nat
  r : Bool
  w : Bool
  x : Bool
  usr : Bool
  nc : Bool
  xsh : Bool
  d : Bool
  priv : Bool
  entry : Nat
  /-- the owner core of a private page (R347) -/
  owner : BitVec 8 := 0
  deriving DecidableEq, Repr, Inhabited

/-- A store held in the speculative store queue, with the translation it took (R116). -/
structure Held where
  pa : Nat
  tlb : Tlb
  size : Nat
  cls : BitVec 4
  hint : BitVec 2
  data : Word
  /-- its translation has been removed by a TLBINV that waits for it (R356) -/
  removed : Bool := false
  deriving DecidableEq, Repr, Inhabited

/-- An outstanding check of BPOP.S (R117): the producer's unit id and the predicted value. -/
structure Check where
  unit : BitVec 3
  predicted : Word
  deriving DecidableEq, Repr, Inhabited

/-- The speculative region (R115-R121). -/
structure Spec where
  act : Bool := false
  chkpt : Vector Word 32 := Vector.replicate 32 0
  handler : Word := 0
  held : List Held := []
  checks : List Check := []
  reason : BitVec 3 := 0
  fcause : BitVec 8 := 0
  resolves : BitVec 16 := 0
  deriving DecidableEq, Repr, Inhabited

/-- The run state of a core: no group, running a group, exited (R482), frozen by a double trap (R103), or stopped for good with a
group that failed (R484). -/
inductive RunState where
  | idle | running | exited | doubleTrap | failed
  deriving DecidableEq, Repr, Inhabited

/-- A barrier word that has arrived, or waits for its own earlier arrival (R396): its address, its barrier, and the generation that it
waits for. It outlives a trap and a freeze, so that the word, executed again, neither arrives nor counts a second time (R398). -/
structure BarWord where
  pc : Word
  key : Nat
  gen : BitVec 16
  deriving DecidableEq, Repr, Inhabited

/-- An instruction that the SQ has fetched ahead of the pc (R336): its address, its word, and the time at which the fetch has come back. -/
structure Ahead where
  addr : Word
  word : Nat
  due : Word := 0
  deriving DecidableEq, Repr

/-- The registers of the SQ and what it waits for. -/
structure Sq where
  x : Vector Word 32 := Vector.replicate 32 0
  pc : Word := 0
  exitAddr : Word := 0
  run : RunState := .idle
  trap : TrapRegs := {}
  mtrap : TrapRegs := {}
  ctxid : BitVec 6 := 0
  maxscope : BitVec 3 := 4
  demote : BitVec 32 := 0
  vmode : BitVec 4 := 0
  spec : Spec := {}
  last : Vector Word 6 := Vector.replicate 6 0
  pending : BitVec 6 := 0
  /-- the engines into whose queues a waiting FENCE.M has pushed its markers, bit per unit id (R182) -/
  fencePushed : BitVec 6 := 0
  /-- the SQ sleeps in SLEEPU until this time, and then checks this engine (R217) -/
  sleep : Option (Word × BitVec 3) := none
  /-- the barrier word that has arrived or waits (R396, R398), and those of the programs that traps have interrupted, the latest
  first -/
  bar : Option BarWord := none
  barsBelow : List (Option BarWord) := []
  /-- the word of the instruction at the pc, fetched and kept while the instruction waits (R336) -/
  fetched : Option Nat := none
  /-- the instructions fetched ahead, in program order (R336) -/
  ahead : List Ahead := []
  /-- the cycle from which the next instruction may issue: at most one issues in a cycle (R483) -/
  nextAt : Word := 0
  /-- the SQ waits in the WFI at the pc (R122) -/
  inWfi : Bool := false
  /-- the TLBINV at the pc has removed its entries and waits for the accesses that used them (R356) -/
  invalidated : Bool := false
  /-- the cycle in which a VMODE word last wrote the register (R41) -/
  vmodeAt : Option Word := none
  /-- the address of a waiting instruction whose resolution point has committed (R120) -/
  resolvedAt : Option Word := none
  /-- the address of a BPOP.S that stalls at its resolution point (R117, R120) -/
  stalledAt : Option Word := none
  /-- the table line on which an SQ access is parked, and whether a write has woken it (R355) -/
  parked : Option Nat := none
  woken : Bool := false
  /-- the parked or waiting access has been counted in PARKCNT -/
  parkCounted : Bool := false
  /-- the command queue in which the SQ waits for a slot (R177) -/
  lineUp : Option (Nat × Engine) := none
  tlb : List Tlb := []
  deriving DecidableEq, Repr, Inhabited

/-! ## The queues and the engines -/

/-- A command-queue entry (R167). -/
structure Entry where
  addr : Word := 0
  args : Vector Word 4 := Vector.replicate 4 0
  give : BitVec 3 := 7
  take1 : BitVec 3 := 7
  take2 : BitVec 3 := 7
  take3 : BitVec 3 := 7
  priv : BitVec 2 := 0
  deriving DecidableEq, Repr, Inhabited

/-- A slot of a command queue (R166): an entry, or a FENCE.M marker. -/
inductive Slot where
  | entry (e : Entry)
  | marker
  deriving DecidableEq, Repr, Inhabited

/-- A token queue (R174): tokens present and slots reserved. -/
structure TokQ where
  present : Nat := 0
  reserved : Nat := 0
  deriving DecidableEq, Repr, Inhabited

/-- The state of an engine (R188). -/
inductive EngSt where
  | idle | waiting | running | draining | stopped
  deriving DecidableEq, Repr, Inhabited

/-- A fault of an engine: what EFINFO and EFADDR will hold (R183, R189). -/
structure EFault where
  cause : Cause
  addr : Word := 0
  elem : BitVec 16 := 0xFFFF
  deriving DecidableEq, Repr

/-- What a request does to the scratchpad when its bank performs it (R198): it reads a unit into byte `at'` of the access's data,
writes bytes, updates a unit by the operation of an ATOMS and keeps what stood there, or counts in a counter of HIST. -/
inductive SpadOp where
  | read (at' n : Nat)
  | write (bs : List Byte)
  | update (op : BitVec 3) (at' : Nat) (bs : List Byte)
  | incr
  deriving DecidableEq, Repr

/-- A request that a bank has still to perform: the fabric cycle, the offset in the quad's scratchpad, and what it does. -/
structure SpadReq where
  cycle : Nat
  off : Nat
  op : SpadOp
  deriving DecidableEq, Repr

/-- The partial state of a word that stopped part way (R353, R369): the units performed, the data read so far, the bytes done,
the granule reached, and whether its promise has been pushed. -/
structure Partial where
  done : List Nat := []
  data : List Byte := []
  /-- the source of a store, read once at issue and kept while units of it are left (R207, R353) -/
  src : List Byte := []
  count : Nat := 0
  /-- the granule of CPYT (R274) -/
  gran : Nat := 0
  promised : Bool := false
  /-- the group that an LDT in progress has reserved (R260, R272) -/
  group : Option Nat := none
  /-- the arithmetic cycle from which the word goes on: its scratchpad unit has been done (R198) -/
  due : Option Word := none
  /-- the time at which the data read last has come back across the die boundaries (R431) -/
  back : Word := 0
  /-- the scratchpad unit that its bank has still to perform, and what a performed read has brought -/
  unit : Option SpadReq := none
  got : List Byte := []
  deriving DecidableEq, Repr, Inhabited

/-- An engine and its command queue. A running, stopped or draining entry stays at the head of `q` until it completes (R173). -/
structure Eng where
  q : List Slot := []
  /-- the cores whose SQ waits for a slot, longest first (R177) -/
  waiters : List Nat := []
  st : EngSt := .idle
  pos : BitVec 12 := 0
  rem : BitVec 16 := 0
  rtp : Bool := false
  frz : Bool := false
  flt : Bool := false
  wait : BitVec 4 := 0
  efElem : BitVec 16 := 0
  efV : Bool := false
  efCode : BitVec 8 := 0
  efAddr : Word := 0
  efBlk : Word := 0
  /-- block length in halfwords -/
  len : Nat := 0
  /-- the halfwords the entry has fetched and keeps, by position (R333) -/
  words : SMap (BitVec 16) := []
  /-- the positions that are second halfwords of 32-bit words, as far as a pass has read (R71, R188) -/
  secs : List Nat := []
  /-- the fetch fault at which the pass of R79 stopped, with its position -/
  passStop : Option (Nat × EFault) := none
  /-- the header and the pass of R79 are still to be made from POS -/
  repass : Bool := false
  part : Option Partial := none
  /-- the table line that the current access is parked on, and whether a write has woken it (R355) -/
  parked : Option Nat := none
  woken : Bool := false
  /-- the address whose translation is parked -/
  parkVa : Word := 0
  /-- the word at POS executes: it runs on to its end although the engine is frozen (R185, R364) -/
  exec : Bool := false
  /-- the cycle from which the next word may issue: the AE and the VE issue at most one in a cycle (R138, R192), and a CE or XE word that has
  read across die boundaries ends no earlier than its reply (R431) -/
  nextAt : Word := 0
  ptr : Vector Word 16 := Vector.replicate 16 0
  deriving DecidableEq, Repr, Inhabited

/-- A mask register (R142). -/
structure Mask where
  bits : BitVec 1024 := BitVec.allOnes 1024
  width : Nat := 1024
  deriving DecidableEq, Repr, Inhabited

/-- Where a VE result goes (R137): a granule of the main file, an entry of the operand file, a slot of a store queue, a mask. -/
inductive VDest where
  | gran (g : Nat)
  | ofile (o : BitVec 4)
  | sq (q : BitVec 1) (tag : Nat)
  | mask (m : BitVec 3)
  deriving DecidableEq, Repr, Inhabited

/-- What a landing does to the scale binding (R261-R270). -/
inductive VTag where
  /-- a plain write: the granule's tag is cleared -/
  | clear
  /-- the granule's tag becomes this value, whose reference was taken at issue -/
  | copy (tag : BitVec 16)
  /-- a new group, reserved at issue, takes these codes and is bound -/
  | bind (group : Nat) (codes : BitVec 256)
  /-- SCWR in place: the group named at issue takes these codes -/
  | rewrite (group : Nat) (codes : BitVec 256)
  /-- no tag changes: the destination carries none -/
  | keep
  deriving DecidableEq, Repr, Inhabited

/-- A VE word's write that has not landed (R138, R139, R368). `left` counts the cycles until it lands. It writes up to four
registers, `merge` having a bit per element of `esz` bytes, counted over all of them. -/
structure VWrite where
  left : Nat
  dests : List VDest
  data : List Granule := []
  merge : BitVec 1024 := BitVec.allOnes 1024
  esz : Nat := 4
  width : Nat := 0
  tag : VTag := .keep
  /-- it is the most recent result for the latch (R140) -/
  latch : Bool := false
  deriving DecidableEq, Repr, Inhabited

/-- The VE's own state: working mode, active mask, cycle count, pending writes, latch (R41, R138, R140, R143). -/
structure Ve where
  mode : BitVec 4 := 0
  amask : BitVec 3 := 0
  cycle : Nat := 0
  pend : List VWrite := []
  lat : Granule := 0
  latValid : Bool := false
  deriving DecidableEq, Repr, Inhabited

/-- A slot of a data or store queue (R176): reserved under a number of its own, or holding its data. -/
inductive DSlot where
  | reserved (tag : Nat)
  | full (g : Granule)
  deriving DecidableEq, Repr, Inhabited

/-- Where an AE load puts its data. -/
inductive LDest where
  | gran (g : Nat)
  | ofile (o : BitVec 4)
  | dq (q : BitVec 2) (tag : Nat)
  | ptr (p : BitVec 4)
  | bound (g : Nat) (group : Nat) (codes : BitVec 256)
  | none
  deriving DecidableEq, Repr, Inhabited

/-- An access of the AE in flight: of memory, whose data has been read and whose return is still to come, or of the scratchpad, whose
requests the banks perform (R192, R193, R198). -/
structure AeLoad where
  dest : LDest
  data : Granule := 0
  value : Word := 0
  /-- a scratchpad access: its requests, and the arithmetic cycle in which its data is usable -/
  spad : Bool := false
  reqsLeft : List SpadReq := []
  due : Word := 0
  /-- the columns and the count of an SRCHK, whose result is found when its row has come (R407) -/
  search : Option (Nat × Nat) := none
  /-- its class, by which it is ordered toward the AE's later accesses (R193, R199) -/
  cls : BitVec 4 := 0
  /-- the memory requests it counts toward the limit of R19 -/
  reqs : Nat := 0
  /-- rows that .zp replaced (R205) -/
  poison : Nat := 0
  deriving DecidableEq, Repr, Inhabited

/-- A weight pointer of the ME (R222). -/
structure Qptr where
  addr : Word := 0
  id : BitVec 8 := 0
  grow : Bool := false
  deriving DecidableEq, Repr, Inhabited

/-- A running MMUL (R242): when it completes, the accumulator tiles and plates it uses, and for each tile of its panel whether tag
match found a copy (R253). -/
structure Running where
  doneAt : Word
  accs : List Nat := []
  /-- the tile it reads through the down-converter -/
  dc : Option Nat := none
  plates : List Nat := []
  hits : Nat := 0
  misses : Nat := 0
  /-- the grant of the lease under which it runs (R231) -/
  run : BitVec 32 := 0
  deriving DecidableEq, Repr, Inhabited

/-- A lease word in its fill phase (R240, R242, R245): for each tile of its panel the plates that serve it, whether tag match found a copy
that needed no refill, and whether the tile is filled (R253); the plates it fills, its order stamp (R228), and the first data fault met. -/
structure Plan where
  copies : List (List Nat)
  found : List Bool
  missed : List Bool
  fills : List Nat
  stamp : Nat := 0
  /-- the granules of its A rows, resolved at issue -/
  grans : List Nat := []
  bad : Option EFault := none
  deriving DecidableEq, Repr

/-- The ME's own state (R222, R231, R242). -/
structure Me where
  q : Vector Qptr 8 := Vector.replicate 8 {}
  running : List Running := []
  plan : Option Plan := none
  /-- the cycle in which the next word may issue -/
  nextAt : Word := 0
  deriving DecidableEq, Repr, Inhabited

/-- A round (R427): Closed, Open, or Closing with the acknowledgements still owed. -/
inductive RoundSt where
  | closed
  | opened
  | closing (owed : List Nat)
  deriving DecidableEq, Repr, Inhabited

/-- An entry of the hosting table (R409). -/
structure Hosting where
  expert : Nat
  ctx : BitVec 6
  base : Word
  slots : Nat
  /-- rows admitted, a of R409 -/
  rows : Nat := 0
  /-- the translations of its buffer (R410), by their table entries -/
  tlb : List Tlb := []
  deriving DecidableEq, Repr, Inhabited

/-- A send whose answer has not come (R413). `answer` is none while the row travels, then what the receiver has decided: 0
admitted, else the reason of the refusal (R411, R412). -/
structure Send where
  seq : Nat
  target : Nat
  expert : Nat
  token : BitVec 32
  row : List Byte
  answer : Option (BitVec 8) := none
  deriving DecidableEq, Repr, Inhabited

/-- What a remote access of the XE does (R437, R438). -/
inductive RemKind where
  | put | get | red (op : BitVec 3) | sig
  deriving DecidableEq, Repr

/-- A unit of a remote access that the XE has issued toward another device and that has not been acknowledged (R434): the remote
address, the local one, and the data it carries. -/
structure Remote where
  kind : RemKind
  dev : BitVec 10
  va : Word
  loc : Word
  len : Nat
  data : List Byte
  /-- the tag that its flit carries and its answer echoes, and the port that the flit went out on (R442, R443) -/
  tag : BitVec 8 := 0
  port : Nat := 0
  cls : BitVec 4 := 0
  deriving DecidableEq, Repr

/-- An access of another package that has arrived and is parked on a table line or waits behind posted writes (R355, R433): who answers
to whom, and what it does. -/
structure Arrival where
  dev : Nat
  core : Nat
  tag : BitVec 8
  cls : BitVec 4
  kind : RemKind
  va : Word
  len : Nat
  data : List Byte
  parked : Option Nat := none
  woken : Bool := false
  /-- the bytes done so far, and what they read -/
  done : Nat := 0
  got : List Byte := []
  /-- the port that it came in on (R464) -/
  port : Nat := 0
  deriving DecidableEq, Repr

/-- What a flit carries (R442): of its header the core, the kind, the class and the tag; of its payload the address, the code of a reduction or
of a cause, the length or count, and the data. -/
structure Cargo where
  core : Nat
  kind : Nat
  cls : Nat := 0
  tag : Nat := 0
  va : Word := 0
  op : Nat := 0
  len : Nat := 0
  data : List Byte := []
  deriving DecidableEq, Repr

/-- An answer to another package: to which device, and what its flit carries (R434, R443). -/
structure Answer where
  dev : Nat
  cargo : Cargo
  deriving DecidableEq, Repr

/-- A group of scales of the tint file (R256): 32 codes, generation, reference count. -/
structure Group32 where
  codes : BitVec 256 := 0
  gen : BitVec 6 := 0
  count : BitVec 11 := 0
  deriving DecidableEq, Repr, Inhabited

/-- The register space and its scales (R21, R256). -/
structure Regs where
  gran : SMap Granule := []
  tag : SMap (BitVec 16) := []
  ofile : Vector Granule 16 := Vector.replicate 16 0
  view : Vector (BitVec 128) 8 := Vector.replicate 8 0
  mask : Vector Mask 8 := Vector.replicate 8 {}
  group : SMap Group32 := []
  free : List Nat := List.range 512
  /-- how many groups at the tail of the free list were freed in the current cycle (R260) -/
  freed : Nat := 0
  ovf : Vector (BitVec 16) 12 := Vector.replicate 12 0
  nan : Vector (BitVec 16) 12 := Vector.replicate 12 0
  deriving DecidableEq, Repr, Inhabited

/-- The counters and selectors of a core that no other part holds. -/
structure CoreCounts where
  tintAllocs : BitVec 32 := 0
  tintStamp : Word := 0
  tintSelGran : BitVec 11 := 0
  tintSelGroup : BitVec 9 := 0
  poison : BitVec 32 := 0
  park : BitVec 32 := 0
  smiss : BitVec 32 := 0
  qmiss : BitVec 32 := 0
  priv : BitVec 32 := 0
  nh : BitVec 32 := 0
  full : BitVec 32 := 0
  histoor : BitVec 32 := 0
  shuf : BitVec 32 := 0
  etcherr : BitVec 32 := 0
  popempty : BitVec 16 := 0
  groupinfo : Word := 0
  barScope : BitVec 3 := 2
  barId : BitVec 5 := 0
  deriving DecidableEq, Repr, Inhabited

/-- A compute core, or a manager core. -/
structure Core where
  sq : Sq := {}
  ae : Eng := {}
  ve : Eng := {}
  me : Eng := {}
  ce : Eng := {}
  xe : Eng := {}
  /-- queue from unit p to unit c at index 6p + c -/
  tok : Vector TokQ 36 := Vector.replicate 36 {}
  outq : Vector (List Word) 36 := Vector.replicate 36 []
  dq : Vector (List DSlot) 4 := Vector.replicate 4 []
  sqq : Vector (List DSlot) 2 := Vector.replicate 2 []
  regs : Regs := {}
  vex : Ve := {}
  loads : List AeLoad := []
  /-- the number the next reserved queue slot takes (the model's own) -/
  seq : Nat := 0
  mex : Me := {}
  rounds : Vector RoundSt 16 := Vector.replicate 16 .closed
  roundOrder : List Nat := []
  /-- the units that rounds not closed involve, as round and channel, each with the poisoned elements to report (R427, R429) -/
  etched : List (Nat × Nat × Nat) := []
  hosting : List Hosting := []
  refusals : List (Word × Word) := []
  sends : List Send := []
  remote : Option Remote := none
  /-- the fabric cycle in which a bank last served the AE, and the CE (R198) -/
  aeWheel : SMap Nat := []
  ceWheel : SMap Nat := []
  /-- for each stream the page it last touched, and the page whose translation it has fetched ahead (R195) -/
  stream : SMap Tlb := []
  ahead : SMap Tlb := []
  counts : CoreCounts := {}
  frozen : Bool := false
  freezing : Bool := false
  /-- the manager has frozen the core, by FREEZE or DESTROY: a park or a failure of its group does not let it go (R360, R363) -/
  held : Bool := false
  /-- the pairing stamp of the last freeze (R277, R366) -/
  stamp : Word := 0
  deriving DecidableEq, Repr, Inhabited

/-! ## Quads, dies, coherence -/

/-- A plate's tag and its copy (R223). -/
structure Plate where
  addr : Nat := 0
  fmt : BitVec 4 := 0
  scl : Bool := false
  valid : Bool := false
  pin : Bool := false
  stale : Bool := false
  filling : Bool := false
  used : Nat := 0
  /-- the 16 KiB of the tile and its 512 scale bytes, as the fill read them -/
  data : List Byte := []
  scales : List Byte := []
  /-- the time before which a fill in progress cannot end, and then the time at which it has ended (R242) -/
  due : Word := 0
  /-- the memory requests of its fill (R19, R303) -/
  reqs : Nat := 0
  /-- the sectors that hold the tile and, with SCL, its scales (R233) -/
  sectors : List Nat := []
  deriving DecidableEq, Repr, Inhabited

/-- The lease of a quad's plate bank (R231, R252). -/
structure Lease where
  holder : Nat := 7
  words : Nat := 0
  start : Word := 0
  grants : BitVec 32 := 0
  last : Nat := 3
  /-- the cycle from which it can be handed over (R242) -/
  freeAt : Word := 0
  deriving DecidableEq, Repr, Inhabited

/-- The power state of a quad (R466). -/
inductive Power where
  | p0 | p1 | p2
  deriving DecidableEq, Repr, Inhabited

/-- A quad. -/
structure Quad where
  plate : Vector Plate 16 := Vector.replicate 16 {}
  avail : BitVec 16 := 0xFFFF
  plmask : BitVec 16 := 0xFFFF
  spare : Vector (BitVec 6) 16 := Vector.replicate 16 0
  lease : Lease := {}
  stamp : Nat := 0
  hit : BitVec 32 := 0
  miss : BitVec 32 := 0
  spad : Memory := []
  sfevict : BitVec 32 := 0
  pfdrop : BitVec 32 := 0
  tlb : List Tlb := []
  power : Power := .p0
  /-- the time at which a waking quad is in P0 (R466) -/
  wakeAt : Word := 0
  deriving DecidableEq, Repr, Inhabited

/-- An entry of a die's priority queue (R390). -/
structure PqEntry where
  seq : Nat
  key : BitVec 32
  value : Word
  ctx : BitVec 6
  deriving DecidableEq, Repr, Inhabited

/-- A die. -/
structure Die where
  pq : List PqEntry := []
  parkOvf : BitVec 32 := 0
  /-- the armed park monitors, by table line (R354) -/
  monitors : List Nat := []
  asleep : Bool := false
  deriving DecidableEq, Repr, Inhabited

/-- The state of a copy of a sector (R304, R310). -/
inductive CopySt where
  | s | e | m | isD | isDI | imD | smD | miA | iiA
  deriving DecidableEq, Repr, Inhabited

/-- A copy record: holder, sector, state and the number of the pending request. -/
structure Copy where
  holder : Holder
  sector : Nat
  st : CopySt
  num : BitVec 8 := 0
  deriving DecidableEq, Repr

/-- A request of a child to a directory (R308): GETS, or GETM, with its number, and the context, the window bit (R314) and the hint of
the access that it serves. -/
structure Req where
  child : Holder
  /-- the directory that it goes to: a level's own, where an access of the die itself is served there (R305) -/
  dir : DirId
  m : Bool
  num : BitVec 8 := 0
  ctx : BitVec 6 := 0
  window : Bool := false
  hint : BitVec 2 := 0
  deriving DecidableEq, Repr

/-- What a transient directory entry waits for (R311). -/
inductive Busy where
  | stable
  | inv (r : Req) (n : Nat)
  | fwd (r : Req)
  | bi (n : Nat)
  | up (r : Req)
  deriving DecidableEq, Repr

/-- What a parent asks of a child (R308): to give its copy up, to keep S, to hand its data over. -/
inductive Recall where
  | inv | fwdS | fwdM
  deriving DecidableEq, Repr

/-- An INV or a FWD of the parent that a level has passed to its children (R309): the number it carried, how many have still to answer,
and whether one has answered with data. -/
structure Down where
  kind : Recall
  num : Option (BitVec 8) := none
  left : Nat
  data : Bool := false
  deriving DecidableEq, Repr

/-- A directory entry of a sector (R306, R311): sharers with the number of their last request, the owner with its own, what it waits
for, what the level has passed down, and the requests that wait (R307). -/
structure DirEnt where
  dir : DirId
  sector : Nat
  sharers : List (Holder × Option (BitVec 8)) := []
  owner : Option Holder := none
  ownerNum : Option (BitVec 8) := none
  busy : Busy := .stable
  down : Option Down := none
  queue : List Req := []
  coarse : Bool := false
  /-- the context and the window bit of the request served last, which the INVs of a victim carry (R314) -/
  ctx : BitVec 6 := 0
  window : Bool := false
  /-- the fetch record of a die (R327): the quads whose instruction caches and loop buffers hold copies, four pointers or a coarse vector -/
  fetch : List Nat := []
  fetchCoarse : Bool := false
  deriving DecidableEq, Repr

/-- A coherence message on its way between a child and its directory (R308). An INV carries the requester's context and window bit for
the filter of R314, and a FWD carries them to the directories below that send INVs for it. The values of coherent memory stand at home
throughout, so that the 64 bytes of a PUTM and a DATA are those at home (assumption log 39). -/
inductive CohMsg where
  | req (r : Req) (sector : Nat)
  | inv (dst : Holder) (sector : Nat) (num : Option (BitVec 8)) (ctx : BitVec 6) (window coarse : Bool)
  | invack (frm : Holder) (sector : Nat)
  | ackPut (dst : Holder) (sector : Nat)
  | fwd (dst : Holder) (sector : Nat) (m : Bool) (ctx : BitVec 6) (window : Bool)
  | grant (dst : Holder) (sector : Nat) (g : Grant)
  | reply (frm : Holder) (sector : Nat)
  | putm (frm : Holder) (sector : Nat)
  deriving DecidableEq, Repr

/-- The bookkeeping of coherence: copies, directories, messages on their way, and each holder's last request number (R308). -/
structure Coh where
  copies : List Copy := []
  dirs : List DirEnt := []
  msgs : List CohMsg := []
  nums : List (Holder × BitVec 8) := []
  deriving DecidableEq, Repr

/-- A copy with its data: a fetch copy of a sector of code (R329), or a copy of a sector of a non-coherent page (R320). -/
structure DataCopy where
  holder : Holder
  sector : Nat
  data : List Byte
  dirty : Bool := false
  /-- the mark that travels with the data: uncorrectable (true) or poisoned (false) (R473) -/
  mark : Option Bool := none
  deriving DecidableEq, Repr

/-- An ETCH that a unit has taken (R422): program, types, constants, the physical pieces of its streams, and where it stands. -/
structure EtchJob where
  core : Nat
  round : Nat
  chan : Nat
  ops : List Nat
  types : List Nat
  consts : List Nat
  bases : List Word
  /-- for each stream, pieces of virtual start, physical start and length -/
  pieces : List (List (Nat × Nat × Nat))
  first : Nat
  count : Nat
  dest : Option Nat
  /-- elements done, the microprogram counter, the stack and the accumulators (R426) -/
  elem : Nat := 0
  mpc : Nat := 0
  stack : List (Nat × Bool) := []
  accs : List (Nat × Bool) := List.replicate 16 (0, false)
  /-- the element has taken an uncorrectable or poisoned input (R429) -/
  hit : Bool := false
  /-- the unaligned 64-byte units moved so far, by physical sector (R424) -/
  moved : List Nat := []
  errs : Nat := 0
  /-- the sector that the element's OUT has been written to, which a bad input met later poisons too (R429) -/
  outAt : Option Nat := none
  /-- an element of the range has its home byte on the channel (R422) -/
  ran : Bool := false
  /-- the translations that its pieces took, and whether a TLBINV that waits has removed one (R356) -/
  tlbs : List Tlb := []
  removed : Bool := false
  deriving DecidableEq, Repr

/-- What leaves the package toward another agent. -/
inductive Emit where
  /-- the answer to a remote access: acknowledged, with data for a read -/
  | remoteDone (dev core : Nat) (data : List Byte)
  /-- a remote access that faulted after `count` bytes (R436) -/
  | remoteFault (dev core : Nat) (cause : Cause) (count : Nat)
  /-- every member of a group has arrived at a pod barrier here, or the group has failed: the news for the other packages (R394, R400) -/
  | podArrived (group id : Nat)
  | podFailed (group : Nat)
  /-- a flit sent on a port -/
  | flit (port seq : Nat) (data : List Byte)
  /-- a signed quote (R468) -/
  | quote (data : List Byte)
  /-- the answer to a host read through BAR2 (R477), with the poisoned-data indication or without -/
  | hostData (fn : Nat) (bytes : List Byte) (poisoned : Bool)
  /-- a host read answered with Completer Abort, or an access answered with Unsupported Request (R477) -/
  | hostAbort (fn : Nat)
  | hostUnsupported (fn : Nat)
  /-- the answer to a read of the manager: of a snapshot (R375) or over the management port (R467) -/
  | data (bytes : List Byte)
  deriving DecidableEq, Repr

/-- The storage of the package and everything that keeps it consistent. -/
structure Store where
  mem : Memory := []
  host : Memory := []
  sched : Memory := []
  /-- the SRAM of the management complex (R458) -/
  sram : Memory := []
  /-- sectors marked: uncorrectable (true) or poisoned (false) (R473) -/
  marks : SMap Bool := []
  /-- the dies whose transfer of a sector across the die boundaries has arrived poisoned, as die and sector (R431) -/
  badAt : List (Nat × Nat) := []
  /-- code frames, as ranges of base and size (R326) -/
  code : List (Nat × Nat) := []
  /-- sectors of code frames whose U bit is set (R328) -/
  ubit : List Nat := []
  /-- the private leaves that homes know (R318, R326): the leaf's address, its frame and its size -/
  privs : List (Nat × Nat × Nat) := []
  fetch : List DataCopy := []
  nc : List DataCopy := []
  coh : Coh := {}
  /-- posted writes on the host link, oldest first (R295) -/
  posted : List (Nat × List Byte) := []
  deriving DecidableEq, Repr

/-! ## Contexts, launches and groups -/

/-- The state of a context (R360). -/
inductive CtxSt where
  | free | configured | running | frozen | scrubbing
  deriving DecidableEq, Repr, Inhabited

/-- A node of a registered graph (R377). -/
structure Node where
  code : Word := 0
  size : Nat := 0
  prio : Nat := 0
  count : Nat := 1
  portable : Bool := false
  supr : Bool := false
  params : Vector Word 4 := Vector.replicate 4 0
  scratch : Nat := 0
  chmap : Word := 0
  preds : List Nat := []
  deriving DecidableEq, Repr, Inhabited

/-- A registered graph (R376). -/
structure Graph where
  id : Nat
  record : Word
  vector : Nat
  nodes : List Node
  deriving DecidableEq, Repr, Inhabited

/-- A context (R359). -/
structure Ctx where
  st : CtxSt := .free
  secure : Bool := false
  quads : BitVec 64 := 0
  regions : BitVec 64 := 0
  fns : List Nat := []
  ptbase : Word := 0
  maxscope : BitVec 3 := 4
  desc : SMap (BitVec 512) := []
  quota : BitVec 17 := 0
  graphs : List Graph := []
  deriving DecidableEq, Repr, Inhabited

/-- The state of a node of a launch (R382). -/
inductive NodeSt where
  | blocked | ready | completed | refused
  deriving DecidableEq, Repr, Inhabited

/-- A running launch (R381, R383). -/
structure Launch where
  id : Nat
  ctx : Nat
  fn : Nat
  tag : BitVec 32
  graph : Graph
  nodes : List NodeSt
  /-- groups completed -/
  done : Nat := 0
  /-- a node was refused, a group has failed or the context is destroyed: no further group starts -/
  ended : Bool := false
  /-- the record has performed and the interrupt is still to be raised -/
  raising : Bool := false
  status : BitVec 8 := 0
  node : BitVec 16 := 0xFFFF
  /-- where in host memory the record goes, while it is on its way -/
  recAt : Option Nat := none
  deriving DecidableEq, Repr, Inhabited

/-- The state of a group (R384); a group in Parking freezes. One that is Done or Failed is listed as ended until every access of it
has performed, for which the record of its launch waits (R383). -/
inductive GroupSt where
  | ready | running | parking | parked | ended
  deriving DecidableEq, Repr, Inhabited

/-- A barrier of a group (R395). -/
structure Barrier where
  gen : BitVec 16 := 0
  /-- the ranks of the members whose arrival is pending -/
  arrived : List Nat := []
  /-- the generation of each member's last arrival, by rank -/
  pendgen : SMap (BitVec 16) := []
  abort : Bool := false
  /-- of a pod barrier (R394): every member here has arrived, and so has every member of the other packages -/
  full : Bool := false
  others : Bool := false
  deriving DecidableEq, Repr, Inhabited

/-- A group (R384-R387). -/
structure Grp where
  id : Nat
  ctx : Nat
  launch : Nat
  node : Nat
  index : Nat
  size : Nat
  prio : Nat
  st : GroupSt := .ready
  first : Nat := 0
  /-- placement order, for the choice of a victim (R387) -/
  placed : Nat := 0
  /-- it takes the set of the group that parks at the end of its quantum (R387) -/
  next : Bool := false
  window : Nat := 1024
  /-- the base of the scratch window in each quad (R386) -/
  bases : SMap Nat := []
  quantum : Word := 0
  /-- the cores and windows saved while parked -/
  saved : List Core := []
  spads : List Memory := []
  barriers : SMap Barrier := []
  deriving DecidableEq, Repr, Inhabited

/-- A function: its launch page registers and its policy (R379, R471). -/
structure Fn where
  ctx : Option Nat := none
  patch : Word := 0
  tag : BitVec 32 := 0
  code : BitVec 8 := 0
  apbase : Word := 0
  share : BitVec 9 := 0
  shbase : BitVec 8 := 0
  supr : Bool := false
  maxscope : BitVec 3 := 4
  deriving DecidableEq, Repr, Inhabited

/-! ## Links, management, the device -/

/-- The state of a link port (R441). -/
inductive PortSt where
  | down | train | up | degraded | absent | retired
  deriving DecidableEq, Repr, Inhabited

/-- A flit kept for replay (R442): its SEQ, how often it has been resent, and its 256 bytes. -/
structure Kept where
  seq : Nat
  replays : Nat := 0
  data : List Byte
  deriving DecidableEq, Repr

/-- A flit that a port has received and that has not taken effect (R442): its SEQ, its source device, what its header says, and its payload. -/
structure Taken where
  seq : Nat
  src : Nat
  core : Nat
  kind : Nat
  cls : Nat
  tag : Nat
  payload : List Byte
  deriving DecidableEq, Repr

/-- A Trikin Link port (R441-R444). -/
structure Port where
  st : PortSt := .down
  feccorr : BitVec 16 := 0
  peer : BitVec 10 := 0
  replay : BitVec 16 := 0
  /-- the next SEQ it expects, and the next it sends -/
  expect : Nat := 0
  next : Nat := 0
  /-- the last 512 flits sent, oldest first -/
  kept : List Kept := []
  failures : Nat := 0
  /-- the flits received that have not taken effect: each does once (R442) -/
  taken : List Taken := []
  deriving DecidableEq, Repr, Inhabited

/-- The registers and the memory of the management complex (R458-R471). -/
structure Mgmt where
  /-- FRZCTL: ERR and CORE (R375) -/
  frzErr : Bool := false
  frzCore : BitVec 8 := 0
  /-- SNAPSEL: CORE, PART and OFFSET (R375) -/
  snapCore : BitVec 8 := 0
  snapPart : BitVec 2 := 0
  snapOff : BitVec 32 := 0
  /-- dwords written through SNAPDATA and not yet applied, by core, part and offset (R372) -/
  snapstage : SMap Word := []
  /-- CTXCMD: the command that runs (0 none), REFUSED, CTX, and the manager core that issued it (R470) -/
  ctxBusy : BitVec 3 := 0
  ctxRefused : Bool := false
  ctxSel : BitVec 6 := 0
  ctxFrom : Nat := 256
  /-- BOOTCAUSE: LASTERR, RESET, OK (R463); ATTEMPTS and MIN stand below -/
  lastErr : BitVec 8 := 0
  resetSrc : BitVec 8 := 0
  startOk : Bool := true
  worldq : Word := 0
  worldr : Word := 0
  worldu : Word := 0
  debugst : Word := 0
  mevent : Word := 0
  /-- the double traps reported: core and cause of the second trap (R103) -/
  trapReports : List (Nat × BitVec 8) := []
  fnsel : BitVec 6 := 0
  barpod : BitVec 11 := 1
  chmap : Word := 512
  chlive : Vector Word 8 := Vector.replicate 8 (BitVec.allOnes 64)
  failedStarts : Nat := 0
  minimal : Bool := false
  /-- the root table of the manager cores' own tables (R458) -/
  root : Word := 0
  /-- the manager cores that run in the secure world (R374, R469; assumption log 9) -/
  secureCores : BitVec 4 := 3
  device : BitVec 10 := 0
  /-- the members of the pod job, each with its route of ports (R432, R443) -/
  route : SMap (List Nat) := []
  /-- the context bound to the job on this package, and the devices of the job on which one is bound (R432, R436) -/
  podCtx : Option Nat := none
  podBound : List Nat := []
  /-- the port that the traffic to a device uses, the answers that wait for one, and those sent, with their port, which no later access of the
  same core has shown to have come (R443) -/
  portNow : SMap Nat := []
  answers : List Answer := []
  owed : List (Nat × Answer) := []
  /-- the image and the owner record, which a quote measures (R468), and whether the start entered full debug (R465) -/
  fullDebug : Bool := false
  image : List Byte := []
  owner : List Byte := []
  /-- accesses of other packages that are parked or wait (R355) -/
  arrivals : List Arrival := []
  rxTlb : List Tlb := []
  apTlb : List Tlb := []
  deriving DecidableEq, Repr, Inhabited

/-- The events that the package itself owes and that an empty schedule is refilled with: each is the event of the table of the same
name, for the oldest thing it may act on. -/
inductive Due where
  | aeLoadReturn | ldiDataReturn | scratchpadAccessComplete
  | parkWake (line : Nat)
  | dataQueueArrival (q : BitVec 3)
  | mmulComplete
  | rowArrival (sender : BitVec 8)
  | sendAnswer | refusalArrival
  | roundAck (round : BitVec 4) (chan : BitVec 9)
  | leaseGrant (quad : BitVec 6)
  | leaseRunEnd (quad : BitVec 6)
  | quadWake (quad : BitVec 6)
  | plateFillComplete (quad : BitVec 6) (plate : BitVec 4)
  | etchUnitRun (chan : BitVec 9)
  | hostLinkCompletion
  | create | start | destroy
  | scrubComplete (ctx : BitVec 6)
  | freezeComplete (core : BitVec 8)
  | groupPlace
  | quantumExpiry (group : Nat)
  | groupFail (core : BitVec 8)
  | launchEnd (launch : Nat)
  | completionInterrupt (launch : Nat)
  | linkStart (port : BitVec 4)
  | apertureRead (fn : BitVec 6) (off len : Nat)
  | apertureWrite (fn : BitVec 6) (off : Nat) (act : ApertureAct)
  | launchRegisterRead (fn : BitVec 6) (off len : Nat)
  deriving DecidableEq, Repr

/-- A turn of the schedule (assumption log 1): a unit of a core takes its next turn, or an event of the table happens, one that the
schedule names or one that the package owes. Before the turn `dt` cycles pass. -/
inductive Turn where
  | unit (core : Nat) (u : UnitId) (dt : Nat)
  | event (core : Nat) (i : Instr) (dt : Nat)
  | due (core : Nat) (d : Due)
  /-- the SQ of a core fetches one instruction more ahead of the pc (R336) -/
  | fetchAhead (core : Nat) (dt : Nat)
  deriving DecidableEq, Repr

/-- The machine. One core, number `cur`, is in focus: the instruction of a step executes on it, and for an engine's word on its
engine `actor`. The other cores stand in `others`. -/
structure State where
  core : Core := {}
  cur : Nat := 0
  actor : Engine := .ve
  others : SMap Core := []
  quads : SMap Quad := []
  dies : SMap Die := []
  store : Store := {}
  time : Word := 0
  ctxs : SMap Ctx := []
  fns : SMap Fn := []
  launches : List Launch := []
  groups : List Grp := []
  /-- the numbers the next launch, group and placement take -/
  ids : Nat := 0
  /-- records written and interrupts raised toward the host: function and vector -/
  irqs : List (Nat × Nat) := []
  /-- the queues of the etch units by channel, the one that runs first (R428) -/
  etch : SMap (List EtchJob) := []
  /-- what has left the package, oldest first -/
  out : List Emit := []
  /-- the save areas: the core that a double trap stopped, by core number (R373) -/
  saves : SMap Core := []
  ports : Vector Port 16 := Vector.replicate 16 {}
  mgmt : Mgmt := {}
  /-- DZ-4100 (true) or DZ-4060 (false): wired (R1, R124; assumption log 6) -/
  big : Bool := true
  /-- the plates that manufacture enabled in a quad of a DZ-4060 (R1, R31): wired; one not listed has plates 0 to 11 -/
  made : SMap (BitVec 16) := []
  schedule : List Turn := []
  freeN : Nat := 0
  /-- the model's own: the earliest time at which the replies of the reads of this turn can have come back across the die boundaries, 0
  where none has crossed one (R431) -/
  reply : Word := 0
  deriving DecidableEq, Repr

/-- A manager core when the image runs on it (R458, R460): always at M. -/
def Core.manager (pc : Word) : Core := { sq := { pc := pc, run := .running, trap := { status := { priv := 3 } } } }

/-- The four manager cores, numbered from 256 on (assumption log 9). -/
def managers (pc : Word) : SMap Core := (List.range 4).map fun k => (256 + k, Core.manager pc)

/-- The machine right after the start sequence: every register at the value of R8's tables, memory with nothing listed, no context
created, no group placed, the manager cores at M (assumption logs 5, 6, 7, 9). -/
def State.reset : State := { others := managers 0 }

end Sys2Proof.Machine
end

