-- ==== Sys2Proof/Machine/Ops.lean ====
section
/-! DEFINITION. The named operations over containers, memory, registers and queues, and the taking of an exception. -/

namespace Sys2Proof.Machine

/-- What a meaning answers. -/
abbrev Out := Host.Outcome State Fault Refusal

/-! ## Containers -/

/-- Entry `i` of a file of `n = 2 ^ k` entries. -/
def vget {α : Type} {n k : Nat} (v : Vector α n) (i : BitVec k) (h : 2 ^ k = n := by decide) : α :=
  v[i.toNat]'(h ▸ i.isLt)

/-- The file with entry `i` replaced. -/
def vset {α : Type} {n k : Nat} (v : Vector α n) (i : BitVec k) (a : α) (h : 2 ^ k = n := by decide) : Vector α n :=
  v.set i.toNat a (h ▸ i.isLt)

/-- A function applied to every entry of a file. -/
def vmap {α β : Type} {n : Nat} (f : α → β) (v : Vector α n) : Vector β n := ⟨(v.toList.map f).toArray, by simp⟩

/-- The value of key `k` in a sparse map, or the default. -/
def smGet {α : Type} : SMap α → Nat → α → α
  | [], _, d => d
  | (k, v) :: t, a, d => if k = a then v else smGet t a d

/-- The value of key `k`, if it is listed. -/
def smFind {α : Type} : SMap α → Nat → Option α
  | [], _ => none
  | (k, v) :: t, a => if k = a then some v else smFind t a

/-- The map with key `a` set. -/
def smSet {α : Type} : SMap α → Nat → α → SMap α
  | [], a, b => [(a, b)]
  | (k, v) :: t, a, b => if a < k then (a, b) :: (k, v) :: t else if a = k then (a, b) :: t else (k, v) :: smSet t a b

/-- The map without key `a`. -/
def smErase {α : Type} : SMap α → Nat → SMap α
  | [], _ => []
  | (k, v) :: t, a => if k = a then smErase t a else (k, v) :: smErase t a

/-- The keys of a map rise strictly. -/
def smSorted {α : Type} : SMap α → Bool
  | [] => true
  | [_] => true
  | (k, _) :: (k', v') :: t => k < k' && smSorted ((k', v') :: t)

/-! ## Memory: bytes, and little-endian words (R5) -/

/-- The byte at an address; an unlisted byte reads zero (assumption log 3). -/
def memRead : Memory → Nat → Byte
  | [], _ => 0
  | (k, v) :: t, a => if k = a then v else if a < k then 0 else memRead t a

/-- Memory with one byte written, in the canonical form. -/
def memWrite : Memory → Nat → Byte → Memory
  | [], a, b => if b = 0 then [] else [(a, b)]
  | (k, v) :: t, a, b =>
    if a < k then (if b = 0 then (k, v) :: t else (a, b) :: (k, v) :: t)
    else if a = k then (if b = 0 then t else (a, b) :: t)
    else (k, v) :: memWrite t a b

/-- The canonical form: addresses strictly rising, no entry zero. -/
def Memory.wf (m : Memory) : Bool := smSorted m && m.all fun c => c.2 != 0

/-- `n` bytes from an address. -/
def readBytes (m : Memory) (a n : Nat) : List Byte := (List.range n).map fun k => memRead m (a + k)

/-- Bytes written at consecutive addresses. -/
def writeBytes (m : Memory) (a : Nat) : List Byte → Memory
  | [] => m
  | b :: t => writeBytes (memWrite m a b) (a + 1) t

/-- The number that bytes hold, little-endian. -/
def leNat : List Byte → Nat
  | [] => 0
  | b :: t => b.toNat + 256 * leNat t

/-- The low `n` bytes of a number, little-endian. -/
def leBytes : Nat → Nat → List Byte
  | 0, _ => []
  | n + 1, v => BitVec.ofNat 8 v :: leBytes n (v / 256)

/-- A granule from its bytes; missing bytes are zero. -/
def granOfBytes (bs : List Byte) : Granule := BitVec.ofNat 8192 (leNat bs)

/-- The bytes of a granule. -/
def granBytes (g : Granule) : List Byte := leBytes 1024 g.toNat

/-- A number built of fields, each with the bit it starts at. -/
def fields (fs : List (Nat × Nat)) : Word := BitVec.ofNat 64 (fs.foldl (fun a f => a + f.2 * 2 ^ f.1) 0)

/-- A truth value as a bit. -/
def bit1 (b : Bool) : Nat := if b then 1 else 0

/-! ## Places in the package (R28) -/

/-- The quad of the core in focus, 0 to 63 (a manager core stands in no quad; its number divides to 64). -/
def State.quadNo (s : State) : Nat := s.cur / 4

/-- The die of the core in focus. -/
def State.dieNo (s : State) : Nat := s.cur / 64

/-- The position of the core in focus in its quad. -/
def State.pos (s : State) : Nat := s.cur % 4

/-- A core that holds no state yet (R361, R481). -/
def Core.fresh : Core := {}

/-- The core of a number. -/
def State.coreAt (s : State) (n : Nat) : Core := if n = s.cur then s.core else smGet s.others n Core.fresh

/-- The machine with the core of a number replaced. -/
def State.setCoreAt (s : State) (n : Nat) (c : Core) : State :=
  if n = s.cur then { s with core := c } else { s with others := smSet s.others n c }

/-- The machine with core `n` in focus. -/
def State.focus (s : State) (n : Nat) : State :=
  if n = s.cur then s
  else { s with core := smGet s.others n Core.fresh, cur := n, others := smSet (smErase s.others n) s.cur s.core }

/-- The plates that manufacture enabled in a quad: all sixteen, or on a DZ-4060 twelve (R1, R31; assumption log 6). -/
def State.madePlates (s : State) (q : Nat) : BitVec 16 := if s.big then 0xFFFF else smGet s.made q 0x0FFF

/-- A quad at reset, with the plates that manufacture enabled. -/
def Quad.fresh (made : BitVec 16) : Quad := { avail := made, plmask := made }

/-- The quad of a number. -/
def State.quadAt (s : State) (q : Nat) : Quad := smGet s.quads q (Quad.fresh (s.madePlates q))

/-- The machine with a quad replaced. -/
def State.setQuad (s : State) (q : Nat) (v : Quad) : State := { s with quads := smSet s.quads q v }

/-- The die of a number. -/
def State.dieAt (s : State) (d : Nat) : Die := smGet s.dies d {}

/-- The machine with a die replaced. -/
def State.setDie (s : State) (d : Nat) (v : Die) : State := { s with dies := smSet s.dies d v }

/-- The context of a number. -/
def State.ctxAt (s : State) (n : Nat) : Ctx := smGet s.ctxs n {}

/-- The machine with a context replaced. -/
def State.setCtx (s : State) (n : Nat) (c : Ctx) : State := { s with ctxs := smSet s.ctxs n c }

/-- The function of a number. -/
def State.fnAt (s : State) (n : Nat) : Fn := smGet s.fns n {}

/-- The machine with a function replaced. -/
def State.setFn (s : State) (n : Nat) (f : Fn) : State := { s with fns := smSet s.fns n f }

/-- The next free value, and the machine that has taken it (assumption log 10). -/
def State.free (s : State) : Word × State := (Config.freeWord s.freeN, { s with freeN := s.freeN + 1 })

/-! ## Registers of the SQ (R96) -/

/-- x`r`; x0 reads zero. -/
def State.x (s : State) (r : BitVec 5) : Word := if r = 0 then 0 else vget s.core.sq.x r

/-- x`r` written; a write to x0 is discarded. -/
def State.setX (s : State) (r : BitVec 5) (v : Word) : State :=
  if r = 0 then s else { s with core.sq.x := vset s.core.sq.x r v }

/-- The instruction at the pc has completed, or is given up: nothing of it is kept. -/
def Sq.leave (q : Sq) : Sq :=
  { q with resolvedAt := none, stalledAt := none, fetched := none, inWfi := false, invalidated := false }

/-- The program counter moved past a word of `n` bytes. -/
def State.adv (s : State) (n : Nat) : State :=
  { s with core.sq := { s.core.sq.leave with pc := s.core.sq.pc + BitVec.ofNat 64 n } }

/-- The program counter set. -/
def State.jump (s : State) (t : Word) : State := { s with core.sq := { s.core.sq.leave with pc := t } }

/-- The current privilege (R97): 0 U, 1 S, 3 M. -/
def State.priv (s : State) : BitVec 2 := s.core.sq.trap.status.priv

/-- The interrupt enable in force: the manager's copy at M (R459). -/
def State.ieNow (s : State) : Bool := if s.priv = 3 then s.core.sq.mtrap.status.ie else s.core.sq.trap.status.ie

/-- A saturating 32-bit count. -/
def sat32 (c : BitVec 32) (n : Nat) : BitVec 32 := BitVec.ofNat 32 (min (c.toNat + n) 0xFFFFFFFF)

/-- A saturating 16-bit count. -/
def sat16 (c : BitVec 16) (n : Nat) : BitVec 16 := BitVec.ofNat 16 (min (c.toNat + n) 0xFFFF)

/-! ## The engines of a core -/

/-- The engine of a core. -/
def Core.eng (c : Core) : Engine → Eng
  | .ae => c.ae | .ve => c.ve | .me => c.me | .ce => c.ce | .xe => c.xe

/-- The core with an engine replaced. -/
def Core.setEng (c : Core) (e : Engine) (v : Eng) : Core :=
  match e with
  | .ae => { c with ae := v } | .ve => { c with ve := v } | .me => { c with me := v }
  | .ce => { c with ce := v } | .xe => { c with xe := v }

/-- The engine of the core in focus. -/
def State.eng (s : State) (e : Engine) : Eng := s.core.eng e

/-- The machine with an engine of the core in focus replaced. -/
def State.setEng (s : State) (e : Engine) (v : Eng) : State := { s with core := s.core.setEng e v }

/-- The five engines in ascending id. -/
def engines : List Engine := [.ae, .ve, .me, .ce, .xe]

/-- The index of the queue from unit `p` to unit `c` (R174, R175). -/
def pair (p c : Nat) : Nat := 6 * p + c

/-- The token queue from unit `p` to unit `c`. -/
def Core.tokq (k : Core) (p c : Nat) : TokQ := k.tok.getD (pair p c) {}

/-- The core with a token queue replaced. -/
def Core.setTokq (k : Core) (p c : Nat) (q : TokQ) : Core := { k with tok := k.tok.setIfInBounds (pair p c) q }

/-- The outcome queue from unit `p` to unit `c`. -/
def Core.outcome (k : Core) (p c : Nat) : List Word := k.outq.getD (pair p c) []

/-- The core with an outcome queue replaced. -/
def Core.setOutcome (k : Core) (p c : Nat) (q : List Word) : Core := { k with outq := k.outq.setIfInBounds (pair p c) q }

/-- The engine is stopped on a fault (R183). -/
def Core.stoppedOn (k : Core) (e : Engine) : Bool := (k.eng e).flt

/-- An ENGINE_FAULT of the engine is pending (R101). -/
def Core.faultPending (k : Core) (e : Engine) : Bool := k.sq.pending.getLsbD e.id

/-- A group of scales. -/
def Regs.groupAt (r : Regs) (g : Nat) : Group32 := smGet r.group g {}

/-- The register space with a group replaced. -/
def Regs.setGroup (r : Regs) (g : Nat) (v : Group32) : Regs := { r with group := smSet r.group g v }

/-- A reserved group returns to the head of the free list, its generation unchanged (R260). -/
def Regs.unreserve (r : Regs) (g : Nat) : Regs :=
  let v := r.groupAt g
  { r.setGroup g { v with count := 0 } with free := g :: r.free }

/-- The group that an LDT which does not go on has reserved is given back (R260, R272). -/
def Core.giveBack (c : Core) : Core :=
  match c.ae.part with
  | some p => match p.group with
    | some k => { c with regs := c.regs.unreserve k, ae.part := some { p with group := none } }
    | none => c
  | none => c

/-- Something leaves the package. -/
def State.emit (s : State) (e : Emit) : State := { s with out := s.out ++ [e] }

/-! ## Taking an exception -/

/-- The CAUSE word (R104). -/
def causeWord (code : BitVec 8) (unit : BitVec 3) (info : BitVec 12) (spec : Bool) : Word :=
  BitVec.ofNat 64 (code.toNat + unit.toNat * 2 ^ 8 + (if spec then 1 else 0) * 2 ^ 11 + info.toNat * 2 ^ 16)

/-- A word that has not issued is abandoned at its position; it keeps its partial state (R185, R364). An entry that waits to start goes on
waiting. -/
def Eng.abandon (e : Eng) : Eng := { e with wait := if e.st = .waiting then e.wait else 0, parked := none, woken := false }

/-- An engine stopped at a word boundary by EFREEZE (R185). -/
def Eng.freeze (e : Eng) : Eng := { e.abandon with frz := true }

/-- Nothing issues on the core: it is frozen or freezing (R364), or its group has failed (R484). -/
def Core.halted (c : Core) : Bool := c.freezing || c.sq.run = .failed

/-- The core stops for a snapshot (R364, R365): every engine stops at a word boundary, a waiting SQ instruction is abandoned,
and the markers of a waiting FENCE.M are left in their queues. -/
def Core.freeze (c : Core) : Core :=
  let c := c.giveBack
  { c with
    freezing := true
    ae := c.ae.abandon, ve := c.ve.abandon, me := c.me.abandon, ce := c.ce.abandon, xe := c.xe.abandon
    sq := { c.sq.leave with
      ahead := [], fencePushed := 0, sleep := none, parked := none, woken := false, parkCounted := false } }

/-- The lease run of a core ends, if it holds the lease (R231): the bank can be handed over when its last word allows (R242). -/
def State.endLease (s : State) (core : Nat) : State :=
  let q := s.quadAt (core / 4)
  if core < 256 ∧ q.lease.holder = core % 4 then
    s.setQuad (core / 4) { q with
      lease := { q.lease with holder := 7, words := 0, last := core % 4, freeAt := (s.coreAt core).mex.nextAt } }
  else s

/-- The smallest MAXSCOPE among the functions of a context (R362); 4 where it has none. -/
def State.policyScope (s : State) (n : Nat) : BitVec 3 :=
  match (s.ctxAt n).fns with
  | [] => 4
  | f :: rest => rest.foldl (fun m g => if (s.fnAt g).maxscope.toNat < m.toNat then (s.fnAt g).maxscope else m) (s.fnAt f).maxscope

/-- The double trap (R103): the SQ stops fetching, the core freezes as for a snapshot and is reported to the management complex
with the second trap's cause, as event bit 1 of MEVENT (R469). The policy's cap takes effect with the freeze (R362). Its context enters
Frozen (R373). -/
def State.doubleTrap (s : State) (code : BitVec 8) : State :=
  let c := s.ctxAt s.core.sq.ctxid.toNat
  let s := s.endLease s.cur
  let s := { s with
    core := { s.core.freeze with sq.run := .doubleTrap, sq.maxscope := s.policyScope s.core.sq.ctxid.toNat }
    mgmt.mevent := s.mgmt.mevent ||| 2
    mgmt.trapReports := s.mgmt.trapReports ++ [(s.cur, code)] }
  if c.st = .running then s.setCtx s.core.sq.ctxid.toNat { c with st := .frozen } else s

/-- The SQ in focus leaves the line for a command-queue slot in which it stood (R365). -/
def State.leaveLine (s : State) : State :=
  match s.core.sq.lineUp with
  | none => s
  | some (n, e) =>
    let c := s.coreAt n
    let s := s.setCoreAt n (c.setEng e { c.eng e with waiters := (c.eng e).waiters.filter fun k => k ≠ s.cur })
    { s with core.sq.lineUp := none }

/-- A waiting SQ instruction is abandoned without effect (R101, R355, R365). -/
def State.abandon (s : State) : State :=
  let s := s.leaveLine
  { s with
    core.sq := { s.core.sq.leave with
      fencePushed := 0, sleep := none, parked := none, woken := false, parkCounted := false } }

/-- A trap interrupts a program: a barrier word that has arrived there is kept for the return (R398), and what has been fetched ahead is
discarded (R336). -/
def Sq.interrupt (q : Sq) : Sq := { q with bar := none, barsBelow := q.bar :: q.barsBelow, ahead := [] }

/-- A return resumes a program at an address: the barrier word kept for it stands where it returns to that word (R398). -/
def Sq.resumeBar (q : Sq) (pc : Word) : Sq :=
  { q with bar := (q.barsBelow.headD none).filter fun w => w.pc = pc, barsBelow := q.barsBelow.tail }

/-- Trap entry at M (R459): the manager's registers take what S's would. -/
def State.mTrapEntry (s : State) (code : BitVec 8) (unit : BitVec 3) (info : BitVec 12) (addr epc : Word) (spec : Bool) :
    State :=
  let m := s.core.sq.mtrap
  let s := { s with core.sq := s.core.sq.interrupt }
  { s with
    core.sq.mtrap :=
      { m with
        epc := epc, badaddr := addr, cause := causeWord code unit info spec
        status := { m.status with ppriv := s.priv, pie := m.status.ie, ie := false, intrap := true } }
    core.sq.pc := m.tvec }

/-- Trap entry from U or S (R102): where the pc and the status are saved, what they become, and the double trap. A waiting
instruction is abandoned (R101, R355). -/
def State.trapEntry (s : State) (code : BitVec 8) (unit : BitVec 3) (info : BitVec 12) (addr epc : Word) (spec : Bool) : State :=
  let s := s.abandon
  let t := s.core.sq.trap
  if t.status.priv = 3 then s.mTrapEntry code unit info addr epc spec
  else if t.status.priv = 1 ∧ t.status.intrap ∧ code ≠ Cause.engineFault.code then s.doubleTrap code
  else
    let s := { s with core.sq := s.core.sq.interrupt }
    { s with
      core.sq.trap :=
        { t with
          epc := epc, badaddr := addr, cause := causeWord code unit info spec
          status := { intrap := true, pie := t.status.ie, ie := false, ppriv := t.status.priv, priv := 1 } }
      core.sq.pc := t.tvec }

/-- An abort of the speculative region (R119). -/
def State.abortRegion (s : State) (reason : BitVec 3) (fcause : BitVec 8) : State :=
  { s with
    core.sq := { s.core.sq.leave with
      x := s.core.sq.spec.chkpt
      pc := s.core.sq.spec.handler
      spec := { s.core.sq.spec with act := false, held := [], checks := [], reason := reason, fcause := fcause }
      parked := none, woken := false, parkCounted := false, bar := none } }

/-- A synchronous fault of the instruction at pc: inside a region it aborts the region (R116), else it traps (R102). -/
def State.raiseInfo (s : State) (c : Cause) (addr : Word) (info : BitVec 12) : State :=
  if s.core.sq.spec.act then s.abortRegion 3 c.code else s.trapEntry c.code 0 info addr s.core.sq.pc false

/-- A synchronous fault without INFO. -/
def State.raise (s : State) (c : Cause) (addr : Word) : State := s.raiseInfo c addr 0

/-- The pending ENGINE_FAULT of an engine is taken (R101): an open region is aborted first, and EPC is then its handler. A WFI that
waits has then ended, and the trap is taken at the next instruction (R122; assumption log 57). -/
def State.takeEngineFault (s : State) (e : Engine) : State :=
  let s := if s.core.sq.inWfi then s.adv 4 else s
  let act := s.core.sq.spec.act
  let s := { s with core.sq.pending := s.core.sq.pending &&& ~~~(1#6 <<< e.id) }
  let s := if act then s.abortRegion 4 0 else s
  s.trapEntry Cause.engineFault.code (BitVec.ofNat 3 e.id) 0 0 s.core.sq.pc act

/-- The lowest engine whose ENGINE_FAULT is pending. -/
def Core.firstPending (c : Core) : Option Engine := engines.find? fun e => c.faultPending e

/-- Return from an exception (R122): at M through the manager's registers (R459). -/
def State.returnFromTrap (s : State) : State :=
  let s := { s with core.sq := s.core.sq.leave }
  if s.priv = 3 then
    let m := s.core.sq.mtrap
    let s := { s with core.sq := s.core.sq.resumeBar m.epc }
    { s with
      core.sq.pc := m.epc
      core.sq.trap.status.priv := m.status.ppriv
      core.sq.mtrap.status := { m.status with intrap := false, ie := m.status.pie, ppriv := 0, pie := true } }
  else
    let t := s.core.sq.trap
    let s := { s with core.sq := s.core.sq.resumeBar t.epc }
    { s with
      core.sq.pc := t.epc
      core.sq.trap.status := { intrap := false, pie := true, ie := t.status.pie, ppriv := 0, priv := t.status.ppriv } }

/-- An SQ instruction that waits on the engines of a list (R101): the pending fault of the lowest of them that is stopped is taken
at once, whatever IE holds; else the SQ stands where it is. -/
def State.waitOn (s : State) (es : List Engine) : State :=
  match engines.find? fun e => es.contains e && s.core.stoppedOn e && s.core.faultPending e with
  | some e => s.takeEngineFault e
  | none => s

/-! ## Outcome queues and the checks of speculation (R117, R175) -/

/-- The last value of the outcome queue of unit `u` toward the SQ, replaced. -/
def State.setLast (s : State) (u : Nat) (v : Word) : State :=
  { s with core.sq.last := s.core.sq.last.setIfInBounds u v }

/-- The oldest outstanding check meets the head of its queue (R117): a match is consumed and becomes last, a mismatch aborts the
region and stays at the head. Nothing happens while the queue is empty. -/
def State.resolveOldest (s : State) : State :=
  match s.core.sq.spec.checks with
  | [] => s
  | c :: rest =>
    match s.core.outcome c.unit.toNat 0 with
    | [] => s
    | v :: q =>
      if v = c.predicted then
        ({ s with core := { s.core.setOutcome c.unit.toNat 0 q with sq.spec.checks := rest } }).setLast c.unit.toNat v
      else s.abortRegion 2 0

/-- At most four outstanding checks meet their values in order. -/
def State.resolveChecks (s : State) : State := s.resolveOldest.resolveOldest.resolveOldest.resolveOldest

/-- A value enters the outcome queue from unit `p` to unit `c`; toward the SQ it resolves outstanding checks. -/
def State.pushOutcome (s : State) (p c : Nat) (v : Word) : State :=
  let s := { s with core := s.core.setOutcome p c (s.core.outcome p c ++ [v]) }
  if c = 0 then s.resolveChecks else s

/-- The queue has room (R175). -/
def Core.outcomeRoom (k : Core) (p c : Nat) : Bool := (k.outcome p c).length < 16

end Sys2Proof.Machine
end

