-- ==== Sys2Proof/Machine/Coherence.lean ====
section
/-! DEFINITION. The coherence of lines (R303-R316): copies, directories and messages, what a directory and a holder do with each message, and an
access that runs the protocol to its end. The values of coherent memory stand at home throughout, so that a message moves permission and
bookkeeping (assumption log 39). -/

namespace Sys2Proof.Machine

/-! ## Sectors -/

/-- The sector of an address (R303). -/
def sectorOf (pa : Nat) : Nat := pa / 64

/-- The sectors that `n` bytes from an address touch. -/
def sectorsOf (pa n : Nat) : List Nat :=
  if n = 0 then [] else (List.range ((pa + n - 1) / 64 - pa / 64 + 1)).map (pa / 64 + ·)

/-- The sectors that `n` bytes from an address cover whole. -/
def wholeSectors (pa n : Nat) : List Nat := (sectorsOf pa n).filter fun k => pa ≤ 64 * k && 64 * k + 64 ≤ pa + n

/-- Membership of a code frame (R326). -/
def Store.isCode (st : Store) (pa : Nat) : Bool := st.code.any fun r => r.1 ≤ pa && pa < r.1 + r.2

/-- The U bit of a sector (R328). -/
def Store.unpublished (st : Store) (k : Nat) : Bool := st.ubit.contains k

/-- A set with an element added. -/
def addTo (l : List Nat) (k : Nat) : List Nat := if l.contains k then l else k :: l

/-- What a mark raises at the consumer of its sector (R473). -/
def markCause (ecc : Bool) : Cause := if ecc then .eccUncorrectable else .poisonConsumed

/-- The mark of a sector at home (R473): ECC_UNCORRECTABLE or POISON_CONSUMED at its consumer. -/
def Store.markOf (st : Store) (k : Nat) : Option Cause := (smFind st.marks k).map markCause

/-- A plate copy that holds a written sector becomes stale (R233). -/
def Plate.touched (p : Plate) (ks : List Nat) : Plate :=
  if (p.valid || p.filling) && ks.any (fun k => p.sectors.contains k) then { p with stale := true } else p

/-- Every plate copy of every quad that holds a written sector becomes stale (R233). -/
def staleQuads (qs : SMap Quad) (ks : List Nat) : SMap Quad :=
  qs.map fun q => (q.1, { q.2 with plate := vmap (fun p => p.touched ks) q.2.plate })

/-! ## The tree of holders and directories (R303, R306) -/

/-- The quad and the die in which a holder stands. -/
def holderQuad : Holder → Nat
  | .dcache c => c / 4 | .icache c => c / 4 | .loopBuf c _ => c / 4 | .plates q => q | .cluster q => q | .l2 d => 16 * d

/-- The die in which a holder stands. -/
def holderDie : Holder → Nat
  | .l2 d => d
  | h => holderQuad h / 16

/-- The directory of which a holder, or a level, is a child. -/
def parentDir : Holder → DirId
  | .cluster q => .die (q / 16)
  | .l2 _ => .package
  | h => .cluster (holderQuad h)

/-- The level that a directory stands for toward its parent; none at the package. -/
def levelOf : DirId → Option Holder
  | .cluster q => some (.cluster q)
  | .die d => some (.l2 d)
  | .package => none

/-- The directory that serves the children of a level. -/
def ownDir : Holder → Option DirId
  | .cluster q => some (.cluster q)
  | .l2 d => some (.die d)
  | _ => none

/-- A holder that keeps clean copies only (R303). -/
def readOnly : Holder → Bool
  | .icache _ | .loopBuf _ _ | .plates _ => true
  | _ => false

/-- A transient state (R310). -/
def CopySt.transient : CopySt → Bool
  | .s | .e | .m => false
  | _ => true

/-- An access of the die itself, served at its own directory (R305). -/
def Req.self (r : Req) : Bool := levelOf r.dir = some r.child

/-- The sector that a coherence message is about. -/
def CohMsg.sector : CohMsg → Nat
  | .req _ k | .inv _ k _ _ _ _ | .invack _ k | .ackPut _ k | .fwd _ k _ _ _ | .grant _ k _ | .reply _ k | .putm _ k => k

/-! ## Records -/

/-- A directory entry, Uncached where none is listed. -/
def Coh.dirEnt (c : Coh) (d : DirId) (k : Nat) : DirEnt :=
  (c.dirs.find? fun e => e.dir = d && e.sector = k).getD { dir := d, sector := k }

/-- A directory entry replaced, as the one used last; an Uncached stable entry is not listed. -/
def Coh.setDirEnt (c : Coh) (e : DirEnt) : Coh :=
  let rest := c.dirs.filter fun x => !(x.dir = e.dir && x.sector = e.sector)
  let idle := e.sharers.isEmpty && e.owner.isNone && e.busy = .stable && e.down.isNone && e.queue.isEmpty && e.fetch.isEmpty
  { c with dirs := if idle then rest else e :: rest }

/-- The copy of a holder, if it has one. -/
def Coh.copyOf (c : Coh) (h : Holder) (k : Nat) : Option Copy := c.copies.find? fun x => x.holder = h && x.sector = k

/-- The state of a holder's copy; none is I. -/
def Coh.stOf (c : Coh) (h : Holder) (k : Nat) : Option CopySt := (c.copyOf h k).map Copy.st

/-- A copy record replaced, or dropped. -/
def Coh.setCopy (c : Coh) (h : Holder) (k : Nat) (st : Option CopySt) (num : BitVec 8 := 0) : Coh :=
  let rest := c.copies.filter fun x => !(x.holder = h && x.sector = k)
  { c with copies := match st with | none => rest | some v => { holder := h, sector := k, st := v, num := num } :: rest }

/-- A message sets out. -/
def Coh.send (c : Coh) (m : CohMsg) : Coh := { c with msgs := c.msgs ++ [m] }

/-- A message has arrived. -/
def Coh.took (c : Coh) (m : CohMsg) : Coh := { c with msgs := c.msgs.erase m }

/-- The number of a holder's next request: eight bits, wrapping (R308). -/
def Coh.nextNum (c : Coh) (h : Holder) : BitVec 8 := ((c.nums.find? fun x => x.1 = h).map (·.2)).getD 0

/-- A holder has taken its next request number. -/
def Coh.bump (c : Coh) (h : Holder) : Coh := { c with nums := (h, c.nextNum h + 1) :: c.nums.filter fun x => x.1 ≠ h }

/-- The permission that a directory's level holds (R309). -/
def Coh.permission (c : Coh) (d : DirId) (k : Nat) : Option CopySt :=
  match levelOf d with
  | none => some .m
  | some h => c.stOf h k

/-- A child joins the sharers under the number of its request. A die directory's fifth sharer turns the pointers into a coarse vector,
and the numbers are lost (R306, R312). -/
def DirEnt.addSharer (e : DirEnt) (h : Holder) (num : BitVec 8) : DirEnt :=
  let l := (h, some num) :: e.sharers.filter fun x => x.1 ≠ h
  match e.dir with
  | .die _ => if e.coarse || 4 < l.length then { e with sharers := l.map fun x => (x.1, none), coarse := true } else { e with sharers := l }
  | _ => { e with sharers := l }

/-- No child is recorded; the record is precise again. -/
def DirEnt.clear (e : DirEnt) : DirEnt := { e with owner := none, ownerNum := none, sharers := [], coarse := false }

/-- A child becomes the owner: the record is precise again. -/
def DirEnt.own (e : DirEnt) (h : Holder) (num : BitVec 8) : DirEnt := { e.clear with owner := some h, ownerNum := some num }

/-- The children that an invalidation of the sharers but `h` goes to, with the numbers it carries: under a coarse vector every quad of
each marked group (R312). -/
def DirEnt.targets (e : DirEnt) (h : Option Holder) : List (Holder × Option (BitVec 8)) :=
  let l := if e.coarse then
      ((e.sharers.map fun x => holderQuad x.1 / 4).eraseDups.flatMap fun g => (List.range 4).map fun i => (Holder.cluster (4 * g + i), none))
    else e.sharers
  l.filter fun x => some x.1 ≠ h

/-- Every child that the record names, the owner among them. -/
def DirEnt.children (e : DirEnt) : List (Holder × Option (BitVec 8)) :=
  (e.owner.toList.map fun o => (o, e.ownerNum)) ++ e.targets none

/-- A quad joins the fetch record of a die's directory: the fifth makes it coarse (R306, R327). -/
def DirEnt.addFetch (e : DirEnt) (q : Nat) : DirEnt :=
  let l := q :: e.fetch.filter (· ≠ q)
  { e with fetch := l, fetchCoarse := e.fetchCoarse || 4 < l.length }

/-- The quads that an invalidation of the fetch record goes to. -/
def DirEnt.fetchTargets (e : DirEnt) : List Nat :=
  if e.fetchCoarse then (e.fetch.map (· / 4)).eraseDups.flatMap fun g => (List.range 4).map (4 * g + ·) else e.fetch

/-- No quad is in the fetch record. -/
def DirEnt.noFetch (e : DirEnt) : DirEnt := { e with fetch := [], fetchCoarse := false }

/-- INVs set out to children, for a requester's context and window bit. -/
def Coh.sendInvs (c : Coh) (e : DirEnt) (ts : List (Holder × Option (BitVec 8))) (ctx : BitVec 6) (window : Bool) : Coh :=
  ts.foldl (fun c x => c.send (.inv x.1 e.sector x.2 ctx window e.coarse)) c

/-! ## Serving a request (R309, R311) -/

/-- A grant goes to a requester; the die itself needs no message. -/
def Coh.grant (c : Coh) (r : Req) (k : Nat) (g : Grant) : Coh := if r.self then c else c.send (.grant r.child k g)

/-- The level's own copy is dirty: it has granted DATA.M below, or has taken a PUTM. -/
def Coh.raiseLevel (c : Coh) (d : DirId) (k : Nat) : Coh :=
  match levelOf d with
  | some h => match c.copyOf h k with
    | some x => if x.st = .e || x.st = .s then c.setCopy h k (some .m) x.num else c
    | none => c
  | none => c

/-- The levels above a holder are no weaker than it: its copy has become dirty (R309). -/
def Coh.raiseAbove (c : Coh) (h : Holder) (k : Nat) : Coh :=
  let c := c.raiseLevel (parentDir h) k
  match levelOf (parentDir h) with
  | some l => c.raiseLevel (parentDir l) k
  | none => c

/-- A requester becomes the owner with DATA.M. -/
def Coh.grantM (c : Coh) (e : DirEnt) (r : Req) : Coh :=
  let e := { e with busy := .stable }
  ((c.setDirEnt (if r.self then e.clear else e.own r.child r.num)).grant r e.sector .m).raiseLevel e.dir e.sector

/-- A request that the level cannot grant is sent upward with the same kind, and the entry waits in B_UP (R309). -/
def Coh.goUp (c : Coh) (e : DirEnt) (r : Req) : Coh :=
  match levelOf e.dir with
  | none => c
  | some h =>
    let n := c.nextNum h
    let st : CopySt := if !r.m then .isD else if c.stOf h e.sector = some .s then .smD else .imD
    (((c.setDirEnt { e with busy := .up r }).bump h).setCopy h e.sector (some st) n).send
      (.req { r with child := h, dir := parentDir h, num := n } e.sector)

/-- A directory serves a request for a sector in a stable state (R311). A sector of a code frame is granted DATA.S only (R327). -/
def Coh.serve (c : Coh) (r : Req) (k : Nat) (code : Bool) : Coh :=
  let e := { c.dirEnt r.dir k with ctx := r.ctx, window := r.window }
  let has := c.permission r.dir k
  if r.m then
    if has ≠ some .e && has ≠ some .m then c.goUp e r
    else match e.owner with
      | some o =>
        if o = r.child then c.grantM e r else (c.setDirEnt { e with busy := .fwd r }).send (.fwd o k true r.ctx r.window)
      | none =>
        match e.targets (some r.child) with
        | [] => c.grantM e r
        | ts => (c.setDirEnt { e with busy := .inv r ts.length }).sendInvs e ts r.ctx r.window
  else if has ≠ some .s && has ≠ some .e && has ≠ some .m then c.goUp e r
  else match e.owner with
    | some o =>
      if o = r.child then (c.setDirEnt { e with ownerNum := some r.num }).grant r k .e
      else (c.setDirEnt { e with busy := .fwd r }).send (.fwd o k false r.ctx r.window)
    | none =>
      if r.self then c
      else if e.sharers.isEmpty && !readOnly r.child && !code && has ≠ some .s then (c.setDirEnt (e.own r.child r.num)).grant r k .e
      else (c.setDirEnt (e.addSharer r.child r.num)).grant r k .s

/-- A directory entry is in a stable state, as is its level's own copy. -/
def Coh.ready (c : Coh) (d : DirId) (k : Nat) : Bool :=
  let e := c.dirEnt d k
  e.busy = .stable && e.down.isNone && !(c.permission d k).any CopySt.transient

/-- The requests that wait in a sector's queue are served in the order in which they arrived, until one makes the entry transient (R307). -/
def Coh.serveQueue (d : DirId) (k : Nat) (code : Bool) : Nat → Coh → Coh
  | 0, c => c
  | n + 1, c =>
    let e := c.dirEnt d k
    match e.queue with
    | [] => c
    | r :: rest =>
      if c.ready d k then Coh.serveQueue d k code n ((c.setDirEnt { e with queue := rest }).serve r k code) else c

/-- Every directory serves what waits for the sector. -/
def Coh.serveQueues (c : Coh) (k : Nat) (code : Bool) : Coh :=
  (c.dirs.filter fun e => e.sector = k && !e.queue.isEmpty).foldl (fun c e => Coh.serveQueue e.dir k code e.queue.length c) c

/-! ## Room in the filter of a die (R313) -/

/-- The lines that a die's filter has entries for, the one used last first. -/
def Coh.lines (c : Coh) (d : Nat) : List Nat := ((c.dirs.filter fun e => e.dir = .die d).map (·.sector / 4)).eraseDups

/-- The lines of the set that a new line needs an entry of, where the set is full: 16 slices of 512 sets of 16 ways (R306); which set a line
falls in is open (assumption log 39). -/
def Coh.fullSet (c : Coh) (d line : Nat) : List Nat :=
  let ls := c.lines d
  if ls.length < 16 || ls.contains line then []
  else
    let set := ls.filter fun l => Config.filterSet l % 8192 = Config.filterSet line % 8192
    if set.length < 16 then [] else set

/-- Every sector of a line is stable at a die's directory. -/
def Coh.lineStable (c : Coh) (d line : Nat) : Bool :=
  c.dirs.all fun e => !(e.dir = .die d && e.sector / 4 = line) || (e.busy = .stable && e.down.isNone && e.queue.isEmpty)

/-- A victim's invalidation is under way in a set. -/
def Coh.evicting (c : Coh) (d : Nat) (set : List Nat) : Bool :=
  c.dirs.any fun e => e.dir = .die d && set.contains (e.sector / 4) && (match e.busy with | .bi _ => true | _ => false)

/-- The victim of a full set: the least recently used line whose sectors are all stable. -/
def Coh.victim (c : Coh) (d : Nat) (set : List Nat) : Option Nat := (set.filter (c.lineStable d)).getLast?

/-- The quad of a holder belongs to another context than a coarse INV's requester, and the line is in no shared window (R314). -/
def State.filtered (s : State) (h : Holder) (ctx : BitVec 6) (window coarse : Bool) : Bool :=
  match h with
  | .cluster q => coarse && !window && s.ctxs.any fun c => c.1 ≠ ctx.toNat && c.2.quads.getLsbD q
  | _ => false

/-- A filter has answered an INV for its quad (R314). -/
def State.countDrop (s : State) (q : Nat) : State := s.setQuad q { s.quadAt q with pfdrop := sat32 (s.quadAt q).pfdrop 1 }

/-- The fetch record of a sector in a die is invalidated in the quads that `here` names, for a requester's context and window bit (R327):
those that the filter lets through drop their fetch copies, and the record names them no more. -/
def State.dropFetch (s : State) (d k : Nat) (here : Nat → Bool) (ctx : BitVec 6) (window : Bool) : State :=
  let e := s.store.coh.dirEnt (.die d) k
  let ts := e.fetchTargets.filter here
  let out := ts.filter fun q => s.filtered (.cluster q) ctx window e.fetchCoarse
  let left := e.fetch.filter fun q => !here q
  let e' := if left.isEmpty then e.noFetch else { e with fetch := left }
  out.foldl State.countDrop { s with
    store.coh := if e.fetch.isEmpty then s.store.coh else s.store.coh.setDirEnt e'
    store.fetch := s.store.fetch.filter fun x =>
      !(x.sector = k && ts.contains (holderQuad x.holder) && !out.contains (holderQuad x.holder)) }

/-- A filter victim is back-invalidated (R311, R313): the children of its sectors are recalled, the fetch copies of the die are dropped
(R327), and SFEVICT of every quad that is probed counts it. The INVs carry the context and window bit of the request that the sector's entry
served last (R314; assumption log 39). -/
def State.evictLine (s : State) (d line : Nat) : State :=
  let es := ((List.range 4).map (4 * line + ·)).map fun k => s.store.coh.dirEnt (.die d) k
  let probed := (es.flatMap fun e => e.children.map (holderQuad ·.1) ++ e.fetchTargets).eraseDups
  let s := es.foldl (fun s e => s.dropFetch d e.sector (fun _ => true) e.ctx e.window) s
  let coh := es.foldl (fun c e => match e.children with
    | [] => c
    | ts => (c.setDirEnt { e.noFetch with busy := .bi ts.length }).sendInvs e ts e.ctx e.window) s.store.coh
  probed.foldl (fun s q => s.setQuad q { s.quadAt q with sfevict := sat32 (s.quadAt q).sfevict 1 }) { s with store.coh := coh }

/-- The set that a request makes full, and its die, where the directory needs an entry for a new line. -/
def Coh.crowded (c : Coh) (r : Req) (k : Nat) : Option (Nat × List Nat) :=
  match r.dir with
  | .die d =>
    if r.self then none
    else match c.fullSet d (k / 4) with
      | [] => none
      | set => some (d, set)
  | _ => none

/-! ## Messages to a child (R309, R310, R312, R314) -/

/-- A level is in the middle of a transaction of its own children, or of its parent: a message of its parent waits. -/
def Coh.levelBusy (c : Coh) (h : Holder) (k : Nat) : Bool :=
  match ownDir h with
  | none => false
  | some d =>
    let e := c.dirEnt d k
    e.down.isSome || (match e.busy with | .stable | .up _ => false | _ => true)

/-- The state after an INV (R310); none where no copy stays. -/
def invalidated (x : Copy) (num : Option (BitVec 8)) : Option Copy :=
  match x.st with
  | .s | .e | .m => none
  | .isD => some (if num = none || num = some x.num then { x with st := .isDI } else x)
  | .isDI | .imD | .iiA => some x
  | .smD => some { x with st := .imD }
  | .miA => some { x with st := .iiA }

/-- A holder's copy takes an INV; whether it answers with data. -/
def Coh.invCopy (c : Coh) (h : Holder) (k : Nat) (num : Option (BitVec 8)) : Bool × Coh :=
  match c.copyOf h k with
  | none => (false, c)
  | some x =>
    (x.st = .m || x.st = .miA, match invalidated x num with
      | none => c.setCopy h k none
      | some y => c.setCopy h k (some y.st) y.num)

/-- The answer of a child. -/
def Coh.reply (c : Coh) (h : Holder) (k : Nat) (data : Bool) : Coh := c.send (if data then .reply h k else .invack h k)

/-- A level whose children have all answered answers its parent, and its own state changes as a cache's (R309). A cluster that holds
nothing below it has no copy. -/
def Coh.finishDown (c : Coh) (h : Holder) (e : DirEnt) (dn : Down) : Coh :=
  let k := e.sector
  let e' := { e with down := none }
  let keeps := (match h with | .l2 _ => true | _ => false) || dn.data || c.stOf h k = some .m
  match dn.kind with
  | .inv =>
    let (dirty, c) := (c.setDirEnt e'.clear).invCopy h k dn.num
    c.reply h k (dirty || dn.data)
  | .fwdM => ((c.setDirEnt e'.clear).setCopy h k none).reply h k keeps
  | .fwdS =>
    let l := match e.owner with
      | some o => if dn.data then [(o, e.ownerNum)] else []
      | none => e.sharers
    let has := keeps || !l.isEmpty
    ((c.setDirEnt { e' with owner := none, ownerNum := none, sharers := l }).setCopy h k (if has then some .s else none)).reply h k has

/-- A level passes its parent's message to children, or answers at once where there is none. -/
def Coh.passDown (c : Coh) (h : Holder) (e : DirEnt) (dn : Down) (ts : List (Holder × Option (BitVec 8))) (ctx : BitVec 6)
    (window : Bool) : Coh :=
  match ts with
  | [] => c.finishDown h e dn
  | _ => (c.setDirEnt { e with down := some { dn with left := ts.length } }).sendInvs e ts ctx window

/-- INV reaches a child. The plate bank's copies of the sector become stale and stay (R312). -/
def State.takeInv (s : State) (h : Holder) (k : Nat) (num : Option (BitVec 8)) (ctx : BitVec 6) (window coarse : Bool) : State :=
  if s.filtered h ctx window coarse then
    { s with store.coh := s.store.coh.reply h k false }.countDrop (holderQuad h)
  else match ownDir h with
    | some d =>
      let e := s.store.coh.dirEnt d k
      { s with store.coh := s.store.coh.passDown h e { kind := .inv, num := num, left := 0 } e.children ctx window }
    | none =>
      let (dirty, coh) := s.store.coh.invCopy h k num
      let s := { s with store.coh := coh.reply h k dirty }
      match h with
      | .plates q => if (smFind s.quads q).isSome then
          s.setQuad q { s.quadAt q with plate := vmap (fun p => p.touched [k]) (s.quadAt q).plate } else s
      | _ => s

/-- FWD.S (`m` false) and FWD.M reach an owner, for a requester's context and window bit. -/
def Coh.takeFwd (c : Coh) (h : Holder) (k : Nat) (m : Bool) (ctx : BitVec 6) (window : Bool) : Coh :=
  match c.copyOf h k with
  | none => c.reply h k false
  | some x =>
    match x.st with
    | .iiA => c.reply h k false
    | .miA => (c.setCopy h k (some .iiA) x.num).reply h k true
    | .s | .e | .m =>
      match ownDir h with
      | none => (c.setCopy h k (if m then none else some .s) x.num).reply h k true
      | some d =>
        let e := c.dirEnt d k
        let dn : Down := { kind := if m then .fwdM else .fwdS, left := 1 }
        match e.owner with
        | some o => (c.setDirEnt { e with down := some dn }).send (.fwd o k m ctx window)
        | none => c.passDown h e dn (if m then e.targets none else []) ctx window
    | _ => c

/-! ## Answers to a directory (R311) -/

/-- The requester that waits in B_FWD is granted its request. -/
def Coh.endFwd (c : Coh) (e : DirEnt) (r : Req) (data : Bool) : Coh :=
  let e := { e with busy := .stable }
  let o := if data then e.owner.toList.map fun o => (o, e.ownerNum) else []
  if r.m then c.grantM e r
  else if r.self then c.setDirEnt { e.clear with sharers := o }
  else if data || readOnly r.child then
    (c.setDirEnt { e.clear with sharers := (r.child, some r.num) :: o }).grant r e.sector .s
  else (c.setDirEnt (e.own r.child r.num)).grant r e.sector .e

/-- An answer of a child, an INVACK or with `data` a DATA, at its directory. -/
def Coh.answer (c : Coh) (h : Holder) (k : Nat) (data : Bool) : Coh :=
  let e := c.dirEnt (parentDir h) k
  match e.down, levelOf e.dir with
  | some dn, some l =>
    let dn := { dn with left := dn.left - 1, data := dn.data || data }
    if dn.left = 0 then c.finishDown l e dn else c.setDirEnt { e with down := some dn }
  | _, _ =>
    match e.busy with
    | .inv r n => if n ≤ 1 then c.grantM e r else c.setDirEnt { e with busy := .inv r (n - 1) }
    | .fwd r => c.endFwd e r data
    | .bi n => if n ≤ 1 then c.setDirEnt { e.clear with busy := .stable } else c.setDirEnt { e with busy := .bi (n - 1) }
    | .stable | .up _ => c

/-- PUTM reaches a directory: an owner's data is written and the owner leaves the record; a non-owner's is dropped. In B_BI it counts as
the owner's answer, and what the owner still answers counts no more. -/
def Coh.takePutm (c : Coh) (h : Holder) (k : Nat) : Coh :=
  let c := c.send (.ackPut h k)
  let e := c.dirEnt (parentDir h) k
  if e.owner ≠ some h then c
  else
    let c := c.raiseLevel e.dir k
    if e.down.isSome then c
    else match e.busy with
      | .stable | .up _ => c.setDirEnt { e with owner := none, ownerNum := none }
      | .bi _ =>
        let other (m : CohMsg) : Bool :=
          match m with
          | .inv x j _ _ _ _ | .reply x j | .invack x j => !(x = h && j = k)
          | _ => true
        { c with msgs := c.msgs.filter other }.answer h k true
      | .inv _ _ | .fwd _ => c

/-- The state that a grant gives (R310); none where the data is used once and not kept. -/
def granted (st : CopySt) (g : Grant) : Option (Option CopySt) :=
  match st, g with
  | .isD, .s => some (some .s)
  | .isD, .e => some (some .e)
  | .isD, .m => some (some .m)
  | .isDI, _ => some none
  | .imD, .m => some (some .m)
  | .smD, .m => some (some .m)
  | _, _ => none

/-- A level that has gained permission grants the request for which it waited in B_UP (R309, R311). Data that the level may use once only goes
on to the child, which uses it once and keeps no copy either (R310). -/
def Coh.levelGrant (c : Coh) (d : DirId) (k : Nat) (once code : Bool) : Coh :=
  let e := c.dirEnt d k
  match e.busy with
  | .up r =>
    let c := c.setDirEnt { e with busy := .stable }
    if !once then c.serve r k code
    else if r.self then c
    else
      let c := if c.stOf r.child k = some .isD then c.setCopy r.child k (some .isDI) r.num else c
      c.grant r k .s
  | _ => c

/-- DATA with a grant reaches a requester. -/
def Coh.takeGrant (c : Coh) (h : Holder) (k : Nat) (g : Grant) (code : Bool) : Coh :=
  match c.copyOf h k with
  | none => c
  | some x =>
    match granted x.st g with
    | none => c
    | some new =>
      let c := c.setCopy h k new x.num
      match ownDir h with
      | none => c
      | some d => c.levelGrant d k new.isNone code

/-- INVACK for a PUTM: the holder's kept data goes. -/
def Coh.takeAck (c : Coh) (h : Holder) (k : Nat) : Coh :=
  match c.stOf h k with
  | some .miA | some .iiA => c.setCopy h k none
  | _ => c

/-! ## Delivery -/

/-- A message can be served where it arrives: a request finds or makes room (R313), a level is not in the middle of another transaction,
a FWD finds its owner in the state that it is held for (R310), and does not overtake the grant before it. -/
def State.deliverable (s : State) (m : CohMsg) : Bool :=
  let c := s.store.coh
  match m with
  | .req r k =>
    match c.crowded r k with
    | none => true
    | some (d, set) => !c.evicting d set && (c.victim d set).isSome
  | .inv h k _ ctx w co => s.filtered h ctx w co || !c.levelBusy h k
  | .fwd h k _ _ _ =>
    !c.levelBusy h k && !c.msgs.any (fun x => match x with | .grant h' k' _ => h' = h && k' = k | _ => false) &&
      !(match c.stOf h k with | some .isD | some .isDI | some .imD | some .smD => true | _ => false)
  | .grant h k _ => match ownDir h with | some d => (c.dirEnt d k).down.isNone | none => true
  | _ => true

/-- A message is delivered, and the requests that waited for the sector are served as far as it allows. A request that makes room first
stays on its way. -/
def State.deliver (s : State) (m : CohMsg) : State :=
  let c := s.store.coh.took m
  let k := m.sector
  let code := s.store.isCode (64 * k)
  let s1 := match m with
    | .req r k =>
      match s.store.coh.crowded r k with
      | some (d, set) =>
        match s.store.coh.victim d set with
        | some line => s.evictLine d line
        | none => s
      | none =>
        let e := c.dirEnt r.dir k
        { s with store.coh :=
            if c.ready r.dir k && e.queue.isEmpty then c.serve r k code else c.setDirEnt { e with queue := e.queue ++ [r] } }
    | .inv h k num ctx w co => { s with store.coh := c }.takeInv h k num ctx w co
    | .fwd h k m ctx w => { s with store.coh := c.takeFwd h k m ctx w }
    | .invack h k => { s with store.coh := c.answer h k false }
    | .reply h k => { s with store.coh := c.answer h k true }
    | .ackPut h k => { s with store.coh := c.takeAck h k }
    | .putm h k => { s with store.coh := c.takePutm h k }
    | .grant h k g => { s with store.coh := c.takeGrant h k g code }
  { s1 with store.coh := s1.store.coh.serveQueues k code }

/-- The messages of a sector, and those of filter victims, are delivered until none is left that can be. -/
def State.drain (k : Nat) : Nat → State → State
  | 0, s => s
  | n + 1, s =>
    let c := s.store.coh
    let mine (m : CohMsg) : Bool :=
      (m.sector = k || c.dirs.any fun e => e.sector = m.sector && (match e.busy with | .bi _ => true | _ => false)) && s.deliverable m
    match c.msgs.find? mine with
    | none => s
    | some m => State.drain k n (s.deliver m)

/-- What is under way on a sector ends. -/
def State.settle (s : State) (k : Nat) : State := s.drain k 65536

/-- What is under way on the sectors of a line ends. -/
def State.settleLine (s : State) (line : Nat) : State := ((List.range 4).map (4 * line + ·)).foldl State.settle s

/-! ## Accesses that run the protocol to its end -/

/-- A holder asks its directory for a sector; the die itself asks its own (R305). -/
def Coh.ask (c : Coh) (h : Holder) (k : Nat) (m : Bool) (ctx : BitVec 6) (window : Bool) (hint : BitVec 2) : Coh :=
  let dir := match h with | .l2 d => .die d | _ => parentDir h
  let n := c.nextNum h
  let r : Req := { child := h, dir := dir, m := m, num := n, ctx := ctx, window := window, hint := hint }
  let c := if r.self then c
    else c.setCopy h k (some (if !m then .isD else if c.stOf h k = some .s then .smD else .imD)) n
  (c.bump h).send (.req r k)

/-- An access by a holder hits (R304, R305): at a cache by the state of its copy, at a die by the die's permission and its directory. -/
def Coh.hits (c : Coh) (h : Holder) (k : Nat) (m : Bool) : Bool :=
  let st := c.stOf h k
  let may := st = some .e || st = some .m || (!m && (st = some .s || st = some .smD))
  match h with
  | .l2 d =>
    let e := c.dirEnt (.die d) k
    may && e.owner.isNone && (!m || e.sharers.isEmpty)
  | .plates _ => false
  | _ => may

/-- A write to a copy in E makes it M, without a message (R304); no level above it is weaker (R309). -/
def Coh.dirtied (c : Coh) (h : Holder) (k : Nat) : Coh :=
  match c.copyOf h k with
  | some x => if x.st = .e then (c.setCopy h k (some .m) x.num).raiseAbove h k else c
  | none => c

/-- An access gains the permission it needs, to read or with `m` to write, through a translation. -/
def State.obtain (s : State) (h : Holder) (k : Nat) (m : Bool) (ctx : BitVec 6) (window : Bool) (hint : BitVec 2) : State :=
  let s := if s.store.coh.hits h k m then s
    else
      let s := s.settle k
      if s.store.coh.hits h k m then s else { s with store.coh := s.store.coh.ask h k m ctx window hint }.settle k
  if m then { s with store.coh := s.store.coh.dirtied h k } else s

/-- An access to a private sector (R317): the owner core's copy and its die's, and no directory entry. The die holds the sector as if in
Exclusive; an access of an engine is served there. -/
def Coh.ownPage (c : Coh) (h : Holder) (k : Nat) (m : Bool) : Coh :=
  let l := Holder.l2 (holderDie h)
  match h with
  | .l2 _ =>
    let c := { c with copies := if m then c.copies.filter fun x => !(x.sector = k && x.holder ≠ l)
      else c.copies.map fun x => if x.sector = k && x.holder ≠ l then { x with st := .s } else x }
    if m || c.stOf l k = none then c.setCopy l k (some (if m then .m else .e)) else c
  | _ =>
    let c := if c.stOf l k = none then c.setCopy l k (some .e) else c
    if m then (c.setCopy h k (some .m)).setCopy l k (some .m) else if c.stOf h k = none then c.setCopy h k (some .e) else c

/-- The package's directory calls back every copy of a sector (R311). -/
def State.callBack (s : State) (k : Nat) (ctx : BitVec 6) (window : Bool) : State :=
  let s := s.settle k
  let e := s.store.coh.dirEnt .package k
  match e.children with
  | [] => s
  | ts => { s with store.coh := (s.store.coh.setDirEnt { e with busy := .bi ts.length }).sendInvs e ts ctx window }.settle k

/-- No copy and no entry stands for some sectors, but for the fetch records, which no store reaches (R327). -/
def Coh.without (c : Coh) (p : Nat → Bool) : Coh :=
  { c with
    copies := c.copies.filter fun x => !p x.sector
    dirs := c.dirs.filterMap fun e =>
      if !p e.sector then some e
      else if e.fetch.isEmpty then none
      else some { dir := e.dir, sector := e.sector, ctx := e.ctx, window := e.window, fetch := e.fetch, fetchCoarse := e.fetchCoarse } }

/-- Every copy of a sector is recalled to its home, as for a store that performs there (R316, R327). -/
def State.flushSector (s : State) (k : Nat) (ctx : BitVec 6) (window : Bool) : State :=
  if s.store.coh.copies.any (fun x => x.sector = k) || s.store.coh.dirs.any (fun e => e.sector = k) then
    let s := s.callBack k ctx window
    { s with store.coh := s.store.coh.without fun j => j = k }
  else s

/-- A sector lies in a range of addresses. -/
def sectorIn (base size k : Nat) : Bool := base < 64 * k + 64 && 64 * k < base + size

/-- The sectors of a range that have copies or entries. -/
def Coh.sectorsIn (c : Coh) (base size : Nat) : List Nat :=
  ((c.copies.map (·.sector) ++ c.dirs.map (·.sector)).filter (sectorIn base size)).eraseDups

/-- The copies of the sectors of a range are recalled (R318, R326), after what is under way on them has ended; the sectors whose copy was dirty
then, data kept for a PUTM among them. -/
def State.recall (s : State) (base size : Nat) (ctx : BitVec 6) : List Nat × State :=
  let ks := s.store.coh.sectorsIn base size
  let s := ks.foldl State.settle s
  let dirty := ks.filter fun k => s.store.coh.copies.any fun x => x.sector = k && (x.st = .m || x.st = .miA)
  let s := ks.foldl (fun s k => s.callBack k ctx true) s
  (dirty, { s with store.coh := s.store.coh.without (sectorIn base size) })

end Sys2Proof.Machine
end

