-- ==== Sys2Proof/Machine/Page.lean ====
section
/-! DEFINITION. Storage and translation: physical accesses, the copies that coherence, non-coherent pages and code frames keep,
the page walk, the TLBs and parking. -/

namespace Sys2Proof.Machine

/-! ## The physical layout (R343, R419) -/

/-- Physical addresses of package memory run below L × 2 ^ 30, with L channels live (R419). -/
def State.packageTop (s : State) : Nat := s.mgmt.chmap.toNat % 1024 * 2 ^ 30

/-- The host window (R343). -/
def isHost (pa : Nat) : Bool := 0x800000000000 ≤ pa && pa < 0xC00000000000

/-- The window of the device registers (R343). -/
def inDevice (pa : Nat) : Bool := 0xC00000000000 ≤ pa

/-- The SRAM of the management complex, 8 MiB, and its boot ROM, 256 KiB (R458); where they stand in the window is open (assumption
log 61). -/
def isSram (pa : Nat) : Bool := inDevice pa && Config.sramBase ≤ pa && pa < Config.sramBase + 2 ^ 23
def isRom (pa : Nat) : Bool := inDevice pa && Config.romBase ≤ pa && pa < Config.romBase + 2 ^ 18

/-- A device register: the spec gives none of them. -/
def isDevice (pa : Nat) : Bool := inDevice pa && !isSram pa && !isRom pa

/-- A channel is in service: its bit of CHLIVE (R430). -/
def State.channelLive (s : State) (c : Nat) : Bool := (s.mgmt.chlive.getD (c / 64) 0).getLsbD (c % 64)

/-- The live channels in ascending order (R419). -/
def State.liveList (s : State) : List Nat := (List.range 512).filter s.channelLive

/-- The channel that holds the line of an address (R419). -/
def State.channelOf (s : State) (pa : Nat) : Nat :=
  let l := s.mgmt.chmap.toNat % 1024
  if l = 512 then pa / 256 % 512 else s.liveList.getD (pa / 256 % l) 0

/-- The home die of an address (R25): the die whose stack holds its channel. -/
def State.homeDie (s : State) (pa : Nat) : Nat := s.channelOf pa / 128

/-! ## Copies of non-coherent pages (R320) -/

/-- The data copy of a holder. -/
def Store.ncOf (st : Store) (h : Holder) (k : Nat) : Option DataCopy := st.nc.find? fun c => c.holder = h && c.sector = k

/-- A data copy replaced. -/
def Store.ncSet (st : Store) (c : DataCopy) : Store :=
  { st with nc := c :: st.nc.filter fun x => !(x.holder = c.holder && x.sector = c.sector) }

/-- A data copy dropped. -/
def Store.ncDrop (st : Store) (h : Holder) (k : Nat) : Store :=
  { st with nc := st.nc.filter fun x => !(x.holder = h && x.sector = k) }

/-- The copy of a sector that a list of holders, nearest first, finds; none where home serves it. -/
def Store.ncNear (st : Store) (hs : List Holder) (k : Nat) : Option DataCopy := hs.findSome? fun h => st.ncOf h k

/-- The 64 bytes of a sector as a list of holders sees them. -/
def Store.ncBytes (st : Store) (hs : List Holder) (k : Nat) : List Byte :=
  match st.ncNear hs k with
  | some c => c.data
  | none => readBytes st.mem (64 * k) 64

/-- The mark that stands with those bytes (R473). -/
def Store.ncMark (st : Store) (hs : List Holder) (k : Nat) : Option Bool :=
  match st.ncNear hs k with
  | some c => c.mark
  | none => smFind st.marks k

/-- The mark that a read of a sector by a list of holders meets: that of the copy it reads or of the home, or that of a transfer across the die
boundaries that has arrived poisoned (R431, R473). -/
def State.markAt (s : State) (hs : List Holder) (t : Tlb) (k : Nat) : Option Cause :=
  (if t.nc then (s.store.ncMark hs k).map markCause else s.store.markOf k) <|>
    if hs.any fun h => s.store.badAt.contains (holderDie h, k) then some .poisonConsumed else none

/-- The first marked sector of a read, with its cause. -/
def State.marked (s : State) (hs : List Holder) (t : Tlb) (pa n : Nat) : Option (Nat × Cause) :=
  (sectorsOf pa n).findSome? fun k => (s.markAt hs t k).map fun c => (k, c)

/-- Bytes overwritten inside a list. -/
def patchBytes (old : List Byte) (off : Nat) (bs : List Byte) : List Byte :=
  old.take off ++ bs ++ old.drop (off + bs.length)

/-! ## Physical accesses -/

/-- A write to lines disarms their monitors (R355). -/
def wakeDies (ds : SMap Die) (lines : List Nat) : SMap Die :=
  ds.map fun d => (d.1, { d.2 with monitors := d.2.monitors.filter fun l => !lines.contains l })

/-- An engine's access parked on one of these lines is woken. -/
def Eng.wake (e : Eng) (lines : List Nat) : Eng := if e.parked.any lines.contains then { e with woken := true } else e

/-- Every access of a core that is parked on one of these lines is woken. -/
def Core.wake (c : Core) (lines : List Nat) : Core :=
  { c with
    ae := c.ae.wake lines, ve := c.ve.wake lines, me := c.me.wake lines, ce := c.ce.wake lines, xe := c.xe.wake lines
    sq.woken := c.sq.woken || c.sq.parked.any lines.contains }

/-- A write to lines wakes every access parked on them (R355). -/
def State.wakeLines (s : State) (lines : List Nat) : State :=
  if s.dies.any fun d => d.2.monitors.any lines.contains then
    { s with
      dies := wakeDies s.dies lines
      core := s.core.wake lines
      others := s.others.map fun c => (c.1, c.2.wake lines)
      mgmt.arrivals := s.mgmt.arrivals.map fun a => if a.parked.any lines.contains then { a with woken := true } else a }
  else s

/-- The bytes of a write at home: U bits of code frames (R327), marks cleared by whole sectors (R473). -/
def Store.writeHome (st : Store) (pa : Nat) (bs : List Byte) : Store :=
  let ks := sectorsOf pa bs.length
  { st with
    mem := writeBytes st.mem pa bs
    ubit := (ks.filter fun k => st.isCode (64 * k)).foldl addTo st.ubit
    marks := (wholeSectors pa bs.length).foldl smErase st.marks }

/-- A write performs at home: package memory, or a posted write on the host link (R295), or the manager's SRAM; a write to its ROM is lost.
Plate copies become stale (R233) and parked accesses wake. -/
def State.storePhys (s : State) (pa : Nat) (bs : List Byte) : State :=
  let ks := sectorsOf pa bs.length
  if inDevice pa then
    if isSram pa then { s with store.sram := writeBytes s.store.sram (pa - Config.sramBase) bs } else s
  else
    let st := if isHost pa then { s.store with posted := s.store.posted ++ [(pa - 0x800000000000, bs)] } else s.store.writeHome pa bs
    ({ s with store := st, quads := staleQuads s.quads ks }).wakeLines (ks.map (· / 4))

/-- Host memory with the writes that the host link still carries, as the package itself sees it (R287). -/
def Store.hostSeen (st : Store) : Memory := st.posted.foldl (fun m w => writeBytes m w.1 w.2) st.host

/-- The bytes at home. -/
def Store.readHome (st : Store) (pa n : Nat) : List Byte :=
  if isHost pa then readBytes st.hostSeen (pa - 0x800000000000) n
  else if inDevice pa then
    if isSram pa then readBytes st.sram (pa - Config.sramBase) n else (List.range n).map fun k => Config.romByte (pa - Config.romBase + k)
  else readBytes st.mem pa n

/-- The host link still carries posted writes that a read must follow (R295, PCIe ordering). -/
def State.hostBusy (s : State) (pa : Nat) : Bool := isHost pa && !s.store.posted.isEmpty

/-- How an access allocates (R112, R316): as usual, in the L2 only, nowhere, or as the oldest of its holder. -/
inductive Alloc where
  | all | l2only | home | stream
  deriving DecidableEq, Repr

/-- The allocation of a hint field: 0 stream, 1 no-allocate, 2 bypass (R112, R200); the model's 3 stands for an access without a hint. -/
def allocOf (hint : BitVec 2) : Alloc := if hint = 0 then .stream else if hint = 1 then .l2only else if hint = 2 then .home else .all

/-- The hint of an allocation. -/
def Alloc.hint : Alloc → BitVec 2
  | .stream => 0 | .l2only => 1 | .home => 2 | .all => 3

/-- The holders that serve an access of the SQ, nearest first. -/
def sqHolders (core : Nat) : List Holder := [.dcache core, .l2 (core / 64)]

/-- The sectors that a holder has room for (R18, R19): 64 KiB in the data cache and in the instruction cache of an SQ, 4 KiB in a loop buffer,
128 MiB in the L2 of a die. -/
def capacity : Holder → Nat
  | .dcache _ | .icache _ => 1024
  | .loopBuf _ _ => 64
  | .l2 _ => 2 ^ 21
  | .plates _ | .cluster _ => 2 ^ 21

/-- A holder has no room for a sector, of which it has no copy. Which copy it replaces is not architectural: the model has it replace the one
that has stood longest without a change (assumption log 59). -/
def Store.full (st : Store) (h : Holder) (k : Nat) : Bool :=
  if st.coh.copies.length + st.nc.length + st.fetch.length < capacity h then false
  else
    (st.coh.copies.filter fun x => x.holder = h && x.sector ≠ k).length + (st.nc.filter fun x => x.holder = h && x.sector ≠ k).length +
      (st.fetch.filter fun x => x.holder = h && x.sector ≠ k).length ≥ capacity h

/-- The last of a list that has a property, removed. -/
def dropLast {α : Type} (p : α → Bool) (l : List α) : List α := (l.reverse.eraseP p).reverse

/-- A full holder drops its oldest clean copy of a non-coherent page. -/
def Store.ncRoom (st : Store) (h : Holder) (k : Nat) : Store :=
  if st.full h k then { st with nc := dropLast (fun c => c.holder = h && !c.dirty) st.nc } else st

/-- A full holder drops its oldest fetch copy (R329). -/
def Store.fetchRoom (st : Store) (h : Holder) (k : Nat) : Store :=
  if st.full h k then { st with fetch := dropLast (fun c => c.holder = h) st.fetch } else st

/-- A holder replaces a copy (R315): silently where it is clean, with PUTM where it is dirty. -/
def Coh.replace (c : Coh) (h : Holder) (k : Nat) : Coh :=
  match c.stOf h k with
  | some .s | some .e => c.setCopy h k none
  | some .m => (c.setCopy h k (some .miA)).send (.putm h k)
  | _ => c

/-- The copies of a sector that cores of a die hold of a private page, which no directory records, go back to its L2 (R315, R317). -/
def Coh.recallPrivate (c : Coh) (d k : Nat) : Coh :=
  let below (x : Copy) : Bool := x.sector = k && holderDie x.holder = d && x.holder ≠ .l2 d
  if (c.dirEnt (.die d) k).children.isEmpty then
    let c := if c.copies.any (fun x => below x && x.st = .m) then c.raiseLevel (.die d) k else c
    { c with copies := c.copies.filter fun x => !below x }
  else c

/-- A holder replaces a sector; an L2 first recalls the copies of its quads as a filter victim (R315). -/
def State.replaceAt (s : State) (h : Holder) (k : Nat) : State :=
  let s := match h with
    | .l2 d =>
      let s := (s.evictLine d (k / 4)).settle k
      { s with store.coh := s.store.coh.recallPrivate d k }
    | _ => s
  State.settle { s with store.coh := s.store.coh.replace h k } k

/-- A holder of more than it has room for replaces the copy that has stood longest. -/
def State.spill (s : State) (h : Holder) : State :=
  if s.store.coh.copies.length + s.store.nc.length + s.store.fetch.length ≤ capacity h then s
  else
    let mine := s.store.coh.copies.filter fun x => x.holder = h
    if mine.length + (s.store.nc.filter fun x => x.holder = h).length + (s.store.fetch.filter fun x => x.holder = h).length ≤ capacity h then s
    else match (mine.filter fun x => !x.st.transient).getLast? with
      | some x => s.replaceAt h x.sector
      | none => s

/-- Copies that a holder's access has brought to it and to its die's L2 meet their room (R18). -/
def State.spillAt (s : State) (h : Holder) : State := (s.spill h).spill (.l2 (holderDie h))

/-- The copy of a holder becomes its oldest (R316). -/
def Coh.age (c : Coh) (h : Holder) (k : Nat) : Coh :=
  let mine (x : Copy) : Bool := x.holder = h && x.sector = k
  { c with copies := c.copies.filter (fun x => !mine x) ++ c.copies.filter mine }

/-- A read or with `m` a write of a coherent sector gains its permission at a holder; a stream's miss allocates as the oldest (R316). -/
def State.gain (s : State) (h : Holder) (k : Nat) (m : Bool) (al : Alloc) (t : Tlb) : State :=
  let new := al = .stream && (s.store.coh.stOf h k).isNone
  let s := if t.priv then { s with store.coh := s.store.coh.ownPage h k m } else s.obtain h k m t.ctx t.xsh al.hint
  State.spillAt (if new then { s with store.coh := s.store.coh.age h k } else s) h

/-- The holder at which an access allocates, or hits (R316): one that does not allocate at the core uses the core's copy where there is one. -/
def Store.place (st : Store) (hs : List Holder) (al : Alloc) (k : Nat) : Option Holder :=
  let has (h : Holder) : Bool := match st.coh.stOf h k with | some .s | some .e | some .m => true | _ => false
  match al with
  | .all | .stream => hs.head?
  | .l2only => if hs.head?.any has then hs.head? else hs.getLast?
  | .home => hs.head?.filter has

/-- The mark of a sector at home set, or with none cleared (R473). -/
def Store.setMark (st : Store) (k : Nat) (m : Option Bool) : Store :=
  { st with marks := match m with | some v => smSet st.marks k v | none => smErase st.marks k }

/-- A dirty copy of a non-coherent page is written to home, its mark with it (R320, R473). -/
def State.writeBack (s : State) (c : DataCopy) : State :=
  let s := s.storePhys (64 * c.sector) c.data
  match c.mark with
  | some m => { s with store := s.store.setMark c.sector (some m) }
  | none => s

/-- The copies of a non-coherent sector that holders have, the nearest first, are written to home where dirty and dropped. -/
def State.ncFlush (s : State) (hs : List Holder) (k : Nat) : State :=
  hs.reverse.foldl (fun s h =>
    match s.store.ncOf h k with
    | none => s
    | some c =>
      let s := { s with store := s.store.ncDrop h k }
      if c.dirty then s.writeBack c else s) s

/-! ## The die boundaries (R28, R431) -/

/-- The boundaries between two dies of the 2 × 2 arrangement. -/
def boundaries (a b : Nat) : Nat := if a = b || 4 ≤ a || 4 ≤ b then 0 else if a + b = 3 then 2 else 1

/-- A holder of a die has a copy of a sector. -/
def Store.inDie (st : Store) (d k : Nat) : Bool :=
  (st.coh.copies.any fun x => x.sector = k && holderDie x.holder = d && !x.st.transient) ||
    st.nc.any fun x => x.sector = k && holderDie x.holder = d

/-- The die at which an address is served: that of its home, or die 0, to which the host link attaches (R474). -/
def State.servedAt (s : State) (pa : Nat) : Nat := if isHost pa then 0 else s.homeDie pa

/-- A read by a die of bytes that none of its holders has: request and reply each take 12 cycles at each boundary (R431). -/
def State.noteReply (s : State) (d pa n : Nat) : State :=
  let b := boundaries d (s.servedAt pa)
  if inDevice pa || b = 0 || (!isHost pa && (sectorsOf pa n).all (s.store.inDie d)) then s
  else { s with reply := s.time + BitVec.ofNat 64 (24 * b) }

/-- The same for a read by the nearest of some holders; one without holders is served where it performs. -/
def State.noteRead (s : State) (hs : List Holder) (pa n : Nat) : State :=
  match hs with
  | h :: _ => s.noteReply (holderDie h) pa n
  | [] => s

/-- An access whose home die sleeps wakes it (R466). -/
def State.wakeHome (s : State) (pa : Nat) : State :=
  if s.dies.any fun d => d.2.asleep then
    let d := s.homeDie pa
    if isHost pa || inDevice pa then s else s.setDie d { s.dieAt d with asleep := false }
  else s

/-- An access to some bytes wakes every die that is the home of one of their sectors (R466). -/
def State.wakeHomes (s : State) (pa n : Nat) : State :=
  if s.dies.any fun d => d.2.asleep then (sectorsOf pa n).foldl (fun s k => s.wakeHome (64 * k)) s else s

/-- A load by an agent through a translation: its bytes, and the copies it leaves. `hs` are the holders on its way, nearest
first; without any it performs at home. -/
def State.loadPhys (s : State) (hs : List Holder) (al : Alloc) (t : Tlb) (pa n : Nat) : List Byte × State :=
  let s := (s.wakeHomes pa n).noteRead hs pa n
  if isHost pa || inDevice pa then (s.store.readHome pa n, s)
  else if t.nc then
    let ks := sectorsOf pa n
    let bytes := ((ks.map fun k => s.store.ncBytes hs k).flatten.drop (pa % 64)).take n
    let fill := match al with | .all | .stream => hs | .l2only => hs.filter (fun h => match h with | .l2 _ => true | _ => false) | .home => []
    let put (st : Store) (k : Nat) : Store :=
      fill.foldl (fun st h => match st.ncOf h k with
        | some _ => st
        | none =>
          let st := st.ncRoom h k
          if st.full h k then st
          else st.ncSet { holder := h, sector := k, data := s.store.ncBytes hs k, mark := s.store.ncMark hs k }) st
    (bytes, { s with store := ks.foldl put s.store })
  else
    (s.store.readHome pa n, (sectorsOf pa n).foldl (fun s k =>
      match s.store.place hs al k with
      | some h => s.gain h k false al t
      | none => s) s)

/-- A store of a die to a sector whose transfer to it has arrived poisoned (R431, R473): a whole sector replaces the data, and a part of it
leaves the sector marked. -/
def Store.mend (st : Store) (hs : List Holder) (pa n : Nat) : Store :=
  if st.badAt.isEmpty then st
  else
    let ds := hs.map holderDie
    let ks := (sectorsOf pa n).filter fun k => ds.any fun d => st.badAt.contains (d, k)
    let st := (ks.filter fun k => !(wholeSectors pa n).contains k && (smFind st.marks k).isNone).foldl (fun st k => st.setMark k (some false)) st
    { st with badAt := st.badAt.filter fun x => !(ks.contains x.2 && ds.contains x.1) }

/-- A store by an agent through a translation. On a non-coherent page it writes the nearest copy (R320); a store to a code frame performs at
home (R327), as does one that neither hits nor allocates (R316); elsewhere the writer gains permission first. -/
def State.storeAcc (s : State) (hs : List Holder) (al : Alloc) (t : Tlb) (pa : Nat) (bs : List Byte) : State :=
  let s := s.wakeHomes pa bs.length
  let ks := sectorsOf pa bs.length
  let home (s : State) : State := (ks.foldl (fun s k => s.flushSector k t.ctx t.xsh) s).storePhys pa bs
  if isHost pa || inDevice pa then s.storePhys pa bs
  else if ks.any fun k => s.store.isCode (64 * k) then home (ks.foldl (fun s k => s.ncFlush hs k) s)
  else if t.nc then
    let has (h : Holder) (k : Nat) : Bool := (s.store.ncOf h k).isSome
    let tgt (k : Nat) : Option Holder := match al with
      | .all | .stream => hs.find? fun h => has h k || !(s.store.ncRoom h k).full h k
      | .l2only => hs.find? (fun h => has h k) <|> hs.getLast?
      | .home => hs.find? fun h => has h k
    let put (s : State) (k : Nat) : State :=
      let lo := max pa (64 * k)
      let part := (bs.drop (lo - pa)).take (64 * k + 64 - lo)
      match tgt k with
      | none => s.storePhys lo part
      | some h =>
        let new := patchBytes (s.store.ncBytes hs k) (lo - 64 * k) part
        let here (x : Nat × Nat) : Bool := x.2 = k && hs.any fun h => holderDie h = x.1
        let mark := if part.length = 64 then none
          else s.store.ncMark hs k <|> if s.store.badAt.any here then some false else none
        let st := (s.store.ncRoom h k).ncSet { holder := h, sector := k, data := new, dirty := true, mark := mark }
        { s with store := { st with badAt := st.badAt.filter fun x => !here x } }
    ks.foldl put s
  else
    (ks.foldl (fun (s : State) k =>
      match s.store.place hs al k with
      | some h => s.gain h k true al t
      | none => s.flushSector k t.ctx t.xsh) { s with store := s.store.mend hs pa bs.length }).storePhys pa bs

/-- The copies of the line of an address that a core has, or that its die has for it, of a non-coherent page are written back and
dropped (R296). -/
def State.ncFlushLine (s : State) (pa : Nat) : State :=
  (List.range 4).foldl (fun s j => s.ncFlush (sqHolders s.cur) (pa / 256 * 4 + j)) s

/-- An SQ access whose value has come back across the die boundaries: no later instruction issues before (R431, R483). -/
def State.awaitReply (s : State) : State :=
  { s with core.sq.nextAt := if s.core.sq.nextAt.toNat < s.reply.toNat then s.reply else s.core.sq.nextAt }

/-! ## Table entries (R345, R346) -/

/-- The leaf bits R, W and X of an entry, any set. -/
def isLeaf (e : Nat) : Bool := seg e 1 3 ≠ 0

/-- The page size of a leaf at a level. -/
def leafSize (level e : Nat) : Nat :=
  match level with
  | 0 => if seg e 8 1 = 1 then 2 ^ 16 else 2 ^ 12
  | 1 => 2 ^ 21
  | _ => 2 ^ 30

/-- The frame of an entry. -/
def frameOf (e : Nat) : Nat := seg e 12 36 * 2 ^ 12

/-- A frame that R343 lets a table name: package memory below the hole, the host window, and in the manager cores' own tables (`mgr`) the
device registers. -/
def State.frameOk (s : State) (mgr : Bool) (a : Nat) : Bool :=
  a < s.packageTop || isHost a || (inDevice a && mgr)

/-- The malformed entries of R346, for an entry with V = 1. -/
def State.malformed (s : State) (mgr : Bool) (level e : Nat) : Bool :=
  if isLeaf e then
    level = 3 || (seg e 8 1 = 1 && level ≠ 0) || seg e 62 2 = 3 || seg e 48 6 ≠ 0 || seg e 5 1 ≠ 0 ||
      frameOf e % leafSize level e ≠ 0 || !s.frameOk mgr (frameOf e)
  else level = 0 || seg e 1 11 ≠ 0 || seg e 48 16 ≠ 0 || !s.frameOk mgr (frameOf e)

/-- No start has completed, or the machine stands in minimal mode: the compute dies, the memory stacks and the links are held, and no context
is created or started (R460, R462). -/
def State.held (s : State) : Bool := s.mgmt.minimal || !s.mgmt.startOk

/-- An address lies in a memory stack that stays off (R462): an access to it faults (assumption log 81). -/
def State.memoryOff (s : State) (pa : Nat) : Bool := s.held && !isHost pa && !inDevice pa

/-- An address lies in a memory region of the secure world (R464). -/
def State.secureRegion (s : State) (pa : Nat) : Bool := pa < 2 ^ 39 && s.mgmt.worldr.getLsbD (pa / 2 ^ 33)

/-- Whose walk it is: of the manager cores' own tables, and in the secure world. -/
structure Walker where
  mgr : Bool := false
  secure : Bool := false
  deriving DecidableEq, Repr

/-- What a walk ends with (R349), and the entries that it read. -/
structure Walk where
  entry : Nat
  addr : Nat
  level : Nat
  bad : Bool
  reads : List Nat := []
  deriving DecidableEq, Repr

/-- The walk of R349 from a table at a level. An agent that is not secure reads no entry of a secure region: its walk faults there as at a
malformed entry (R464). -/
def State.walkFrom (s : State) (wk : Walker) (va : Nat) : Nat → Nat → Walk
  | level, t =>
    let idx := if level = 3 then seg va 39 17 else seg va (12 + 9 * level) 9
    let a := t + 8 * idx
    if s.secureRegion a && !wk.secure then { entry := 1, addr := a, level := level, bad := true }
    else
      let e := leNat (s.store.readHome a 8)
      if seg e 0 1 = 0 then { entry := e, addr := a, level := level, bad := false, reads := [a] }
      else if s.malformed wk.mgr level e then { entry := e, addr := a, level := level, bad := true, reads := [a] }
      else if isLeaf e then { entry := e, addr := a, level := level, bad := false, reads := [a] }
      else match level with
        | 0 => { entry := e, addr := a, level := 0, bad := true, reads := [a] }
        | l + 1 =>
          let w := s.walkFrom wk va l (frameOf e)
          { w with reads := a :: w.reads }

/-- PTBASE keeps bits 47:20 (R358). -/
def ptbaseField (v : Word) : Word := BitVec.ofNat 64 (seg v.toNat 20 28 * 2 ^ 20)

/-- PTBASE of the core in focus: its context's, or on a manager core that of the manager's own tables (R358, R458). -/
def State.ptbase (s : State) : Word := if 256 ≤ s.cur then s.mgmt.root else (s.ctxAt s.core.sq.ctxid.toNat).ptbase

/-- The root table that walks of the core in focus start from (R358). -/
def State.rootTable (s : State) : Nat := s.ptbase.toNat / 2 ^ 20 % 2 ^ 28 * 2 ^ 20

/-- A manager core runs in the secure world (assumption log 9). -/
def State.managerSecure (s : State) : Bool := s.mgmt.secureCores.getLsbD (s.cur % 4)

/-- Core `cur` stands in the secure world: its context does, or the manager core (R464). -/
def State.coreSecure (s : State) : Bool := if 256 ≤ s.cur then s.managerSecure else (s.ctxAt s.core.sq.ctxid.toNat).secure

/-- The walk of a virtual address (R349). -/
def State.walk (s : State) (va : Word) : Walk := s.walkFrom { mgr := 256 ≤ s.cur, secure := s.coreSecure } va.toNat 3 s.rootTable

/-- The walk of a context's tables by an agent that is no core of it, in the secure world where the context and the agent's unit are. -/
def State.walkCtx (s : State) (ctx : Nat) (unitSecure : Bool) (va : Word) : Walk :=
  s.walkFrom { secure := (s.ctxAt ctx).secure && unitSecure } va.toNat 3 ((s.ctxAt ctx).ptbase.toNat / 2 ^ 20 % 2 ^ 28 * 2 ^ 20)

/-- A walk has read its entries at their homes, which it wakes (R466), for a core across the die boundaries (R431). -/
def State.walked (s : State) (w : Walk) : State :=
  w.reads.foldl (fun s a => (s.noteReply s.dieNo a 8).wakeHome a) s

/-! ## TLBs (R351) -/

/-- A translation matches a context and an address. -/
def Tlb.hits (t : Tlb) (ctx : BitVec 6) (va : Nat) : Bool := t.ctx = ctx && t.base ≤ va && va < t.base + t.size

/-- An entry enters a TLB of a capacity; which one it replaces in a full TLB is not architectural: a free choice. -/
def tlbInsert (l : List Tlb) (cap n : Nat) (t : Tlb) : List Tlb :=
  if l.length < cap then t :: l else t :: l.eraseIdx (Config.freeChoice n l.length)

/-- Who translates: the SQ, or a stream of an engine under its number, with the privilege of the access (R349). -/
structure Agent where
  stream : Option Nat
  priv : BitVec 2
  /-- the unit that makes the access is in the secure world, where WORLDU gives it one (R464) -/
  unitSecure : Bool := true
  deriving DecidableEq, Repr

/-- What an access does (R349). -/
structure Kind where
  fetch : Bool := false
  read : Bool := false
  write : Bool := false
  deriving DecidableEq, Repr

/-- The page fault of a kind of access, F of R349. -/
def Kind.pageFault (k : Kind) : Cause := if k.fetch then .pageFetch else if k.read then .pageRead else .pageWrite

/-- What a translation answers: an address, a fault, or a park on a table line (R349, R355). -/
inductive Trans where
  | ok (pa : Nat) (t : Tlb) (s : State)
  | fault (c : Cause) (s : State)
  | park (line : Nat) (s : State)

/-- A canonical address: bits 63 to 55 all equal (R344). -/
def canonical (va : Word) : Bool := seg va.toNat 55 9 = 0 || seg va.toNat 55 9 = 511

/-- A translation's entry by the SQ or stream TLB, then the quad TLB. -/
def State.tlbOwn (s : State) (ag : Agent) (va : Nat) : Option Tlb :=
  match ag.stream with
  | none => s.core.sq.tlb.find? fun t => t.hits s.core.sq.ctxid va
  | some k =>
    let hit (m : SMap Tlb) : Option Tlb := (smFind m k).filter fun t => t.hits s.core.sq.ctxid va
    hit s.core.stream <|> hit s.core.ahead

/-- A translation enters the agent's own TLB; of a stream it is the page last touched. -/
def State.fillOwn (s : State) (ag : Agent) (t : Tlb) : State :=
  match ag.stream with
  | none => { s with core.sq.tlb := tlbInsert s.core.sq.tlb 64 s.freeN t, freeN := s.freeN + 1 }
  | some k => { s with core.stream := smSet s.core.stream k t }

/-- A translation that a stream has fetched ahead is kept beside that of its last page. -/
def State.fillAhead (s : State) (ag : Agent) (t : Tlb) : State :=
  match ag.stream with
  | none => s
  | some k => { s with core.ahead := smSet s.core.ahead k t }

/-- The page that a stream touches is the one it last touched (R195). -/
def State.touch (s : State) (ag : Agent) (t : Tlb) : State :=
  match ag.stream with
  | none => s
  | some k => if smFind s.core.stream k = some t then s else { s with core.stream := smSet s.core.stream k t }

/-- A translation enters the quad TLB; a manager core has none. -/
def State.fillQuad (s : State) (t : Tlb) : State :=
  let q := s.quadAt s.quadNo
  { s.setQuad s.quadNo { q with tlb := tlbInsert q.tlb 4096 s.freeN t } with freeN := s.freeN + 1 }

/-- The device writes bits of a leaf, as an atomic access at its home (R347). -/
def State.writeLeaf (s : State) (a e : Nat) : State := s.storePhys a (leBytes 8 e)

/-- Bits of an entry replaced. -/
def setSeg (e lo n v : Nat) : Nat := e - seg e lo n * 2 ^ lo + v % 2 ^ n * 2 ^ lo

/-- Translations removed from the TLBs of a core (R318, R356); a hosting entry that holds one of them goes with it (R410). -/
def Core.dropTlb (c : Core) (p : Tlb → Bool) : Core :=
  { c with
    sq.tlb := c.sq.tlb.filter fun t => !p t
    stream := c.stream.filter fun t => !p t.2
    ahead := c.ahead.filter fun t => !p t.2
    hosting := c.hosting.filter fun h => !h.tlb.any p }

/-- Matching translations leave every TLB of the package. -/
def State.dropTlb (s : State) (p : Tlb → Bool) : State :=
  { s with
    core := s.core.dropTlb p
    others := s.others.map fun c => (c.1, c.2.dropTlb p)
    quads := s.quads.map fun q => (q.1, { q.2 with tlb := q.2.tlb.filter fun t => !p t })
    mgmt.rxTlb := s.mgmt.rxTlb.filter fun t => !p t
    mgmt.apTlb := s.mgmt.apTlb.filter fun t => !p t }

/-- A private page becomes shared (R318): the owner's copies are flushed, the leaf is marked shared, the owner's translations
are shot down. `a` is the leaf's address, `e` its value, `size` the page size. The new value of the leaf. -/
def State.reclassify (s : State) (a e size : Nat) : Nat × State :=
  let e' := setSeg e 62 2 2
  let s := (s.recall (frameOf e) size s.core.sq.ctxid).2
  let s := s.writeLeaf a e'
  let s := { s with store.privs := s.store.privs.filter fun r => r.1 ≠ a }
  (e', s.dropTlb fun t => t.entry = a)

/-- Every private mapping of frames in a range is reclassified (R319, R326). -/
def State.shareFrames (s : State) (base size : Nat) : State :=
  s.store.privs.foldl (fun s r =>
    let e := leNat (s.store.readHome r.1 8)
    if r.2.1 < base + size && base < r.2.1 + r.2.2 && seg e 0 1 = 1 && seg e 62 2 = 1 && frameOf e = r.2.1 then
      (s.reclassify r.1 e r.2.2).2
    else s) s

/-- A frame lies whole in a code frame, or overlaps one. -/
def Store.allCode (st : Store) (base size : Nat) : Bool := st.code.any fun r => r.1 ≤ base && base + size ≤ r.1 + r.2
def Store.someCode (st : Store) (base size : Nat) : Bool := st.code.any fun r => r.1 < base + size && base < r.1 + r.2

/-- The frame of a mapping with X becomes a code frame at its first fill (R326): data copies are recalled, a sector whose copy was
dirty has its U bit set, and private mappings of the frame are reclassified. -/
def State.makeCode (s : State) (base size : Nat) : State :=
  if s.store.allCode base size then s
  else
    let (dirty, s) := s.recall base size s.core.sq.ctxid
    let s := { s with
      store.code := (base, size) :: s.store.code
      store.ubit := dirty.foldl addTo s.store.ubit }
    s.shareFrames base size

/-- The homes know a private leaf. -/
def State.notePrivate (s : State) (a frame size : Nat) : State :=
  { s with store.privs := (a, frame, size) :: s.store.privs.filter fun r => r.1 ≠ a }

/-- The first fill of a leaf sets A and classifies it; a fill by another core reclassifies a private page (R347), and is counted in PRIVCNT of
the core in focus where its word makes the fill (R318). `core` is the filling core, or none for an agent that is not a core of the context. The
leaf's new value. -/
def State.classify (s : State) (core : Option Nat) (counts : Bool) (w : Walk) : Nat × State :=
  let e := w.entry
  let size := leafSize w.level e
  let f := frameOf e
  let s := if seg e 3 1 = 1 then s.makeCode f size else s
  let e1 := setSeg e 7 1 1
  let shared := seg e 3 1 = 1 || seg e 9 1 = 1 || seg e 10 1 = 1 || isHost f || s.store.someCode f size || core.isNone
  if seg e 62 2 = 0 then
    let e2 := match core with
      | some c => if shared then setSeg e1 62 2 2 else setSeg (setSeg e1 62 2 1) 54 8 c
      | none => setSeg e1 62 2 2
    let s := if seg e2 62 2 = 1 then (s.recall f size s.core.sq.ctxid).2.notePrivate w.addr f size else s
    (e2, s.writeLeaf w.addr e2)
  else if seg e 62 2 = 1 ∧ core ≠ some (seg e 54 8) then
    let s := if counts then { s with core.counts.priv := sat32 s.core.counts.priv 1 } else s
    let (e2, s) := s.reclassify w.addr e1 size
    (e2, s)
  else
    let s := if seg e 62 2 = 1 then s.notePrivate w.addr f size else s
    if e1 = e then (e, s) else (e1, s.writeLeaf w.addr e1)

/-- The translation that a leaf gives. -/
def tlbOf (ctx : BitVec 6) (va a level e : Nat) : Tlb :=
  let size := leafSize level e
  { ctx := ctx, base := va / size * size, size := size, frame := frameOf e,
    r := seg e 1 1 = 1, w := seg e 2 1 = 1, x := seg e 3 1 = 1, usr := seg e 4 1 = 1,
    nc := seg e 9 1 = 1, xsh := seg e 10 1 = 1, d := seg e 6 1 = 1, priv := seg e 62 2 = 1, entry := a,
    owner := BitVec.ofNat 8 (seg e 54 8) }

/-- The permission checks of R349 on a translation, in its order. -/
def Tlb.permits (t : Tlb) (ag : Agent) (k : Kind) : Option Cause :=
  if t.w && t.x then some .permWx
  else if ag.priv = 0 && !t.usr then some k.pageFault
  else if k.read && !t.r then some .pageRead
  else if k.write && !t.w then some .pageWrite
  else if k.fetch && (!t.x || t.nc || isHost t.frame) then some .pageFetch
  else none

/-- D is set before the first store through a translation performs (R347). -/
def State.setDirty (s : State) (t : Tlb) : State :=
  let s := s.wakeHome t.entry
  let e := leNat (s.store.readHome t.entry 8)
  let s := s.writeLeaf t.entry (setSeg e 6 1 1)
  let up (u : Tlb) : Tlb := if u.entry = t.entry then { u with d := true } else u
  { s with
    core.sq.tlb := s.core.sq.tlb.map up
    core.stream := s.core.stream.map fun u => (u.1, up u.2)
    core.ahead := s.core.ahead.map fun u => (u.1, up u.2)
    quads := s.quads.map fun q => (q.1, { q.2 with tlb := q.2.tlb.map up })
    mgmt.rxTlb := s.mgmt.rxTlb.map up
    mgmt.apTlb := s.mgmt.apTlb.map up }

/-- The agent of a translation stands in the secure world: its context does, and its unit where it is one of WORLDU, or the manager core
(R464). -/
def State.secureAgent (s : State) (ag : Agent) (ctx : BitVec 6) : Bool :=
  if 256 ≤ s.cur && ag.stream.isNone then s.managerSecure else (s.ctxAt ctx.toNat).secure && ag.unitSecure

/-- The end of a translation: the permission checks, the worlds (R464), D, and the address (R349). -/
def State.finish (s : State) (ag : Agent) (k : Kind) (va : Nat) (t : Tlb) : Trans :=
  match t.permits ag k with
  | some c => .fault c s
  | none =>
    let pa := t.frame + va % t.size
    if s.memoryOff pa || (s.secureRegion pa && !s.secureAgent ag t.ctx) then .fault k.pageFault s else
    let s := if k.write && !t.d then s.setDirty t else s
    .ok pa t (s.wakeHome pa)

/-- The counts of a TLB miss (R358): SMISS of the SQ's own TLB, and QMISS where a walk starts. -/
def State.countMiss (s : State) (ag : Agent) (quadMiss : Bool) : State :=
  let s := match ag.stream with
    | none => { s with core.counts.smiss := sat32 s.core.counts.smiss 1 }
    | some _ => s
  if quadMiss then { s with core.counts.qmiss := sat32 s.core.counts.qmiss 1 } else s

/-- The lines on which an access of a core is parked. -/
def Core.parkedLines (c : Core) : List Nat :=
  (if c.sq.woken then [] else c.sq.parked.toList) ++
    engines.filterMap fun e => if (c.eng e).woken then none else (c.eng e).parked

/-- The monitors of a die that an access is still parked on, of a core or of another package: one whose access has been abandoned is
disarmed (R355). -/
def State.armed (s : State) (d : Nat) : List Nat :=
  let held := s.core.parkedLines ++ (s.others.map fun c => c.2.parkedLines).flatten ++
    s.mgmt.arrivals.filterMap fun a => if a.woken then none else a.parked
  (s.dieAt d).monitors.filter fun l => held.contains l

/-- A monitor is armed on a table line (R354, R355), or none where the die has no free one. -/
def State.armMonitor (s : State) (line : Nat) : Option State :=
  let d := s.homeDie (256 * line)
  let ms := s.armed d
  if ms.contains line then some s
  else if ms.length < 256 then some (s.setDie d { s.dieAt d with monitors := line :: ms })
  else none

/-- No monitor is free: PARKSTAT.OVF counts it (R354). -/
def State.countOvf (s : State) (line : Nat) : State :=
  let d := s.homeDie (256 * line)
  let die := s.dieAt d
  s.setDie d { die with parkOvf := sat32 die.parkOvf 1 }

/-- The entry of a TLB that a translation fetched ahead may use. -/
def State.peekTlb (s : State) (ag : Agent) (va : Word) : Option Tlb :=
  let mine (t : Tlb) : Bool := !t.priv || t.owner.toNat = s.cur
  s.tlbOwn ag va.toNat <|> (s.quadAt s.quadNo).tlb.find? fun t => t.hits s.core.sq.ctxid va.toNat && mine t

/-- What a translation fetched ahead finds (R195): an entry of a TLB that the core may use, or a valid leaf with A = 1 that is shared or the
core's own; it writes no table entry. -/
def State.peekLeaf (s : State) (ag : Agent) (va : Word) : Option Tlb :=
  if !canonical va then none
  else match s.peekTlb ag va with
    | some t => some t
    | none =>
      let w := s.walk va
      if seg w.entry 0 1 = 1 && !w.bad && seg w.entry 7 1 = 1 && !(seg w.entry 2 1 = 1 && seg w.entry 3 1 = 1) &&
          (seg w.entry 62 2 = 2 || (seg w.entry 62 2 = 1 && seg w.entry 54 8 = s.cur)) then
        some (tlbOf s.core.sq.ctxid va.toNat w.addr w.level w.entry)
      else none

/-- The walk of a translation fetched ahead wakes the homes of the entries that it reads (R466). -/
def State.peeked (s : State) (ag : Agent) (va : Word) : State :=
  if canonical va && (s.peekTlb ag va).isNone then (s.walk va).reads.foldl State.wakeHome s else s

/-- A stream fetches the translation of a page ahead, or drops it (R195). -/
def State.translateAhead (s : State) (ag : Agent) (va : Word) : State :=
  match s.peekLeaf ag va with
  | some t => (s.peeked ag va).fillAhead ag t
  | none => s.peeked ag va

/-- A data access of a stream starts the translation of the page after the one it touches (R195); the streams of a data access have
numbers below 40. -/
def State.lookAhead (s : State) (ag : Agent) (k : Kind) (t : Tlb) : State :=
  if ag.stream.any (· < 40) && !k.fetch then s.translateAhead ag (BitVec.ofNat 64 (t.base + t.size)) else s

/-- The end of a translation through an entry of a TLB, with the page after it. -/
def State.through (s : State) (ag : Agent) (k : Kind) (va : Nat) (t : Tlb) : Trans :=
  match s.finish ag k va t with
  | .ok pa t s => .ok pa t (s.lookAhead ag k t)
  | r => r

/-- An access of core `core` (none for an agent that is not a core of the context) is translated (R349). -/
def State.translateFor (s : State) (core : Option Nat) (ag : Agent) (k : Kind) (va : Word) : Trans :=
  let v := va.toNat
  if !canonical va then .fault k.pageFault s
  else
    match s.tlbOwn ag v with
    | some t => (s.touch ag t).through ag k v t
    | none =>
      match (s.quadAt s.quadNo).tlb.find? fun t => t.hits s.core.sq.ctxid v && (!t.priv || core = some t.owner.toNat) with
      | some t => ((s.countMiss ag false).fillOwn ag t).through ag k v t
      | none =>
        let w := s.walk va
        let s := (s.countMiss ag true).walked w
        if seg w.entry 0 1 = 0 then
          if seg w.entry 11 1 = 1 then
            match s.armMonitor (w.addr / 256) with
            | some s => .park (w.addr / 256) s
            | none => .fault k.pageFault (s.countOvf (w.addr / 256))
          else .fault k.pageFault s
        else if w.bad then .fault k.pageFault s
        else if seg w.entry 2 1 = 1 ∧ seg w.entry 3 1 = 1 then .fault .permWx s
        else
          let (e, s) := s.classify core (s.cur < 256) w
          let t := tlbOf s.core.sq.ctxid v w.addr w.level e
          ((s.fillQuad t).fillOwn ag t).through ag k v t

/-- A translation by the core in focus; a manager core is no core of a context. -/
def State.translate (s : State) (ag : Agent) (k : Kind) (va : Word) : Trans :=
  s.translateFor (if 256 ≤ s.cur then none else some s.cur) ag k va

/-- The SQ as a translating agent. -/
def State.sqAgent (s : State) : Agent := { stream := none, priv := s.priv }

/-- A parked SQ access waits (R355), counted once in PARKCNT. -/
def State.parkSq (s : State) (line : Nat) : State :=
  { s with
    core.counts.park := if s.core.sq.parkCounted then s.core.counts.park else sat32 s.core.counts.park 1
    core.sq.parked := some line, core.sq.woken := false, core.sq.parkCounted := true }

/-- The SQ's access has been translated: it is parked no more. -/
def State.unpark (s : State) : State :=
  { s with core.sq.parked := none, core.sq.woken := false, core.sq.parkCounted := false }

/-- The requests of fills that run four at a time: those of the four in a row that make the most (R19, R242). -/
def fourMost : List Nat → Nat
  | [] => 0
  | a :: t => max (a + (t.take 3).sum) (fourMost t)

/-- The memory requests of the core in focus that are outstanding (R19, R192): those of the AE in flight, a remote access of the XE, and the
fills of its ME, four at a time. Every other access has returned, or has been acknowledged, in the step that made it. -/
def State.requests (s : State) : Nat :=
  let plate (v : Nat) : Plate := (s.quadAt s.quadNo).plate.getD v {}
  let filling : List Plate := match s.core.mex.plan with
    | some p => (p.fills.map plate).filter fun x => x.filling
    | none => []
  (s.core.loads.map (·.reqs)).sum + bit1 s.core.remote.isSome + fourMost (filling.map fun x => x.reqs)

/-- An SQ access translates, and goes on with the address when a memory request is free (R19); a fault is raised at the instruction
(BADADDR is the address), a park waits. -/
def State.withPa (s : State) (k : Kind) (va : Word) (go : Nat → Tlb → State → Out) : Out :=
  match s.translate s.sqAgent k va with
  | .ok pa t s =>
    if isDevice pa then .fault .deviceRegisters
    else if 4096 ≤ s.requests then .next s.unpark
    else go pa t s.unpark
  | .fault c s => .next (s.unpark.raise c va)
  | .park line s => .next (s.parkSq line)

/-! ## The scratchpad (R196) -/

/-- The group that runs on a core, if one does. -/
def State.groupOf (s : State) (core : Nat) : Option Grp :=
  s.groups.find? fun g => g.st = .running && g.first ≤ core && core < g.first + 4 ^ g.size

/-- The group whose scratch window a core has: that which runs on it, or stops there, by parking or by its failure, until it has left
(R364, R388, R484). -/
def State.windowGroup (s : State) (core : Nat) : Option Grp :=
  s.groupOf core <|> s.groups.find? fun g =>
    (g.st = .parking || (g.st = .ended && !g.bases.isEmpty)) && g.first ≤ core && core < g.first + 4 ^ g.size

/-- The base and the size of the group's scratch window in the quad of the core in focus; a core without a group has a window of
1 KiB at 0 (assumption log 11). -/
def State.window (s : State) : Nat × Nat :=
  match s.windowGroup s.cur with
  | some g => (smGet g.bases s.quadNo 0, g.window)
  | none => (0, 1024)

/-- The quad offset of a window offset: it wraps in the window (R196). -/
def State.spadAt (s : State) (o : Nat) : Nat := s.window.1 + o % s.window.2

/-- Bytes of the scratchpad from a window offset; each byte wraps. -/
def State.spadRead (s : State) (o n : Nat) : List Byte :=
  (List.range n).map fun k => memRead (s.quadAt s.quadNo).spad (s.spadAt (o + k))

/-- Bytes written to the scratchpad from a window offset; each byte wraps. -/
def State.spadWrite (s : State) (o : Nat) (bs : List Byte) : State :=
  let q := s.quadAt s.quadNo
  let m := bs.zipIdx.foldl (fun m b => memWrite m (s.spadAt (o + b.2)) b.1) q.spad
  s.setQuad s.quadNo { q with spad := m }

/-- A scratchpad reference: bits 63:60 are 0xA and bits 59:23 zero (R168). -/
def spadRef (a : Word) : Bool := a.toNat / 2 ^ 23 = 0xA * 2 ^ 37

/-- Scratchpad form: bits 63:60 are 0xA (R168). -/
def spadForm (a : Word) : Bool := a.toNat / 2 ^ 60 = 0xA

/-- A block address as ENQ and RENQ carry it: a scratchpad reference is converted into a quad offset (R168). -/
def State.convertBlock (s : State) (a : Word) : Word :=
  if spadRef a then BitVec.ofNat 64 (0xA * 2 ^ 60 + s.spadAt (a.toNat % 2 ^ 23)) else a

end Sys2Proof.Machine
end

