-- ==== Sys2Proof/Machine/Flags.lean ====
section
/-! DEFINITION. The conditions and summaries that the machine computes: it keeps no arithmetic flags (R42, R107); what stands here
is the branch conditions, the compare conditions of the engines, and the summaries of masks. -/

namespace Sys2Proof.Machine

/-- A condition on two 64-bit values: the codes of PCMP (R75) and of the branches (R113). -/
inductive Cond where
  | eq | ne | lt | ge | ltn | gen
  deriving DecidableEq, Repr

/-- The condition of a PCMP code; 6 and 7 are reserved. -/
def condOf (c : BitVec 3) : Option Cond :=
  match c.toNat with
  | 0 => some .eq | 1 => some .ne | 2 => some .lt | 3 => some .ge | 4 => some .ltn | 5 => some .gen | _ => none

/-- A condition holds: LT and GE read signed, LTN and GEN unsigned (R113, R211). -/
def Cond.holds (c : Cond) (a b : Word) : Bool :=
  match c with
  | .eq => a = b
  | .ne => a ≠ b
  | .lt => a.toInt < b.toInt
  | .ge => b.toInt ≤ a.toInt
  | .ltn => a.toNat < b.toNat
  | .gen => b.toNat ≤ a.toNat

/-- A truth value as a word. -/
def boolWord (b : Bool) : Word := if b then 1 else 0

/-- The set bits among bits 0 to n − 1 of a number. -/
def popCount : Nat → Nat → Nat
  | 0, _ => 0
  | n + 1, v => v % 2 + popCount n (v / 2)

/-- Leading zeros of an `n`-bit number; `n` where it is 0. -/
def leadingZeros : Nat → Nat → Nat
  | 0, _ => 0
  | n + 1, v => if v / 2 ^ n % 2 = 1 then 0 else 1 + leadingZeros n v

/-- Trailing zeros of an `n`-bit number; `n` where it is 0. -/
def trailingZeros : Nat → Nat → Nat
  | 0, _ => 0
  | n + 1, v => if v % 2 = 1 then 0 else 1 + trailingZeros n (v / 2)

/-- The summary of a mask over bits 0 to width − 1 (R162): any, all, or the count of set bits. -/
def maskSummary (m : Mask) (summary : BitVec 2) : Word :=
  let n := popCount m.width m.bits.toNat
  match summary.toNat with
  | 0 => boolWord (n ≠ 0)
  | 1 => boolWord (n = m.width)
  | _ => BitVec.ofNat 64 n

/-- Sat of R34. -/
def satInt (n lo hi : Int) : Int := if n < lo then lo else if hi < n then hi else n

end Sys2Proof.Machine
end

