-- ==== Sys2Proof/Machine/Numbers.lean ====
section
/-! DEFINITION. The numbers of R34-R55: element types, exact values, rounding, conversions, scaled conversions and the
transcendental functions. An element is the natural number of its bits. -/

namespace Sys2Proof.Machine

/-! ## Element types (R34, R35, R37) -/

/-- The element types by their codes 0 to 11. -/
inductive Ty where
  | i8 | n8 | i16 | n16 | i32 | n32 | f16 | b16 | f32 | e4m3 | e5m2 | log6
  deriving DecidableEq, Repr, Inhabited

/-- The type of a code; 12 to 15 are reserved. -/
def Ty.ofCode (c : Nat) : Option Ty :=
  match c with
  | 0 => some .i8 | 1 => some .n8 | 2 => some .i16 | 3 => some .n16 | 4 => some .i32 | 5 => some .n32
  | 6 => some .f16 | 7 => some .b16 | 8 => some .f32 | 9 => some .e4m3 | 10 => some .e5m2 | 11 => some .log6
  | _ => none

/-- The size of an element in bytes. -/
def Ty.size : Ty → Nat
  | .i8 | .n8 | .e4m3 | .e5m2 | .log6 => 1
  | .i16 | .n16 | .f16 | .b16 => 2
  | .i32 | .n32 | .f32 => 4

/-- The width of an element in bits. -/
def Ty.width (t : Ty) : Nat := 8 * t.size

/-- The elements of a register (R127). -/
def Ty.count (t : Ty) : Nat := 1024 / t.size

/-- An integer type. -/
def Ty.isInt : Ty → Bool
  | .i8 | .n8 | .i16 | .n16 | .i32 | .n32 => true
  | _ => false

/-- A signed integer type. -/
def Ty.signed : Ty → Bool
  | .i8 | .i16 | .i32 => true
  | _ => false

/-- F32, F16 or B16: the float types of VE arithmetic. -/
def Ty.isWide : Ty → Bool
  | .f32 | .f16 | .b16 => true
  | _ => false

/-- A type whose granules may carry scales (R130). -/
def Ty.scalable : Ty → Bool
  | .i8 | .e4m3 | .e5m2 | .log6 => true
  | _ => false

/-- The layout of a floating-point format: mantissa bits, bias, whether the top exponent holds infinities, and the largest
finite code without its sign. -/
structure Fmt where
  mant : Nat
  expo : Nat
  bias : Nat
  ieee : Bool
  maxCode : Nat
  deriving DecidableEq, Repr

/-- The table of R35; LOG6 and the integers have no such layout. -/
def Ty.fmt : Ty → Option Fmt
  | .f32 => some { mant := 23, expo := 8, bias := 127, ieee := true, maxCode := 0x7F7FFFFF }
  | .f16 => some { mant := 10, expo := 5, bias := 15, ieee := true, maxCode := 0x7BFF }
  | .b16 => some { mant := 7, expo := 8, bias := 127, ieee := true, maxCode := 0x7F7F }
  | .e4m3 => some { mant := 3, expo := 4, bias := 7, ieee := false, maxCode := 0x7E }
  | .e5m2 => some { mant := 2, expo := 5, bias := 15, ieee := true, maxCode := 0x7B }
  | _ => none

/-- The positive canonical NaN (R36). -/
def Fmt.nan (f : Fmt) : Nat :=
  if f.ieee then (2 ^ f.expo - 1) * 2 ^ f.mant + 2 ^ (f.mant - 1) else 2 ^ (f.expo + f.mant) - 1

/-! ## Exact values -/

/-- A value: NaN, an infinity, or ± m × 2 ^ e; m = 0 is a zero of that sign. -/
inductive FVal where
  | nan
  | inf (neg : Bool)
  | fin (neg : Bool) (m : Nat) (e : Int)
  deriving DecidableEq, Repr, Inhabited

/-- +0. -/
def FVal.zero : FVal := .fin false 0 0

/-- The number of bits of a natural number. -/
def bitLen (v : Nat) : Nat := if v = 0 then 0 else v.log2 + 1

/-- The largest finite value of a type. -/
def Fmt.maxVal (f : Fmt) : Nat × Int :=
  let m := f.maxCode % 2 ^ f.mant
  (2 ^ f.mant + m, ((f.maxCode / 2 ^ f.mant : Nat) : Int) - f.bias - f.mant)

/-- The sign of a value. -/
def FVal.neg : FVal → Bool
  | .nan => false
  | .inf n => n
  | .fin n _ _ => n

/-- A value with its sign replaced; a NaN stays. -/
def FVal.withSign (v : FVal) (n : Bool) : FVal :=
  match v with
  | .nan => .nan
  | .inf _ => .inf n
  | .fin _ m e => .fin n m e

/-- The largest finite value with a sign. -/
def Fmt.maxFinite (f : Fmt) (neg : Bool) : FVal := .fin neg f.maxVal.1 f.maxVal.2

/-- The working mode of the VE (R40, R41). -/
structure Mode where
  rm : Nat := 0
  sat : Bool := false
  ftz : Bool := false
  deriving DecidableEq, Repr, Inhabited

/-- The mode of VMODE's four bits. -/
def modeOf (b : BitVec 4) : Mode := { rm := b.toNat % 4, sat := b.getLsbD 2, ftz := b.getLsbD 3 }

/-- Round to nearest, ties to even, nothing flushed or saturated (RoundNE of R43). -/
def Mode.ne : Mode := {}

/-- The value of a code of a format. -/
def Fmt.decode (f : Fmt) (b : Nat) : FVal :=
  let neg := b / 2 ^ (f.expo + f.mant) % 2 = 1
  let e := b / 2 ^ f.mant % 2 ^ f.expo
  let m := b % 2 ^ f.mant
  if f.ieee ∧ e = 2 ^ f.expo - 1 then (if m = 0 then .inf neg else .nan)
  else if !f.ieee ∧ b % 2 ^ (f.expo + f.mant) = f.nan then .nan
  else if e = 0 then .fin neg m (1 - (f.bias : Int) - f.mant)
  else .fin neg (2 ^ f.mant + m) ((e : Int) - f.bias - f.mant)

/-! ## LOG6 (R37-R39) -/

/-- 2 ^ (f / 4) × 1024, rounded. -/
def log6Table (f : Nat) : Nat :=
  match f with
  | 0 => 1024 | 1 => 1218 | 2 => 1448 | _ => 1722

/-- The realised value of a LOG6 element (R38). -/
def log6Real (b : Nat) : FVal :=
  let m := b % 32
  if m = 0 then .zero
  else
    let k : Int := (m : Int) - 16
    .fin (b / 32 % 2 = 1) (log6Table (k % 4).toNat) (k / 4 - 10)

/-- The product of two LOG6 elements (R39). With a code 0 it is +0, whatever the other's sign (assumption log 64). -/
def log6Prod (a b : Nat) : FVal :=
  if a % 32 = 0 || b % 32 = 0 then .zero
  else
    let s : Int := ((a % 32 : Nat) : Int) + (b % 32 : Nat) - 32
    .fin (a / 32 % 2 ≠ b / 32 % 2) (log6Table (s % 4).toNat) (s / 4 - 10)

/-- The value of an integer. -/
def ofInt (n : Int) : FVal := .fin (n < 0) n.natAbs 0

/-- The integer that the bits of an element of a width hold, signed or not. -/
def intOf (signed : Bool) (w b : Nat) : Int :=
  let b := b % 2 ^ w
  if signed && 2 ^ (w - 1) ≤ b then (b : Int) - 2 ^ w else b

/-- The exact value of an element of a type. -/
def Ty.value (t : Ty) (b : Nat) : FVal :=
  match t.fmt with
  | some f => f.decode b
  | none => if t = .log6 then log6Real b else ofInt (intOf t.signed t.width b)

/-- A source read under the working mode (R44, R55): FTZ takes a subnormal of F32, F16 or B16 as a zero of its sign, SAT takes an
infinity as the largest finite value. -/
def Ty.read (t : Ty) (mode : Mode) (b : Nat) : FVal :=
  let v := t.value b
  match v, t.fmt with
  | .inf n, some f => if mode.sat then f.maxFinite n else v
  | .fin n m e, some f => if mode.ftz && t.isWide && m < 2 ^ f.mant then .fin n 0 e else v
  | _, _ => v

/-! ## Rounding (R43) -/

/-- m / 2 ^ k rounded in a mode, for a value of a sign: 0 nearest even, 1 toward zero, 2 up, 3 down. -/
def roundShift (rm : Nat) (neg : Bool) (m k : Nat) : Nat :=
  let q := m / 2 ^ k
  let r := m % 2 ^ k
  if r = 0 then q
  else match rm with
    | 0 => if 2 ^ k < 2 * r || (2 * r = 2 ^ k && q % 2 = 1) then q + 1 else q
    | 1 => q
    | 2 => if neg then q else q + 1
    | _ => if neg then q + 1 else q

/-- RoundTo of R43: the code of a format. A conversion to a wider format goes through it too, so that an E5M2 subnormal becomes a zero of F16
under FTZ (assumption log 64). -/
def Fmt.roundTo (f : Fmt) (wide : Bool) (mode : Mode) (v : FVal) : Nat :=
  let sign (n : Bool) : Nat := if n then 2 ^ (f.expo + f.mant) else 0
  let infCode : Nat := if f.ieee then (2 ^ f.expo - 1) * 2 ^ f.mant else f.maxCode
  match v with
  | .nan => f.nan
  | .inf n => sign n + (if mode.sat then f.maxCode else infCode)
  | .fin n m e =>
    if m = 0 then sign n
    else
      let emin : Int := 1 - (f.bias : Int)
      let top : Int := (bitLen m : Int) - 1 + e
      if mode.ftz && wide && top < emin then sign n
      else
        let q : Int := max top emin - f.mant
        -- the value in units of 2 ^ q, rounded
        let r := if e ≤ q then roundShift mode.rm n m (q - e).toNat else m * 2 ^ (e - q).toNat
        -- a carry to the next exponent keeps the value
        let carry := 2 ^ (f.mant + 1) ≤ r
        let r' := if carry then r / 2 else r
        let q' := if carry then q + 1 else q
        let (mm, me) := f.maxVal
        let big := me < q' || (q' = me && mm < r')
        if big then
          sign n + (if mode.sat || !f.ieee then f.maxCode
            else match mode.rm with
              | 0 => infCode
              | 1 => f.maxCode
              | 2 => if n then f.maxCode else infCode
              | _ => if n then infCode else f.maxCode)
        else if r' < 2 ^ f.mant then sign n + r'
        else sign n + ((q' + f.mant + f.bias).toNat * 2 ^ f.mant + (r' - 2 ^ f.mant))

/-- A value rounded to an integer by RM. -/
def roundInt (rm : Nat) (v : FVal) : Int :=
  match v with
  | .nan => 0
  | .inf _ => 0
  | .fin n m e =>
    let k := if e < 0 then roundShift rm n m (-e).toNat else m * 2 ^ e.toNat
    if n then -(k : Int) else k

/-- The range of an integer type (R34). -/
def Ty.range (t : Ty) : Int × Int :=
  if t.signed then (-(2 ^ (t.width - 1)), 2 ^ (t.width - 1) - 1) else (0, 2 ^ t.width - 1)

/-- The bits of an integer modulo 2 ^ width. -/
def Ty.wrap (t : Ty) (n : Int) : Nat := (n % 2 ^ t.width).toNat

/-- Sat to the range of an integer type, as bits. -/
def Ty.satBits (t : Ty) (n : Int) : Nat := t.wrap (satInt n t.range.1 t.range.2)

/-- ToLog6 of R46: round(4 × log2 |v| + 16), from the integer part of log2 of v ^ 8. -/
def toLog6 (v : FVal) : Nat :=
  match v with
  | .nan => 0
  | .inf n => (if n then 32 else 0) + 31
  | .fin n m e =>
    if m = 0 then 0
    else
      let k : Int := (bitLen (m ^ 8) : Int) - 1 + 8 * e
      let q := (k + 1) / 2 + 16
      if q ≤ 0 then 0 else (if n then 32 else 0) + (min q 31).toNat

/-- A value converted to a type under a mode (R43, R45, R46). The conversions of R45's table with no row, an integer to an integer type of the
same or a larger width and LOG6 to an integer type, saturate to the range of the type as the others do (assumption log 64). -/
def Ty.convert (t : Ty) (mode : Mode) (v : FVal) : Nat :=
  match t.fmt with
  | some f => f.roundTo t.isWide mode v
  | none =>
    if t = .log6 then toLog6 v
    else match v with
      | .nan => 0
      | .inf n => t.wrap (if n then t.range.1 else t.range.2)
      | .fin _ _ _ => t.satBits (roundInt mode.rm v)

/-! ## Exact arithmetic -/

/-- The exact sum; an exact zero of operands of opposite signs is −0 only rounding down (R43). -/
def fAdd (rm : Nat) (a b : FVal) : FVal :=
  match a, b with
  | .nan, _ => .nan
  | _, .nan => .nan
  | .inf x, .inf y => if x = y then .inf x else .nan
  | .inf x, .fin _ _ _ => .inf x
  | .fin _ _ _, .inf y => .inf y
  | .fin x m e, .fin y n f =>
    let g := min e f
    let p : Int := (m * 2 ^ (e - g).toNat : Nat)
    let q : Int := (n * 2 ^ (f - g).toNat : Nat)
    let t := (if x then -p else p) + (if y then -q else q)
    if t = 0 then .fin (if x = y then x else rm = 3) 0 0 else .fin (t < 0) t.natAbs g

/-- The value with its sign flipped. -/
def fNeg (a : FVal) : FVal := a.withSign (!a.neg)

/-- The exact product. -/
def fMul (a b : FVal) : FVal :=
  match a, b with
  | .nan, _ => .nan
  | _, .nan => .nan
  | .inf x, .inf y => .inf (x ≠ y)
  | .inf x, .fin y n _ => if n = 0 then .nan else .inf (x ≠ y)
  | .fin x m _, .inf y => if m = 0 then .nan else .inf (x ≠ y)
  | .fin x m e, .fin y n f => .fin (x ≠ y) (m * n) (e + f)

/-- The value times 2 ^ k. -/
def fScale (k : Int) (a : FVal) : FVal :=
  match a with
  | .fin n m e => .fin n m (e + k)
  | v => v

/-- The sign of a − b for values that are not NaN: −1, 0 or 1; −0 equals +0. -/
def fCompare (a b : FVal) : Int :=
  match a, b with
  | .inf x, .inf y => if x = y then 0 else if x then -1 else 1
  | .inf x, _ => if x then -1 else 1
  | _, .inf y => if y then 1 else -1
  | .fin x m e, .fin y n f =>
    let g := min e f
    let p : Int := (m * 2 ^ (e - g).toNat : Nat)
    let q : Int := (n * 2 ^ (f - g).toNat : Nat)
    let p := if x then -p else p
    let q := if y then -q else q
    if p < q then -1 else if p = q then 0 else 1
  | _, _ => 0

/-- a orders below b, with −0 below +0. -/
def fBelow (a b : FVal) : Bool :=
  let c := fCompare a b
  c < 0 || (c = 0 && a.neg && !b.neg)

/-- VMIN and VMAX on floats: NaN if either is NaN (R145, R52). -/
def fPick (larger : Bool) (a b : FVal) : FVal :=
  match a, b with
  | .nan, _ => .nan
  | _, .nan => .nan
  | a, b => if fBelow a b = larger then b else a

/-! ## Products of elements (R53, R151) -/

/-- The exact product of two elements: Log6Prod for two LOG6, Log6Real for one. -/
def prodOf (ta tb : Ty) (va vb : Nat → FVal) (a b : Nat) : FVal :=
  if ta = .log6 && tb = .log6 then log6Prod a b else fMul (va a) (vb b)

/-! ## Scaled conversions (R47, R48) -/

/-- Emax of R47. -/
def Ty.emax : Ty → Int
  | .e4m3 => 8 | .e5m2 => 15 | .i8 => 6 | _ => 3

/-- ScaleSelect of R47 on a block of values already read under FTZ, `max32` being F32's largest finite value: the scale code and
the elements. -/
def scaleSelect (t : Ty) (mode : Mode) (blk : List FVal) : Nat × List Nat :=
  let isNan (v : FVal) : Bool := match v with | .nan => true | .inf _ => !mode.sat | .fin _ _ _ => false
  let nanCode : Nat := match t.fmt with | some f => f.nan | none => 0
  if blk.any isNan then (0xFF, blk.map fun _ => nanCode)
  else
    let blk := blk.map fun v => match v with | .inf n => .fin n 0xFFFFFF 104 | v => v
    let top : Option Int := blk.foldl (fun acc v => match v with
      | .fin _ m e => if m = 0 then acc else
        let k : Int := (bitLen m : Int) - 1 + e
        match acc with | none => some k | some a => some (max a k)
      | _ => acc) none
    match top with
    | none => (0, blk.map fun _ => 0)
    | some k =>
      let x := satInt (k - t.emax) (-127) 127
      let one (v : FVal) : Nat :=
        let v := fScale (-x) v
        match t.fmt with
        | some f => f.roundTo false { mode with sat := true } v
        | none => if t = .log6 then toLog6 v else t.satBits (roundInt mode.rm v)
      ((x + 127).toNat, blk.map one)

/-- An element with its scale (R48): the value E × 2 ^ (code − 127), NaN for code 0xFF. -/
def scaledValue (t : Ty) (mode : Mode) (code b : Nat) : FVal :=
  if code = 0xFF then .nan else fScale ((code : Int) - 127) (t.read { mode with ftz := false } b)

/-! ## Integral rounding (VRND) -/

/-- A value rounded to an integral value, keeping its sign and special values. -/
def fIntegral (rm : Nat) (v : FVal) : FVal :=
  match v with
  | .fin n m e => if m = 0 || 0 ≤ e then v else .fin n (roundShift rm n m (-e).toNat) 0
  | v => v

/-! ## Functions (R49, R50) -/

/-- An enclosure of an irrational value: it lies strictly between ± lo × 2 ^ e and ± hi × 2 ^ e. -/
structure Encl where
  neg : Bool := false
  lo : Nat
  hi : Nat
  e : Int
  deriving DecidableEq, Repr

/-- Σ of the series whose term i is t i, where t (i + 1) follows from t i, for a fuel of terms. -/
def series (step : Nat → Nat → Nat) : Nat → Nat → Nat → Nat
  | 0, _, _ => 0
  | fuel + 1, i, t => if t = 0 then 0 else t + series step fuel (i + 1) (step i t)

/-- exp of x × 2 ^ −w for 0 ≤ x ≤ 2 ^ w, in units of 2 ^ −w, below the true value by less than 2 ^ 12 units. -/
def expFix (w x : Nat) : Nat := series (fun i t => t * x / 2 ^ w / (i + 1)) 400 0 (2 ^ w)

/-- 2 × atanh of x × 2 ^ −w for 0 ≤ x ≤ 2 ^ w / 2, in units of 2 ^ −w, below the true value by less than 2 ^ 12 units. -/
def atanh2Fix (w x : Nat) : Nat :=
  let sq := x * x / 2 ^ w
  let rec go : Nat → Nat → Nat → Nat
    | 0, _, _ => 0
    | fuel + 1, k, p => if p = 0 then 0 else p / k + go fuel (k + 2) (p * sq / 2 ^ w)
  2 * go 800 1 x

/-- ln 2 in units of 2 ^ −w. -/
def ln2Fix (w : Nat) : Nat := atanh2Fix w (2 ^ w / 3)

/-- e ^ (± x) of a magnitude x = m × 2 ^ e below 2 ^ 9: the enclosure v × 2 ^ k with v in units of 2 ^ −w. -/
def expEncl (w : Nat) (neg : Bool) (m : Nat) (e : Int) : Encl :=
  let x := if 0 ≤ e + w then m * 2 ^ (e + w).toNat else m / 2 ^ (-(e + w)).toNat
  let l := ln2Fix w
  let k := x / l
  let r := x % l
  if neg then
    -- e ^ −x = 2 ^ −(k + 1) × e ^ (ln 2 − r)
    let v := expFix w (l - r)
    { lo := v - 2 ^ 24, hi := v + 2 ^ 24, e := -((k : Int) + 1) - w }
  else
    let v := expFix w r
    { lo := v - 2 ^ 24, hi := v + 2 ^ 24, e := (k : Int) - w }

/-- 2 ^ (± x) of a magnitude below 2 ^ 9 that is no integer. -/
def exp2Encl (w : Nat) (neg : Bool) (m : Nat) (e : Int) : Encl :=
  let x := if 0 ≤ e + w then m * 2 ^ (e + w).toNat else m / 2 ^ (-(e + w)).toNat
  let i := x / 2 ^ w
  let f := x % 2 ^ w
  let f := if neg then 2 ^ w - f else f
  let k : Int := if neg then -(i : Int) - 1 else i
  let v := expFix w (f * ln2Fix w / 2 ^ w)
  { lo := v - 2 ^ 24, hi := v + 2 ^ 24, e := k - w }

/-- log2 of m × 2 ^ e, not a power of two. -/
def log2Encl (w m : Nat) (e : Int) : Encl :=
  let n := bitLen m
  -- y in [1, 2), or in [3/4, 1) with the next exponent
  let y := m * 2 ^ (w + 1) / 2 ^ n
  let (y, k) := if y < 2 ^ w * 3 / 2 then (y, (n : Int) - 1 + e) else (y / 2, (n : Int) + e)
  let one := 2 ^ w
  let up := one ≤ y
  let d := if up then y - one else one - y
  let a := atanh2Fix w (d * 2 ^ w / (y + one))
  let frac : Int := (a * 2 ^ w / ln2Fix w : Nat)
  let t := k * 2 ^ w + (if up then frac else -frac)
  { neg := t < 0, lo := t.natAbs - 2 ^ 24, hi := t.natAbs + 2 ^ 24, e := -(w : Int) }

/-- 1 / (1 + e ^ −x) of ± x, x = m × 2 ^ e below 2 ^ 9. -/
def sigEncl (w : Nat) (neg : Bool) (m : Nat) (e : Int) : Encl :=
  let u := expEncl w true m e
  -- e ^ −x in units of 2 ^ −w2, below 1
  let p := (-u.e).toNat
  let v := u.lo + 2 ^ 24
  let s := if neg then v * 2 ^ p / (2 ^ p + v) else 2 ^ (2 * p) / (2 ^ p + v)
  let err := 2 ^ 25 * (if neg then 1 else 1)
  { lo := s - err, hi := s + err, e := -(p : Int) }

/-- tanh of x = m × 2 ^ e, 2 ^ −20 ≤ x < 2 ^ 9: (1 − e ^ −2x) / (1 + e ^ −2x). -/
def tanhEncl (w : Nat) (neg : Bool) (m : Nat) (e : Int) : Encl :=
  let u := expEncl w true m (e + 1)
  let p := (-u.e).toNat
  let v := u.lo + 2 ^ 24
  let s := (2 ^ p - v) * 2 ^ p / (2 ^ p + v)
  { neg := neg, lo := s - 2 ^ 26, hi := s + 2 ^ 26, e := -(p : Int) }

/-- The code that both ends of an enclosure round to, from the first of a list of precisions that decides it; an irrational value
is no midpoint, so a finer enclosure decides. -/
def settle (t : Ty) (mode : Mode) (f : Nat → Encl) : List Nat → Nat
  | [] => 0
  | w :: rest =>
    let u := f w
    let a := t.convert mode (.fin u.neg (2 * u.lo + 1) (u.e - 1))
    let b := t.convert mode (.fin u.neg (2 * u.hi + 1) (u.e - 1))
    if a = b || rest.isEmpty then a else settle t mode f rest

/-- The precisions tried, in bits. -/
def precisions : List Nat := [128, 224, 416, 800]

/-- The integer square root by bits, for a fuel of bits. -/
def isqrtAux : Nat → Nat → Nat → Nat
  | 0, _, r => r
  | k + 1, n, r =>
    let r' := r + 2 ^ k
    if r' * r' ≤ n then isqrtAux k n r' else isqrtAux k n r

/-- floor of the square root. -/
def isqrt (n : Nat) : Nat := isqrtAux (bitLen n / 2 + 1) n 0

/-- The value of a quotient or root q × 2 ^ e with the sticky bit of its remainder. -/
def sticky (neg : Bool) (q : Nat) (exact : Bool) (e : Int) : FVal :=
  .fin neg (2 * q + (if exact then 0 else 1)) (e - 1)

/-- The square root of m × 2 ^ e. -/
def sqrtVal (m : Nat) (e : Int) : FVal :=
  -- an even exponent, with 64 more bits of root
  let (m, e) := if e % 2 = 0 then (m, e) else (2 * m, e - 1)
  let n := m * 2 ^ 128
  let r := isqrt n
  sticky false r (r * r = n) (e / 2 - 64)

/-- The reciprocal of ± m × 2 ^ e. -/
def rcpVal (neg : Bool) (m : Nat) (e : Int) : FVal :=
  let n := 2 ^ 128
  sticky neg (n / m) (n % m = 0) (-e - 128)

/-- The reciprocal square root of m × 2 ^ e. -/
def rsqVal (m : Nat) (e : Int) : FVal :=
  let (m, e) := if e % 2 = 0 then (m, e) else (2 * m, e - 1)
  let n := 2 ^ 256
  let r := isqrt (n / m)
  sticky false r (r * r * m = n) (-(e / 2) - 128)

/-- The functions of R49. -/
inductive Fn1 where
  | exp2 | exp | log2 | rcp | rsq | sqrt | sig | tanh
  deriving DecidableEq, Repr

/-- A value so large that every type overflows, and one so small that every type rounds it to zero. -/
def hugeVal (neg : Bool) : FVal := .fin neg 1 4096

def tinyVal (neg : Bool) : FVal := .fin neg 1 (-4096)

/-- A function of an element (R49, R50): the exact value rounded once to nearest even; FTZ and SAT act as in RoundTo. -/
def Fn1.apply (g : Fn1) (t : Ty) (mode : Mode) (b : Nat) : Nat :=
  let md : Mode := { mode with rm := 0 }
  let one : FVal := .fin false 1 0
  let out (v : FVal) : Nat := t.convert md v
  match t.read mode b with
  | .nan => out .nan
  | .inf n =>
    match g with
    | .exp2 | .exp => out (if n then .zero else .inf false)
    | .log2 => out (if n then .nan else .inf false)
    | .rcp => out (.fin n 0 0)
    | .rsq => out (if n then .nan else .zero)
    | .sqrt => out (if n then .nan else .inf false)
    | .sig => out (if n then .zero else one)
    | .tanh => out (.fin n 1 0)
  | .fin n m e =>
    if m = 0 then
      match g with
      | .exp2 | .exp => out one
      | .log2 => out (.inf true)
      | .rcp => out (.inf n)
      | .rsq => out (.inf n)
      | .sqrt => out (.fin n 0 0)
      | .sig => out (.fin false 1 (-1))
      | .tanh => out (.fin n 0 0)
    else
      let top : Int := (bitLen m : Int) - 1 + e
      match g with
      | .exp2 =>
        if 9 ≤ top then out (if n then tinyVal false else hugeVal false)
        else if 0 ≤ e || m % 2 ^ (-e).toNat = 0 then
          let k : Int := if 0 ≤ e then (m * 2 ^ e.toNat : Nat) else (m / 2 ^ (-e).toNat : Nat)
          out (.fin false 1 (if n then -k else k))
        else settle t md (fun w => exp2Encl w n m e) precisions
      | .exp => if 9 ≤ top then out (if n then tinyVal false else hugeVal false) else settle t md (fun w => expEncl w n m e) precisions
      | .log2 =>
        if n then out .nan
        else if m = 2 ^ (bitLen m - 1) then out (ofInt top)
        else settle t md (fun w => log2Encl w m e) precisions
      | .rcp => out (rcpVal n m e)
      | .rsq => if n then out .nan else out (rsqVal m e)
      | .sqrt => if n then out .nan else out (sqrtVal m e)
      | .sig => if 9 ≤ top then out (if n then tinyVal false else one) else settle t md (fun w => sigEncl w n m e) precisions
      | .tanh =>
        if 9 ≤ top then out (.fin n 1 0)
        else if top < -20 then out (.fin n (m * 2 ^ 64 - 1) (e - 64))
        else settle t md (fun w => tanhEncl w n m e) precisions

/-! ## Registers as lists of elements (R127) -/

/-- The elements of a granule, of a width in bits. -/
def elemsOf (w : Nat) (g : Granule) : List Nat := (List.range (8192 / w)).map fun j => g.toNat / 2 ^ (w * j) % 2 ^ w

/-- The granule of a list of elements of a width. -/
def packElems (w : Nat) (l : List Nat) : Granule := BitVec.ofNat 8192 (l.foldr (fun x acc => x % 2 ^ w + 2 ^ w * acc) 0)

/-- A granule with every element of a width the same. -/
def splat (w b : Nat) : Granule := packElems w (List.replicate (8192 / w) b)

end Sys2Proof.Machine
end

