-- ==== Sys2Proof/Machine/Operands.lean ====
section
/-! DEFINITION. What the words of the engines read and write: the engine in action, views (R129-R132), binding tags and groups
(R256-R264), the operand levels of R137 and the landing of VE writes (R138-R140). -/

namespace Sys2Proof.Machine

/-! ## The engine in action -/

/-- The engine whose word executes. -/
def State.act (s : State) : Eng := s.eng s.actor

/-- The machine with the engine in action changed. -/
def State.upd (s : State) (f : Eng → Eng) : State := s.setEng s.actor (f s.act)

/-- The entry at the head of a command queue. -/
def Eng.entry (e : Eng) : Entry :=
  match e.q.head? with
  | some (.entry x) => x
  | _ => {}

/-- Argument a0 to a3 of the entry that runs (R167). -/
def State.arg (s : State) (a : BitVec 2) : Word := vget s.act.entry.args a

/-- The cycle from which the engine in action may issue its next word, when one is done: the AE and the VE issue no other in the same cycle
(R138, R192), and the CE and the XE none before the replies to what the word has read have come back (R431). -/
def State.nextIssue (s : State) : Word :=
  if s.actor = .ae || s.actor = .ve then s.time + 1
  else if (s.actor = .ce || s.actor = .xe) && s.act.nextAt.toNat < s.reply.toNat then s.reply
  else s.act.nextAt

/-- The word is done: the engine goes on `n` halfwords further. -/
def State.wordDone (s : State) (n : Nat) : State :=
  s.upd fun e => { e with
    pos := e.pos + BitVec.ofNat 12 n, wait := 0, part := none, parked := none, woken := false, exec := false
    nextAt := s.nextIssue }

/-- The word stalls at issue with a cause of ESTATE.WAIT (R188) and has not issued. -/
def State.stall (s : State) (code : BitVec 4) : State := s.upd fun e => { e with wait := code, exec := false }

/-- A word waits to make an access. One of the CE or XE that has issued is in execution, and a freeze lets it run on (R185, R364). -/
def State.standBy (s : State) : State :=
  let way := (s.actor = .ce || s.actor = .xe) && s.act.part.any fun p => p.promised || 0 < p.count
  s.upd fun e => { e with wait := 7, exec := way }

/-- An engine stops on a fault (R183): the EFAULT registers record it, the entry stays at its position, and an ENGINE_FAULT is
pending for the SQ (R101). -/
def Core.stopEngine (c : Core) (e : Engine) (f : EFault) : Core :=
  let g := c.eng e
  let g := { g with
    flt := true, st := .stopped, wait := 0, parked := none, woken := false, exec := false, efV := true
    efCode := f.cause.code, efAddr := f.addr, efElem := f.elem, efBlk := g.entry.addr }
  { c.setEng e g with sq.pending := c.sq.pending ||| (1#6 <<< e.id) }

/-- The word of the engine in action faults; an ME loses the lease (R231). -/
def State.engFault (s : State) (c : Cause) (addr : Word) (elem : BitVec 16 := 0xFFFF) : State :=
  let s := if s.actor = .me then s.endLease s.cur else s
  { s with core := s.core.stopEngine s.actor { cause := c, addr := addr, elem := elem } }

/-! ## Views -/

/-- TYPE of a view. -/
def viewTypeCode (v : BitVec 128) : Nat := seg v.toNat 0 4

/-- SCALED of a view. -/
def viewScaled (v : BitVec 128) : Bool := v.getLsbD 4

/-- COUNT of a view. -/
def viewCount (v : BitVec 128) : Nat := seg v.toNat 32 10

/-- ROTBASE of a view. -/
def viewRot (v : BitVec 128) : Nat := seg v.toNat 64 10

/-- The well-formed views of R130. -/
def viewWf (v : BitVec 128) : Bool :=
  let n := v.toNat
  let stride := seg n 8 8
  let base := seg n 16 10
  let count := viewCount v
  let step := seg n 48 10
  let rot := viewRot v
  seg n 5 3 = 0 && seg n 26 6 = 0 && seg n 42 6 = 0 && seg n 58 6 = 0 && seg n 74 54 = 0 &&
  viewTypeCode v ≤ 11 && step % 2 = 0 && step ≠ 512 && stride % 2 = 1 && count % 2 = 0 && count ≤ 512 &&
  rot % 2 = 0 && (rot < count || (rot = 0 && count = 0)) &&
  (!viewScaled v || viewTypeCode v = 0 || 9 ≤ viewTypeCode v) &&
  (count = 0 || base * 2048 + ((count - 1) * stride + 1) * 1024 ≤ 0x140000)

/-- The element type of a well-formed view. -/
def viewType (v : BitVec 128) : Option Ty := if viewWf v then Ty.ofCode (viewTypeCode v) else none

/-- ResolveView (R131): the granule of an index, none for VIEW_INVALID. -/
def resolveView (v : BitVec 128) (i : Nat) : Option Nat :=
  if viewWf v && viewCount v ≠ 0 then
    some (seg v.toNat 16 10 * 2 + (viewRot v + i) % viewCount v * seg v.toNat 8 8)
  else none

/-- Rotate (R132). -/
def rotateView (v : BitVec 128) : BitVec 128 :=
  let step : Int := (BitVec.ofNat 10 (seg v.toNat 48 10)).toInt
  if viewCount v = 0 || step = 0 then v
  else
    let r := (((viewRot v : Nat) : Int) + step) % (viewCount v : Int)
    BitVec.ofNat 128 (setSeg v.toNat 64 10 r.toNat)

/-- View `v` of a core. -/
def Core.view (c : Core) (v : BitVec 3) : BitVec 128 := vget c.regs.view v

/-- The core with a view replaced. -/
def Core.setView (c : Core) (v : BitVec 3) (x : BitVec 128) : Core := { c with regs.view := vset c.regs.view v x }

/-- The granule that a main-file operand names, none for VIEW_INVALID. -/
def Core.granuleOf (c : Core) (v : BitVec 3) (i : BitVec 4) : Option Nat := resolveView (c.view v) i.toNat

/-! ## The register space, its tags and groups -/

/-- A granule's contents; a granule nothing has written holds zeros (R22, R481). -/
def Regs.granule (r : Regs) (g : Nat) : Granule := smGet r.gran g 0

/-- The binding tag of a granule (R257). -/
def Regs.tagOf (r : Regs) (g : Nat) : BitVec 16 := smGet r.tag g 0

/-- V of a tag. -/
def tagBound (t : BitVec 16) : Bool := t.getLsbD 15

/-- GROUP of a tag. -/
def tagGroup (t : BitVec 16) : Nat := seg t.toNat 0 9

/-- GEN of a tag. -/
def tagGen (t : BitVec 16) : Nat := seg t.toNat 9 6

/-- A tag with V = 1. -/
def mkTag (gen : BitVec 6) (group : Nat) : BitVec 16 := BitVec.ofNat 16 (2 ^ 15 + gen.toNat * 2 ^ 9 + group % 512)

/-- A tag is current (R257). -/
def Regs.current (r : Regs) (t : BitVec 16) : Bool := tagBound t && tagGen t = (r.groupAt (tagGroup t)).gen.toNat

/-- A number into an ascending list. -/
def insertNat (a : Nat) : List Nat → List Nat
  | [] => [a]
  | b :: t => if a ≤ b then a :: b :: t else b :: insertNat a t

/-- A group goes to the tail of the free list, among those freed in the same cycle in ascending number (R260). -/
def Regs.append (r : Regs) (g : Nat) : Regs :=
  let n := r.free.length - r.freed
  { r with free := r.free.take n ++ insertNat g (r.free.drop n), freed := r.freed + 1 }

/-- A reference to a group ends (R260): at 0 the generation moves on and the group goes to the tail of the free list. -/
def Regs.release (r : Regs) (g : Nat) : Regs :=
  let v := r.groupAt g
  if v.count.toNat ≤ 1 then (r.setGroup g { v with count := 0, gen := v.gen + 1 }).append g
  else r.setGroup g { v with count := v.count - 1 }

/-- A tag that no longer stands ends its reference. -/
def Regs.releaseTag (r : Regs) (t : BitVec 16) : Regs := if tagBound t then r.release (tagGroup t) else r

/-- A tag set to a value whose reference, if it has one, has been taken. -/
def Regs.setTag (r : Regs) (g : Nat) (t : BitVec 16) : Regs :=
  let old := r.tagOf g
  Regs.releaseTag { r with tag := if t = 0 then smErase r.tag g else smSet r.tag g t } old

/-- A reference more (R260). -/
def Regs.addRef (r : Regs) (g : Nat) : Regs :=
  let v := r.groupAt g
  r.setGroup g { v with count := v.count + 1 }

/-- A plain write of a granule: its data, and its tag cleared (R263). -/
def Regs.plainWrite (r : Regs) (g : Nat) (v : Granule) : Regs := Regs.setTag { r with gran := smSet r.gran g v } g 0

/-- A binding that lands: the reserved group takes its codes, and the granule's tag names it (R263). -/
def Regs.bind (r : Regs) (g group : Nat) (codes : BitVec 256) : Regs :=
  let v := r.groupAt group
  (r.setGroup group { v with codes := codes }).setTag g (mkTag v.gen group)

/-- Allocate (R260): the group at the head of the free list, reserved; none where the list is empty. -/
def Core.allocate (c : Core) : Option (Nat × Core) :=
  match c.regs.free with
  | [] => none
  | g :: rest =>
    let v := c.regs.groupAt g
    some (g, { c with
      regs := Regs.setGroup { c.regs with free := rest, freed := min c.regs.freed rest.length } g { v with count := 1 }
      counts.tintAllocs := sat32 c.counts.tintAllocs 1 })

/-- SCWR lands (R262, R270): where the tag still names the group, the codes are written, the generation moves on and the tag
follows it; at a wrap every other tag of the group is swept. -/
def Regs.rewrite (r : Regs) (g group : Nat) (codes : BitVec 256) : Regs :=
  let t := r.tagOf g
  if tagBound t && tagGroup t = group then
    let v := r.groupAt group
    let gen := v.gen + 1
    let r := r.setGroup group { v with codes := codes, gen := gen }
    let r := { r with tag := smSet r.tag g (mkTag gen group) }
    if gen = 0 then
      (r.tag.filter fun x => x.1 ≠ g && tagBound x.2 && tagGroup x.2 = group).foldl (fun r x => r.setTag x.1 0) r
    else r
  else r

/-! ## VE writes landing -/

/-- The bits that an element mask covers: element j from bit k of the mask on, of `w` bits each. -/
def elemMask (m : BitVec 1024) (k w : Nat) : Granule :=
  packElems w ((List.range (8192 / w)).map fun j => if m.getLsbD (k + j) then 2 ^ w - 1 else 0)

/-- A value merged over an old one by bits. -/
def mergeBits {n : Nat} (m old new : BitVec n) : BitVec n := (old &&& ~~~m) ||| (new &&& m)

/-- A reserved slot of a queue takes its data. -/
def fillSlot (q : List DSlot) (tag : Nat) (g : Granule) : List DSlot :=
  q.map fun x => if x = .reserved tag then .full g else x

/-- The tag change of a landing (R263). -/
def Regs.landTag (r : Regs) (g : Nat) : VTag → Regs
  | .clear => r.setTag g 0
  | .copy t => r.setTag g t
  | .bind group codes => r.bind g group codes
  | .rewrite group codes => r.rewrite g group codes
  | .keep => r

/-- The tag change of a write to a destination: only a granule has a tag (R263). -/
def VDest.tagChange (d : VDest) (t : VTag) : VTag :=
  match d with
  | .gran _ => t
  | _ => .keep

/-- One register of a landing write: the value merged in the landing cycle (R139), and that value. The register is
written whole in one turn, so that sectors of two engines' writes do not mix within it (R128; assumption log 2). -/
def Core.landOne (c : Core) (w : VWrite) (k : Nat) (dest : VDest) : Core × Granule :=
  let m := elemMask w.merge (k * (1024 / w.esz)) (8 * w.esz)
  let data : Granule := w.data.getD k 0
  match dest with
  | .gran g =>
    let v := mergeBits m (c.regs.granule g) data
    ({ c with regs := Regs.landTag { c.regs with gran := smSet c.regs.gran g v } g w.tag }, v)
  | .ofile o =>
    let v := mergeBits m (vget c.regs.ofile o) data
    ({ c with regs.ofile := vset c.regs.ofile o v }, v)
  | .sq q tag =>
    let v := mergeBits m 0 data
    ({ c with sqq := vset c.sqq q (fillSlot (vget c.sqq q) tag v) }, v)
  | .mask i =>
    let v := mergeBits w.merge (vget c.regs.mask i).bits (data.setWidth 1024)
    ({ c with regs.mask := vset c.regs.mask i { bits := v, width := w.width } }, 0)

/-- A VE write lands: a scale-only word, without data, changes only the tag of its granule. -/
def Core.landWrite (c : Core) (w : VWrite) : Core :=
  match w.data with
  | [] =>
    match w.dests with
    | .gran g :: _ => { c with regs := c.regs.landTag g w.tag }
    | _ => c
  | _ =>
    let r := w.dests.zipIdx.foldl (fun (p : Core × Granule) d => p.1.landOne w d.2 d.1) (c, 0)
    if w.latch then { r.1 with vex.lat := r.2, vex.latValid := true } else r.1

/-- The VE counts its cycles: it is not frozen (R138). -/
def Core.veRuns (c : Core) : Bool := !c.ve.frz && !c.halted

/-- A cycle of TIME begins (R15, R138): the VE writes whose latency has run out land, in issue order. A frozen VE counts no cycle. -/
def Core.veTick (c : Core) : Core :=
  let c := { c with regs.freed := 0 }
  if c.veRuns then
    let ws := c.vex.pend.map fun w => { w with left := w.left - 1 }
    (ws.filter fun w => w.left = 0).foldl Core.landWrite
      { c with vex.cycle := c.vex.cycle + 1, vex.pend := ws.filter fun w => w.left ≠ 0 }
  else c

/-- Cycles pass in which no VE write lands. -/
def Core.veIdle (c : Core) (n : Nat) : Core :=
  { c with regs.freed := 0, vex.cycle := if c.veRuns then c.vex.cycle + n else c.vex.cycle }

/-! ## The operand levels of the VE (R137) -/

/-- The view that a main-file operand names. -/
def Core.operandView (c : Core) (f : BitVec 8) : Option (BitVec 128) :=
  match operand f with
  | .main v _ => some (c.view v)
  | _ => none

/-- The element type that a list of operands gives: the view of the first main-file operand, else w7's (R135). None for an ill-formed
view. -/
def Core.wordType (c : Core) (fs : List (BitVec 8)) : Option Ty :=
  match fs.findSome? c.operandView with
  | some v => viewType v
  | none => viewType (c.view 7)

/-- A main-file operand resolves, and its view has the type where one is asked for (R131, R136). -/
def Core.operandOk (c : Core) (want : Option Ty) (f : BitVec 8) : Bool :=
  match operand f with
  | .main v i => (c.granuleOf v i).isSome && (match want with | some t => viewType (c.view v) = some t | none => true)
  | _ => true

/-- A source read at issue: its 1 KiB and the core with a popped entry gone, or the cause of a stall. Argument broadcasts are of
elements of `w` bits. -/
def Core.readSource (c : Core) (args : Vector Word 4) (w : Nat) (f : BitVec 8) : Except (BitVec 4) (Granule × Core) :=
  match operand f with
  | .main v i => .ok (c.regs.granule ((c.granuleOf v i).getD 0), c)
  | .ofile o => .ok (vget c.regs.ofile o, c)
  | .queue q =>
    match vget c.dq q with
    | .full g :: rest => .ok (g, { c with dq := vset c.dq q rest })
    | _ => .error 5
  | .lat => if c.vex.pend.any fun w => w.latch then .error 9 else .ok (c.vex.lat, c)
  | .arg a => .ok (splat w ((vget args a).toNat % 2 ^ w), c)
  | _ => .ok (0, c)

/-- The sources of a word in order. -/
def Core.readSources (c : Core) (args : Vector Word 4) (w : Nat) :
    List (BitVec 8) → Except (BitVec 4) (List Granule × Core)
  | [] => .ok ([], c)
  | f :: rest =>
    match c.readSource args w f with
    | .error e => .error e
    | .ok (g, c) =>
      match c.readSources args w rest with
      | .error e => .error e
      | .ok (gs, c) => .ok (g :: gs, c)

/-- The destination of a word, resolved at issue; a store-queue push reserves its slot or stalls (R141). -/
def Core.veTarget (c : Core) (f : BitVec 8) : Except (BitVec 4) (VDest × Core) :=
  match operand f with
  | .main v i => .ok (.gran ((c.granuleOf v i).getD 0), c)
  | .ofile o => .ok (.ofile o, c)
  | .queue q =>
    let q : BitVec 1 := q.setWidth 1
    if (vget c.sqq q).length < 8 then
      .ok (.sq q c.seq, { c with sqq := vset c.sqq q (vget c.sqq q ++ [.reserved c.seq]), seq := c.seq + 1 })
    else .error 6
  | _ => .ok (.ofile 0, c)

/-- A write is scheduled; a write that feeds the latch is then the most recent result (R140). -/
def Core.schedule (c : Core) (w : VWrite) : Core :=
  let pend := if w.latch then c.vex.pend.map fun x => { x with latch := false } else c.vex.pend
  { c with vex.pend := pend ++ [w] }

/-- The merge mask of a word: the active mask where m = 1, else every element (R143). -/
def Core.activeMask (c : Core) (m : BitVec 1) : BitVec 1024 :=
  if m = 1 then (vget c.regs.mask c.vex.amask).bits else BitVec.allOnes 1024

end Sys2Proof.Machine
end

