-- ==== Sys2Proof/Machine/Scalar.lean ====
section
/-! DEFINITION. The integer instructions of the SQ (R107-R111). -/

namespace Sys2Proof.Machine

/-- A result is written to rd and the SQ goes on past the word. -/
def writeX (rd : BitVec 5) (v : Word) (len : Nat) (s : State) : Out := .next ((s.setX rd v).adv len)

/-- A function of two registers, at 64 bits, or with .W at 32 bits sign-extended (R109). -/
def wform (w : BitVec 1) (f : Word → Word → Word) (g : BitVec 32 → BitVec 32 → BitVec 32) (a b : Word) : Word :=
  if w = 1 then sext64 (g (a.setWidth 32) (b.setWidth 32)) else f a b

/-- A function of one register, in the same two forms. -/
def wform1 (w : BitVec 1) (f : Word → Word) (g : BitVec 32 → BitVec 32) (a : Word) : Word :=
  if w = 1 then sext64 (g (a.setWidth 32)) else f a

/-- A binary OP function. -/
def opRR (rd ra rb : BitVec 5) (f : Word → Word → Word) (len : Nat) (s : State) : Out :=
  writeX rd (f (s.x ra) (s.x rb)) len s

/-- DIV at a width (R108): rounded toward zero; all ones for a divisor of 0; the most negative number stays for −1. -/
def divS {n : Nat} (a b : BitVec n) : BitVec n := if b = 0 then BitVec.allOnes n else a.sdiv b

/-- DIVN at a width (R108). -/
def divU {n : Nat} (a b : BitVec n) : BitVec n := if b = 0 then BitVec.allOnes n else a.udiv b

/-- REM at a width (R108): the dividend for a divisor of 0; the sign of the dividend. -/
def remS {n : Nat} (a b : BitVec n) : BitVec n := if b = 0 then a else a.srem b

/-- REMN at a width (R108). -/
def remU {n : Nat} (a b : BitVec n) : BitVec n := if b = 0 then a else a.umod b

/-- Leading zeros of a bit vector. -/
def clzB {n : Nat} (a : BitVec n) : BitVec n := BitVec.ofNat n (leadingZeros n a.toNat)

/-- Trailing zeros of a bit vector. -/
def ctzB {n : Nat} (a : BitVec n) : BitVec n := BitVec.ofNat n (trailingZeros n a.toNat)

/-- One bits of a bit vector. -/
def popcB {n : Nat} (a : BitVec n) : BitVec n := BitVec.ofNat n (popCount n a.toNat)

/-- The bytes of a bit vector of `k` bytes in reverse order. -/
def bswapB (k : Nat) {n : Nat} (a : BitVec n) : BitVec n := BitVec.ofNat n (leNat (leBytes k a.toNat).reverse)

/-- Bits 127:64 of a product of two numbers read signed or unsigned (R107). -/
def mulHigh (signed : Bool) (a b : Word) : Word :=
  if signed then BitVec.ofInt 64 (a.toInt * b.toInt / 2 ^ 64) else BitVec.ofNat 64 (a.toNat * b.toNat / 2 ^ 64)

def execAdd (rd ra rb : BitVec 5) (w : BitVec 1) (s : State) : Out := opRR rd ra rb (wform w (· + ·) (· + ·)) 4 s

def execSub (rd ra rb : BitVec 5) (w : BitVec 1) (s : State) : Out := opRR rd ra rb (wform w (· - ·) (· - ·)) 4 s

def execAnd (rd ra rb : BitVec 5) (s : State) : Out := opRR rd ra rb (· &&& ·) 4 s

def execOr (rd ra rb : BitVec 5) (s : State) : Out := opRR rd ra rb (· ||| ·) 4 s

def execXor (rd ra rb : BitVec 5) (s : State) : Out := opRR rd ra rb (· ^^^ ·) 4 s

def execAndn (rd ra rb : BitVec 5) (s : State) : Out := opRR rd ra rb (fun a b => a &&& ~~~b) 4 s

/-- SLL: by b[5:0], under .W by b[4:0] (R107, R109). -/
def execSll (rd ra rb : BitVec 5) (w : BitVec 1) (s : State) : Out :=
  opRR rd ra rb (wform w (fun a b => a <<< (b.toNat % 64)) (fun a b => a <<< (b.toNat % 32))) 4 s

def execSrl (rd ra rb : BitVec 5) (w : BitVec 1) (s : State) : Out :=
  opRR rd ra rb (wform w (fun a b => a >>> (b.toNat % 64)) (fun a b => a >>> (b.toNat % 32))) 4 s

def execSra (rd ra rb : BitVec 5) (w : BitVec 1) (s : State) : Out :=
  opRR rd ra rb (wform w (fun a b => a.sshiftRight (b.toNat % 64)) (fun a b => a.sshiftRight (b.toNat % 32))) 4 s

def execRol (rd ra rb : BitVec 5) (w : BitVec 1) (s : State) : Out :=
  opRR rd ra rb (wform w (fun a b => a.rotateLeft (b.toNat % 64)) (fun a b => a.rotateLeft (b.toNat % 32))) 4 s

def execSlt (rd ra rb : BitVec 5) (s : State) : Out := opRR rd ra rb (fun a b => boolWord (Cond.lt.holds a b)) 4 s

def execSltn (rd ra rb : BitVec 5) (s : State) : Out := opRR rd ra rb (fun a b => boolWord (Cond.ltn.holds a b)) 4 s

def execMin (rd ra rb : BitVec 5) (s : State) : Out := opRR rd ra rb (fun a b => if Cond.lt.holds b a then b else a) 4 s

def execMax (rd ra rb : BitVec 5) (s : State) : Out := opRR rd ra rb (fun a b => if Cond.lt.holds a b then b else a) 4 s

def execMinn (rd ra rb : BitVec 5) (s : State) : Out := opRR rd ra rb (fun a b => if Cond.ltn.holds b a then b else a) 4 s

def execMaxn (rd ra rb : BitVec 5) (s : State) : Out := opRR rd ra rb (fun a b => if Cond.ltn.holds a b then b else a) 4 s

def execMul (rd ra rb : BitVec 5) (w : BitVec 1) (s : State) : Out := opRR rd ra rb (wform w (· * ·) (· * ·)) 4 s

def execMulh (rd ra rb : BitVec 5) (s : State) : Out := opRR rd ra rb (mulHigh true) 4 s

def execMulhn (rd ra rb : BitVec 5) (s : State) : Out := opRR rd ra rb (mulHigh false) 4 s

def execDiv (rd ra rb : BitVec 5) (w : BitVec 1) (s : State) : Out := opRR rd ra rb (wform w divS divS) 4 s

def execDivn (rd ra rb : BitVec 5) (w : BitVec 1) (s : State) : Out := opRR rd ra rb (wform w divU divU) 4 s

def execRem (rd ra rb : BitVec 5) (w : BitVec 1) (s : State) : Out := opRR rd ra rb (wform w remS remS) 4 s

def execRemn (rd ra rb : BitVec 5) (w : BitVec 1) (s : State) : Out := opRR rd ra rb (wform w remU remU) 4 s

def execClz (rd ra : BitVec 5) (w : BitVec 1) (s : State) : Out := writeX rd (wform1 w clzB clzB (s.x ra)) 4 s

def execCtz (rd ra : BitVec 5) (w : BitVec 1) (s : State) : Out := writeX rd (wform1 w ctzB ctzB (s.x ra)) 4 s

def execPopc (rd ra : BitVec 5) (w : BitVec 1) (s : State) : Out := writeX rd (wform1 w popcB popcB (s.x ra)) 4 s

def execBswap (rd ra : BitVec 5) (w : BitVec 1) (s : State) : Out :=
  writeX rd (wform1 w (bswapB 8) (bswapB 4) (s.x ra)) 4 s

/-- The width of SEXT and ZEXT: 8, 16 or 32 bits (R82). -/
def extWidth (width : BitVec 2) : Nat := 8 * 2 ^ width.toNat

def execSext (rd ra : BitVec 5) (width : BitVec 2) (s : State) : Out :=
  writeX rd (sext64 ((s.x ra).setWidth (extWidth width))) 4 s

def execZext (rd ra : BitVec 5) (width : BitVec 2) (s : State) : Out :=
  writeX rd (zext64 ((s.x ra).setWidth (extWidth width))) 4 s

/-! ## Immediate forms (R110, R111) -/

/-- A function of a register and a sign-extended immediate. -/
def opRI {n : Nat} (rd ra : BitVec 5) (imm : BitVec n) (f : Word → Word → Word) (len : Nat) (s : State) : Out :=
  writeX rd (f (s.x ra) (sext64 imm)) len s

def execAddi (rd ra : BitVec 5) (imm : BitVec 15) (s : State) : Out := opRI rd ra imm (· + ·) 4 s

def execAndi (rd ra : BitVec 5) (imm : BitVec 15) (s : State) : Out := opRI rd ra imm (· &&& ·) 4 s

def execOri (rd ra : BitVec 5) (imm : BitVec 15) (s : State) : Out := opRI rd ra imm (· ||| ·) 4 s

def execXori (rd ra : BitVec 5) (imm : BitVec 15) (s : State) : Out := opRI rd ra imm (· ^^^ ·) 4 s

/-- A shift by an amount, at 64 bits, or with W at 32 bits by amount[4:0] sign-extended (R110). -/
def shiftImm (rd ra : BitVec 5) (amt : BitVec 6) (w : BitVec 1) (f : Word → Nat → Word) (g : BitVec 32 → Nat → BitVec 32)
    (len : Nat) (s : State) : Out :=
  writeX rd (wform1 w (fun a => f a amt.toNat) (fun a => g a (amt.toNat % 32)) (s.x ra)) len s

def execSlli (rd ra : BitVec 5) (amt : BitVec 6) (w : BitVec 1) (s : State) : Out :=
  shiftImm rd ra amt w (· <<< ·) (· <<< ·) 4 s

def execSrli (rd ra : BitVec 5) (amt : BitVec 6) (w : BitVec 1) (s : State) : Out :=
  shiftImm rd ra amt w (· >>> ·) (· >>> ·) 4 s

def execSrai (rd ra : BitVec 5) (amt : BitVec 6) (w : BitVec 1) (s : State) : Out :=
  shiftImm rd ra amt w BitVec.sshiftRight BitVec.sshiftRight 4 s

def execRoli (rd ra : BitVec 5) (amt : BitVec 6) (w : BitVec 1) (s : State) : Out :=
  shiftImm rd ra amt w BitVec.rotateLeft BitVec.rotateLeft 4 s

def execSlti (rd ra : BitVec 5) (imm : BitVec 15) (s : State) : Out :=
  opRI rd ra imm (fun a i => boolWord (Cond.lt.holds a i)) 4 s

def execSltni (rd ra : BitVec 5) (imm : BitVec 15) (s : State) : Out :=
  opRI rd ra imm (fun a i => boolWord (Cond.ltn.holds a i)) 4 s

/-- MOVW (R111): a 16-bit immediate at bit 16k, over zero or over the old value. -/
def execMovw (rd : BitVec 5) (k : BitVec 2) (keep : BitVec 1) (imm : BitVec 16) (s : State) : Out :=
  let sh := 16 * k.toNat
  let v : Word := zext64 imm <<< sh
  writeX rd (if keep = 0 then v else (s.x rd &&& ~~~((0xFFFF : Word) <<< sh)) ||| v) 4 s

/-! ## Compact forms of these instructions (R66) -/

def execCAddi (rd : BitVec 5) (imm : BitVec 6) (s : State) : Out := opRI rd rd imm (· + ·) 2 s

def execCMov (rd rs : BitVec 5) (s : State) : Out := opRR rd rs 0 (· + ·) 2 s

def execCAdd (rd rs : BitVec 5) (s : State) : Out := opRR rd rd rs (· + ·) 2 s

def execCSub (rd rs : BitVec 5) (s : State) : Out := opRR rd rd rs (· - ·) 2 s

def execCSlli (rd : BitVec 5) (amt : BitVec 6) (s : State) : Out := shiftImm rd rd amt 0 (· <<< ·) (· <<< ·) 2 s

def execCSrli (rd : BitVec 5) (amt : BitVec 6) (s : State) : Out := shiftImm rd rd amt 0 (· >>> ·) (· >>> ·) 2 s

def execCAndi (rd : BitVec 5) (imm : BitVec 6) (s : State) : Out := opRI rd rd imm (· &&& ·) 2 s

/-! ## Branches and jumps (R113, R114) -/

/-- A branch: taken, it goes 2 × off from its own address; else on past the word. -/
def branch {n : Nat} (c : Cond) (ra rb : BitVec 5) (off : BitVec n) (len : Nat) (s : State) : Out :=
  .next (if c.holds (s.x ra) (s.x rb) then s.jump (s.core.sq.pc + 2 * sext64 off) else s.adv len)

def execBeq (ra rb : BitVec 5) (off : BitVec 15) (s : State) : Out := branch .eq ra rb off 4 s

def execBne (ra rb : BitVec 5) (off : BitVec 15) (s : State) : Out := branch .ne ra rb off 4 s

def execBlt (ra rb : BitVec 5) (off : BitVec 15) (s : State) : Out := branch .lt ra rb off 4 s

def execBge (ra rb : BitVec 5) (off : BitVec 15) (s : State) : Out := branch .ge ra rb off 4 s

def execBltn (ra rb : BitVec 5) (off : BitVec 15) (s : State) : Out := branch .ltn ra rb off 4 s

def execBgen (ra rb : BitVec 5) (off : BitVec 15) (s : State) : Out := branch .gen ra rb off 4 s

/-- JAL: the link, then the jump from the instruction's own address. -/
def jumpAndLink {n : Nat} (rd : BitVec 5) (off : BitVec n) (len : Nat) (s : State) : Out :=
  .next ((s.setX rd (s.core.sq.pc + BitVec.ofNat 64 len)).jump (s.core.sq.pc + 2 * sext64 off))

/-- JALR: the target from the old ra; a target with bit 0 set raises MISALIGNED at the JALR, BADADDR the target (R57). -/
def jumpReg {n : Nat} (rd ra : BitVec 5) (imm : BitVec n) (len : Nat) (s : State) : Out :=
  let t := s.x ra + sext64 imm
  if t.getLsbD 0 then .next (s.raise .misaligned t)
  else .next ((s.setX rd (s.core.sq.pc + BitVec.ofNat 64 len)).jump t)

def execJal (rd : BitVec 5) (off : BitVec 20) (s : State) : Out := jumpAndLink rd off 4 s

def execJalr (rd ra : BitVec 5) (imm : BitVec 15) (s : State) : Out := jumpReg rd ra imm 4 s

def execCBeqz (ra : BitVec 5) (off : BitVec 6) (s : State) : Out := branch .eq ra 0 off 2 s

def execCBnez (ra : BitVec 5) (off : BitVec 6) (s : State) : Out := branch .ne ra 0 off 2 s

def execCJ (off : BitVec 11) (s : State) : Out := jumpAndLink 0 off 2 s

def execCRet (s : State) : Out := jumpReg 0 1 (0 : BitVec 15) 2 s

end Sys2Proof.Machine
end

