-- ==== Sys2Proof/Machine/LoadStore.lean ====
section
/-! DEFINITION. The loads and stores of the SQ (R112) and the speculative region they respect (R115-R121). -/

namespace Sys2Proof.Machine

/-! ## The speculative region -/

/-- The held stores are released in program order as ordinary stores (R118). -/
def State.releaseHeld (s : State) : State :=
  let s' := s.core.sq.spec.held.foldl
    (fun s h => s.storeAcc (sqHolders s.cur) (allocOf h.hint) h.tlb h.pa (leBytes h.size h.data.toNat)) s
  { s' with core.sq.spec.held := [] }

/-- The engines whose outcome queues hold the outstanding checks. -/
def State.checkEngines (s : State) : List Engine := s.core.sq.spec.checks.filterMap fun c => Engine.ofId c.unit.toNat

/-- A resolution point whose checks have all matched: the region commits its work so far and takes a fresh checkpoint (R120). -/
def State.implicitCommit (s : State) : State :=
  let s := s.releaseHeld
  { s with
    core.sq.resolvedAt := some s.core.sq.pc
    core.sq.spec := { s.core.sq.spec with chkpt := s.core.sq.x, resolves := sat16 s.core.sq.spec.resolves 1 } }

/-- A resolution point (R120): outside a region, or with every check resolved, the instruction goes on; else the SQ waits. An
instruction that then waits does not commit again. -/
def State.resolve (s : State) (go : State → Out) : Out :=
  if !s.core.sq.spec.act || s.core.sq.resolvedAt = some s.core.sq.pc then go s
  else if s.core.sq.spec.checks.isEmpty then go s.implicitCommit
  else .next (s.waitOn s.checkEngines)

/-! ## Loads and stores -/

/-- The size of an sz code (R62). -/
def szBytes (sz : BitVec 2) : Nat := 2 ^ sz.toNat

/-- A value of `n` bytes extended into a register. -/
def extendTo (sign : Bool) (n v : Nat) : Word :=
  if sign then sext64 (BitVec.ofNat (8 * n) v) else BitVec.ofNat 64 v

/-- The held byte at a physical address: the youngest held store that covers it (R116). -/
def heldByte (held : List Held) (a : Nat) : Option Byte :=
  held.reverse.findSome? fun h =>
    if h.pa ≤ a && a < h.pa + h.size then some (BitVec.ofNat 8 (h.data.toNat / 256 ^ (a - h.pa))) else none

/-- The `n` bytes of a load in a region: held bytes first, then memory's. -/
def overlay (held : List Held) (pa n : Nat) (bs : List Byte) : List Byte :=
  (List.range n).map fun k => (heldByte held (pa + k)).getD (bs.getD k 0)

/-- Every byte of an access comes from held stores. -/
def allHeld (held : List Held) (pa n : Nat) : Bool := (List.range n).all fun k => (heldByte held (pa + k)).isSome

/-- The value of an SQ load, after translation: held bytes, the mark of its sector, memory (R112, R116). -/
def loadValue (hs : List Holder) (pa n : Nat) (t : Tlb) (al : Alloc) (s : State) (bad : Word) (go : Nat → State → Out) : Out :=
  let held := s.core.sq.spec.held
  if allHeld held pa n then go (leNat (overlay held pa n [])) s
  else if s.hostBusy pa then .next s
  else match s.marked hs t pa n with
    | some (_, c) => .next (s.raise c bad)
    | none =>
      let (bs, s) := s.loadPhys hs al t pa n
      go (leNat (overlay held pa n bs)) s

/-- A load of the SQ (R112): MISALIGNED, the page faults, then the mark of its sector. -/
def sqLoad (rd : BitVec 5) (ea : Word) (n : Nat) (sign : Bool) (al : Alloc) (len : Nat) (s : State) : Out :=
  if ea.toNat % n ≠ 0 then .next (s.raise .misaligned ea)
  else s.withPa { read := true } ea fun pa t s =>
    loadValue (sqHolders s.cur) pa n t al s ea fun v s => writeX rd (extendTo sign n v) len s.awaitReply

/-- A store of the SQ with a hint, 3 for none (R112): inside a region it is held, the 65th held store being a resolution point (R120). -/
def sqStore (v ea : Word) (n : Nat) (cls : BitVec 4) (hint : BitVec 2) (len : Nat) (s : State) : Out :=
  if ea.toNat % n ≠ 0 then .next (s.raise .misaligned ea)
  else s.withPa { write := true } ea fun pa t s =>
    let hold (s : State) : Out :=
      let h : Held := { pa := pa, tlb := t, size := n, cls := cls, hint := hint, data := v }
      .next (State.adv { s with core.sq.spec.held := s.core.sq.spec.held ++ [h] } len)
    if !s.core.sq.spec.act then .next ((s.storeAcc (sqHolders s.cur) (allocOf hint) t pa (leBytes n v.toNat)).adv len)
    else if s.core.sq.spec.held.length < 64 then hold s
    else s.resolve hold

/-- The address of formats M and MH: the offset counts in units of the size (R59). -/
def scaledAddr {n : Nat} (ra : BitVec 5) (off : BitVec n) (sz : BitVec 2) (s : State) : Word :=
  s.x ra + sext64 off * BitVec.ofNat 64 (szBytes sz)

def execLd (rd ra : BitVec 5) (_cls : BitVec 4) (sz : BitVec 2) (off : BitVec 9) (s : State) : Out :=
  sqLoad rd (scaledAddr ra off sz s) (szBytes sz) true .all 4 s

def execLdn (rd ra : BitVec 5) (_cls : BitVec 4) (sz : BitVec 2) (off : BitVec 9) (s : State) : Out :=
  sqLoad rd (scaledAddr ra off sz s) (szBytes sz) false .all 4 s

def execSt (rd ra : BitVec 5) (cls : BitVec 4) (sz : BitVec 2) (off : BitVec 9) (s : State) : Out :=
  sqStore (s.x rd) (scaledAddr ra off sz s) (szBytes sz) cls 3 4 s

def execLdx (rd ra : BitVec 5) (_cls : BitVec 4) (sz hint : BitVec 2) (off : BitVec 6) (s : State) : Out :=
  sqLoad rd (scaledAddr ra off sz s) (szBytes sz) true (allocOf hint) 4 s

def execLdxn (rd ra : BitVec 5) (_cls : BitVec 4) (sz hint : BitVec 2) (off : BitVec 6) (s : State) : Out :=
  sqLoad rd (scaledAddr ra off sz s) (szBytes sz) false (allocOf hint) 4 s

def execStx (rd ra : BitVec 5) (cls : BitVec 4) (sz hint : BitVec 2) (off : BitVec 6) (s : State) : Out :=
  sqStore (s.x rd) (scaledAddr ra off sz s) (szBytes sz) cls hint 4 s

/-- C.LD: ld.d rd, [sp + 8k], k unsigned (R65, R66). -/
def execCLd (rd : BitVec 5) (off : BitVec 6) (s : State) : Out :=
  sqLoad rd (s.x 2 + zext64 off * 8) 8 true .all 2 s

/-- C.ST: st.d [sp + 8k], rd. -/
def execCSt (rd : BitVec 5) (off : BitVec 6) (s : State) : Out := sqStore (s.x rd) (s.x 2 + zext64 off * 8) 8 0 3 2 s

/-! ## SPEC, COMMIT, ABORT, SPECQ (R115, R118, R121) -/

/-- SPEC opens a region at the next instruction: checkpoint, handler, ACT. Inside a region it is a resolution point, after which
it takes a fresh checkpoint and replaces the handler. -/
def execSpec (off : BitVec 20) (s : State) : Out :=
  s.resolve fun s =>
    .next (State.adv { s with
      core.sq.spec :=
        { s.core.sq.spec with act := true, chkpt := s.core.sq.x, handler := s.core.sq.pc + 2 * sext64 off } } 4)

/-- COMMIT waits for every check, releases the held stores and closes the region; outside one it does nothing. -/
def execCommit (s : State) : Out :=
  if !s.core.sq.spec.act then .next (s.adv 4)
  else if s.core.sq.spec.checks.isEmpty then
    .next (State.adv { s.releaseHeld with core.sq.spec.act := false } 4)
  else .next (s.waitOn s.checkEngines)

/-- ABORT aborts the region with REASON 1; outside one it does nothing. -/
def execAbort (s : State) : Out :=
  if s.core.sq.spec.act then .next (s.abortRegion 1 0) else .next (s.adv 4)

/-- SPECST (R121): CHK reports a count of 4 as 3. -/
def State.specst (s : State) : Word :=
  let p := s.core.sq.spec
  BitVec.ofNat 64 ((if p.act then 1 else 0) + min p.checks.length 3 * 2 + p.held.length * 2 ^ 3 + p.reason.toNat * 2 ^ 10 +
    p.resolves.toNat * 2 ^ 16 + p.fcause.toNat * 2 ^ 32)

/-- SPECQ writes SPECST into rd without waiting. -/
def execSpecq (rd : BitVec 5) (s : State) : Out := writeX rd s.specst 4 s

end Sys2Proof.Machine
end

