-- ==== Sys2Proof/Machine/Atomic.lean ====
section
/-! DEFINITION. The ordered accesses and atomics (R296-R301), publication (R339, R341) and cache maintenance (R321). -/

namespace Sys2Proof.Machine

/-- The effective scope (R291). -/
def State.capScope (s : State) (scope : BitVec 3) : Nat := min scope.toNat s.core.sq.maxscope.toNat

/-- An edge-making instruction at a scope wider than MAXSCOPE counts in DEMOTE (R291). -/
def State.countDemote (s : State) (scope : BitVec 3) (edge : Bool) : State :=
  if edge && s.core.sq.maxscope.toNat < scope.toNat then { s with core.sq.demote := sat32 s.core.sq.demote 1 } else s

/-- A release or fence at effective scope .sys waits until the host link has delivered the posted writes (R295); every other
access has performed in the step that made it (assumption log 2). -/
def State.releaseWaits (s : State) (scope : BitVec 3) (edge : Bool) : Bool :=
  edge && s.capScope scope = 6 && !s.store.posted.isEmpty

/-- The access size of a format-A instruction (R296). -/
def wideBytes (wide : BitVec 1) : Nat := if wide = 1 then 8 else 4

/-- The holders on the way of a format-A access: on a non-coherent page none, since it performs at the line's home, after the core has
written back and dropped its copies of the line (R296). -/
def State.atHome (s : State) (t : Tlb) (pa : Nat) : State × List Holder :=
  if t.nc then (s.ncFlushLine pa, []) else (s, sqHolders s.cur)

/-- A resolution point where the condition holds, else an ordinary instruction. -/
def State.resolveIf (s : State) (b : Bool) (go : State → Out) : Out := if b then s.resolve go else go s

/-- LDO (R297): with acquire it is a resolution point, without it an LD. -/
def execLdo (rd ra : BitVec 5) (_cls : BitVec 4) (scope : BitVec 3) (ord : BitVec 2) (wide : BitVec 1) (s : State) : Out :=
  s.resolveIf (ord = 1) fun s =>
    let ea := s.x ra
    let n := wideBytes wide
    if ea.toNat % n ≠ 0 then .next (s.raise .misaligned ea)
    else s.withPa { read := true } ea fun pa t s =>
      let (s, hs) := s.atHome t pa
      loadValue hs pa n t .all s ea fun v s => writeX rd (extendTo true n v) 4 (s.countDemote scope (ord = 1)).awaitReply

/-- STO (R298): a resolution point; with release it waits for every access ordered before it. -/
def execSto (ra rb : BitVec 5) (_cls : BitVec 4) (scope : BitVec 3) (ord : BitVec 2) (wide : BitVec 1) (s : State) : Out :=
  s.resolve fun s =>
    let ea := s.x ra
    let n := wideBytes wide
    if ea.toNat % n ≠ 0 then .next (s.raise .misaligned ea)
    else s.withPa { write := true } ea fun pa t s =>
      if s.releaseWaits scope (ord = 2) then .next s
      else
        let (s, hs) := s.atHome t pa
        .next (((s.storeAcc hs .all t pa (leBytes n (s.x rb).toNat)).countDemote scope (ord = 2)).adv 4)

/-- An atomic (R299, R300): reads, combines and writes one location as one event. `f` gives the new value, or none where nothing
is written; `host` says that the operation travels as a PCIe AtomicOp. -/
def atomicOp (rd ra : BitVec 5) (scope : BitVec 3) (ord : BitVec 2) (wide : BitVec 1) (host : Bool)
    (f : Nat → Nat → State → Option Nat) (s : State) : Out :=
  s.resolve fun s =>
    let ea := s.x ra
    let n := wideBytes wide
    if ea.toNat % n ≠ 0 then .next (s.raise .misaligned ea)
    else s.withPa { read := true, write := true } ea fun pa t s =>
      if isHost pa && !host then .next (s.raise .pageWrite ea)
      else if s.hostBusy pa then .next s
      else
        let (s, hs) := s.atHome t pa
        match s.marked hs t pa n with
        | some (_, c) => .next (s.raise c ea)
        | none =>
          if s.releaseWaits scope (ord = 2 || ord = 3) then .next s
          else
            let (bs, s) := s.loadPhys hs .all t pa n
            let old := leNat bs
            let s' := match f n old s with
              | some v => s.storeAcc hs .all t pa (leBytes n v)
              | none => s
            writeX rd (extendTo true n old) 4 (s'.countDemote scope (ord ≠ 0)).awaitReply

/-- A value of `n` bytes read as signed. -/
def signedOf (n v : Nat) : Int := (BitVec.ofNat (8 * n) v).toInt

/-- An AMO: the operand is x[rb] at the access size; the write part always takes place. -/
def amo (f : Nat → Nat → Nat → Nat) (host : Bool) (rd ra rb : BitVec 5) (scope : BitVec 3) (ord : BitVec 2) (wide : BitVec 1)
    (s : State) : Out :=
  atomicOp rd ra scope ord wide host (fun n old s => some (f n old ((s.x rb).toNat % 256 ^ n) % 256 ^ n)) s

def execAmoadd (rd ra rb : BitVec 5) (_cls : BitVec 4) (scope : BitVec 3) (ord : BitVec 2) (wide : BitVec 1) (s : State) : Out :=
  amo (fun _ a b => a + b) true rd ra rb scope ord wide s

def execAmoand (rd ra rb : BitVec 5) (_cls : BitVec 4) (scope : BitVec 3) (ord : BitVec 2) (wide : BitVec 1) (s : State) : Out :=
  amo (fun _ a b => a &&& b) false rd ra rb scope ord wide s

def execAmoor (rd ra rb : BitVec 5) (_cls : BitVec 4) (scope : BitVec 3) (ord : BitVec 2) (wide : BitVec 1) (s : State) : Out :=
  amo (fun _ a b => a ||| b) false rd ra rb scope ord wide s

def execAmoxor (rd ra rb : BitVec 5) (_cls : BitVec 4) (scope : BitVec 3) (ord : BitVec 2) (wide : BitVec 1) (s : State) : Out :=
  amo (fun _ a b => a ^^^ b) false rd ra rb scope ord wide s

def execAmomin (rd ra rb : BitVec 5) (_cls : BitVec 4) (scope : BitVec 3) (ord : BitVec 2) (wide : BitVec 1) (s : State) : Out :=
  amo (fun n a b => if signedOf n b < signedOf n a then b else a) false rd ra rb scope ord wide s

def execAmomax (rd ra rb : BitVec 5) (_cls : BitVec 4) (scope : BitVec 3) (ord : BitVec 2) (wide : BitVec 1) (s : State) : Out :=
  amo (fun n a b => if signedOf n a < signedOf n b then b else a) false rd ra rb scope ord wide s

def execAmominn (rd ra rb : BitVec 5) (_cls : BitVec 4) (scope : BitVec 3) (ord : BitVec 2) (wide : BitVec 1) (s : State) : Out :=
  amo (fun _ a b => min a b) false rd ra rb scope ord wide s

def execAmomaxn (rd ra rb : BitVec 5) (_cls : BitVec 4) (scope : BitVec 3) (ord : BitVec 2) (wide : BitVec 1) (s : State) : Out :=
  amo (fun _ a b => max a b) false rd ra rb scope ord wide s

def execAmoswp (rd ra rb : BitVec 5) (_cls : BitVec 4) (scope : BitVec 3) (ord : BitVec 2) (wide : BitVec 1) (s : State) : Out :=
  amo (fun _ _ b => b) true rd ra rb scope ord wide s

/-- CAS (R300): the expected value is x[rd], 0 for x0; a failed comparison writes nothing. -/
def execCas (rd ra rb : BitVec 5) (_cls : BitVec 4) (scope : BitVec 3) (ord : BitVec 2) (wide : BitVec 1) (s : State) : Out :=
  atomicOp rd ra scope ord wide true
    (fun n old s => if old = (s.x rd).toNat % 256 ^ n then some ((s.x rb).toNat % 256 ^ n) else none) s

/-- FENCE.C (R301): an empty mask and scope .lane complete at once; the accesses it orders have performed. -/
def execFenceC (scope : BitVec 3) (mask : BitVec 16) (s : State) : Out :=
  s.resolve fun s =>
    if s.releaseWaits scope (mask ≠ 0) then .next s
    else .next ((s.countDemote scope (mask ≠ 0)).adv 4)

/-! ## Ranges of pages -/

/-- The translations of a range of virtual addresses, page by page in ascending order: the pieces, or the first fault with the
first byte of the range on its page, or a park. -/
inductive Pages where
  | ok (ps : List (Nat × Nat × Tlb)) (s : State)
  | fault (c : Cause) (va : Nat) (s : State)
  | park (line : Nat) (s : State)

/-- The pages of [va, stop), each translated for a kind of access (R321, R339). -/
def State.pages (s : State) (ag : Agent) (k : Kind) (stop : Nat) : Nat → Nat → List (Nat × Nat × Tlb) → Pages
  | 0, _, acc => .ok acc.reverse s
  | fuel + 1, va, acc =>
    if stop ≤ va then .ok acc.reverse s
    else match s.translate ag k (BitVec.ofNat 64 va) with
      | .fault c s => .fault c va s
      | .park l s => .park l s
      | .ok pa t s =>
        let n := min (t.base % 2 ^ 64 + t.size) stop - va
        let n := if n = 0 then 1 else n
        s.pages ag k stop fuel (va + n) ((pa, n, t) :: acc)

/-- The address of the page of a byte: that of the leaf that maps it, else of the smallest page (assumption log 20). -/
def State.pageStart (s : State) (va : Nat) : Nat :=
  let w := s.walk (BitVec.ofNat 64 va)
  let size := if canonical (BitVec.ofNat 64 va) && seg w.entry 0 1 = 1 && !w.bad then leafSize w.level w.entry else 4096
  va / size * size

/-- The range [x[ra], x[ra] + x[rb]) of PUBC and CACHE: complete at length 0, MISALIGNED past the top of the address space, every
translation fault, at the address of its page, before any effect. -/
def withRange (ra rb : BitVec 5) (k : Kind) (s : State) (go : List (Nat × Nat × Tlb) → State → Out) : Out :=
  let a := (s.x ra).toNat
  let n := (s.x rb).toNat
  if n = 0 then .next (s.adv 4)
  else if 2 ^ 64 < a + n then .next (s.raise .misaligned (s.x ra))
  else match s.pages s.sqAgent k (a + n) (n / 4096 + 2) a [] with
    | .fault c va s => .next (s.unpark.raise c (BitVec.ofNat 64 (s.pageStart va)))
    | .park l s => .next (s.parkSq l)
    | .ok ps s => go ps s.unpark

/-- The core of a fetch holder. -/
def holderCore : Holder → Nat
  | .dcache c => c | .icache c => c | .loopBuf c _ => c | .plates q => 4 * q | .cluster q => 4 * q | .l2 d => 64 * d

/-- The fetch copies of a sector of code within a scope are invalidated through the fetch records (R327, R339), for a page with the window bit
or without: of the core itself, of its quad, of its die, of the package. -/
def State.dropCode (s : State) (scope : Nat) (k : Nat) (window : Bool) : State :=
  let own := s.core.sq.ctxid
  if scope ≤ 1 then
    { s with store.fetch := s.store.fetch.filter fun c => !(c.sector = k && holderCore c.holder = s.cur) }
  else if scope = 2 then s.dropFetch (s.cur / 64) k (fun q => q = s.cur / 4) own window
  else if scope = 3 then s.dropFetch (s.cur / 64) k (fun _ => true) own window
  else (List.range 5).foldl (fun s d => s.dropFetch d k (fun _ => true) own window) s

/-- PUBC (R339): the U bits of the code sectors of the range are cleared, then the fetch copies within scope are dropped. -/
def State.publish (s : State) (scope : Nat) (ks : List (Nat × Bool)) : State :=
  ks.foldl (fun s k => s.dropCode scope k.1 k.2)
    { s with store.ubit := s.store.ubit.filter fun k => !ks.any fun x => x.1 = k }

/-- PUBC: a resolution point and a refetch point; the scope is capped without DEMOTE. The core's earlier stores to the range perform at home
first: what its caches still hold of a non-coherent page is written there, and a write that the host link carries is awaited. -/
def execPubc (ra rb : BitVec 5) (scope : BitVec 3) (s : State) : Out :=
  s.resolve fun s =>
    withRange ra rb { read := true } s fun ps s =>
      if ps.any fun p => s.hostBusy p.1 then .next s
      else
        let all := ps.flatMap fun p => (sectorsOf p.1 p.2.1).map fun k => (k, p.2.2.xsh)
        let s := all.foldl (fun s k => s.ncFlush (sqHolders s.cur) k.1) s
        .next ((s.publish (min (s.capScope scope) 4) (all.filter fun k => s.store.isCode (64 * k.1))).adv 4)

/-- A word with a field of `width` bits at `off` replaced. -/
def patchField (old : BitVec 32) (off width : Nat) (v : Word) : BitVec 32 :=
  let mask : BitVec 32 := BitVec.ofNat 32 ((2 ^ width - 1) * 2 ^ off)
  (old &&& ~~~mask) ||| ((v.setWidth 32 <<< off) &&& mask)

/-- PATCH (R341), on a non-coherent page at the line's home, as the atomics: one aligned 32-bit word, in memory or, under a scratchpad
reference, in the window of the group. -/
def execPatch (ra rb : BitVec 5) (off width : BitVec 5) (s : State) : Out :=
  s.resolve fun s =>
    let ea := s.x ra
    let new (bs : List Byte) : List Byte :=
      leBytes 4 (patchField (BitVec.ofNat 32 (leNat bs)) off.toNat (width.toNat + 1) (s.x rb)).toNat
    if spadRef ea then
      let o := ea.toNat % 2 ^ 23 / 4 * 4
      .next ((s.spadWrite o (new (s.spadRead o 4))).adv 4)
    else if ea.toNat % 4 ≠ 0 then .next (s.raise .misaligned ea)
    else s.withPa { read := true, write := true } ea fun pa t s =>
      if s.hostBusy pa then .next s
      else
        let (s, hs) := s.atHome t pa
        match s.marked hs t pa 4 with
        | some (_, c) => .next (s.raise c ea)
        | none =>
          let (bs, s) := s.loadPhys hs .all t pa 4
          .next ((s.storeAcc hs .all t pa (new bs)).awaitReply.adv 4)

/-! ## CACHE (R321) -/

/-- The copy of a non-coherent sector is written to the level below and stays, clean. -/
def State.ncClean (s : State) (h below : Holder) (k : Nat) (home : Bool) : State :=
  match s.store.ncOf h k with
  | none => s
  | some c =>
    if !c.dirty then s
    else
      let s := { s with store := s.store.ncSet { c with dirty := false } }
      if home then s.writeBack c
      else { s with store := s.store.ncSet { holder := below, sector := k, data := c.data, dirty := true, mark := c.mark } }

/-- CACHE on a sector of a non-coherent page: `deep` reaches the die's L2. -/
def State.cacheNc (s : State) (op : Nat) (deep : Bool) (k : Nat) : State :=
  let d := Holder.dcache s.cur
  let l := Holder.l2 s.dieNo
  let s := if op = 1 then s else
    let s := s.ncClean d l k false
    if deep then s.ncClean l l k true else s
  if op = 0 then s
  else
    let s := { s with store := s.store.ncDrop d k }
    if deep then { s with store := s.store.ncDrop l k } else s

/-- An M copy is written back and kept in E: that of a core into its die's L2, that of an L2 to the home. -/
def Coh.clean (c : Coh) (h : Holder) (k : Nat) : Coh :=
  match c.copyOf h k with
  | some x =>
    if x.st ≠ .m then c
    else
      let c := c.setCopy h k (some .e) x.num
      match h, c.copyOf (.cluster (holderQuad h)) k with
      | .dcache _, some y => if y.st = .m then c.setCopy (.cluster (holderQuad h)) k (some .e) y.num else c
      | _, _ => c
  | none => c

/-- The data caches of a die have given a sector up: its clusters keep only the plate banks that CACHE does not touch, and a cluster with
none of them leaves the die's record. -/
def Coh.prune (c : Coh) (d k : Nat) : Coh :=
  let plates (x : Holder × Option (BitVec 8)) : Bool := match x.1 with | .plates _ => true | _ => false
  let c := { c with dirs := c.dirs.map fun (e : DirEnt) =>
    match e.dir with
    | .cluster q => if e.sector = k && q / 16 = d then { e with owner := none, ownerNum := none, sharers := e.sharers.filter plates } else e
    | _ => e }
  let quads := (List.range 16).map (16 * d + ·)
  let empty := quads.filter fun q => (c.dirEnt (.cluster q) k).sharers.isEmpty
  let e := c.dirEnt (.die d) k
  let gone (h : Holder) : Bool := empty.any fun q => h = .cluster q
  let e := { e with
    owner := e.owner.filter fun h => !gone h
    sharers := if e.coarse && empty.length < 16 then e.sharers else e.sharers.filter fun x => !gone x.1 }
  (empty.foldl (fun (c : Coh) q => c.setCopy (.cluster q) k none) c).setDirEnt e

/-- CACHE on a sector of a coherent page: an M copy within depth is written back; INVAL and FLUSH drop the copies within depth. Under a plate
copy, which CACHE does not touch, the L2 keeps its copy, clean, because it is never left in I beneath a copy of a quad (R315, R321;
assumption log 78). -/
def State.cacheCoh (s : State) (op : Nat) (deep : Bool) (k : Nat) : State :=
  let d := Holder.dcache s.cur
  let l := Holder.l2 s.dieNo
  let s := s.settle k
  let drop (s : State) (h : Holder) : State := State.settle { s with store.coh := s.store.coh.replace h k } k
  if op = 0 then
    let c := s.store.coh.clean d k
    { s with store.coh := if deep then c.clean l k else c }
  else if deep then
    let s := (s.store.coh.copies.filter fun x => x.sector = k && holderDie x.holder = s.dieNo &&
      (match x.holder with | .dcache _ => true | _ => false)).foldl (fun s x => drop s x.holder) s
    let s := { s with store.coh := s.store.coh.prune s.dieNo k }
    if (s.store.coh.dirEnt (.die s.dieNo) k).children.isEmpty then drop s l else { s with store.coh := s.store.coh.clean l k }
  else drop s d

def execCache (ra rb : BitVec 5) (op : BitVec 2) (scope : BitVec 3) (s : State) : Out :=
  s.resolve fun s =>
    withRange ra rb (if op = 1 then { write := true } else { read := true }) s fun ps s =>
      let deep := 3 < s.capScope scope
      let one (s : State) (p : Nat × Nat × Tlb) : State :=
        (sectorsOf p.1 p.2.1).foldl (fun s k =>
          if isHost (64 * k) then s
          else if p.2.2.nc then s.cacheNc op.toNat deep k
          else s.cacheCoh op.toNat deep k) s
      .next ((ps.foldl one s).adv 4)

end Sys2Proof.Machine
end

