-- ==== Sys2Proof/Machine/Queue.lean ====
section
/-! DEFINITION. The queues as the SQ uses them: ENQ, RENQ, tokens, outcome queues, FENCE.M, and the freezing and resuming of
engines (R166-R186). -/

namespace Sys2Proof.Machine

/-! ## Command queues -/

/-- The engine has no entry in Running, Stopped or Draining and is not frozen (R169, condition 1). -/
def Eng.free (e : Eng) : Bool := (e.st = .idle || e.st = .waiting) && !e.frz

/-- Markers at the head of the queue of a free engine are removed (R182). -/
def Eng.sweep (e : Eng) : Eng :=
  if e.free then { e with q := e.q.dropWhile fun x => x = .marker } else e

/-- A slot arrives in a command queue, if it has room and no other requester has waited longer (R166, R177). -/
def Eng.accepts (e : Eng) (core : Nat) : Bool :=
  e.q.length < 32 && (e.waiters.isEmpty || e.waiters.head? = some core)

/-- A slot arrives in the queue of an engine of core `n`; the requester leaves the line. -/
def State.pushSlot (s : State) (n : Nat) (e : Engine) (x : Slot) : State :=
  let c := s.coreAt n
  let g := c.eng e
  let s' := s.setCoreAt n (c.setEng e (Eng.sweep { g with q := g.q ++ [x], waiters := g.waiters.filter fun k => k ≠ s.cur }))
  { s' with core.sq.lineUp := none }

/-- The SQ in focus joins the line for a slot. -/
def State.lineFor (s : State) (n : Nat) (e : Engine) : State :=
  let c := s.coreAt n
  let g := c.eng e
  let s' := if g.waiters.contains s.cur then s else s.setCoreAt n (c.setEng e { g with waiters := g.waiters ++ [s.cur] })
  { s' with core.sq.lineUp := some (n, e) }

/-- The entry that ENQ forms (R178): the block address converted, four argument registers from ab on, the give and take fields, the
privilege of the SQ. -/
def State.enqEntry (s : State) (ra ab : BitVec 5) (give take1 take2 take3 : BitVec 3) : Entry :=
  { addr := s.convertBlock (s.x ra)
    args := #v[s.x ab, s.x (ab + 1), s.x (ab + 2), s.x (ab + 3)]
    give := give, take1 := take1, take2 := take2, take3 := take3, priv := s.priv }

/-- ENQ (R178). -/
def execEnq (eng : BitVec 3) (ra ab : BitVec 5) (give take1 take2 take3 : BitVec 3) (s : State) : Out :=
  s.resolve fun s =>
    match Engine.ofId eng.toNat with
    | none => .next (s.raise .illegalInstruction 0)
    | some e =>
      if (s.eng e).accepts s.cur then
        .next ((s.pushSlot s.cur e (.entry (s.enqEntry ra ab give take1 take2 take3))).adv 4)
      else .next ((s.lineFor s.cur e).waitOn [e])

/-- The target of a RENQ is a core of the issuing group that has not exited (R179). -/
def State.renqTarget (s : State) (v : Word) : Bool :=
  match s.groupOf s.cur with
  | none => false
  | some g =>
    v.toNat ≤ 255 && g.first ≤ v.toNat && v.toNat < g.first + 4 ^ g.size && (s.coreAt v.toNat).sq.run ≠ .exited

/-- RENQ and RENQ.nb (R179): `nb` carries rd of the form that does not wait. A RENQ that waits for a slot of the issuing core's own engine
takes that engine's fault as an ENQ does (R101; assumption log 14). -/
def renq (nb : Option (BitVec 5)) (ra rb : BitVec 5) (eng : BitVec 3) (s : State) : Out :=
  s.resolve fun s =>
    match Engine.ofId eng.toNat with
    | none => .next (s.raise .illegalInstruction 0)
    | some e =>
      let n := (s.x rb).toNat
      if !s.renqTarget (s.x rb) then .next (s.raise .queueTarget 0)
      else if spadRef (s.x ra) && n / 4 ≠ s.quadNo then .next (s.raise .blockSpace (s.x ra))
      else
        let entry : Entry :=
          { addr := s.convertBlock (s.x ra), args := #v[BitVec.ofNat 64 s.cur, 0, 0, 0], priv := s.priv }
        let ok := ((s.coreAt n).eng e).accepts s.cur
        match nb with
        | none =>
          if ok then .next (((s.pushSlot n e (.entry entry)).countDemote 4 true).adv 4)
          else .next ((s.lineFor n e).waitOn (if n = s.cur then [e] else []))
        | some rd =>
          if ok then .next ((((s.pushSlot n e (.entry entry)).countDemote 4 true).setX rd 0).adv 4)
          else .next (((s.countDemote 4 true).setX rd 1).adv 4)

def execRenq (ra rb : BitVec 5) (eng : BitVec 3) (s : State) : Out := renq none ra rb eng s

def execRenqNb (rd ra rb : BitVec 5) (eng : BitVec 3) (s : State) : Out := renq (some rd) ra rb eng s

/-! ## Tokens (R180) -/

/-- TWAIT: one token of e→SQ is removed. -/
def twait (eng : BitVec 3) (len : Nat) (s : State) : Out :=
  s.resolve fun s =>
    let t := s.core.tokq eng.toNat 0
    if t.present = 0 then .next (s.waitOn (Engine.ofId eng.toNat).toList)
    else .next (State.adv { s with core := s.core.setTokq eng.toNat 0 { t with present := t.present - 1 } } len)

def execTwait (eng : BitVec 3) (s : State) : Out := twait eng 4 s

def execCTwait (eng : BitVec 3) (s : State) : Out := twait eng 2 s

/-- TSIG: one token is added to SQ→e where its 15 slots have room. -/
def execTsig (eng : BitVec 3) (s : State) : Out :=
  s.resolve fun s =>
    let t := s.core.tokq 0 eng.toNat
    if t.present + t.reserved < 15 then
      .next (State.adv { s with core := s.core.setTokq 0 eng.toNat { t with present := t.present + 1 } } 4)
    else .next s

/-- TCNT: the tokens present in e→SQ. -/
def execTcnt (rd : BitVec 5) (eng : BitVec 3) (s : State) : Out :=
  writeX rd (BitVec.ofNat 64 (s.core.tokq eng.toNat 0).present) 4 s

/-! ## Outcome queues (R117, R181) -/

/-- A value is popped from the queue u→SQ, becoming its last value. -/
def popSq (rd : BitVec 5) (u : Nat) (v : Word) (rest : List Word) (s : State) : Out :=
  writeX rd v 4 (State.setLast { s with core := s.core.setOutcome u 0 rest } u v)

/-- BPOP. -/
def bpop (rd : BitVec 5) (eng : BitVec 3) (s : State) : Out :=
  match s.core.outcome eng.toNat 0 with
  | v :: rest => popSq rd eng.toNat v rest s
  | [] => .next (s.waitOn (Engine.ofId eng.toNat).toList)

def execBpop (rd : BitVec 5) (eng : BitVec 3) (s : State) : Out := s.resolve fun s => bpop rd eng s

/-- BPOP.S with fewer than four checks outstanding (R117): it pops a value that no older check of its queue claims, else it
predicts the last value and records a check. -/
def bpopS (rd : BitVec 5) (eng : BitVec 3) (s : State) : Out :=
  let claimed := s.core.sq.spec.checks.any fun c => c.unit = eng
  match s.core.outcome eng.toNat 0 with
  | v :: rest => if claimed then predict s else popSq rd eng.toNat v rest s
  | [] => predict s
where
  predict (s : State) : Out :=
    let v := s.core.sq.last.getD eng.toNat 0
    writeX rd v 4 { s with core.sq.spec.checks := s.core.sq.spec.checks ++ [{ unit := eng, predicted := v }] }

/-- BPOP.S (R117): outside a region it is BPOP; with four checks outstanding a resolution point comes first, unless its own
queue has a value that no check claims. -/
def execBpopS (rd : BitVec 5) (eng : BitVec 3) (s : State) : Out :=
  let sp := s.core.sq.spec
  let ready := !(s.core.outcome eng.toNat 0).isEmpty && !(sp.checks.any fun c => c.unit = eng)
  if !sp.act then bpop rd eng s
  else if s.core.sq.stalledAt = some s.core.sq.pc || (4 ≤ sp.checks.length && !ready) then
    State.resolve { s with core.sq.stalledAt := some s.core.sq.pc } fun s => bpopS rd eng s
  else bpopS rd eng s

/-- BPUSH appends x[ra] to SQ→e where it has room. -/
def execBpush (ra : BitVec 5) (eng : BitVec 3) (s : State) : Out :=
  s.resolve fun s =>
    if s.core.outcomeRoom 0 eng.toNat then .next ((s.pushOutcome 0 eng.toNat (s.x ra)).adv 4)
    else .next (s.waitOn (Engine.ofId eng.toNat).toList)

/-! ## FENCE.M (R182) -/

/-- The engines a mask names: bit k names the engine of id k + 1 (R63). -/
def maskEngines (mask : BitVec 5) : List Engine := engines.filter fun e => mask.getLsbD (e.id - 1)

/-- The markers of a FENCE.M are pushed in ascending id, each where its queue has room; one that has been pushed is noted. -/
def State.pushMarkers (s : State) (es : List Engine) : State :=
  match es with
  | [] => s
  | e :: rest =>
    if s.core.sq.fencePushed.getLsbD e.id then s.pushMarkers rest
    else if (s.eng e).accepts s.cur then
      let s := s.pushSlot s.cur e .marker
      State.pushMarkers { s with core.sq.fencePushed := s.core.sq.fencePushed ||| (1#6 <<< e.id) } rest
    else s.lineFor s.cur e

/-- FENCE.M: it pushes a marker into each queue, and completes when no marker is left in any of them. -/
def execFenceM (mask : BitVec 5) (s : State) : Out :=
  s.resolve fun s =>
    let es := maskEngines mask
    let s := s.pushMarkers es
    if es.all fun e => s.core.sq.fencePushed.getLsbD e.id && !(s.eng e).q.contains .marker then
      .next (State.adv { s with core.sq.fencePushed := 0 } 4)
    else .next (s.waitOn (es.filter fun e => (s.eng e).q.contains .marker || !s.core.sq.fencePushed.getLsbD e.id))

/-! ## Freezing and resuming engines (R184-R186) -/

/-- ERESUME of an engine: a fault is cleared and the entry restarts at POS with a pass of R79; a freeze is cleared. -/
def Eng.resume (e : Eng) : Eng :=
  let e := if e.flt then { e with flt := false, efV := false, repass := true, st := .running } else e
  Eng.sweep { e with frz := false }

def execEresume (eng : BitVec 3) (s : State) : Out :=
  s.resolve fun s =>
    match Engine.ofId eng.toNat with
    | none => .next (s.raise .illegalInstruction 0)
    | some e => .next ((s.setEng e (s.eng e).resume).adv 4)

/-- An engine that no longer issues has stopped (R185, R364): no word of it is in execution, its AE loads have returned, its MMULs have
completed. The pending writes of a VE stop with it. -/
def Core.stopped (c : Core) (e : Engine) : Bool :=
  match e with
  | .ae => c.loads.isEmpty
  | .ve => true
  | .me => c.mex.plan.isNone && c.mex.running.isEmpty
  | .ce => !c.ce.exec
  | .xe => !c.xe.exec && c.remote.isNone

/-- An engine stops at a word boundary: the lease run of an ME ends, and a group that an LDT of the AE has reserved is given back (R185). -/
def State.freezeEngine (s : State) (e : Engine) : State :=
  if (s.eng e).frz then s
  else
    let s := if e = .me then s.endLease s.cur else if e = .ae then { s with core := s.core.giveBack } else s
    s.setEng e (s.eng e).freeze

/-- EFREEZE stops the engine at a word boundary, and waits until it has stopped (R185); an engine that is frozen stays so. -/
def execEfreeze (eng : BitVec 3) (s : State) : Out :=
  s.resolve fun s =>
    match Engine.ofId eng.toNat with
    | none => .next (s.raise .illegalInstruction 0)
    | some e =>
      let s := s.freezeEngine e
      if s.core.stopped e || (s.eng e).flt then .next (s.adv 4) else .next s

/-- STATE of ESTATE (R188). -/
def Eng.stateCode (e : Eng) : Nat :=
  if e.flt then 5
  else match e.st with
    | .idle => 0
    | .waiting => 1
    | .running => if e.frz then 5 else if e.wait = 0 then 2 else 3
    | .draining => 4
    | .stopped => 5

/-- ESTATE (R188). -/
def State.estate (s : State) (e : Engine) : Word :=
  let g := s.eng e
  BitVec.ofNat 64 (g.stateCode + g.wait.toNat * 2 ^ 4 + g.q.length * 2 ^ 18 + (if g.flt then 1 else 0) * 2 ^ 25 +
    (if g.frz then 1 else 0) * 2 ^ 26 + (if g.rtp then 1 else 0) * 2 ^ 27 + g.pos.toNat * 2 ^ 28 + g.rem.toNat * 2 ^ 40 +
    s.core.sq.spec.checks.length * 2 ^ 61)

def execEquery (rd : BitVec 5) (eng : BitVec 3) (s : State) : Out :=
  s.resolve fun s =>
    match Engine.ofId eng.toNat with
    | none => .next (s.raise .illegalInstruction 0)
    | some e => writeX rd (s.estate e) 4 s

end Sys2Proof.Machine
end

