-- ==== Sys2Proof/Machine/System.lean ====
section
/-! DEFINITION. The system instructions (R122, R123), SLEEPU (R217), the barriers (R392-R396), the priority queues (R390, R391) and
TLB invalidation (R356). -/

namespace Sys2Proof.Machine

/-! ## SYS, TIME -/

/-- TRAP raises TRAP_INSTRUCTION with INFO the code. -/
def execTrap (code : BitVec 12) (s : State) : Out := .next (s.raiseInfo .trapInstruction 0 code)

/-- BRK raises BREAKPOINT. -/
def execBrk (s : State) : Out := .next (s.raise .breakpoint 0)

/-- An instruction that R81 marks S: at U it raises PRIVILEGE with no effect (R97). -/
def privileged (s : State) (go : State → Out) : Out := if s.priv = 0 then .next (s.raise .privilege 0) else go s

/-- ERET returns from the trap. -/
def execEret (s : State) : Out := privileged s fun s => s.resolve fun s => .next s.returnFromTrap

/-- WFI waits until an asynchronous trap is pending, then goes on. -/
def execWfi (s : State) : Out :=
  privileged s fun s => s.resolve fun s =>
    if s.core.sq.pending = 0 then .next { s with core.sq.inWfi := true } else .next (s.adv 4)

/-- RDTIME writes TIME into rd. -/
def execRdtime (rd : BitVec 5) (s : State) : Out := writeX rd s.time 4 s

/-- The end of a SLEEPU (R217): with an engine named, a token of it must be present, else PROMISE_MISSED. -/
def State.sleepDone (s : State) (eng : BitVec 3) : State :=
  let s := { s with core.sq.sleep := none }
  if eng ≠ 7 ∧ (s.core.tokq eng.toNat 0).present = 0 then s.raise .promiseMissed 0 else s.adv 4

/-- SLEEPU sleeps until TIME reaches x[ra], then checks. -/
def execSleepu (ra : BitVec 5) (eng : BitVec 3) (s : State) : Out :=
  s.resolve fun s =>
    if s.time.toNat < (s.x ra).toNat then .next { s with core.sq.sleep := some (s.x ra, eng) }
    else .next (s.sleepDone eng)

/-! ## Barriers -/

/-- A barrier of a group as one member names it: its scope, its domain counted from the group's first core, and its id (R392). -/
def barKey (scope rank id : Nat) : Nat :=
  (match scope with | 2 => rank / 4 | 3 => rank / 64 | _ => 0) * 256 + scope * 32 + id

/-- A rank stands in the domain of another at a scope (R393). -/
def sameDomain (scope a b : Nat) : Bool :=
  match scope with | 2 => a / 4 = b / 4 | 3 => a / 64 = b / 64 | _ => true

/-- The members now: the ranks of the group in the domain that have not exited (R393). -/
def State.members (s : State) (g : Grp) (scope rank : Nat) : List Nat :=
  (List.range (4 ^ g.size)).filter fun r => sameDomain scope rank r && (s.coreAt (g.first + r)).sq.run ≠ .exited

/-- A trip (R395): the generation moves on, the count and the pending flags of the old generation are cleared. -/
def Barrier.trip (b : Barrier) (abort : Bool) : Barrier :=
  { b with gen := b.gen + 1, arrived := [], abort := abort, full := false, others := false }

/-- A barrier at which every member here has arrived trips, or as a pod barrier stays full until the members of the other packages have
(R394). -/
def Barrier.complete (b : Barrier) (members : Nat) (alone : Bool) : Barrier :=
  if b.arrived ≠ [] && b.arrived.length = members then
    if alone || b.others then b.trip false else { b with full := true }
  else { b with full := false }

/-- The groups with one replaced. -/
def State.setGroup (s : State) (g : Grp) : State := { s with groups := s.groups.map fun h => if h.id = g.id then g else h }

/-- An arrival, and the trip where it completes the count (R395). -/
def Barrier.arrive (b : Barrier) (rank members : Nat) (alone : Bool) : Barrier :=
  Barrier.complete { b with arrived := rank :: b.arrived, pendgen := smSet b.pendgen rank b.gen } members alone

/-- The last member here has arrived at a pod barrier of a group: the other packages are told (R394). -/
def State.announce (s : State) (g : Grp) (id : Nat) (was now : Barrier) : State :=
  if now.full && !was.full then s.emit (.podArrived g.id id) else s

/-- The pod barriers of this package trip on local arrivals alone (R394). -/
def State.alone (s : State) (scope : Nat) : Bool := scope ≠ 5 || s.mgmt.barpod = 1

/-- A barrier word: BARA arrives, BARW waits, BARAW arrives unless an arrival is pending, and then waits (R396). It counts in DEMOTE
when it arrives or begins to wait, once (R291). A word that a trap or a freeze has abandoned only waits when it is executed again (R398).
A core of no group is the only member of its barriers, and every arrival trips at once (assumption log 11). -/
def barrier (arrives waits : Bool) (scope : BitVec 3) (id : BitVec 5) (s : State) : Out :=
  s.resolve fun s =>
    match s.groupOf s.cur with
    | none => .next (s.adv 4)
    | some g =>
      let rank := s.cur - g.first
      let key := barKey scope.toNat rank id.toNat
      let b := smGet g.barriers key {}
      let pending := b.arrived.contains rank
      let begun (s : State) : State := { s with core.sq.bar := some { pc := s.core.sq.pc, key := key, gen := b.gen } }
      let complete (s : State) : State := State.adv { s with core.sq.bar := none } 4
      match s.core.sq.bar.filter fun w => w.pc = s.core.sq.pc && w.key = key with
      | some w => if b.gen = w.gen then .next s else .next (complete s)
      | none =>
        if arrives && !pending then
          let b' := b.arrive rank (s.members g scope.toNat rank).length (s.alone scope.toNat)
          let s := ((s.setGroup { g with barriers := smSet g.barriers key b' }).announce g id.toNat b b').countDemote scope true
          if !waits || b'.gen ≠ b.gen then .next (complete s) else .next (begun s)
        else if pending && waits then .next (begun (s.countDemote scope true))
        else if pending then .next s
        else .next (complete s)

def execBara (scope : BitVec 3) (id : BitVec 5) (s : State) : Out := barrier true false scope id s

def execBarw (scope : BitVec 3) (id : BitVec 5) (s : State) : Out := barrier false true scope id s

def execBaraw (scope : BitVec 3) (id : BitVec 5) (s : State) : Out := barrier true true scope id s

/-! ## Priority queues -/

/-- The dies that an operation reaches (R390). -/
def State.pqReach (s : State) (scope : BitVec 3) : List Nat :=
  if scope.toNat = 4 ∧ 4 ≤ s.core.sq.maxscope.toNat then [0, 1, 2, 3] else [s.dieNo]

/-- How many entries of the context a die's queue holds. -/
def State.pqHeld (s : State) (d : Nat) : Nat := ((s.dieAt d).pq.filter fun e => e.ctx = s.core.sq.ctxid).length

/-- The queue that a push goes to: the one that holds fewest of the context's entries, the lowest die on ties. -/
def State.pqTarget (s : State) (ds : List Nat) : Nat :=
  ds.foldl (fun best d => if s.pqHeld d < s.pqHeld best then d else best) (ds.headD 0)

/-- PQPUSH waits for its quota, and for room in the queue, which holds 65,536 entries (R18), then inserts. One that waits chooses its die's queue
again at each attempt (assumption log 54). -/
def execPqpush (ra rb : BitVec 5) (scope : BitVec 3) (s : State) : Out :=
  s.resolve fun s =>
    let d := s.pqTarget (s.pqReach scope)
    if s.pqHeld d < (s.ctxAt s.core.sq.ctxid.toNat).quota.toNat && (s.dieAt d).pq.length < 65536 then
      let die := s.dieAt d
      let e : PqEntry := { seq := s.ids, key := (s.x ra).setWidth 32, value := s.x rb, ctx := s.core.sq.ctxid }
      .next (State.adv { s.setDie d { die with pq := die.pq ++ [e] } with ids := s.ids + 1 } 4)
    else .next s

/-- Entries by key, then push order (R390). -/
def pqBefore (a b : PqEntry) : Bool := a.key.toNat < b.key.toNat || (a.key = b.key && a.seq ≤ b.seq)

/-- An entry into its place. -/
def pqInsert (e : PqEntry) : List PqEntry → List PqEntry
  | [] => [e]
  | h :: t => if pqBefore e h then e :: h :: t else h :: pqInsert e t

/-- The n smallest entries of the context in the queues reached (R391). -/
def State.pqCandidates (s : State) (scope : BitVec 3) : List PqEntry :=
  let ds := s.pqReach scope
  let all := (ds.map fun d => (s.dieAt d).pq.filter fun e => e.ctx = s.core.sq.ctxid).flatten
  (all.foldr pqInsert []).take (if ds.length = 1 then 8 else 32)

/-- PQPOP and PQPEEK: one entry of the candidates, a free choice; a pop removes it (R391). -/
def pqTake (remove : Bool) (rd : BitVec 5) (scope : BitVec 3) (s : State) : Out :=
  s.resolve fun s =>
    let c := s.pqCandidates scope
    match (c.drop (Config.freeChoice s.freeN c.length)).head? with
    | none =>
      let s := if remove then { s with core.counts.popempty := sat16 s.core.counts.popempty 1 } else s
      .next (((s.setX rd 0).setX (rd + 1) 0x100000000).adv 4)
    | some e =>
      let s := { s with freeN := s.freeN + 1 }
      let s := if remove then
        { s with dies := s.dies.map fun d => (d.1, { d.2 with pq := d.2.pq.filter fun x => x.seq ≠ e.seq }) } else s
      .next (((s.setX rd e.value).setX (rd + 1) (zext64 e.key)).adv 4)

def execPqpop (rd : BitVec 5) (scope : BitVec 3) (s : State) : Out := pqTake true rd scope s

def execPqpeek (rd : BitVec 5) (scope : BitVec 3) (s : State) : Out := pqTake false rd scope s

/-! ## TLB invalidation (R356) -/

/-- The stores that a core still holds under a removed translation. -/
def Core.markRemoved (c : Core) (p : Tlb → Bool) : Core :=
  { c with sq.spec.held := c.sq.spec.held.map fun h => if p h.tlb then { h with removed := true } else h }

/-- The accesses that have taken a translation which now leaves the TLBs, and have not performed (R351, R356): held stores of other
cores, and the pieces of ETCHes that wait in their units. -/
def State.markRemoved (s : State) (p : Tlb → Bool) : State :=
  { s with
    others := s.others.map fun c => (c.1, c.2.markRemoved p)
    etch := s.etch.map fun q => (q.1, q.2.map fun j => if j.tlbs.any p then { j with removed := true } else j) }

/-- Such an access is left. -/
def State.removedUsed (s : State) : Bool :=
  s.others.any (fun c => c.2.sq.spec.held.any (·.removed)) || s.etch.any fun q => q.2.any (·.removed)

/-- TLBINV: at U, and where the form asks for M, PRIVILEGE; then a resolution point; the matching entries leave every TLB, and the
instruction completes when every access that used one has performed (R356). -/
def tlbinv (allowed : Bool) (p : Tlb → Bool) (s : State) : Out :=
  if s.priv = 0 || !allowed then .next (s.raise .privilege 0)
  else s.resolve fun s =>
    let s := if s.core.sq.invalidated then s else { (s.dropTlb p).markRemoved p with core.sq.invalidated := true }
    if s.removedUsed then .next s else .next (s.adv 4)

def execTlbinvVa (ra : BitVec 5) (s : State) : Out :=
  tlbinv true (fun t => canonical (s.x ra) && t.hits s.core.sq.ctxid (s.x ra).toNat) s

def execTlbinvCtx (ra : BitVec 5) (s : State) : Out :=
  let c : BitVec 6 := (s.x ra).setWidth 6
  tlbinv (s.priv = 3 || c = s.core.sq.ctxid) (fun t => t.ctx = c) s

def execTlbinvAll (s : State) : Out := tlbinv (s.priv = 3) (fun _ => true) s

end Sys2Proof.Machine
end

