-- ==== Sys2Proof/Machine/Engine.lean ====
section
/-! DEFINITION. Fetch (R326-R338), the life of an entry (R167-R173, R79, R80) and the block control words (R159-R164, R172). -/

namespace Sys2Proof.Machine

/-! ## Fetching a halfword -/

/-- What the fetch of a halfword ends with. -/
inductive Fetch where
  | ok (h : BitVec 16) (s : State)
  | fault (f : EFault) (s : State)
  /-- parked at an address on a table line -/
  | park (va : Word) (line : Nat) (s : State)
  /-- the device registers (R343) -/
  | device

/-- The fetch copy of a holder. -/
def Store.fetchCopy (st : Store) (h : Holder) (k : Nat) : Option DataCopy := st.fetch.find? fun c => c.holder = h && c.sector = k

/-- The filter of a die makes room for a line: where its set is full, the victim is evicted once it has settled (R313). -/
def State.filterRoom (s : State) (d line : Nat) : State :=
  match s.store.coh.fullSet d line with
  | [] => s
  | set =>
    let s := set.foldl State.settleLine s
    match s.store.coh.victim d set with
    | some line => (s.evictLine d line).settleLine line
    | none => s

/-- A new fetch copy of a holder: the filter of its die makes room for the line and records the quad (R313, R327), and a full holder drops its
oldest copy (R329). -/
def State.keepFetch (s : State) (h : Holder) (k : Nat) (t : Tlb) : State :=
  let d := holderDie h
  let s := s.filterRoom d (k / 4)
  let e := { (s.store.coh.dirEnt (.die d) k).addFetch (holderQuad h) with ctx := t.ctx, window := t.xsh }
  let c : DataCopy := { holder := h, sector := k, data := s.store.readHome (64 * k) 64 }
  let st := s.store.fetchRoom h k
  { s with store := { st with fetch := c :: st.fetch, coh := s.store.coh.setDirEnt e } }

/-- A halfword of a sector's bytes. -/
def halfAt (bs : List Byte) (pa : Nat) : BitVec 16 := BitVec.ofNat 16 (leNat ((bs.drop (pa % 64)).take 2))

/-- One halfword is fetched through an instruction cache or loop buffer (R329-R331): the translation faults, then a hit in a fetch
copy, else at home the U bit, the mark of the sector, and a new copy. -/
def State.fetchHalf (s : State) (h : Holder) (ag : Agent) (va : Word) : Fetch :=
  match s.translate ag { fetch := true } va with
  | .fault c s => .fault { cause := c, addr := va } s
  | .park l s => .park va l s
  | .ok pa t s =>
    if isDevice pa then .device
    else
      let k := sectorOf pa
      match s.store.fetchCopy h k with
      | some c => .ok (halfAt c.data pa) s
      | none =>
        if s.store.unpublished k then .fault { cause := .unpublishedFetch, addr := va } s
        else match s.markAt [h] { t with nc := false } k with
          | some c => .fault { cause := c, addr := va } s
          | none => .ok (halfAt (s.store.readHome (64 * k) 64) pa) ((s.noteReply s.dieNo (64 * k) 64).keepFetch h k t)

/-! ## The block of the entry that runs -/

/-- The translation stream of an engine's loop buffer (R351). -/
def fetchStream (e : Engine) : Nat := 40 + e.id

/-- A block address that is a scratchpad reference after conversion (R168). -/
def Entry.inSpad (e : Entry) : Bool := spadRef e.addr

/-- The halfwords of a scratchpad block from a quad offset, by position: its header and as many more as the header's length names, up to
4 KiB, wrapping in the group's window (R168, R196). -/
def State.spadBlock (s : State) (o : Nat) : SMap (BitVec 16) :=
  let (base, size) := s.window
  let at' (k : Nat) : Nat := if base ≤ o then base + (o - base + k) % size else o + k
  let m := (s.quadAt s.quadNo).spad
  let half (p : Nat) : BitVec 16 := BitVec.ofNat 16 (leNat [memRead m (at' (2 * p)), memRead m (at' (2 * p + 1))])
  (List.range (min (max 2 ((half 0).toNat / 16)) 2048)).map fun p => (p, half p)

/-- A scratchpad block is read whole into the loop buffer when its entry starts; it raises no fault, and later writes are not read (R168,
R338). -/
def State.loadSpadBlock (s : State) (e : Engine) : State :=
  let g := s.eng e
  if g.entry.inSpad && g.words.isEmpty then s.setEng e { g with words := s.spadBlock (g.entry.addr.toNat % 2 ^ 23) } else s

/-- The halfword at a position of the running block: of a scratchpad block as it stands in the loop buffer, else fetched through it. -/
def State.blockHalf (s : State) (p : Nat) : Fetch :=
  let e := s.act.entry
  if e.inSpad then .ok (smGet s.act.words p 0) s
  else
    s.fetchHalf (.loopBuf s.cur s.actor) { stream := some (fetchStream s.actor), priv := e.priv } (e.addr + BitVec.ofNat 64 (2 * p))

/-- The cause that a rejected word raises (R78). -/
def rejectCause (r : Reject) : Cause := if r = .bank then .illegalBank else .illegalInstruction

/-- What a pass has found so far. -/
structure Pass where
  words : SMap (BitVec 16)
  secs : List Nat
  bad : Option (Nat × Cause) := none
  skips : List (Nat × Nat) := []

/-- A static fault at a position, unless a lower one is known. -/
def Pass.note (p : Pass) (at' : Nat) (c : Cause) : Pass := { p with bad := p.bad <|> some (at', c) }

/-- A halfword is kept within the 2,048 of the loop buffer (R333). -/
def keepHalf (m : SMap (BitVec 16)) (p : Nat) (h : BitVec 16) : SMap (BitVec 16) := if p < 2048 then smSet m p h else m

/-- What the walk over the block ends with. -/
inductive PassEnd where
  | done (p : Pass) (stop : Option (Nat × EFault)) (s : State)
  | park (va : Word) (line : Nat) (p : Pass) (s : State)
  | device

/-- The halfword at a position: kept from an earlier pass of the entry, or fetched (R333). -/
def State.passHalf (s : State) (a : Pass) (p : Nat) : Fetch :=
  match smFind a.words p with
  | some h => .ok h s
  | none => s.blockHalf p

/-- The walk of R79 from a position to the end of the block, checking each word. A word that would reach beyond the end of the block is
illegal, and its second halfword is not fetched (assumption log 58). -/
def State.passFrom (s : State) (len : Nat) : Nat → Nat → Pass → PassEnd
  | 0, _, a => .done a none s
  | fuel + 1, p, a =>
    if len ≤ p then .done a none s
    else match s.passHalf a p with
      | .device => .device
      | .park va l s => .park va l a s
      | .fault f s => .done a (some (p, f)) s
      | .ok h s =>
        let a := { a with words := keepHalf a.words p h }
        if h.toNat % 2 = 0 then
          let a := match decodeEngine s.actor h.toNat with
            | .error r => a.note p (rejectCause r)
            | .ok (.bskip _ cnt) => { a with skips := a.skips ++ [(p, p + 1 + cnt.toNat)] }
            | .ok _ => a
          s.passFrom len fuel (p + 1) a
        else if len ≤ p + 1 then .done (a.note p .illegalInstruction) none s
        else match s.passHalf a (p + 1) with
          | .device => .device
          | .park va l s => .park va l a s
          | .fault f s => .done a (some (p, f)) s
          | .ok h2 s =>
            let a := { a with words := keepHalf a.words (p + 1) h2, secs := a.secs ++ [p + 1] }
            let a := match decodeEngine s.actor (h.toNat + 2 ^ 16 * h2.toNat) with
              | .error r => a.note p (rejectCause r)
              | .ok _ => a
            s.passFrom len fuel (p + 2) a

/-- The lowest static fault of a finished walk: the words' own, and the BSKIPs whose target is invalid (R71). -/
def Pass.lowest (a : Pass) (len : Nat) : Option (Nat × Cause) :=
  let skip := (a.skips.find? fun k => len < k.2 || a.secs.contains k.2).map fun k => (k.1, Cause.illegalInstruction)
  match a.bad, skip with
  | some b, some k => if k.1 < b.1 then some k else some b
  | some b, none => some b
  | none, k => k

/-- The running entry stops at a position on a fault. -/
def State.faultAt (s : State) (p : Nat) (f : EFault) : State :=
  let s := s.upd fun e => { e with pos := BitVec.ofNat 12 p }
  s.engFault f.cause f.addr f.elem

/-- An engine's fetch or access at an address is parked on a table line (R355), counted once while it stands parked. -/
def State.parkEngine (s : State) (va : Word) (line : Nat) : State :=
  let s := if s.act.parked.isSome && s.act.parkVa = va then s else { s with core.counts.park := sat32 s.core.counts.park 1 }
  s.upd fun e => { e with parked := some line, parkVa := va, woken := false, wait := 7, exec := false }

/-- The pass of R79 from the engine's position, over the words that the entry has kept and the others fetched (R333). A POS below 2, above
the length or on a second halfword is illegal (R188). -/
def State.makePass (s : State) : Out :=
  let g := s.act
  let p := g.pos.toNat
  if p < 2 || g.len < p || g.secs.contains p then .next (s.faultAt p { cause := .illegalInstruction })
  else
    let a : Pass := { words := g.words, secs := g.secs.filter fun k => k < p }
    match s.passFrom g.len (g.len + 1) p a with
    | .device => .fault .deviceRegisters
    | .park va l a s => .next ((s.upd fun e => { e with words := a.words }).parkEngine va l)
    | .done a stop s =>
      let s := s.upd fun e => { e with
        words := a.words, secs := a.secs, passStop := stop, repass := false, parked := none, woken := false, wait := 0 }
      match a.lowest g.len with
      | some (p, c) => .next (s.faultAt p { cause := c })
      | none => .next s

/-- The header of the running block (R68, R80, R168), then the pass. An odd block address is MISALIGNED in either form, and a scratchpad block
longer than 4 KiB is BLOCK_SPACE even where its count is 0 (assumption log 22). -/
def State.readHeader (s : State) : Out :=
  let s := s.loadSpadBlock s.actor
  let e := s.act.entry
  let stop (c : Cause) (a : Word) (s : State) : Out := .next (s.faultAt 0 { cause := c, addr := a })
  if spadForm e.addr && !e.inSpad then stop .blockSpace 0 s
  else if e.addr.getLsbD 0 then stop .misaligned e.addr s
  else match s.blockHalf 0 with
    | .device => .fault .deviceRegisters
    | .park va l s => .next (s.parkEngine va l)
    | .fault f s => .next (s.faultAt 0 f)
    | .ok h s =>
      if h.toNat % 2 = 0 then stop .blockKind 0 s
      else match s.blockHalf 1 with
        | .device => .fault .deviceRegisters
        | .park va l s => .next (s.parkEngine va l)
        | .fault f s => .next (s.faultAt 0 f)
        | .ok h2 s =>
          let len := h.toNat / 16
          if h.toNat / 2 % 8 ≠ s.actor.id || len < 2 then stop .blockKind 0 s
          else if e.inSpad && 2048 < len then stop .blockSpace 0 s
          else
            let rem : BitVec 16 := if h2 = 0 then (vget e.args (3 : BitVec 2)).setWidth 16 else h2
            let s := s.upd fun g => { g with
              len := len, rem := if g.pos = 0 then rem else g.rem, pos := if g.pos = 0 then 2 else g.pos
              parked := none, woken := false, wait := 0 }
            if s.act.rem = 0 then .next (s.upd fun g => { g with st := .draining, repass := false })
            else s.makePass

/-- The header, where it has not been accepted yet, and the pass. -/
def State.checkBlock (s : State) : Out := if s.act.len = 0 then s.readHeader else s.makePass

/-! ## The word at a position -/

/-- What the word at the engine's position is. -/
inductive AtPos where
  | instr (i : Instr) (s : State)
  | fault (f : EFault) (s : State)
  | park (va : Word) (line : Nat) (s : State)
  | device

/-- A word fetched and checked, with the target of a BSKIP. -/
def State.asInstr (s : State) (len p w : Nat) : AtPos :=
  match decodeEngine s.actor w with
  | .error r => .fault { cause := rejectCause r } s
  | .ok i =>
    match i with
    | .bskip _ cnt =>
      let t := p + 1 + cnt.toNat
      if len < t || s.act.secs.contains t then .fault { cause := .illegalInstruction } s else .instr i s
    | _ => .instr i s

/-- A halfword that the entry has fetched is kept within the loop buffer (R333). -/
def State.keepWord (s : State) (p : Nat) (h : BitVec 16) : State := s.upd fun e => { e with words := keepHalf e.words p h }

/-- The word at the engine's position: kept in the loop buffer, or fetched and checked again (R79, R333). The fetch fault at which the pass
stopped is taken at its own word; a BSKIP may go past it, and the words there are then fetched and checked as they are reached (assumption
log 58). -/
def State.wordAt (s : State) : AtPos :=
  let g := s.act
  let p := g.pos.toNat
  let fetched (p : Nat) (s : State) : Fetch :=
    match smFind g.words p with
    | some h => .ok h s
    | none => match s.blockHalf p with
      | .ok h s => .ok h (s.keepWord p h)
      | f => f
  match g.passStop.filter fun x => x.1 = p with
  | some (_, f) => .fault f s
  | none =>
    match fetched p s with
    | .device => .device
    | .park va l s => .park va l s
    | .fault f s => .fault f s
    | .ok h s =>
      if h.toNat % 2 = 0 then s.asInstr g.len p h.toNat
      else if g.len ≤ p + 1 then .fault { cause := .illegalInstruction } s
      else match fetched (p + 1) s with
        | .device => .device
        | .park va l s => .park va l s
        | .fault f s => .fault f s
        | .ok h2 s => s.asInstr g.len p (h.toNat + 2 ^ 16 * h2.toNat)

/-! ## The life of an entry -/

/-- The tokens that an entry takes and the slot it reserves are there (R169): the wait code where one is missing. -/
def Core.startWait (c : Core) (e : Engine) (x : Entry) : BitVec 4 :=
  let has (u : BitVec 3) : Bool := 5 < u.toNat || (c.tokq u.toNat e.id).present ≠ 0
  let g := c.tokq e.id x.give.toNat
  if !(has x.take1 && has x.take2 && has x.take3) then 1
  else if x.give.toNat ≤ 5 && 15 ≤ g.present + g.reserved then 2
  else 0

/-- One token of a take field is taken. -/
def Core.takeToken (c : Core) (e : Engine) (u : BitVec 3) : Core :=
  if 5 < u.toNat then c
  else
    let q := c.tokq u.toNat e.id
    c.setTokq u.toNat e.id { q with present := q.present - 1 }

/-- The give field's slot is reserved. -/
def Core.reserveGive (c : Core) (e : Engine) (u : BitVec 3) : Core :=
  if 5 < u.toNat then c
  else
    let q := c.tokq e.id u.toNat
    c.setTokq e.id u.toNat { q with reserved := q.reserved + 1 }

/-- The reserved slot of the give field becomes a token (R173). -/
def Core.giveToken (c : Core) (e : Engine) (u : BitVec 3) : Core :=
  if 5 < u.toNat then c
  else
    let q := c.tokq e.id u.toNat
    c.setTokq e.id u.toNat { q with present := q.present + 1, reserved := q.reserved - 1 }

/-- The VE's own state at the start of an entry (R41, R140, R143). -/
def Core.startVe (c : Core) (e : Engine) : Core :=
  if e = .ve then { c with vex := { c.vex with mode := c.sq.vmode, amask := 0, lat := 0, latValid := false } } else c

/-- The entry at the head of the queue of a free engine starts, or waits (R169). -/
def State.entryStart (s : State) (e : Engine) : State :=
  let s := s.setEng e (s.eng e).sweep
  let g := s.eng e
  if !g.free || s.core.halted then s
  else match g.q.head? with
    | some (.entry x) =>
      let w := s.core.startWait e x
      if w ≠ 0 then s.setEng e { g with st := .waiting, wait := w }
      else
        let c := (((s.core.takeToken e x.take1).takeToken e x.take2).takeToken e x.take3).reserveGive e x.give
        ({ s with core := (c.setEng e { g with
            st := .running, wait := 0, pos := 0, rem := 0, rtp := false, len := 0, words := [], secs := [],
            passStop := none, repass := true, part := none, parked := none, woken := false, exec := false }).startVe e }).loadSpadBlock e
    | _ => s.setEng e { g with st := .idle, wait := 0 }

/-- Every view rotates (R171, step 1). -/
def Core.rotateAll (c : Core) : Core := { c with regs.view := vmap rotateView c.regs.view }

/-- Step 1 of the end of a repetition (R171): on the VE every view rotates. -/
def State.repetitionRotate (s : State) (e : Engine) : State :=
  let s := if e = .ve then { s with core := s.core.rotateAll } else s
  s.setEng e { s.eng e with rtp := true }

/-- Step 2 (R171): REM is decremented and tested. -/
def State.repetitionTest (s : State) (e : Engine) : State :=
  let g := s.eng e
  let rem := g.rem - 1
  s.setEng e (if rem = 0 then { g with rem := rem, rtp := false, st := .draining } else { g with rem := rem, rtp := false, pos := 2 })

/-- An entry is at the end of a repetition (R171). -/
def Eng.atEnd (g : Eng) : Bool := g.st = .running && !g.frz && !g.repass && g.len ≠ 0 && g.pos.toNat = g.len

/-- The end of a repetition (R171). With `half` a freeze falls between its two steps, and only the rotation is made. -/
def State.repetitionEnd (s : State) (e : Engine) (half : Bool) : State :=
  if (s.eng e).atEnd && !s.core.halted then
    let s := if (s.eng e).rtp then s else s.repetitionRotate e
    if half then s else s.repetitionTest e
  else s

/-- The effects of the entry that drains have landed and performed (R173). -/
def Core.drained (c : Core) (e : Engine) : Bool :=
  match e with
  | .ae => c.loads.isEmpty
  | .ve => c.vex.pend.isEmpty
  | .me => c.mex.running.isEmpty
  | .ce => true
  | .xe => c.remote.isNone && c.sends.isEmpty

/-- The same, with the replies to what its CE or XE words have read (R431). -/
def State.drained (s : State) (e : Engine) : Bool :=
  s.core.drained e && !((e = .ce || e = .xe) && s.time.toNat < (s.eng e).nextAt.toNat)

/-- The draining entry completes (R173): its slot becomes a token, and then its command-queue slot is freed. A freeze of the engine or a
freeze under way does not hold it back (R185); a core whose freeze is complete changes no more (R364). -/
def State.entryComplete (s : State) (e : Engine) : State :=
  let g := s.eng e
  if g.st = .draining && !s.core.frozen && s.core.sq.run ≠ .failed && s.drained e then
    let s := if e = .me then s.endLease s.cur else s
    let c := s.core.giveToken e g.entry.give
    { s with core := c.setEng e (Eng.sweep { g with
        st := .idle, q := g.q.tail, wait := 0, pos := 0, len := 0, words := [], secs := [], passStop := none, part := none }) }
  else s

/-! ## The events of an entry's life -/

def execEntryStart (e : Engine) (s : State) : Out := .next (s.entryStart e)

def execRepetitionEnd (e : Engine) (half : Bool) (s : State) : Out := .next (s.repetitionEnd e half)

def execEntryComplete (e : Engine) (s : State) : Out := .next (s.entryComplete e)

/-! ## The control words -/

def execNop (s : State) : Out := .next (s.wordDone 1)

/-- The entry ends at this word (R159): no later word issues, nothing rotates, REM stays. -/
def State.endEntry (s : State) : State := (s.wordDone 1).upd fun e => { e with st := .draining }

def execStop (s : State) : Out := .next s.endEntry

/-- The oldest value of the outcome queue from a unit to the engine in action is popped, or the word stalls (R160). -/
def popOutcome (u : BitVec 3) (s : State) (go : Word → State → Out) : Out :=
  match s.core.outcome u.toNat s.actor.id with
  | [] => .next (s.stall 3)
  | v :: rest => go v { s with core := s.core.setOutcome u.toNat s.actor.id rest }

def execBexit (tgt : BitVec 3) (s : State) : Out :=
  popOutcome tgt s fun v s => .next (if v = 0 then s.wordDone 1 else s.endEntry)

def execBskip (tgt : BitVec 3) (cnt : BitVec 8) (s : State) : Out :=
  popOutcome tgt s fun v s => .next (s.wordDone (if v = 0 then 1 else 1 + cnt.toNat))

/-- A value goes from the engine in action to a unit, or the word stalls (R175). -/
def pushOr (u : BitVec 3) (v : Word) (s : State) (go : State → Out) : Out :=
  if s.core.outcomeRoom s.actor.id u.toNat then go (s.pushOutcome s.actor.id u.toNat v) else .next (s.stall 4)

/-- BPUSHM (R162). -/
def execBpushm (tgt msk : BitVec 3) (summary : BitVec 2) (s : State) : Out :=
  pushOr tgt (maskSummary (vget s.core.regs.mask msk) summary) s fun s => .next (s.wordDone 1)

def execVmsel (msk : BitVec 3) (s : State) : Out := .next (State.wordDone { s with core.vex.amask := msk } 1)

/-- ROT (R164). -/
def execRot (view : BitVec 3) (s : State) : Out :=
  .next (State.wordDone { s with core := s.core.setView view (rotateView (s.core.view view)) } 1)

end Sys2Proof.Machine
end

