-- ==== Sys2Proof/Machine/Vector.lean ====
section
/-! DEFINITION. The element instructions of the vector engine (R135-R158). -/

namespace Sys2Proof.Machine

/-! ## Issue -/

/-- The word of the engine in action cannot stand: VIEW_INVALID at its position. -/
def viewInvalid (s : State) : Out := .next (s.engFault .viewInvalid 0)

/-- The element type of a word (R135), its view checks (R136), and the word with it. `typed` are the operands whose views must have
that type, `raw` those that are read as bits whatever their type. -/
def veTyped (order typed raw : List (BitVec 8)) (allowed : Ty → Bool) (s : State) (go : Ty → Out) : Out :=
  match s.core.wordType order with
  | none => viewInvalid s
  | some t =>
    if allowed t && typed.all (s.core.operandOk (some t)) && raw.all (s.core.operandOk none) then go t else viewInvalid s

/-- The issue of a word that writes one register (R144): sources are read, the destination is resolved, and the write is scheduled. -/
def veIssue (t : Ty) (d : BitVec 8) (srcs : List (BitVec 8)) (merge : Core → BitVec 1024) (readsD : Bool) (lat : Nat)
    (tag : Core → VTag) (f : Mode → Core → List Granule → Granule) (s : State) : Out :=
  match s.core.readSources s.act.entry.args t.width (srcs ++ if readsD then [d] else []) with
  | .error w => .next (s.stall w)
  | .ok (gs, c) =>
    match c.veTarget d with
    | .error w => .next (s.stall w)
    | .ok (dst, c) =>
      let w : VWrite := { left := lat, dests := [dst], data := [f (modeOf c.vex.mode) c gs], merge := merge c, esz := t.size,
                          tag := dst.tagChange (tag c), latch := true }
      .next (State.wordDone { s with core := c.schedule w } 2)

/-- A plain element word (R144). -/
def veWord (d : BitVec 8) (typed raw : List (BitVec 8)) (srcs : List (BitVec 8)) (m : BitVec 1) (allowed : Ty → Bool)
    (lat : Ty → Nat) (f : Ty → Mode → List Granule → Granule) (s : State) : Out :=
  veTyped (d :: srcs) (d :: typed) raw allowed s fun t =>
    veIssue t d srcs (fun c => c.activeMask m) false (lat t) (fun _ => .clear) (fun md _ gs => f t md gs) s

/-! ## Element functions -/

/-- A function of the elements of one register. -/
def map1 (t : Ty) (f : Nat → Nat) (gs : List Granule) : Granule :=
  packElems t.width ((elemsOf t.width (gs.getD 0 0)).map f)

/-- A function of the elements of two registers. -/
def map2 (t : Ty) (f : Nat → Nat → Nat) (gs : List Granule) : Granule :=
  packElems t.width (List.zipWith f (elemsOf t.width (gs.getD 0 0)) (elemsOf t.width (gs.getD 1 0)))

/-- A function of the elements of two registers and of the old destination. -/
def map3 (t : Ty) (f : Nat → Nat → Nat → Nat) (gs : List Granule) : Granule :=
  packElems t.width (List.zipWith (fun (p : Nat × Nat) c => f p.1 p.2 c)
    (List.zip (elemsOf t.width (gs.getD 0 0)) (elemsOf t.width (gs.getD 1 0))) (elemsOf t.width (gs.getD 2 0)))

/-- The types of VE arithmetic (R136, first row). -/
def arithTy (t : Ty) : Bool := t.isInt || t.isWide

/-- Every type. -/
def anyTy (_ : Ty) : Bool := true

/-- Latency class A for integers, B for floats (R138). -/
def latAB (t : Ty) : Nat := if t.isInt then 2 else 4

/-- The signed or unsigned value of an integer element. -/
def Ty.int (t : Ty) (b : Nat) : Int := intOf t.signed t.width b

/-- An arithmetic word: an exact integer function wrapped, or an exact float function rounded once. -/
def arith2 (t : Ty) (md : Mode) (fi : Int → Int → Int) (ff : FVal → FVal → FVal) (a b : Nat) : Nat :=
  if t.isInt then t.wrap (fi (t.int a) (t.int b)) else t.convert md (ff (t.read md a) (t.read md b))

/-- A fused word over the old destination (R145). -/
def arith3 (t : Ty) (md : Mode) (fi : Int → Int → Int → Int) (ff : FVal → FVal → FVal → FVal) (a b c : Nat) : Nat :=
  if t.isInt then t.wrap (fi (t.int a) (t.int b) (t.int c))
  else t.convert md (ff (t.read md a) (t.read md b) (t.read md c))

/-- A V3 arithmetic word. -/
def veArith (d s1 s2 : BitVec 8) (m : BitVec 1) (fi : Int → Int → Int) (ff : Mode → FVal → FVal → FVal) (s : State) : Out :=
  veWord d [s1, s2] [] [s1, s2] m arithTy latAB (fun t md => map2 t (arith2 t md fi (ff md))) s

/-- A word of VFMA's kind. -/
def veFused (d s1 s2 : BitVec 8) (m : BitVec 1) (fi : Int → Int → Int → Int) (ff : Mode → FVal → FVal → FVal → FVal)
    (s : State) : Out :=
  veTyped [d, s1, s2] [d, s1, s2] [] arithTy s fun t =>
    veIssue t d [s1, s2] (fun c => c.activeMask m) true (latAB t) (fun _ => .clear)
      (fun md _ => map3 t (arith3 t md fi (ff md))) s

/-- A V3 word on bits, of class A. -/
def veBits (d s1 s2 : BitVec 8) (m : BitVec 1) (allowed : Ty → Bool) (f : Ty → Nat → Nat → Nat) (s : State) : Out :=
  veWord d [s1, s2] [] [s1, s2] m allowed (fun _ => 2) (fun t _ => map2 t (f t)) s

/-! ## V3 words (R145) -/

def execVadd (d s1 s2 : BitVec 8) (m : BitVec 1) (s : State) : Out := veArith d s1 s2 m (· + ·) (fun md => fAdd md.rm) s

def execVsub (d s1 s2 : BitVec 8) (m : BitVec 1) (s : State) : Out :=
  veArith d s1 s2 m (· - ·) (fun md a b => fAdd md.rm a (fNeg b)) s

def execVmul (d s1 s2 : BitVec 8) (m : BitVec 1) (s : State) : Out := veArith d s1 s2 m (· * ·) (fun _ => fMul) s

def execVfma (d s1 s2 : BitVec 8) (m : BitVec 1) (s : State) : Out :=
  veFused d s1 s2 m (fun a b c => c + a * b) (fun md a b c => fAdd md.rm c (fMul a b)) s

def execVfms (d s1 s2 : BitVec 8) (m : BitVec 1) (s : State) : Out :=
  veFused d s1 s2 m (fun a b c => c - a * b) (fun md a b c => fAdd md.rm c (fNeg (fMul a b))) s

def execVmin (d s1 s2 : BitVec 8) (m : BitVec 1) (s : State) : Out := veArith d s1 s2 m min (fun _ => fPick false) s

def execVmax (d s1 s2 : BitVec 8) (m : BitVec 1) (s : State) : Out := veArith d s1 s2 m max (fun _ => fPick true) s

def execVand (d s1 s2 : BitVec 8) (m : BitVec 1) (s : State) : Out := veBits d s1 s2 m anyTy (fun _ a b => a &&& b) s

def execVor (d s1 s2 : BitVec 8) (m : BitVec 1) (s : State) : Out := veBits d s1 s2 m anyTy (fun _ a b => a ||| b) s

def execVxor (d s1 s2 : BitVec 8) (m : BitVec 1) (s : State) : Out := veBits d s1 s2 m anyTy (fun _ a b => a ^^^ b) s

/-- VSHL: 0 for a count of the width or more. -/
def execVshl (d s1 s2 : BitVec 8) (m : BitVec 1) (s : State) : Out :=
  veBits d s1 s2 m Ty.isInt (fun t a n => if t.width ≤ n then 0 else a * 2 ^ n % 2 ^ t.width) s

/-- VSHR: arithmetic for I types, filled with the sign for a count of the width or more; logical for N types. -/
def execVshr (d s1 s2 : BitVec 8) (m : BitVec 1) (s : State) : Out :=
  veBits d s1 s2 m Ty.isInt (fun t a n => t.wrap (t.int a / 2 ^ min n t.width)) s

def execVadds (d s1 s2 : BitVec 8) (m : BitVec 1) (s : State) : Out :=
  veBits d s1 s2 m Ty.isInt (fun t a b => t.satBits (t.int a + t.int b)) s

def execVsubs (d s1 s2 : BitVec 8) (m : BitVec 1) (s : State) : Out :=
  veBits d s1 s2 m Ty.isInt (fun t a b => t.satBits (t.int a - t.int b)) s

def execVmulh (d s1 s2 : BitVec 8) (m : BitVec 1) (s : State) : Out :=
  veBits d s1 s2 m Ty.isInt (fun t a b => t.wrap (t.int a * t.int b / 2 ^ t.width)) s

/-- VABSD: Sat(|a − b|) for integers, RoundTo(|a − b|) for floats. -/
def execVabsd (d s1 s2 : BitVec 8) (m : BitVec 1) (s : State) : Out :=
  veWord d [s1, s2] [] [s1, s2] m arithTy latAB (fun t md => map2 t fun a b =>
    if t.isInt then t.satBits (t.int a - t.int b).natAbs
    else t.convert md ((fAdd md.rm (t.read md a) (fNeg (t.read md b))).withSign false)) s

/-! ## Compares and masks (R146, R152) -/

/-- A compare of two elements: integers by value, floats by value with −0 equal to +0 and no order with NaN. -/
def cmpElem (t : Ty) (md : Mode) (onNan : Bool) (f : Int → Bool) (a b : Nat) : Bool :=
  if t.isInt then f (t.int a - t.int b)
  else match t.read md a, t.read md b with
    | .nan, _ => onNan
    | _, .nan => onNan
    | x, y => f (fCompare x y)

/-- The bits of a list of truth values, the first at bit 0. -/
def bitsOf (l : List Bool) : BitVec 1024 := BitVec.ofNat 1024 (l.foldr (fun b acc => (if b then 1 else 0) + 2 * acc) 0)

/-- Ones in bits 0 to n − 1. -/
def lowOnes (n : Nat) : BitVec 1024 := BitVec.ofNat 1024 (2 ^ n - 1)

/-- A write of a mask, of class A: it leaves the latch unchanged. -/
def maskWrite (d : BitVec 3) (v merge : BitVec 1024) (width : Nat) : VWrite :=
  { left := 2, dests := [.mask d], data := [v.setWidth 8192], merge := merge, width := width }

/-- A compare: bits 0 to E − 1 of the mask, the bits above cleared, its width E; inactive bits keep their values. -/
def veCompare (d : BitVec 3) (s1 s2 : BitVec 8) (m : BitVec 1) (onNan : Bool) (f : Int → Bool) (s : State) : Out :=
  veTyped [s1, s2] [s1, s2] [] arithTy s fun t =>
    match s.core.readSources s.act.entry.args t.width [s1, s2] with
    | .error w => .next (s.stall w)
    | .ok (gs, c) =>
      let md := modeOf c.vex.mode
      let v := bitsOf (List.zipWith (cmpElem t md onNan f) (elemsOf t.width (gs.getD 0 0)) (elemsOf t.width (gs.getD 1 0)))
      let merge := c.activeMask m ||| ~~~lowOnes t.count
      .next (State.wordDone { s with core := c.schedule (maskWrite d v merge t.count) } 2)

def execVcmpeq (d : BitVec 3) (s1 s2 : BitVec 8) (m : BitVec 1) (s : State) : Out := veCompare d s1 s2 m false (· = 0) s

def execVcmpne (d : BitVec 3) (s1 s2 : BitVec 8) (m : BitVec 1) (s : State) : Out := veCompare d s1 s2 m true (· ≠ 0) s

def execVcmplt (d : BitVec 3) (s1 s2 : BitVec 8) (m : BitVec 1) (s : State) : Out := veCompare d s1 s2 m false (· < 0) s

def execVcmple (d : BitVec 3) (s1 s2 : BitVec 8) (m : BitVec 1) (s : State) : Out := veCompare d s1 s2 m false (· ≤ 0) s

/-- A mask operation over bits 0 to width(s1) − 1; the bits above become 0, and d takes the width of s1. It uses no element type, so that
an ill-formed w7 does not stop it (assumption log 76). -/
def maskOp (d s1 : BitVec 3) (f : BitVec 1024 → BitVec 1024) (s : State) : Out :=
  let a := vget s.core.regs.mask s1
  let w := maskWrite d (f a.bits &&& lowOnes a.width) (BitVec.allOnes 1024) a.width
  .next (State.wordDone { s with core := s.core.schedule w } 2)

def execVmand (d s1 s2 : BitVec 3) (s : State) : Out := maskOp d s1 (· &&& (vget s.core.regs.mask s2).bits) s

def execVmor (d s1 s2 : BitVec 3) (s : State) : Out := maskOp d s1 (· ||| (vget s.core.regs.mask s2).bits) s

def execVmxor (d s1 s2 : BitVec 3) (s : State) : Out := maskOp d s1 (· ^^^ (vget s.core.regs.mask s2).bits) s

def execVmnot (d s1 : BitVec 3) (s : State) : Out := maskOp d s1 (~~~ ·) s

/-! ## Selection and permutation (R147-R149) -/

/-- VSEL: the active mask, read at issue, picks s1 or s2; bits are copied. -/
def execVsel (d s1 s2 : BitVec 8) (s : State) : Out :=
  veTyped [d, s1, s2] [d, s1, s2] [] anyTy s fun t =>
    veIssue t d [s1, s2] (fun _ => BitVec.allOnes 1024) false 2 (fun _ => .clear) (fun _ c gs =>
      let m := elemMask (vget c.regs.mask c.vex.amask).bits 0 t.width
      mergeBits m (gs.getD 1 0) (gs.getD 0 0)) s

/-- VPERM: element s2[j] mod E of s1. -/
def execVperm (d s1 s2 : BitVec 8) (m : BitVec 1) (s : State) : Out :=
  veWord d [s1] [s2] [s1, s2] m anyTy (fun _ => 6) (fun t _ gs =>
    let v := (elemsOf t.width (gs.getD 0 0)).toArray
    packElems t.width ((elemsOf t.width (gs.getD 1 0)).map fun i => v.getD (i % t.count) 0)) s

/-- VLUT: entry s1[j] mod 256 mod E of the table in s2. -/
def execVlut (d s1 s2 : BitVec 8) (m : BitVec 1) (s : State) : Out :=
  veWord d [s2] [s1] [s1, s2] m anyTy (fun _ => 6) (fun t _ gs =>
    let v := (elemsOf t.width (gs.getD 1 0)).toArray
    packElems t.width ((elemsOf t.width (gs.getD 0 0)).map fun i => v.getD (i % 256 % t.count) 0)) s

/-! ## VSCL and VDOT4 (R150, R151) -/

/-- VSCL: a × 2 ^ k, k the signed integer in s2. -/
def execVscl (d s1 s2 : BitVec 8) (m : BitVec 1) (s : State) : Out :=
  veWord d [s1] [s2] [s1, s2] m Ty.isWide (fun _ => 4) (fun t md => map2 t fun a k =>
    t.convert md (fScale (intOf true t.width k) (t.read md a))) s

/-- The type of a VDOT4 source's bytes: its view's, or the default for an operand that is not main file. -/
def dotType (c : Core) (t : Ty) (f : BitVec 8) : Option Ty :=
  match c.operandView f with
  | none => some (if t = .i32 then .i8 else .e4m3)
  | some v =>
    (viewType v).filter fun u => if t = .i32 then u = .i8 || u = .n8 else u = .e4m3 || u = .e5m2 || u = .log6

/-- Byte k of a 32-bit element. -/
def byteOf (x k : Nat) : Nat := x / 256 ^ k % 256

/-- A lane of VDOT4: the exact sum of four products over the old destination, wrapped or rounded once. -/
def dotLane (t ta tb : Ty) (md : Mode) (a b c : Nat) : Nat :=
  if t = .i32 then
    t.wrap (t.int c + ((List.range 4).map fun k => ta.int (byteOf a k) * tb.int (byteOf b k)).sum)
  else
    let p (k : Nat) : FVal := prodOf ta tb (ta.read md) (tb.read md) (byteOf a k) (byteOf b k)
    let sum := fAdd md.rm (fAdd md.rm (fAdd md.rm (p 0) (p 1)) (p 2)) (p 3)
    t.convert md (fAdd md.rm (t.read md c) sum)

/-- VDOT4 takes T from its d view, else from w7. -/
def execVdot4 (d s1 s2 : BitVec 8) (m : BitVec 1) (s : State) : Out :=
  veTyped [d] [d] [s1, s2] (fun t => t = .i32 || t = .f32) s fun t =>
    match dotType s.core t s1, dotType s.core t s2 with
    | some ta, some tb =>
      veIssue t d [s1, s2] (fun c => c.activeMask m) true 4 (fun _ => .clear) (fun md _ => map3 t (dotLane t ta tb md)) s
    | _, _ => viewInvalid s

/-! ## VX words (R153) -/

/-- A VX word on bits. -/
def veOne (d s1 : BitVec 8) (m : BitVec 1) (allowed : Ty → Bool) (lat : Ty → Nat) (f : Ty → Mode → Nat → Nat) (s : State) : Out :=
  veWord d [s1] [] [s1] m allowed lat (fun t md => map1 t (f t md)) s

/-- VMOV between main-file operands with m = 0 copies the binding tag too, its group taking a reference at issue (R263). -/
def execVmov (d s1 : BitVec 8) (m : BitVec 1) (s : State) : Out :=
  match operand s1 with
  | .main v i =>
    if mainOnly d && m = 0 then
      veTyped [d, s1] [d, s1] [] anyTy s fun t =>
        let g := (s.core.granuleOf v i).getD 0
        let tag := s.core.regs.tagOf g
        let c := if tagBound tag then { s.core with regs := s.core.regs.addRef (tagGroup tag) } else s.core
        veIssue t d [s1] (fun c => c.activeMask m) false 2 (fun _ => .copy tag) (fun _ _ gs => gs.getD 0 0) { s with core := c }
    else veOne d s1 m anyTy (fun _ => 2) (fun _ _ a => a) s
  | _ => veOne d s1 m anyTy (fun _ => 2) (fun _ _ a => a) s

def execVneg (d s1 : BitVec 8) (m : BitVec 1) (s : State) : Out :=
  veOne d s1 m arithTy latAB (fun t md a =>
    if t.isInt then t.wrap (-(t.int a)) else t.convert md (fNeg (t.read md a))) s

def execVabs (d s1 : BitVec 8) (m : BitVec 1) (s : State) : Out :=
  veOne d s1 m arithTy latAB (fun t md a =>
    if t.isInt then t.wrap (t.int a).natAbs else t.convert md ((t.read md a).withSign false)) s

/-- All eight bits of a LOG6 byte are inverted, and the other words that move bits copy them (R44, R153; assumption log 64). -/
def execVnot (d s1 : BitVec 8) (m : BitVec 1) (s : State) : Out :=
  veOne d s1 m anyTy (fun _ => 2) (fun t _ a => 2 ^ t.width - 1 - a) s

def execVrnd (d s1 : BitVec 8) (m : BitVec 1) (s : State) : Out :=
  veOne d s1 m Ty.isWide (fun _ => 4) (fun t md a => t.convert md (fIntegral md.rm (t.read md a))) s

def execVpopc (d s1 : BitVec 8) (m : BitVec 1) (s : State) : Out :=
  veOne d s1 m Ty.isInt (fun _ => 2) (fun t _ a => popCount t.width a) s

def execVclz (d s1 : BitVec 8) (m : BitVec 1) (s : State) : Out :=
  veOne d s1 m Ty.isInt (fun _ => 2) (fun t _ a => leadingZeros t.width a) s

def execVbcast (d s1 : BitVec 8) (m : BitVec 1) (s : State) : Out :=
  veWord d [s1] [] [s1] m anyTy (fun _ => 2) (fun t _ gs => splat t.width ((gs.getD 0 0).toNat % 2 ^ t.width)) s

/-! ## Transcendentals (R49, R50), of class D -/

/-- A transcendental word. -/
def veFn (g : Fn1) (d s1 : BitVec 8) (m : BitVec 1) (s : State) : Out :=
  veOne d s1 m Ty.isWide (fun _ => 12) (fun t md a => g.apply t md a) s

def execVexp2 (d s1 : BitVec 8) (m : BitVec 1) (s : State) : Out := veFn .exp2 d s1 m s

def execVlog2 (d s1 : BitVec 8) (m : BitVec 1) (s : State) : Out := veFn .log2 d s1 m s

def execVexp (d s1 : BitVec 8) (m : BitVec 1) (s : State) : Out := veFn .exp d s1 m s

def execVrcp (d s1 : BitVec 8) (m : BitVec 1) (s : State) : Out := veFn .rcp d s1 m s

def execVrsq (d s1 : BitVec 8) (m : BitVec 1) (s : State) : Out := veFn .rsq d s1 m s

def execVsqrt (d s1 : BitVec 8) (m : BitVec 1) (s : State) : Out := veFn .sqrt d s1 m s

def execVsig (d s1 : BitVec 8) (m : BitVec 1) (s : State) : Out := veFn .sig d s1 m s

def execVtanh (d s1 : BitVec 8) (m : BitVec 1) (s : State) : Out := veFn .tanh d s1 m s

/-! ## Conversion (R154) -/

/-- An element converted from a type to another; with equal types NaNs become canonical, FTZ applies, and the rest is copied (assumption
log 12). What R45 has no row for, and an infinity that SAT reads as MaxFinite before it becomes an integer (R55), are assumption log 64. -/
def cvtElem (from' t : Ty) (md : Mode) (b : Nat) : Nat :=
  if from' = t then
    match t.fmt with
    | some f => if f.decode b = .nan then f.nan else
      match t.read { md with sat := false } b with
      | .fin n 0 _ => t.convert {} (.fin n 0 0)
      | _ => b
    | none => if t = .log6 then b % 64 else b
  else t.convert md (from'.read md b)

/-- VCVT converts elements 0 to min(E(S), E) − 1; the elements of d above keep their values. -/
def execVcvt (d s1 : BitVec 8) (m : BitVec 1) (s : State) : Out :=
  veTyped [d] [d] [s1] anyTy s fun t =>
    match s.core.wordType [s1] with
    | none => viewInvalid s
    | some u =>
      let n := min u.count t.count
      veIssue t d [s1] (fun c => c.activeMask m &&& lowOnes n) false 4 (fun _ => .clear) (fun md _ gs =>
        packElems t.width (((elemsOf u.width (gs.getD 0 0)).take n).map (cvtElem u t md))) s

/-! ## Reductions (R52, R155), of class E -/

/-- Neighbours combined. -/
def pairUp {α : Type} (f : α → α → α) : List α → List α
  | a :: b :: t => f a b :: pairUp f t
  | l => l

/-- The binary tree over a list whose length is a power of two up to 2 ^ 10. -/
def tree {α : Type} (f : α → α → α) : Nat → List α → List α
  | 0, l => l
  | n + 1, l => tree f n (pairUp f l)

/-- The root of the tree. -/
def root {α : Type} [Inhabited α] (f : α → α → α) (l : List α) : α := (tree f 10 l).headD default

/-- The elements of a source, each with its mask bit. -/
def masked (t : Ty) (act : BitVec 1024) (g : Granule) : List (Nat × Bool) :=
  (elemsOf t.width g).zipIdx.map fun p => (p.1, act.getLsbD p.2)

/-- A reduction: the root goes to every element of d. `inert` is what an inactive element enters with. -/
def veReduce (d s1 : BitVec 8) (m : BitVec 1) (fi : Int → Int → Int) (ff : Mode → FVal → FVal → FVal)
    (inertI : Ty → Int) (inertF : Mode → Ty → FVal) (s : State) : Out :=
  veTyped [d, s1] [d, s1] [] arithTy s fun t =>
    veIssue t d [s1] (fun _ => BitVec.allOnes 1024) false 8 (fun _ => .clear) (fun md c gs =>
      let es := masked t (c.activeMask m) (gs.getD 0 0)
      splat t.width (
        if t.isInt then t.satBits (root fi (es.map fun p => if p.2 then t.int p.1 else inertI t))
        else t.convert md (root (ff md) (es.map fun p => if p.2 then t.read md p.1 else inertF md t)))) s

/-- A node of the sum tree: F32, rounded under the working mode. -/
def sumNode (md : Mode) (a b : FVal) : FVal := Ty.value .f32 (Ty.convert .f32 md (fAdd md.rm a b))

/-- An infinity, or under SAT the largest finite value of the type. -/
def limitOf (md : Mode) (t : Ty) (neg : Bool) : FVal :=
  match t.fmt with
  | some f => if md.sat then f.maxFinite neg else .inf neg
  | none => .inf neg

def execVrdsum (d s1 : BitVec 8) (m : BitVec 1) (s : State) : Out :=
  veReduce d s1 m (· + ·) sumNode (fun _ => 0) (fun _ _ => .zero) s

def execVrdmax (d s1 : BitVec 8) (m : BitVec 1) (s : State) : Out :=
  veReduce d s1 m max (fun _ => fPick true) (fun t => t.range.1) (fun md t => limitOf md t true) s

def execVrdmin (d s1 : BitVec 8) (m : BitVec 1) (s : State) : Out :=
  veReduce d s1 m min (fun _ => fPick false) (fun t => t.range.2) (fun md t => limitOf md t false) s

/-! ## VMCNT, VIOTA, VMODE, VMOVI (R156-R158) -/

/-- VMCNT: the set bits of a mask, converted to T, in every element. -/
def execVmcnt (d : BitVec 8) (s1 : BitVec 3) (m : BitVec 1) (s : State) : Out :=
  veTyped [d] [d] [] arithTy s fun t =>
    veIssue t d [] (fun c => c.activeMask m) false 2 (fun _ => .clear) (fun md c _ =>
      let k := vget c.regs.mask s1
      splat t.width (t.convert md (ofInt (popCount k.width k.bits.toNat)))) s

/-- VIOTA: element j takes j. -/
def execViota (d : BitVec 8) (m : BitVec 1) (s : State) : Out :=
  veTyped [d] [d] [] arithTy s fun t =>
    veIssue t d [] (fun c => c.activeMask m) false 2 (fun _ => .clear) (fun md _ _ =>
      packElems t.width ((List.range t.count).map fun (j : Nat) =>
        if t.isInt then t.wrap j else t.convert md (ofInt j))) s

/-- VMODE writes the working mode and the VMODE register (R41); it uses no element type (assumption log 76). -/
def execVmode (mode : BitVec 4) (s : State) : Out :=
  .next (State.wordDone { s with core.vex.mode := mode, core.sq.vmode := mode, core.sq.vmodeAt := some s.time } 2)

/-- The element value of a VMOVI (R158). -/
def moviElem (t : Ty) (imm : BitVec 16) : Nat :=
  match t with
  | .i32 => t.wrap imm.toInt
  | .f32 => imm.toNat * 2 ^ 16
  | _ => imm.toNat % 2 ^ t.width

/-- VMOVI takes T from its d view, else from w7; an 8-bit T asks for imm16[15:8] zero, before the view is resolved (R80, R266). -/
def execVmovi (d : BitVec 8) (imm : BitVec 16) (m : BitVec 1) (s : State) : Out :=
  match s.core.wordType [d] with
  | none => viewInvalid s
  | some t =>
    if t.size = 1 && 256 ≤ imm.toNat then .next (s.engFault .illegalInstruction 0)
    else veTyped [d] [d] [] anyTy s fun t =>
      veIssue t d [] (fun c => c.activeMask m) false 2 (fun _ => .clear) (fun _ _ _ => splat t.width (moviElem t imm)) s

end Sys2Proof.Machine
end

