-- ==== Sys2Proof/Machine/VectorScale.lean ====
section
/-! DEFINITION. The words of the vector engine over scales and bindings: VCVTD, VCVTU and the scale-only words (R265-R270). -/

namespace Sys2Proof.Machine

/-! ## Bindings -/

/-- The check of a consumer on a granule's tag (R265): UNBOUND_SCALE, STALE_BINDING, or the group. -/
def Regs.checkBinding (r : Regs) (g : Nat) : Except Cause Nat :=
  let t := r.tagOf g
  if !tagBound t then .error .unboundScale
  else if !r.current t then .error .staleBinding
  else .ok (tagGroup t)

/-- A VE word's check of a granule: it faults with the granule's register-space address, or goes on with the group. -/
def needBound (g : Nat) (s : State) (go : Nat → Out) : Out :=
  match s.core.regs.checkBinding g with
  | .error c => .next (s.engFault c (BitVec.ofNat 64 (1024 * g)))
  | .ok k => go k

/-- A group is allocated at issue (R260, R261). -/
def needGroup (c : Core) (s : State) (go : Nat → Core → Out) : Out :=
  match c.allocate with
  | none => .next (s.engFault .tintExhausted 0)
  | some (g, c) => go g c

/-- Scale code `j` of a group. -/
def codeAt (codes : BitVec 256) (j : Nat) : Nat := seg codes.toNat (8 * j) 8

/-- 32 codes from a list. -/
def packCodes (l : List Nat) : BitVec 256 := BitVec.ofNat 256 (l.foldr (fun x acc => x % 256 + 256 * acc) 0)

/-- A main-file operand of a view with SCALED = 1 that resolves: its granule. -/
def Core.scaledGranule (c : Core) (f : BitVec 8) : Option Nat :=
  match operand f with
  | .main v i => if viewScaled (c.view v) then c.granuleOf v i else none
  | _ => none

/-! ## Conversions over several registers -/

/-- The registers that a wide operand covers: `r` granules of its view from index i, or entries of the operand file. None for a view
that does not resolve. -/
def Core.span (c : Core) (f : BitVec 8) (r : Nat) : Option (List VDest) :=
  match operand f with
  | .main v i => (List.range r).mapM fun k => (resolveView (c.view v) (i.toNat + k)).map VDest.gran
  | .ofile o => some ((List.range r).map fun k => .ofile (o + BitVec.ofNat 4 k))
  | _ => none

/-- An operand-file range that runs past entry 15 (R267, R268). -/
def spanOver (f : BitVec 8) (r : Nat) : Bool :=
  match operand f with
  | .ofile o => 15 < o.toNat + r - 1
  | _ => false

/-- The value of a register that a span names. -/
def Core.regAt (c : Core) : VDest → Granule
  | .gran g => c.regs.granule g
  | .ofile o => vget c.regs.ofile o
  | _ => 0

/-- The blocks of `n` elements of a list. -/
def chunks {α : Type} (n : Nat) : Nat → List α → List (List α)
  | 0, _ => []
  | k + 1, l => l.take n :: chunks n k (l.drop n)

/-- VCVTD (R267). -/
def execVcvtd (d s1 : BitVec 8) (s : State) : Out :=
  let c := s.core
  match c.scaledGranule d, (c.operandView d).bind viewType, c.wordType [s1] with
  | some g, some t, some u =>
    if !t.scalable || !u.isWide then viewInvalid s
    else match c.span s1 u.size with
      | none => viewInvalid s
      | some regs =>
        if spanOver s1 u.size then .next (s.engFault .illegalInstruction 0)
        else needGroup c s fun k c =>
          let md := modeOf c.vex.mode
          let src := ((regs.map fun r => (elemsOf u.width (c.regAt r)).map (u.read { md with sat := false })).flatten)
          let out := (chunks 32 32 src).map (scaleSelect t md)
          let w : VWrite := { left := 6, dests := [.gran g], data := [packElems 8 (out.map (·.2)).flatten], esz := 1,
                              tag := .bind k (packCodes (out.map (·.1))), latch := true }
          .next (State.wordDone { s with core := c.schedule w } 2)
  | _, _, _ => viewInvalid s

/-- VCVTU (R268). -/
def execVcvtu (d s1 : BitVec 8) (m : BitVec 1) (s : State) : Out :=
  let c := s.core
  match c.scaledGranule s1, (c.operandView s1).bind viewType, c.wordType [d] with
  | some g, some u, some t =>
    if !u.scalable || !t.isWide then viewInvalid s
    else match c.span d t.size with
      | none => viewInvalid s
      | some regs =>
        if spanOver d t.size then .next (s.engFault .illegalInstruction 0)
        else needBound g s fun k =>
          let md := modeOf c.vex.mode
          let codes := (c.regs.groupAt k).codes
          let out := ((elemsOf 8 (c.regs.granule g)).zipIdx).map fun p =>
            t.convert md (scaledValue u md (codeAt codes (p.2 / 32)) p.1)
          let w : VWrite := { left := 6, dests := regs, data := (chunks t.count t.size out).map (packElems t.width),
                              merge := c.activeMask m, esz := t.size, tag := (regs.headD (.ofile 0)).tagChange .clear, latch := true }
          .next (State.wordDone { s with core := c.schedule w } 2)
  | _, _, _ => viewInvalid s

/-! ## The scale-only words (R269, R270) -/

/-- A write that changes only the tag of a granule, of class A. -/
def tagWrite (g : Nat) (t : VTag) : VWrite := { left := 2, dests := [.gran g], tag := t }

/-- A word whose s1 is any source of codes and whose d is to be bound: d's granule, the 32 codes of s1, and the core that has read
them. `s1Ok` is the view check of s1. -/
def scaleWord (d s1 : BitVec 8) (s : State) (go : Nat → BitVec 256 → Core → Out) : Out :=
  match s.core.scaledGranule d with
  | none => viewInvalid s
  | some g =>
    if !s.core.operandOk none s1 then viewInvalid s
    else match s.core.readSource s.act.entry.args 8 s1 with
      | .error w => .next (s.stall w)
      | .ok (v, c) => go g (v.setWidth 256) c

/-- A word that binds d to a new group with these codes. -/
def bindNew (g : Nat) (codes : BitVec 256) (c : Core) (s : State) : Out :=
  needGroup c s fun k c => .next (State.wordDone { s with core := c.schedule (tagWrite g (.bind k codes)) } 2)

/-- A word that combines the codes of d's group with those of s1. -/
def scaleCombine (f : Nat → Nat → Nat) (d s1 : BitVec 8) (s : State) : Out :=
  scaleWord d s1 s fun g v c =>
    needBound g s fun k =>
      let old := (s.core.regs.groupAt k).codes
      bindNew g (packCodes ((List.range 32).map fun j => f (codeAt old j) (codeAt v j))) c s

def execScset (d s1 : BitVec 8) (s : State) : Out := scaleWord d s1 s fun g v c => bindNew g v c s

/-- SCADDE: NaN stays NaN, else the exponents add within 0 to 254. -/
def execScadde (d s1 : BitVec 8) (s : State) : Out :=
  scaleCombine (fun a b => if a = 255 then 255 else (satInt (a + intOf true 8 b) 0 254).toNat) d s1 s

def execScmax (d s1 : BitVec 8) (s : State) : Out :=
  scaleCombine (fun a b => if a = 255 || b = 255 then 255 else max a b) d s1 s

def execScmin (d s1 : BitVec 8) (s : State) : Out :=
  scaleCombine (fun a b => if a = 255 || b = 255 then 255 else min a b) d s1 s

/-- The words whose s1 is a main-file scaled operand with a current tag: d's granule, s1's granule and group. -/
def fromBound (d s1 : BitVec 8) (s : State) (go : Nat → Nat → Nat → Out) : Out :=
  match s.core.scaledGranule d, s.core.scaledGranule s1 with
  | some g, some h => needBound h s fun k => go g h k
  | _, _ => viewInvalid s

def execScmov (d s1 : BitVec 8) (s : State) : Out :=
  fromBound d s1 s fun g _ k => bindNew g (s.core.regs.groupAt k).codes s.core s

/-- SCBIND: d takes s1's tag; within one granule nothing changes. -/
def execScbind (d s1 : BitVec 8) (s : State) : Out :=
  fromBound d s1 s fun g h k =>
    if g = h then .next (s.wordDone 2)
    else
      let c := { s.core with regs := s.core.regs.addRef k }
      .next (State.wordDone { s with core := c.schedule (tagWrite g (.copy (s.core.regs.tagOf h))) } 2)

def execScunb (d : BitVec 8) (s : State) : Out :=
  match operand d with
  | .main v i =>
    match s.core.granuleOf v i with
    | some g => .next (State.wordDone { s with core := s.core.schedule (tagWrite g .clear) } 2)
    | none => viewInvalid s
  | _ => viewInvalid s

/-- SCRD: a plain write of s1's codes and zeros. -/
def execScrd (d s1 : BitVec 8) (s : State) : Out :=
  match s.core.scaledGranule s1 with
  | none => viewInvalid s
  | some h =>
    if !s.core.operandOk none d then viewInvalid s
    else needBound h s fun k =>
      match s.core.veTarget d with
      | .error w => .next (s.stall w)
      | .ok (dst, c) =>
        let w : VWrite := { left := 2, dests := [dst], data := [(s.core.regs.groupAt k).codes.setWidth 8192], esz := 1,
                            tag := dst.tagChange .clear, latch := true }
        .next (State.wordDone { s with core := c.schedule w } 2)

/-- SCWR writes the codes of d's group in place. -/
def execScwr (d s1 : BitVec 8) (s : State) : Out :=
  scaleWord d s1 s fun g v c =>
    needBound g s fun k => .next (State.wordDone { s with core := c.schedule (tagWrite g (.rewrite k v)) } 2)

def execScnew (d : BitVec 8) (s : State) : Out :=
  match s.core.scaledGranule d with
  | none => viewInvalid s
  | some g => bindNew g (packCodes (List.replicate 32 0x7F)) s.core s

end Sys2Proof.Machine
end

