-- ==== Sys2Proof/Machine/Access.lean ====
section
/-! DEFINITION. The access engine (R192-R211), SRCHK and HIST (R405-R408), and the return of its accesses (R193, R198). -/

namespace Sys2Proof.Machine

/-! ## Accesses of an engine, page by page -/

/-- A piece of an access on one page: its first byte's address, its length, and its translation or its fault. -/
structure Piece where
  va : Word
  len : Nat
  res : Except Cause (Nat × Tlb)

/-- What the translation of the pieces of an access ends with. -/
inductive Split where
  | ok (ps : List Piece) (s : State)
  /-- the address whose table line is parked on -/
  | park (va : Word) (line : Nat) (s : State)
  | device

/-- The pieces of `n` bytes from an address, cut at every 4 KiB boundary, the smallest page. -/
def pagePieces : Nat → Word → Nat → List (Word × Nat)
  | 0, _, _ => []
  | fuel + 1, va, n =>
    if n = 0 then []
    else
      let m := min n (4096 - va.toNat % 4096)
      (va, m) :: pagePieces fuel (va + BitVec.ofNat 64 m) (n - m)

/-- The pieces of `n` bytes from an address. -/
def piecesOf (va : Word) (n : Nat) : List (Word × Nat) := pagePieces (n / 4096 + 2) va n

/-- Each piece is translated (R353), for a core, or for an agent that is not a core of the context. -/
def State.split (s : State) (who : Option Nat) (ag : Agent) (k : Kind) : List (Word × Nat) → Split
  | [] => .ok [] s
  | (va, n) :: rest =>
    match s.translateFor who ag k va with
    | .park l s => .park va l s
    | .fault c s =>
      match s.split who ag k rest with
      | .ok ps s => .ok ({ va := va, len := n, res := .error c } :: ps) s
      | r => r
    | .ok pa t s =>
      if isDevice pa then .device
      else match s.split who ag k rest with
        | .ok ps s => .ok ({ va := va, len := n, res := .ok (pa, t) } :: ps) s
        | r => r

/-- The physical address of a translated piece. -/
def Piece.pa (p : Piece) : Nat :=
  match p.res with
  | .ok (pa, _) => pa
  | .error _ => 0

/-- An access whose pieces have been translated waits: a read behind posted writes to the host (R295), or an access for which the core
has too few memory requests left (R19). -/
def State.mustWait (s : State) (k : Kind) (ps : List Piece) : Bool :=
  (k.read && ps.any fun p => s.hostBusy p.pa) || 4096 < s.requests + (ps.map fun p => (sectorsOf p.pa p.len).length).sum

/-- The access of the word in action that was parked has been translated, as one of these pieces: it is parked no more (R355). -/
def State.unparkEngine (s : State) (ps : List (Word × Nat)) : State :=
  if s.act.parked.isSome && ps.any fun p => p.1 = s.act.parkVa then
    s.upd fun e => { e with parked := none, woken := false, wait := 0 }
  else s

/-- A word of an engine translates the pieces of its access and goes on; a park waits, and so does a read behind posted writes to the
host, and an access beyond the limit of requests. -/
def withSplitFor (who : Option Nat) (ag : Agent) (k : Kind) (ps : List (Word × Nat)) (s : State) (go : List Piece → State → Out) :
    Out :=
  match s.split who ag k ps with
  | .device => .fault .deviceRegisters
  | .park va l s => .next (s.parkEngine va l)
  | .ok qs s => if s.mustWait k qs then .next (s.unparkEngine ps).standBy else go qs (s.unparkEngine ps)

/-- The pieces of an access that stops at the first that cannot be reached: none after it is translated (R241, R429). -/
def State.splitTo (s : State) (who : Option Nat) (ag : Agent) (k : Kind) : List (Word × Nat) → Split
  | [] => .ok [] s
  | (va, n) :: rest =>
    match s.translateFor who ag k va with
    | .park l s => .park va l s
    | .fault c s => .ok [{ va := va, len := n, res := .error c }] s
    | .ok pa t s =>
      if isDevice pa then .device
      else match s.splitTo who ag k rest with
        | .ok ps s => .ok ({ va := va, len := n, res := .ok (pa, t) } :: ps) s
        | r => r

/-- A word translates the pieces of an access that stops at the first that cannot be reached. -/
def withSplitTo (who : Option Nat) (ag : Agent) (k : Kind) (ps : List (Word × Nat)) (s : State) (go : List Piece → State → Out) :
    Out :=
  match s.splitTo who ag k ps with
  | .device => .fault .deviceRegisters
  | .park va l s => .next (s.parkEngine va l)
  | .ok qs s => if s.mustWait k qs then .next (s.unparkEngine ps).standBy else go qs (s.unparkEngine ps)

/-- A word of an engine of the core in focus translates the pieces of its access. -/
def withSplit (ag : Agent) (k : Kind) (ps : List (Word × Nat)) (s : State) (go : List Piece → State → Out) : Out :=
  withSplitFor (some s.cur) ag k ps s go

/-- The stream of pointer `p` of the engine in action, at the privilege of its entry (R195, R349). -/
def State.streamAgent (s : State) (k : Nat) : Agent := { stream := some k, priv := s.act.entry.priv }

/-- The holders that serve an engine's accesses: the die's L2. -/
def State.engHolders (s : State) : List Holder := [.l2 s.dieNo]

/-- The 64-byte sectors of a piece of an access that starts at `ea`: index in the access, virtual address, and where it lies or why
it cannot be reached. -/
def Piece.sectors (p : Piece) (ea : Word) : List (Nat × Word × Except Cause (Nat × Tlb)) :=
  let first := (p.va - ea).toNat / 64
  (List.range (p.len / 64)).map fun k =>
    (first + k, p.va + BitVec.ofNat 64 (64 * k), p.res.map fun x => (x.1 + 64 * k, x.2))

/-- The mark of a sector makes a read of it fail (R473). -/
def State.readable (s : State) (x : Nat × Word × Except Cause (Nat × Tlb)) : Nat × Word × Except Cause (Nat × Tlb) :=
  match x.2.2 with
  | .ok (pa, t) => match s.markAt s.engHolders t (sectorOf pa) with
    | some c => (x.1, x.2.1, .error c)
    | none => (x.1, x.2.1, .ok (pa, t))
  | .error _ => x

/-- The first sector of a list that cannot perform. -/
def firstBad (l : List (Nat × Word × Except Cause (Nat × Tlb))) : Option (Nat × Word × Cause) :=
  l.findSome? fun x => match x.2.2 with
    | .error c => some (x.1, x.2.1, c)
    | .ok _ => none

/-- A sector read into a buffer. -/
def State.readInto (s : State) (al : Alloc) (acc : List Byte × State) (x : Nat × Word × Except Cause (Nat × Tlb)) :
    List Byte × State :=
  match x.2.2 with
  | .ok (pa, t) =>
    let (bs, s') := acc.2.loadPhys s.engHolders al t pa 64
    (patchBytes acc.1 (64 * x.1) bs, s')
  | .error _ => acc

/-- A sector written from a buffer. -/
def State.writeFrom (s : State) (al : Alloc) (data : List Byte) (acc : State) (x : Nat × Word × Except Cause (Nat × Tlb)) : State :=
  match x.2.2 with
  | .ok (pa, t) => acc.storeAcc s.engHolders al t pa ((data.drop (64 * x.1)).take 64)
  | .error _ => acc

/-- The indices of the sectors that can perform. -/
def goodOnes (l : List (Nat × Word × Except Cause (Nat × Tlb))) : List Nat :=
  l.filterMap fun x => match x.2.2 with
    | .ok _ => some x.1
    | .error _ => none

/-- The pieces of a vector access of which a sector has still to perform: a word that stopped part way does not translate the others
again (R353). -/
def State.leftPieces (s : State) (ea : Word) (n : Nat) : List (Word × Nat) :=
  let done := (s.act.part.getD {}).done
  (piecesOf ea n).filter fun p => (List.range (p.2 / 64)).any fun k => !done.contains ((p.1 - ea).toNat / 64 + k)

/-- A vector read of `n` bytes, a multiple of 64, from an address (R353): every sector that can perform is read, those read before a
stop are kept, and the first that cannot stops the word. -/
def vecRead (ag : Agent) (al : Alloc) (ea : Word) (n : Nat) (s : State) (go : List Byte → State → Out) : Out :=
  let p0 := s.act.part.getD {}
  withSplit ag { read := true } (s.leftPieces ea n) s fun ps s =>
    let todo := ((ps.flatMap fun p => p.sectors ea).filter fun x => !p0.done.contains x.1).map s.readable
    let buf := if p0.data.isEmpty then List.replicate n 0 else p0.data
    let (buf, s) := todo.foldl (s.readInto al) (buf, s)
    match firstBad todo with
    | none => go (buf.take n) s
    | some (i, va, c) =>
      let s := s.engFault c va (BitVec.ofNat 16 i)
      .next (s.upd fun e => { e with part := some { p0 with done := p0.done ++ goodOnes todo, data := buf } })

/-- A vector write: every sector that can perform is written, and the source is kept for the rest (R353). -/
def vecWrite (ag : Agent) (al : Alloc) (ea : Word) (src : List Byte) (s : State) (go : State → Out) : Out :=
  let p0 := s.act.part.getD {}
  withSplit ag { write := true } (s.leftPieces ea src.length) s fun ps s =>
    let todo := (ps.flatMap fun p => p.sectors ea).filter fun x => !p0.done.contains x.1
    let s := todo.foldl (s.writeFrom al src) s
    match firstBad todo with
    | none => go s
    | some (i, va, c) =>
      let s := s.engFault c va (BitVec.ofNat 16 i)
      .next (s.upd fun e => { e with part := some { p0 with done := p0.done ++ goodOnes todo, src := src } })

/-! ## What an AE word waits for (R192-R194) -/

/-- Pointer `p` of an engine. -/
def State.ptr (s : State) (p : BitVec 4) : Word := vget s.act.ptr p

/-- An access of the AE in flight will write a destination. -/
def Core.loading (c : Core) (d : LDest) : Bool :=
  c.loads.any fun l => match l.dest, d with
    | .gran g, .gran h => g = h
    | .bound g _ _, .gran h => g = h
    | .ofile o, .ofile q => o = q
    | .ptr p, .ptr q => p = q
    | _, _ => false

/-- An access of a class is on the wheel: some of its units have still to perform (R198). -/
def Core.onWheel (c : Core) (cls : BitVec 4) : Bool := c.loads.any fun l => l.spad && !l.reqsLeft.isEmpty && l.cls = cls

/-- An access to memory follows the AE's earlier accesses of its class (R193, R199, R288): it issues when those on the wheel have performed
(assumption log 77). -/
def aeOrder (cls : BitVec 4) (s : State) (go : Out) : Out := if s.core.onWheel cls then .next (s.stall 7) else go

/-- A word that uses pointers waits for the pending LDIs that write them; one that issues `n` memory requests also until they keep to the
limit of R19. -/
def aeReady (ps : List (BitVec 4)) (n : Nat) (s : State) (go : Out) : Out :=
  if ps.any (fun p => s.core.loading (.ptr p)) || (n ≠ 0 && 4096 < s.requests + n) then .next (s.stall 7) else go

/-- A register that an AE word names: a granule, an operand-file entry, or a queue. None for VIEW_INVALID. -/
def Core.aeOperand (c : Core) (f : BitVec 8) : Option VDest :=
  match operand f with
  | .main v i => (c.granuleOf v i).map .gran
  | .ofile o => some (.ofile o)
  | .queue q => some (.sq (q.setWidth 1) q.toNat)
  | _ => none

/-- A source of an AE word at issue (R193, R176): its 1 KiB, and the core with a queue entry popped. A word that stopped part way has
kept its source. -/
def aeSource' (f : BitVec 8) (s : State) (go : Granule → Core → Out) : Out :=
  match s.core.aeOperand f with
  | none => viewInvalid s
  | some (.gran g) => if s.core.loading (.gran g) then .next (s.stall 7) else go (s.core.regs.granule g) s.core
  | some (.ofile o) => if s.core.loading (.ofile o) then .next (s.stall 7) else go (vget s.core.regs.ofile o) s.core
  | some (.sq q _) =>
    match vget s.core.sqq q with
    | .full g :: rest => go g { s.core with sqq := vset s.core.sqq q rest }
    | _ => .next (s.stall 6)
  | some (.mask _) => viewInvalid s

/-- A destination of an AE load is resolved, and a data queue has room; `go` gets what reserves it (R176, R204). -/
def aeDest' (f : BitVec 8) (s : State) (go : (Core → LDest × Core) → Out) : Out :=
  match operand f with
  | .queue q =>
    if (vget s.core.dq q).length < 8 then
      go fun c => (.dq q c.seq, { c with dq := vset c.dq q (vget c.dq q ++ [.reserved c.seq]), seq := c.seq + 1 })
    else .next (s.stall 5)
  | .main v i =>
    match s.core.granuleOf v i with
    | some g => go fun c => (.gran g, c)
    | none => viewInvalid s
  | .ofile o => go fun c => (.ofile o, c)
  | _ => viewInvalid s

/-- A load is in flight; one of memory comes back no earlier than its replies (R431). -/
def State.launchLoad (s : State) (reserve : Core → LDest × Core) (l : AeLoad) : State :=
  let (d, c) := reserve s.core
  { s with core := { c with loads := c.loads ++ [{ l with dest := d, due := if l.spad then l.due else s.reply }] } }

/-! ## The scratchpad's wheel (R197, R198) -/


/-- A request that reaches bank `b` in fabric cycle `t` is served in the slot's first turn after its earlier requests there. -/
def serve (slot t : Nat) (wheel : SMap Nat) (b : Nat) : Nat × SMap Nat :=
  let first := t + (slot + b + 12 * 12 - t % 12) % 12
  let u := match smFind wheel b with
    | some last => if first ≤ last then last + 12 else first
    | none => first
  (u, smSet wheel b u)

/-- The bank of an offset in a quad's scratchpad (R24). -/
def bankOf (off : Nat) : Nat := off / 64 % 32

/-- The requests of an access that slot `slot` issues in arithmetic cycle `c`: each performs four fabric cycles after its bank has served
it. -/
def serveAll (slot c : Nat) : List (Nat × SpadOp) → SMap Nat → List SpadReq × SMap Nat
  | [], wheel => ([], wheel)
  | (off, op) :: rest, wheel =>
    let (u, wheel) := serve slot (2 * c + 2) wheel (bankOf off)
    let (l, wheel) := serveAll slot c rest wheel
    ({ cycle := u + 4, off := off, op := op } :: l, wheel)

/-- The arithmetic cycle in which the last of some requests has performed; `c` where there is none. -/
def lastCycle (c : Nat) (l : List SpadReq) : Nat := (l.foldl (fun a r => max a r.cycle) (2 * c) + 1) / 2

/-- The cycle in which the last request of the AE's accesses of a class performs. -/
def Core.classEnd (c : Core) (cls : BitVec 4) : Nat :=
  (c.loads.filter fun l => l.spad && l.cls = cls).foldl (fun a l => l.reqsLeft.foldl (fun a r => max a r.cycle) a) 0

/-- A scratchpad access of the AE of a class is in flight: its requests travel to their banks. None performs before those of the earlier
accesses of its class (R193, R199; assumption log 77). -/
def State.spadLoad (s : State) (cls : BitVec 4) (ops : List (Nat × SpadOp)) (search : Option (Nat × Nat))
    (reserve : Core → LDest × Core) : State :=
  let (l, w) := serveAll s.pos s.time.toNat ops s.core.aeWheel
  let l := l.map fun r => { r with cycle := max r.cycle (s.core.classEnd cls) }
  let due := lastCycle s.time.toNat l + (if search.isSome then 16 else 0)
  { s with core.aeWheel := w }.launchLoad reserve
    { dest := .none, spad := true, reqsLeft := l, search := search, due := BitVec.ofNat 64 due, cls := cls }

/-- The requests of `n` bytes from a window offset, a unit each (R196): unit `k` begins at byte 64 k of the access. -/
def State.unitOps (s : State) (o n : Nat) (op : Nat → SpadOp) : List (Nat × SpadOp) :=
  (List.range ((n + 63) / 64)).map fun k => (s.spadAt (o + 64 * k), op k)

/-- 64 bytes of a granule from byte 64 k. -/
def granUnit (g : Granule) (k : Nat) : List Byte := ((granBytes g).drop (64 * k)).take 64

/-- No register is written when the access completes. -/
def noDest (c : Core) : LDest × Core := (.none, c)

/-! ## LDV, STV, LDS, STS (R204) -/

/-- The address of a format AM word whose offset counts in 1 KiB units. -/
def State.kibAddr (s : State) (p : BitVec 4) (imm : BitVec 10) : Word := s.ptr p + sext64 imm * 1024

/-- A scratchpad offset with bits 5:0 taken as zero. -/
def spadOff (o : Word) : Nat := o.toNat / 64 * 64

def execLdv (opd : BitVec 8) (p cls : BitVec 4) (imm : BitVec 10) (s : State) : Out :=
  aeReady [p] 16 s <| aeOrder cls s <| aeDest' opd s fun reserve =>
    let ea := s.kibAddr p imm
    if ea.toNat % 64 ≠ 0 then .next (s.engFault .misaligned ea 0)
    else vecRead (s.streamAgent p.toNat) .all ea 1024 s fun bs s =>
      .next ((s.launchLoad reserve { dest := .none, data := granOfBytes bs, reqs := 16 }).wordDone 2)

/-- A store keeps the source that it has read at issue while it waits or stops part way (R193, R207, R273). -/
def State.keepSource (s : State) (src : List Byte) : State :=
  s.upd fun e => { e with part := some { (e.part.getD {}) with src := src } }

/-- The source of a store that may have waited or stopped part way: the bytes it kept, else the source read now. -/
def storeSource (f : BitVec 8) (s : State) (go : List Byte → Core → State → Out) : Out :=
  aeSource' f s fun g c =>
    let kept := (s.act.part.map (·.src)).getD []
    let src := if kept.isEmpty then granBytes g else kept
    go src c (s.keepSource src)

def execStv (opd : BitVec 8) (p cls : BitVec 4) (imm : BitVec 10) (s : State) : Out :=
  aeReady [p] 16 s <| aeOrder cls s <| storeSource opd s fun src c s1 =>
    let ea := s.kibAddr p imm
    if ea.toNat % 64 ≠ 0 then .next (s.engFault .misaligned ea 0)
    else vecWrite (s.streamAgent p.toNat) .all ea src s1 fun s =>
      .next (State.wordDone { s with core := { s.core with sqq := c.sqq } } 2)

def execLds (opd : BitVec 8) (p cls : BitVec 4) (imm : BitVec 10) (s : State) : Out :=
  aeReady [p] 0 s <| aeDest' opd s fun reserve =>
    let o := spadOff (s.kibAddr p imm)
    .next ((s.spadLoad cls (s.unitOps o 1024 fun k => .read (64 * k) 64) none reserve).wordDone 2)

def execSts (opd : BitVec 8) (p cls : BitVec 4) (imm : BitVec 10) (s : State) : Out :=
  aeReady [p] 0 s <| aeSource' opd s fun g c =>
    let o := spadOff (s.kibAddr p imm)
    .next ((State.spadLoad { s with core := c } cls (s.unitOps o 1024 fun k => .write (granUnit g k)) none noDest).wordDone 2)

/-! ## GATH and SCAT (R205, R207) -/

/-- The row size of a size code. -/
def rowBytes (size : BitVec 2) : Nat := 128 * 2 ^ size.toNat

/-- The index pointers of a gather or scatter. -/
def indexPtrs (idx : BitVec 4) (size : BitVec 2) : List (BitVec 4) :=
  (List.range (1024 / rowBytes size)).map fun j => idx + BitVec.ofNat 4 j

/-- The address of row j. -/
def State.rowAddr (s : State) (p idx : BitVec 4) (size : BitVec 2) (j : Nat) : Word :=
  s.ptr p + s.ptr (idx + BitVec.ofNat 4 j) * BitVec.ofNat 64 (rowBytes size)

/-- The rows of a GATH, in order from row `j`: the buffer and the count of replaced rows grow. A page fault of a row comes before a
mark in it. -/
def gathRows (ag : Agent) (size : Nat) (zp : Bool) (done : List Byte → Nat → State → Out) :
    List (Nat × Word) → List Byte → Nat → State → Out
  | [], buf, z, s => done buf z s
  | (j, a) :: rest, buf, z, s =>
    withSplit ag { read := true } (piecesOf a size) s fun ps s =>
      let elem := BitVec.ofNat 16 (j * size / 64)
      let secs := ps.flatMap fun p => p.sectors a
      match firstBad secs with
      | some (_, va, c) => .next (s.engFault c va elem)
      | none =>
        match firstBad (secs.map s.readable) with
        | some (_, va, c) =>
          if zp then gathRows ag size zp done rest (buf ++ List.replicate size 0) (z + 1) s
          else .next (s.engFault c va elem)
        | none =>
          let (bs, s) := secs.foldl (s.readInto .all) (List.replicate size 0, s)
          gathRows ag size zp done rest (buf ++ bs) z s

/-- GATH reads memory alone, as its own rules say, although R27's table names it beside the scratchpad (assumption log 65). -/
def execGath (opd : BitVec 8) (p cls idx : BitVec 4) (size : BitVec 2) (zp : BitVec 1) (s : State) : Out :=
  let ptrs := indexPtrs idx size
  aeReady (p :: ptrs) 16 s <| aeOrder cls s <| aeDest' opd s fun reserve =>
    if (s.ptr p).toNat % 64 ≠ 0 then .next (s.engFault .misaligned (s.ptr p) 0)
    else
      let rows := (List.range ptrs.length).map fun j => (j, s.rowAddr p idx size j)
      gathRows (s.streamAgent p.toNat) (rowBytes size) (zp = 1) (fun buf z s =>
        .next ((s.launchLoad reserve { dest := .none, data := granOfBytes buf, reqs := 16, poison := z }).wordDone 2)) rows [] 0 s

/-- The sectors of a SCAT in ascending order: the first that cannot perform stops it, and it continues there (R207). -/
def scatSectors (ag : Agent) (src : List Byte) (done : State → Out) : List (Nat × Word) → State → Out
  | [], s => done s
  | (i, va) :: rest, s =>
    withSplit ag { write := true } [(va, 64)] s fun ps s =>
      match firstBad (ps.flatMap fun p => p.sectors (va - BitVec.ofNat 64 (64 * i))) with
      | some (_, va, c) =>
        let s := s.engFault c va (BitVec.ofNat 16 i)
        .next (s.upd fun e => { e with part := some { (e.part.getD {}) with done := List.range i, src := src } })
      | none =>
        let s' := (ps.flatMap fun p => p.sectors (va - BitVec.ofNat 64 (64 * i))).foldl (s.writeFrom .all src) s
        let s' := s'.upd fun e => { e with part := some { (e.part.getD {}) with done := List.range (i + 1), src := src } }
        scatSectors ag src done rest s'

/-- SCAT writes memory alone (assumption log 65). -/
def execScat (opd : BitVec 8) (p cls idx : BitVec 4) (size : BitVec 2) (s : State) : Out :=
  let ptrs := indexPtrs idx size
  aeReady (p :: ptrs) 16 s <| aeOrder cls s <| storeSource opd s fun src c s1 =>
    if (s.ptr p).toNat % 64 ≠ 0 then .next (s.engFault .misaligned (s.ptr p) 0)
    else
      let per := rowBytes size / 64
      let from' := (s.act.part.getD {}).done.length
      let secs := ((List.range 16).filter fun i => from' ≤ i).map fun i =>
        (i, s.rowAddr p idx size (i / per) + BitVec.ofNat 64 (64 * (i % per)))
      scatSectors (s.streamAgent p.toNat) src (fun s =>
        .next (State.wordDone { s with core := { s.core with sqq := c.sqq } } 2)) secs s1

/-! ## LDI, PREF (R208, R209) -/

def execLdi (pd : BitVec 4) (size : BitVec 2) (p cls : BitVec 4) (imm : BitVec 10) (s : State) : Out :=
  aeReady [p, pd] 1 s <| aeOrder cls s <|
    let n := szBytes size
    let ea := s.ptr p + sext64 imm * BitVec.ofNat 64 n
    if ea.toNat % n ≠ 0 then .next (s.engFault .misaligned ea)
    else withSplit (s.streamAgent p.toNat) { read := true } [(ea, n)] s fun ps s =>
      match ps with
      | [] => .next s
      | x :: _ =>
        match x.res with
        | .error c => .next (s.engFault c ea)
        | .ok (pa, t) =>
          match s.marked s.engHolders t pa n with
          | some (_, c) => .next (s.engFault c ea)
          | none =>
            let (bs, s) := s.loadPhys s.engHolders .all t pa n
            let l : AeLoad := { dest := .none, value := BitVec.ofNat 64 (leNat bs), reqs := 1 }
            .next ((s.launchLoad (fun c => (.ptr pd, c)) l).wordDone 2)

/-- Where a prefetch finds a page that it may read, in package memory of a world that it may reach (R209, R464). -/
def State.peek (s : State) (ag : Agent) (va : Word) : Option (Nat × Tlb) :=
  (s.peekLeaf ag va).bind fun t =>
    let pa := t.frame + va.toNat % t.size
    if (t.permits ag { read := true }).isSome || isHost pa || inDevice pa || (s.secureRegion pa && !s.secureAgent ag t.ctx) then none
    else some (pa, t)

/-- One piece of a prefetch is fetched into the die's L2, or dropped; the sectors whose fetch is under way. -/
def State.prefetch (ag : Agent) (r : State × Nat) (p : Word × Nat) : State × Nat :=
  let s := r.1.peeked ag p.1
  match r.1.peek ag p.1 with
  | some (pa, t) => (((s.wakeHome pa).loadPhys s.engHolders .l2only t pa p.2).2.fillAhead ag t, r.2 + p.2 / 64)
  | none => (s, r.2)

/-- PREF: what it fetches counts toward the limit of requests until it returns (R209). -/
def execPref (p _cls : BitVec 4) (imm : BitVec 10) (s : State) : Out :=
  aeReady [p] 16 s <|
    let ea := BitVec.ofNat 64 (spadOff (s.kibAddr p imm))
    let r := (piecesOf ea 1024).foldl (State.prefetch (s.streamAgent p.toNat)) (s, 0)
    .next ((if r.2 = 0 then r.1 else r.1.launchLoad noDest { dest := .none, reqs := r.2 }).wordDone 2)

/-! ## ATOMS, SRCHK, HIST (R210, R405-R408) -/

/-- The new element of an ATOMS op. -/
def atomsElem (op : BitVec 3) (old v : Nat) : Nat :=
  match op.toNat with
  | 0 => (old + v) % 2 ^ 32
  | 1 => Ty.convert .f32 {} (fAdd 0 (Ty.value .f32 old) (Ty.value .f32 v))
  | 2 => if intOf true 32 v < intOf true 32 old then v else old
  | 3 => if intOf true 32 old < intOf true 32 v then v else old
  | _ => v

/-- A unit after an ATOMS, element by element. -/
def atomsUnit (op : BitVec 3) (old v : List Byte) : List Byte :=
  (List.range (old.length / 4)).flatMap fun j =>
    leBytes 4 (atomsElem op (leNat ((old.drop (4 * j)).take 4)) (leNat ((v.drop (4 * j)).take 4)))

/-- Where the old elements of a swap go: a main-file or operand-file source (R210). -/
def Core.swapDest (c : Core) (op : BitVec 3) (opd : BitVec 8) : Core → LDest × Core :=
  if op.toNat = 4 then
    match c.aeOperand opd with
    | some (.gran g) => fun c => (.gran g, c)
    | some (.ofile o) => fun c => (.ofile o, c)
    | _ => noDest
  else noDest

/-- ATOMS. -/
def execAtoms (opd : BitVec 8) (p cls : BitVec 4) (op : BitVec 3) (s : State) : Out :=
  aeReady [p] 0 s <| aeSource' opd s fun g c =>
    let o := spadOff (s.ptr p)
    let ops := s.unitOps o 1024 fun k => .update op (64 * k) (granUnit g k)
    .next ((State.spadLoad { s with core := c } cls ops none (s.core.swapDest op opd)).wordDone 2)

/-- One bit of the search of R405: the flagged columns and those still searched. -/
def searchBit (key : Nat → Nat) (k b : Nat) (fs : List Nat × List Nat) : List Nat × List Nat :=
  let ones := fs.2.filter fun c => (key c).testBit b
  if k ≤ fs.1.length + ones.length then (fs.1, ones)
  else (fs.1 ++ ones, fs.2.filter fun c => !(key c).testBit b)

/-- The columns of the k largest keys among C (R405). -/
def searchColumns (key : Nat → Nat) (n k : Nat) : List Nat :=
  let (f, t) := (List.range 16).foldl (fun fs i => searchBit key k (15 - i) fs) ([], List.range n)
  f ++ t.take (k - f.length)

/-- A column into its place: descending key, equal keys by ascending column. -/
def insertCol (key : Nat → Nat) (c : Nat) : List Nat → List Nat
  | [] => [c]
  | h :: t => if key h < key c || (key h = key c && c < h) then c :: h :: t else h :: insertCol key c t

/-- The entries of SRCHK's result (R406). -/
def searchResult (keys : List Nat) (n k : Nat) : Granule :=
  let v := keys.toArray
  let key (c : Nat) : Nat := v.getD c 0
  let cols := (searchColumns key n k).foldr (insertCol key) []
  packElems 32 (cols.map fun c => key c * 2 ^ 16 + 2 ^ 15 + c)

/-- The keys of a row of SRCHK, of two bytes each. -/
def rowKeys (g : Granule) (n : Nat) : List Nat := (elemsOf 16 g).take n

/-- SRCHK reads its row and completes 16 cycles after the row's last unit has arrived (R407). -/
def execSrchk (opd : BitVec 8) (p cls : BitVec 4) (cols : BitVec 8) (k : BitVec 2) (s : State) : Out :=
  aeReady [p] 0 s <| aeDest' opd s fun reserve =>
    let o := spadOff (s.ptr p)
    let n := cols.toNat + 1
    let ops := s.unitOps o (2 * n) fun j => .read (64 * j) (min 64 (2 * n - 64 * j))
    .next ((s.spadLoad cls ops (some (n, 2 ^ k.toNat)) reserve).wordDone 2)

/-- The elements of HIST that carry a valid flag: their columns, in order. -/
def histColumns (g : Granule) : List Nat := ((elemsOf 32 g).filter fun v => v.testBit 15).map (· % 256)

def execHist (opd : BitVec 8) (p cls : BitVec 4) (experts : BitVec 8) (s : State) : Out :=
  aeReady [p] 0 s <| aeSource' opd s fun g c =>
    let o := spadOff (s.ptr p)
    let cs := histColumns g
    let ops := (cs.filter (· ≤ experts.toNat)).map fun c => (s.spadAt (o + 4 * c), SpadOp.incr)
    let oor := (cs.filter (experts.toNat < ·)).length
    let s' := { s with core := { c with counts.histoor := sat32 c.counts.histoor oor } }
    .next ((s'.spadLoad cls ops none noDest).wordDone 2)

/-! ## Pointer operations (R89, R211) -/

/-- A pointer of the engine in action written. -/
def State.setPtr (s : State) (p : BitVec 4) (v : Word) : State := s.upd fun e => { e with ptr := vset e.ptr p v }

/-- A pointer operation: on the AE it waits for the pending LDIs of the pointers it uses. -/
def pointerOp (pd : BitVec 4) (uses : List (BitVec 4)) (v : State → Word) (s : State) : Out :=
  let go : Out := .next ((s.setPtr pd (v s)).wordDone 2)
  if s.actor = .ae then aeReady (pd :: uses) 0 s go else go

def execPaddi (pd ps : BitVec 4) (imm : BitVec 18) (s : State) : Out := pointerOp pd [ps] (fun s => s.ptr ps + sext64 imm) s

def execPadd (pd ps : BitVec 4) (s : State) : Out := pointerOp pd [ps] (fun s => s.ptr pd + s.ptr ps) s

def execPmovi (pd : BitVec 4) (imm : BitVec 18) (s : State) : Out := pointerOp pd [] (fun _ => sext64 imm) s

def execPmova (pd : BitVec 4) (arg : BitVec 2) (s : State) : Out := pointerOp pd [] (fun s => s.arg arg) s

def execPmuli (pd ps : BitVec 4) (imm : BitVec 18) (s : State) : Out := pointerOp pd [ps] (fun s => s.ptr ps * sext64 imm) s

/-- PCMP pushes 1 where the condition holds, else 0. -/
def execPcmp (ps pt : BitVec 4) (cond tgt : BitVec 3) (s : State) : Out :=
  aeReady [ps, pt] 0 s <|
    let v := boolWord (((condOf cond).map fun c => c.holds (s.ptr ps) (s.ptr pt)).getD false)
    pushOr tgt v s fun s => .next (s.wordDone 2)

/-! ## Returns -/

/-- The data of an access arrives: its register is written, and the rows that .zp replaced are counted (R193, R205). -/
def Core.deliver (c : Core) (l : AeLoad) : Core :=
  let c := { c with counts.poison := sat32 c.counts.poison l.poison }
  let l := match l.search with
    | some (n, k) => { l with data := searchResult (rowKeys l.data n) n k }
    | none => l
  match l.dest with
  | .gran g => { c with regs := c.regs.plainWrite g l.data }
  | .ofile o => { c with regs.ofile := vset c.regs.ofile o l.data }
  | .dq q tag => { c with dq := vset c.dq q (fillSlot (vget c.dq q) tag l.data) }
  | .ptr p => { c with ae.ptr := vset c.ae.ptr p l.value }
  | .bound g k codes => { c with regs := Regs.bind { c.regs with gran := smSet c.regs.gran g l.data } g k codes }
  | .none => c

/-- A load of memory has come back: its reply has crossed the die boundaries (R431). -/
def AeLoad.back (l : AeLoad) (time : Word) : Bool := !l.spad && l.due.toNat ≤ time.toNat

/-- A scratchpad access whose last unit has been done, and whose data is usable from this cycle on (R198). -/
def AeLoad.landsBy (l : AeLoad) (time : Word) : Bool := l.spad && l.reqsLeft.isEmpty && l.due.toNat ≤ time.toNat

/-- An access in flight of a kind returns, if it stands at that place in the list. -/
def State.arrive (s : State) (idx : Nat) (p : AeLoad → Bool) : State :=
  match s.core.loads[idx]? with
  | some l => if p l then { s with core := Core.deliver { s.core with loads := s.core.loads.eraseIdx idx } l } else s
  | none => s

/-- A load into a data queue. -/
def AeLoad.toQueue (l : AeLoad) : Bool := match l.dest with | .dq _ _ => true | _ => false

/-- A load of a pointer. -/
def AeLoad.toPtr (l : AeLoad) : Bool := match l.dest with | .ptr _ => true | _ => false

/-- AE_LOAD_RETURN: all data of an access of memory arrives in its register. -/
def execAeLoadReturn (idx : Nat) (s : State) : Out := .next (s.arrive idx fun l => l.back s.time && !l.toQueue && !l.toPtr)

/-- LDI_DATA_RETURN: the value of a pending LDI arrives. -/
def execLdiDataReturn (idx : Nat) (s : State) : Out := .next (s.arrive idx fun l => l.back s.time && l.toPtr)

/-- SCRATCHPAD_ACCESS_COMPLETE: the last unit of an access has been served, not before its time (R198). -/
def execScratchpadAccessComplete (idx : Nat) (s : State) : Out :=
  .next (s.arrive idx fun l => l.landsBy s.time)

/-! ## The banks perform their requests (R198) -/

/-- A request performs: the scratchpad after it, and the data of its access. -/
def SpadOp.perform (op : SpadOp) (m : Memory) (off : Nat) (data : Granule) : Memory × Granule :=
  let put (at' : Nat) (bs : List Byte) : Granule := granOfBytes (patchBytes (granBytes data) at' bs)
  match op with
  | .read at' n => (m, put at' (readBytes m off n))
  | .write bs => (writeBytes m off bs, data)
  | .update op at' bs =>
    let old := readBytes m off bs.length
    (writeBytes m off (atomsUnit op old bs), put at' old)
  | .incr => (writeBytes m off (leBytes 4 ((leNat (readBytes m off 4) + 1) % 2 ^ 32)), data)

/-- A request that falls due: its core, the place of its access in the list of the AE's, none for the unit of the CE, and what it is. -/
structure DueReq where
  core : Nat
  place : Option Nat
  req : SpadReq

/-- The requests of core `n` that perform up to a fabric cycle. -/
def Core.reqsDue (c : Core) (n last : Nat) : List DueReq :=
  (c.loads.zipIdx.flatMap fun l => (l.1.reqsLeft.filter fun r => r.cycle ≤ last).map fun r => { core := n, place := some l.2, req := r }) ++
    ((c.ce.part.bind (·.unit)).filter fun r => r.cycle ≤ last).toList.map fun r => { core := n, place := none, req := r }

/-- A request into its place by its cycle; of those of one cycle the earlier access stays first. -/
def insertReq (x : DueReq) : List DueReq → List DueReq
  | [] => [x]
  | y :: t => if x.req.cycle ≤ y.req.cycle then x :: y :: t else y :: insertReq x t

/-- One request performs. -/
def State.performReq (s : State) (x : DueReq) : State :=
  let c := s.coreAt x.core
  let q := s.quadAt (x.core / 4)
  let after (data : Granule) : Memory × Granule := x.req.op.perform q.spad x.req.off data
  match x.place with
  | none =>
    let (m, d) := after 0
    let got := match x.req.op with | .read _ n => (granBytes d).take n | _ => []
    let part := (c.ce.part.getD {})
    (s.setQuad (x.core / 4) { q with spad := m }).setCoreAt x.core { c with ce.part := some { part with unit := none, got := got } }
  | some i =>
    match c.loads[i]? with
    | none => s
    | some l =>
      let (m, d) := after l.data
      let s := s.setQuad (x.core / 4) { q with spad := m }
      s.setCoreAt x.core { c with loads := c.loads.set i { l with data := d, reqsLeft := l.reqsLeft.erase x.req } }

/-- The scratchpad accesses of a core that are complete write their registers (R193, R198). -/
def Core.landSpad (c : Core) (time : Word) : Core :=
  if c.loads.any fun l => l.landsBy time then
    (c.loads.filter fun l => l.landsBy time).foldl Core.deliver { c with loads := c.loads.filter fun l => !l.landsBy time }
  else c

/-- The cores with their numbers, in ascending order. -/
def State.cores (s : State) : SMap Core := smSet s.others s.cur s.core

/-- Every core changed alike. -/
def State.eachCore (s : State) (f : Core → Core) : State :=
  { s with core := f s.core, others := s.others.map fun c => (c.1, f c.2) }

/-- Every request performs whose fabric cycle has passed when arithmetic cycle TIME begins, in the order of their cycles, and the accesses
that are then complete write their registers. -/
def State.performDue (s : State) : State :=
  let l := s.cores.flatMap fun c => c.2.reqsDue c.1 (2 * s.time.toNat)
  ((l.foldr insertReq []).foldl State.performReq s).eachCore fun c => c.landSpad s.time

/-! ## Cycles pass (R4, R15, R138, R198) -/

/-- Nothing of a core lands or performs as cycles pass: no VE write is pending, and no scratchpad access on its way. -/
def Core.quiet (c : Core) : Bool :=
  (c.vex.pend.isEmpty || !c.veRuns) && (c.loads.all fun l => !l.spad) && ((c.ce.part.bind (·.unit)).isNone)

/-- The next cycle of TIME begins: the VE writes due in it land, then what the banks have served. -/
def State.cycle (s : State) : State := State.performDue { s.eachCore Core.veTick with time := s.time + 1 }

/-- Cycles pass, one after another while anything can land in them. -/
def State.pass : Nat → State → State
  | 0, s => s
  | n + 1, s =>
    if s.cores.all fun c => c.2.quiet then { s.eachCore (·.veIdle (n + 1)) with time := s.time + BitVec.ofNat 64 (n + 1) }
    else s.cycle.pass n

/-- VE_WRITE_LAND: a cycle passes in which results land and nothing issues. -/
def execVeWriteLand (s : State) : Out := .next s.cycle

/-- A VE write to store queue `q` lands in the next VE cycle. -/
def Core.pushDue (c : Core) (q : Nat) : Bool :=
  c.vex.pend.any fun w => w.left = 1 && w.dests.any fun d => match d with | .sq k _ => k.toNat = q | _ => false

/-- DATA_QUEUE_ARRIVAL: the oldest load from memory toward dq `q`, 0 to 3, arrives; for 4 and 5 the cycle passes in which a push
to sq0 or sq1 lands. -/
def execDataQueueArrival (q : BitVec 3) (s : State) : Out :=
  if q.toNat < 4 then
    let here (l : AeLoad) : Bool := match l.dest with | .dq k _ => k.toNat = q.toNat && l.back s.time | _ => false
    match s.core.loads.findIdx? here with
    | some i => .next (s.arrive i here)
    | none => .next s
  else if s.core.veRuns && s.core.pushDue (q.toNat - 4) then .next s.cycle
  else .next s

end Sys2Proof.Machine
end

