-- ==== Sys2Proof/Machine/Tensor.lean ====
section
/-! DEFINITION. Tensor descriptors (R200-R203), the shape of a tensor's granules (R271), WVIEW (R133), and the words of the access
engine that carry scales: LDT, STT, SPILLP, FILLP (R272-R276). -/

namespace Sys2Proof.Machine

/-! ## Descriptors -/

/-- Dword `k` of a descriptor record. -/
def dword (d : BitVec 512) (k : Nat) : Nat := seg d.toNat (64 * k) 64

/-- V of a descriptor. -/
def descValid (d : BitVec 512) : Bool := d.getLsbD 63

/-- FMT. -/
def descFmt (d : BitVec 512) : Nat := seg d.toNat 0 4

/-- SMODE. -/
def descSmode (d : BitVec 512) : Nat := seg d.toNat 4 2

/-- CLASS. -/
def descClass (d : BitVec 512) : Nat := seg d.toNat 8 4

/-- HINT. -/
def descHint (d : BitVec 512) : BitVec 2 := bits d.toNat 12 2

/-- ROWS. -/
def descRows (d : BitVec 512) : Nat := seg (dword d 1) 0 32

/-- COLS. -/
def descCols (d : BitVec 512) : Nat := seg (dword d 1) 32 32

/-- ROWSTRIDE. -/
def descRowStride (d : BitVec 512) : Nat := dword d 2

/-- SCBASE. -/
def descScBase (d : BitVec 512) : Nat := dword d 3

/-- SCSTRIDE. -/
def descScStride (d : BitVec 512) : Nat := dword d 4

/-- A type that may carry scales: I8, E4M3, E5M2 or LOG6. -/
def scaledFmt (f : Nat) : Bool := f = 0 || f = 9 || f = 10 || f = 11

/-- The well-formed records of R201. -/
def descWf (d : BitVec 512) : Bool :=
  if !descValid d then d = 0
  else
    let d0 := dword d 0
    let size := ((Ty.ofCode (descFmt d)).map Ty.size).getD 0
    let rows := descRows d
    let cols := descCols d
    let m := descSmode d
    dword d 5 = 0 && dword d 6 = 0 && dword d 7 = 0 && seg d0 6 2 = 0 && seg d0 14 49 = 0 &&
    descFmt d ≤ 11 && seg d0 12 2 ≠ 3 && m ≠ 3 &&
    1 ≤ rows && rows ≤ 16777216 && 1 ≤ cols && cols ≤ 16777216 &&
    descRowStride d % size = 0 && cols * size ≤ descRowStride d &&
    (m ≠ 1 || (cols % 32 = 0 && cols / 32 ≤ descScStride d)) &&
    (m ≠ 2 || (rows % 32 = 0 && cols ≤ descScStride d)) &&
    (m = 0 || scaledFmt (descFmt d)) &&
    (m ≠ 0 || (descScBase d = 0 && descScStride d = 0))

/-- Descriptor `id` of the context of the core in focus. -/
def State.descriptor (s : State) (id : BitVec 8) : BitVec 512 :=
  smGet (s.ctxAt s.core.sq.ctxid.toNat).desc id.toNat 0

/-- Queues that are empty and engines with no entry that runs. -/
def State.quiet (s : State) (es : List Engine) : Bool :=
  es.all fun e => (s.eng e).q.isEmpty

/-- An SQ read of a record of `n` bytes, of alignment `n`, precise as an LD (R133, R203). -/
def readRecord (ra : BitVec 5) (n : Nat) (s : State) (go : Nat → State → Out) : Out :=
  let ea := s.x ra
  if ea.toNat % n ≠ 0 then .next (s.raise .misaligned ea)
  else s.withPa { read := true } ea fun pa t s => loadValue (sqHolders s.cur) pa n t .all s ea go

/-- TDSET waits for the AE, ME and CE, then loads a descriptor (R203). -/
def execTdset (ra : BitVec 5) (id : BitVec 8) (s : State) : Out :=
  s.resolve fun s =>
    if !s.quiet [.ae, .me, .ce] then .next s
    else readRecord ra 64 s fun v s =>
      let d := BitVec.ofNat 512 v
      if descWf d then
        let n := s.core.sq.ctxid.toNat
        let c := s.ctxAt n
        .next ((s.setCtx n { c with desc := smSet c.desc id.toNat d }).adv 4)
      else .next (s.raise .descriptorInvalid (s.x ra))

/-- WVIEW waits for the AE, VE and ME, then loads a view (R133). -/
def execWview (ra : BitVec 5) (view : BitVec 3) (s : State) : Out :=
  s.resolve fun s =>
    if !s.quiet [.ae, .ve, .me] then .next s
    else readRecord ra 16 s fun v s =>
      let w := BitVec.ofNat 128 v
      if viewWf w then .next (State.adv { s with core := s.core.setView view w } 4)
      else .next (s.raise .viewInvalid (s.x ra))

/-! ## The shape of a granule of a tensor (R271) -/

/-- A tensor as a word names it: its descriptor and base. -/
structure Tensor where
  desc : BitVec 512
  base : Word

/-- Wg, the columns of a granule. -/
def Tensor.wg (t : Tensor) : Nat := min (descCols t.desc) 1024

/-- r, the rows of a granule. -/
def Tensor.rows (t : Tensor) : Nat := 1024 / t.wg

/-- Row segments of the granule at a coordinate, each with its address. -/
def Tensor.segments (t : Tensor) (i c : Nat) : List Word :=
  (List.range t.rows).map fun k => t.base + BitVec.ofNat 64 ((i + k) * descRowStride t.desc + c)

/-- The runs of scales of the granule, one for each of its rows, each of Wg / 32 bytes. -/
def Tensor.scaleRuns (t : Tensor) (i c : Nat) : List Word :=
  (List.range t.rows).map fun k => BitVec.ofNat 64 (descScBase t.desc + (i + k) * descScStride t.desc + c / 32)

/-- The row of a coordinate. -/
def coordRow (v : Word) : Nat := v.toNat / 2 ^ 32

/-- The column of a coordinate. -/
def coordCol (v : Word) : Nat := v.toNat % 2 ^ 32

/-- The checks of the descriptor, the shape and the coordinate hold. -/
def Tensor.ok (t : Tensor) (coord : Word) : Bool :=
  let cols := descCols t.desc
  descValid t.desc && descSmode t.desc = 1 && scaledFmt (descFmt t.desc) &&
  (1024 ≤ cols || cols = 32 || cols = 64 || cols = 128 || cols = 256 || cols = 512) &&
  coordCol coord % 32 = 0 && coordCol coord + t.wg ≤ cols && coordRow coord + t.rows ≤ descRows t.desc

/-- A main-file operand of a view with SCALED = 1 and the tensor's type: its granule. -/
def Core.tensorGranule (c : Core) (f : BitVec 8) (d : BitVec 512) : Option Nat :=
  if (c.operandView f).any fun v => viewTypeCode v = descFmt d then c.scaledGranule f else none

/-! ## Streams of the AE over runs of bytes -/

/-- The first sector of a read of a piece that is marked: its first byte within the read, and the cause. -/
def State.markIn (s : State) (p : Piece) : Option (Word × Cause) :=
  match p.res with
  | .error c => some (p.va, c)
  | .ok (pa, t) => (s.marked s.engHolders t pa p.len).map fun x => (p.va + BitVec.ofNat 64 (64 * x.1 - pa), x.2)

/-- The bytes of translated pieces. -/
def State.readPieces (s : State) (al : Alloc) (ps : List Piece) : List Byte × State :=
  ps.foldl (fun (acc : List Byte × State) p =>
    match p.res with
    | .ok (pa, t) =>
      let (bs, s') := acc.2.loadPhys s.engHolders al t pa p.len
      (acc.1 ++ bs, s')
    | .error _ => acc) ([], s)

/-- Runs of bytes read in order, each with its element index and length; the first that cannot be read stops the word, which gives back what
it has reserved. -/
def readRuns (ag : Agent) (al : Alloc) (go : List Byte → State → Out) :
    List (Nat × Word × Nat) → List Byte → State → Out
  | [], buf, s => go buf s
  | (elem, va, n) :: rest, buf, s =>
    withSplitTo (some s.cur) ag { read := true } (piecesOf va n) s fun ps s =>
      match ps.findSome? s.markIn with
      | some (a, c) => .next (State.engFault { s with core := s.core.giveBack } c a (BitVec.ofNat 16 elem))
      | none =>
        let (bs, s) := s.readPieces al ps
        readRuns ag al go rest (buf ++ bs) s

/-- The number of a unit of a record by its offset: 32-byte units of the data, then the bytes of the scales. -/
def unitOf (off : Nat) : Nat := if off < 1024 then off / 32 else 32 + (off - 1024)

/-- Runs of bytes written in order: element index, offset in the word's data, address, bytes. The pieces of a run that have still to be written
and can be are, and the first that cannot stops the word, which keeps what it has written and its data (R353). -/
def writeRuns (ag : Agent) (al : Alloc) (data : List Byte) (go : State → Out) :
    List (Nat × Nat × Word × Nat) → State → Out
  | [], s => go s
  | (elem, off, va, n) :: rest, s =>
    let left := (piecesOf va n).filter fun p => !((s.act.part.getD {}).done.contains (unitOf (off + (p.1 - va).toNat)))
    withSplit ag { write := true } left s fun todo s =>
      let p0 := s.act.part.getD {}
      let at' (p : Piece) : Nat := off + (p.va - va).toNat
      let put (s : State) (p : Piece) : State :=
        match p.res with
        | .ok (pa, t) => s.storeAcc s.engHolders al t pa ((data.drop (at' p)).take p.len)
        | .error _ => s
      let good := (todo.filter fun p => match p.res with | .ok _ => true | .error _ => false).map fun p => unitOf (at' p)
      let s := todo.foldl put s
      let s := s.upd fun e => { e with part := some { p0 with done := p0.done ++ good, src := data } }
      match todo.findSome? fun p => match p.res with | .error c => some (p.va, c) | .ok _ => none with
      | some (a, c) => .next (s.engFault c a (BitVec.ofNat 16 elem))
      | none => writeRuns ag al data go rest s

/-! ## LDT and STT -/

/-- A load that binds allocates its group when it issues (R272), and keeps it while it waits; TINT_EXHAUSTED where none is free. -/
def holdGroup (s : State) (go : Nat → State → Out) : Out :=
  let p := s.act.part.getD {}
  match p.group with
  | some k => go k s
  | none => needGroup s.core s fun k c => go k (State.upd { s with core := c } fun e => { e with part := some { p with group := some k } })

/-- The memory requests of a granule at a coordinate: the sectors that each of its runs touches (R19, R303). -/
def Tensor.requests (t : Tensor) (i c : Nat) : Nat :=
  (((t.segments i c).map fun a => (sectorsOf a.toNat t.wg).length) ++
    (t.scaleRuns i c).map fun a => (sectorsOf a.toNat (t.wg / 32)).length).sum

/-- The class of the accesses of a word through a descriptor (R202). -/
def Tensor.cls (t : Tensor) (cls : BitVec 4) : BitVec 4 := if cls = 0 then BitVec.ofNat 4 (descClass t.desc) else cls

/-- The start of LDT and STT: pointers, the descriptor with its shape and coordinate, the view, and room for its requests. -/
def tensorWord (f : BitVec 8) (p cls : BitVec 4) (id : BitVec 8) (s : State) (go : Tensor → Word → Nat → Out) : Out :=
  aeReady [p, p + 1] 0 s <|
    let t : Tensor := { desc := s.descriptor id, base := s.ptr p }
    let coord := s.ptr (p + 1)
    if !t.ok coord then .next (s.engFault .descriptorInvalid (zext64 id))
    else match s.core.tensorGranule f t.desc with
      | none => viewInvalid s
      | some g => aeReady [] (t.requests (coordRow coord) (coordCol coord)) s <| aeOrder (t.cls cls) s <| go t coord g

/-- A row segment that is not 32-byte aligned. -/
def badSegment (l : List Word) : Option Word := l.find? fun a => a.toNat % 32 ≠ 0

def execLdt (opd : BitVec 8) (p cls : BitVec 4) (id : BitVec 8) (s : State) : Out :=
  tensorWord opd p cls id s fun t coord g =>
    let segs := t.segments (coordRow coord) (coordCol coord)
    match badSegment segs with
    | some a => .next (s.engFault .misaligned a)
    | none =>
      holdGroup s fun k s =>
        let al := allocOf (descHint t.desc)
        let runs := segs.zipIdx.map fun x => (x.2, x.1, t.wg)
        let scales := (t.scaleRuns (coordRow coord) (coordCol coord)).map fun a => (t.rows, a, t.wg / 32)
        readRuns (s.streamAgent p.toNat) al (fun buf s =>
          readRuns (s.streamAgent (p.toNat + 1)) al (fun sc s =>
            let d : LDest := .bound g k (BitVec.ofNat 256 (leNat sc))
            let l : AeLoad := { dest := .none, data := granOfBytes buf, reqs := t.requests (coordRow coord) (coordCol coord) }
            .next ((s.launchLoad (fun c => (d, c)) l).wordDone 2)) scales [] s)
          runs [] s

/-- The data of a granule and the 32 codes of a group, as STT and CPYT write them. -/
def scaledBytes (r : Regs) (g k : Nat) : List Byte := granBytes (r.granule g) ++ leBytes 32 (r.groupAt k).codes.toNat

/-- The runs that STT writes: the row segments, then the scales. -/
def Tensor.runs (t : Tensor) (i c : Nat) : List (Nat × Nat × Word × Nat) :=
  ((t.segments i c).zipIdx.map fun x => (x.2, x.2 * t.wg, x.1, t.wg)) ++
    (t.scaleRuns i c).zipIdx.map fun x => (t.rows, 1024 + x.2 * (t.wg / 32), x.1, t.wg / 32)

def execStt (opd : BitVec 8) (p cls : BitVec 4) (id : BitVec 8) (s : State) : Out :=
  tensorWord opd p cls id s fun t coord g =>
    if s.core.loading (.gran g) then .next (s.stall 7)
    else
      let kept := (s.act.part.map (·.src)).getD []
      let go (data : List Byte) : Out :=
        match badSegment (t.segments (coordRow coord) (coordCol coord)) with
        | some a => .next (s.engFault .misaligned a)
        | none =>
          writeRuns (s.streamAgent p.toNat) (allocOf (descHint t.desc)) data (fun s => .next (s.wordDone 2))
            (t.runs (coordRow coord) (coordCol coord)) (s.keepSource data)
      if kept.length = 1056 then go kept
      else match s.core.regs.checkBinding g with
        | .error c => .next (s.engFault c (BitVec.ofNat 64 (1024 * g)) 0)
        | .ok k => go (scaledBytes s.core.regs g k)

/-! ## SPILLP and FILLP -/

/-- The 64-byte units of a record of 1,058 bytes: index, offset, address, length. -/
def recordUnits (a : Word) : List (Nat × Nat × Word × Nat) :=
  (List.range 17).map fun k => (k, 64 * k, a + BitVec.ofNat 64 (64 * k), min 64 (1058 - 64 * k))

/-- The record of a granule (R275): its data, its codes or zeros, its tag. -/
def recordBytes (r : Regs) (g : Nat) : List Byte :=
  let t := r.tagOf g
  granBytes (r.granule g) ++ (if tagBound t then leBytes 32 (r.groupAt (tagGroup t)).codes.toNat else List.replicate 32 0) ++
    leBytes 2 t.toNat

def execSpillp (opd : BitVec 8) (p cls : BitVec 4) (s : State) : Out :=
  aeReady [p] 17 s <| aeOrder cls s <|
    match s.core.aeOperand opd with
    | some (.gran g) =>
      if s.core.loading (.gran g) then .next (s.stall 7)
      else
        let a := s.ptr p
        let kept := (s.act.part.map (·.src)).getD []
        let t := s.core.regs.tagOf g
        if a.toNat % 64 ≠ 0 then .next (s.engFault .misaligned a)
        else if kept.length ≠ 1058 && tagBound t && !s.core.regs.current t then
          .next (s.engFault .staleBinding (BitVec.ofNat 64 (1024 * g)) 0)
        else
          let data := if kept.length = 1058 then kept else recordBytes s.core.regs g
          writeRuns (s.streamAgent p.toNat) .all data (fun s => .next (s.wordDone 2)) (recordUnits a) (s.keepSource data)
    | _ => viewInvalid s

def execFillp (opd : BitVec 8) (p cls : BitVec 4) (s : State) : Out :=
  aeReady [p] 17 s <| aeOrder cls s <|
    match s.core.aeOperand opd with
    | some (.gran g) =>
      let a := s.ptr p
      if a.toNat % 64 ≠ 0 then .next (s.engFault .misaligned a)
      else
        readRuns (s.streamAgent p.toNat) .all (fun buf s =>
          let l : AeLoad := { dest := .none, data := granOfBytes (buf.take 1024), reqs := 17 }
          if (leNat (buf.drop 1056)).testBit 15 then
            needGroup s.core s fun k c =>
              let d : LDest := .bound g k (BitVec.ofNat 256 (leNat ((buf.drop 1024).take 32)))
              .next ((State.launchLoad { s with core := c } (fun c => (d, c)) l).wordDone 2)
          else .next ((s.launchLoad (fun c => (.gran g, c)) l).wordDone 2))
          ((recordUnits a).map fun u => (u.1, u.2.2.1, u.2.2.2)) [] s
    | _ => viewInvalid s

end Sys2Proof.Machine
end

