-- ==== Sys2Proof/Machine/Copy.lean ====
section
/-! DEFINITION. The copy engine's copies: CPY, FILL, CPYT, CPYACC (R212-R216, R248, R274). -/

namespace Sys2Proof.Machine

/-! ## Promises (R216) -/

/-- The promised completion time of a word that writes `n` bytes, with a memory side or without. -/
def State.promise (s : State) (n : Nat) (mem : Bool) : Word :=
  s.time + BitVec.ofNat 64 (if mem then 96 + (n + 63) / 64 else 16 + (n + 127) / 128)

/-- The promise is pushed when the word first issues, or the word stalls; a word that stopped part way has pushed it. -/
def withPromise (n : Nat) (mem : Bool) (s : State) (go : State → Out) : Out :=
  let p := s.act.part.getD {}
  if p.promised then go s
  else pushOr 0 (s.promise n mem) s fun s => go (s.upd fun e => { e with part := some { p with promised := true } })

/-- The bytes that a stopped word had done. -/
def State.doneBytes (s : State) : Nat := (s.act.part.getD {}).count

/-- The word in action has pushed its promise. -/
def State.promised (s : State) : Bool := (s.act.part.getD {}).promised

/-- A word that stops keeps how many bytes it has done, and its data. -/
def State.keep (s : State) (n : Nat) (data : List Byte) : State :=
  s.upd fun e => { e with part := some { promised := s.promised, count := n, data := data } }

/-- A CPYT that waits keeps the granule it has reached, with the data and scales read when it started and the bytes of them written. -/
def State.keepGran (s : State) (g n : Nat) (data : List Byte) : State :=
  s.upd fun e => { e with part := some { promised := s.promised, gran := g, count := n, data := data } }

/-- A word that has read bytes across die boundaries stands until their replies have come back (R431). -/
def State.awaitBack (s : State) (n : Nat) (data : List Byte) : State :=
  s.upd fun e => { e with part := some { promised := s.promised, count := n, data := data, back := s.reply }, exec := true, wait := 0 }

/-- The data that the word has read last is still on its way. -/
def State.onWay (s : State) : Bool := s.time.toNat < (s.act.part.getD {}).back.toNat

/-! ## Register space by bytes -/

/-- Bytes of register space within one granule. -/
def Regs.readBytes (r : Regs) (a n : Nat) : List Byte := ((granBytes (r.granule (a / 1024))).drop (a % 1024)).take n

/-- Bytes written within one granule: a partial write clears its tag (R263). -/
def Regs.writeBytes (r : Regs) (a : Nat) (bs : List Byte) : Regs :=
  r.plainWrite (a / 1024) (granOfBytes (patchBytes (granBytes (r.granule (a / 1024))) (a % 1024) bs))

/-- The register space of the core in focus written by bytes within one granule. -/
def State.regWrite (s : State) (a : Nat) (bs : List Byte) : State :=
  { s with core.regs := s.core.regs.writeBytes a bs }

/-! ## Spaces (R213) -/

/-- A side of a copy that cannot stand: not aligned, or outside the register space. -/
def sideFault (space : BitVec 2) (a : Word) (n : Nat) (nonMem : Bool) : Option (Cause × Word) :=
  match space.toNat with
  | 0 => if nonMem && a.toNat % 64 ≠ 0 then some (.misaligned, a) else none
  | 1 => none
  | _ =>
    if a.toNat % 64 ≠ 0 then some (.misaligned, a)
    else if 0x140000 ≤ a.toNat || 0x140000 < a.toNat + n then some (.viewInvalid, 0)
    else none

/-- The bytes that an access at an address may cover before the next 64-byte boundary. -/
def toBoundary (a : Nat) : Nat := 64 - a % 64

/-- One 64-byte unit of the scratchpad at an offset (R198): its request goes out on the CE's slot, 4 to 7, and the bank performs it in the fabric
cycle u + 4; until then the word executes. It has done `off` bytes and holds `data`; `go` gets what a read has brought. -/
def spadTurn (a : Word) (op : SpadOp) (off : Nat) (data : List Byte) (s : State) (go : List Byte → State → Out) : Out :=
  let p := s.act.part.getD {}
  let run (s : State) (due : Option Word) (unit : Option SpadReq) : State :=
    s.upd fun e => { e with
      part := some { promised := s.promised, count := off, data := data, due := due, unit := unit }, exec := due.isSome, wait := 0 }
  match p.due with
  | none =>
    let o := s.spadAt a.toNat
    let (u, wheel) := serve (4 + s.pos) (2 * s.time.toNat + 2) s.core.ceWheel (bankOf o)
    .next (run { s with core.ceWheel := wheel } (some (BitVec.ofNat 64 ((u + 5) / 2))) (some { cycle := u + 4, off := o, op := op }))
  | some d => if s.time < d || p.unit.isSome then .next s else go p.got (run s none none)

/-- Bytes of a space, within one 64-byte unit of it, for a word of the engine in action that has done `off` bytes; `k` is its stream. -/
def readSpace (space : BitVec 2) (k : Nat) (a : Word) (n off : Nat) (s : State) (go : List Byte → State → Out) : Out :=
  match space.toNat with
  | 0 =>
    withSplit (s.streamAgent k) { read := true } [(a, n)] (s.keep off []) fun ps s =>
      match ps.findSome? s.markIn with
      | some (_, c) => .next ((s.engFault c a).keep off [])
      | none =>
        let (bs, s) := s.readPieces .all ps
        go bs s
  | 1 => spadTurn a (.read 0 n) off [] s go
  | _ => go (s.core.regs.readBytes a.toNat n) s

/-- Bytes written to a space, within one 64-byte unit of it; `data` is what the word holds while it waits. -/
def writeSpace (space : BitVec 2) (k : Nat) (a : Word) (bs : List Byte) (off : Nat) (data : List Byte) (s : State)
    (go : State → Out) : Out :=
  match space.toNat with
  | 0 =>
    withSplit (s.streamAgent k) { write := true } [(a, bs.length)] (s.keep off data) fun ps s =>
      match ps with
      | p :: _ =>
        match p.res with
        | .error c => .next ((s.engFault c a).keep off [])
        | .ok (pa, t) => go (s.storeAcc s.engHolders .all t pa bs)
      | [] => go s
  | 1 => spadTurn a (.write bs) off data s fun _ s => go s
  | _ => go (s.regWrite a.toNat bs)

/-- The streams of pa and pb of the word that the CE runs. -/
def ceStreamA : Nat := 16

def ceStreamB : Nat := 17

/-- What a unit of a copy within memory writes: a source that reaches into the unit, `d` bytes below it, repeats its first `d` bytes,
as a copy byte by byte does (R214). -/
def overlapBytes (d : Nat) (bs : List Byte) : List Byte :=
  if 0 < d && d < bs.length then (List.range bs.length).map fun i => bs.getD (i % d) 0 else bs

/-- The source bytes of a unit of a copy within memory: those before the first that cannot be read. -/
def readUnit (y : Word) (m off : Nat) (s : State) (go : List Byte → State → Out) : Out :=
  let k := min (toBoundary y.toNat) m
  let ps := if k = m then [(y, m)] else [(y, k), (y + BitVec.ofNat 64 k, m - k)]
  withSplit (s.streamAgent ceStreamB) { read := true } ps (s.keep off []) fun ps s =>
    match ps.head?.bind s.markIn with
    | some (_, c) => .next ((s.engFault c y).keep off [])
    | none =>
      let (bs, s) := s.readPieces .all (ps.takeWhile fun p => (s.markIn p).isNone)
      go bs s

/-- The copy of R214 from `off` bytes on, unit by unit of its destination. What has been read of a unit stays with the word while it waits to
write it. -/
def copyLoop (ds ss : BitVec 2) (a b : Word) (n : Nat) (fin : State → Out) : Nat → Nat → State → Out
  | 0, _, s => .next s
  | fuel + 1, off, s =>
    if n ≤ off then fin s
    else
      let x := a + BitVec.ofNat 64 off
      let y := b + BitVec.ofNat 64 off
      let m := min (toBoundary x.toNat) (n - off)
      let write (bs : List Byte) (s : State) : Out :=
        let out := if ds.toNat = 0 && ss.toNat = 0 then overlapBytes (a - b).toNat bs else bs
        writeSpace ds ceStreamA x out off bs s fun s => copyLoop ds ss a b n fin fuel (off + bs.length) (s.keep (off + bs.length) [])
      let got (bs : List Byte) (s : State) : Out := if s.time.toNat < s.reply.toNat then .next (s.awaitBack off bs) else write bs s
      match (s.act.part.getD {}).data with
      | [] => if ds.toNat = 0 && ss.toNat = 0 then readUnit y m off s got else readSpace ss ceStreamB y m off s got
      | bs => if s.onWay then .next s else write bs s

/-- The length of a copy: whole units where a side is not memory (R213). -/
def copyLength (nonMem : Bool) (n : Nat) : Nat := if nonMem then n / 64 * 64 else n

/-- A space address: an offset's bits 5:0 are taken as zero. -/
def spaceAddr (space : BitVec 2) (a : Word) : Word := if space.toNat = 1 then BitVec.ofNat 64 (spadOff a) else a

/-- A pointer that a CE or XE word names by three bits. -/
def State.ptr3 (s : State) (p : BitVec 3) : Word := s.ptr (p.setWidth 4)

def execCpy (pa pb pc : BitVec 3) (_cls : BitVec 4) (dspace sspace : BitVec 2) (s : State) : Out :=
  let nonMem := dspace.toNat ≠ 0 || sspace.toNat ≠ 0
  let n := copyLength nonMem (s.ptr3 pc).toNat
  withPromise n (dspace.toNat = 0 || sspace.toNat = 0) s fun s =>
    match sideFault dspace (s.ptr3 pa) n nonMem <|> sideFault sspace (s.ptr3 pb) n nonMem with
    | some (c, a) => .next (s.engFault c a)
    | none =>
      copyLoop dspace sspace (spaceAddr dspace (s.ptr3 pa)) (spaceAddr sspace (s.ptr3 pb)) n
        (fun s => .next (s.wordDone 2)) (n + 1) s.doneBytes s

/-! ## FILL (R215) -/

/-- Bytes `off` to `off + n − 1` of a pattern of `w` bytes repeated. -/
def patternBytes (v : Word) (w off n : Nat) : List Byte :=
  (List.range n).map fun k => bits v.toNat (8 * ((off + k) % w)) 8

/-- The loop of FILL. -/
def fillLoop (ds : BitVec 2) (a v : Word) (w n : Nat) (fin : State → Out) : Nat → Nat → State → Out
  | 0, _, s => .next s
  | fuel + 1, off, s =>
    if n ≤ off then fin s
    else
      let x := a + BitVec.ofNat 64 off
      let m := min (toBoundary x.toNat) (n - off)
      writeSpace ds ceStreamA x (patternBytes v w off m) off [] s fun s => fillLoop ds a v w n fin fuel (off + m) (s.keep (off + m) [])

def execFill (pa pb pc : BitVec 3) (_cls : BitVec 4) (dspace esz : BitVec 2) (s : State) : Out :=
  let w := szBytes esz
  let nonMem := dspace.toNat ≠ 0
  let n := copyLength nonMem (s.ptr3 pc).toNat
  withPromise n (!nonMem) s fun s =>
    let a := s.ptr3 pa
    if !nonMem && (a.toNat % w ≠ 0 || n % w ≠ 0) then .next (s.engFault .misaligned a)
    else match sideFault dspace a n nonMem with
      | some (c, x) => .next (s.engFault c x)
      | none =>
        fillLoop dspace (spaceAddr dspace a) (s.ptr3 pb) w n (fun s => .next (s.wordDone 2)) (n + 1) s.doneBytes s

/-! ## Streams of runs to memory -/

/-- Runs written to memory in ascending order under an allocation, by pieces that cross no 64-byte boundary; `off` counts the bytes of `data` done. `hold`
notes in a word that stops or waits what it has done, and `bad` what its fault records beside. -/
def runLoop (al : Alloc) (data : List Byte) (hold : Nat → State → State) (bad : State → State) (fin : State → Out) :
    Nat → List (Word × Nat) → Nat → Nat → State → Out
  | 0, _, _, _, s => .next s
  | _ + 1, [], _, _, s => fin s
  | fuel + 1, (a, n) :: rest, base, off, s =>
    if base + n ≤ off then runLoop al data hold bad fin fuel rest (base + n) off s
    else
      let x := a + BitVec.ofNat 64 (off - base)
      let m := min (toBoundary x.toNat) (base + n - off)
      withSplit (s.streamAgent ceStreamA) { write := true } [(x, m)] (hold off s) fun ps s =>
        match ps with
        | p :: _ =>
          match p.res with
          | .error c => .next (bad (hold off (s.engFault c x)))
          | .ok (pa, t) =>
            runLoop al data hold bad fin fuel ((a, n) :: rest) base (off + m)
              (s.storeAcc s.engHolders al t pa ((data.drop off).take m))
        | [] => .next s

/-! ## CPYACC (R248) -/

/-- The size of an output type. -/
def accSize (ty : Nat) : Nat := ((Ty.ofCode ty).map Ty.size).getD 4

/-- An element converted to the output type. -/
def accElem (ty b : Nat) : Nat :=
  match ty with
  | 6 => Ty.convert .f16 { sat := true } (Ty.value .f32 b)
  | 7 => Ty.convert .b16 { sat := true } (Ty.value .f32 b)
  | 2 => Ty.satBits .i16 (intOf true 32 b)
  | 0 => Ty.satBits .i8 (intOf true 32 b)
  | _ => b

/-- The 128 rows and the record of a tile, as CPYACC writes them. -/
def accBytes (r : Regs) (t : BitVec 4) (ty : Nat) : List Byte :=
  let size := accSize ty
  let rows := (List.range 64).flatMap fun k => elemsOf 32 (r.granule (512 + 64 * t.toNat + k))
  (rows.flatMap fun b => leBytes size (accElem ty b)) ++ leBytes 2 (r.ovf.getD t.toNat 0).toNat ++
    leBytes 2 (r.nan.getD t.toNat 0).toNat ++ [bits t.toNat 0 8, bits ty 0 8, 0, 0]

def execCpyacc (pa pb : BitVec 3) (_cls acc ty : BitVec 4) (s : State) : Out :=
  let size := accSize ty.toNat
  let stride := s.ptr3 pb
  let a := s.ptr3 pa
  withPromise (16384 * size + 8) true s fun s =>
    if a.toNat % 8 ≠ 0 || stride.toNat % 8 ≠ 0 then .next (s.engFault .misaligned a)
    else
      let kept := (s.act.part.getD {}).data
      let data := if kept.isEmpty then accBytes s.core.regs acc ty.toNat else kept
      let runs := ((List.range 128).map fun k => (a + BitVec.ofNat 64 k * stride, 128 * size)) ++ [(a + 128 * stride, 8)]
      runLoop .all data (fun off s => s.keep off data) id (fun s => .next (s.wordDone 2)) (data.length + 200) runs 0 s.doneBytes s

/-! ## CPYT (R274) -/

/-- The coordinate one granule further. -/
def Tensor.next (t : Tensor) (i c : Nat) : Nat × Nat :=
  if descCols t.desc ≤ c + t.wg then (i + t.rows, 0) else (i, c + t.wg)

/-- The coordinate after `n` granules. -/
def Tensor.advance (t : Tensor) : Nat → Nat × Nat → Nat × Nat
  | 0, x => x
  | n + 1, x => t.advance n (t.next x.1 x.2)

/-- Granules from `g` on, each checked and read once, when the CE starts it, and then written; a fault stops at granule `g`, which ERESUME
starts anew. -/
def cpytLoop (t : Tensor) (id : BitVec 8) (reg : Nat) (n : Nat) : Nat → Nat → Nat × Nat → State → Out
  | 0, _, _, s => .next s
  | fuel + 1, g, (i, c), s =>
    if n ≤ g then .next (s.wordDone 2)
    else
      let elem := BitVec.ofNat 16 g
      let stop (k : Cause) (a : Word) (s : State) : Out := .next ((s.engFault k a elem).keepGran g 0 [])
      let p := s.act.part.getD {}
      let runs := (t.segments i c).map (fun a => (a, t.wg)) ++ (t.scaleRuns i c).map fun a => (a, t.wg / 32)
      let note (s : State) : State := State.upd (s.keepGran g 0 []) fun e => { e with efElem := elem }
      let write (data : List Byte) (off : Nat) (s : State) : Out :=
        runLoop (allocOf (descHint t.desc)) data (fun off s => s.keepGran g off data) note
          (fun s => cpytLoop t id reg n fuel (g + 1) (t.next i c) (s.keepGran (g + 1) 0 [])) (data.length + 200) runs 0 off s
      let coord := BitVec.ofNat 64 (i * 2 ^ 32 + c)
      let gran := reg / 1024 + g
      if p.data.length = 1056 then write p.data p.count s
      else if 2 ^ 32 ≤ i || !t.ok coord then stop .descriptorInvalid (zext64 id) s
      else match s.core.regs.checkBinding gran with
        | .error k => stop k (BitVec.ofNat 64 (1024 * gran)) s
        | .ok k =>
          match badSegment (t.segments i c) with
          | some a => stop .misaligned a s
          | none => write (scaledBytes s.core.regs gran k) 0 s

def execCpyt (pa pb pc : BitVec 3) (_cls : BitVec 4) (id : BitVec 8) (s : State) : Out :=
  let n := (s.ptr3 pc).toNat
  let reg := s.ptr3 pb
  let coord := s.ptr3 (pa + 1)
  let t : Tensor := { desc := s.descriptor id, base := s.ptr3 pa }
  withPromise (n * 1056) true s fun s =>
    let g := (s.act.part.getD {}).gran
    if n = 0 then .next (s.wordDone 2)
    else if g = 0 && !t.ok coord then .next (s.engFault .descriptorInvalid (zext64 id) 0)
    else if reg.toNat % 1024 ≠ 0 then .next (s.engFault .misaligned reg 0)
    else if 0x140000 < reg.toNat + 1024 * n then .next (s.engFault .viewInvalid 0 0)
    else cpytLoop t id reg.toNat n (n + 1) g (t.advance g (coordRow coord, coordCol coord)) s

end Sys2Proof.Machine
end

