-- ==== Sys2Proof/Machine/Plate.lean ====
section
/-! DEFINITION. The plates of a quad: tags, victims, fills, the lease, and what a plate computes (R53, R54, R219-R236, R250, R254). -/

namespace Sys2Proof.Machine

/-! ## Tags and victims (R223-R229) -/

/-- Plate `p` of a bank. -/
def plateAt (b : Vector Plate 16) (p : Nat) : Plate := b.getD p {}

/-- The bank with a plate replaced. -/
def setPlate (b : Vector Plate 16) (p : Nat) (v : Plate) : Vector Plate 16 := b.setIfInBounds p v

/-- The plates that a mask enables. -/
def enabled (mask : BitVec 16) : List Nat := (List.range 16).filter mask.getLsbD

/-- The enabled copies of a tile (R223, R226). -/
def copiesOf (b : Vector Plate 16) (mask : BitVec 16) (pa : Nat) (fmt : BitVec 4) : List Nat :=
  (enabled mask).filter fun p => (plateAt b p).valid && (plateAt b p).addr = pa && (plateAt b p).fmt = fmt

/-- The victim outside a protected set (R227): the lowest invalid plate, else the unpinned one with the oldest last use. -/
def victim (b : Vector Plate 16) (mask : BitVec 16) (prot : List Nat) : Option Nat :=
  let free := (enabled mask).filter fun p => !prot.contains p
  match free.find? fun p => !(plateAt b p).valid with
  | some p => some p
  | none =>
    (free.filter fun p => !(plateAt b p).pin).foldl (fun best p =>
      match best with
      | none => some p
      | some q => if (plateAt b p).used < (plateAt b q).used then some p else best) none

/-- A plate that holds nothing (R224). -/
def Plate.invalid (p : Plate) : Plate :=
  { p with valid := false, pin := false, stale := false, filling := false, scl := false, addr := 0, fmt := 0, data := [], scales := [],
           sectors := [] }

/-- A lease word of a core in the quad uses the plate: an MMUL that reads it and has not completed, or a word in its fill phase
(R225). -/
def State.plateBusy (s : State) (quad p : Nat) : Bool :=
  (List.range 4).any fun k =>
    let m := (s.coreAt (4 * quad + k)).mex
    m.running.any (fun r => r.plates.contains p) ||
      m.plan.any fun x => x.fills.contains p || x.copies.any fun c => c.contains p

/-! ## The lease (R230-R232) -/

/-- The lease is granted to a position from a cycle on, and its ME waits for it no more. -/
def State.grantLease (s : State) (quad pos : Nat) (start : Word) : State :=
  let q := s.quadAt quad
  let c := s.coreAt (4 * quad + pos)
  let s := if c.me.wait = 8 then s.setCoreAt (4 * quad + pos) { c with me.wait := 0 } else s
  s.setQuad quad { q with
    lease := { q.lease with holder := pos, words := 0, start := start, grants := sat32 q.lease.grants 1 } }

/-- The bank can be handed over: no one holds it, the last word of the run before allows it (R242), and no word whose run a freeze has ended
is still in its fill phase. -/
def State.bankFree (s : State) (quad : Nat) : Bool :=
  let q := s.quadAt quad
  q.lease.holder = 7 && q.lease.freeAt.toNat ≤ s.time.toNat && q.power = .p0 &&
    (List.range 4).all fun k => (s.coreAt (4 * quad + k)).mex.plan.isNone

/-- The word at the position of an engine's running entry, as far as its loop buffer holds it. -/
def Core.nextWord (c : Core) (e : Engine) : Option Instr :=
  let g := c.eng e
  match smFind g.words g.pos.toNat with
  | none => none
  | some h =>
    let w := if h.toNat % 2 = 0 then some h.toNat else (smFind g.words (g.pos.toNat + 1)).map fun h2 => h.toNat + 2 ^ 16 * h2.toNat
    match w.map (decodeEngine e) with
    | some (.ok i) => some i
    | _ => none

/-- A word that needs the lease (R230). -/
def Instr.isLease : Instr → Bool
  | .mmul .. | .mfill .. | .mpin .. | .munpin .. | .minv .. | .mqry .. | .lrel => true
  | _ => false

/-- The ME of a core asks for the lease in this cycle (R231): it waits for it, or its next word needs it and can issue. -/
def State.asksLease (s : State) (core : Nat) : Bool :=
  let c := s.coreAt core
  c.me.wait = 8 ||
    (c.me.st = .running && !c.me.frz && !c.me.flt && !c.halted && c.me.wait = 0 && c.me.parked.isNone && !c.me.repass &&
      c.me.pos.toNat < c.me.len && c.mex.nextAt.toNat ≤ s.time.toNat && (c.nextWord .me).any Instr.isLease)

/-- LEASE_GRANT: the free bank goes to the next position after the last holder whose ME asks for it in this cycle, from the next cycle on; to
the last holder, where no other asks, at once. -/
def State.leaseGrant (s : State) (quad : Nat) : State :=
  let q := s.quadAt quad
  if s.bankFree quad then
    match [1, 2, 3, 4].find? fun k => s.asksLease (4 * quad + (q.lease.last + k) % 4) with
    | some k =>
      s.grantLease quad ((q.lease.last + k) % 4) (if k = 4 && q.lease.grants ≠ 0 then s.time else s.time + 1)
    | none => s
  else s

def execLeaseGrant (quad : BitVec 6) (s : State) : Out := .next (s.leaseGrant quad.toNat)

/-- A run has used up its 16 lease words, or its 4,096 cycles since the grant (R231). -/
def State.runSpent (s : State) (quad : Nat) : Bool :=
  let l := (s.quadAt quad).lease
  l.holder < 4 && (16 ≤ l.words || l.start.toNat + 4096 ≤ s.time.toNat)

/-- A run is over: it is spent, and its ME stands between two words. An MMUL is in progress until the next word may issue (R242), a word that
waits to issue is not (R232; assumption log 79). -/
def State.runOver (s : State) (quad : Nat) : Bool :=
  let m := (s.coreAt (4 * quad + (s.quadAt quad).lease.holder)).mex
  s.runSpent quad && m.plan.isNone && m.nextAt.toNat ≤ s.time.toNat

/-- LEASE_RUN_END. -/
def execLeaseRunEnd (quad : BitVec 6) (s : State) : Out :=
  let n := quad.toNat
  .next (if s.runOver n then s.endLease (4 * n + (s.quadAt n).lease.holder) else s)

/-- A lease word of a run has completed; the sixteenth ends the run (R231, R252). -/
def State.leaseWordDone (s : State) (run : BitVec 32) : State :=
  let q := s.quadAt s.quadNo
  if q.lease.holder = s.pos ∧ q.lease.grants = run then
    let s := s.setQuad s.quadNo { q with lease := { q.lease with words := q.lease.words + 1 } }
    if 16 ≤ q.lease.words + 1 then s.endLease s.cur else s
  else s

/-- The lease words of the run that have completed or are running: no seventeenth begins (R231). -/
def State.leaseWords (s : State) : Nat :=
  let l := (s.quadAt s.quadNo).lease
  l.words + (s.core.mex.running.filter fun r => r.run = l.grants).length

/-- The run of the core in focus ends between two of its words, and the bank is free in this cycle (R231). -/
def State.endRun (s : State) : State :=
  let s := s.endLease s.cur
  let q := s.quadAt s.quadNo
  s.setQuad s.quadNo { q with lease := { q.lease with freeAt := s.time } }

/-- A lease word holds the lease, or waits for it with WAIT = 8; in a quad in P1 it first wakes the quad, which takes 6,000 cycles
(R230, R231, R466). A run that is spent ends before the word. The last holder is granted it again at once where no other ME asks for it in the
cycle. A word in its fill phase goes on. -/
def leaseWord (s : State) (go : State → Out) : Out :=
  if s.core.mex.plan.isSome then go s
  else
    let s := if s.runSpent s.quadNo && (s.quadAt s.quadNo).lease.holder = s.pos then s.endRun else s
    let q := s.quadAt s.quadNo
    let go (s : State) : Out := go (s.upd fun e => { e with wait := 0 })
    if q.power ≠ .p0 then
      let q := if q.wakeAt = 0 then { q with wakeAt := s.time + 6000 } else q
      .next ((s.setQuad s.quadNo q).stall 8)
    else if q.lease.holder = s.pos then
      (if q.lease.start.toNat ≤ s.time.toNat && s.leaseWords < 16 then go s else .next (s.stall 8))
    else if s.bankFree s.quadNo && q.lease.last = s.pos && q.lease.grants ≠ 0 &&
        (List.range 4).all (fun k => k = s.pos || !s.asksLease (4 * s.quadNo + k)) then go (s.grantLease s.quadNo s.pos s.time)
    else .next (s.stall 8)

/-! ## Tiles (R219-R222, R240) -/

/-- The weight type of a format. -/
def weightTy (fmt : Nat) : Ty := match fmt with | 0 => .i8 | 9 => .e4m3 | _ => .log6

/-- A tile that a word names: where it lies, its format, and the pieces of its scales. -/
structure Tile where
  va : Word
  pa : Nat
  tlb : Tlb
  fmt : BitVec 4
  scl : Bool
  scales : List Piece
  hint : BitVec 2 := 0

/-- Who fills the translation of a tile: the core of the word, or the plate bank for a word that fills plates (`fills`) where none of them
holds the tile (R233, R318). -/
def State.tileFiller (s : State) (fills : Bool) (va : Word) (fmt : BitVec 4) : Option Nat :=
  let q := s.quadAt s.quadNo
  let w := s.walk va
  let pa := frameOf w.entry + va.toNat % leafSize w.level w.entry
  if fills && (seg w.entry 0 1 = 0 || w.bad || (copiesOf q.plate q.plmask pa fmt).isEmpty) then none else some s.cur

/-- The tile of a weight pointer, with the checks of R240 in the order of R241; `elem` is its index in the panel, and `fills` says that the
word fills plates. -/
def tileOf (fills : Bool) (qi : BitVec 3) (elem : Nat) (sc : Bool) (s : State) (go : Tile → State → Out) : Out :=
  let q := vget s.core.mex.q qi
  let d := s.descriptor q.id
  let el := BitVec.ofNat 16 elem
  let fmtOk := descFmt d = 0 || descFmt d = 9 || descFmt d = 11
  let smOk := descSmode d = 2 || (descSmode d = 0 && !sc)
  if !(descValid d && fmtOk && smOk && descRows d = 128 && descCols d = 128 && descRowStride d = 128) then
    .next (s.engFault .descriptorInvalid (zext64 q.id) el)
  else if q.addr.toNat % 16384 ≠ 0 then .next (s.engFault .tilePlacement q.addr el)
  else
    let who := s.tileFiller fills q.addr (BitVec.ofNat 4 (descFmt d))
    withSplitTo who (s.streamAgent (32 + qi.toNat)) { read := true } [(q.addr, 16384)] s fun ps s =>
    match ps with
    | [] => .next s
    | p :: _ =>
      match p.res with
      | .error c => .next (s.engFault c q.addr el)
      | .ok (pa, t) =>
        if t.size < 65536 then .next (s.engFault .tilePlacement q.addr el)
        else if descSmode d = 0 then
          go { va := q.addr, pa := pa, tlb := t, fmt := BitVec.ofNat 4 (descFmt d), scl := false, scales := [], hint := descHint d } s
        else
          let runs := (List.range 4).flatMap fun b => piecesOf (BitVec.ofNat 64 (descScBase d + b * descScStride d)) 128
          withSplitTo who (s.streamAgent (50 + qi.toNat)) { read := true } runs s fun sp s =>
            match sp.findSome? fun p => match p.res with | .error c => some (p.va, c) | .ok _ => none with
            | some (a, c) => .next (s.engFault c a el)
            | none =>
              go { va := q.addr, pa := pa, tlb := t, fmt := BitVec.ofNat 4 (descFmt d), scl := true, scales := sp, hint := descHint d } s

/-- The tiles of a panel from pointer `qi + j` on. -/
def tilesOf (qi : BitVec 3) (sc : Bool) (go : List Tile → State → Out) : Nat → Nat → List Tile → State → Out
  | 0, _, acc, s => go acc s
  | n + 1, j, acc, s => tileOf true (qi + BitVec.ofNat 3 j) j sc s fun t s => tilesOf qi sc go n (j + 1) (acc ++ [t]) s

/-! ## Planning (R240, R245) -/

/-- A plan in the making: the bank with the tags that the planned fills give it, the fills as plate and panel index, the protected
set, and for each tile its copies and whether tag match found one that needs no refill. -/
structure Want where
  bank : Vector Plate 16
  fills : List (Nat × Nat) := []
  prot : List Nat := []
  copies : List (List Nat) := []
  found : List Bool := []

/-- A fill of a tile into a plate is planned: the old tag stops matching, the new one matches (R224). -/
def Want.fill (w : Want) (v j : Nat) (t : Tile) (pin : Bool) : Want :=
  let p : Plate := { plateAt w.bank v with
    addr := t.pa, fmt := t.fmt, scl := t.scl, valid := true, pin := pin, stale := false, filling := true }
  { w with bank := setPlate w.bank v p, fills := w.fills ++ [(v, j)] }

/-- A copy is stale, or lacks the scales that the word needs. -/
def Plate.unfit (x : Plate) (sc : Bool) : Bool := (x.stale && !x.filling) || (sc && !x.scl)

/-- The refills in place of the copies of a tile that do not fit. -/
def Want.refill (w : Want) (cs : List Nat) (j : Nat) (t : Tile) (sc : Bool) : Want :=
  cs.foldl (fun w p =>
    let x := plateAt w.bank p
    if x.unfit sc then w.fill p j t x.pin else w) w

/-- The copies of a tile, one being planned where there is none; none where no plate can take it. -/
def Want.serve (mask : BitVec 16) (sc : Bool) (w : Want) (j : Nat) (t : Tile) : Option Want :=
  match copiesOf w.bank mask t.pa t.fmt with
  | [] =>
    (victim w.bank mask w.prot).map fun v =>
      let w := w.fill v j t false
      { w with prot := w.prot ++ [v], copies := w.copies ++ [[v]], found := w.found ++ [false] }
  | cs =>
    let fit := cs.any fun p => !(plateAt w.bank p).unfit sc
    let w := w.refill cs j t sc
    some { w with prot := w.prot ++ cs, copies := w.copies ++ [cs], found := w.found ++ [fit] }

/-- Every tile of a panel is served, or the index of the first that cannot be. -/
def serveAllTiles (mask : BitVec 16) (sc : Bool) : List (Nat × Tile) → Want → Except Nat Want
  | [], w => .ok w
  | (j, t) :: rest, w =>
    match w.serve mask sc j t with
    | none => .error j
    | some w => serveAllTiles mask sc rest w

/-- Copies more, up to a number, into plates that `pick` finds (R91, R245). -/
def growTile (pick : Want → Option Nat) (limit j : Nat) (t : Tile) : Nat → Want → Want
  | 0, w => w
  | n + 1, w =>
    let cs := w.copies.getD j []
    if limit ≤ cs.length then w
    else match pick w with
      | none => w
      | some v =>
        let pin := cs.any fun p => (plateAt w.bank p).pin
        let w := w.fill v j t pin
        growTile pick limit j t n { w with prot := w.prot ++ [v], copies := w.copies.set j (cs ++ [v]) }

/-- The lowest invalid enabled plate outside the protected set. -/
def invalidPlate (mask : BitVec 16) (w : Want) : Option Nat :=
  (enabled mask).find? fun p => !w.prot.contains p && !(plateAt w.bank p).valid

/-! ## Fills (R233-R236, R242) -/

/-- A page that is private to a core and that a plate fill reads is reclassified, and PRIVCNT of the core whose word fills counts it (R233,
R318). -/
def State.shareFor (s : State) (t : Tlb) : State :=
  let e := leNat (s.store.readHome t.entry 8)
  if t.priv && seg e 62 2 = 1 then
    (State.reclassify { s with core.counts.priv := sat32 s.core.counts.priv 1 } t.entry e t.size).2
  else s

/-- What the plates read under a descriptor's HINT (R202): a coherent page at home, as a sharer, which a bypass does not become (assumption
log 39); a non-coherent page through the die's L2 (R235). -/
def State.plateRead (s : State) (hint : BitVec 2) (t : Tlb) (pa n : Nat) : List Byte × State :=
  if t.nc then s.loadPhys s.engHolders (allocOf hint) t pa n
  else s.loadPhys [.plates s.quadNo] (allocOf hint) { t with priv := false } pa n

/-- The sectors of a tile and of its scales. -/
def Tile.sectors (t : Tile) : List Nat :=
  if t.tlb.nc then []
  else sectorsOf t.pa 16384 ++ t.scales.flatMap fun p => sectorsOf p.pa p.len

/-- The first mark that a fill meets, in the tile or in its scales. -/
def State.tileMark (s : State) (t : Tile) : Option (Word × Cause) :=
  match s.marked s.engHolders t.tlb t.pa 16384 with
  | some (k, c) => some (t.va + BitVec.ofNat 64 (64 * k - t.pa), c)
  | none => t.scales.findSome? s.markIn

/-- The memory requests of a fill: the sectors of the tile and of its scales (R19, R303). -/
def Tile.reqs (t : Tile) : Nat := 256 + (t.scales.map fun p => (sectorsOf p.pa p.len).length).sum

/-- The cycles that the data of the accesses made since a turn began still takes across the die boundaries (R431). -/
def State.onTheWay (s : State) : Word := if s.time.toNat < s.reply.toNat then s.reply - s.time else 0

/-- One planned fill runs: its data is read, and its plate stands in Filling until PLATE_FILL_COMPLETE, not before all of the data has arrived;
uncorrectable or poisoned data leaves it Invalid. -/
def State.runFill (s : State) (t : Tile) (v : Nat) (p : Plate) (stamp : Nat) (due : Word) (elem : Nat) : State × Option EFault :=
  let s := State.shareFor { s with reply := 0 } t.tlb
  let put (s : State) (x : Plate) : State :=
    let q := s.quadAt s.quadNo
    s.setQuad s.quadNo { q with plate := setPlate q.plate v x }
  match s.tileMark t with
  | some (a, c) => (put s p.invalid, some { cause := c, addr := a, elem := BitVec.ofNat 16 elem })
  | none =>
    let (data, s) := s.plateRead t.hint t.tlb t.pa 16384
    let (scales, s) := t.scales.foldl (fun (acc : List Byte × State) x =>
      match x.res with
      | .ok (pa, tl) =>
        let (bs, s') := (acc.2.shareFor tl).plateRead t.hint tl pa x.len
        (acc.1 ++ bs, s')
      | .error _ => acc) ([], s)
    let x : Plate := { p with
      data := data, scales := scales, used := stamp, due := due + s.onTheWay, sectors := t.sectors, reqs := t.reqs }
    (put s x, none)

/-- The planned fills in ascending plate number, four at a time; none starts after one that fails. -/
def State.runFills (tiles : List Tile) (w : Want) (stamp : Nat) (t0 : Word) : List (Nat × Nat) → Nat → State → List Nat →
    State × List Nat × Option EFault
  | [], _, s, done => (s, done, none)
  | (v, j) :: rest, k, s, done =>
    match tiles[j]? with
    | none => (s, done, none)
    | some t =>
      match s.runFill t v (plateAt w.bank v) stamp (t0 + BitVec.ofNat 64 (128 * (k / 4 + 1))) j with
      | (s, some f) => (s, done, some f)
      | (s, none) => State.runFills tiles w stamp t0 rest (k + 1) s (done ++ [v])

/-- Fills sorted by plate. -/
def insertFill (x : Nat × Nat) : List (Nat × Nat) → List (Nat × Nat)
  | [] => [x]
  | y :: t => if x.1 ≤ y.1 then x :: y :: t else y :: insertFill x t

/-- The planned fills start, and the word enters its fill phase. Every plate it fills takes its stamp (R228). -/
def State.startPlan (s : State) (tiles : List Tile) (w : Want) (grans : List Nat) : State :=
  let q := s.quadAt s.quadNo
  let stamp := q.stamp + 1
  let s := s.setQuad s.quadNo { q with stamp := stamp }
  let (s, done, bad) := State.runFills tiles w stamp s.time (w.fills.foldr insertFill []) 0 s []
  let plan : Plan :=
    { copies := w.copies, found := w.found, missed := (List.range w.copies.length).map fun j => w.fills.any fun x => x.2 = j
      fills := done, stamp := stamp, grans := grans, bad := bad }
  { s with core.mex.plan := some plan }

/-- The fill phase is over: no plate that it fills is still filling. -/
def State.planDone (s : State) (p : Plan) : Bool := p.fills.all fun v => !(plateAt (s.quadAt s.quadNo).plate v).filling

/-- A retired plate leaves the bank, and the management complex is told (R236). -/
def State.retirePlate (s : State) (quad p : Nat) : State :=
  let q := s.quadAt quad
  let off : BitVec 16 := ~~~(1#16 <<< p)
  let s := s.setQuad quad { q with
    plate := setPlate q.plate p (plateAt q.plate p).invalid, avail := q.avail &&& off, plmask := q.plmask &&& off }
  { s with mgmt.mevent := s.mgmt.mevent ||| 1 }

/-- The word that was filling a retired plate chooses again (R236): where no plate can take the tile and it has no other copy, the word
faults for that tile of its panel (R227, R241, R245). -/
def State.refillPlan (s : State) (quad p : Nat) (old : Plate) (core : Nat) : State :=
  let c := s.coreAt core
  match c.mex.plan with
  | none => s
  | some pl =>
    if !pl.fills.contains p then s
    else
      let q := s.quadAt quad
      let used := pl.fills ++ pl.copies.flatten
      let drop (l : List Nat) : List Nat := l.filter fun x => x ≠ p
      match victim q.plate q.plmask used with
      | none =>
        let f : Option EFault := (pl.copies.zipIdx.find? fun x => x.1.contains p && (drop x.1).isEmpty).map fun x =>
          if q.plmask = 0 then { cause := .plateNone } else { cause := .plateAllPinned, elem := BitVec.ofNat 16 x.2 }
        s.setCoreAt core { c with mex.plan := some { pl with
          fills := drop pl.fills, copies := pl.copies.map drop, bad := pl.bad <|> f } }
      | some v =>
        let swap (l : List Nat) : List Nat := l.map fun x => if x = p then v else x
        let s := s.setQuad quad { q with plate := setPlate q.plate v { old with due := s.time + 128 } }
        s.setCoreAt core { c with mex.plan := some { pl with fills := swap pl.fills, copies := pl.copies.map swap } }

/-- PLATE_FILL_COMPLETE: a fill ends, not before its time, having remapped some columns; the 33rd remapped column of a plate retires
it (R236, R242). -/
def execPlateFillComplete (quad : BitVec 6) (plate : BitVec 4) (remaps : Nat) (s : State) : Out :=
  let n := quad.toNat
  let p := plate.toNat
  let q := s.quadAt n
  let x := plateAt q.plate p
  let old := (q.spare.getD p 0).toNat
  if !x.filling || s.time.toNat < x.due.toNat then .next s
  else if old + remaps ≤ 32 then
    .next (s.setQuad n { q with
      plate := setPlate q.plate p { x with filling := false, due := s.time }
      spare := q.spare.setIfInBounds p (BitVec.ofNat 6 (old + remaps)) })
  else
    let s := s.setQuad n { q with spare := q.spare.setIfInBounds p 32 }
    let s := s.retirePlate n p
    .next ((List.range 4).foldl (fun s k => s.refillPlan n p x (4 * n + k)) s)

/-! ## What a plate computes (R53, R54) -/

/-- An element of A as a plate takes it: an infinity counts as the largest finite value. -/
def plateVal (t : Ty) (b : Nat) : FVal := t.read { sat := true } b

/-- The exact sum of the products of a block. -/
def blockSum (ta tw : Ty) (ps : List (Nat × Nat)) : FVal :=
  match ps.map fun p => prodOf ta tw (plateVal ta) (plateVal tw) p.1 p.2 with
  | [] => .zero
  | v :: rest => rest.foldl (fAdd 0) v

/-- PlateRound: F32, an overflow becoming the largest finite value and being recorded. -/
def plateRound (v : FVal) : FVal × Bool :=
  match Ty.value .f32 (Ty.convert .f32 {} v) with
  | .inf n => ((⟨23, 8, 127, true, 0x7F7FFFFF⟩ : Fmt).maxFinite n, true)
  | r => (r, false)

end Sys2Proof.Machine
end

