-- ==== Sys2Proof/Machine/Tile.lean ====
section
/-! DEFINITION. The words of the matrix engine (R222, R237-R247, R253). -/

namespace Sys2Proof.Machine

/-! ## The A rows (R237, R238) -/

/-- A row of A as the plates take it: 128 elements, and a scale exponent for each block of 32, none for a NaN scale. -/
structure ARow where
  elems : List Nat
  xa : List (Option Int)

/-- The scale exponent of a code (R237, R54). -/
def exponentOf (code : Nat) : Option Int := if code = 0xFF then none else some ((code : Int) - 127)

/-- The view whose TYPE is the type of A: the source's own, else w7. -/
def Core.aView (c : Core) (src : BitVec 8) : BitVec 128 := (c.operandView src).getD (c.view 7)

/-- The type of A: I8, E4M3, E5M2 or LOG6; none for VIEW_INVALID. -/
def Core.aType (c : Core) (src : BitVec 8) : Option Ty := (viewType (c.aView src)).filter fun t => t.scalable

/-- The granules that hold rows 0 to M − 1 of a main-file source, none for VIEW_INVALID. -/
def Core.aGrans (c : Core) (src : BitVec 8) (m : Nat) : Option (List Nat) :=
  match operand src with
  | .main v i => (List.range ((m + 7) / 8)).mapM fun k => resolveView (c.view v) (i.toNat + k)
  | _ => some []

/-- With sc = 1, a main-file source of a view with SCALED = 1 has its scales read and its bindings checked. -/
def Core.aScaled (c : Core) (src : BitVec 8) (sc : Bool) : Bool :=
  sc && (match operand src with | .main v _ => viewScaled (c.view v) | _ => false)

/-- The first of the A granules whose binding fails: its index, the granule and the cause. -/
def Core.aUnbound (c : Core) (grans : List Nat) : Option (Nat × Nat × Cause) :=
  grans.zipIdx.findSome? fun p =>
    match c.regs.checkBinding p.1 with
    | .error k => some (p.2, p.1, k)
    | .ok _ => none

/-- Row `g` of the bytes of a granule: 128 of them. -/
def byteRow (v : Granule) (g : Nat) : List Nat := (((granBytes v).drop (128 * (g % 8))).take 128).map (·.toNat)

/-- The 128 elements of row `g` of accumulator tile `t` (R127). -/
def Regs.accRow (r : Regs) (t g : Nat) : List Nat := ((elemsOf 32 (r.granule (512 + 64 * t + g / 2))).drop (128 * (g % 2))).take 128

/-- A row through the down-converter (R238), under RNE with SAT and without FTZ. An F32 infinity of the accumulator becomes the largest finite
value, and no counter counts it (assumption log 64). -/
def downConvert (t : Ty) (sc : Bool) (row : List Nat) : ARow :=
  let vs := row.map fun e => if t = .i8 then ofInt (intOf true 32 e) else Ty.value .f32 e
  if sc then
    let bs := (chunks 32 4 vs).map (scaleSelect t { sat := true })
    { elems := (bs.map (·.2)).flatten, xa := bs.map fun b => exponentOf b.1 }
  else { elems := vs.map (t.convert { sat := true }), xa := List.replicate 4 (some 0) }

/-- Row `g` of A. -/
def Core.aRow (c : Core) (src : BitVec 8) (t : Ty) (sc : Bool) (grans : List Nat) (g : Nat) : ARow :=
  match operand src with
  | .main _ _ =>
    let n := grans.getD (g / 8) 0
    let codes := (c.regs.groupAt (tagGroup (c.regs.tagOf n))).codes
    { elems := byteRow (c.regs.granule n) g
      xa := (List.range 4).map fun b => if c.aScaled src sc then exponentOf (codeAt codes ((g % 8) * 4 + b)) else some 0 }
  | .ofile o => { elems := byteRow (vget c.regs.ofile (o + BitVec.ofNat 4 (g / 8))) g, xa := List.replicate 4 (some 0) }
  | .dc d => downConvert t sc (c.regs.accRow d.toNat g)
  | _ => { elems := List.replicate 128 0, xa := List.replicate 4 (some 0) }

/-! ## PlateAccumulate (R53, R54) -/

/-- An output element under way: its value, and whether it has recorded overflow and met a NaN operand or scale. -/
structure Cell where
  val : FVal
  ovf : Bool := false
  nan : Bool := false

/-- A value is not a number. -/
def FVal.isNan (v : FVal) : Bool := match v with | .nan => true | _ => false

/-- A value is an infinity. -/
def FVal.isInf (v : FVal) : Bool := match v with | .inf _ => true | _ => false

/-- One block of 32 products on the F32 path: `x` is the sum of its scale exponents, none for a NaN scale. -/
def Cell.block (c : Cell) (ta tw : Ty) (x : Option Int) (ps : List (Nat × Nat)) : Cell :=
  let inf := ps.any fun p => (ta.value p.1).isInf
  let nan := x.isNone || ps.any fun p => (ta.value p.1).isNan || (tw.value p.2).isNan
  if nan then { val := .nan, ovf := c.ovf || inf, nan := true }
  else
    let r := plateRound (fAdd 0 c.val (fScale (x.getD 0) (blockSum ta tw ps)))
    { val := r.1, ovf := c.ovf || inf || r.2, nan := c.nan }

/-- The bits of an output element after the blocks of a row and a column, and what it recorded: on the INT32 path each block saturates,
elsewhere each is rounded once. An infinity that stands in the accumulator counts as the largest finite value before the sum, and as an
overflow (R55). -/
def plateAccumulate (ta tw : Ty) (sc : Bool) (old : Nat) (a : ARow) (w : List Nat) (xw : List (Option Int)) : Nat × Bool × Bool :=
  let blocks := chunks 32 4 (a.elems.zip w)
  if ta = .i8 && tw = .i8 && !sc then
    let r := blocks.foldl (fun (p : Int × Bool) b =>
      let s := p.1 + (b.map fun x => intOf true 8 x.1 * intOf true 8 x.2).sum
      (satInt s (-2147483648) 2147483647, p.2 || s < -2147483648 || 2147483647 < s)) (intOf true 32 old, false)
    (Ty.wrap .i32 r.1, r.2, false)
  else
    let xs := List.zipWith (fun x y => match x, y with | some i, some j => some (if sc then i + j else 0) | _, _ => none) a.xa xw
    let start : Cell := { val := plateVal .f32 old, ovf := (Ty.value .f32 old).isInf }
    let c := (blocks.zip xs).foldl (fun (c : Cell) b => c.block ta tw b.2 b.1) start
    (Ty.convert .f32 {} c.val, c.ovf, c.nan)

/-- The weights of column `c` of a plate. -/
def columnOf (data : Array Byte) (c : Nat) : List Nat := (List.range 128).map fun k => (data.getD (128 * k + c) 0).toNat

/-- The scale exponents of column `c` of a plate, for the four blocks; none are read with sc = 0. -/
def columnScales (sc : Bool) (scales : Array Byte) (c : Nat) : List (Option Int) :=
  (List.range 4).map fun b => if sc then exponentOf (scales.getD (128 * b + c) 0).toNat else some 0

/-- A tile's product: the 128 rows of the accumulator tile after it, and how many of its elements recorded overflow and met a NaN. -/
def tileProduct (ta : Ty) (sc z : Bool) (p : Plate) (rows : List ARow) (old : List (List Nat)) : List (List Nat) × Nat × Nat :=
  let tw := weightTy p.fmt.toNat
  let data := p.data.toArray
  let scales := p.scales.toArray
  let cols := (List.range 128).map fun c => (columnOf data c, columnScales sc scales c)
  let start := if z then old.map fun r => r.map fun _ => 0 else old
  let out := List.zipWith (fun (a : ARow) row => List.zipWith (fun e c => plateAccumulate ta tw sc e a c.1 c.2) row cols) rows start
  let flat := out.flatten
  (out.map (fun r => r.map (·.1)) ++ start.drop rows.length, (flat.filter (·.2.1)).length, (flat.filter (·.2.2)).length)

/-- An accumulator tile after an MMUL: its 64 granules, whose tags are cleared (R263), and its counters (R243). -/
def Regs.setAcc (r : Regs) (t : Nat) (rows : List (List Nat)) (ovf nan : Nat) : Regs :=
  let r := ((chunks 2 64 rows).zipIdx).foldl (fun r p => r.plainWrite (512 + 64 * t + p.2) (packElems 32 p.1.flatten)) r
  { r with ovf := r.ovf.setIfInBounds t (sat16 (r.ovf.getD t 0) ovf), nan := r.nan.setIfInBounds t (sat16 (r.nan.getD t 0) nan) }

/-! ## Waiting (R225, R242) -/

/-- A running MMUL writes a tile, or with `reads` reads it through the down-converter. -/
def Core.accBusy (c : Core) (ts : List Nat) (reads : Bool) : Bool :=
  c.mex.running.any fun r => ts.any fun t => r.accs.contains t || (reads && r.dc = some t)

/-- The accumulator tiles that an MMUL writes or reads. -/
def mmulTiles (acc : BitVec 4) (src : BitVec 8) (n : Nat) (grans : List Nat) : List Nat :=
  (List.range n).map (acc.toNat + ·) ++ (match operand src with | .dc t => [t.toNat] | _ => []) ++
    (grans.filter (512 ≤ ·)).map fun g => (g - 512) / 64

/-- Some of the plates are in use (R225), or are filling for a word of another core. -/
def State.anyBusy (s : State) (ps : List Nat) : Bool := ps.any (s.plateBusy s.quadNo)

/-- A word in its fill phase goes on when its fills have ended: with their first data fault, else with its own effect. -/
def afterFills (p : Plan) (s : State) (go : State → Out) : Out :=
  if !s.planDone p then .next s
  else
    let s := { s with core.mex.plan := none }
    match p.bad with
    | some f => .next (s.engFault f.cause f.addr f.elem)
    | none => go s

/-- The copies that a plan's word reads or fills, and the copies that another core's word is still filling. -/
def State.stillFilling (s : State) (w : Want) : Bool :=
  w.copies.flatten.any fun p => (plateAt (s.quadAt s.quadNo).plate p).filling

/-- The memory requests of the planned fills, in ascending plate number. -/
def Want.reqs (w : Want) (tiles : List Tile) : List Nat :=
  (w.fills.foldr insertFill []).map fun x => ((tiles[x.2]?).map Tile.reqs).getD 0

/-- A planned word starts its fills, and goes on at once where there are none; or it waits under R225, or for free memory requests (R19). -/
def startOrWait (tiles : List Tile) (w : Want) (grans : List Nat) (s : State) (go : Plan → State → Out) : Out :=
  if s.anyBusy (w.fills.map (·.1)) || s.stillFilling w then .next s
  else if 4096 < s.requests + fourMost (w.reqs tiles) then .next s.standBy
  else
    let s := s.startPlan tiles w grans
    match s.core.mex.plan with
    | some p => if w.fills.isEmpty then afterFills p s (go p) else .next s
    | none => .next s

/-! ## MMUL -/

/-- The copies grown for the pointers of a panel with the grow flag (R91): up to four of each tile, in invalid plates. -/
def growPanel (c : Core) (mask : BitVec 16) (q : BitVec 3) : List (Nat × Tile) → Want → Want
  | [], w => w
  | (j, t) :: rest, w =>
    growPanel c mask q rest (if (vget c.mex.q (q + BitVec.ofNat 3 j)).grow then growTile (invalidPlate mask) 4 j t 4 w else w)

/-- The end of the fill phase of a plan: that of its last fill, or this cycle where it has none (R242). -/
def State.fillEnd (s : State) (p : Plan) : Word :=
  if p.fills.isEmpty then s.time
  else p.fills.foldl (fun (a : Word) v =>
    let d := (plateAt (s.quadAt s.quadNo).plate v).due
    if a.toNat < d.toNat then d else a) 0

/-- An MMUL whose fills have ended: it stamps the plates that it reads (R228), and leaves the product of every tile of its panel and its
time. A run that a freeze has ended hands the bank over when the next word could issue (R242). -/
def State.stream (s : State) (acc : BitVec 4) (src : BitVec 8) (ta : Ty) (m : Nat) (sc z : Bool) (p : Plan) : State :=
  let bank := (s.quadAt s.quadNo).plate
  let rows := (List.range m).map (s.core.aRow src ta sc p.grans)
  let regs := (p.copies.zipIdx).foldl (fun r (x : List Nat × Nat) =>
    let t := acc.toNat + x.2
    let old := (List.range 128).map (s.core.regs.accRow t)
    let o := tileProduct ta sc z (plateAt bank (x.1.headD 0)) rows old
    r.setAcc t o.1 o.2.1 o.2.2) s.core.regs
  let rate := p.copies.foldl (fun a c => min a c.length) 4
  let len := (m + max rate 1 - 1) / max rate 1
  let from' := s.fillEnd p
  let run : Running :=
    { doneAt := from' + BitVec.ofNat 64 (16 + len), accs := (List.range p.copies.length).map (acc.toNat + ·)
      dc := (match operand src with | .dc t => some t.toNat | _ => none), plates := p.copies.flatten
      hits := (p.found.filter id).length, misses := (p.missed.filter id).length, run := (s.quadAt s.quadNo).lease.grants }
  let next := from' + BitVec.ofNat 64 len
  let s : State := { s with core.regs := regs, core.mex.running := s.core.mex.running ++ [run], core.mex.nextAt := next }
  let q := s.quadAt s.quadNo
  let plates := p.copies.flatten.foldl (fun b v => setPlate b v { plateAt b v with used := p.stamp }) q.plate
  let lease : Lease := if q.lease.holder = s.pos then q.lease else { q.lease with freeAt := next }
  (s.setQuad s.quadNo { q with plate := plates, lease := lease }).wordDone 2

/-- MMUL (R240), its faults in the order of R241. -/
def execMmul (acc : BitVec 4) (src : BitVec 8) (q : BitVec 3) (n : BitVec 2) (rows : BitVec 7) (z sc : BitVec 1) (s : State) : Out :=
  let m := rows.toNat + 1
  let k := n.toNat + 1
  leaseWord s fun s =>
    let mask := (s.quadAt s.quadNo).plmask
    if s.core.mex.plan.isNone && mask = 0 then .next (s.engFault .plateNone 0)
    else match s.core.aType src with
      | none => .next (s.engFault .viewInvalid 0)
      | some ta =>
        let go (p : Plan) (s : State) : Out := .next (s.stream acc src ta m (sc = 1) (z = 1) p)
        match s.core.mex.plan with
        | some p => afterFills p s (go p)
        | none =>
          match s.core.aGrans src m with
          | none => .next (s.engFault .viewInvalid 0)
          | some grans =>
            tilesOf q (sc = 1) (fun tiles s =>
              let bad := if s.core.aScaled src (sc = 1) then s.core.aUnbound grans else none
              match bad with
              | some (i, g, c) => .next (s.engFault c (BitVec.ofNat 64 (1024 * g)) (BitVec.ofNat 16 i))
              | none =>
                let panel := tiles.zipIdx.map fun x => (x.2, x.1)
                match serveAllTiles mask (sc = 1) panel { bank := (s.quadAt s.quadNo).plate } with
                | .error j => .next (s.engFault .plateAllPinned 0 (BitVec.ofNat 16 j))
                | .ok w =>
                  let w := growPanel s.core mask q panel w
                  if s.core.accBusy (mmulTiles acc src k grans) true then .next (s.stall 10)
                  else startOrWait tiles w grans s go) k 0 [] s

/-- MMUL_COMPLETE (R242, R253): the oldest running MMUL ends when its time has come; its tiles count as hits and misses, and it counts as a
lease word of its run. -/
def execMmulComplete (s : State) : Out :=
  match s.core.mex.running with
  | [] => .next s
  | r :: rest =>
    if s.time.toNat < r.doneAt.toNat then .next s
    else
      let q := s.quadAt s.quadNo
      let s := { s with core.mex.running := rest }
      .next ((s.setQuad s.quadNo { q with hit := sat32 q.hit r.hits, miss := sat32 q.miss r.misses }).leaseWordDone r.run)

/-! ## The words over one tile (R245) -/

/-- One tile through a pointer of a word that fills plates or not, with the checks of R240, and its copies. -/
def oneTile (fills : Bool) (q : BitVec 3) (s : State) (go : Tile → List Nat → State → Out) : Out :=
  tileOf fills q 0 false s fun t s =>
    let b := s.quadAt s.quadNo
    go t (copiesOf b.plate b.plmask t.pa t.fmt) s

/-- A lease word other than MMUL completes. -/
def State.leaseOver (s : State) : State := s.leaseWordDone (s.quadAt s.quadNo).lease.grants

/-- The lease word is done. -/
def leaseDone (s : State) : Out := .next (s.leaseOver.wordDone 2)

/-- Every plate of a list changed. -/
def State.mapPlates (s : State) (ps : List Nat) (f : Plate → Plate) : State :=
  let q := s.quadAt s.quadNo
  s.setQuad s.quadNo { q with plate := ps.foldl (fun b p => setPlate b p (f (plateAt b p))) q.plate }

/-- MFILL. -/
def execMfill (q reps : BitVec 3) (s : State) : Out :=
  leaseWord s fun s =>
    let b := s.quadAt s.quadNo
    match s.core.mex.plan with
    | some p => afterFills p s leaseDone
    | none =>
      if b.plmask = 0 then .next (s.engFault .plateNone 0)
      else oneTile true q s fun t _ s =>
        let b := s.quadAt s.quadNo
        match Want.serve b.plmask false { bank := b.plate } 0 t with
        | none => .next (s.engFault .plateAllPinned 0 0)
        | some w => startOrWait [t] (growTile (fun w => victim w.bank b.plmask w.prot) (reps.toNat + 1) 0 t 8 w) [] s fun _ => leaseDone

/-- MPIN. -/
def execMpin (q : BitVec 3) (s : State) : Out :=
  let pinAll (ps : List Nat) (s : State) : Out := leaseDone (s.mapPlates ps fun p => { p with pin := true })
  leaseWord s fun s =>
    let b := s.quadAt s.quadNo
    match s.core.mex.plan with
    | some p => afterFills p s (pinAll p.copies.flatten)
    | none =>
      if b.plmask = 0 then .next (s.engFault .plateNone 0)
      else oneTile true q s fun t cs s =>
        let b := s.quadAt s.quadNo
        if cs ≠ [] then (if s.anyBusy cs then .next s else pinAll cs s)
        else match Want.serve b.plmask false { bank := b.plate } 0 t with
          | none => .next (s.engFault .plateAllPinned 0 0)
          | some w => startOrWait [t] w [] s fun p => pinAll p.copies.flatten

/-- MUNPIN. -/
def execMunpin (q : BitVec 3) (s : State) : Out :=
  leaseWord s fun s => oneTile false q s fun _ cs s =>
    if s.anyBusy cs then .next s else leaseDone (s.mapPlates cs fun p => { p with pin := false })

/-- MINV. -/
def execMinv (q : BitVec 3) (s : State) : Out :=
  leaseWord s fun s => oneTile false q s fun _ cs s =>
    if s.anyBusy cs then .next s else leaseDone (s.mapPlates cs Plate.invalid)

/-- The residency value of a tile. -/
def residency (b : Vector Plate 16) (cs : List Nat) : Word :=
  let field (f : Plate → Bool) : Nat := (cs.filter fun p => f (plateAt b p)).foldl (fun a p => a + 2 ^ p) 0
  BitVec.ofNat 64 (field (fun _ => true) + 2 ^ 16 * field (·.stale) + 2 ^ 32 * field (·.pin))

/-- MQRY. -/
def execMqry (q tgt : BitVec 3) (s : State) : Out :=
  leaseWord s fun s => oneTile false q s fun _ cs s =>
    pushOr tgt (residency (s.quadAt s.quadNo).plate cs) s leaseDone

/-- LREL (R246): the run ends when the word completes. -/
def execLrel (s : State) : Out := leaseWord s fun s => .next ((s.leaseOver.endLease s.cur).wordDone 2)

/-! ## Words without the lease (R244, R247) -/

/-- MCLR. -/
def execMclr (acc : BitVec 4) (s : State) : Out :=
  if s.core.accBusy [acc.toNat] false then .next (s.stall 10)
  else .next (State.wordDone { s with
    core.regs.ovf := s.core.regs.ovf.setIfInBounds acc.toNat 0, core.regs.nan := s.core.regs.nan.setIfInBounds acc.toNat 0 } 2)

/-- MSTAT. -/
def execMstat (acc : BitVec 4) (s : State) : Out :=
  if s.core.accBusy [acc.toNat] false then .next (s.stall 10)
  else
    let v := (s.core.regs.ovf.getD acc.toNat 0).toNat + 2 ^ 16 * (s.core.regs.nan.getD acc.toNat 0).toNat + 2 ^ 32 * acc.toNat
    pushOr 0 (BitVec.ofNat 64 v) s fun s => .next (s.wordDone 2)

/-- A weight pointer written: the translation of the page that it names starts in the pointer's stream (R222). -/
def State.setQptr (s : State) (q : BitVec 3) (p : Qptr) : State :=
  State.translateAhead { s with core.mex.q := vset s.core.mex.q q p } (s.streamAgent (32 + q.toNat)) p.addr

/-- MQSET. -/
def execMqset (q : BitVec 3) (id : BitVec 8) (arg : BitVec 2) (grow : BitVec 1) (s : State) : Out :=
  .next ((State.setQptr s q { addr := s.arg arg, id := id, grow := grow = 1 }).wordDone 2)

/-- MQADD. -/
def execMqadd (q : BitVec 3) (k : BitVec 20) (s : State) : Out :=
  let p := vget s.core.mex.q q
  .next ((s.setQptr q { p with addr := p.addr + sext64 k * 16384 }).wordDone 2)

/-! ## The plate registers (R249-R254) -/

/-- A write of PLMASK waits under R225 for the plates that it clears, which become Invalid. -/
def plmaskWrite (v : Word) (s : State) (go : State → Out) : Out :=
  let q := s.quadAt s.quadNo
  let mask := v.setWidth 16 &&& q.avail
  let lost := (enabled q.plmask).filter fun p => !mask.getLsbD p
  if s.anyBusy lost then .next s
  else
    let bank := lost.foldl (fun b p => setPlate b p (plateAt b p).invalid) q.plate
    go (s.setQuad s.quadNo { q with plmask := mask, plate := bank })

/-- A write of PLTAGn with bit 1 = 0 clears PIN, after waiting under R225; every other bit is ignored. -/
def pltagWrite (p : Nat) (v : Word) (s : State) (go : State → Out) : Out :=
  if v.getLsbD 1 then go s
  else if s.anyBusy [p] then .next s
  else go (s.mapPlates [p] fun x => { x with pin := false })

end Sys2Proof.Machine
end

