-- ==== Sys2Proof/Machine/Exchange.lean ====
section
/-! DEFINITION. The exchange engine: remote accesses (R432-R439) and expert routing (R409-R415), and accesses by agents that are not
cores of the context. -/

namespace Sys2Proof.Machine

/-! ## Agents outside the cores of a context (R319, R433, R435) -/

/-- Which TLB an outside agent translates through: the receive TLB of remote accesses, or the aperture's. -/
inductive Outside where
  | remote | aperture
  deriving DecidableEq, Repr

/-- The TLB of an outside agent. -/
def State.outTlb (s : State) : Outside → List Tlb
  | .remote => s.mgmt.rxTlb
  | .aperture => s.mgmt.apTlb

/-- A translation enters an outside agent's TLB: of 256 entries (R435), or of 512 (R477). -/
def State.fillOut (s : State) (o : Outside) (t : Tlb) : State :=
  let l := tlbInsert (s.outTlb o) (if o = .remote then 256 else 512) s.freeN t
  match o with
  | .remote => { s with mgmt.rxTlb := l, freeN := s.freeN + 1 }
  | .aperture => { s with mgmt.apTlb := l, freeN := s.freeN + 1 }

/-- A virtual address of a context, translated for an outside agent at privilege U (R433, R477). The
aperture never parks; `unitSecure` is the world of the unit that makes the access (R464). A translation fault is PAGE_READ or PAGE_WRITE (R436). -/
def State.outTranslate (s : State) (o : Outside) (ctx : Nat) (unitSecure : Bool) (k : Kind) (va : Word) : Trans :=
  let c := BitVec.ofNat 6 ctx
  let ag : Agent := { stream := some 0, priv := 0, unitSecure := unitSecure }
  let finish (s : State) (t : Tlb) : Trans :=
    match s.finish ag k va.toNat t with
    | .fault .permWx s => .fault k.pageFault s
    | r => r
  if !canonical va then .fault k.pageFault s
  else match (s.outTlb o).find? fun t => t.hits c va.toNat with
    | some t => finish s t
    | none =>
      let w := s.walkCtx ctx unitSecure va
      let s := w.reads.foldl State.wakeHome s
      if seg w.entry 0 1 = 0 then
        if seg w.entry 11 1 = 1 && o = .remote then
          match s.armMonitor (w.addr / 256) with
          | some s => .park (w.addr / 256) s
          | none => .fault k.pageFault (s.countOvf (w.addr / 256))
        else .fault k.pageFault s
      else if w.bad || (seg w.entry 2 1 = 1 && seg w.entry 3 1 = 1) then .fault k.pageFault s
      else
        let (e, s) := s.classify none false w
        let t := tlbOf c va.toNat w.addr w.level e
        finish (s.fillOut o t) t

/-- What a unit of an outside access ends with. -/
inductive Outcome1 where
  | ok (data : List Byte) (s : State)
  | fault (c : Cause) (s : State)
  | park (line : Nat) (s : State)
  /-- it stands behind posted writes to the host (R295) -/
  | wait (s : State)

/-- What an outside access does to bytes within one 64-byte unit. -/
inductive OutOp where
  | read (n : Nat)
  | write (bs : List Byte)
  | apply (n : Nat) (f : List Byte → List Byte)

/-- How many bytes it covers. -/
def OutOp.len : OutOp → Nat
  | .read n => n
  | .write bs => bs.length
  | .apply n _ => n

/-- Its kind: an atomic update asks for read and write. -/
def OutOp.kind : OutOp → Kind
  | .read _ => { read := true }
  | .write _ => { write := true }
  | .apply _ _ => { read := true, write := true }

/-- A unit of an outside access performs at its home (R433); a private page is reclassified first (R319). A unit that the XE of a die reads is
back when its reply has crossed the die boundaries (R431). -/
def State.outUnit (s : State) (o : Outside) (die : Option Nat) (ctx : Nat) (unitSecure : Bool) (op : OutOp) (va : Word) : Outcome1 :=
  match s.outTranslate o ctx unitSecure op.kind va with
  | .fault c s => .fault c s
  | .park l s => .park l s
  | .ok pa t s =>
    let s := s.shareFrames pa op.len
    let mark := if op.kind.read then s.marked [] t pa op.len else none
    if op.kind.read && s.hostBusy pa then .wait s
    else match mark with
    | some (_, c) => .fault c s
    | none =>
      let (old, s) := if op.kind.read then s.loadPhys [] .home t pa op.len else ([], s)
      let s := match die with | some d => if op.kind.read then s.noteReply d pa op.len else s | none => s
      match op with
      | .read _ => .ok old s
      | .write bs => .ok [] (s.storeAcc [] .home t pa bs)
      | .apply _ f => .ok [] (s.storeAcc [] .home t pa (f old))

/-! ## Reductions (R437) -/

/-- A 4-byte element of a reduction. -/
def redElem (op : BitVec 3) (d x : Nat) : Nat :=
  let f (g : FVal → FVal → FVal) : Nat := Ty.convert .f32 {} (g (Ty.value .f32 d) (Ty.value .f32 x))
  match op.toNat with
  | 0 => f (fAdd 0)
  | 1 => (d + x) % 2 ^ 32
  | 2 => f (fPick true)
  | _ => f (fPick false)

/-- The elements of a unit reduced. -/
def redBytes (op : BitVec 3) (src old : List Byte) : List Byte :=
  (List.range (src.length / 4)).flatMap fun j =>
    leBytes 4 (redElem op (leNat ((old.drop (4 * j)).take 4)) (leNat ((src.drop (4 * j)).take 4)))

/-- A unit of a remote access: what it does at the target, with the source bytes at the issuing side. -/
def RemKind.op (k : RemKind) (n : Nat) (src : List Byte) : OutOp :=
  match k with
  | .put => .write src
  | .get => .read n
  | .red op => .apply n (redBytes op src)
  | .sig => .apply n fun old => leBytes 8 (leNat old + leNat src)

/-! ## A remote access that arrives from another package (R433, R434) -/

/-- What the units of an arriving access end with: its data, or a fault and how many bytes were done before it, or a park on a line or a wait,
with what has been done. -/
inductive Arrived where
  | ok (data : List Byte) (s : State)
  | fault (c : Cause) (count : Nat) (s : State)
  | stand (line : Option Nat) (count : Nat) (data : List Byte) (s : State)

/-- The units of an arriving access, in ascending order. -/
def State.arriveLoop (ctx : Nat) (unitSecure : Bool) (k : RemKind) (va : Word) (n : Nat) (src : List Byte) :
    Nat → Nat → List Byte → State → Arrived
  | 0, _, acc, s => .ok acc s
  | fuel + 1, off, acc, s =>
    if n ≤ off then .ok acc s
    else
      let x := va + BitVec.ofNat 64 off
      let m := min (toBoundary x.toNat) (n - off)
      match s.outUnit .remote none ctx unitSecure (k.op m ((src.drop off).take m)) x with
      | .ok d s => State.arriveLoop ctx unitSecure k va n src fuel (off + m) (acc ++ d) s
      | .fault c s => .fault c off s
      | .park l s => .stand (some l) off acc s
      | .wait s => .stand none off acc s

/-! ## Flits (R442, R443) -/

/-- A port that carries traffic. -/
def Port.carries (p : Port) : Bool := p.st = .up || p.st = .degraded

/-- A port. -/
def State.port (s : State) (k : Nat) : Port := s.ports.getD k {}

/-- The machine with a port replaced. -/
def State.setPort (s : State) (k : Nat) (p : Port) : State := { s with ports := s.ports.setIfInBounds k p }

/-- One bit of a CRC-32 with the IEEE 802.3 polynomial, least significant bit first. -/
def crcStep (c : Nat) : Nat := if c % 2 = 1 then (c / 2) ^^^ 0xEDB88320 else c / 2

/-- A byte enters the CRC. -/
def crcByte (c : Nat) (b : Byte) : Nat :=
  crcStep (crcStep (crcStep (crcStep (crcStep (crcStep (crcStep (crcStep (c ^^^ b.toNat))))))))

/-- The CRC-32 of bytes. -/
def crc32 (bs : List Byte) : Nat := bs.foldl crcByte 0xFFFFFFFF ^^^ 0xFFFFFFFF

/-- A flit (R442): header, payload filled up to 244 bytes, CRC-32 over both. -/
def flitBytes (dst src core kind seq cls len tag : Nat) (payload : List Byte) : List Byte :=
  let header := fields [(0, tag % 256), (8, len % 256), (16, cls % 16), (20, seq % 4096), (32, kind % 16), (36, core % 256),
    (44, src % 1024), (54, dst % 1024)]
  let body := leBytes 8 header.toNat ++ payload ++ List.replicate (244 - payload.length) 0
  body ++ leBytes 4 (crc32 body)

/-- The lowest port of a device's route that is UP or DEGRADED. -/
def State.bestPort (s : State) (dev : Nat) : Option Nat :=
  (List.range 16).find? fun k => ((smFind s.mgmt.route dev).getD []).contains k && (s.port k).carries

/-- A request of the package toward a device went out on a port and has not been acknowledged. -/
def State.unacked (s : State) (dev k : Nat) : Bool :=
  let owes (c : Core) : Bool := c.remote.any fun r => r.dev.toNat = dev && r.port = k
  owes s.core || s.others.any fun c => owes c.2

/-- The port that traffic to a device uses (R443): the lowest of its route that carries traffic; before it changes to another, the requests that
went out on the old one are acknowledged. -/
def State.portFor (s : State) (dev : Nat) : Option Nat :=
  match smFind s.mgmt.portNow dev with
  | some k => if (s.port k).carries && s.unacked dev k then some k else s.bestPort dev
  | none => s.bestPort dev

/-- The payload of a flit. -/
def Cargo.payload (c : Cargo) : List Byte := (Config.flitPayload c.kind c.op c.len c.va c.data).take 244

/-- A flit goes out on a port and is kept for replay. The layout of its payload is a free value. -/
def State.putFlit (s : State) (k dst : Nat) (c : Cargo) : State :=
  let p := s.port k
  let bs := flitBytes dst s.mgmt.device.toNat c.core c.kind p.next c.cls c.payload.length c.tag c.payload
  let kept := p.kept ++ [{ seq := p.next, data := bs }]
  (s.setPort k { p with next := (p.next + 1) % 4096, kept := kept.drop (kept.length - 512) }).emit (.flit k p.next bs)

/-- Traffic to a device goes over to a port: the answers that went out on another and may not have come go out again (R443). -/
def State.usePort (s : State) (dev k : Nat) : State :=
  let again (x : Nat × Answer) : Bool := x.2.dev = dev && x.1 ≠ k
  let s := (s.mgmt.owed.filter again).foldl (fun s x => s.putFlit k dev x.2.cargo) s
  { s with
    mgmt.owed := s.mgmt.owed.map fun x => if again x then (k, x.2) else x
    mgmt.portNow := smSet s.mgmt.portNow dev k }

/-- A flit toward a device goes out on the port that its traffic uses. -/
def State.sendFlit (s : State) (k dev : Nat) (c : Cargo) : State := (s.usePort dev k).putFlit k dev c

/-- An answer goes to another package under the tag and the class of the request (R442), or waits until a port carries traffic (R443). -/
def State.sendAnswer (s : State) (a : Answer) : State :=
  match s.portFor a.dev with
  | some k =>
    let s := s.sendFlit k a.dev a.cargo
    { s with mgmt.owed := s.mgmt.owed ++ [(k, a)] }
  | none => { s with mgmt.answers := s.mgmt.answers ++ [a] }

/-- A core of another package makes an access: the answers to its earlier ones have come (assumption log 49). -/
def State.answered (s : State) (dev core : Nat) : State :=
  { s with mgmt.owed := s.mgmt.owed.filter fun x => !(x.2.dev = dev && x.2.cargo.core = core) }

/-- The answers that wait are sent as far as a port carries traffic. -/
def State.sendAnswers (s : State) : State :=
  s.mgmt.answers.foldl State.sendAnswer { s with mgmt.answers := [] }

/-- A link port is in the secure world (R464, R469). -/
def State.portSecure (s : State) (k : Nat) : Bool := s.mgmt.worldu.getLsbD (5 + k)

/-- An arriving access performs and is answered; one that parks, or stands behind posted writes, keeps what it has done (R355, R433). -/
def State.arriveAccess (s : State) (a : Arrival) : State :=
  let answer (kind op len : Nat) (data : List Byte) (e : Emit) (s : State) : State :=
    (s.sendAnswer { dev := a.dev, cargo :=
      { core := a.core, kind := kind, cls := a.cls.toNat, tag := a.tag.toNat, va := a.va, op := op, len := len, data := data } }).emit e
  match s.mgmt.podCtx with
  | none => answer 8 Cause.queueTarget.code.toNat 0 [] (.remoteFault a.dev a.core .queueTarget 0) s
  | some ctx =>
    match State.arriveLoop ctx (s.portSecure a.port) a.kind a.va a.len a.data (a.len + 1) a.done a.got s with
    | .ok d s => answer (if a.kind = .get then 3 else 6) 0 d.length d (.remoteDone a.dev a.core d) s
    | .fault c m s => answer 8 c.code.toNat m [] (.remoteFault a.dev a.core c m) s
    | .stand l off acc s =>
      { s with mgmt.arrivals := s.mgmt.arrivals ++ [{ a with parked := l, woken := false, done := off, got := acc }] }

/-- An access of another package goes on that a write to a line has woken, or that stood behind posted writes. -/
def State.arriveAgain (s : State) (line : Nat) : State :=
  match s.mgmt.arrivals.find? fun a => a.parked.isNone || (a.parked = some line && a.woken) with
  | none => s
  | some a => State.arriveAccess { s with mgmt.arrivals := s.mgmt.arrivals.erase a } a

/-- A flit from a device that a port has received takes effect, once (R442): it is the one of that SEQ, and its header and payload say what the
event says. -/
def State.takeFlit (s : State) (port : BitVec 4) (seq : BitVec 12) (src : Nat) (c : Cargo) (go : State → Out) : Out :=
  let p := s.port port.toNat
  let x : Taken :=
    { seq := seq.toNat, src := src, core := c.core, kind := c.kind, cls := c.cls, tag := c.tag, payload := c.payload }
  if p.taken.contains x then go (s.setPort port.toNat { p with taken := p.taken.erase x }) else .next s

/-- Every member of the other packages has arrived at a pod barrier of a group: it trips when every member here has (R394), of whichever state
the group is (R399). -/
def State.podTrip (s : State) (group : Nat) (id : Nat) : State :=
  match s.groups.find? fun g => g.id = group && g.st ≠ .ended with
  | none => s
  | some g =>
    let b := smGet g.barriers (barKey 5 0 id) {}
    s.setGroup { g with barriers := smSet g.barriers (barKey 5 0 id) (if b.full then b.trip false else { b with others := true }) }

/-- The pod barriers of a group trip with ABORT (R394): ids 0 to 7 at scope 5. -/
def Grp.abortPod (g : Grp) : Grp :=
  { g with barriers := (List.range 8).foldl (fun b id => smSet b (barKey 5 0 id) ((smGet b (barKey 5 0 id) {}).trip true)) g.barriers }

/-- The group of another package has failed, which counts as a package that is lost: the pod barriers of the group abort (R400). -/
def State.podAbort (s : State) (group : Nat) : State :=
  { s with groups := s.groups.map fun g => if g.id = group && g.st ≠ .ended then g.abortPod else g }

/-- What the flit of a request carries (R442): the news about a pod barrier goes as a signal. -/
def requestCargo (r : RemoteReq) (core : BitVec 8) (flit : AccessFlit) : Cargo :=
  let c : Cargo := { core := core.toNat, kind := 5, cls := flit.cls.toNat, tag := flit.tag.toNat }
  match r with
  | .write va data => { c with kind := 1, va := va, len := data.length, data := data }
  | .read va n => { c with kind := 2, va := va, len := n }
  | .reduce op va data => { c with kind := 4, va := va, op := op.toNat, len := data.length, data := data }
  | .signal va v => { c with va := va, len := 8, data := leBytes 8 v.toNat }
  | .podTrip g id => { c with op := 1, len := id.toNat, va := BitVec.ofNat 64 g }
  | .podAbort g => { c with op := 2, va := BitVec.ofNat 64 g }

/-- REMOTE_ACCESS: what a received flit carries. -/
def execRemoteAccess (dev : BitVec 10) (core : BitVec 8) (flit : AccessFlit) (s : State) : Out :=
  s.takeFlit flit.port flit.seq dev.toNat (requestCargo flit.req core flit) fun s =>
    let go (k : RemKind) (va : Word) (n : Nat) (src : List Byte) : Out :=
      .next ((s.answered dev.toNat core.toNat).arriveAccess
        { dev := dev.toNat, core := core.toNat, tag := flit.tag, cls := flit.cls, kind := k, va := va, len := n, data := src,
          port := flit.port.toNat })
    match flit.req with
    | .write va data => go .put va data.length data
    | .read va n => go .get va n []
    | .reduce op va data => if va.toNat % 4 = 0 && data.length % 4 = 0 then go (.red op) va data.length data else .next s
    | .signal va v => if va.toNat % 8 = 0 then go .sig va 8 (leBytes 8 v.toNat) else .next s
    | .podTrip g id => .next (s.podTrip g id.toNat)
    | .podAbort g => .next (s.podAbort g)

/-! ## Devices of the pod job (R432, R436, R443) -/

/-- A device of the job that can be reached: a port of its route is neither DOWN nor RETIRED. -/
def State.reachable (s : State) (dev : Nat) : Bool :=
  match smFind s.mgmt.route dev with
  | none => false
  | some ps => ps.any fun k => (s.port k).carries || (s.port k).st = .train

/-- The device of an XE word is the issuing package. -/
def State.ownDev (s : State) (dev : BitVec 10) : Bool := dev = s.mgmt.device

/-- A word of the XE waits while its remote access is unanswered; else its device is checked, and that a context is bound there (R436). -/
def remoteWord (dev : BitVec 10) (s : State) (go : State → Out) : Out :=
  let stop : Out := .next (s.engFault .queueTarget (zext64 dev))
  if s.core.remote.isSome then .next s
  else if s.ownDev dev then (if s.mgmt.podCtx.isNone then stop else go s)
  else if s.core.sq.maxscope.toNat < 5 || !s.reachable dev.toNat || !s.mgmt.podBound.contains dev.toNat then stop
  else go s

/-- The streams of pa and pb of the word that the XE runs. -/
def xeStreamA : Nat := 24

/-- The KIND of the flits that carry a remote access (R442). -/
def RemKind.flit : RemKind → Nat
  | .put => 1 | .get => 2 | .red _ => 4 | .sig => 5

/-- What the flit of a remote access carries (R442). -/
def Remote.cargo (r : Remote) (core : Nat) : Cargo :=
  { core := core, kind := r.kind.flit, cls := r.cls.toNat, tag := r.tag.toNat, va := r.va
    op := match r.kind with | .red op => op.toNat | _ => 0
    len := r.len, data := r.data }

/-- A unit is done at the target, when a memory request is free (R19): at once on the issuing package; else it is sent, when a port of the route
carries traffic (R443), and is done when the acknowledgement comes. From the first that is sent the word executes, and runs on to its end (R364). -/
def remoteUnit (k : RemKind) (cls : BitVec 4) (dev : BitVec 10) (va loc : Word) (n off : Nat) (src : List Byte) (s : State)
    (go : List Byte → State → Out) : Out :=
  if 4096 ≤ s.requests then .next (s.keep off src).standBy
  else if s.ownDev dev then
    match s.outUnit .remote (some s.dieNo) (s.mgmt.podCtx.getD 0) s.coreSecure (k.op n src) va with
    | .ok d s => go d (s.unparkEngine [(va, (k.op n src).len)])
    | .fault c s => .next ((s.engFault c va).keep off [])
    | .park l s => .next ((s.keep off src).parkEngine va l)
    | .wait s => .next (s.keep off src).standBy
  else match s.portFor dev.toNat with
    | none => .next (s.keep off src).standBy
    | some p =>
      let (tag, s) := s.free
      let tag : BitVec 8 := tag.setWidth 8
      let r : Remote := { kind := k, dev := dev, va := va, loc := loc, len := n, data := src, tag := tag, port := p, cls := cls }
      let s := s.sendFlit p dev.toNat (r.cargo s.cur)
      .next ((State.keep { s with core.remote := some r } off []).upd fun e => { e with exec := true, wait := 0 })

/-- The local bytes of an XGET unit are written; the word keeps them while it waits. -/
def storeLocal (loc : Word) (off : Nat) (bs : List Byte) (s : State) (go : State → Out) : Out :=
  writeSpace 0 xeStreamA loc bs off bs s go

/-- XPUT, XGET and XRED by units (R437): local faults come before remote ones. What has been read of a unit stays with the word while it is on
its way across the die boundaries (R431), and while the word waits to write it. -/
def moveLoop (k : RemKind) (cls : BitVec 4) (dev : BitVec 10) (a b : Word) (n : Nat) : Nat → Nat → State → Out
  | 0, _, s => .next s
  | fuel + 1, off, s =>
    if n ≤ off then .next (s.wordDone 2)
    else
      let x := a + BitVec.ofNat 64 off
      let y := b + BitVec.ofNat 64 off
      let m := min (min (toBoundary x.toNat) (toBoundary y.toNat)) (n - off)
      let next (s : State) : Out := moveLoop k cls dev a b n fuel (off + m) (s.keep (off + m) [])
      let second (bs : List Byte) (s : State) : Out :=
        match k with
        | .get => storeLocal x off bs s next
        | _ => remoteUnit k cls dev y x m off bs s fun _ s => next s
      let got (bs : List Byte) (s : State) : Out := if s.time.toNat < s.reply.toNat then .next (s.awaitBack off bs) else second bs s
      match (s.act.part.getD {}).data with
      | [] =>
        match k with
        | .get =>
          withSplit (s.streamAgent xeStreamA) { write := true } [(x, m)] (s.keep off []) fun ps s =>
            match ps.findSome? fun p => match p.res with | .error c => some c | .ok _ => none with
            | some c => .next ((s.engFault c x).keep off [])
            | none => remoteUnit k cls dev y x m off [] s got
        | _ => readSpace 0 xeStreamA x m off s got
      | bs => if s.onWay then .next s else second bs s

/-- The local pages of a word are checked before anything of it is done, since their faults come before the target's (R436). -/
def localPages (k : RemKind) (a : Word) (n : Nat) (s : State) (go : State → Out) : Out :=
  if s.act.part.isSome then go s
  else match s.splitTo (some s.cur) (s.streamAgent xeStreamA) (if k = .get then { write := true } else { read := true }) (piecesOf a n) with
    | .device => .fault .deviceRegisters
    | .park va l s => .next (s.parkEngine va l)
    | .ok ps s =>
      match ps.findSome? fun p => match p.res with | .error c => some (p.va, c) | .ok _ => none with
      | some (x, c) => .next (s.engFault c x)
      | none => go (s.unparkEngine (piecesOf a n))

/-- A word that moves p[pc] bytes. A count alone that is no multiple of 4 has no faulting address: EFADDR is a free value (assumption
log 10). -/
def moveWord (k : RemKind) (cls : BitVec 4) (aligned : Bool) (pa pb pc : BitVec 3) (dev : BitVec 10) (s : State) : Out :=
  let a := s.ptr3 pa
  let b := s.ptr3 pb
  let n := s.ptr3 pc
  remoteWord dev s fun s =>
    if 2 ^ 32 ≤ n.toNat then .next (s.engFault .queueTarget n)
    else if aligned && a.toNat % 4 ≠ 0 then .next (s.engFault .misaligned a)
    else if aligned && b.toNat % 4 ≠ 0 then .next (s.engFault .misaligned b)
    else if aligned && n.toNat % 4 ≠ 0 then .next (s.free.2.engFault .misaligned s.free.1)
    else localPages k a n.toNat s fun s => moveLoop k cls dev a b n.toNat (n.toNat + 1) s.doneBytes s

def execXput (pa pb pc : BitVec 3) (cls : BitVec 4) (dev : BitVec 10) (s : State) : Out := moveWord .put cls false pa pb pc dev s

def execXget (pa pb pc : BitVec 3) (cls : BitVec 4) (dev : BitVec 10) (s : State) : Out := moveWord .get cls false pa pb pc dev s

def execXred (pa pb pc : BitVec 3) (cls : BitVec 4) (dev : BitVec 10) (op : BitVec 3) (s : State) : Out :=
  moveWord (.red op) cls true pa pb pc dev s

/-- XSIG (R438). -/
def execXsig (pa pb : BitVec 3) (cls : BitVec 4) (dev : BitVec 10) (s : State) : Out :=
  let a := s.ptr3 pa
  remoteWord dev s fun s =>
    if s.doneBytes = 8 then .next (s.wordDone 2)
    else if a.toNat % 8 ≠ 0 then .next (s.engFault .misaligned a)
    else remoteUnit .sig cls dev a a 8 0 (leBytes 8 (s.ptr3 pb).toNat) s fun _ s => .next (s.wordDone 2)

/-- The cause that a target's answer carries. -/
def answerCause (code : BitVec 8) : Option Cause :=
  [Cause.pageRead, .pageWrite, .eccUncorrectable, .poisonConsumed, .queueTarget].find? fun c => c.code = code

/-- What the flit of an answer to a remote access of a core carries (R442). -/
def answerCargo (a : RemoteAns) (r : Remote) (core : Nat) : Cargo :=
  let c : Cargo := { core := core, kind := 8, cls := r.cls.toNat, tag := r.tag.toNat, va := r.va }
  match a with
  | .done data => { c with kind := if r.kind = .get then 3 else 6, len := data.length, data := data }
  | .fault code count => { c with op := code.toNat, len := count }

/-- REMOTE_ACK (R434, R436): the answer that a received flit carries, under the tag of the XE's remote access. -/
def execRemoteAck (flit : AnswerFlit) (s : State) : Out :=
  match s.core.remote with
  | none => .next s
  | some r =>
    if flit.tag ≠ r.tag then .next s
    else s.takeFlit flit.port flit.seq r.dev.toNat (answerCargo flit.ans r s.cur) fun s =>
      let s' := { s with core.remote := none, actor := .xe }
      let off := s'.doneBytes
      match flit.ans with
      | .done data =>
        match r.kind with
        | .get => if data.length = r.len then storeLocal r.loc off data s' fun s => .next (s.keep (off + r.len) []) else .next s
        | _ => .next (s'.keep (off + r.len) [])
      | .fault code count =>
        match answerCause code with
        | none => .next s
        | some .queueTarget => .next ((s'.engFault .queueTarget (zext64 r.dev)).keep off [])
        | some c => .next ((s'.engFault c (r.va + BitVec.ofNat 64 count)).keep (off + min count r.len) [])

/-- A core whose remote access is in flight toward a device that can no longer be reached (R443): its word stops. -/
def Core.loseRemote (c : Core) (dead : Nat → Bool) : Core :=
  match c.remote with
  | some r =>
    if dead r.dev.toNat then { c.stopEngine .xe { cause := .queueTarget, addr := zext64 r.dev } with remote := none } else c
  | none => c

/-- XWAIT (R439) reads its flag at home until the condition holds. -/
def execXwait (pa pb : BitVec 3) (cond : BitVec 2) (s : State) : Out :=
  let a := s.ptr3 pa
  if a.toNat % 8 ≠ 0 then .next (s.engFault .misaligned a)
  else withSplit (s.streamAgent xeStreamA) { read := true } [(a, 8)] s fun ps s =>
    match ps with
    | [] => .next s
    | p :: _ =>
      match p.res with
      | .error c => .next (s.engFault c a)
      | .ok (pa, t) =>
        match s.marked s.engHolders t pa 8 with
        | some (_, c) => .next (s.engFault c a)
        | none =>
          let v := leNat (s.store.readHome pa 8)
          let w := (s.ptr3 pb).toNat
          let met : Bool := match cond.toNat with | 0 => decide (w ≤ v) | 1 => v == w | _ => v != w
          if met then .next (s.wordDone 2) else .next (s.stall 7)

/-! ## Routing (R409-R415) -/

/-- Bytes of a hosting buffer are written, through the translations that its entry holds. -/
def Hosting.put (h : Hosting) (s : State) (off : Nat) (bs : List Byte) : State :=
  let va := h.base.toNat + off
  match h.tlb.find? fun t => t.hits h.ctx va with
  | some t => s.storeAcc s.engHolders .all t (t.frame + va % t.size) bs
  | none => s

/-- A core belongs to the context of the core in focus. -/
def State.ownsCore (s : State) (core : Nat) : Bool := (s.ctxAt s.core.sq.ctxid.toNat).quads.getLsbD (core / 4)

/-- A read of whole sectors by a word that reads them all again after a stop: nothing read before it is kept. -/
def readWhole (ag : Agent) (ea : Word) (n : Nat) (s : State) (go : List Byte → State → Out) : Out :=
  withSplitTo (some s.cur) ag { read := true } (piecesOf ea n) s fun ps s =>
    let xs := (ps.flatMap fun p => p.sectors ea).map s.readable
    match firstBad xs <|> (ps.findSome? fun p => match p.res with | .error c => some ((p.va - ea).toNat / 64, p.va, c) | .ok _ => none) with
    | some (i, va, c) => .next (s.engFault c va (BitVec.ofNat 16 i))
    | none =>
      let (buf, s) := xs.foldl (s.readInto .all) (List.replicate n 0, s)
      go (buf.take n) s

/-- XSEND (R413): a target outside the context ranks before a misaligned row (assumption log 26). -/
def execXsend (pa pb pc : BitVec 3) (_cls : BitVec 4) (tgt : BitVec 8) (s : State) : Out :=
  let a := s.ptr3 pa
  if !s.ownsCore tgt.toNat then .next (s.engFault .queueTarget (zext64 tgt))
  else if a.toNat % 64 ≠ 0 then .next (s.engFault .misaligned a)
  else if 64 ≤ s.core.sends.length + s.core.refusals.length then .next (s.stall 7)
  else readWhole (s.streamAgent xeStreamA) a 1024 s fun row s =>
    let x : Send := { seq := s.core.seq, target := tgt.toNat, expert := (s.ptr3 pc).toNat % 256,
                      token := (s.ptr3 pb).setWidth 32, row := row }
    .next (State.wordDone { s with core.sends := s.core.sends ++ [x], core.seq := s.core.seq + 1 } 2)

/-- XADM (R410): an announcement replaces the expert's entry, n = 0 withdraws it. Of p[pb] bits 7:0 are n, the bits above being ignored (assumption
log 26). -/
def execXadm (pa pb pc : BitVec 3) (s : State) : Out :=
  let base := s.ptr3 pa
  let n := (s.ptr3 pb).toNat % 256
  let expert := (s.ptr3 pc).toNat % 256
  let others := s.core.hosting.filter fun h => h.expert ≠ expert
  if base.toNat % 1024 ≠ 0 then .next (s.engFault .misaligned base)
  else if n = 0 then .next (State.wordDone { s with core.hosting := others } 2)
  else if 240 < n then .next (s.engFault .queueTarget (BitVec.ofNat 64 n))
  else withSplit (s.streamAgent xeStreamA) { write := true } (piecesOf base (1024 * (n + 1))) s fun ps s =>
    match ps.findSome? fun p => match p.res with | .error c => some (p.va, c) | .ok _ => none with
    | some (a, c) => .next (s.engFault c a)
    | none =>
      let tl := (ps.filterMap fun p => match p.res with | .ok (_, t) => some t | .error _ => none).eraseDups
      let h : Hosting := { expert := expert, ctx := s.core.sq.ctxid, base := base, slots := n, tlb := tl }
      if s.core.hosting.any fun h => h.expert = expert then
        let l := s.core.hosting.map fun x => if x.expert = expert then h else x
        .next (State.wordDone { h.put s 0 (leBytes 4 0) with core.hosting := l } 2)
      else if 8 ≤ s.core.hosting.length then .next (s.engFault .queueTarget (BitVec.ofNat 64 expert))
      else .next (State.wordDone { h.put s 0 (leBytes 4 0) with core.hosting := s.core.hosting ++ [h] } 2)

/-- XREFQ (R414). -/
def execXrefq (pa pb : BitVec 3) (s : State) : Out :=
  let give (rec reason : Word) (rest : List (Word × Word)) : Out :=
    pushOr 0 rec s fun s =>
      let s := { s with core.refusals := rest }
      .next (((s.setPtr (pa.setWidth 4) rec).setPtr (pb.setWidth 4) reason).wordDone 2)
  match s.core.refusals with
  | [] => give 0 0 []
  | (rec, reason) :: rest => give rec reason rest

/-- The refusal record of R412. -/
def refusalRecord (x : Send) (reason : BitVec 8) : Word :=
  BitVec.ofNat 64 (x.token.toNat + x.expert % 256 * 2 ^ 32 + x.target % 256 * 2 ^ 40 + reason.toNat * 2 ^ 56)

/-- The oldest undecided send of a list toward a core. -/
def nextRow (l : List Send) (target : Nat) : Option Send := l.find? fun x => x.target = target && x.answer.isNone

/-- The sends of a core with one decided. -/
def decide1 (l : List Send) (seq : Nat) (answer : BitVec 8) : List Send :=
  l.map fun x => if x.seq = seq then { x with answer := some answer } else x

/-- A row arrives at the core in focus (R411): it is refused, or admitted into the next slot, the count last. -/
def State.takeRow (s : State) (x : Send) : BitVec 8 × State :=
  match s.core.hosting.find? fun h => h.expert = x.expert with
  | none => (2, s)
  | some h =>
    if h.slots ≤ h.rows then (1, s)
    else
      let s := h.put s (1024 * (h.rows + 1)) x.row
      let s := h.put s (64 + 4 * h.rows) (leBytes 4 x.token.toNat)
      let s := h.put s 0 (leBytes 4 (h.rows + 1))
      (0, { s with core.hosting := s.core.hosting.map fun y => if y.expert = x.expert then { y with rows := h.rows + 1 } else y })

/-- ROW_ARRIVAL: the next row of a sender reaches the core in focus. -/
def execRowArrival (sender : BitVec 8) (s : State) : Out :=
  match nextRow (s.coreAt sender.toNat).sends s.cur with
  | none => .next s
  | some x =>
    let (answer, s) := s.takeRow x
    let c := s.coreAt sender.toNat
    .next (s.setCoreAt sender.toNat { c with sends := decide1 c.sends x.seq answer })

/-- SEND_ANSWER: the answer "admitted" reaches the sender. -/
def execSendAnswer (idx : Nat) (s : State) : Out :=
  match s.core.sends[idx]? with
  | some x => if x.answer = some 0 then .next { s with core.sends := s.core.sends.eraseIdx idx } else .next s
  | none => .next s

/-- REFUSAL_ARRIVAL: a refusal joins the refusal queue, and REFCNT counts it. -/
def execRefusalArrival (idx : Nat) (s : State) : Out :=
  match s.core.sends[idx]? with
  | none => .next s
  | some x =>
    match x.answer with
    | none => .next s
    | some r =>
      if r = 0 then .next s
      else
        .next { s with
          core.sends := s.core.sends.eraseIdx idx
          core.refusals := s.core.refusals ++ [(refusalRecord x r, zext64 r)]
          core.counts.full := if r = 1 then sat32 s.core.counts.full 1 else s.core.counts.full
          core.counts.nh := if r = 2 then sat32 s.core.counts.nh 1 else s.core.counts.nh }

end Sys2Proof.Machine
end

