-- ==== Sys2Proof/Machine/Round.lean ====
section
/-! DEFINITION. Rounds and the etch units (R94, R95, R419-R430). -/

namespace Sys2Proof.Machine

/-! ## The program (R94, R95, R421) -/

/-- What an operator pops and pushes; none for a reserved code. -/
def opStack (code : Nat) : Option (Nat × Nat) :=
  match code with
  | 0x00 => some (0, 0)
  | 0x01 | 0x02 | 0x03 => some (0, 1)
  | 0x10 | 0x11 | 0x12 | 0x14 | 0x15 | 0x16 | 0x40 => some (2, 1)
  | 0x13 | 0x17 => some (3, 1)
  | 0x18 | 0x19 | 0x1A => some (1, 1)
  | 0x20 => some (1, 2)
  | 0x21 => some (2, 2)
  | 0x22 | 0x70 => some (1, 0)
  | _ =>
    if 0x08 ≤ code && code ≤ 0x0F then some (0, 1)
    else if 0x30 ≤ code && code ≤ 0x3B then some (1, 1)
    else if 0x50 ≤ code && code ≤ 0x5F then some (1, 0)
    else if 0x60 ≤ code && code ≤ 0x6F then some (0, 1)
    else none

/-- The codes keep the depth between 0 and 4 and end at depth 0. -/
def depthOk : List Nat → Nat → Bool
  | [], d => d = 0
  | c :: rest, d =>
    match opStack c with
    | none => false
    | some (pop, push) => pop ≤ d && d - pop + push ≤ 4 && depthOk rest (d - pop + push)

/-- The record of an etch program. -/
structure EtchRec where
  ops : List Nat
  types : List Nat
  consts : List Nat
  bases : List Word
  dest : Word
  zeros : Bool

/-- The record that 128 bytes hold. -/
def EtchRec.ofBytes (bs : List Byte) : EtchRec :=
  let byte (k : Nat) : Nat := (bs.getD k 0).toNat
  let dw (k : Nat) : Word := BitVec.ofNat 64 (leNat ((bs.drop k).take 8))
  let codes := (List.range 24).map byte
  { ops := codes.takeWhile (· ≠ 0)
    types := (List.range 4).map fun k => byte (24 + k)
    consts := (List.range 8).map fun k => leNat ((bs.drop (32 + 4 * k)).take 4)
    bases := (List.range 4).map fun k => dw (64 + 8 * k)
    dest := dw 96
    zeros := codes.contains 0 && ((bs.drop 28).take 4 ++ bs.drop 104).all (· = 0) }

/-- Stream `k` is declared. -/
def EtchRec.declared (r : EtchRec) (k : Nat) : Bool := 128 ≤ r.types.getD k 0

/-- The element type of stream `k`. -/
def streamTy (types : List Nat) (k : Nat) : Ty := (Ty.ofCode (types.getD k 0 % 16)).getD .f32

/-- The valid records (R95, R421). -/
def EtchRec.ok (r : EtchRec) : Bool :=
  let outs := (r.ops.filter (· = 0x70)).length
  r.zeros && depthOk r.ops 0 && outs ≤ 1 &&
    r.types.all (fun b => b = 0 || (128 ≤ b && b / 16 = 8 && b % 16 ≤ 11)) &&
    [1, 2, 3].all (fun c => !r.ops.contains c || r.declared (c - 1)) &&
    (outs = 1) = r.declared 3 && (r.declared 3 || r.declared 0) &&
    (List.range 4).all (fun k => !r.declared k || (r.bases.getD k 0).toNat % (streamTy r.types k).size = 0) &&
    r.dest.toNat % 64 = 0

/-! ## ETCH -/

/-- The fault of a range whose pages have been translated: that of the translation, or with `inside` a page fault at the first byte that
maps outside package memory (R429). -/
def firstFault (inside : Bool) (k : Kind) (ps : List Piece) : Option (Word × Cause) :=
  (ps.findSome? fun p => match p.res with | .error c => some (p.va, c) | .ok _ => none) <|>
    (ps.find? fun p => inside && isHost p.pa).map fun p => (p.va, k.pageFault)

/-- The etch units of a channel's die are in the secure world (R464, R469). -/
def State.etchSecure (s : State) (ch : Nat) : Bool := s.mgmt.worldu.getLsbD (1 + ch / 128)

/-- ETCH translates a range for the unit of a channel; no access of memory is made. -/
def withPages (ch : Nat) (k : Kind) (inside : Bool) (ps : List (Word × Nat)) (s : State) (go : List Piece → State → Out) : Out :=
  match s.splitTo (some s.cur) { s.streamAgent ceStreamA with unitSecure := s.etchSecure ch } k ps with
  | .device => .fault .deviceRegisters
  | .park va l s => .next (s.parkEngine va l)
  | .ok qs s =>
    match firstFault inside k qs with
    | some (a, c) => .next (s.engFault c a)
    | none => go qs (s.unparkEngine ps)

/-- The physical pieces of a range. -/
def physPieces (ps : List Piece) : List (Nat × Nat × Nat) := ps.map fun p => (p.va.toNat, p.pa, p.len)

/-- The translations that a range took. -/
def piecesTlbs (ps : List Piece) : List Tlb :=
  (ps.filterMap fun p => match p.res with | .ok (_, t) => some t | .error _ => none).eraseDups

/-- The ranges of an ETCH, stream by stream, and the translations that they took. -/
structure EtchRanges where
  pieces : List (List (Nat × Nat × Nat)) := []
  tlbs : List Tlb := []

/-- The streams of an ETCH are translated, in the order A, B, C, OUT. -/
def etchStreams (ch : Nat) (r : EtchRec) (f n : Nat) (go : EtchRanges → State → Out) : List Nat → EtchRanges → State → Out
  | [], acc, s => go acc s
  | k :: rest, acc, s =>
    if !r.declared k then etchStreams ch r f n go rest { acc with pieces := acc.pieces ++ [[]] } s
    else
      let size := (streamTy r.types k).size
      let kind : Kind := if k = 3 then { write := true } else { read := true }
      withPages ch kind true (piecesOf (r.bases.getD k 0 + BitVec.ofNat 64 (f * size)) (n * size)) s fun ps s =>
        etchStreams ch r f n go rest { pieces := acc.pieces ++ [physPieces ps], tlbs := acc.tlbs ++ piecesTlbs ps } s

/-- The queue of an etch unit. -/
def State.unitQueue (s : State) (ch : Nat) : List EtchJob := smGet s.etch ch []

/-- A unit takes an ETCH: it is involved in the round (R427). -/
def State.handJob (s : State) (ch : Nat) (j : EtchJob) : State :=
  let seen := s.core.etched.any fun x => x.1 = j.round && x.2.1 = ch
  { s with
    etch := smSet s.etch ch (s.unitQueue ch ++ [j])
    core.etched := if seen then s.core.etched else s.core.etched ++ [(j.round, ch, 0)] }

/-- The current round (R427). -/
def Core.currentRound (c : Core) : Option Nat := c.roundOrder.getLast?

/-- ETCH (R429), its faults in the order of the pseudocode. -/
def execEtch (pa pb pc : BitVec 3) (ch : BitVec 9) (s : State) : Out :=
  let a := s.ptr3 pa
  let f := (s.ptr3 pb).toNat
  let n := (s.ptr3 pc).toNat
  if !s.big || !s.channelLive ch.toNat then .next (s.engFault .channelMissing (zext64 ch))
  else match s.core.currentRound with
    | none => .next (s.engFault .illegalInstruction 0)
    | some round =>
      if a.toNat % 64 ≠ 0 then .next (s.engFault .misaligned a)
      else withSplitTo (some s.cur) (s.streamAgent ceStreamA) { read := true } (piecesOf a 128) s fun ps s =>
        let bad := ps.findSome? fun p => match p.res with | .error c => some (p.va, c) | .ok _ => s.markIn p
        match bad with
        | some (x, c) => .next (s.engFault c x)
        | none =>
          let (bs, s) := s.readPieces .all ps
          let r := EtchRec.ofBytes bs
          if !r.ok then .next (s.engFault .illegalInstruction a)
          else if n = 0 then .next (s.wordDone 2)
          else etchStreams ch.toNat r f n (fun x s =>
            let hand (dest : Option Nat) (tlbs : List Tlb) (s : State) : Out :=
              if 8 ≤ (s.unitQueue ch.toNat).length then .next (s.stall 7)
              else
                let j : EtchJob := { core := s.cur, round := round, chan := ch.toNat, ops := r.ops, types := r.types,
                                     consts := r.consts, bases := r.bases, pieces := x.pieces, first := f, count := n, dest := dest,
                                     tlbs := (x.tlbs ++ tlbs).eraseDups }
                .next ((s.handJob ch.toNat j).wordDone 2)
            if r.dest = 0 then hand none [] s
            else
              withPages ch.toNat { write := true } false [(r.dest + BitVec.ofNat 64 (64 * ch.toNat), 64)] s fun ps s =>
                hand (ps.head?.map Piece.pa) (piecesTlbs ps) s) [0, 1, 2, 3] {} s

/-- ROUNDO. -/
def execRoundo (id : BitVec 4) (s : State) : Out :=
  if s.core.rounds.getD id.toNat .closed ≠ .closed then .next (s.engFault .illegalInstruction 0)
  else .next (State.wordDone { s with
    core.rounds := s.core.rounds.setIfInBounds id.toNat .opened, core.roundOrder := s.core.roundOrder ++ [id.toNat] } 2)

/-- ROUNDC: the close is broadcast, and the word executes until every involved unit has acknowledged, through a freeze too (R428); a unit with
no ETCH of the round acknowledges at once. -/
def execRoundc (id : BitVec 4) (s : State) : Out :=
  match s.core.rounds.getD id.toNat .closed with
  | .closed => .next (s.wordDone 2)
  | .closing _ => .next s
  | .opened =>
    let owed := (s.core.etched.filter fun x => x.1 = id.toNat).map fun x => x.2.1
    let s := { s with core.roundOrder := s.core.roundOrder.filter (· ≠ id.toNat) }
    if owed.isEmpty then .next (State.wordDone { s with core.rounds := s.core.rounds.setIfInBounds id.toNat .closed } 2)
    else .next (State.upd { s with core.rounds := s.core.rounds.setIfInBounds id.toNat (.closing owed) } fun e => { e with exec := true })

/-! ## The unit runs (R422-R426) -/

/-- Element `i` of stream `k`: its virtual address. -/
def EtchJob.addr (j : EtchJob) (k i : Nat) : Nat := ((j.bases.getD k 0) + BitVec.ofNat 64 (i * (streamTy j.types k).size)).toNat

/-- The physical address of element `i` of stream `k`. -/
def EtchJob.phys (j : EtchJob) (k i : Nat) : Nat :=
  let a := j.addr k i
  match (j.pieces.getD k []).find? fun p => p.1 ≤ a && a < p.1 + p.2.2 with
  | some p => p.2.1 + (a - p.1)
  | none => 0

/-- The stream that holds the home byte of an element: OUT, or A where OUT is not declared. -/
def EtchJob.homeStream (j : EtchJob) : Nat := if 128 ≤ j.types.getD 3 0 then 3 else 0

/-- The translation through which the unit reaches an address (R425): one that the ETCH took. -/
def EtchJob.tlbAt (j : EtchJob) (pa : Nat) : Tlb :=
  (j.tlbs.find? fun t => t.frame ≤ pa && pa < t.frame + t.size).getD
    { ctx := 0, base := 0, size := 0, frame := 0, r := true, w := true, x := false, usr := true, nc := false, xsh := false, d := true,
      priv := false, entry := 0 }

/-- An operand that is not aligned moves its 64-byte unit once per ETCH (R424). -/
def etchMove (j : EtchJob) (pa : Nat) (s : State) : EtchJob × State :=
  if s.channelOf pa = j.chan || j.moved.contains (sectorOf pa) then (j, s)
  else
    let c := s.coreAt j.core
    ({ j with moved := sectorOf pa :: j.moved }, s.setCoreAt j.core { c with counts.shuf := sat32 c.counts.shuf 1 })

/-- A sector is written poisoned. -/
def State.poison (s : State) (k : Nat) : State := { s with store := s.store.setMark k (some false) }

/-- A push of element `i` of stream `k` (R423, R425, R429): a private page is reclassified first (R319), and a bad input poisons what the
element's OUT has written already. -/
def etchPush (j : EtchJob) (k i : Nat) (s : State) : EtchJob × State :=
  let t := streamTy j.types k
  let pa := j.phys k i
  let (j, s) := etchMove j pa ((s.shareFrames pa t.size).wakeHome pa)
  let bad := (s.marked [] (j.tlbAt pa) pa t.size).isSome
  let v := Ty.convert .f32 {} (t.value (leNat (s.store.readHome pa t.size)))
  ({ j with stack := (v, bad) :: j.stack, hit := j.hit || bad, errs := if bad && !j.hit then j.errs + 1 else j.errs },
    match j.outAt with | some k => if bad then s.poison k else s | none => s)

/-- OUT: the element is written at home; one with a poisoned result leaves its sector poisoned. -/
def etchOut (j : EtchJob) (i : Nat) (v : Nat × Bool) (s : State) : EtchJob × State :=
  let t := streamTy j.types 3
  let pa := j.phys 3 i
  let (j, s) := etchMove j pa (s.shareFrames pa t.size)
  let s := s.storeAcc [] .home (j.tlbAt pa) pa (leBytes t.size (t.convert {} (Ty.value .f32 v.1)))
  ({ j with outAt := some (sectorOf pa) }, if v.2 || j.hit then s.poison (sectorOf pa) else s)

/-- A value of F32, rounded. -/
def f32 (v : FVal) : Nat := Ty.convert .f32 {} v

/-- The value that F32 bits hold. -/
def val32 (b : Nat) : FVal := Ty.value .f32 b

/-- An operator over the stack alone, top first (R423). -/
def etchStack (code : Nat) (st : List (Nat × Bool)) : List (Nat × Bool) :=
  let two (f : FVal → FVal → Nat) : List (Nat × Bool) :=
    match st with
    | t :: s :: r => (f (val32 s.1) (val32 t.1), s.2 || t.2) :: r
    | _ => st
  let one (f : FVal → Nat) : List (Nat × Bool) :=
    match st with
    | t :: r => (f (val32 t.1), t.2) :: r
    | _ => st
  match code with
  | 0x10 => two fun s t => f32 (fAdd 0 s t)
  | 0x11 => two fun s t => f32 (fAdd 0 s (fNeg t))
  | 0x12 => two fun s t => f32 (fMul s t)
  | 0x13 =>
    match st with
    | t :: s :: u :: r => (f32 (fAdd 0 (fMul (val32 u.1) (val32 s.1)) (val32 t.1)), t.2 || s.2 || u.2) :: r
    | _ => st
  | 0x14 => two fun s t => f32 (fPick false s t)
  | 0x15 => two fun s t => f32 (fPick true s t)
  | 0x16 => two fun s t => if !s.isNan && !t.isNan && 0 < fCompare s t then 0x3F800000 else 0
  | 0x17 =>
    match st with
    | t :: s :: u :: r =>
      let take := match val32 u.1 with | .nan => false | .fin _ m _ => m ≠ 0 | .inf _ => true
      (if take then s.1 else t.1, t.2 || s.2 || u.2) :: r
    | _ => st
  | 0x18 => one fun t => f32 (t.withSign false)
  | 0x19 => one fun t => f32 (fNeg t)
  | 0x1A =>
    match st with
    | t :: r => (Fn1.apply .sqrt .f32 {} t.1, t.2) :: r
    | _ => st
  | 0x20 => match st with | t :: r => t :: t :: r | _ => st
  | 0x21 => match st with | t :: s :: r => s :: t :: r | _ => st
  | 0x22 => st.drop 1
  | 0x40 => two fun s t =>
      match t with
      | .fin _ _ _ => f32 (fScale (satInt (roundInt 0 t) (-300) 300) s)
      | _ => f32 .nan
  | _ =>
    -- CVT
    match Ty.ofCode (code % 16) with
    | some ty => one fun t => f32 (ty.value (ty.convert {} t))
    | none => st

/-- One operator of an element (R423). -/
def etchOp (j : EtchJob) (code i : Nat) (s : State) : EtchJob × State :=
  if 1 ≤ code && code ≤ 3 then etchPush j (code - 1) i s
  else if 0x08 ≤ code && code ≤ 0x0F then ({ j with stack := (j.consts.getD (code % 8) 0, false) :: j.stack }, s)
  else if 0x50 ≤ code && code ≤ 0x5F then
    match j.stack with
    | t :: r =>
      let a := j.accs.getD (code % 16) (0, false)
      ({ j with stack := r, accs := j.accs.set (code % 16) (f32 (fAdd 0 (val32 a.1) (val32 t.1)), a.2 || t.2) }, s)
    | [] => (j, s)
  else if 0x60 ≤ code && code ≤ 0x6F then ({ j with stack := j.accs.getD (code % 16) (0, false) :: j.stack }, s)
  else if code = 0x70 then
    match j.stack with
    | t :: r => etchOut { j with stack := r } i t s
    | [] => (j, s)
  else ({ j with stack := etchStack code j.stack }, s)

/-- The job goes on by a number of operators at most; an element whose home byte lies on another channel is skipped. -/
def etchRun : Nat → EtchJob → State → EtchJob × State
  | 0, j, s => (j, s)
  | fuel + 1, j, s =>
    if j.count ≤ j.elem then (j, s)
    else
      let i := j.first + j.elem
      let next (j : EtchJob) : EtchJob := { j with elem := j.elem + 1, mpc := 0, stack := [], hit := false, outAt := none }
      if j.mpc = 0 && s.channelOf (j.phys j.homeStream i) ≠ j.chan then etchRun fuel (next j) s
      else match j.ops[j.mpc]? with
        | none => etchRun fuel (next { j with ran := true }) s
        | some code =>
          let (j, s) := etchOp { j with ran := true } code i s
          etchRun fuel { j with mpc := j.mpc + 1 } s

/-- The accumulators are written at their destination when the last element has run (R422); an ETCH of whose range no element has its home byte
on the channel changes nothing. A poisoned one poisons it. -/
def etchAccs (j : EtchJob) (s : State) : State :=
  match j.dest.filter fun _ => j.ran with
  | none => s
  | some pa =>
    let s := (s.shareFrames pa 64).storeAcc [] .home (j.tlbAt pa) pa (j.accs.flatMap fun a => leBytes 4 a.1)
    if j.accs.any (·.2) then s.poison (sectorOf pa) else s

/-- ETCH_UNIT_RUN: the unit of a channel runs the oldest ETCH of its queue to its end. -/
def execEtchUnitRun (chan : BitVec 9) (s : State) : Out :=
  match s.unitQueue chan.toNat with
  | [] => .next s
  | j :: rest =>
    let (j, s) := etchRun (25 * (j.count - j.elem) + 25) j s
    let s := etchAccs j s
    let c := s.coreAt j.core
    let note (x : Nat × Nat × Nat) : Nat × Nat × Nat := if x.1 = j.round && x.2.1 = j.chan then (x.1, x.2.1, x.2.2 + j.errs) else x
    .next ({ s with etch := smSet s.etch chan.toNat rest }.setCoreAt j.core { c with etched := c.etched.map note })

/-- ETCH_YIELD: after some operators the unit stops at a row boundary, keeps where it stands, and serves the waiting accesses. -/
def execEtchYield (chan : BitVec 9) (ops : Nat) (s : State) : Out :=
  match s.unitQueue chan.toNat with
  | [] => .next s
  | j :: rest =>
    let (j, s) := etchRun ops j s
    .next { s with etch := smSet s.etch chan.toNat (j :: rest) }

/-- A unit has finished every ETCH of a core's round that it has taken. -/
def State.unitFinished (s : State) (core round ch : Nat) : Bool :=
  (s.unitQueue ch).all fun j => !(j.core = core && j.round = round)

/-- ROUND_ACK: a unit acknowledges the close of a round of the core in focus; the last acknowledgement closes it. -/
def execRoundAck (round : BitVec 4) (chan : BitVec 9) (s : State) : Out :=
  let id := round.toNat
  match s.core.rounds.getD id .closed with
  | .closing owed =>
    if owed.contains chan.toNat && s.unitFinished s.cur id chan.toNat then
      let mine (x : Nat × Nat × Nat) : Bool := x.1 = id && x.2.1 = chan.toNat
      let errs := ((s.core.etched.filter mine).map fun x => x.2.2).sum
      let left := owed.filter (· ≠ chan.toNat)
      .next { s with
        core.etched := s.core.etched.filter fun x => !mine x
        core.counts.etcherr := sat32 s.core.counts.etcherr errs
        core.rounds := s.core.rounds.setIfInBounds id (if left.isEmpty then .closed else .closing left) }
    else .next s
  | _ => .next s

end Sys2Proof.Machine
end

