-- ==== Sys2Proof/Machine/Line.lean ====
section
/-! DEFINITION. The events of the coherence protocol (R303-R316, R330): a request sets out and is served, a message on its way is delivered, a
holder replaces a copy. What a message does where it arrives stands in Coherence.lean. -/

namespace Sys2Proof.Machine

/-- The holder that a message reaches, or whose copy its delivery may bring. -/
def CohMsg.holder : CohMsg → Holder
  | .req r _ => r.child
  | .inv h _ _ _ _ _ | .invack h _ | .ackPut h _ | .fwd h _ _ _ _ | .grant h _ _ | .reply h _ | .putm h _ => h

/-- A message of a kind is delivered: the first on its way that can be served where it arrives. The copies that it brings meet their room
(R18). -/
def State.deliverFirst (s : State) (p : CohMsg → Bool) : State :=
  match s.store.coh.msgs.find? fun m => p m && s.deliverable m with
  | some m => (s.deliver m).spillAt m.holder
  | none => s

/-! ## Requests (R308) -/

/-- The cores whose TLBs stand behind a holder's accesses. -/
def holderCores : Holder → List Nat
  | .dcache c | .icache c | .loopBuf c _ => [c]
  | .plates q | .cluster q => (List.range 4).map (4 * q + ·)
  | .l2 d => (List.range 64).map (64 * d + ·)

/-- The translation through which a holder reaches a sector for a context: of a quad that it serves, or of one of its cores. -/
def State.holderTlb (s : State) (h : Holder) (k : Nat) (ctx : BitVec 6) : Option Tlb :=
  let hit (t : Tlb) : Bool := t.ctx = ctx && t.frame ≤ 64 * k && 64 * k < t.frame + t.size
  ((holderCores h).map (· / 4)).eraseDups.findSome? (fun q => (s.quadAt q).tlb.find? hit) <|>
    (holderCores h).findSome? fun c => (s.coreAt c).sq.tlb.find? hit

/-- A holder may miss on a sector through a translation: of a coherent page that is not private (R317, R320), for write permission outside
code frames (R327), and where it neither hits nor waits or asks already (R310). -/
def State.mayMiss (s : State) (h : Holder) (k : Nat) (m : Bool) (t : Tlb) : Bool :=
  let st := s.store.coh.stOf h k
  let asks (x : CohMsg) : Bool := match x with | .req r j => r.child = h && j = k && r.m = m | _ => false
  !t.nc && !t.priv && !s.store.coh.hits h k m && !s.store.coh.msgs.any asks &&
    (match h with
      | .cluster _ => false
      | .l2 _ => true
      | _ => st = none || (m && st = some .s)) &&
    (!m || (!readOnly h && t.w && !s.store.isCode (64 * k)))

/-- A holder misses on an access of a context with a hint: its request sets out and reaches its directory. -/
def State.miss (s : State) (h : Holder) (k : Nat) (m : Bool) (t : Tlb) (hint : BitVec 2) : State :=
  if s.mayMiss h k m t then
    let s := { s with store.coh := s.store.coh.ask h k m t.ctx t.xsh hint }
    s.deliverFirst fun x => match x with | .req r j => r.child = h && j = k && r.m = m | _ => false
  else s

/-- A fetch misses in an instruction cache or a loop buffer (R330): its GETS goes to the home, which sends the data of a published sector. -/
def State.fetchMiss (s : State) (h : Holder) (k : Nat) (t : Tlb) : State :=
  if t.x && !t.nc && s.store.isCode (64 * k) && !s.store.unpublished k && (s.markAt [h] t k).isNone &&
      !(s.store.fetch.any fun c => c.holder = h && c.sector = k) then s.keepFetch h k t
  else s

/-- GETS with its context and hint: one that is on its way is served, or a holder misses through a page of the context. -/
def execGets (h : Holder) (sector : Nat) (ctx : BitVec 6) (hint : BitVec 2) (s : State) : Out :=
  let mine (x : CohMsg) : Bool := match x with | .req r j => r.child = h && j = sector && !r.m && r.ctx = ctx && r.hint = hint | _ => false
  if s.store.coh.msgs.any mine then .next (s.deliverFirst mine)
  else match s.holderTlb h sector ctx with
    | none => .next s
    | some t =>
      match h with
      | .icache _ | .loopBuf _ _ => .next (s.fetchMiss h sector t)
      | _ => .next (s.miss h sector false t hint)

/-- GETM with its context, the window bit of its page (R314) and its hint: one that is on its way is served, or a holder misses through a
page of the context that has that bit. -/
def execGetm (h : Holder) (sector : Nat) (ctx : BitVec 6) (window : Bool) (hint : BitVec 2) (s : State) : Out :=
  let mine (x : CohMsg) : Bool := match x with
    | .req r j => r.child = h && j = sector && r.m && r.ctx = ctx && r.window = window && r.hint = hint
    | _ => false
  if s.store.coh.msgs.any mine then .next (s.deliverFirst mine)
  else match s.holderTlb h sector ctx with
    | none => .next s
    | some t => .next (if t.xsh = window then s.miss h sector true t hint else s)

/-! ## Messages on their way -/

/-- INV reaches a child. -/
def execInv (h : Holder) (sector : Nat) (s : State) : Out :=
  .next (s.deliverFirst fun x => match x with | .inv d k _ _ _ _ => d = h && k = sector | _ => false)

/-- FWD.S reaches an owner. -/
def execFwdS (h : Holder) (sector : Nat) (s : State) : Out :=
  .next (s.deliverFirst fun x => match x with | .fwd d k m _ _ => d = h && k = sector && !m | _ => false)

/-- FWD.M reaches an owner. -/
def execFwdM (h : Holder) (sector : Nat) (s : State) : Out :=
  .next (s.deliverFirst fun x => match x with | .fwd d k m _ _ => d = h && k = sector && m | _ => false)

/-- INVACK: upward a directory counts it; downward it acknowledges a PUTM. -/
def execInvack (h : Holder) (sector : Nat) (up : Bool) (s : State) : Out :=
  .next (s.deliverFirst fun x => match x with
    | .invack d k => up && d = h && k = sector
    | .ackPut d k => !up && d = h && k = sector
    | _ => false)

/-- PUTM reaches a directory. -/
def execPutm (h : Holder) (sector : Nat) (s : State) : Out :=
  .next (s.deliverFirst fun x => match x with | .putm d k => d = h && k = sector | _ => false)

/-- A transfer between a die's L2 and the home of a sector crosses a die boundary. -/
def State.crosses (s : State) (h : Holder) (k : Nat) : Bool :=
  match h with
  | .l2 d => d ≠ s.homeDie (64 * k)
  | _ => false

/-- A sector is marked at home, if it is not (R473). -/
def State.markHome (s : State) (k : Nat) (ecc : Bool) : State :=
  if (s.store.markOf k).isNone then { s with store := s.store.setMark k (some ecc) } else s

/-- DATA: downward a grant reaches a requester; upward an owner's data reaches its directory. A transfer that crosses a die boundary and
arrives uncorrectable is delivered poisoned (R431): upward the home is marked; downward what the die reads of the sector is poisoned until
a transfer of it arrives whole. A sector that its stack cannot correct is marked at home (R473; assumption log 60). -/
def execData (h : Holder) (sector : Nat) (flit : DataFlit) (s : State) : Out :=
  let mine (x : CohMsg) : Bool := match x with
    | .reply d k => flit.up && d = h && k = sector
    | .grant d k _ => !flit.up && d = h && k = sector
    | _ => false
  let s := if flit.ecc then s.markHome sector true else s
  let s' := s.deliverFirst mine
  .next (if !s.crosses h sector then s'
    else if flit.up then (if flit.poisoned && s.store.coh.msgs.any fun m => mine m && s.deliverable m then s'.markHome sector false else s')
    else { s' with store.badAt :=
      let l := s'.store.badAt.filter fun x => x ≠ (holderDie h, sector)
      if flit.poisoned then (holderDie h, sector) :: l else l })

/-! ## Replacement (R315, R320, R329) -/

/-- REPLACEMENT: a copy of a non-coherent page is written to home where dirty, a fetch copy is dropped, a clean copy goes silently and a
dirty one with PUTM; an L2 first recalls the copies of its quads. -/
def execReplacement (h : Holder) (sector : Nat) (s : State) : Out :=
  let s := s.ncFlush [h] sector
  let s := { s with store.fetch := s.store.fetch.filter fun c => !(c.holder = h && c.sector = sector) }
  match h with
  | .cluster _ => .next s
  | .l2 d =>
    if !s.store.coh.lineStable d (sector / 4) then .next s
    else if (s.store.coh.dirEnt (.die d) sector).children.isEmpty then
      .next { s with store.coh := (s.store.coh.recallPrivate d sector).replace h sector }
    else .next (s.evictLine d (sector / 4))
  | _ => .next { s with store.coh := s.store.coh.replace h sector }

end Sys2Proof.Machine
end

