-- ==== Sys2Proof/Machine/Registers.lean ====
section
/-! DEFINITION. The system registers as RDSYS reads them: which privilege may reach which (R105, R106 and the chapters' tables), and
the words they read as. -/

namespace Sys2Proof.Machine

/-! ## Who may reach a register -/

/-- What a privilege may do with a register. -/
inductive Reach where
  | none | read | write
  deriving DecidableEq, Repr

/-- What U, S and M may do. -/
structure Access where
  u : Reach
  s : Reach
  m : Reach
  deriving DecidableEq, Repr

/-- Readable at every privilege, written at none. -/
def roAll : Access := ⟨.read, .read, .read⟩

/-- Written at every privilege. -/
def rwAll : Access := ⟨.write, .write, .write⟩

/-- Readable at every privilege, written at S and M. -/
def rwS : Access := ⟨.read, .write, .write⟩

/-- Readable at every privilege, written at M. -/
def rwM : Access := ⟨.read, .read, .write⟩

/-- Hidden from U, written at S and M. -/
def hidS : Access := ⟨.none, .write, .write⟩

/-- Hidden from U, read only. -/
def hidRo : Access := ⟨.none, .read, .read⟩

/-- Hidden from U and S. -/
def hidM : Access := ⟨.none, .none, .write⟩

/-- Hidden from U and S, read only. -/
def hidMRo : Access := ⟨.none, .none, .read⟩

/-- The scalar sequencer's registers (R105). -/
def accScalar (n : Nat) : Option Access :=
  if n = 0x000 || n = 0x00B then some rwS
  else if n ≤ 0x005 then some hidS
  else if n = 0x009 || n = 0x00A then some rwM
  else if n ≤ 0x008 || n = 0x00C then some roAll
  else if n = 0x00D || (0x010 ≤ n && n ≤ 0x01F) then some rwAll
  else none

/-- The queue's registers (R187). -/
def accQueue (n : Nat) : Option Access :=
  if n ≤ 0x053 then some (if n % 4 = 0 then rwS else roAll) else if n ≤ 0x060 then some roAll else none

/-- The plate registers (R249). -/
def accPlate (n : Nat) : Option Access :=
  if n = 0x080 || n = 0x084 || n = 0x085 then some rwS
  else if n ≤ 0x083 then some roAll
  else if 0x090 ≤ n && n ≤ 0x09F then some hidS
  else none

/-- The tint registers (R280). -/
def accTint (n : Nat) : Option Access :=
  if n = 0x0C2 then some rwAll else if n ≤ 0x0C8 then some roAll else none

/-- The registers of the page and the line (R357, R323). -/
def accPage (n : Nat) : Option Access :=
  if n = 0x100 then some ⟨.none, .read, .write⟩
  else if n = 0x101 || n = 0x103 then some rwS
  else if n = 0x102 || (0x13C ≤ n && n ≤ 0x13E) then some hidRo
  else none

/-- The registers of the context (R374). -/
def accContext (n : Nat) : Option Access :=
  if n ≤ 0x142 then some roAll else if n = 0x143 then some hidRo
  else if 0x148 ≤ n && n ≤ 0x14A then some hidM else none

/-- The registers of the group, the barrier, routing, the rounds and the link (R389, R402, R417, R206, R430, R444). -/
def accGroup (n : Nat) : Option Access :=
  if n = 0x180 || n = 0x183 || n = 0x192 then some rwM
  else if n = 0x181 || n = 0x182 || n = 0x191 || n = 0x1C0 || n = 0x1C8 then some roAll
  else if n = 0x190 then some rwAll
  else if n = 0x1C1 || n = 0x1C2 || n = 0x1C3 || n = 0x1C9 || n = 0x1CA then some rwS
  else if (0x1D0 ≤ n && n ≤ 0x1D7) || (0x1E0 ≤ n && n ≤ 0x1EF) then some roAll
  else none

/-- The manager's registers, at M (R469). -/
def accManager (n : Nat) : Option Access :=
  if n = 0x200 then some hidMRo
  else if n ≤ 0x20C || (0x210 ≤ n && n ≤ 0x215) then some hidM
  else none

/-- Who may reach register `n`; none where it is unassigned (R105, R106). -/
def regAccess (n : Nat) : Option Access :=
  if n < 0x040 then accScalar n
  else if n < 0x080 then accQueue n
  else if n < 0x0C0 then accPlate n
  else if n < 0x100 then accTint n
  else if n < 0x140 then accPage n
  else if n < 0x180 then accContext n
  else if n < 0x200 then accGroup n
  else if n < 0x300 then accManager n
  else none

/-- What a privilege may do. -/
def Access.at (a : Access) (priv : BitVec 2) : Reach := if priv = 0 then a.u else if priv = 1 then a.s else a.m

/-- Some privilege may write the register. -/
def Access.writable (a : Access) : Bool := a.u = .write || a.s = .write || a.m = .write

/-! ## The words they read as -/

/-- STATUS (R98). -/
def Status.word (t : Status) : Word :=
  fields [(0, t.priv.toNat), (2, t.ppriv.toNat), (4, bit1 t.ie), (5, bit1 t.pie), (6, bit1 t.intrap)]

/-- CAPS (R124). -/
def State.caps (s : State) : Word :=
  fields [(0, bit1 (!s.big)), (4, bit1 s.big), (8, 1), (16, if s.big then 16 else 12), (32, if s.big then 0xFFFF else 0x00FF)]

/-- CORE (R29). A manager core reads its own number below 4 (assumption log 9). -/
def State.coreWord (s : State) : Word := fields [(0, s.cur % 256), (32, s.mgmt.device.toNat)]

/-- A word of a view register (R129). -/
def State.viewWord (s : State) (k : Nat) : Word := bits (s.core.view (BitVec.ofNat 3 (k / 2))).toNat (64 * (k % 2)) 64

/-- The scalar sequencer's registers. -/
def State.readScalar (s : State) (n : Nat) : Word :=
  let q := s.core.sq
  match n with
  | 0x000 => q.trap.status.word
  | 0x001 => q.trap.epc
  | 0x002 => q.trap.cause
  | 0x003 => q.trap.badaddr
  | 0x004 => q.trap.tvec
  | 0x005 => q.trap.scratch
  | 0x006 => s.coreWord
  | 0x007 => s.caps
  | 0x008 => s.time
  | 0x009 => zext64 q.ctxid
  | 0x00A => zext64 q.maxscope
  | 0x00B => zext64 q.demote
  | 0x00C => s.specst
  | 0x00D => zext64 q.vmode
  | _ => s.viewWord (n - 0x010)

/-- EFINFO (R189). -/
def Eng.efinfo (g : Eng) : Word := fields [(0, g.efCode.toNat), (8, bit1 g.efV), (32, g.efElem.toNat)]

/-- TOKCNT of unit `p` (R190). -/
def Core.tokcnt (c : Core) (p : Nat) : Word :=
  fields ((List.range 6).map fun k => (4 * k, if k = p then 0 else (c.tokq p k).present))

/-- OUTCNT of unit `p` (R190). -/
def Core.outcnt (c : Core) (p : Nat) : Word :=
  fields ((List.range 6).map fun k => (8 * k, if k = p then 0 else (c.outcome p k).length))

/-- DQSTAT (R190). -/
def Core.dqstat (c : Core) : Word :=
  fields ((c.dq.toList ++ c.sqq.toList).zipIdx.map fun q => (4 * q.2, q.1.length))

/-- The queue's registers. -/
def State.readQueue (s : State) (n : Nat) : Word :=
  if 0x060 ≤ n then s.core.dqstat
  else if 0x05A ≤ n then s.core.outcnt (n - 0x05A)
  else if 0x054 ≤ n then s.core.tokcnt (n - 0x054)
  else match Engine.ofId ((n - 0x040) / 4 + 1) with
    | none => 0
    | some e =>
      match n % 4 with
      | 0 => s.estate e
      | 1 => (s.eng e).efinfo
      | 2 => (s.eng e).efAddr
      | _ => (s.eng e).efBlk

/-- LEASE (R252). -/
def State.leaseReg (s : State) : Word :=
  let l := (s.quadAt s.quadNo).lease
  let cyc := if l.holder = 7 then 0 else min (s.time.toNat - l.start.toNat) 4095
  fields [(0, l.holder), (3, l.words), (8, cyc), (32, l.grants.toNat)]

/-- PLSPARE of eight plates from `k` on (R251). -/
def Quad.plspare (q : Quad) (k : Nat) : Word :=
  fields ((List.range 8).map fun j => (6 * j, (q.spare.getD (k + j) 0).toNat))

/-- AGE of a plate: its rank by last use among the valid enabled plates, 0 the most recent (R254). -/
def Quad.age (q : Quad) (p : Plate) : Nat :=
  if p.valid then
    (q.plate.toList.zipIdx.filter fun x => x.1.valid && q.plmask.getLsbD x.2 && p.used < x.1.used).length
  else 0

/-- PLTAG (R254). -/
def Quad.pltag (q : Quad) (k : Nat) : Word :=
  let p := q.plate.getD k {}
  fields [(0, bit1 p.valid), (1, bit1 p.pin), (2, bit1 p.stale), (3, bit1 p.filling), (4, q.age p), (8, p.fmt.toNat),
    (12, bit1 p.scl), (14, seg p.addr 14 34)]

/-- The plate registers. -/
def State.readPlate (s : State) (n : Nat) : Word :=
  let q := s.quadAt s.quadNo
  match n with
  | 0x080 => fields [(0, q.plmask.toNat), (16, q.avail.toNat)]
  | 0x081 => q.plspare 0
  | 0x082 => q.plspare 8
  | 0x083 => s.leaseReg
  | 0x084 => zext64 q.hit
  | 0x085 => zext64 q.miss
  | _ => q.pltag (n - 0x090)

/-- The tint registers (R281, R282). -/
def State.readTint (s : State) (n : Nat) : Word :=
  let c := s.core.counts
  let r := s.core.regs
  let g := r.groupAt c.tintSelGroup.toNat
  match n with
  | 0x0C0 => fields [(0, r.free.length), (16, r.free.headD 0), (32, c.tintAllocs.toNat)]
  | 0x0C1 => c.tintStamp
  | 0x0C2 => fields [(0, c.tintSelGroup.toNat), (16, c.tintSelGran.toNat)]
  | 0x0C3 =>
    let t := if c.tintSelGran.toNat < 1280 then r.tagOf c.tintSelGran.toNat else 0
    fields [(0, t.toNat), (16, bit1 (r.current t))]
  | 0x0C4 => fields [(0, g.gen.toNat), (8, g.count.toNat), (24, bit1 (r.free.contains c.tintSelGroup.toNat))]
  | _ => bits g.codes.toNat (64 * (n - 0x0C5)) 64

/-- The registers of the page and the line (R358, R323). -/
def State.readPage (s : State) (n : Nat) : Word :=
  let c := s.core.counts
  let q := s.quadAt s.quadNo
  match n with
  | 0x100 => s.ptbase
  | 0x101 => zext64 c.park
  | 0x102 => fields [(0, min (s.armed s.dieNo).length 255), (8, (s.dieAt s.dieNo).parkOvf.toNat)]
  | 0x103 => fields [(0, c.smiss.toNat), (32, c.qmiss.toNat)]
  | 0x13C => zext64 q.sfevict
  | 0x13D => zext64 q.pfdrop
  | _ => zext64 c.priv

/-- The code of a context's state (R375). -/
def CtxSt.code : CtxSt → Nat
  | .free => 0 | .configured => 1 | .running => 2 | .frozen => 3 | .scrubbing => 4

/-- The registers of the context (R375), but for the data of SNAPDATA. -/
def State.readContext (s : State) (n : Nat) : Word :=
  let c := s.ctxAt s.core.sq.ctxid.toNat
  let m := s.mgmt
  match n with
  | 0x140 => 1
  | 0x141 => fields [(0, s.core.sq.ctxid.toNat), (8, bit1 c.secure), (9, c.st.code)]
  | 0x142 => c.quads
  | 0x143 => BitVec.ofNat 64 ((List.range 64).foldl (fun a f => if c.fns.contains f then a + 2 ^ f else a) 0)
  | 0x148 => fields [(0, m.frzCore.toNat), (30, bit1 (s.coreAt m.frzCore.toNat).frozen), (31, bit1 m.frzErr)]
  | 0x149 => fields [(0, m.snapOff.toNat), (32, m.snapPart.toNat), (40, m.snapCore.toNat)]
  | _ => 0

/-- BARSTATE (R402): the barrier that BARSEL selects, of the group of the core in focus. An id that no network of the scope has reads as an idle
barrier, but for those above 7 at .pod (assumption log 85). -/
def State.barstate (s : State) : Word :=
  let scope := s.core.counts.barScope.toNat
  let id := s.core.counts.barId.toNat
  match s.groupOf s.cur with
  | none => 0
  | some g =>
    if scope = 5 && 8 ≤ id then 0
    else
      let rank := s.cur - g.first
      let b := smGet g.barriers (barKey scope rank id) {}
      fields [(0, b.arrived.length), (9, (s.members g scope rank).length), (29, bit1 (!b.arrived.isEmpty)), (30, bit1 b.abort),
        (31, bit1 (b.arrived.contains rank)), (32, (smGet b.pendgen rank 0).toNat), (48, b.gen.toNat)]

/-- The code of a port's state (R444). -/
def PortSt.code : PortSt → Nat
  | .down => 0 | .train => 1 | .up => 2 | .degraded => 3 | .absent => 4 | .retired => 4

/-- A port is fitted (R3, R124): all sixteen, or ports 0 to 7 on a DZ-4060. -/
def State.fitted (s : State) (k : Nat) : Bool := k < (if s.big then 16 else 8)

/-- LINKSTAT of a port (R444). -/
def State.linkstat (s : State) (k : Nat) : Word :=
  if s.fitted k then
    let p := s.port k
    fields [(0, p.st.code), (4, if p.carries then (if p.st = .up then 4 else 2) else 0), (16, p.feccorr.toNat), (32, p.peer.toNat),
      (48, p.replay.toNat)]
  else 4

/-- ROUNDSTAT (R430). -/
def Core.roundstat (c : Core) : Word :=
  let opened := c.rounds.toList.zipIdx.map fun r => (r.2, bit1 (r.1 ≠ .closed))
  fields (opened ++ [(16, c.currentRound.getD 0), (20, bit1 c.currentRound.isSome)])

/-- The registers of the group, the barrier, routing, the rounds and the link. -/
def State.readGroup (s : State) (n : Nat) : Word :=
  let c := s.core.counts
  if 0x1E0 ≤ n then s.linkstat (n - 0x1E0)
  else if 0x1D0 ≤ n then s.mgmt.chlive.getD (n - 0x1D0) 0
  else match n with
    | 0x180 => s.mgmt.chmap
    | 0x181 => c.groupinfo
    | 0x182 => fields [(0, s.pqHeld s.dieNo), (32, c.popempty.toNat)]
    | 0x183 => zext64 (s.ctxAt s.core.sq.ctxid.toNat).quota
    | 0x190 => fields [(0, c.barId.toNat), (8, c.barScope.toNat)]
    | 0x191 => s.barstate
    | 0x192 => zext64 s.mgmt.barpod
    | 0x1C0 => fields [(0, s.core.refusals.length), (8, s.core.sends.length), (16, s.core.hosting.length)]
    | 0x1C1 => fields [(0, c.full.toNat), (32, c.nh.toNat)]
    | 0x1C2 => zext64 c.histoor
    | 0x1C3 => zext64 c.poison
    | 0x1C8 => s.core.roundstat
    | 0x1C9 => zext64 c.shuf
    | 0x1CA => zext64 c.etcherr
    | _ => 0

/-- BOOTCAUSE (R463). -/
def State.bootcause (s : State) : Word :=
  let m := s.mgmt
  fields [(0, bit1 m.startOk), (1, bit1 m.minimal), (16, m.resetSrc.toNat), (24, m.lastErr.toNat), (40, min m.failedStarts 255)]

/-- The PWRCTL field of a quad: 1 in P1, 2 in P2 (R469). -/
def Power.code : Power → Nat
  | .p0 => 0 | .p1 => 1 | .p2 => 2

/-- The PWRCTL word of 32 quads from `k` on. -/
def State.pwrctl (s : State) (k : Nat) : Word :=
  fields ((List.range 32).map fun j => (2 * j, (s.quadAt (k + j)).power.code))

/-- FNPOLICY of a function (R471). -/
def Fn.policy (f : Fn) : Word :=
  fields [(0, f.maxscope.toNat), (4, bit1 f.supr), (9, f.shbase.toNat), (17, f.share.toNat)]

/-- The manager's registers. LINKCTL holds commands only and reads 0. -/
def State.readManager (s : State) (n : Nat) : Word :=
  let m := s.mgmt
  let t := s.core.sq.mtrap
  match n with
  | 0x200 => s.bootcause
  | 0x201 => fields [(8, m.ctxSel.toNat), (62, bit1 m.ctxRefused), (63, bit1 (m.ctxBusy ≠ 0))]
  | 0x202 => m.worldq
  | 0x203 => m.worldr
  | 0x204 => m.worldu
  | 0x205 => m.debugst
  | 0x206 => s.pwrctl 0
  | 0x207 => s.pwrctl 32
  | 0x208 => fields ((List.range 4).map fun d => (d, bit1 (s.dieAt d).asleep))
  | 0x20A => m.mevent
  | 0x20B => zext64 m.fnsel
  | 0x20C => (s.fnAt m.fnsel.toNat).policy
  | 0x210 => { t.status with priv := 3 }.word
  | 0x211 => t.epc
  | 0x212 => t.cause
  | 0x213 => t.badaddr
  | 0x214 => t.tvec
  | 0x215 => t.scratch
  | _ => 0

/-- What register `n` reads as, but for the data of SNAPDATA. -/
def State.sysRead (s : State) (n : Nat) : Word :=
  if n < 0x040 then s.readScalar n
  else if n < 0x080 then s.readQueue n
  else if n < 0x0C0 then s.readPlate n
  else if n < 0x100 then s.readTint n
  else if n < 0x140 then s.readPage n
  else if n < 0x180 then s.readContext n
  else if n < 0x200 then s.readGroup n
  else s.readManager n

end Sys2Proof.Machine
end

