-- ==== Sys2Proof/Machine/Snapshot.lean ====
section
/-! DEFINITION. The snapshot of a frozen core: its three parts as bytes (R366-R369, R418, R430), and the core that three parts
give (R372, R278, R279). -/

namespace Sys2Proof.Machine

/-! ## Bytes of a part -/

/-- A number made of fields, each at a byte offset. -/
def atBytes (fs : List (Nat × Nat)) : Nat := fs.foldl (fun a f => a + f.2 * 256 ^ f.1) 0

/-- Values of `size` bytes each, one after another. -/
def packed (size : Nat) (vs : List Nat) : Nat := atBytes (vs.zipIdx.map fun v => (size * v.2, v.1))

/-- A range of a part that R366 to R369 list: its offset, its length and the number that its bytes hold. -/
structure Area where
  off : Nat
  len : Nat
  val : Nat

/-- The lengths of the parts (R366). -/
def partLen : Nat → Nat
  | 0 => 0x2E000
  | 1 => 0x140A40
  | 2 => 0x4A80
  | _ => 0

/-- The header of a part (R366): the core number at the freeze is the stamp's. -/
def snapHeader (part : Nat) (ctx : Nat) (stamp : Word) : Nat :=
  atBytes [(0, 1), (2, part), (3, stamp.toNat / 2 ^ 56), (4, ctx), (8, stamp.toNat), (16, partLen part)]

/-! ## Part 0: control (R367) -/

/-- The bits of a dword of a view that a write can set: the others are reserved (R9, R129). -/
def viewMask (k : Nat) : Word := if k % 2 = 0 then 0x03FF03FF03FFFF1F#64 else 0x00000000000003FF#64

/-- The system registers 0x000 to 0x00F as part 0 holds them. -/
def State.sysArea (s : State) : Nat :=
  packed 8 ((List.range 16).map fun n => if n ≤ 0x00D then (s.readScalar n).toNat else 0)

/-- A held store (R367): address, data, size, class, with the hint in the class's upper bits. -/
def Held.bytes (h : Held) : Nat :=
  packed 8 [(h.tlb.base + (h.pa - h.tlb.frame)) % 2 ^ 64, h.data.toNat, h.size, h.cls.toNat + 16 * h.hint.toNat]

/-- The code of a mask width (R367). -/
def widthCode (w : Nat) : Nat := if w = 256 then 0 else if w = 512 then 1 else 2

/-- The VE's own area (R367). -/
def Core.veArea (c : Core) : Nat :=
  atBytes ([(0, c.vex.mode.toNat), (1, c.vex.amask.toNat), (16, bit1 c.vex.latValid), (24, c.vex.cycle), (32, c.vex.pend.length)] ++
    c.regs.mask.toList.zipIdx.map fun m => (8 + m.2, widthCode m.1.width))

/-- The place of a reserved slot in a queue. -/
def slotIndex (q : List DSlot) (tag : Nat) : Nat := q.findIdx fun x => x = .reserved tag

/-- A destination of a pending write as a number: a byte address of register space, an index, or a slot with its queue. -/
def Core.destWord (c : Core) : VDest → Nat
  | .gran g => 1024 * g
  | .ofile o => o.toNat
  | .mask m => m.toNat
  | .sq q tag => slotIndex (vget c.sqq q) tag + 8 * q.toNat

/-- The kind of a pending write (R368). -/
def destKind : List VDest → Nat
  | .gran _ :: _ => 0
  | .ofile _ :: _ => 1
  | .mask _ :: _ => 2
  | .sq _ _ :: _ => 3
  | [] => 0

/-- The kind of a tag change: clear, copy, bind, rewrite. -/
def VTag.kind : VTag → Nat
  | .clear => 0 | .copy _ => 1 | .bind _ _ => 2 | .rewrite _ _ => 3 | .keep => 0

/-- A pending-write record (R368). What R368 leaves no place for stands in the flags byte (element size, a write without data, the
kind of the tag change), in the second destination (the width of a mask) and at the end of the value (the codes of a binding). -/
def Core.pendRecord (c : Core) (w : VWrite) : Nat :=
  let size := if w.esz = 1 then 0 else if w.esz = 2 then 1 else if w.esz = 4 then 2 else 3
  let flags := bit1 w.latch + 2 * bit1 (w.tag ≠ .keep) + 4 * size + 16 * bit1 w.data.isEmpty + 32 * w.tag.kind
  let dests := w.dests.map c.destWord
  let dests := match w.dests with | [.mask m] => [m.toNat, w.width] | _ => dests
  let bound (next : BitVec 6) (g : Nat) : Nat := (mkTag ((c.regs.groupAt g).gen + next) g).toNat
  let (tag, group, codes) : Nat × Nat × Nat := match w.tag with
    | .copy t => (t.toNat, if tagBound t then tagGroup t else 0, 0)
    | .bind g k => (bound 0 g, g, k.toNat)
    | .rewrite g k => (bound 1 g, g, k.toNat)
    | _ => (0, 0, 0)
  atBytes [(0, destKind w.dests), (1, w.dests.length), (2, w.left), (3, flags), (4, packed 4 dests), (0x14, tag), (0x16, group),
    (0x40, packed 1024 (w.data.map (·.toNat))), (0x1020, codes), (0x1040, w.merge.toNat)]

/-- The partial word of an engine (R369). -/
def Partial.bytes (p : Partial) : Nat :=
  packed 8 [p.done.foldl (fun a k => a ||| 2 ^ k) 0, p.count, bit1 p.promised, p.gran]

/-- A slot of a command queue (R369). -/
def Slot.bytes : Slot → Nat
  | .marker => atBytes [(44, 2)]
  | .entry e =>
    atBytes [(0, e.addr.toNat), (8, packed 8 (e.args.toList.map (·.toNat))), (40, e.give.toNat), (41, e.take1.toNat),
      (42, e.take2.toNat), (43, e.take3.toNat), (44, 1)]

/-- The rounds in the CE's area (R430). -/
def Core.roundArea (c : Core) : Nat :=
  atBytes [(0, packed 1 (c.rounds.toList.map fun r => bit1 (r ≠ .closed))),
    (16, packed 1 (c.roundOrder ++ List.replicate (16 - c.roundOrder.length) 0xFF))]

/-- The routing state in the XE's area (R418). -/
def Core.routeArea (c : Core) : Nat :=
  let entry (h : Hosting) : Nat := atBytes [(0, h.expert), (1, 1), (2, h.slots), (4, h.rows), (8, h.base.toNat)]
  atBytes [(0, packed 32 (c.hosting.map entry)), (0x100, c.refusals.length), (0x108, packed 8 (c.refusals.map (·.1.toNat)))]

/-- How many pointers p0 on an engine has (R369). -/
def ptrCount : Engine → Nat
  | .ae => 16
  | .ce | .xe => 8
  | .ve | .me => 0

/-- The pointers of an engine (R369). -/
def Core.ptrArea (c : Core) (e : Engine) : Nat :=
  if e = .me then
    packed 16 (c.mex.q.toList.map fun q => atBytes [(0, q.addr.toNat), (8, q.id.toNat), (9, bit1 q.grow)])
  else packed 8 (((c.eng e).ptr.toList.take (ptrCount e)).map (·.toNat))

/-- What stands at 0x400 of an engine's area: of the AE the sectors that a split load has read (R353, R369). -/
def Core.ownArea (c : Core) (e : Engine) : Nat :=
  match e with
  | .ae => packed 1 ((((c.eng e).part.map (·.data)).getD []).take 1024 |>.map (·.toNat))
  | .ce => c.roundArea
  | .xe => c.routeArea
  | _ => 0

/-- An engine's area (R369). -/
def State.engArea (s : State) (e : Engine) : Nat :=
  let g := s.eng e
  atBytes [(0, packed 8 [(s.estate e).toNat, g.efinfo.toNat, g.efAddr.toNat, g.efBlk.toNat]),
    (0x20, (g.part.getD {}).bytes), (0x40, s.core.ptrArea e), (0x400, s.core.ownArea e),
    (0x800, packed 64 (g.q.map Slot.bytes))]

/-- A data or store queue's status: head 0, tail its length, the slots reserved, the slots whose data has come. -/
def queueStatus (q : List DSlot) : Nat :=
  let bitsOf (f : DSlot → Bool) : Nat := q.zipIdx.foldl (fun a x => if f x.1 then a + 2 ^ x.2 else a) 0
  packed 8 [0, q.length, bitsOf fun _ => true, bitsOf fun x => match x with | .full _ => true | .reserved _ => false]

/-- The slots of a queue. -/
def queueData (q : List DSlot) : Nat :=
  packed 1024 (q.map fun x => match x with | .full g => g.toNat | .reserved _ => 0)

/-- The six data and store queues of a core. -/
def Core.dsQueues (c : Core) : List (List DSlot) := c.dq.toList ++ c.sqq.toList

/-- Part 0 of the core in focus. The queues of a unit with itself, at every seventh place, read zero (R367). -/
def State.part0 (s : State) : List Area :=
  let c := s.core
  let q := c.sq
  let xs (v : Vector Word 32) : Nat := packed 8 ((v.toList.drop 1).map (·.toNat))
  [⟨0x00000, 64, snapHeader 0 q.ctxid.toNat c.stamp⟩,
   ⟨0x00040, 8, q.pc.toNat⟩,
   ⟨0x00048, 248, xs q.x⟩,
   ⟨0x00140, 128, s.sysArea⟩,
   ⟨0x001C0, 8, q.pending.toNat⟩,
   ⟨0x001C8, 40, packed 8 ((q.last.toList.drop 1).map (·.toNat))⟩,
   ⟨0x00200, 64, packed 8 [bit1 q.spec.act, q.spec.handler.toNat, q.spec.held.length, q.spec.checks.length]⟩,
   ⟨0x00240, 248, xs q.spec.chkpt⟩,
   ⟨0x00340, 2048, packed 32 (q.spec.held.map Held.bytes)⟩,
   ⟨0x00B40, 64, packed 16 (q.spec.checks.map fun k => packed 8 [k.unit.toNat, k.predicted.toNat])⟩,
   ⟨0x00B80, 128, packed 16 (c.regs.view.toList.map (·.toNat))⟩,
   ⟨0x00C00, 1024, packed 128 (c.regs.mask.toList.map (·.bits.toNat))⟩,
   ⟨0x01000, 64, c.veArea⟩,
   ⟨0x01400, 1024, c.vex.lat.toNat⟩,
   ⟨0x02000, 16384, packed 1024 (c.regs.ofile.toList.map (·.toNat))⟩,
   ⟨0x06000, 16 * 0x1100, packed 0x1100 (c.vex.pend.map c.pendRecord)⟩,
   ⟨0x17000, 5 * 0x1000, packed 0x1000 (engines.map s.engArea)⟩,
   ⟨0x1C000, 72, packed 2 (c.tok.toList.zipIdx.map fun t => if t.2 % 7 = 0 then 0 else t.1.present + 256 * t.1.reserved)⟩,
   ⟨0x1C100, 36 * 0x100, packed 0x100 (c.outq.toList.zipIdx.map fun l =>
      if l.2 % 7 = 0 then 0 else atBytes [(0, l.1.length), (0x80, packed 8 (l.1.map (·.toNat)))])⟩,
   ⟨0x20000, 384, packed 64 (c.dsQueues.map queueStatus)⟩,
   ⟨0x21000, 6 * 0x2000, packed 0x2000 (c.dsQueues.map queueData)⟩,
   ⟨0x2D000, 48, packed 4 (c.regs.ovf.toList.zip c.regs.nan.toList |>.map fun p => p.1.toNat + 2 ^ 16 * p.2.toNat)⟩]

/-! ## Parts 1 and 2, and a dword of a part -/

/-- Part 1 of the core in focus: register space (R366). -/
def State.part1 (s : State) : List Area :=
  let r := s.core.regs
  [⟨0, 64, snapHeader 1 s.core.sq.ctxid.toNat s.core.stamp⟩,
   ⟨0x40, 0x140000, atBytes (r.gran.map fun g => (1024 * g.1, g.2.toNat))⟩,
   ⟨0x140040, 0xA00, atBytes (r.tag.map fun t => (2 * t.1, t.2.toNat))⟩]

/-- Part 2 of the core in focus: the tint state (R366). -/
def State.part2 (s : State) : List Area :=
  let r := s.core.regs
  [⟨0, 64, snapHeader 2 s.core.sq.ctxid.toNat s.core.stamp⟩,
   ⟨0x40, 0x4000, atBytes (r.group.map fun g => (32 * g.1, g.2.codes.toNat))⟩,
   ⟨0x4040, 0x200, atBytes (r.group.map fun g => (g.1, g.2.gen.toNat))⟩,
   ⟨0x4240, 0x400, atBytes (r.group.map fun g => (2 * g.1, g.2.count.toNat))⟩,
   ⟨0x4640, 0x440, packed 2 (r.free.length :: r.free)⟩]

/-- A part of the core in focus. -/
def State.partAreas (s : State) (part : Nat) : List Area :=
  match part with
  | 0 => s.part0
  | 1 => s.part1
  | 2 => s.part2
  | _ => []

/-- The dword at an offset of areas: bytes that no area lists are zero. -/
def areaDword (l : List Area) (off : Nat) : Word :=
  match l.find? fun a => a.off ≤ off && off < a.off + a.len with
  | some a => bits a.val (8 * (off - a.off)) 64
  | none => 0

/-- The key of a staged dword. -/
def stageKey (core part off : Nat) : Nat := (core * 4 + part) * 2 ^ 32 + off / 8 * 8

/-- The dword that a part of a frozen core holds: the one last written through SNAPDATA, or the core's own (R372). -/
def State.snapDword (s : State) (core part off : Nat) : Word :=
  match smFind s.mgmt.snapstage (stageKey core part off) with
  | some v => v
  | none => areaDword ((s.focus core).partAreas part) off

/-! ## Reading a core out of parts -/

/-- The contents of a part: its dword at each offset that is a multiple of 8. -/
abbrev Image := Nat → Word

/-- `n` bytes of an image. -/
def Image.get (m : Image) (off n : Nat) : Nat :=
  let first := off / 8
  let ws := (List.range ((off + n + 7) / 8 - first)).map fun k => (m (8 * (first + k))).toNat
  packed 8 ws / 256 ^ (off - 8 * first) % 256 ^ n

/-- A dword of an image. -/
def Image.word (m : Image) (off : Nat) : Word := m off

/-- A vector of `n` values read by index. -/
def tabulate {α : Type} (n : Nat) (f : Nat → α) : Vector α n := ⟨((List.range n).map f).toArray, by simp⟩

/-- STATUS from its word (R98). -/
def Status.ofWord (v : Word) : Status :=
  { intrap := v.getLsbD 6, pie := v.getLsbD 5, ie := v.getLsbD 4, ppriv := bits v.toNat 2 2, priv := bits v.toNat 0 2 }

/-- EPC, the pc and the handler of a region keep bits 63:1 (R57, R104, R115). -/
def epcWord (v : Word) : Word := v &&& ~~~1#64

/-- TVEC keeps bits 63:2 (R104). -/
def tvecWord (v : Word) : Word := v &&& ~~~3#64

/-- CAUSE keeps its fields (R104). -/
def causeMask (v : Word) : Word := v &&& 0x0FFF0FFF#64

/-- The trap registers of part 0. -/
def Image.trap (m : Image) : TrapRegs :=
  let r (n : Nat) : Word := m (0x140 + 8 * n)
  { status := Status.ofWord (r 0), epc := epcWord (r 1), cause := causeMask (r 2), badaddr := r 3, tvec := tvecWord (r 4),
    scratch := r 5 }

/-- The registers x1 to x31 at an offset. -/
def Image.xregs (m : Image) (off : Nat) : Vector Word 32 := tabulate 32 fun k => if k = 0 then 0 else m (off + 8 * (k - 1))

/-- A held store of part 0: its translation is made again. -/
def Image.held (m : Image) (k : Nat) : Held :=
  let o := 0x340 + 32 * k
  let va := (m o).toNat
  let t : Tlb := { (default : Tlb) with base := va, size := 1 }
  { pa := 0, tlb := t, size := (m (o + 16)).toNat, cls := bits (m (o + 24)).toNat 0 4, hint := bits (m (o + 24)).toNat 4 2,
    data := m (o + 8) }

/-- The speculative region of part 0. -/
def Image.spec (m : Image) : Spec :=
  let st := m (0x140 + 8 * 0x00C)
  { act := (m 0x200).getLsbD 0
    chkpt := m.xregs 0x240
    handler := epcWord (m 0x208)
    held := (List.range (min (m 0x210).toNat 64)).map m.held
    checks := (List.range (min (m 0x218).toNat 4)).map fun k =>
      { unit := bits (m (0xB40 + 16 * k)).toNat 0 3, predicted := m (0xB48 + 16 * k) }
    reason := bits st.toNat 10 3, fcause := bits st.toNat 32 8, resolves := bits st.toNat 16 16 }

/-- The SQ of part 0 over the SQ that the core had; the exit address, the manager's trap registers, CTXID and MAXSCOPE stay. A barrier word
that has arrived at the restored pc, or below a trap, keeps its arrival, which no part holds (R398). -/
def Image.sq (m : Image) (old : Sq) : Sq :=
  { old with
    x := m.xregs 0x48, pc := epcWord (m 0x40), trap := m.trap
    demote := bits (m (0x140 + 8 * 0x00B)).toNat 0 32
    vmode := bits (m (0x140 + 8 * 0x00D)).toNat 0 4
    spec := m.spec
    last := tabulate 6 fun k => if k = 0 then 0 else m (0x1C8 + 8 * (k - 1))
    pending := bits (m 0x1C0).toNat 0 6
    fencePushed := 0, sleep := none, bar := old.bar.filter fun w => w.pc = epcWord (m 0x40), resolvedAt := none, stalledAt := none, fetched := none, ahead := [], inWfi := false
    invalidated := false, parked := none, woken := false, parkCounted := false, lineUp := none }

/-- A mask of part 0. -/
def Image.mask (m : Image) (k : Nat) : Mask :=
  let code := m.get (0x1008 + k) 1
  { bits := BitVec.ofNat 1024 (m.get (0xC00 + 128 * k) 128), width := if code = 0 then 256 else if code = 1 then 512 else 1024 }

/-- The name that a slot of one of the six queues gets. -/
def slotTag (q k : Nat) : Nat := 8 * q + k

/-- A destination of a pending write. -/
def Image.dest (m : Image) (o kind k : Nat) : VDest :=
  let v := m.get (o + 4 + 4 * k) 4
  match kind with
  | 0 => .gran (v / 1024)
  | 1 => .ofile (BitVec.ofNat 4 v)
  | 2 => .mask (BitVec.ofNat 3 v)
  | _ => .sq (BitVec.ofNat 1 (v / 8)) (slotTag (4 + v / 8 % 2) (v % 8))

/-- A pending write of part 0 (R368). -/
def Image.pend (m : Image) (k : Nat) : VWrite :=
  let o := 0x6000 + 0x1100 * k
  let kind := m.get o 1
  let n := min (m.get (o + 1) 1) 4
  let flags := m.get (o + 3) 1
  let group := m.get (o + 0x16) 2
  let codes := BitVec.ofNat 256 (m.get (o + 0x1020) 32)
  let tag : VTag :=
    if seg flags 1 1 = 0 then .keep
    else match seg flags 5 2 with
      | 0 => .clear
      | 1 => .copy (BitVec.ofNat 16 (m.get (o + 0x14) 2))
      | 2 => .bind group codes
      | _ => .rewrite group codes
  { left := m.get (o + 2) 1
    dests := (List.range n).map (m.dest o kind)
    data := if seg flags 4 1 = 1 then [] else (List.range n).map fun j => BitVec.ofNat 8192 (m.get (o + 0x40 + 1024 * j) 1024)
    merge := BitVec.ofNat 1024 (m.get (o + 0x1040) 128)
    esz := 2 ^ seg flags 2 2
    width := if kind = 2 then m.get (o + 8) 4 else 0
    tag := tag
    latch := seg flags 0 1 = 1 }

/-- The VE's own state. -/
def Image.ve (m : Image) : Ve :=
  { mode := bits (m.get 0x1000 1) 0 4, amask := bits (m.get 0x1001 1) 0 3, cycle := m.get 0x1018 8
    pend := (List.range (min (m.get 0x1020 1) 12)).map m.pend
    lat := BitVec.ofNat 8192 (m.get 0x1400 1024), latValid := seg (m.get 0x1010 1) 0 1 = 1 }

/-- A slot of a command queue; none where it is empty. -/
def Image.slot (m : Image) (o : Nat) (priv : BitVec 2) : Option Slot :=
  match m.get (o + 44) 1 with
  | 0 => none
  | 2 => some .marker
  | _ =>
    let f (k : Nat) : BitVec 3 := BitVec.ofNat 3 (m.get (o + k) 1)
    let args : Vector Word 4 := tabulate 4 fun k => m (o + 8 + 8 * k)
    some (.entry { addr := m o, args := args, give := f 40, take1 := f 41, take2 := f 42, take3 := f 43, priv := priv })

/-- The partial word of an engine; none where nothing of it is kept. -/
def Image.part (m : Image) (o : Nat) (data : List Byte) : Option Partial :=
  let mask := (m (o + 0x20)).toNat
  let p : Partial :=
    { done := (List.range 64).filter mask.testBit, data := if mask = 0 && (m (o + 0x28)).toNat = 0 then [] else data
      count := (m (o + 0x28)).toNat, promised := (m (o + 0x30)).getLsbD 0, gran := (m (o + 0x38)).toNat }
  if p = {} then none else some p

/-- The state that an ESTATE word names (R188). -/
def stateOf (code : Nat) (flt : Bool) : EngSt :=
  if flt then .running
  else match code with
    | 1 => .waiting
    | 2 | 3 | 5 => .running
    | 4 => .draining
    | _ => .idle

/-- An engine of part 0 (R369): its block is fetched and checked again from POS when it next runs. -/
def Image.eng (m : Image) (e : Engine) (priv : BitVec 2) : Eng :=
  let o := 0x17000 + 0x1000 * (e.id - 1)
  let w := (m o).toNat
  let info := (m (o + 8)).toNat
  let st := stateOf (seg w 0 4) (seg w 25 1 = 1)
  let data : List Byte := if e = .ae then leBytes 1024 (m.get (o + 0x400) 1024) else []
  { q := ((List.range 32).filterMap fun k => m.slot (o + 0x800 + 64 * k) priv)
    st := st, pos := bits w 28 12, rem := bits w 40 16, rtp := seg w 27 1 = 1, frz := seg w 26 1 = 1, flt := seg w 25 1 = 1
    wait := bits w 4 4
    efElem := bits info 32 16, efV := seg info 8 1 = 1, efCode := bits info 0 8, efAddr := m (o + 16), efBlk := m (o + 24)
    repass := decide (st = .running)
    part := m.part o data
    ptr := tabulate 16 fun k => if k < ptrCount e then m (o + 0x40 + 8 * k) else 0 }

/-- A data or store queue of part 0. -/
def Image.dsQueue (m : Image) (q : Nat) : List DSlot :=
  let arrived := (m (0x20000 + 64 * q + 24)).toNat
  (List.range (min (m (0x20000 + 64 * q + 8)).toNat 8)).map fun k =>
    if arrived.testBit k then .full (BitVec.ofNat 8192 (m.get (0x21000 + 0x2000 * q + 0x400 * k) 1024))
    else .reserved (slotTag q k)

/-- The rounds of the CE's area. -/
def Image.rounds (m : Image) (o : Nat) : Vector RoundSt 16 :=
  tabulate 16 fun k => if m.get (o + 0x400 + k) 1 = 1 then .opened else .closed

/-- The hosting entries of the XE's area, their translations not yet made; an entry that is not in use is none of the list. -/
def Image.hosting (m : Image) (o : Nat) (ctx : BitVec 6) : List Hosting :=
  (List.range 8).filterMap fun k =>
    let a := o + 0x400 + 32 * k
    if m.get (a + 1) 1 = 0 then none
    else some { expert := m.get a 1, ctx := ctx, base := m (a + 8), slots := m.get (a + 2) 2, rows := m.get (a + 4) 2, tlb := [] }

/-- Sparse entries that are not the default. -/
def sparse {α : Type} [DecidableEq α] (n : Nat) (d : α) (f : Nat → α) : SMap α :=
  (List.range n).filterMap fun k => if f k = d then none else some (k, f k)

/-- The register space and the tint file of the three parts. -/
def regsOf (m0 m1 m2 : Image) (old : Regs) : Regs :=
  { old with
    gran := sparse 1280 0 fun g => BitVec.ofNat 8192 (m1.get (0x40 + 1024 * g) 1024)
    tag := sparse 1280 0 fun g => BitVec.ofNat 16 (m1.get (0x140040 + 2 * g) 2)
    ofile := tabulate 16 fun k => BitVec.ofNat 8192 (m0.get (0x2000 + 1024 * k) 1024)
    view := tabulate 8 fun k =>
      (m0 (0xB88 + 16 * k) &&& viewMask 1) ++ (m0 (0xB80 + 16 * k) &&& viewMask 0)
    mask := tabulate 8 m0.mask
    group := sparse 512 {} fun k =>
      { codes := BitVec.ofNat 256 (m2.get (0x40 + 32 * k) 32), gen := BitVec.ofNat 6 (m2.get (0x4040 + k) 1)
        count := BitVec.ofNat 11 (m2.get (0x4240 + 2 * k) 2) }
    free := (List.range (min (m2.get 0x4640 2) 512)).map fun k => m2.get (0x4642 + 2 * k) 2
    ovf := tabulate 12 fun k => BitVec.ofNat 16 (m0.get (0x2D000 + 4 * k) 2)
    nan := tabulate 12 fun k => BitVec.ofNat 16 (m0.get (0x2D002 + 4 * k) 2) }

/-- The core that the three parts give, over the core that is frozen: everything but the translations made again and the binding of
unequal stamps. -/
def Core.ofParts (old : Core) (m0 m1 m2 : Image) : Core :=
  let sq := m0.sq old.sq
  let priv := sq.trap.status.priv
  let ce := 0x17000 + 0x3000
  let xe := 0x17000 + 0x4000
  let order := (List.range 16).map fun k => m0.get (ce + 0x410 + k) 1
  let me := 0x17000 + 0x2000
  { old with
    sq := sq
    ae := { m0.eng .ae priv with waiters := old.ae.waiters }, ve := { m0.eng .ve priv with waiters := old.ve.waiters }
    me := { m0.eng .me priv with waiters := old.me.waiters }, ce := { m0.eng .ce priv with waiters := old.ce.waiters }
    xe := { m0.eng .xe priv with waiters := old.xe.waiters }
    tok := tabulate 36 fun k => { present := m0.get (0x1C000 + 2 * k) 1, reserved := m0.get (0x1C001 + 2 * k) 1 }
    outq := tabulate 36 fun k =>
      (List.range (min (m0.get (0x1C100 + 0x100 * k) 1) 16)).map fun j => m0 (0x1C180 + 0x100 * k + 8 * j)
    dq := tabulate 4 m0.dsQueue
    sqq := tabulate 2 fun k => m0.dsQueue (4 + k)
    regs := regsOf m0 m1 m2 old.regs
    vex := m0.ve
    loads := []
    seq := 48
    mex := { q := tabulate 8 fun k =>
      { addr := m0 (me + 0x40 + 16 * k), id := bits (m0 (me + 0x48 + 16 * k)).toNat 0 8, grow := (m0 (me + 0x48 + 16 * k)).getLsbD 8 } }
    rounds := m0.rounds ce
    roundOrder := order.filter (· < 16)
    hosting := m0.hosting xe old.sq.ctxid
    refusals := (List.range (min (m0.get (xe + 0x500) 2) 64)).map fun k =>
      let r := m0 (xe + 0x508 + 8 * k)
      (r, BitVec.ofNat 64 (seg r.toNat 56 8)) }

/-- A restore whose stamps differ rebuilds the binding state (R279). -/
def Regs.rebind (r : Regs) : Regs :=
  let tags := r.tag.map fun t => (t.1, if tagBound t.2 then mkTag 1 (tagGroup t.2) else t.2)
  let uses (k : Nat) : Nat := (tags.filter fun t => tagBound t.2 && tagGroup t.2 = k).length
  { r with
    tag := tags
    group := sparse 512 {} fun k => { codes := (r.groupAt k).codes, gen := 0, count := BitVec.ofNat 11 (uses k) }
    free := (List.range 512).filter fun k => uses k = 0 }

end Sys2Proof.Machine
end

