-- ==== Sys2Proof/Machine/Context.lean ====
section
/-! DEFINITION. Contexts: their states, the commands of the manager, freezing, resuming and restoring a core, scrubbing
(R359-R375, R470). -/

namespace Sys2Proof.Machine

/-! ## Group start (R481) and policies (R362) -/

/-- The group-start state of a core: what R481 does not keep across groups takes its starting value. -/
def Core.groupStart (c : Core) (pc exit index : Word) (params : Vector Word 4) (supr : Bool) (run : RunState) : Core :=
  let x : Vector Word 32 := tabulate 32 fun k =>
    if k = 1 then exit else if k = 14 then index else if 10 ≤ k && k < 14 then params.getD (k - 10) 0 else 0
  { Core.fresh with
    sq :=
      { x := x, pc := pc, exitAddr := exit, run := run
        trap := { status := { ie := true, priv := if supr then 1 else 0 } }
        mtrap := c.sq.mtrap, ctxid := c.sq.ctxid, maxscope := c.sq.maxscope, demote := c.sq.demote, tlb := c.sq.tlb }
    aeWheel := c.aeWheel, ceWheel := c.ceWheel, stream := c.stream, ahead := c.ahead
    counts := { c.counts with tintAllocs := 0 } }

/-- The cores of a context (R359): every core of its quads. -/
def Ctx.cores (c : Ctx) : List Nat := (List.range 256).filter fun n => c.quads.getLsbD (n / 4)

/-- The context of a core: the one that holds its quad and is not free. -/
def State.ownerOf (s : State) (core : Nat) : Option Nat :=
  (s.ctxs.find? fun c => c.2.st ≠ .free && c.2.quads.getLsbD (core / 4)).map (·.1)

/-! ## Freezing and resuming (R364, R365, R370) -/

/-- FREEZE of a core takes effect: it leaves the lines it stands in, its lease run ends, and nothing issues from then on. A new cap
of its context's policy takes effect on it (R362). -/
def State.stopCore (s : State) (n : Nat) : State :=
  if (s.coreAt n).freezing then s
  else
    let f := s.cur
    let s := ((s.endLease n).focus n).leaveLine
    let s := { s with core := s.core.freeze }
    let s := match s.ownerOf n with
      | some c => { s with core.sq.maxscope := s.policyScope c }
      | none => s
    s.focus f

/-- The context of a core that freezes enters Frozen (R360). -/
def State.noteFrozen (s : State) (n : Nat) : State :=
  match s.ownerOf n with
  | some c => let x := s.ctxAt c; if x.st = .running then s.setCtx c { x with st := .frozen } else s
  | none => s

/-- A core counts as frozen for the state of its context (R360, R373): by a command, or by a double trap. One that freezes for a park does
not. -/
def Core.heldBack (c : Core) : Bool := c.held || c.sq.run = .doubleTrap

/-- The context of a core returns to Running once no core of it is frozen (R360, R373). -/
def State.noteResumed (s : State) (n : Nat) : State :=
  match s.ownerOf n with
  | some c =>
    let x := s.ctxAt c
    if x.st = .frozen && x.cores.all (fun k => !(s.coreAt k).heldBack) then s.setCtx c { x with st := .running } else s
  | none => s

/-- A round stands at Closing: its ROUNDC still waits for acknowledgements (R428). -/
def RoundSt.isClosing : RoundSt → Bool
  | .closing _ => true
  | _ => false

/-- The core has nothing under way inside the package: no load, no MMUL or fill phase, no word in execution, no remote access, no send, no
ETCH that a unit runs for it, no round that closes (R364, R428). -/
def State.coreIdle (s : State) (n : Nat) : Bool :=
  let c := s.coreAt n
  c.loads.isEmpty && c.mex.running.isEmpty && c.mex.plan.isNone && c.remote.isNone && c.sends.isEmpty &&
    engines.all (fun e => !(c.eng e).exec) && c.rounds.toList.all (fun r => !r.isClosing) &&
    s.etch.all fun q => q.2.all fun j => j.core ≠ n

/-- What the core has issued has performed (R364), its writes to the host among it (R295). -/
def State.drainedCore (s : State) (n : Nat) : Bool := s.coreIdle n && s.store.posted.isEmpty

/-- A freezing core whose issued work has drained is frozen; the stamp of this freeze is set (R366): TIME at the freeze is the time at which
FROZEN becomes 1 (assumption log 42). -/
def State.freezeDone (s : State) (n : Nat) : State :=
  let c := s.coreAt n
  if c.freezing && !c.frozen && s.drainedCore n then
    s.setCoreAt n { c with frozen := true, stamp := BitVec.ofNat 64 (n % 256 * 2 ^ 56 + s.time.toNat % 2 ^ 56) }
  else s

/-- A refused command of FRZCTL sets ERR. -/
def State.frzRefuse (s : State) : State := { s with mgmt.frzErr := true }

/-- The staged dwords of a core are dropped. -/
def State.dropStage (s : State) (n : Nat) : State :=
  { s with mgmt.snapstage := s.mgmt.snapstage.filter fun x => x.1 / 2 ^ 34 ≠ n }

/-- The manager freezes a core: one that freezes for a park already stays frozen after it. -/
def State.holdCore (s : State) (n : Nat) : State :=
  let s := s.stopCore n
  s.setCoreAt n { s.coreAt n with held := true }

/-- FREEZE: allowed on a core of a context that runs or has a frozen core; of a core that the manager or a double trap has frozen it changes
nothing. -/
def State.freezeCmd (s : State) (n : Nat) : State :=
  match s.ownerOf n with
  | none => s.frzRefuse
  | some c =>
    if (s.coreAt n).heldBack then s
    else if (s.ctxAt c).st = .running || (s.ctxAt c).st = .frozen then ((s.holdCore n).noteFrozen n).dropStage n
    else s.frzRefuse

/-- The core's freeze ends. -/
def Core.resume (c : Core) : Core := { c with freezing := false, frozen := false, held := false }

/-- The core freezes for the park of a group (R387). -/
def State.parks (s : State) (n : Nat) : Bool :=
  s.groups.any fun g => g.st = .parking && g.first ≤ n && n < g.first + 4 ^ g.size

/-- RESUME: a core that is not frozen stays as it is, and so does one that a double trap stopped (R373). One whose group parks meanwhile
goes on freezing for the park. -/
def State.resumeCmd (s : State) (n : Nat) : State :=
  let c := s.coreAt n
  match s.ownerOf n with
  | none => s.frzRefuse
  | some k =>
    if (s.ctxAt k).st ≠ .frozen && (s.ctxAt k).st ≠ .running then s.frzRefuse
    else if !c.frozen || !c.held || c.sq.run = .doubleTrap then s
    else ((s.setCoreAt n (if s.parks n then { c with held := false } else c.resume)).dropStage n).noteResumed n

/-! ## RESTORE (R372) -/

/-- The header of a part is right: version, part number, the context of the core, the length, and zeros (R366). -/
def headerOk (m : Image) (part : Nat) (ctx : BitVec 6) : Bool :=
  m.get 0 2 = 1 && m.get 2 1 = part && m.get 4 1 = ctx.toNat && m.get 5 3 = 0 && m.get 16 8 = partLen part && m.get 24 40 = 0

/-- The hosting entries in the XE's area of part 0 (R418). -/
def hostingArea : Nat := 0x17000 + 4 * 0x1000 + 0x400

/-- Dwords of a part that are not held against the core: the header, and of part 0 CORE, CAPS, TIME, CTXID and MAXSCOPE, which a restore
ignores (R367), and the hosting entries, which it reads entry by entry. -/
def ignoredDword (part off : Nat) : Bool :=
  off < 64 || (part = 0 && ((0x170 ≤ off && off ≤ 0x190) || (hostingArea ≤ off && off < hostingArea + 0x100)))

/-- The hosting entries of an image are well-formed (R418): each in use or not, and one in use has zeros where R418 has them. -/
def Image.hostingOk (m : Image) : Bool :=
  (List.range 8).all fun k =>
    let a := hostingArea + 32 * k
    let used := m.get (a + 1) 1
    used = 0 || (used = 1 && m.get (a + 6) 2 = 0 && m.get (a + 16) 16 = 0)

/-- Every dword that was written for the core reads back as written from the core that the parts give: a nonzero byte where R367
requires zero and a value that a field cannot hold do not. -/
def State.stageOk (s : State) (n : Nat) : Bool :=
  (s.mgmt.snapstage.filter fun x => x.1 / 2 ^ 34 = n).all fun x =>
    let part := x.1 / 2 ^ 32 % 4
    let off := x.1 % 2 ^ 32
    ignoredDword part off || areaDword ((s.focus n).partAreas part) off = x.2

/-- The give and take fields of an entry of an engine (R63): units, or 7 for none; not the engine itself, no unit taken twice. -/
def Entry.fieldsOk (x : Entry) (e : Engine) : Bool :=
  let takes := [x.take1, x.take2, x.take3].filter (· ≠ 7)
  (x.give :: takes).all (fun u => u ≠ 6 && u.toNat ≠ e.id) && takes.Nodup

/-- A pending write of a snapshot (R138, R142, R368): its latency, destinations within register space, a mask of a width that there is, a
group that there is. -/
def VWrite.fieldsOk (w : VWrite) : Bool :=
  1 ≤ w.left && w.left ≤ 12 && w.dests ≠ [] &&
    w.dests.all (fun d => match d with
      | .gran g => g < 1280
      | .mask _ => w.width = 256 || w.width = 512 || w.width = 1024
      | .ofile _ | .sq _ _ => true) &&
    match w.tag with
    | .bind g _ | .rewrite g _ => g < 512
    | .clear | .copy _ | .keep => true

/-- The limits that the fields' own rules set: token counts, privileges (R98), sizes of held stores, reasons (R121), waits (R188), the fields
of entries and pending writes, reference counts, the free list and unbound tags (R256, R257). -/
def Core.fieldsOk (c : Core) (secure : Bool) : Bool :=
  let t := c.sq.trap.status
  t.priv ≠ 2 && t.ppriv ≠ 2 && (t.priv ≠ 3 || secure) && (t.ppriv ≠ 3 || t.priv = 3) &&
    c.tok.toList.all (fun q => q.present + q.reserved ≤ 15) &&
    engines.all (fun e => (c.eng e).q.all fun x => match x with | .entry y => y.fieldsOk e | .marker => true) &&
    c.vex.pend.all VWrite.fieldsOk && c.regs.free.all (fun g => (c.regs.groupAt g).count = 0) &&
    c.sq.spec.held.all (fun h => h.size = 1 || h.size = 2 || h.size = 4 || h.size = 8) &&
    c.sq.spec.checks.all (fun k => 1 ≤ k.unit.toNat && k.unit.toNat ≤ 5) &&
    c.regs.free.all (fun g => g < 512) && c.regs.free.Nodup &&
    c.hosting.all (fun h => 1 ≤ h.slots && h.slots ≤ 240 && h.rows ≤ h.slots) &&
    c.sq.spec.reason.toNat ≤ 4 && engines.all (fun e => (c.eng e).wait.toNat ≤ 10) &&
    c.regs.group.all (fun g => g.2.count.toNat ≤ 1280) && c.regs.tag.all (fun t => tagBound t.2)

/-- The held stores of the core in focus are translated again; none where one no longer translates. -/
def State.reholdAll : List Held → State → Option (List Held × State)
  | [], s => some ([], s)
  | h :: rest, s =>
    match s.translate s.sqAgent { write := true } (BitVec.ofNat 64 h.tlb.base) with
    | .ok pa t s => (State.reholdAll rest s).map fun r => ({ h with pa := pa, tlb := t } :: r.1, r.2)
    | _ => none

/-- The hosting entries of the core in focus walk their buffers again, at S, because no snapshot says at which privilege they were announced
(assumption log 62); one that no longer translates for write is dropped (R418). -/
def State.rehostAll : List Hosting → State → List Hosting × State
  | [], s => ([], s)
  | h :: rest, s =>
    match s.split (some s.cur) { stream := some xeStreamA, priv := 1 } { write := true } (piecesOf h.base (1024 * (h.slots + 1))) with
    | .ok ps s =>
      let (l, s) := State.rehostAll rest s
      if ps.all fun p => match p.res with | .ok _ => true | .error _ => false then
        ({ h with tlb := (ps.filterMap fun p => match p.res with | .ok (_, t) => some t | .error _ => none).eraseDups } :: l, s)
      else (l, s)
    | _ => State.rehostAll rest s

/-- RESTORE of a frozen core from a manager core, in the secure world or not: refused, or the three parts are applied. -/
def State.restoreCmd (s : State) (n : Nat) (secureMgr : Bool) : State :=
  let old := s.coreAt n
  match s.ownerOf n with
  | none => s.frzRefuse
  | some k =>
    let m (p : Nat) : Image := fun off => s.snapDword n p off
    let stamp (p : Nat) : Word := m p 8
    if !old.frozen || !(headerOk (m 0) 0 old.sq.ctxid && headerOk (m 1) 1 old.sq.ctxid && headerOk (m 2) 2 old.sq.ctxid) then
      s.frzRefuse
    else
      let c := old.ofParts (m 0) (m 1) (m 2)
      if !c.fieldsOk (secureMgr && (s.ctxAt k).secure) || !(m 0).hostingOk || !(s.setCoreAt n c).stageOk n then s.frzRefuse
      else
        let same : Bool := stamp 1 = stamp 2
        let c := { c with
          regs := if same then c.regs else c.regs.rebind
          counts.tintStamp := if same then stamp 1 else stamp 1 ^^^ (1#64 <<< 63)
          stamp := stamp 0 }
        let f := s.cur
        match State.reholdAll c.sq.spec.held ((s.setCoreAt n c).focus n) with
        | none => s.frzRefuse
        | some (held, s) =>
          let (hosts, s) := State.rehostAll c.hosting s
          ({ s with core.sq.spec.held := held, core.hosting := hosts }.focus f).dropStage n

/-! ## SNAPDATA (R375) -/

/-- The dword at SNAPSEL may be reached: the core is frozen, the offset lies in the part, and a secure context's core is reached
from the secure world only (R374). -/
def State.snapAllowed (s : State) (secureMgr : Bool) : Bool :=
  let n := s.mgmt.snapCore.toNat
  let secure := ((s.ownerOf n).map fun k => (s.ctxAt k).secure).getD false
  (s.coreAt n).frozen && s.mgmt.snapOff.toNat < partLen s.mgmt.snapPart.toNat && (!secure || secureMgr)

/-- Each access adds 8 to OFFSET. -/
def State.snapNext (s : State) (ok : Bool) : State :=
  { s with mgmt.snapOff := s.mgmt.snapOff + 8, mgmt.frzErr := s.mgmt.frzErr || !ok }

/-- A read of SNAPDATA. -/
def State.snapRead (s : State) (secureMgr : Bool) : Word × State :=
  let ok := s.snapAllowed secureMgr
  let off := s.mgmt.snapOff.toNat / 8 * 8
  (if ok then s.snapDword s.mgmt.snapCore.toNat s.mgmt.snapPart.toNat off else 0, s.snapNext ok)

/-- A write of SNAPDATA: it stands until a RESTORE applies it. -/
def State.snapWrite (s : State) (secureMgr : Bool) (v : Word) : State :=
  let ok := s.snapAllowed secureMgr
  let key := stageKey s.mgmt.snapCore.toNat s.mgmt.snapPart.toNat s.mgmt.snapOff.toNat
  let s' := s.snapNext ok
  if ok then { s' with mgmt.snapstage := smSet s'.mgmt.snapstage key v } else s'

/-! ## CREATE, START, DESTROY (R360, R361, R363, R470) -/

/-- The command that runs is done. -/
def State.ctxDone (s : State) : State := { s with mgmt.ctxBusy := 0 }

/-- The command that runs is refused. -/
def State.ctxRefuse (s : State) : State := { s with mgmt.ctxBusy := 0, mgmt.ctxRefused := true, mgmt.frzErr := true }

/-- A CREATE record (R470). -/
structure CreateRec where
  ctx : Nat
  world : Nat
  quads : Word
  regions : Word
  fns : Word
  ptbase : Word
  zeros : Bool

/-- The record that 64 bytes hold. -/
def CreateRec.ofBytes (bs : List Byte) : CreateRec :=
  let n := leNat bs
  { ctx := seg n 0 8, world := seg n 8 8, quads := bits n 64 64, regions := bits n 128 64, fns := bits n 192 64, ptbase := bits n 256 64
    zeros := seg n 16 48 = 0 && seg n 320 192 = 0 }

/-- The functions that a record names. -/
def CreateRec.fnList (r : CreateRec) : List Nat := (List.range 64).filter fun f => r.fns.getLsbD f

/-- Every unit of a set stands in a world. -/
def worldIs (world : Word) (secure : Bool) (set : Word) : Bool := if secure then set &&& ~~~world = 0 else set &&& world = 0

/-- A record passes R361 and R470. Memory regions that another context holds are refused as its quads are (R359). -/
def State.createOk (s : State) (r : CreateRec) : Bool :=
  let taken (f : Ctx → Word) : Word := s.ctxs.foldl (fun a c => if c.2.st = .free then a else a ||| f c.2) 0
  r.zeros && r.ctx = s.mgmt.ctxSel.toNat && r.world ≤ 1 && (s.ctxAt r.ctx).st = .free &&
    taken (·.quads) &&& r.quads = 0 && taken (·.regions) &&& r.regions = 0 &&
    worldIs s.mgmt.worldq (r.world = 1) r.quads && worldIs s.mgmt.worldr (r.world = 1) r.regions &&
    r.fnList.all (fun f => (s.fnAt f).ctx.isNone) && r.fnList.contains 0 = (r.ctx = 0)

/-- The counters of a quad that a CREATE resets (R361, R481). -/
def Quad.resetCounts (q : Quad) : Quad :=
  { q with hit := 0, miss := 0, sfevict := 0, pfdrop := 0, lease := { q.lease with grants := 0 } }

/-- A context is created. -/
def State.create (s : State) (r : CreateRec) : State :=
  let c : Ctx :=
    { st := .configured, secure := r.world = 1, quads := r.quads, regions := r.regions, fns := r.fnList, ptbase := ptbaseField r.ptbase }
  let s := r.fnList.foldl (fun s f => s.setFn f { s.fnAt f with ctx := some r.ctx }) s
  let s := s.setCtx r.ctx c
  let cap := s.policyScope r.ctx
  let s := s.setCtx r.ctx { c with maxscope := cap }
  let start (s : State) (n : Nat) : State :=
    let k := (Core.groupStart { (s.coreAt n) with counts := {} } 0 0 0 (Vector.replicate 4 0) false .idle)
    s.setCoreAt n { k with sq.ctxid := BitVec.ofNat 6 r.ctx, sq.maxscope := cap, sq.demote := 0 }
  let s := c.cores.foldl start s
  ((List.range 64).filter fun q => r.quads.getLsbD q).foldl (fun s q => s.setQuad q (s.quadAt q).resetCounts) s

/-- CREATE: the record at the MSCRATCH of the issuing manager core, read through its own tables; a record in the host window that stands
behind posted writes is waited for (R295), and one whose data is marked is refused (R473; assumption log 80). -/
def State.createCmd (s : State) : State :=
  let f := s.cur
  let s0 := s
  let s := s.focus s.mgmt.ctxFrom
  let va := s.core.sq.mtrap.scratch
  if va.toNat % 64 ≠ 0 then s0.ctxRefuse
  else match s.translate s.sqAgent { read := true } va with
    | .ok pa t s =>
      if s.hostBusy pa then s.focus f
      else
        let bad := (s.marked (sqHolders s.cur) t pa 64).isSome
        let (bs, s) := s.loadPhys (sqHolders s.cur) .all t pa 64
        let r := CreateRec.ofBytes bs
        let s := s.focus f
        if !bad && s.createOk r then (s.create r).ctxDone else s.ctxRefuse
    | _ => s0.ctxRefuse

/-- START. -/
def State.startCmd (s : State) : State :=
  let n := s.mgmt.ctxSel.toNat
  let c := s.ctxAt n
  if c.st = .configured then (s.setCtx n { c with st := .running }).ctxDone else s.ctxRefuse

/-- The launches of a context that have not ended end as destroyed (R363, R383). The spec names no node for that status: a free value. -/
def State.destroyLaunches (s : State) (n : Nat) : State :=
  let (v, s) := s.free
  { s with launches := s.launches.map fun l =>
      if l.ctx = n && !l.ended then { l with ended := true, status := 0x21, node := v.setWidth 16 } else l }

/-- DESTROY freezes every core of the context and begins the scrub. -/
def State.destroyCmd (s : State) : State :=
  let n := s.mgmt.ctxSel.toNat
  let c := s.ctxAt n
  if c.st = .configured || c.st = .frozen then
    let s := c.cores.foldl State.holdCore s
    (s.setCtx n { c with st := .scrubbing }).destroyLaunches n
  else s.ctxRefuse

/-! ## The scrub (R363) -/

/-- Plates of a quad Invalid, pins included, and every available plate enabled (step 2); its scratchpad zero (step 5). -/
def Quad.scrub (q : Quad) : Quad := { q with plate := Vector.replicate 16 {}, plmask := q.avail, spad := [] }

/-- A byte address lies in a set of memory regions. -/
def inRegions (regions : Word) (a : Nat) : Bool := a < 2 ^ 39 && regions.getLsbD (a / 2 ^ 33)

/-- The frames of memory regions written with zeros at home, every copy dropped, CODE and U cleared (step 4); a mark is cleared
(R473). -/
def Store.scrub (st : Store) (regions : Word) : Store :=
  let out (k : Nat) : Bool := !inRegions regions (64 * k)
  { st with
    mem := st.mem.filter fun c => !inRegions regions c.1
    marks := st.marks.filter fun m => out m.1
    code := st.code.filter fun r => !inRegions regions r.1
    ubit := st.ubit.filter out
    privs := st.privs.filter fun r => !inRegions regions r.2.1
    fetch := st.fetch.filter fun c => out c.sector
    nc := st.nc.filter fun c => out c.sector
    coh.copies := st.coh.copies.filter fun c => out c.sector
    coh.dirs := st.coh.dirs.filter fun e => out e.sector
    coh.msgs := st.coh.msgs.filter fun m => out m.sector }

/-- The bytes of a function's share of scheduler memory. -/
def Fn.inShare (f : Fn) (a : Nat) : Bool := f.shbase.toNat * 65536 ≤ a && a < (f.shbase.toNat + f.share.toNat) * 65536

/-- The scrub of a context. -/
def State.scrub (s : State) (n : Nat) : State :=
  let c := s.ctxAt n
  let groups := s.groups.filter fun g => g.ctx ≠ n
  let s := s.dropTlb fun t => t.ctx.toNat = n
  let s := ((List.range 64).filter fun q => c.quads.getLsbD q).foldl (fun s q => s.setQuad q (s.quadAt q).scrub) s
  let s := c.cores.foldl (fun s k => s.setCoreAt k Core.fresh) s
  let s := { s with
    groups := groups
    store := { s.store.scrub c.regions with
      sched := s.store.sched.filter fun b => !c.fns.any fun f => (s.fnAt f).inShare b.1 }
    dies := s.dies.map fun (d : Nat × Die) => (d.1, { d.2 with pq := d.2.pq.filter fun e => e.ctx.toNat ≠ n })
    saves := s.saves.filter fun k => !c.quads.getLsbD (k.1 / 4)
    mgmt.podCtx := if s.mgmt.podCtx = some n then none else s.mgmt.podCtx
    mgmt.snapstage := s.mgmt.snapstage.filter fun x => !c.quads.getLsbD (x.1 / 2 ^ 34 / 4) }
  let s := c.fns.foldl (fun s f => s.setFn f { s.fnAt f with ctx := none }) s
  s.setCtx n {}

/-- The scrub is complete once every core has frozen and every launch has ended with its record. -/
def State.scrubDone (s : State) (n : Nat) : State :=
  let c := s.ctxAt n
  if c.st = .scrubbing && c.cores.all (fun k => (s.coreAt k).frozen) && s.launches.all (fun l => l.ctx ≠ n) then
    let s := s.scrub n
    if s.mgmt.ctxBusy = 3 && s.mgmt.ctxSel.toNat = n then s.ctxDone else s
  else s

/-! ## The events -/

/-- CREATE: the command that CTXCMD holds; refused while the machine is held. -/
def execCreate (s : State) : Out :=
  .next (if s.mgmt.ctxBusy ≠ 1 then s else if s.held then s.ctxRefuse else s.createCmd)

/-- START; refused while the machine is held. -/
def execStart (s : State) : Out :=
  .next (if s.mgmt.ctxBusy ≠ 2 then s else if s.held then s.ctxRefuse else s.startCmd)

/-- DESTROY; while the scrub runs the command is under way. -/
def execDestroy (s : State) : Out :=
  .next (if s.mgmt.ctxBusy = 3 && (s.ctxAt s.mgmt.ctxSel.toNat).st ≠ .scrubbing then s.destroyCmd else s)

def execScrubComplete (ctx : BitVec 6) (s : State) : Out := .next (s.scrubDone ctx.toNat)

/-- FREEZE of a core by the manager. -/
def execFreeze (core : BitVec 8) (s : State) : Out := .next (s.freezeCmd core.toNat)

def execFreezeComplete (core : BitVec 8) (s : State) : Out := .next (s.freezeDone core.toNat)

def execResume (core : BitVec 8) (s : State) : Out := .next (s.resumeCmd core.toNat)

/-- RESTORE from one of the four manager cores. -/
def execRestore (core : BitVec 8) (mgr : BitVec 2) (s : State) : Out :=
  .next (s.restoreCmd core.toNat (s.mgmt.secureCores.getLsbD mgr.toNat))

/-- SNAPDATA_ACCESS: a write, or a read whose dword leaves toward the manager. -/
def execSnapdataAccess (mgr : BitVec 2) (value : Option Word) (s : State) : Out :=
  let secure := s.mgmt.secureCores.getLsbD mgr.toNat
  match value with
  | some v => .next (s.snapWrite secure v)
  | none => let (v, s) := s.snapRead secure; .next (s.emit (.data (leBytes 8 v.toNat)))

end Sys2Proof.Machine
end

