-- ==== Sys2Proof/Machine/Group.lean ====
section
/-! DEFINITION. Graphs, launches and groups (R376-R388, R481, R482, R484). -/

namespace Sys2Proof.Machine

/-! ## The share of scheduler memory and graph images (R376-R379) -/

/-- Bytes of a function's share. -/
def State.shareRead (s : State) (f : Fn) (off n : Nat) : List Byte := readBytes s.store.sched (f.shbase.toNat * 65536 + off) n

/-- The size of a function's share in bytes. -/
def Fn.shareSize (f : Fn) : Nat := f.share.toNat * 65536

/-- A node from the 128 bytes of its descriptor (R377). -/
def Node.ofBytes (bs : List Byte) : Node :=
  let n := leNat bs
  let preds := (List.range 8).map fun k => seg n (512 + 16 * k) 16
  { code := bits n 0 64, size := seg n 64 8, prio := seg n 72 8, count := seg n 80 16
    portable := seg n 96 1 = 1, supr := seg n 97 1 = 1
    params := tabulate 4 fun k => bits n (128 + 64 * k) 64
    scratch := seg n 384 32, chmap := bits n 448 64, preds := preds.filter (· ≠ 0xFFFF) }

/-- The bytes of a descriptor that must be zero (R377). -/
def nodeZeros (bs : List Byte) : Bool :=
  let n := leNat bs
  seg n 98 6 = 0 && seg n 104 24 = 0 && seg n 416 32 = 0 && seg n 640 384 = 0

/-- An aligned set of cores lies within a set of quads (R30). -/
def setInQuads (quads : Word) (first size : Nat) : Bool := (List.range (4 ^ size)).all fun k => quads.getLsbD ((first + k) / 4)

/-- Aligned sets of a size within a set of quads, by first core. -/
def setsOf (quads : Word) (size : Nat) : List Nat :=
  ((List.range (256 / 4 ^ size)).map (· * 4 ^ size)).filter fun f => setInQuads quads f size

/-- Node `k` of an image passes R377 and R378. -/
def nodeOk (c : Ctx) (f : Fn) (k : Nat) (bs : List Byte) : Bool :=
  let n := Node.ofBytes bs
  nodeZeros bs && !n.code.getLsbD 0 && n.size ≤ 4 && n.prio ≤ 7 && 1 ≤ n.count && n.scratch ≤ 8388608 &&
    n.preds.all (· < k) && (!n.supr || f.supr) && !(setsOf c.quads n.size).isEmpty

/-- The graph image at an offset of a function's share, if it passes R376 to R378. -/
def State.graphAt (s : State) (f : Fn) (c : Ctx) (off : Nat) : Option Graph :=
  let h := leNat (s.shareRead f off 64)
  let n := seg h 16 16
  let node (k : Nat) : List Byte := s.shareRead f (off + 64 + 128 * k) 128
  if off % 64 = 0 && off + 64 ≤ f.shareSize && seg h 0 16 = 1 && 1 ≤ n && n ≤ 4096 && seg h 40 24 = 0 && seg h 64 5 = 0 &&
      seg h 128 16 ≤ 2047 && seg h 144 368 = 0 && off + 64 + 128 * n ≤ f.shareSize &&
      (List.range n).all (fun k => nodeOk c f k (node k)) then
    some { id := seg h 32 8, record := bits h 64 64, vector := seg h 128 16, nodes := (List.range n).map fun k => Node.ofBytes (node k) }
  else none

/-- LSTATUS of a function takes a code (R383). -/
def State.setCode (s : State) (fn : Nat) (code : BitVec 8) : State := s.setFn fn { s.fnAt fn with code := code }

/-- LSTATUS takes a tag and a code. -/
def State.setStatus (s : State) (fn : Nat) (tag : BitVec 32) (code : BitVec 8) : State :=
  s.setFn fn { s.fnAt fn with tag := tag, code := code }

/-- LSTATUS as the host reads it (R379). -/
def Fn.lstatus (f : Fn) : Word :=
  fields [(0, f.code.toNat), (8, f.share.toNat), (17, f.maxscope.toNat), (32, f.tag.toNat)]

/-- A write of GRAPHADDR registers an image, or is refused (R378). A function bound to no context has no graph table: BAD_GRAPH. -/
def State.graphWrite (s : State) (fn : Nat) (v : Word) : State :=
  let f := s.fnAt fn
  match f.ctx with
  | none => s.setCode fn 0x11
  | some k =>
    let c := s.ctxAt k
    match s.graphAt f c (seg v.toNat 0 24) with
    | none => s.setCode fn 0x11
    | some g =>
      if s.launches.any fun l => l.ctx = k && l.graph.id = g.id then s.setCode fn 0x13
      else (s.setCtx k { c with graphs := g :: c.graphs.filter fun h => h.id ≠ g.id }).setCode fn 0x02

/-! ## Launches (R380-R382) -/

/-- The parameters of a node with one slot replaced. -/
def Node.patch (n : Node) (slot : Nat) (v : Word) : Node := { n with params := n.params.setIfInBounds slot v }

/-- The patches of a launch in order; none where one fails R380 or lies outside the share. -/
def State.applyPatches (s : State) (f : Fn) (base : Nat) (total : Nat) : List Nat → List Node → Option (List Node)
  | [], ns => some ns
  | k :: rest, ns =>
    let off := base + 16 * k
    let e := leNat (s.shareRead f off 16)
    let i := seg e 0 16
    if f.shareSize < off + 16 || total ≤ i || 3 < seg e 16 8 || seg e 24 40 ≠ 0 then none
    else s.applyPatches f base total rest (ns.modify i fun n => n.patch (seg e 16 8) (bits e 64 64))

/-- The groups of a launch. -/
def State.groupsOf (s : State) (l : Nat) : List Grp := s.groups.filter fun g => g.launch = l

/-- W, the size of the scratch window of a node (R196). -/
def windowOf (scratch : Nat) : Nat := ((List.range 14).map fun k => 1024 * 2 ^ k).find? (fun w => scratch ≤ w) |>.getD 8388608

/-- The groups that a node yields (R384). -/
def groupsOfNode (l : Launch) (i : Nat) (n : Node) (id : Nat) : List Grp :=
  (List.range n.count).map fun k =>
    { id := id + k, ctx := l.ctx, launch := l.id, node := i, index := k, size := n.size, prio := n.prio, window := windowOf n.scratch }

/-- The machine with a launch replaced. -/
def State.setLaunch (s : State) (l : Launch) : State := { s with launches := s.launches.map fun x => if x.id = l.id then l else x }

/-- No further group of a launch starts (R383): it ends with a status and a node. -/
def State.stopLaunch (s : State) (l : Launch) (status : BitVec 8) (node : Nat) : State :=
  if l.ended then s
  else
    let s := s.setLaunch { l with ended := true, status := status, node := BitVec.ofNat 16 node }
    { s with groups := s.groups.filter fun (g : Grp) => !(g.launch = l.id && g.st = .ready) }

/-- A node becomes Ready (R382): refused where its channel map differs and it is not portable, else it yields its groups. -/
def State.readyNode (s : State) (id i : Nat) : State :=
  match s.launches.find? fun l => l.id = id with
  | none => s
  | some l =>
    match l.graph.nodes[i]? with
    | none => s
    | some n =>
      if l.ended || l.nodes[i]? ≠ some .blocked then s
      else if !n.portable && n.chmap ≠ s.mgmt.chmap then
        (s.setLaunch { l with nodes := l.nodes.set i .refused }).stopLaunch { l with nodes := l.nodes.set i .refused } 0x10 i
      else
        let s := s.setLaunch { l with nodes := l.nodes.set i .ready }
        { s with groups := s.groups ++ groupsOfNode l i n s.ids, ids := s.ids + n.count }

/-- Every node whose predecessors have completed becomes Ready, in order of index. -/
def State.readyNodes (s : State) (id : Nat) : State :=
  match s.launches.find? fun l => l.id = id with
  | none => s
  | some l =>
    let ok (i : Nat) : Bool :=
      match l.graph.nodes[i]? with
      | some n => n.preds.all fun p => l.nodes[p]? = some .completed
      | none => false
    ((List.range l.graph.nodes.length).filter ok).foldl (fun s i => s.readyNode id i) s

/-- A write of TRIGGER starts a launch, or is refused (R381); a launch runs until its vector has been raised (assumption logs 45 and 75). One
that a context takes while it is destroyed ends as destroyed (R363, R383). -/
def State.triggerWrite (s : State) (fn : Nat) (v : Word) : State :=
  let f := s.fnAt fn
  let tag : BitVec 32 := bits v.toNat 32 32
  let patches := seg v.toNat 8 16
  match f.ctx with
  | none => s.setStatus fn tag 0x11
  | some k =>
    match (s.ctxAt k).graphs.find? fun g => g.id = seg v.toNat 0 8 with
    | none => s.setStatus fn tag 0x11
    | some g =>
      if 16 ≤ (s.launches.filter fun l => l.ctx = k).length then s.setStatus fn tag 0x13
      else if 1024 < patches || f.patch.toNat % 16 ≠ 0 then s.setStatus fn tag 0x12
      else match s.applyPatches f f.patch.toNat g.nodes.length (List.range patches) g.nodes with
        | none => s.setStatus fn tag 0x12
        | some nodes =>
          let l : Launch :=
            { id := s.ids, ctx := k, fn := fn, tag := tag, graph := { g with nodes := nodes }
              nodes := List.replicate nodes.length .blocked }
          let s := { s with launches := s.launches ++ [l], ids := s.ids + 1 }
          let s := s.setStatus fn tag 0x01
          if (s.ctxAt k).st = .scrubbing then s.destroyLaunches k else s.readyNodes l.id

/-! ## Placement (R384-R387) -/

/-- The cores of a group's set. -/
def Grp.cores (g : Grp) : List Nat := (List.range (4 ^ g.size)).map (g.first + ·)

/-- The quads of an aligned set. -/
def quadsOfSet (first size : Nat) : List Nat := ((List.range (4 ^ size)).map fun k => (first + k) / 4).eraseDups

/-- A group holds its cores and windows. -/
def Grp.holds (g : Grp) : Bool := g.st = .running || g.st = .parking

/-- A core of a group. -/
def Grp.has (g : Grp) (n : Nat) : Bool := g.first ≤ n && n < g.first + 4 ^ g.size

/-- A core that a group can be placed on once what runs there has drained: no group holds it, it is not frozen, unless its group parks, and
its quad is not in retention. -/
def State.coreSoon (s : State) (parks : List Grp) (n : Nat) : Bool :=
  let c := s.coreAt n
  !(s.groups.any fun g => g.holds && g.has n) && (!c.freezing || (!c.held && parks.any fun g => g.has n)) && (s.quadAt (n / 4)).power ≠ .p2

/-- A core that a group can be placed on now. -/
def State.coreFree (s : State) (n : Nat) : Bool := s.coreSoon [] n && s.coreIdle n

/-- The lowest multiple of a window's size that is free in a quad (R386): a group that has ended keeps its window until what it issued has
performed (R484). -/
def State.freeWindow (s : State) (quad w : Nat) : Option Nat :=
  let used := s.groups.filterMap fun g => if g.holds || g.st = .ended then (smFind g.bases quad).map fun b => (b, g.window) else none
  ((List.range (8388608 / w)).map (· * w)).find? fun b => used.all fun u => b + w ≤ u.1 || u.1 + u.2 ≤ b

/-- The windows of a group on a set, if every quad can hold one. -/
def State.windowsOn (s : State) (first size w : Nat) : Option (SMap Nat) :=
  (quadsOfSet first size).foldr (fun q acc =>
    match acc, s.freeWindow q w with
    | some l, some b => some ((q, b) :: l)
    | _, _ => none) (some [])

/-- The lowest aligned set of cores that a test admits on which a group fits, with its windows. -/
def State.findSet (s : State) (g : Grp) (free : Nat → Bool) : Option (Nat × SMap Nat) :=
  (setsOf (s.ctxAt g.ctx).quads g.size).findSome? fun f =>
    if (List.range (4 ^ g.size)).all fun k => free (f + k) then (s.windowsOn f g.size g.window).map fun b => (f, b) else none

/-- One group comes before another in the order of R385, where priorities and turns are equal; a parked group keeps its launch order. -/
def launchBefore (a b : Grp) : Bool :=
  a.launch < b.launch || (a.launch = b.launch && (a.node < b.node || (a.node = b.node && a.index ≤ b.index)))

/-- One group comes before another (R385): by priority, among equals first one that is to take the set of a group parked at the end of its
quantum (R387; assumption log 82), then in launch order. -/
def groupBefore (a b : Grp) : Bool :=
  b.prio < a.prio || (a.prio = b.prio && ((a.next && !b.next) || (a.next = b.next && launchBefore a b)))

/-- A group into its place. -/
def groupInsert (g : Grp) : List Grp → List Grp
  | [] => [g]
  | h :: t => if groupBefore g h then g :: h :: t else h :: groupInsert g t

/-- The groups to be placed, in order: those Ready and those parked, of contexts whose groups run (R360). -/
def State.waitingGroups (s : State) : List Grp :=
  let l := s.groups.filter fun g =>
    (g.st = .ready || g.st = .parked) && ((s.ctxAt g.ctx).st = .running || (s.ctxAt g.ctx).st = .frozen)
  l.foldr groupInsert []

/-- GROUPINFO of a member (R389). -/
def Grp.info (g : Grp) (count rank : Nat) : Word :=
  fields [(0, rank), (14, g.prio), (17, g.size), (20, g.node), (32, count), (48, g.index)]

/-- A group with its set and windows, running. -/
def Grp.placeAt (g : Grp) (s : State) (first : Nat) (bases : SMap Nat) : Grp :=
  { g with
    st := .running, next := false, first := first, bases := bases, placed := s.ids, quantum := s.time, saved := [], spads := []
    barriers := if g.st = .ready then [] else g.barriers }

/-- Bytes of a quad's scratchpad in a range. -/
def spadRange (m : Memory) (base w : Nat) : Memory := m.filter fun c => base ≤ c.1 && c.1 < base + w

/-- The scratchpad with a range replaced by bytes counted from the range's start. -/
def spadReplace (m : Memory) (base w : Nat) (bytes : Memory) : Memory :=
  m.filter (fun c => c.1 < base) ++ bytes.map (fun c => (base + c.1, c.2)) ++ m.filter fun c => base + w ≤ c.1

/-- The windows of a placed group take contents. -/
def State.fillWindows (s : State) (g : Grp) (contents : List Memory) : State :=
  (g.bases.zipIdx).foldl (fun s b =>
    let q := s.quadAt b.1.1
    s.setQuad b.1.1 { q with spad := spadReplace q.spad b.1.2 g.window (contents.getD b.2 []) }) s

/-- A group is placed for the first time (R385, R481): its windows are zero, its cores take the group-start state. The address that
x1 holds is a free value, even. -/
def State.startGroup (s : State) (g : Grp) (n : Node) : State :=
  let (e, s) := s.free
  let exit := e &&& ~~~1#64
  let cap := s.policyScope g.ctx
  let start (s : State) (rank : Nat) : State :=
    let c := (s.coreAt (g.first + rank)).groupStart n.code exit (BitVec.ofNat 64 g.index) n.params n.supr .running
    s.setCoreAt (g.first + rank) { c with
      sq.ctxid := BitVec.ofNat 6 g.ctx, sq.maxscope := cap, counts.groupinfo := g.info n.count rank }
  (List.range (4 ^ g.size)).foldl start (s.fillWindows g [])

/-- A block address that refers to the old window follows the group to the new one (R386). -/
def moveRef (oldBase newBase w : Nat) (a : Word) : Word :=
  let o := a.toNat % 2 ^ 23
  if spadRef a && oldBase ≤ o && o < oldBase + w then BitVec.ofNat 64 (0xA * 2 ^ 60 + (o - oldBase + newBase)) else a

/-- The entries of an engine follow the group's window; what the entry that runs has fetched stays (R333, R338). -/
def Eng.moveWindow (g : Eng) (f : Word → Word) : Eng :=
  { g with
    q := g.q.map fun x => match x with | .entry e => .entry { e with addr := f e.addr } | .marker => .marker
    efBlk := f g.efBlk }

/-- A parked core is put back on a core: counters stay with the core it takes, and the translations are made anew. -/
def Core.putBack (saved phys : Core) (f : Word → Word) : Core :=
  { saved with
    ae := saved.ae.moveWindow f, ve := saved.ve.moveWindow f, me := saved.me.moveWindow f, ce := saved.ce.moveWindow f
    xe := saved.xe.moveWindow f
    sq.mtrap := phys.sq.mtrap, sq.tlb := phys.sq.tlb, sq.ctxid := phys.sq.ctxid
    stream := phys.stream, ahead := phys.ahead, aeWheel := phys.aeWheel, ceWheel := phys.ceWheel, freezing := false, frozen := false, held := false
    counts := { phys.counts with
      tintAllocs := saved.counts.tintAllocs, tintSelGran := saved.counts.tintSelGran, tintSelGroup := saved.counts.tintSelGroup
      groupinfo := saved.counts.groupinfo, barScope := saved.counts.barScope, barId := saved.counts.barId
      tintStamp := saved.stamp } }

/-- A parked group is placed again (R386, R399): its cores and windows take back what was saved. -/
def State.resumeGroup (s : State) (old g : Grp) : State :=
  let s := s.fillWindows g old.spads
  let back (s : State) (x : Core × Nat) : State :=
    let n := g.first + x.2
    let f := moveRef (smGet old.bases ((old.first + x.2) / 4) 0) (smGet g.bases (n / 4) 0) g.window
    let c := x.1.putBack (s.coreAt n) f
    let cur := s.cur
    let s := (s.setCoreAt n c).focus n
    let (hosts, s) := State.rehostAll c.hosting s
    { s with core.hosting := hosts, core.sq.maxscope := s.policyScope g.ctx }.focus cur
  old.saved.zipIdx.foldl back s

/-- A group is placed on a set. -/
def State.placeGroup (s : State) (g : Grp) (first : Nat) (bases : SMap Nat) : State :=
  let placed := g.placeAt s first bases
  let s := { s with groups := s.groups.map (fun (h : Grp) => if h.id = g.id then placed else h), ids := s.ids + 1 }
  if g.st = .parked then s.resumeGroup g placed
  else match s.launches.find? fun l => l.id = g.launch with
    | none => s
    | some l => s.startGroup placed (l.graph.nodes.getD g.node {})

/-- A running group begins to park: every core of it freezes (R387, R388). -/
def State.beginPark (s : State) (g : Grp) : State :=
  (g.cores.foldl State.stopCore s).setGroup { g with st := .parking }

/-- A group all of whose cores have frozen is parked: its cores and windows are saved and freed, and a core that the manager holds stays
frozen (R360). -/
def State.endPark (s : State) (g : Grp) : State :=
  if g.st = .parking && g.cores.all (fun n => s.drainedCore n && (s.coreAt n).sq.run ≠ .doubleTrap) then
    let stamp (n : Nat) : Word := BitVec.ofNat 64 (n * 2 ^ 56 + s.time.toNat % 2 ^ 56)
    let saved := g.cores.map fun n => { s.coreAt n with stamp := stamp n }
    let spads := g.bases.map fun b => (spadRange (s.quadAt b.1).spad b.2 g.window).map fun c => (c.1 - b.2, c.2)
    let s := s.setGroup { g with st := .parked, saved := saved, spads := spads }
    let free (s : State) (n : Nat) : State :=
      let c := s.coreAt n
      s.setCoreAt n { c with freezing := c.held, frozen := c.held && c.frozen, sq.run := .failed }
    g.cores.foldl free s
  else s

/-- The Running group that a Ready one of higher priority parks: the lowest priority, the most recently placed among equals. A
group with a frozen core is not parked. -/
def State.victimFor (s : State) (g : Grp) : Option Grp :=
  let l := s.groups.filter fun h => h.ctx = g.ctx && h.st = .running && h.prio < g.prio && h.cores.all fun n => !(s.coreAt n).freezing
  l.foldl (fun best h => match best with
    | none => some h
    | some b => if h.prio < b.prio || (h.prio = b.prio && b.placed < h.placed) then some h else some b) none

/-- A group that has ended is listed no more once everything that its cores had issued has performed. -/
def State.dropEnded (s : State) : State :=
  { s with groups := s.groups.filter fun (g : Grp) => !(g.st = .ended && g.cores.all s.coreIdle) }

/-- The groups without one. -/
def State.withoutGroup (s : State) (id : Nat) : State := { s with groups := s.groups.filter fun (h : Grp) => h.id ≠ id }

/-- The machine once the groups that park now have left and the groups `taken` have their sets. -/
def State.soonWith (s : State) (taken : List Grp) : State :=
  { s with groups := s.groups.filter (fun (g : Grp) => g.st ≠ .parking) ++ taken }

/-- The running groups that a waiting one parks, in order, and the set and windows that it then takes; none where it would not fit if every
group that it outranks left (assumption log 82). -/
def State.victims (g : Grp) : Nat → State → List Grp → Option (List Grp × Nat × SMap Nat)
  | 0, _, _ => none
  | n + 1, soon, parks =>
    match soon.victimFor g with
    | none => none
    | some v =>
      let soon := soon.withoutGroup v.id
      match soon.findSet g (soon.coreSoon (v :: parks)) with
      | some (f, b) => some ([v], f, b)
      | none => (State.victims g n soon (v :: parks)).map fun r => (v :: r.1, r.2)

/-- The groups waiting are considered in order: the first that fits is placed, on a set that no group considered before is to take. One that
does not fit, even where the groups that park now have left, and that outranks running groups, parks as many of them as it needs at once
(R387). `taken` are the groups considered before with the sets that they are to take. -/
def State.considerGroups (s : State) (taken : List Grp) : List Grp → State
  | [] => s
  | g :: rest =>
    let now := { s with groups := s.groups ++ taken }
    match now.findSet g now.coreFree with
    | some (f, b) => s.placeGroup g f b
    | none =>
      let parks := s.groups.filter fun h => h.st = .parking
      let soon := s.soonWith taken
      match soon.findSet g (soon.coreSoon parks) with
      | some (f, b) => s.considerGroups (taken ++ [{ g with st := .running, first := f, bases := b }]) rest
      | none =>
        match State.victims g s.groups.length soon parks with
        | some (vs, f, b) =>
          (vs.foldl State.beginPark s).considerGroups (taken ++ [{ g with st := .running, first := f, bases := b }]) rest
        | none => s.considerGroups taken rest

/-- The scheduler's step: parks that can end do, then a group is placed or groups begin to park. Nothing is placed while the compute dies are
held. -/
def State.schedulerStep (s : State) : State :=
  if s.held then s
  else
    let s := (s.groups.foldl State.endPark s).dropEnded
    s.considerGroups [] s.waitingGroups

/-- A quantum in cycles (R387). -/
def quantumCycles : Nat := 1200000

/-- The end of a group's quantum (R387): it parks if a waiting group of its priority and context fits its set, and the first such group is next
there; else a new quantum begins. -/
def State.quantumEnd (s : State) (id : Nat) : State :=
  match s.groups.find? fun g => g.id = id && g.st = .running with
  | none => s
  | some g =>
    if s.time.toNat < g.quantum.toNat + quantumCycles || g.cores.any (fun n => (s.coreAt n).freezing) then s
    else
      let without := s.withoutGroup id
      let inside (n : Nat) : Bool := g.has n && without.coreSoon [] n
      match s.waitingGroups.find? fun h => h.ctx = g.ctx && h.prio = g.prio && (without.findSet h inside).isSome with
      | some h => (s.beginPark g).setGroup { h with next := true }
      | none => s.setGroup { g with quantum := s.time }

/-! ## The end of groups and launches (R383, R384, R482, R484) -/

/-- A node completes once none of its groups is left, and its successors may become Ready (R382). -/
def State.nodeProgress (s : State) (id node : Nat) : State :=
  if s.groups.any fun g => g.launch = id && g.node = node && g.st ≠ .ended then s
  else match s.launches.find? fun l => l.id = id with
    | none => s
    | some l =>
      if l.nodes[node]? = some .ready then (s.setLaunch { l with nodes := l.nodes.set node .completed }).readyNodes id else s

/-- A group has ended: its barriers are discarded (R400), and its windows are released. It is listed, with its windows, until everything that it
had issued has performed (R383, R484). -/
def State.endGroup (s : State) (g : Grp) : State :=
  (s.setGroup { g with st := .ended, barriers := [] }).dropEnded

/-- A group all of whose cores have exited is Done. -/
def State.groupProgress (s : State) (g : Grp) : State :=
  if g.st = .running && g.cores.all fun n => (s.coreAt n).sq.run = .exited then
    let s := s.endGroup g
    let s := { s with
      launches := s.launches.map fun (l : Launch) => if l.id = g.launch then { l with done := l.done + 1 } else l }
    s.nodeProgress g.launch g.node
  else s

/-- A core that exits leaves every barrier of its group: its pending arrival is withdrawn, and the barrier trips where the arrivals of
the members that remain now equal their number (R393, R395). -/
def State.leaveBarriers (s : State) (g : Grp) (rank : Nat) : State :=
  let leave (x : Nat × Barrier) : Nat × Barrier :=
    let scope := x.1 / 32 % 8
    if barKey scope rank (x.1 % 32) ≠ x.1 then x
    else
      (x.1, Barrier.complete { x.2 with arrived := x.2.arrived.filter (· ≠ rank) } (s.members g scope rank).length (s.alone scope))
  let bars := g.barriers.map leave
  (g.barriers.zip bars).foldl (fun s x => s.announce g (x.1.1 % 32) x.1.2 x.2.2) (s.setGroup { g with barriers := bars })

/-- The exit wait of a core whose pc is at its exit address (R482): an open region is closed at a resolution point, and the core has
exited when no entry is left in its queues and no RENQ waits for a slot. -/
def State.exitWait (s : State) : State :=
  if s.core.sq.spec.act then
    if s.core.sq.spec.checks.isEmpty then { s.releaseHeld with core.sq.spec.act := false }
    else s.waitOn s.checkEngines
  else
    let busy := engines.filter fun e => (s.eng e).q.any (fun x => x ≠ .marker) || !(s.eng e).waiters.isEmpty
    if busy.isEmpty then
      let s := { s with core.sq.run := .exited }
      match s.groupOf s.cur with
      | some g => (s.leaveBarriers g (s.cur - g.first)).groupProgress g
      | none => s
    else s.waitOn engines

/-- A group of the pod job has failed: the other packages are told (R400). -/
def State.podFail (s : State) (g : Grp) : State :=
  if some g.ctx = s.mgmt.podCtx && s.mgmt.barpod ≠ 1 then s.emit (.podFailed g.id) else s

/-- The group of a core that a double trap stopped fails (R373, R484). Its other cores run on until all that the trapped core had issued has
performed and it is saved; then they freeze, nothing of the group issues any more, and its launch ends as failed. What they had issued
performs. -/
def State.groupFail (s : State) (core : Nat) : State :=
  match s.groups.find? fun g => g.holds && g.has core with
  | none => s
  | some g =>
    if (s.coreAt core).sq.run ≠ .doubleTrap || !s.drainedCore core then s
    else
      let s := { s with saves := smSet s.saves core (s.coreAt core) }
      let s := g.cores.foldl State.stopCore s
      let stop (s : State) (n : Nat) : State :=
        let c := s.coreAt n
        s.setCoreAt n { c with freezing := c.held, frozen := c.held && c.frozen, sq.run := .failed }
      let s := (g.cores.foldl stop s).endGroup g
      let s := (s.noteResumed core).podFail g
      match s.launches.find? fun l => l.id = g.launch with
      | none => s
      | some l => s.stopLaunch l 0x20 g.node

/-- A launch can end (R383): every node has completed, or it has been stopped, and no group that started is left. The groups of a context that
is destroyed end with its cores' freeze (R363), and with them its launches, those that had been stopped before among them. -/
def State.launchOver (s : State) (l : Launch) : Bool :=
  if (s.ctxAt l.ctx).st = .scrubbing then (s.ctxAt l.ctx).cores.all fun n => (s.coreAt n).frozen
  else (s.groupsOf l.id).isEmpty && (l.ended || l.nodes.all (· = .completed))

/-- The completion record (R383). -/
def State.recordOf (s : State) (l : Launch) : List Byte :=
  leBytes 4 l.tag.toNat ++ leBytes 1 l.graph.id ++ leBytes 1 l.status.toNat ++ leBytes 2 l.node.toNat ++ leBytes 8 s.time.toNat ++
    leBytes 4 l.done ++ List.replicate 12 0

/-- A store of the scheduler, in its world (R464), for a context at U: it walks afresh, does not park, and keeps no translation (R383). -/
def State.walkOnce (s : State) (ctx : Nat) (va : Word) : Trans :=
  let k : Kind := { write := true }
  let c := BitVec.ofNat 6 ctx
  let secure := s.mgmt.worldu.getLsbD 0
  if !canonical va then .fault .pageWrite s
  else
    let w := s.walkCtx ctx secure va
    if seg w.entry 0 1 = 0 || w.bad then .fault .pageWrite s
    else if seg w.entry 2 1 = 1 && seg w.entry 3 1 = 1 then .fault .permWx s
    else
      let (e, s) := s.classify none false w
      s.finish { stream := some 0, priv := 0, unitSecure := secure } k va.toNat (tlbOf c va.toNat w.addr w.level e)

/-- The scheduler ends a launch: once every access of its groups has performed at .sys, posted writes to the host included, the
record is written, or is lost with RECORD_LOST. -/
def State.launchEnd (s : State) (id : Nat) : State :=
  match s.launches.find? fun l => l.id = id with
  | none => s
  | some l =>
    if l.raising || !s.launchOver l || !s.store.posted.isEmpty then s
    else
      let bs := s.recordOf l
      match s.walkOnce l.ctx l.graph.record with
      | .ok pa t s =>
        let s := s.storeAcc [] .home t pa bs
        s.setLaunch { l with raising := true, recAt := if isHost pa then some (pa - 0x800000000000) else none }
      | .fault _ s | .park _ s => (s.setLaunch { l with raising := true }).setStatus l.fn l.tag 0x15

/-- Once the record has performed, the function's vector is raised and the launch is over. -/
def State.raiseVector (s : State) (id : Nat) : State :=
  match s.launches.find? fun l => l.id = id with
  | none => s
  | some l =>
    let onWay : Bool := match l.recAt with | some a => s.store.posted.any fun p => p.1 = a | none => false
    if l.raising && !onWay then
      { s with irqs := s.irqs ++ [(l.fn, l.graph.vector)], launches := s.launches.filter fun (x : Launch) => x.id ≠ id
               groups := s.groups.filter fun (g : Grp) => g.launch ≠ id }
    else s

/-! ## The host's accesses to a launch page (R379, R475, R476) -/

/-- The host's access does not complete. -/
def State.unsupported (s : State) (fn : Nat) : State := s.emit (.hostUnsupported fn)

/-- An access of BAR0 lies in the dword that answers in minimal mode (R475). -/
def inBootcause (fn off n : Nat) : Bool := fn = 0 && 0x800 ≤ off && off + n ≤ 0x808

/-- A host write through BAR0 (R475, R476): only aligned 8-byte accesses reach the registers, and while the machine is held none does. -/
def State.bar0Write (s : State) (fn off : Nat) (bs : List Byte) : State :=
  let f := s.fnAt fn
  let v := BitVec.ofNat 64 (leNat bs)
  if s.held then if s.mgmt.minimal && inBootcause fn off bs.length then s else s.unsupported fn
  else if 2 ^ 25 < off + bs.length then s.unsupported fn
  else if off < 0x28 then
    if bs.length ≠ 8 || off % 8 ≠ 0 then s.unsupported fn
    else match off / 8 with
      | 0 => s.setFn fn { f with patch := BitVec.ofNat 64 (leNat bs % 2 ^ 24) }
      | 1 => s.triggerWrite fn v
      | 3 => s.graphWrite fn v
      | 4 => s.setFn fn { f with apbase := BitVec.ofNat 64 (seg (leNat bs) 16 40 * 2 ^ 16) }
      | _ => s
  else if off < 0x1000 then s
  else
    let part := bs.take (0x1000 + f.shareSize - off)
    { s with store.sched := writeBytes s.store.sched (f.shbase.toNat * 65536 + (off - 0x1000)) part }

/-- A byte of BAR0 as the host reads it (R379, R475): TRIGGER and GRAPHADDR read zero, as write-only fields do (R8). -/
def State.bar0Byte (s : State) (fn o : Nat) : Byte :=
  let f := s.fnAt fn
  let of (v : Word) : Byte := bits v.toNat (8 * (o % 8)) 8
  match o / 8 with
  | 0 => of f.patch
  | 2 => of f.lstatus
  | 4 => of f.apbase
  | 0x100 => if fn = 0 then of s.bootcause else 0
  | _ => if 0x1000 ≤ o && o < 0x1000 + f.shareSize then memRead s.store.sched (f.shbase.toNat * 65536 + (o - 0x1000)) else 0

/-- A host read of BAR0 (R475, R476). -/
def State.bar0Read (s : State) (fn off n : Nat) : State :=
  let answer := s.emit (.hostData fn ((List.range n).map fun k => s.bar0Byte fn (off + k)) false)
  if s.held then if s.mgmt.minimal && inBootcause fn off n then answer else s.unsupported fn
  else if 2 ^ 25 < off + n || (off < 0x28 && (n ≠ 8 || off % 8 ≠ 0)) then s.unsupported fn
  else answer

/-! ## The events -/

/-- GRAPHADDR_WRITE: it does not complete while the machine is held (R462, R475). -/
def execGraphaddrWrite (fn : BitVec 6) (v : Word) (s : State) : Out :=
  .next (if s.held then s.unsupported fn.toNat else s.graphWrite fn.toNat v)

def execTriggerWrite (fn : BitVec 6) (v : Word) (s : State) : Out :=
  .next (if s.held then s.unsupported fn.toNat else s.triggerWrite fn.toNat v)

/-- LAUNCH_REGISTER_WRITE, or a read of BAR0: the answer of a read follows every posted write of the device on the host link (R295). -/
def execLaunchRegisterWrite (fn : BitVec 6) (off : Nat) (act : BarAccess) (s : State) : Out :=
  match act with
  | .write data => .next (s.bar0Write fn.toNat off data)
  | .read n =>
    if s.store.posted.isEmpty then .next (s.bar0Read fn.toNat off n)
    else .next { s with schedule := s.schedule ++ [.due s.cur .hostLinkCompletion, .due s.cur (.launchRegisterRead fn off n)] }

def execGroupPlace (s : State) : Out := .next s.schedulerStep

def execQuantumExpiry (group : Nat) (s : State) : Out := .next (s.quantumEnd group)

/-- CORE_EXIT of the core in focus. -/
def execCoreExit (s : State) : Out :=
  .next (if s.cur < 256 && s.core.sq.run = .running && !s.core.halted && s.core.sq.pc = s.core.sq.exitAddr then s.exitWait else s)

def execGroupFail (core : BitVec 8) (s : State) : Out := .next (s.groupFail core.toNat)

def execLaunchEnd (launch : Nat) (s : State) : Out := .next (s.launchEnd launch)

def execCompletionInterrupt (launch : Nat) (s : State) : Out := .next (s.raiseVector launch)

end Sys2Proof.Machine
end

