-- ==== Sys2Proof/Machine/Link.lean ====
section
/-! DEFINITION. The ports of the Trikin Link: their states, flits and replays, and what follows when a device can no longer be
reached (R441-R444). -/

namespace Sys2Proof.Machine

/-! ## Devices lost (R443, R394) -/

/-- After a port or the routes have changed, devices that were reachable and are no longer: words in flight toward them stop with QUEUE_TARGET, and
the pod barriers of the job trip with ABORT. `was` is the machine before the change. -/
def State.lost (s was : State) : State :=
  let dead (d : Nat) : Bool := was.reachable d && !s.reachable d
  if (was.mgmt.route ++ s.mgmt.route).any fun r => dead r.1 then
    { s with
      core := s.core.loseRemote dead
      others := s.others.map fun c => (c.1, c.2.loseRemote dead)
      groups := s.groups.map fun g => if some g.ctx = s.mgmt.podCtx && g.st ≠ .ready && g.st ≠ .ended then g.abortPod else g }
  else s

/-- The request of a core that went out on a port which no longer carries traffic is sent again on the port that now does (R443). -/
def State.resend (s : State) (n : Nat) : State :=
  let c := s.coreAt n
  match c.remote with
  | none => s
  | some r =>
    if (s.port r.port).carries then s
    else match s.portFor r.dev.toNat with
      | none => s
      | some k =>
        let s := s.setCoreAt n { c with remote := some { r with port := k } }
        s.sendFlit k r.dev.toNat (r.cargo n)

/-- The answers that went out on a port which no longer carries traffic go out again on the port that now does (R443). -/
def State.resendAnswers (s : State) : State :=
  s.mgmt.owed.foldl (fun s x =>
    if (s.port x.1).carries then s
    else match s.portFor x.2.dev with
      | some k => s.usePort x.2.dev k
      | none => s) s

/-- Requests and answers on a port that no longer carries traffic go out again on the port that now does, and answers that wait are sent. -/
def State.rerouted (s : State) : State := (s.cores.foldl (fun s c => s.resend c.1) s).resendAnswers.sendAnswers

/-- A fitted port is changed (R3, R441): devices may be lost, requests and answers on it go out again on another port, and answers that wait are
sent. -/
def State.changePort (s : State) (k : Nat) (f : Port → Port) : State :=
  if s.fitted k then
    ((s.setPort k (f (s.port k))).lost s).rerouted
  else s

/-! ## The states of a port (R441) -/

/-- The manager starts a port: DOWN to TRAIN. -/
def Port.start (p : Port) : Port := if p.st = .down then { p with st := .train, failures := 0 } else p

/-- The manager stops a port; a retired one stays so until the next start. -/
def Port.stop (p : Port) : Port := if p.st = .retired then p else { p with st := .down }

/-- A lane fails: a port that carries traffic trains again. -/
def Port.laneLost (p : Port) : Port := if p.carries then { p with st := .train } else p

/-- Training ends with a number of good lanes: UP, DEGRADED, or a failure, the third of which in a row retires the port. -/
def Port.trained (p : Port) (lanes : Nat) (peer : BitVec 10) : Port :=
  if p.st ≠ .train then p
  else if lanes = 4 then { p with st := .up, failures := 0, peer := peer }
  else if lanes = 2 ∨ lanes = 3 then { p with st := .degraded, failures := 0, peer := peer }
  else if p.failures + 1 = 3 then { p with st := .retired, failures := 3 }
  else { p with failures := p.failures + 1 }

/-- MEVENT bit 2 when a port retires (R469). -/
def State.noteRetired (s was : State) (k : Nat) : State :=
  if (s.port k).st = .retired && (was.port k).st ≠ .retired then { s with mgmt.mevent := s.mgmt.mevent ||| 4 } else s

/-- LINKCTL and the events: start and stop a port. No port starts while the links are held (R462). -/
def State.linkStart (s : State) (k : Nat) : State := if s.held then s else s.changePort k Port.start

def State.linkStop (s : State) (k : Nat) : State := s.changePort k Port.stop

/-! ## Flits (R442) -/

/-- A flit passes its CRC, and its KIND is not reserved. -/
def flitGood (bs : List Byte) : Bool :=
  bs.length = 256 && crc32 (bs.take 252) = leNat (bs.drop 252) && seg (leNat (bs.take 8)) 32 4 ≤ 8

/-- SEQ of a flit. -/
def flitSeq (bs : List Byte) : Nat := seg (leNat (bs.take 8)) 20 12

/-- What a flit to a device brings it: nothing where it is idle, or to another device. -/
def flitTaken (dev : Nat) (bs : List Byte) : List Taken :=
  let h := leNat (bs.take 8)
  if seg h 32 4 = 0 || seg h 54 10 ≠ dev then []
  else [{ seq := flitSeq bs, src := seg h 44 10, core := seg h 36 8, kind := seg h 32 4, cls := seg h 16 4, tag := seg h 0 8
          payload := (bs.drop 8).take (min (seg h 8 8) 244) }]

/-- What a replay request carries: the SEQ that it names. -/
def replayCargo (seq : Nat) : Cargo := { core := 0, kind := 7, va := BitVec.ofNat 64 seq }

/-- A port that carries traffic receives a flit: a bad one is discarded, a replay request naming the SEQ expected is sent, and every later
one is discarded until that SEQ comes again; a duplicate is discarded; else the next SEQ is expected, and what the flit carries can take
effect. FECCORR counts corrected codewords. -/
def State.receiveFlit (s : State) (k : Nat) (bs : List Byte) (corrected : Nat) : State :=
  let p := s.port k
  if !p.carries then s
  else
    let p := { p with feccorr := sat16 p.feccorr corrected }
    if !flitGood bs then (s.setPort k p).putFlit k p.peer.toNat (replayCargo p.expect)
    else if flitSeq bs = p.expect then
      s.setPort k { p with expect := (p.expect + 1) % 4096, taken := p.taken ++ flitTaken s.mgmt.device.toNat bs }
    else s.setPort k p

/-- A sender resends its kept flits from a SEQ on, in order: REPLAY counts them, and the sixteenth replay of one flit makes the port
train again (R441). -/
def State.replayFrom (s : State) (k seq : Nat) : State :=
  let p := s.port k
  if !p.carries then s
  else
    let old := p.kept.takeWhile fun f => f.seq ≠ seq
    let again := (p.kept.dropWhile fun f => f.seq ≠ seq).map fun f => { f with replays := f.replays + 1 }
    let s := again.foldl (fun s f => s.emit (.flit k f.seq f.data)) s
    let p := { p with kept := old ++ again, replay := sat16 p.replay again.length }
    let limit := again.any fun f => 16 ≤ f.replays
    if limit then s.changePort k fun _ => { p with st := .train, kept := p.kept.map fun f => { f with replays := 0 } }
    else s.setPort k p

/-! ## The events -/

def execFlitReceive (port : BitVec 4) (flit : List (BitVec 8)) (corrected : Nat) (s : State) : Out :=
  .next (if s.fitted port.toNat then s.receiveFlit port.toNat flit corrected else s)

/-- REPLAY_REQUEST: a flit that the port has received asks for it. -/
def execReplayRequest (port : BitVec 4) (seq : BitVec 12) (s : State) : Out :=
  let asks (x : Taken) : Bool := x.kind = 7 && x.payload = (replayCargo seq.toNat).payload
  let p := s.port port.toNat
  .next (if s.fitted port.toNat && p.taken.any asks then
    (s.setPort port.toNat { p with taken := p.taken.eraseP asks }).replayFrom port.toNat seq.toNat
  else s)

def execLaneFailure (port : BitVec 4) (s : State) : Out := .next (s.changePort port.toNat Port.laneLost)

def execTrainComplete (port : BitVec 4) (lanes : BitVec 3) (peer : BitVec 10) (s : State) : Out :=
  .next ((s.changePort port.toNat fun p => p.trained lanes.toNat peer).noteRetired s port.toNat)

def execLinkStart (port : BitVec 4) (s : State) : Out := .next (s.linkStart port.toNat)

def execLinkStop (port : BitVec 4) (s : State) : Out := .next (s.linkStop port.toNat)

/-- A record whose write the host link reports as failed is lost (R383). -/
def State.recordLost (s : State) (a : Nat) : State :=
  match s.launches.find? fun l => l.raising && l.recAt = some a with
  | none => s
  | some l => (s.setLaunch { l with recAt := none }).setStatus l.fn l.tag 0x15

/-- HOST_LINK_COMPLETION (R295): the oldest posted write reaches host memory, or the link reports an error for it. A read or an AtomicOp
that waits behind the posted writes performs in its unit's next turn. -/
def execHostLinkCompletion (ok : Bool) (s : State) : Out :=
  match s.store.posted with
  | [] => .next s
  | (a, bs) :: rest =>
    let s := { s with store.posted := rest }
    .next (if ok then { s with store.host := writeBytes s.store.host a bs } else s.recordLost a)

end Sys2Proof.Machine
end

