-- ==== Sys2Proof/Machine/Start.lean ====
section
/-! DEFINITION. Start, worlds, debug state, power, attestation, policies and the pod job (R432, R458-R471, R480), and the host's memory
aperture (R475-R477). -/

namespace Sys2Proof.Machine

/-! ## The start sequence (R460-R463) -/

/-- The quads after self-test (R236): columns remapped are counted, and a plate that would need more than 32 is not available. PLSPARE of such a
plate stays 0 (assumption log 46). Which plates a quad has is as manufacture set it (R1). -/
def State.bootQuads (s : State) (stuck : List (Nat × Nat × Nat)) : SMap Quad :=
  stuck.foldl (fun qs x =>
    let q := smGet qs x.1 (Quad.fresh (s.madePlates x.1))
    let off : BitVec 16 := ~~~(1#16 <<< x.2.1)
    let q' := if 32 < x.2.2 then { q with avail := q.avail &&& off, plmask := q.plmask &&& off }
      else { q with spare := q.spare.setIfInBounds x.2.1 (BitVec.ofNat 6 x.2.2) }
    if x.1 < 64 && x.2.1 < 16 then smSet qs x.1 q' else qs) []

/-- The number of live channels in a live list. -/
def liveCount (live : Vector Word 8) : Nat := ((List.range 512).filter fun c => (live.getD (c / 64) 0).getLsbD (c % 64)).length

/-! ### What the ROM checks (R461) -/

/-- The owner record stands: both Walilacon keys have signed it. -/
def ownerOk (b : Boot) : Bool :=
  Config.rsaPss Config.anchorRsa b.owner b.ownerSigRsa && Config.slhDsa Config.anchorSlh b.owner b.ownerSigSlh

/-- The LASTERR code with which the ROM rejects a fetched image, or 0 (R461, R463): it verifies under both schemes with the owner's keys,
and its version is at least the record's minimum. -/
def imageErr (b : Boot) : BitVec 8 :=
  match Config.imageVersion b.image with
  | none => 3
  | some v =>
    if !Config.rsaPss (Config.ownerRsa b.owner) b.image b.imageSigRsa then 4
    else if !Config.slhDsa (Config.ownerSlh b.owner) b.image b.imageSigSlh then 5
    else if v < Config.ownerMinimum b.owner then 7
    else 0

/-- The LASTERR code of a start, or 0 where it completes, in the order of R460's steps: the owner record, the self-test, the fetch of the
image, the image. -/
def bootErr (b : Boot) : BitVec 8 :=
  if !ownerOk b then 6 else if b.selfTest then 8 else if b.fetch ≠ 0 then b.fetch.setWidth 8 else imageErr b

/-- The debug token stands (R465): it names this device's DICE identity, and the owner's two keys have signed it. -/
def tokenOk (b : Boot) : Bool :=
  Config.tokenIdentity b.token = Config.identity Config.deviceSecret &&
    Config.rsaPss (Config.ownerRsa b.owner) b.token b.tokenSigRsa && Config.slhDsa (Config.ownerSlh b.owner) b.token b.tokenSigSlh

/-- The debug state that a start sets (R465): full debug takes a token, and without one debug stays off (assumption log 72). -/
def bootDebug (b : Boot) : BitVec 2 := if b.debug = 3 || (b.debug = 2 && !tokenOk b) then 0 else b.debug

/-- The LASTERR code of a retry of steps 4 and 5 (R462). -/
def retryErr (b : Boot) : BitVec 8 := if b.fetch ≠ 0 then b.fetch.setWidth 8 else imageErr b

/-! ### The machine after a start -/

/-- The state of a machine that has been reset by a start, with what the self-test found: what is outside the package, and what is wired,
stays. The manager cores run at M; where they fetch, and where their own tables stand, is open (assumption log 9). -/
def State.restarted (s : State) (src : BitVec 8) (live : Vector Word 8) (stuck : List (Nat × Nat × Nat)) : State :=
  let (pc, s) := s.free
  let (root, s) := s.free
  { State.reset with
    big := s.big, made := s.made, schedule := s.schedule, freeN := s.freeN, out := s.out, irqs := s.irqs
    others := managers (pc &&& ~~~1#64)
    store := { host := s.store.host }
    quads := s.bootQuads stuck
    mgmt := { root := ptbaseField root, chlive := live, chmap := BitVec.ofNat 64 (liveCount live), resetSrc := src, lastErr := s.mgmt.lastErr } }

/-- The image starts the Trikin Link ports (R460): a turn for each that is fitted. -/
def State.portStarts (s : State) : List Turn :=
  ((List.range 16).filter s.fitted).map fun k => .due 0 (.linkStart (BitVec.ofNat 4 k))

/-- The machine that a completed start leaves: everything at its reset value, with what the start found and the image assigned. The image
stands in the manager's SRAM, and the ports start next. -/
def State.started (s : State) (src : BitVec 8) (b : Boot) : State :=
  let t := s.restarted src (tabulate 8 fun k => b.live.getD k 0) b.stuck
  { t with
    schedule := t.portStarts ++ t.schedule
    store.sram := writeBytes [] 0 (b.image.take (2 ^ 23))
    mgmt := { t.mgmt with
      worldq := b.worldq, worldr := b.worldr, worldu := BitVec.ofNat 64 (b.worldu.toNat % 2 ^ 22)
      debugst := zext64 (bootDebug b)
      fullDebug := bootDebug b = 2, image := b.image, owner := b.owner } }

/-- The machine whose start has failed or that stands in minimal mode: no context, no group, every unit at its reset value, the compute dies
and the links held. -/
def State.notStarted (s : State) (src : BitVec 8) (fails : Nat) (err : BitVec 8) (minimal : Bool) : State :=
  let t := s.restarted src (Vector.replicate 8 0) []
  { t with mgmt := { t.mgmt with
      startOk := false, failedStarts := fails, lastErr := if err = 0 then s.mgmt.lastErr else err, minimal := minimal } }

/-- A start attempt (R460, R462): the count of failed starts rises when it begins; one whose count reaches 3 enters minimal mode; one
that completes clears the count. -/
def State.startAttempt (s : State) (src : BitVec 8) (b : Boot) : State :=
  let n := min (s.mgmt.failedStarts + 1) 255
  if 3 ≤ n then s.notStarted src n (bootErr b) true
  else if bootErr b = 0 then s.started src b
  else s.notStarted src n (bootErr b) false

/-- In minimal mode the manager fetches and verifies an image again; one that verifies leaves it through a full start; else the cause of the
failure is kept (R462). -/
def State.minimalRetry (s : State) (b : Boot) : State :=
  if !s.mgmt.minimal then s
  else if retryErr b = 0 then (if bootErr b = 0 then s.started s.mgmt.resetSrc b else { s with mgmt.lastErr := bootErr b })
  else { s with mgmt.lastErr := retryErr b }

/-- The DICE layer of the image that runs (R460, R465): from the PUF-derived secret, the ROM's own measurement, the image, and whether the
start entered full debug. -/
def State.diceLayer (s : State) : List Byte :=
  Config.dice (Config.dice Config.deviceSecret (Config.sha384 ((List.range (2 ^ 18)).map Config.romByte)))
    (Config.sha384 s.mgmt.image ++ leBytes 1 (bit1 s.mgmt.fullDebug))

/-- START_SEQUENCE: a reset from a source of R463. -/
def execStartSequence (src : BitVec 8) (boot : Boot) (s : State) : Out :=
  .next (if src.toNat ≤ 4 then s.startAttempt src boot else s)

def execMinimalModeRetry (boot : Boot) (s : State) : Out := .next (s.minimalRetry boot)

/-- THERMAL_TRIP: the manager restarts the device (R480). -/
def execThermalTrip (boot : Boot) (s : State) : Out := .next (s.startAttempt 4 boot)

/-- WATCHDOG: during a start it is the cause of that start's failure; the device restarts with RESET = 3. -/
def execWatchdog (boot : Boot) (s : State) : Out :=
  let s := if s.mgmt.startOk then s else { s with mgmt.lastErr := 9 }
  .next (s.startAttempt 3 boot)

/-! ## Worlds (R464) -/

/-- The quads and the memory regions that contexts hold. -/
def State.heldQuads (s : State) : Word := s.ctxs.foldl (fun a c => if c.2.st = .free then a else a ||| c.2.quads) 0

def State.heldRegions (s : State) : Word := s.ctxs.foldl (fun a c => if c.2.st = .free then a else a ||| c.2.regions) 0

/-- A write of worlds: units that are held keep theirs, and ERR says that a write to one was refused. -/
def assignWorlds (old v held : Word) : Word × Bool := ((v &&& ~~~held) ||| (old &&& held), (old ^^^ v) &&& held ≠ 0)

def State.worldqWrite (s : State) (v : Word) : State :=
  let r := assignWorlds s.mgmt.worldq v s.heldQuads
  { s with mgmt := { s.mgmt with worldq := r.1, frzErr := s.mgmt.frzErr || r.2 } }

def State.worldrWrite (s : State) (v : Word) : State :=
  let r := assignWorlds s.mgmt.worldr v s.heldRegions
  { s with mgmt := { s.mgmt with worldr := r.1, frzErr := s.mgmt.frzErr || r.2 } }

/-- The scheduler, the etch units, the ports and the management port: no context holds one. -/
def State.worlduWrite (s : State) (v : Word) : State := { s with mgmt.worldu := BitVec.ofNat 64 (v.toNat % 2 ^ 22) }

def execWorldqWrite (v : Word) (s : State) : Out := .next (s.worldqWrite v)

def execWorldrWrite (v : Word) (s : State) : Out := .next (s.worldrWrite v)

def execWorlduWrite (v : Word) (s : State) : Out := .next (s.worlduWrite v)

/-! ## Debug state (R465) -/

/-- A write of DEBUGST only lowers it. -/
def State.debugstWrite (s : State) (v : Word) : State :=
  if v.toNat % 4 < s.mgmt.debugst.toNat then { s with mgmt.debugst := BitVec.ofNat 64 (v.toNat % 4) } else s

def execDebugstWrite (v : Word) (s : State) : Out := .next (s.debugstWrite v)

/-! ## Power (R466, R469) -/

/-- Every core of a quad is frozen, or idle: no group holds it. -/
def State.quadQuiet (s : State) (q : Nat) : Bool :=
  (List.range 4).all fun k =>
    (s.coreAt (4 * q + k)).frozen || !(s.groups.any fun g => g.holds && g.first ≤ 4 * q + k && 4 * q + k < g.first + 4 ^ g.size)

/-- The state that a field of PWRCTL names. -/
def powerOf : Nat → Option Power
  | 0 => some .p0 | 1 => some .p1 | 2 => some .p2 | _ => none

/-- A quad enters a power state: in P1 every plate becomes Invalid and loses its pin; a quad that leaves P2 wakes its die. -/
def State.enterPower (s : State) (q : Nat) (p : Power) : State :=
  let v := s.quadAt q
  let v := { v with power := p, wakeAt := 0 }
  let s := s.setQuad q (if p = .p1 then { v with plate := vmap Plate.invalid v.plate } else v)
  if p = .p2 then s else s.setDie (q / 16) { s.dieAt (q / 16) with asleep := false }

/-- A PWRCTL write that names a quad: refused with ERR unless its cores are frozen or idle and the manager core runs in its world. -/
def State.movePower (s : State) (q : Nat) (p : Power) (secureMgr : Bool) : State :=
  if (s.quadAt q).power = p then s
  else if s.quadQuiet q && s.mgmt.worldq.getLsbD q = secureMgr then s.enterPower q p
  else s.frzRefuse

/-- A write of a PWRCTL word: 32 quads from `k` on. -/
def State.pwrctlWrite (s : State) (k : Nat) (v : Word) (secureMgr : Bool) : State :=
  (List.range 32).foldl (fun s j =>
    match powerOf (seg v.toNat (2 * j) 2) with
    | some p => s.movePower (k + j) p secureMgr
    | none => s) s

/-- A manager core of a position runs in the secure world. -/
def State.mgrSecure (s : State) (mgr : BitVec 2) : Bool := s.mgmt.secureCores.getLsbD mgr.toNat

def execQuadP0 (quad : BitVec 6) (mgr : BitVec 2) (s : State) : Out := .next (s.movePower quad.toNat .p0 (s.mgrSecure mgr))

def execQuadP1 (quad : BitVec 6) (mgr : BitVec 2) (s : State) : Out := .next (s.movePower quad.toNat .p1 (s.mgrSecure mgr))

def execQuadP2 (quad : BitVec 6) (mgr : BitVec 2) (s : State) : Out := .next (s.movePower quad.toNat .p2 (s.mgrSecure mgr))

/-- QUAD_WAKE: a quad in P1 that a lease word has woken is in P0 after its 6,000 cycles. -/
def execQuadWake (quad : BitVec 6) (s : State) : Out :=
  let q := s.quadAt quad.toNat
  .next (if q.power = .p1 && q.wakeAt ≠ 0 && q.wakeAt.toNat ≤ s.time.toNat then s.setQuad quad.toNat { q with power := .p0, wakeAt := 0 }
    else s)

/-- The dirty copies of a die's L2 are written back, with their marks (R473), and stay clean. -/
def State.writeBackL2 (s : State) (d : Nat) : State :=
  let dirty := s.store.nc.filter fun c => c.holder = .l2 d && c.dirty
  let clean (c : DataCopy) : DataCopy := if c.holder = .l2 d then { c with dirty := false } else c
  let tidy (c : Copy) : Copy := if c.holder = .l2 d && c.st = .m then { c with st := .e } else c
  let s := { s with store.nc := s.store.nc.map clean, store.coh.copies := s.store.coh.copies.map tidy }
  dirty.foldl State.writeBack s

/-- A die all of whose quads are in P2 sleeps, its L2 written back. -/
def State.sleepDie (s : State) (d : Nat) : State :=
  if (List.range 16).all fun k => (s.quadAt (16 * d + k)).power = .p2 then
    let s := s.writeBackL2 d
    s.setDie d { s.dieAt d with asleep := true }
  else s

/-- A die wakes. -/
def State.wakeDie (s : State) (d : Nat) : State := s.setDie d { s.dieAt d with asleep := false }

/-- A write of DIESLEEP: a set bit sleeps a die, a clear one wakes it. -/
def State.diesleepWrite (s : State) (v : Word) : State :=
  (List.range 4).foldl (fun s d => if v.getLsbD d then s.sleepDie d else s.wakeDie d) s

def execDieSleep (die : BitVec 2) (s : State) : Out := .next (s.sleepDie die.toNat)

def execDieWake (die : BitVec 2) (s : State) : Out := .next (s.wakeDie die.toNat)

/-! ## Attestation (R468) -/

/-- The claims of a quote: the nonce, the hashes of image and owner record, WORLDQ, WORLDR, the debug state, CAPS, the live list. -/
def State.claims (s : State) (nonce : List Byte) : List Byte :=
  let m := s.mgmt
  nonce ++ Config.sha384 m.image ++ Config.sha384 m.owner ++ leBytes 8 m.worldq.toNat ++ leBytes 8 m.worldr.toNat ++
    leBytes 8 m.debugst.toNat ++ leBytes 8 s.caps.toNat ++ m.chlive.toList.flatMap fun w => leBytes 8 w.toNat

/-- ATTESTATION_REQUEST with a nonce of 32 bytes: the quote, signed with the alias key of the image's DICE layer, and the certificate chain
leave the package. -/
def execAttestationRequest (nonce : List (BitVec 8)) (s : State) : Out :=
  let c := s.claims nonce
  .next (if nonce.length = 32 then
    s.emit (.quote (c ++ Config.signature s.diceLayer c ++ Config.certificates s.diceLayer)) else s)

/-! ## Policies (R471) -/

/-- A share of scheduler memory overlaps that of another function. -/
def State.shareTaken (s : State) (fn base n : Nat) : Bool :=
  s.fns.any fun g =>
    g.1 ≠ fn && g.2.share ≠ 0 && n ≠ 0 && base < g.2.shbase.toNat + g.2.share.toNat && g.2.shbase.toNat < base + n

/-- A write of FNPOLICY for the function that FNSEL selects. -/
def State.policyWrite (s : State) (v : Word) : State :=
  let fn := s.mgmt.fnsel.toNat
  let f := s.fnAt fn
  let share : BitVec 9 := bits v.toNat 17 9
  let base : BitVec 8 := bits v.toNat 9 8
  let cap : BitVec 3 := bits v.toNat 0 3
  if 256 < base.toNat + share.toNat || s.shareTaken fn base.toNat share.toNat then s.frzRefuse
  else if f.ctx.isSome && (share ≠ f.share || base ≠ f.shbase) then s.frzRefuse
  else
    s.setFn fn { f with
      share := share, shbase := base, supr := v.getLsbD 4, maxscope := if cap = 0 || cap = 7 then f.maxscope else cap }

def execFnpolicyWrite (v : Word) (s : State) : Out := .next (s.policyWrite v)

/-! ## The pod job (R394, R402, R432, R443) -/

/-- A write of BARPOD; 0 and values above 1,024 are ignored. -/
def State.barpodWrite (s : State) (v : Nat) : State :=
  if 1 ≤ v && v ≤ 1024 then { s with mgmt.barpod := BitVec.ofNat 11 v } else s

/-- POD_JOB: the device number, the context bound on this package, the members of the job, and the number of packages. A member whose ports all
stand still can no longer be reached (R443). -/
def execPodJob (device : BitVec 10) (ctx : Option (BitVec 6)) (route : List PodMember) (pkgs : BitVec 11) (s : State) : Out :=
  let r := route.foldl (fun m x => smSet m x.dev x.ports) []
  let t := State.barpodWrite { s with
    mgmt.device := device, mgmt.podCtx := ctx.map (·.toNat), mgmt.route := r
    mgmt.podBound := (route.filter (·.bound)).map (·.dev) } pkgs.toNat
  .next (t.lost s).rerouted

/-! ## The memory aperture (R477) -/

/-- The virtual address that a BAR2 offset reaches. -/
def Fn.apertureAt (f : Fn) (off : Nat) : Word := sext64 (f.apbase.setWidth 56) + BitVec.ofNat 64 off

/-- The 64-byte units of an access: virtual address, offset in the access, length. -/
def unitsOfAccess (va : Word) : Nat → Nat → Nat → List (Word × Nat × Nat)
  | 0, _, _ => []
  | fuel + 1, off, n =>
    if n = 0 then []
    else
      let a := va + BitVec.ofNat 64 off
      let m := min n (64 - a.toNat % 64)
      (a, off, m) :: unitsOfAccess va fuel (off + m) (n - m)

/-- A unit of the aperture translates: with X set its page refuses. A private page is shared before it is served (R319). -/
def State.apertureUnit (s : State) (ctx : Nat) (k : Kind) (va : Word) (n : Nat) : Option (Nat × Tlb) × State :=
  match s.outTranslate .aperture ctx true k va with
  | .ok pa t s => if t.x then (none, s) else (some (pa, t), s.shareFrames pa n)
  | .fault _ s => (none, s)
  | .park _ s => (none, s)

/-- The units of a read in order; none where one is refused. The bytes, and whether a marked sector was read. -/
def State.apertureLoop (ctx : Nat) : List (Word × Nat × Nat) → State → Option (List Byte × Bool) × State
  | [], s => (some ([], false), s)
  | (va, _, n) :: rest, s =>
    match s.apertureUnit ctx { read := true } va n with
    | (none, s) => (none, s)
    | (some (pa, t), s) =>
      let bad := (s.marked [] t pa n).isSome
      let (bs, s) := s.loadPhys [] .home t pa n
      match State.apertureLoop ctx rest s with
      | (some (more, b), s) => (some (bs ++ more, bad || b), s)
      | r => r

/-- APERTURE_READ: its answer follows every posted write of the device on the host link (R295), so it waits behind them. -/
def execApertureRead (fn : BitVec 6) (off len : Nat) (s : State) : Out :=
  let f := s.fnAt fn.toNat
  match f.ctx with
  | none => .next (s.unsupported fn.toNat)
  | some c =>
    if s.held || 2 ^ 36 < off + len then .next (s.unsupported fn.toNat)
    else if !s.store.posted.isEmpty then
      .next { s with schedule := s.schedule ++ [.due s.cur .hostLinkCompletion, .due s.cur (.apertureRead fn off len)] }
    else match State.apertureLoop c (unitsOfAccess (f.apertureAt off) (len + 1) 0 len) s with
      | (some (bs, bad), s) => .next (s.emit (.hostData fn.toNat bs bad))
      | (none, s) => .next ((s.setCode fn.toNat 0x14).emit (.hostAbort fn.toNat))

/-- The units of a write that are accepted perform; whether one was refused. -/
def State.apertureStore (ctx : Nat) (data : List Byte) : List (Word × Nat × Nat) → Bool → State → Bool × State
  | [], bad, s => (bad, s)
  | (va, off, n) :: rest, bad, s =>
    match s.apertureUnit ctx { write := true } va n with
    | (none, s) => State.apertureStore ctx data rest true s
    | (some (pa, t), s) => State.apertureStore ctx data rest bad (s.storeAcc [] .home t pa ((data.drop off).take n))

/-- The value that an AtomicOp writes over an old one, of `n` bytes; none for a CAS that finds another value (R299, R300). -/
def hostAtomic (op : HostAtomic) (n old : Nat) (v : Word) : Option Nat :=
  match op with
  | .fetchAdd => some ((old + v.toNat) % 256 ^ n)
  | .swap => some (v.toNat % 256 ^ n)
  | .cas c => if old = c.toNat % 256 ^ n then some (v.toNat % 256 ^ n) else none

/-- An AtomicOp of the host at an address (R474, R477): its page must admit reads and writes, the old value is its answer, and a misaligned one
does not complete (assumption log 83). -/
def State.apertureAtomic (s : State) (fn ctx : Nat) (va : Word) (op : HostAtomic) (n : Nat) (v : Word) : State :=
  if va.toNat % n ≠ 0 then s.unsupported fn
  else match s.apertureUnit ctx { read := true, write := true } va n with
    | (none, s) => (s.setCode fn 0x14).emit (.hostAbort fn)
    | (some (pa, t), s) =>
      let bad := (s.marked [] t pa n).isSome
      let (bs, s) := s.loadPhys [] .home t pa n
      let s := match hostAtomic op n (leNat bs) v with
        | some new => s.storeAcc [] .home t pa (leBytes n new)
        | none => s
      s.emit (.hostData fn bs bad)

/-- APERTURE_WRITE, or an AtomicOp, whose answer follows every posted write of the device on the host link (R295). -/
def execApertureWrite (fn : BitVec 6) (off : Nat) (act : ApertureAct) (s : State) : Out :=
  let f := s.fnAt fn.toNat
  let size := match act with | .write data => data.length | .atomic _ wide _ => if wide then 8 else 4
  match f.ctx with
  | none => .next (s.unsupported fn.toNat)
  | some c =>
    if s.held || 2 ^ 36 < off + size then .next (s.unsupported fn.toNat)
    else match act with
      | .write data =>
        let r := State.apertureStore c data (unitsOfAccess (f.apertureAt off) (data.length + 1) 0 data.length) false s
        .next (if r.1 then r.2.setCode fn.toNat 0x14 else r.2)
      | .atomic op _ v =>
        if s.store.posted.isEmpty then .next (s.apertureAtomic fn.toNat c (f.apertureAt off) op size v)
        else .next { s with schedule := s.schedule ++ [.due s.cur .hostLinkCompletion, .due s.cur (.apertureWrite fn off act)] }

end Sys2Proof.Machine
end

