-- ==== Sys2Proof/Machine/SysRegs.lean ====
section
/-! DEFINITION. RDSYS and WRSYS (R105, R106), the writes of registers that have an effect of their own, and debug access (R467). -/

namespace Sys2Proof.Machine

/-! ## Writes of one register -/

/-- STATUS from a written word (R98): PRIV stays, and so does PPRIV where the value is not one that this privilege may write. -/
def Status.written (t : Status) (v : Word) (priv : BitVec 2) : Status :=
  let p : BitVec 2 := bits v.toNat 2 2
  { t with
    intrap := v.getLsbD 6, pie := v.getLsbD 5, ie := v.getLsbD 4
    ppriv := if p = 2 || (p = 3 && priv ≠ 3) then t.ppriv else p }

/-- A view word replaced, unchecked (R134). -/
def State.setViewWord (s : State) (k : Nat) (v : Word) : State :=
  let i := BitVec.ofNat 3 (k / 2)
  let old := (s.core.view i).toNat
  let lo := if k % 2 = 0 then (v &&& viewMask k).toNat else seg old 0 64
  let hi := if k % 2 = 1 then (v &&& viewMask k).toNat else seg old 64 64
  { s with core := s.core.setView i (BitVec.ofNat 128 (lo + 2 ^ 64 * hi)) }

/-- A write of a view word waits as WVIEW does (R134). -/
def viewWordWrite (k : Nat) (v : Word) (s : State) (go : State → Out) : Out :=
  if s.quiet [.ae, .ve, .me] then go (s.setViewWord k v) else .next s

/-- A write of VMODE changes the register; a running entry keeps its working mode. Where a VMODE word has written the register in the
same cycle, that word's value stays (R41). -/
def State.vmodeWrite (s : State) (v : Word) : State :=
  if s.core.sq.vmodeAt = some s.time then s else { s with core.sq.vmode := v.setWidth 4 }

/-- A write of ESTATE changes POS and REM while FLT or FRZ is 1 (R188): REM 0 is not taken, and the block is checked again. A word's
partial state belongs to its position. -/
def Eng.estateWrite (g : Eng) (v : Word) : Eng :=
  if g.flt || g.frz then
    let pos : BitVec 12 := bits v.toNat 28 12
    let rem : BitVec 16 := bits v.toNat 40 16
    { g with
      pos := pos, rem := if rem = 0 then g.rem else rem, repass := true, part := if pos = g.pos then g.part else none }
  else g

def State.estateWrite (s : State) (e : Engine) (v : Word) : State :=
  if (s.eng e).flt || (s.eng e).frz then
    let s := if e = .ae then { s with core := s.core.giveBack } else s
    s.setEng e ((s.eng e).estateWrite v)
  else s

/-- A field of a written word. -/
def field (v : Word) (lo n : Nat) : BitVec n := bits v.toNat lo n

/-- A write of PTBASE (R358): the context's, or that of the manager's own tables. -/
def State.ptbaseWrite (s : State) (v : Word) : State :=
  let root := ptbaseField v
  if 256 ≤ s.cur then { s with mgmt.root := root }
  else
    let n := s.core.sq.ctxid.toNat
    s.setCtx n { s.ctxAt n with ptbase := root }

/-- The core in focus is a manager core that runs in the secure world (R374). -/
def State.secureHere (s : State) : Bool := 256 ≤ s.cur && s.managerSecure

/-- A write of FRZCTL (R375): ERR is cleared by a 1, and the command acts on the core named. -/
def State.frzctlWrite (s : State) (v : Word) : State :=
  let core : BitVec 8 := field v 0 8
  let s := { s with mgmt.frzErr := s.mgmt.frzErr && !v.getLsbD 31, mgmt.frzCore := core }
  match seg v.toNat 8 3 with
  | 0 => s
  | 1 => s.freezeCmd core.toNat
  | 2 => s.resumeCmd core.toNat
  | 3 => s.restoreCmd core.toNat s.secureHere
  | _ => s.frzRefuse

/-- A write of CTXCMD (R470): while a command runs nothing changes; a nonzero CMD starts one, and 4 to 7 are refused. -/
def State.ctxcmdWrite (s : State) (v : Word) : State :=
  if s.mgmt.ctxBusy ≠ 0 then s
  else
    let s := { s with
      mgmt.ctxRefused := s.mgmt.ctxRefused && !v.getLsbD 62, mgmt.ctxSel := field v 8 6, mgmt.ctxFrom := s.cur }
    let cmd : BitVec 3 := field v 0 3
    if cmd.toNat ≤ 3 then { s with mgmt.ctxBusy := cmd } else s.ctxRefuse

/-- A write of LINKCTL: ports to start, and then ports to stop (R469). -/
def State.linkctlWrite (s : State) (v : Word) : State :=
  let s := (List.range 16).foldl (fun s k => if v.getLsbD k then s.linkStart k else s) s
  (List.range 16).foldl (fun s k => if v.getLsbD (16 + k) then s.linkStop k else s) s

/-- The retirement of a channel (R420): one of the live list, which the manager chooses, leaves it. Contents keep their physical addresses. -/
def State.retireChannel (s : State) : State :=
  let l := s.liveList
  let ch := l.getD (Config.freeChoice s.freeN l.length) 0
  let w := (s.mgmt.chlive.getD (ch / 64) 0) &&& ~~~(1#64 <<< (ch % 64))
  { s with mgmt.chlive := s.mgmt.chlive.setIfInBounds (ch / 64) w, freeN := s.freeN + 1 }

/-- A write of CHMAP: one that takes a channel out of service, while every context is Frozen or Free, retires it (R420; assumption log 63). -/
def State.chmapWrite (s : State) (v : Word) : State :=
  let quiet := s.ctxs.all fun c => c.2.st = .frozen || c.2.st = .free
  let less := seg v.toNat 0 10 + 1 = s.mgmt.chmap.toNat % 1024
  let s := if quiet && less then s.retireChannel else s
  { s with mgmt.chmap := fields [(0, seg v.toNat 0 10), (32, seg v.toNat 32 16)] }

/-! ## Writes by range -/

/-- The scalar sequencer's registers. -/
def writeScalar (n : Nat) (v : Word) (s : State) (go : State → Out) : Out :=
  let t := s.core.sq.trap
  match n with
  | 0x000 => go { s with core.sq.trap.status := t.status.written v s.priv }
  | 0x001 => go { s with core.sq.trap.epc := epcWord v }
  | 0x002 => go { s with core.sq.trap.cause := causeMask v }
  | 0x003 => go { s with core.sq.trap.badaddr := v }
  | 0x004 => go { s with core.sq.trap.tvec := tvecWord v }
  | 0x005 => go { s with core.sq.trap.scratch := v }
  | 0x009 => go { s with core.sq.ctxid := field v 0 6 }
  | 0x00A => go (if seg v.toNat 0 3 = 0 || seg v.toNat 0 3 = 7 then s else { s with core.sq.maxscope := field v 0 3 })
  | 0x00B => go { s with core.sq.demote := field v 0 32 }
  | 0x00D => go (s.vmodeWrite v)
  | _ => if 0x010 ≤ n then viewWordWrite (n - 0x010) v s go else go s

/-- The registers of the queue, the plates and the tint file. -/
def writeEngines (n : Nat) (v : Word) (s : State) (go : State → Out) : Out :=
  if n < 0x080 then
    match Engine.ofId ((n - 0x040) / 4 + 1) with
    | some e => go (if n % 4 = 0 then s.estateWrite e v else s)
    | none => go s
  else if n = 0x080 then plmaskWrite v s go
  else if 0x090 ≤ n && n ≤ 0x09F then pltagWrite (n - 0x090) v s go
  else
    let q := s.quadAt s.quadNo
    match n with
    | 0x084 => go (s.setQuad s.quadNo { q with hit := field v 0 32 })
    | 0x085 => go (s.setQuad s.quadNo { q with miss := field v 0 32 })
    | 0x0C2 => go { s with core.counts.tintSelGran := field v 16 11, core.counts.tintSelGroup := field v 0 9 }
    | _ => go s

/-- The registers of the page and the context. -/
def State.writePage (s : State) (n : Nat) (v : Word) : State :=
  match n with
  | 0x100 => s.ptbaseWrite v
  | 0x101 => { s with core.counts.park := field v 0 32 }
  | 0x103 => { s with core.counts.smiss := field v 0 32, core.counts.qmiss := field v 32 32 }
  | 0x148 => s.frzctlWrite v
  | 0x149 => { s with mgmt.snapCore := field v 40 8, mgmt.snapPart := field v 32 2, mgmt.snapOff := field v 0 32 &&& ~~~7#32 }
  | 0x14A => s.snapWrite s.secureHere v
  | _ => s

/-- The registers of the group, the barrier, routing and the rounds. -/
def State.writeGroup (s : State) (n : Nat) (v : Word) : State :=
  match n with
  | 0x180 => s.chmapWrite v
  | 0x183 =>
    let k := s.core.sq.ctxid.toNat
    s.setCtx k { s.ctxAt k with quota := field v 0 17 }
  | 0x190 =>
    let scope : BitVec 3 := field v 8 3
    { s with
      core.counts.barScope := if 2 ≤ scope.toNat && scope.toNat ≤ 5 then scope else s.core.counts.barScope
      core.counts.barId := field v 0 5 }
  | 0x192 => s.barpodWrite (seg v.toNat 0 11)
  | 0x1C1 => { s with core.counts.full := field v 0 32, core.counts.nh := field v 32 32 }
  | 0x1C2 => { s with core.counts.histoor := field v 0 32 }
  | 0x1C3 => { s with core.counts.poison := field v 0 32 }
  | 0x1C9 => { s with core.counts.shuf := field v 0 32 }
  | 0x1CA => { s with core.counts.etcherr := field v 0 32 }
  | _ => s

/-- The manager's registers. -/
def State.writeManager (s : State) (n : Nat) (v : Word) : State :=
  let t := s.core.sq.mtrap
  match n with
  | 0x201 => s.ctxcmdWrite v
  | 0x202 => s.worldqWrite v
  | 0x203 => s.worldrWrite v
  | 0x204 => s.worlduWrite v
  | 0x205 => s.debugstWrite v
  | 0x206 => s.pwrctlWrite 0 v s.secureHere
  | 0x207 => s.pwrctlWrite 32 v s.secureHere
  | 0x208 => s.diesleepWrite v
  | 0x209 => s.linkctlWrite v
  | 0x20A => { s with mgmt.mevent := s.mgmt.mevent &&& ~~~v }
  | 0x20B => { s with mgmt.fnsel := field v 0 6 }
  | 0x20C => s.policyWrite v
  | 0x210 => { s with core.sq.mtrap.status := t.status.written v 3 }
  | 0x211 => { s with core.sq.mtrap.epc := epcWord v }
  | 0x212 => { s with core.sq.mtrap.cause := causeMask v }
  | 0x213 => { s with core.sq.mtrap.badaddr := v }
  | 0x214 => { s with core.sq.mtrap.tvec := tvecWord v }
  | 0x215 => { s with core.sq.mtrap.scratch := v }
  | _ => s

/-- A register is written; some writes wait. -/
def sysWrite (n : Nat) (v : Word) (s : State) (go : State → Out) : Out :=
  if n < 0x040 then writeScalar n v s go
  else if n < 0x100 then writeEngines n v s go
  else if n < 0x180 then go (s.writePage n v)
  else if n < 0x200 then go (s.writeGroup n v)
  else go (s.writeManager n v)

/-! ## RDSYS and WRSYS -/

/-- The fault of an access to a register that this privilege may not make (R106). -/
def State.sysFault (s : State) (n : Nat) : Option Cause :=
  if 0x200 ≤ n && n ≤ 0x2FF && s.priv ≠ 3 then some .privilege
  else match regAccess n with
    | none => some .illegalInstruction
    | some a => if a.at s.priv = .none then some .privilege else none

/-- RDSYS reads a register into rd. -/
def execRdsys (rd : BitVec 5) (reg : BitVec 12) (s : State) : Out :=
  match s.sysFault reg.toNat with
  | some c => .next (s.raise c 0)
  | none =>
    if reg = 0x14A then
      let (v, s) := s.snapRead s.secureHere
      writeX rd v 4 s
    else writeX rd (s.sysRead reg.toNat) 4 s

/-- WRSYS: a register readable but not writable here raises PRIVILEGE where another privilege may write it, and is ignored where none
may; a write is a resolution point. -/
def execWrsys (ra : BitVec 5) (reg : BitVec 12) (s : State) : Out :=
  match s.sysFault reg.toNat with
  | some c => .next (s.raise c 0)
  | none =>
    let a := (regAccess reg.toNat).getD roAll
    if a.at s.priv = .read && a.writable then .next (s.raise .privilege 0)
    else s.resolve fun s =>
      if a.at s.priv = .write then sysWrite reg.toNat (s.x ra) s fun s => .next (s.adv 4)
      else .next (s.adv 4)

/-! ## The events of single registers -/

/-- PLMASK_WRITE on the quad of the core in focus. -/
def execPlmaskWrite (v : Word) (s : State) : Out := plmaskWrite v s fun s => .next s

def execPltagWrite (n : BitVec 4) (v : Word) (s : State) : Out := pltagWrite n.toNat v s fun s => .next s

def execEstateWrite (e : Engine) (v : Word) (s : State) : Out := .next (s.estateWrite e v)

def execVmodeWrite (v : Word) (s : State) : Out := .next (s.vmodeWrite v)

def execViewWordWrite (k : BitVec 4) (v : Word) (s : State) : Out := viewWordWrite k.toNat v s fun s => .next s

/-! ## Debug access (R467) -/

/-- The debug state lets a core be reached: full debug, or non-secure debug of a quad and a context of the non-secure world. -/
def State.debugReach (s : State) (core : Nat) : Bool :=
  let secure := s.mgmt.worldq.getLsbD (core / 4) || ((s.ownerOf core).map fun k => (s.ctxAt k).secure).getD false
  s.mgmt.debugst = 2 || (s.mgmt.debugst = 1 && !secure)

/-- A register of the package, through which every unit can be reached. -/
def packageReg (n : Nat) : Bool := (0x148 ≤ n && n ≤ 0x14A) || n = 0x180 || n = 0x192 || (0x200 ≤ n && n < 0x210)

/-- A request that the debug state admits on a core that it reaches (R467): where secure units are shielded, none that goes through a register
of the package. -/
def State.debugAdmits (s : State) (req : DebugReq) : Bool :=
  s.mgmt.debugst = 2 || match req with
    | .readSys n | .writeSys n _ => !packageReg n
    | .readX _ | .writeX _ _ | .readSnap _ _ | .writeSnap _ _ _ => true

/-- A request on a core that may be reached: a read answers, a write performs; a snapshot is reached of a frozen core only. -/
def debugAct (core : Nat) (req : DebugReq) (s : State) : State :=
  let f := s.cur
  let answer (v : Word) (s : State) : State := s.emit (.data (leBytes 8 v.toNat))
  let inPart (part off : Nat) : Bool := (s.coreAt core).frozen && off < partLen part
  match req with
  | .readSys n => if (regAccess n).isSome && n ≠ 0x14A then answer ((s.focus core).sysRead n) s else s
  | .writeSys n v =>
    if ((regAccess n).map Access.writable).getD false then
      match sysWrite n v (s.focus core) fun s => .next s with
      | .next s => s.focus f
      | _ => s
    else s
  | .readX r => answer ((s.focus core).x r) s
  | .writeX r v => ((s.focus core).setX r v).focus f
  | .readSnap part off => if inPart part off then answer (s.snapDword core part (off / 8 * 8)) s else s
  | .writeSnap part off v =>
    if inPart part off then { s with mgmt.snapstage := smSet s.mgmt.snapstage (stageKey core part off) v } else s

/-- DEBUG_ACCESS: a core that may be reached is, and its die wakes first. BOOTCAUSE is served over the management port in every debug state, and in
minimal mode (R462, R478). -/
def execDebugAccess (core : BitVec 8) (req : DebugReq) (s : State) : Out :=
  .next (if req = .readSys 0x200 then s.emit (.data (leBytes 8 s.bootcause.toNat))
    else if s.debugReach core.toNat && s.debugAdmits req then debugAct core.toNat req (s.wakeDie (core.toNat / 64)) else s)

end Sys2Proof.Machine
end

