-- ==== Sys2Proof/Machine/Turn.lean ====
section
/-! DEFINITION. The turns of the units (assumption log 1): what the SQ or an engine of a core does when the schedule gives it its
turn. `run` is the execution of one instruction. -/

namespace Sys2Proof.Machine

/-! ## The SQ -/

/-- The instruction at an address, fetched through the instruction cache, as the number its bytes hold (R56, R329). -/
def State.fetchAt (s : State) (a : Word) : Fetch × Option (BitVec 16) :=
  match s.fetchHalf (.icache s.cur) s.sqAgent a with
  | .ok h s =>
    if h.toNat % 2 = 0 then (.ok h s, none)
    else match s.fetchHalf (.icache s.cur) s.sqAgent (a + 2) with
      | .ok h2 s => (.ok h s, some h2)
      | f => (f, none)
  | f => (f, none)

/-- The instruction at the pc. -/
def State.fetchSq (s : State) : Fetch × Option (BitVec 16) := s.fetchAt s.core.sq.pc

/-- The number that one or two halfwords hold. -/
def wordOf (h : BitVec 16) (h2 : Option (BitVec 16)) : Nat := h.toNat + 2 ^ 16 * (h2.getD 0).toNat

/-- The word at the pc that has been fetched ahead, with the time from which it is there. -/
def Sq.aheadWord (q : Sq) : Option (Nat × Word) :=
  match q.ahead with
  | [] => none
  | x :: _ => if x.addr = q.pc then some (x.word, x.due) else none

/-- The word of the instruction at the pc that the SQ holds: of one that waits, or of one fetched ahead that has come (R336). -/
def Sq.holds (q : Sq) (now : Word) : Option Nat :=
  match q.fetched with
  | some w => some w
  | none => match q.aheadWord with
    | some (w, t) => if now.toNat < t.toNat then none else some w
    | none => none

/-- The instructions fetched ahead of the one that issues; those that a jump has passed by are dropped. -/
def Sq.aheadAfter (q : Sq) : List Ahead :=
  match q.fetched, q.ahead with
  | some _, l => l
  | none, [] => []
  | none, x :: l => if x.addr = q.pc then l else []

/-- A word issues: it is kept while it waits, and it takes the cycle (R336, R483). -/
def State.issued (s : State) (w : Nat) : State :=
  { s.unpark with core.sq.fetched := some w, core.sq.ahead := s.core.sq.aheadAfter, core.sq.nextAt := s.time + 1 }

/-- An instruction beyond which nothing stays fetched (R336): LDO with acquire, an atomic with acquire, BARW, BARAW, PUBC, ERET. A trap entry is
the other refetch point. -/
def isRefetch : Instr → Bool
  | .ldo _ _ _ _ ord _ => ord = 1
  | .amoadd _ _ _ _ _ ord _ | .amoand _ _ _ _ _ ord _ | .amoor _ _ _ _ _ ord _ | .amoxor _ _ _ _ _ ord _ | .amomin _ _ _ _ _ ord _
  | .amomax _ _ _ _ _ ord _ | .amominn _ _ _ _ _ ord _ | .amomaxn _ _ _ _ _ ord _ | .amoswp _ _ _ _ _ ord _ | .cas _ _ _ _ _ ord _ =>
    ord = 1 || ord = 3
  | .barw _ _ | .baraw _ _ | .pubc _ _ _ | .eret => true
  | _ => false

/-- What has been fetched ahead is discarded at a refetch point (R336). -/
def State.refetch (s : State) (i : Instr) : State := if isRefetch i then { s with core.sq.ahead := [] } else s

/-- The word at the pc executes, or is a reserved encoding and traps (R78). -/
def sqWord (run : Instr → State → Out) (w : Nat) (s : State) : Out :=
  match decodeSq w with
  | .ok i => run i (s.refetch i)
  | .error _ => .next (s.raise .illegalInstruction 0)

/-- One instruction of the SQ: fetched, decoded, executed; a fetch fault traps (R332). An instruction that waits, or that has been fetched ahead, is
not fetched again (R336); one whose fetch crosses the die boundaries issues when it has come back (R431). No other instruction issues in the
same cycle (R483). -/
def sqIssue (run : Instr → State → Out) (s : State) : Out :=
  match s.core.sq.holds s.time with
  | some w => sqWord run w (s.issued w)
  | none =>
    if s.core.sq.aheadWord.isSome then .next s
    else match s.fetchSq with
      | (.device, _) => .fault .deviceRegisters
      | (.park _ l s, _) => .next (s.parkSq l)
      | (.fault f s, _) => .next (s.unpark.raise f.cause f.addr)
      | (.ok h s, h2) =>
        let w := wordOf h h2
        if s.time.toNat < s.reply.toNat then .next { s.issued w with core.sq.nextAt := s.reply }
        else sqWord run w (s.issued w)

/-- The turn of an SQ: nothing where the core is frozen, runs no group, stands on a park, or has issued in this cycle; a pending engine
fault first (R101); the exit wait; else an instruction. -/
def sqTurn (run : Instr → State → Out) (s : State) : Out :=
  if s.core.halted || s.core.sq.run ≠ .running then .next s
  else match (if s.ieNow then s.core.firstPending else none) with
    | some e => .next (s.takeEngineFault e)
    | none =>
      if s.core.sq.parked.isSome && !s.core.sq.woken then .next s
      else if s.time.toNat < s.core.sq.nextAt.toNat then .next s
      else if s.core.sq.pc = s.core.sq.exitAddr && s.cur < 256 then .next s.exitWait
      else sqIssue run s

/-- The address of the instruction that is fetched ahead next: behind the last one held. -/
def Sq.aheadAt (q : Sq) : Word :=
  let past (a : Word) (w : Nat) : Word := a + (if w % 2 = 0 then 2 else 4)
  match q.ahead.getLast?, q.fetched with
  | some x, _ => past x.addr x.word
  | none, some w => past q.pc w
  | none, none => q.pc

/-- One instruction more is fetched ahead of the pc (R336); one whose fetch faults or parks is left for its turn. -/
def State.fetchMore (s : State) : State :=
  if s.core.halted || s.core.sq.run ≠ .running then s
  else
    let a := s.core.sq.aheadAt
    match s.fetchAt a with
    | (.ok h t, h2) => { t with core.sq.ahead := t.core.sq.ahead ++ [{ addr := a, word := wordOf h h2, due := t.reply }] }
    | _ => s

/-! ## The engines -/

/-- A word of the ME issues in the cycle from which it may (R242, R483); one in its fill phase goes on, and one that waits for a
reason that ESTATE.WAIT names resumes as soon as it may. -/
def State.meWaits (s : State) : Bool :=
  s.actor = .me && s.core.mex.plan.isNone && s.act.wait = 0 && s.time.toNat < s.core.mex.nextAt.toNat

/-- A word of the ME takes its issue cycle (R483). -/
def State.meCycle (s : State) : State :=
  if s.actor = .me && s.core.mex.plan.isNone then { s with core.mex.nextAt := s.time + 1 } else s

/-- What an engine has fetched has come back across the die boundaries before a word issues (R431). -/
def State.fetchBack (s : State) : State :=
  if s.act.nextAt.toNat < s.reply.toNat then s.upd fun e => { e with nextAt := s.reply } else s

/-- The word at the engine's position issues, from the cycle in which it may: the AE and the VE issue one in a cycle (R138, R192), and what has
crossed the die boundaries has come back (R431). -/
def engineIssue (run : Instr → State → Out) (s : State) : Out :=
  if s.meWaits || s.time.toNat < s.act.nextAt.toNat then .next s
  else match s.wordAt with
  | .device => .fault .deviceRegisters
  | .park va l s => .next (s.parkEngine va l)
  | .fault f s => .next (s.faultAt s.act.pos.toNat f)
  | .instr i s => if s.time.toNat < s.reply.toNat then .next s.fetchBack else run i s.meCycle

/-- The header and the pass of R79. -/
def State.fetchBlock (s : State) : Out :=
  match s.checkBlock with
  | .next s => .next s.fetchBack
  | r => r

/-- A running entry: the pass of R79 where it is due, the end of a repetition, which costs no cycle, then a word. -/
def engineRun (run : Instr → State → Out) (s : State) : Out :=
  if s.act.repass then s.fetchBlock
  else
    let s := if s.act.atEnd then s.repetitionEnd s.actor false else s
    if s.act.st = .running && !s.act.atEnd then engineIssue run s else .next s

/-- A word of the engine in action executes: a lease word in its fill phase, or a remote word with an access on its way. -/
def State.executing (s : State) : Bool := s.act.exec || (s.actor = .me && s.core.mex.plan.isSome)

/-- The turn of an engine. A word in execution runs on to its end although the engine is frozen (R185, R364), and an entry whose effects have
landed completes (R173). -/
def engineTurn (run : Instr → State → Out) (e : Engine) (s : State) : Out :=
  let s := { s with actor := e }
  let g := s.act
  if g.flt then .next s
  else if s.executing && (g.frz || s.core.halted) then engineIssue run s
  else if g.st = .draining then .next (s.entryComplete e)
  else if g.frz || s.core.halted || (g.parked.isSome && !g.woken) then .next s
  else match g.st with
    | .running => engineRun run s
    | .draining | .stopped => .next s
    | .idle | .waiting => .next (s.entryStart e)

/-! ## The schedule -/

/-- The turn of a unit of the core in focus. -/
def unitTurn (run : Instr → State → Out) (u : UnitId) (s : State) : Out :=
  match u with
  | .sq => sqTurn run s
  | .eng e => engineTurn run e s

/-- What the package owes happens: the meaning of the event of the table. -/
def dueTurn (d : Due) (s : State) : Out :=
  match d with
  | .aeLoadReturn => execAeLoadReturn 0 s
  | .ldiDataReturn => execLdiDataReturn 0 s
  | .scratchpadAccessComplete => execScratchpadAccessComplete 0 s
  | .parkWake l => .next (s.arriveAgain l)
  | .dataQueueArrival q => execDataQueueArrival q s
  | .mmulComplete => execMmulComplete s
  | .rowArrival n => execRowArrival n s
  | .sendAnswer => execSendAnswer 0 s
  | .refusalArrival => execRefusalArrival 0 s
  | .roundAck r ch => execRoundAck r ch s
  | .leaseGrant q => execLeaseGrant q s
  | .leaseRunEnd q => execLeaseRunEnd q s
  | .quadWake q => execQuadWake q s
  | .plateFillComplete q p => execPlateFillComplete q p 0 s
  | .etchUnitRun ch => execEtchUnitRun ch s
  | .hostLinkCompletion => execHostLinkCompletion true s
  | .create => execCreate s
  | .start => execStart s
  | .destroy => execDestroy s
  | .scrubComplete c => execScrubComplete c s
  | .freezeComplete n => execFreezeComplete n s
  | .groupPlace => execGroupPlace s
  | .quantumExpiry g => execQuantumExpiry g s
  | .groupFail n => execGroupFail n s
  | .launchEnd l => execLaunchEnd l s
  | .completionInterrupt l => execCompletionInterrupt l s
  | .linkStart k => execLinkStart k s
  | .apertureRead fn off len => execApertureRead fn off len s
  | .apertureWrite fn off act => execApertureWrite fn off act s
  | .launchRegisterRead fn off n => execLaunchRegisterWrite fn off (.read n) s

/-- One turn of the schedule, after the cycles that pass before it. A turn that names a word in an event's place does nothing. -/
def takeTurn (run : Instr → State → Out) (t : Turn) (s : State) : Out :=
  let s := { s with reply := 0 }
  match t with
  | .unit core u dt => unitTurn run u ((s.pass dt).focus core)
  | .event core i dt => if wordBits i = 0 then run i ((s.pass dt).focus core) else .next s
  | .due core d => dueTurn d (s.focus core)
  | .fetchAhead core dt => .next ((s.pass dt).focus core).fetchMore

/-- The units of a core that has something to do. -/
def Core.active (c : Core) : Bool :=
  c.sq.run = .running || engines.any (fun e => !(c.eng e).q.isEmpty) || !c.vex.pend.isEmpty

/-- The units of a core, each once, the VE before the AE (R261). -/
def unitsOf (n : Nat) : List Turn :=
  .unit n .sq 0 :: [Engine.ve, .ae, .me, .ce, .xe].map fun e => .unit n (.eng e) 0

/-- What may be due on a core: returns of loads, the end of an MMUL, answers to sends, the close of rounds. -/
def Core.dueTurns (n : Nat) (c : Core) : List Turn :=
  let rows (k : Nat) : List Turn := if c.sends.isEmpty then [] else [.due k (.rowArrival (BitVec.ofNat 8 n))]
  let owed := c.rounds.toList.zipIdx.flatMap fun r => match r.1 with
    | .closing l => l.map fun ch => Turn.due n (.roundAck (BitVec.ofNat 4 r.2) (BitVec.ofNat 9 ch))
    | _ => []
  (if c.loads.isEmpty then []
   else [.due n .aeLoadReturn, .due n .ldiDataReturn, .due n .scratchpadAccessComplete] ++
     (List.range 4).map fun q => .due n (.dataQueueArrival (BitVec.ofNat 3 q))) ++
  (if c.mex.running.isEmpty then [] else [.due n .mmulComplete]) ++
  (c.sends.flatMap fun x => rows x.target) ++
  (if c.sends.isEmpty then [] else [.due n .sendAnswer, .due n .refusalArrival]) ++ owed

/-- What may be due in the package: leases, fills, etch units, the host link, the scheduler and the manager. -/
def State.dueTurns (s : State) : List Turn :=
  let ev (d : Due) : Turn := .due s.cur d
  (s.quads.flatMap fun q =>
    ev (.leaseGrant (BitVec.ofNat 6 q.1)) :: ev (.leaseRunEnd (BitVec.ofNat 6 q.1)) :: ev (.quadWake (BitVec.ofNat 6 q.1)) ::
      (q.2.plate.toList.zipIdx.filter fun p => p.1.filling).map fun p =>
        ev (.plateFillComplete (BitVec.ofNat 6 q.1) (BitVec.ofNat 4 p.2))) ++
  (s.etch.filter fun q => !q.2.isEmpty).map (fun q => ev (.etchUnitRun (BitVec.ofNat 9 q.1))) ++
  (if s.store.posted.isEmpty then [] else [ev .hostLinkCompletion]) ++
  (s.mgmt.arrivals.filterMap fun a => match a.parked with
    | some l => if a.woken then some (ev (.parkWake l)) else none
    | none => some (ev (.parkWake 0))) ++
  (if s.mgmt.ctxBusy = 0 then []
   else [ev .create, ev .start, ev .destroy, ev (.scrubComplete s.mgmt.ctxSel)]) ++
  ((s.cur, s.core) :: s.others).filterMap (fun c =>
    if c.2.freezing && !c.2.frozen then some (ev (.freezeComplete (BitVec.ofNat 8 c.1))) else none) ++
  (if s.groups.isEmpty then [] else [ev .groupPlace]) ++
  (s.groups.filter fun g => g.st = .running).map (fun g => ev (.quantumExpiry g.id)) ++
  s.mgmt.trapReports.map (fun r => ev (.groupFail (BitVec.ofNat 8 r.1))) ++
  s.launches.flatMap fun l => [ev (.launchEnd l.id), ev (.completionInterrupt l.id)]

/-- The round that an empty schedule is refilled with: every active core's units, once each, and what may be due, in ascending order
of core. -/
def State.defaultRound (s : State) : List Turn :=
  let cores := smSet s.others s.cur s.core
  ((cores.filter fun c => c.2.active).flatMap fun c => unitsOf c.1 ++ c.2.dueTurns c.1) ++ s.dueTurns

/-! ## The order within a cycle (R166, R261, R395, R411, R428) -/

/-- The cycles that pass before a turn. -/
def Turn.dt : Turn → Nat
  | .unit _ _ dt | .event _ _ dt | .fetchAhead _ dt => dt
  | .due _ _ => 0

/-- A turn without the cycles before it. -/
def Turn.now : Turn → Turn
  | .unit n u _ => .unit n u 0
  | .event n i _ => .event n i 0
  | .due n d => .due n d
  | .fetchAhead n _ => .fetchAhead n 0

/-- The instruction that the SQ in focus stands at, as it holds it or a fetch would find it. -/
def State.sqNext (s : State) : Option Instr :=
  let w := match s.core.sq.holds s.time with
    | some w => some w
    | none => match s.fetchSq with
      | (.ok h _, h2) => some (wordOf h h2)
      | _ => none
  w.bind fun w => (decodeSq w).toOption

/-- The instruction that an engine of the core in focus stands at, of those that its entry keeps. -/
def State.engNext (s : State) (e : Engine) : Option Instr :=
  let g := s.eng e
  match smFind g.words g.pos.toNat with
  | none => none
  | some h =>
    let w := if h.toNat % 2 = 0 then h.toNat else h.toNat + 2 ^ 16 * (smGet g.words (g.pos.toNat + 1) 0).toNat
    if g.st = .running then (decodeEngine e w).toOption else none

/-- The command queues in which the instruction of the SQ in focus arrives: of an ENQ or RENQ its target, of a FENCE.M those into which its
markers have still to go (R166, R182). -/
def State.arrivesIn (s : State) : List (Nat × Nat) :=
  match s.sqNext with
  | some (.enq e _ _ _ _ _ _) => [(s.cur, e.toNat)]
  | some (.renq _ rb e) => [((s.x rb).toNat, e.toNat)]
  | some (.renqNb _ _ rb e) => [((s.x rb).toNat, e.toNat)]
  | some (.fenceM mask) => ((maskEngines mask).filter fun e => !s.core.sq.fencePushed.getLsbD e.id).map fun e => (s.cur, e.id)
  | _ => []

/-- The SQ in focus stands at a barrier word that arrives. -/
def State.arrivesAtBarrier (s : State) : Bool :=
  match s.sqNext with
  | some (.bara _ _) | some (.baraw _ _) => true
  | _ => false

/-- Of two arrivals in one cycle in a queue of core `q`, the core's own SQ comes first, then the others in ascending order (R166). -/
def ownFirst (q n m : Nat) : Bool := m = q || (n ≠ q && m < n)

/-- The SQ of core `n` may not act before that of core `m` in one cycle: both arrive in one queue and `m` ranks first (R166), or both
arrive at barriers and `m` is the lower (R395). -/
def State.sqAfter (s : State) (n m : Nat) : Bool :=
  let a := s.focus n
  let b := s.focus m
  n ≠ m && ((a.arrivesIn.any fun x => b.arrivesIn.contains x && ownFirst x.1 n m) ||
    (m < n && a.arrivesAtBarrier && b.arrivesAtBarrier))

/-- The turn of an engine may not be taken before another of the same cycle: of the AE at a word that reserves a group before that of the VE of
its core (R261), of a CE at an ETCH before that of the CE of a lower core at one (R428). -/
def State.engAfter (s : State) (n : Nat) (e : Engine) (m : Nat) (f : Engine) : Bool :=
  match e, f with
  | .ae, .ve => n = m && match (s.focus n).engNext .ae with
    | some (.ldt _ _ _ _) | some (.fillp _ _ _) => true
    | _ => false
  | .ce, .ce => m < n && match (s.focus n).engNext .ce, (s.focus m).engNext .ce with
    | some (.etch _ _ _ _), some (.etch _ _ _ _) => true
    | _, _ => false
  | _, _ => false

/-- The sender of a row whose arrival a turn is, with the core it arrives at. -/
def Turn.row : Turn → Option (Nat × Nat)
  | .event n (.rowArrival k) _ => some (n, k.toNat)
  | .due n (.rowArrival k) => some (n, k.toNat)
  | _ => none

/-- A turn may not be taken before another of the same cycle: two of SQs, two of engines, or rows that arrive, which are taken in ascending order
of sender (R411). -/
def State.mustFollow (s : State) (t u : Turn) : Bool :=
  match t, u with
  | .unit n .sq _, .unit m .sq _ => s.sqAfter n m
  | .unit n (.eng e) _, .unit m (.eng f) _ => s.engAfter n e m f
  | _, _ => match t.row, u.row with
    | some x, some y => x.1 = y.1 && y.2 < x.2
    | _, _ => false

/-- A turn put back behind the last turn of its cycle that it must follow; none where there is none. -/
def State.postpone (s : State) (t : Turn) (rest : List Turn) : Option (List Turn) :=
  let same := rest.takeWhile fun u => u.dt = 0
  match (same.zipIdx.filter fun u => s.mustFollow t u.1).getLast? with
  | none => none
  | some u => some (rest.take (u.2 + 1) ++ t.now :: rest.drop (u.2 + 1))

/-- The next turn; an empty schedule is refilled. -/
def nextTurn (run : Instr → State → Out) (s : State) : Out :=
  match s.schedule with
  | [] => .next { s.pass 1 with schedule := s.defaultRound }
  | t :: rest =>
    match s.postpone t rest with
    | some l => .next { s.pass t.dt with schedule := l }
    | none => takeTurn run t { s with schedule := rest }

/-! ## An instruction placed where the next step fetches -/

/-- The page that placed words stand in, and its translation. -/
def placedTlb : Tlb :=
  { ctx := 0, base := 0, size := 65536, frame := 0, r := true, w := false, x := true, usr := true, nc := false, xsh := false,
    d := true, priv := false, entry := 0 }

/-- A word of the SQ is stored at 0x1000, the SQ of core 0 runs there in a page it may fetch from, and it has the next turn. -/
def State.placeSq (s : State) (bytes : List Byte) : State :=
  let s := s.focus 0
  { s with
    core.sq.run := .running, core.sq.pc := 0x1000, core.sq.exitAddr := 0
    core.sq.tlb := [{ placedTlb with ctx := s.core.sq.ctxid }]
    core.sq.pending := 0, core.sq.parked := none, core.sq.fetched := none, core.sq.ahead := [], core.sq.nextAt := s.time
    core.freezing := false
    store.mem := writeBytes s.store.mem 0x1000 bytes
    store.fetch := s.store.fetch.filter fun c => c.holder ≠ .icache 0
    store.ubit := s.store.ubit.filter fun k => k ≠ 64
    store.marks := smErase s.store.marks 64
    store.badAt := s.store.badAt.filter fun x => x.2 ≠ 64
    schedule := [.unit 0 .sq 0] }

/-- A word of an engine's block is kept at position 2 of an entry that the engine of core 0 runs, and it has the next turn. -/
def State.placeEngine (s : State) (e : Engine) (halves : List (BitVec 16)) : State :=
  let s := s.focus 0
  let g : Eng :=
    { q := [.entry { addr := 0x1000 }], st := .running, pos := 2, rem := 1, len := 2 + halves.length
      words := halves.zipIdx.map fun h => (2 + h.2, h.1) }
  { s.setEng e g with schedule := [.unit 0 (.eng e) 0] }

end Sys2Proof.Machine
end

