-- ==== Sys2Proof/Machine/Events.lean ====
section
/-! DEFINITION. The events of the table that stand between the units' turns: waits that end, traps, wakes of parked accesses, page
classification and fetch faults. -/

namespace Sys2Proof.Machine

/-- The SQ of the core in focus may act: it runs a group's program and nothing has stopped it. -/
def State.sqLive (s : State) : Bool := s.core.sq.run = .running && !s.core.halted

/-- SLEEPU_WAKE (R217). -/
def execSleepuWake (s : State) : Out :=
  match s.core.sq.sleep with
  | some (t, eng) => .next (if s.sqLive && t.toNat ≤ s.time.toNat then s.sleepDone eng else s)
  | none => .next s

/-- A unit's turn comes next. -/
def State.hurry (s : State) (core : Nat) (u : UnitId) : State := { s with schedule := .unit core u 0 :: s.schedule }

/-- QUEUE_WAIT_RESUME (R177): a unit that stalls on a queue, a token or a slot resumes in the next cycle, and no other unit takes its
turn first. -/
def execQueueWaitResume (u : UnitId) (s : State) : Out :=
  match u with
  | .sq => .next (if s.sqLive then s.hurry s.cur .sq else s)
  | .eng e =>
    let w := (s.eng e).wait.toNat
    .next (if 1 ≤ w && w ≤ 6 && !s.core.halted then s.hurry s.cur (.eng e) else s)

/-- CHECK_RESOLVE (R117). -/
def execCheckResolve (s : State) : Out := .next s.resolveOldest

/-- ASYNC_TRAP_ENTRY (R101). -/
def execAsyncTrapEntry (s : State) : Out :=
  match (if s.sqLive && s.ieNow then s.core.firstPending else none) with
  | some e => .next (s.takeEngineFault e)
  | none => .next s

/-- The units of a core with an access on a table line that a write has woken. -/
def Core.wokenUnits (c : Core) (line : Nat) : List UnitId :=
  (if c.sq.parked = some line && c.sq.woken then [.sq] else []) ++
    (engines.filter fun e => (c.eng e).parked = some line && (c.eng e).woken).map .eng

/-- PARK_WAKE (R355): every access that a write to its table line has woken walks again, an access of another package at once, those of
the cores in the turns that come next. -/
def execParkWake (line : Nat) (s : State) : Out :=
  let s := s.arriveAgain line
  .next ((smSet s.others s.cur s.core).foldr (fun c s => (c.2.wokenUnits line).foldr (fun u s => s.hurry c.1 u) s) s)

/-- PAGE_RECLASSIFY (R318, R347): a fill by the core in focus meets a private leaf of another core. -/
def execPageReclassify (leaf level : Nat) (s : State) : Out :=
  let e := leNat (s.store.readHome leaf 8)
  if leaf % 8 = 0 && leaf < s.packageTop && level ≤ 2 && seg e 0 1 = 1 && isLeaf e && !s.malformed false level e && seg e 62 2 = 1 &&
      seg e 54 8 ≠ s.cur && s.cur < 256 then
    .next (s.classify (some s.cur) true { entry := e, addr := leaf, level := level, bad := false }).2
  else .next s

/-- ILLEGAL_INSTRUCTION (R78): the word at the pc, held or fetched, is no instruction. -/
def execIllegalInstruction (s : State) : Out :=
  let bad (w : Nat) (t : State) : Out :=
    match decodeSq w with
    | .error _ => .next (t.raise .illegalInstruction 0)
    | .ok _ => .next s
  if !s.sqLive then .next s
  else match s.core.sq.holds s.time with
    | some w => bad w s
    | none => match s.fetchSq with
      | (.ok h t, h2) => bad (wordOf h h2) t
      | _ => .next s

/-- FETCH_FAULT (R332): the fetch at the pc faults; of an instruction that the SQ holds nothing is fetched again (R336). -/
def execFetchFault (s : State) : Out :=
  if !s.sqLive || (s.core.sq.holds s.time).isSome then .next s
  else match s.fetchSq with
    | (.fault f s', _) => .next (s'.unpark.raise f.cause f.addr)
    | _ => .next s

end Sys2Proof.Machine
end

