-- ==== Sys2Proof/Machine/Dispatch.lean ====
section
/-! DEFINITION. The dispatch of every instruction to its meaning, one arm per constructor. -/

namespace Sys2Proof.Machine

def exec (i : Instr) (s : State) : Host.Outcome State Fault Refusal :=
  match i with
  | .add rd ra rb w => Sys2Proof.Machine.execAdd rd ra rb w s
  | .sub rd ra rb w => Sys2Proof.Machine.execSub rd ra rb w s
  | .and rd ra rb => Sys2Proof.Machine.execAnd rd ra rb s
  | .or rd ra rb => Sys2Proof.Machine.execOr rd ra rb s
  | .xor rd ra rb => Sys2Proof.Machine.execXor rd ra rb s
  | .andn rd ra rb => Sys2Proof.Machine.execAndn rd ra rb s
  | .sll rd ra rb w => Sys2Proof.Machine.execSll rd ra rb w s
  | .srl rd ra rb w => Sys2Proof.Machine.execSrl rd ra rb w s
  | .sra rd ra rb w => Sys2Proof.Machine.execSra rd ra rb w s
  | .rol rd ra rb w => Sys2Proof.Machine.execRol rd ra rb w s
  | .slt rd ra rb => Sys2Proof.Machine.execSlt rd ra rb s
  | .sltn rd ra rb => Sys2Proof.Machine.execSltn rd ra rb s
  | .min rd ra rb => Sys2Proof.Machine.execMin rd ra rb s
  | .max rd ra rb => Sys2Proof.Machine.execMax rd ra rb s
  | .minn rd ra rb => Sys2Proof.Machine.execMinn rd ra rb s
  | .maxn rd ra rb => Sys2Proof.Machine.execMaxn rd ra rb s
  | .mul rd ra rb w => Sys2Proof.Machine.execMul rd ra rb w s
  | .mulh rd ra rb => Sys2Proof.Machine.execMulh rd ra rb s
  | .mulhn rd ra rb => Sys2Proof.Machine.execMulhn rd ra rb s
  | .div rd ra rb w => Sys2Proof.Machine.execDiv rd ra rb w s
  | .divn rd ra rb w => Sys2Proof.Machine.execDivn rd ra rb w s
  | .rem rd ra rb w => Sys2Proof.Machine.execRem rd ra rb w s
  | .remn rd ra rb w => Sys2Proof.Machine.execRemn rd ra rb w s
  | .clz rd ra w => Sys2Proof.Machine.execClz rd ra w s
  | .ctz rd ra w => Sys2Proof.Machine.execCtz rd ra w s
  | .popc rd ra w => Sys2Proof.Machine.execPopc rd ra w s
  | .bswap rd ra w => Sys2Proof.Machine.execBswap rd ra w s
  | .sext rd ra width => Sys2Proof.Machine.execSext rd ra width s
  | .zext rd ra width => Sys2Proof.Machine.execZext rd ra width s
  | .addi rd ra imm => Sys2Proof.Machine.execAddi rd ra imm s
  | .andi rd ra imm => Sys2Proof.Machine.execAndi rd ra imm s
  | .ori rd ra imm => Sys2Proof.Machine.execOri rd ra imm s
  | .xori rd ra imm => Sys2Proof.Machine.execXori rd ra imm s
  | .slli rd ra amt w => Sys2Proof.Machine.execSlli rd ra amt w s
  | .srli rd ra amt w => Sys2Proof.Machine.execSrli rd ra amt w s
  | .srai rd ra amt w => Sys2Proof.Machine.execSrai rd ra amt w s
  | .roli rd ra amt w => Sys2Proof.Machine.execRoli rd ra amt w s
  | .slti rd ra imm => Sys2Proof.Machine.execSlti rd ra imm s
  | .sltni rd ra imm => Sys2Proof.Machine.execSltni rd ra imm s
  | .movw rd k keep imm => Sys2Proof.Machine.execMovw rd k keep imm s
  | .ld rd ra cls sz off => Sys2Proof.Machine.execLd rd ra cls sz off s
  | .ldn rd ra cls sz off => Sys2Proof.Machine.execLdn rd ra cls sz off s
  | .st rd ra cls sz off => Sys2Proof.Machine.execSt rd ra cls sz off s
  | .ldx rd ra cls sz hint off => Sys2Proof.Machine.execLdx rd ra cls sz hint off s
  | .ldxn rd ra cls sz hint off => Sys2Proof.Machine.execLdxn rd ra cls sz hint off s
  | .stx rd ra cls sz hint off => Sys2Proof.Machine.execStx rd ra cls sz hint off s
  | .amoadd rd ra rb cls scope ord wide => Sys2Proof.Machine.execAmoadd rd ra rb cls scope ord wide s
  | .amoand rd ra rb cls scope ord wide => Sys2Proof.Machine.execAmoand rd ra rb cls scope ord wide s
  | .amoor rd ra rb cls scope ord wide => Sys2Proof.Machine.execAmoor rd ra rb cls scope ord wide s
  | .amoxor rd ra rb cls scope ord wide => Sys2Proof.Machine.execAmoxor rd ra rb cls scope ord wide s
  | .amomin rd ra rb cls scope ord wide => Sys2Proof.Machine.execAmomin rd ra rb cls scope ord wide s
  | .amomax rd ra rb cls scope ord wide => Sys2Proof.Machine.execAmomax rd ra rb cls scope ord wide s
  | .amominn rd ra rb cls scope ord wide => Sys2Proof.Machine.execAmominn rd ra rb cls scope ord wide s
  | .amomaxn rd ra rb cls scope ord wide => Sys2Proof.Machine.execAmomaxn rd ra rb cls scope ord wide s
  | .amoswp rd ra rb cls scope ord wide => Sys2Proof.Machine.execAmoswp rd ra rb cls scope ord wide s
  | .cas rd ra rb cls scope ord wide => Sys2Proof.Machine.execCas rd ra rb cls scope ord wide s
  | .ldo rd ra cls scope ord wide => Sys2Proof.Machine.execLdo rd ra cls scope ord wide s
  | .sto ra rb cls scope ord wide => Sys2Proof.Machine.execSto ra rb cls scope ord wide s
  | .fenceC scope mask => Sys2Proof.Machine.execFenceC scope mask s
  | .fenceM mask => Sys2Proof.Machine.execFenceM mask s
  | .pubc ra rb scope => Sys2Proof.Machine.execPubc ra rb scope s
  | .cache ra rb op scope => Sys2Proof.Machine.execCache ra rb op scope s
  | .beq ra rb off => Sys2Proof.Machine.execBeq ra rb off s
  | .bne ra rb off => Sys2Proof.Machine.execBne ra rb off s
  | .blt ra rb off => Sys2Proof.Machine.execBlt ra rb off s
  | .bge ra rb off => Sys2Proof.Machine.execBge ra rb off s
  | .bltn ra rb off => Sys2Proof.Machine.execBltn ra rb off s
  | .bgen ra rb off => Sys2Proof.Machine.execBgen ra rb off s
  | .jal rd off => Sys2Proof.Machine.execJal rd off s
  | .jalr rd ra imm => Sys2Proof.Machine.execJalr rd ra imm s
  | .enq eng ra ab give take1 take2 take3 => Sys2Proof.Machine.execEnq eng ra ab give take1 take2 take3 s
  | .renq ra rb eng => Sys2Proof.Machine.execRenq ra rb eng s
  | .renqNb rd ra rb eng => Sys2Proof.Machine.execRenqNb rd ra rb eng s
  | .twait eng => Sys2Proof.Machine.execTwait eng s
  | .tsig eng => Sys2Proof.Machine.execTsig eng s
  | .tcnt rd eng => Sys2Proof.Machine.execTcnt rd eng s
  | .bpop rd eng => Sys2Proof.Machine.execBpop rd eng s
  | .bpopS rd eng => Sys2Proof.Machine.execBpopS rd eng s
  | .bpush ra eng => Sys2Proof.Machine.execBpush ra eng s
  | .spec off => Sys2Proof.Machine.execSpec off s
  | .commit => Sys2Proof.Machine.execCommit s
  | .abort => Sys2Proof.Machine.execAbort s
  | .specq rd => Sys2Proof.Machine.execSpecq rd s
  | .bara scope id => Sys2Proof.Machine.execBara scope id s
  | .barw scope id => Sys2Proof.Machine.execBarw scope id s
  | .baraw scope id => Sys2Proof.Machine.execBaraw scope id s
  | .pqpush ra rb scope => Sys2Proof.Machine.execPqpush ra rb scope s
  | .pqpop rd scope => Sys2Proof.Machine.execPqpop rd scope s
  | .pqpeek rd scope => Sys2Proof.Machine.execPqpeek rd scope s
  | .rdtime rd => Sys2Proof.Machine.execRdtime rd s
  | .sleepu ra eng => Sys2Proof.Machine.execSleepu ra eng s
  | .trap code => Sys2Proof.Machine.execTrap code s
  | .eret => Sys2Proof.Machine.execEret s
  | .wfi => Sys2Proof.Machine.execWfi s
  | .brk => Sys2Proof.Machine.execBrk s
  | .rdsys rd reg => Sys2Proof.Machine.execRdsys rd reg s
  | .wrsys ra reg => Sys2Proof.Machine.execWrsys ra reg s
  | .wview ra view => Sys2Proof.Machine.execWview ra view s
  | .tdset ra id => Sys2Proof.Machine.execTdset ra id s
  | .patch ra rb off width => Sys2Proof.Machine.execPatch ra rb off width s
  | .tlbinvVa ra => Sys2Proof.Machine.execTlbinvVa ra s
  | .tlbinvCtx ra => Sys2Proof.Machine.execTlbinvCtx ra s
  | .tlbinvAll => Sys2Proof.Machine.execTlbinvAll s
  | .eresume eng => Sys2Proof.Machine.execEresume eng s
  | .efreeze eng => Sys2Proof.Machine.execEfreeze eng s
  | .equery rd eng => Sys2Proof.Machine.execEquery rd eng s
  | .cAddi rd imm => Sys2Proof.Machine.execCAddi rd imm s
  | .cMov rd rs => Sys2Proof.Machine.execCMov rd rs s
  | .cAdd rd rs => Sys2Proof.Machine.execCAdd rd rs s
  | .cSub rd rs => Sys2Proof.Machine.execCSub rd rs s
  | .cLd rd off => Sys2Proof.Machine.execCLd rd off s
  | .cSt rd off => Sys2Proof.Machine.execCSt rd off s
  | .cBeqz ra off => Sys2Proof.Machine.execCBeqz ra off s
  | .cBnez ra off => Sys2Proof.Machine.execCBnez ra off s
  | .cJ off => Sys2Proof.Machine.execCJ off s
  | .cSlli rd amt => Sys2Proof.Machine.execCSlli rd amt s
  | .cSrli rd amt => Sys2Proof.Machine.execCSrli rd amt s
  | .cAndi rd imm => Sys2Proof.Machine.execCAndi rd imm s
  | .cRet => Sys2Proof.Machine.execCRet s
  | .cTwait eng => Sys2Proof.Machine.execCTwait eng s
  | .nop => Sys2Proof.Machine.execNop s
  | .bexit tgt => Sys2Proof.Machine.execBexit tgt s
  | .bskip tgt cnt => Sys2Proof.Machine.execBskip tgt cnt s
  | .stop => Sys2Proof.Machine.execStop s
  | .bpushm tgt msk summary => Sys2Proof.Machine.execBpushm tgt msk summary s
  | .vmsel msk => Sys2Proof.Machine.execVmsel msk s
  | .rot view => Sys2Proof.Machine.execRot view s
  | .vadd d s1 s2 m => Sys2Proof.Machine.execVadd d s1 s2 m s
  | .vsub d s1 s2 m => Sys2Proof.Machine.execVsub d s1 s2 m s
  | .vmul d s1 s2 m => Sys2Proof.Machine.execVmul d s1 s2 m s
  | .vfma d s1 s2 m => Sys2Proof.Machine.execVfma d s1 s2 m s
  | .vfms d s1 s2 m => Sys2Proof.Machine.execVfms d s1 s2 m s
  | .vmin d s1 s2 m => Sys2Proof.Machine.execVmin d s1 s2 m s
  | .vmax d s1 s2 m => Sys2Proof.Machine.execVmax d s1 s2 m s
  | .vand d s1 s2 m => Sys2Proof.Machine.execVand d s1 s2 m s
  | .vor d s1 s2 m => Sys2Proof.Machine.execVor d s1 s2 m s
  | .vxor d s1 s2 m => Sys2Proof.Machine.execVxor d s1 s2 m s
  | .vshl d s1 s2 m => Sys2Proof.Machine.execVshl d s1 s2 m s
  | .vshr d s1 s2 m => Sys2Proof.Machine.execVshr d s1 s2 m s
  | .vadds d s1 s2 m => Sys2Proof.Machine.execVadds d s1 s2 m s
  | .vsubs d s1 s2 m => Sys2Proof.Machine.execVsubs d s1 s2 m s
  | .vmulh d s1 s2 m => Sys2Proof.Machine.execVmulh d s1 s2 m s
  | .vabsd d s1 s2 m => Sys2Proof.Machine.execVabsd d s1 s2 m s
  | .vcmpeq d s1 s2 m => Sys2Proof.Machine.execVcmpeq d s1 s2 m s
  | .vcmpne d s1 s2 m => Sys2Proof.Machine.execVcmpne d s1 s2 m s
  | .vcmplt d s1 s2 m => Sys2Proof.Machine.execVcmplt d s1 s2 m s
  | .vcmple d s1 s2 m => Sys2Proof.Machine.execVcmple d s1 s2 m s
  | .vsel d s1 s2 => Sys2Proof.Machine.execVsel d s1 s2 s
  | .vperm d s1 s2 m => Sys2Proof.Machine.execVperm d s1 s2 m s
  | .vdot4 d s1 s2 m => Sys2Proof.Machine.execVdot4 d s1 s2 m s
  | .vlut d s1 s2 m => Sys2Proof.Machine.execVlut d s1 s2 m s
  | .vscl d s1 s2 m => Sys2Proof.Machine.execVscl d s1 s2 m s
  | .vmand d s1 s2 => Sys2Proof.Machine.execVmand d s1 s2 s
  | .vmor d s1 s2 => Sys2Proof.Machine.execVmor d s1 s2 s
  | .vmxor d s1 s2 => Sys2Proof.Machine.execVmxor d s1 s2 s
  | .vmov d s1 m => Sys2Proof.Machine.execVmov d s1 m s
  | .vneg d s1 m => Sys2Proof.Machine.execVneg d s1 m s
  | .vabs d s1 m => Sys2Proof.Machine.execVabs d s1 m s
  | .vnot d s1 m => Sys2Proof.Machine.execVnot d s1 m s
  | .vcvt d s1 m => Sys2Proof.Machine.execVcvt d s1 m s
  | .vcvtd d s1 => Sys2Proof.Machine.execVcvtd d s1 s
  | .vcvtu d s1 m => Sys2Proof.Machine.execVcvtu d s1 m s
  | .vrnd d s1 m => Sys2Proof.Machine.execVrnd d s1 m s
  | .vexp2 d s1 m => Sys2Proof.Machine.execVexp2 d s1 m s
  | .vlog2 d s1 m => Sys2Proof.Machine.execVlog2 d s1 m s
  | .vexp d s1 m => Sys2Proof.Machine.execVexp d s1 m s
  | .vrcp d s1 m => Sys2Proof.Machine.execVrcp d s1 m s
  | .vrsq d s1 m => Sys2Proof.Machine.execVrsq d s1 m s
  | .vsqrt d s1 m => Sys2Proof.Machine.execVsqrt d s1 m s
  | .vsig d s1 m => Sys2Proof.Machine.execVsig d s1 m s
  | .vtanh d s1 m => Sys2Proof.Machine.execVtanh d s1 m s
  | .vrdsum d s1 m => Sys2Proof.Machine.execVrdsum d s1 m s
  | .vrdmax d s1 m => Sys2Proof.Machine.execVrdmax d s1 m s
  | .vrdmin d s1 m => Sys2Proof.Machine.execVrdmin d s1 m s
  | .vpopc d s1 m => Sys2Proof.Machine.execVpopc d s1 m s
  | .vclz d s1 m => Sys2Proof.Machine.execVclz d s1 m s
  | .vbcast d s1 m => Sys2Proof.Machine.execVbcast d s1 m s
  | .vmnot d s1 => Sys2Proof.Machine.execVmnot d s1 s
  | .vmcnt d s1 m => Sys2Proof.Machine.execVmcnt d s1 m s
  | .viota d m => Sys2Proof.Machine.execViota d m s
  | .vmode mode => Sys2Proof.Machine.execVmode mode s
  | .scset d s1 => Sys2Proof.Machine.execScset d s1 s
  | .scadde d s1 => Sys2Proof.Machine.execScadde d s1 s
  | .scmax d s1 => Sys2Proof.Machine.execScmax d s1 s
  | .scmin d s1 => Sys2Proof.Machine.execScmin d s1 s
  | .scmov d s1 => Sys2Proof.Machine.execScmov d s1 s
  | .scbind d s1 => Sys2Proof.Machine.execScbind d s1 s
  | .scunb d => Sys2Proof.Machine.execScunb d s
  | .scrd d s1 => Sys2Proof.Machine.execScrd d s1 s
  | .scwr d s1 => Sys2Proof.Machine.execScwr d s1 s
  | .scnew d => Sys2Proof.Machine.execScnew d s
  | .vmovi d imm m => Sys2Proof.Machine.execVmovi d imm m s
  | .ldv opd p cls imm => Sys2Proof.Machine.execLdv opd p cls imm s
  | .stv opd p cls imm => Sys2Proof.Machine.execStv opd p cls imm s
  | .lds opd p cls imm => Sys2Proof.Machine.execLds opd p cls imm s
  | .sts opd p cls imm => Sys2Proof.Machine.execSts opd p cls imm s
  | .gath opd p cls idx size zp => Sys2Proof.Machine.execGath opd p cls idx size zp s
  | .scat opd p cls idx size => Sys2Proof.Machine.execScat opd p cls idx size s
  | .ldt opd p cls id => Sys2Proof.Machine.execLdt opd p cls id s
  | .stt opd p cls id => Sys2Proof.Machine.execStt opd p cls id s
  | .ldi pd size p cls imm => Sys2Proof.Machine.execLdi pd size p cls imm s
  | .pref p cls imm => Sys2Proof.Machine.execPref p cls imm s
  | .srchk opd p cls cols k => Sys2Proof.Machine.execSrchk opd p cls cols k s
  | .hist opd p cls experts => Sys2Proof.Machine.execHist opd p cls experts s
  | .atoms opd p cls op => Sys2Proof.Machine.execAtoms opd p cls op s
  | .spillp opd p cls => Sys2Proof.Machine.execSpillp opd p cls s
  | .fillp opd p cls => Sys2Proof.Machine.execFillp opd p cls s
  | .paddi pd ps imm => Sys2Proof.Machine.execPaddi pd ps imm s
  | .padd pd ps => Sys2Proof.Machine.execPadd pd ps s
  | .pmovi pd imm => Sys2Proof.Machine.execPmovi pd imm s
  | .pmova pd arg => Sys2Proof.Machine.execPmova pd arg s
  | .pmuli pd ps imm => Sys2Proof.Machine.execPmuli pd ps imm s
  | .pcmp ps pt cond tgt => Sys2Proof.Machine.execPcmp ps pt cond tgt s
  | .mmul acc src q n rows z sc => Sys2Proof.Machine.execMmul acc src q n rows z sc s
  | .mfill q reps => Sys2Proof.Machine.execMfill q reps s
  | .mpin q => Sys2Proof.Machine.execMpin q s
  | .munpin q => Sys2Proof.Machine.execMunpin q s
  | .minv q => Sys2Proof.Machine.execMinv q s
  | .mqry q tgt => Sys2Proof.Machine.execMqry q tgt s
  | .lrel => Sys2Proof.Machine.execLrel s
  | .mclr acc => Sys2Proof.Machine.execMclr acc s
  | .mqset q id arg grow => Sys2Proof.Machine.execMqset q id arg grow s
  | .mqadd q k => Sys2Proof.Machine.execMqadd q k s
  | .mstat acc => Sys2Proof.Machine.execMstat acc s
  | .cpy pa pb pc cls dspace sspace => Sys2Proof.Machine.execCpy pa pb pc cls dspace sspace s
  | .cpyt pa pb pc cls id => Sys2Proof.Machine.execCpyt pa pb pc cls id s
  | .cpyacc pa pb cls acc ty => Sys2Proof.Machine.execCpyacc pa pb cls acc ty s
  | .fill pa pb pc cls dspace esz => Sys2Proof.Machine.execFill pa pb pc cls dspace esz s
  | .etch pa pb pc ch => Sys2Proof.Machine.execEtch pa pb pc ch s
  | .roundo id => Sys2Proof.Machine.execRoundo id s
  | .roundc id => Sys2Proof.Machine.execRoundc id s
  | .xput pa pb pc cls dev => Sys2Proof.Machine.execXput pa pb pc cls dev s
  | .xget pa pb pc cls dev => Sys2Proof.Machine.execXget pa pb pc cls dev s
  | .xred pa pb pc cls dev op => Sys2Proof.Machine.execXred pa pb pc cls dev op s
  | .xsig pa pb cls dev => Sys2Proof.Machine.execXsig pa pb cls dev s
  | .xsend pa pb pc cls tgt => Sys2Proof.Machine.execXsend pa pb pc cls tgt s
  | .xadm pa pb pc => Sys2Proof.Machine.execXadm pa pb pc s
  | .xrefq pa pb => Sys2Proof.Machine.execXrefq pa pb s
  | .xwait pa pb cond => Sys2Proof.Machine.execXwait pa pb cond s
  | .entryStart e => Sys2Proof.Machine.execEntryStart e s
  | .repetitionEnd e half => Sys2Proof.Machine.execRepetitionEnd e half s
  | .entryComplete e => Sys2Proof.Machine.execEntryComplete e s
  | .veWriteLand => Sys2Proof.Machine.execVeWriteLand s
  | .dataQueueArrival q => Sys2Proof.Machine.execDataQueueArrival q s
  | .aeLoadReturn idx => Sys2Proof.Machine.execAeLoadReturn idx s
  | .ldiDataReturn idx => Sys2Proof.Machine.execLdiDataReturn idx s
  | .scratchpadAccessComplete idx => Sys2Proof.Machine.execScratchpadAccessComplete idx s
  | .sleepuWake => Sys2Proof.Machine.execSleepuWake s
  | .queueWaitResume u => Sys2Proof.Machine.execQueueWaitResume u s
  | .checkResolve => Sys2Proof.Machine.execCheckResolve s
  | .asyncTrapEntry => Sys2Proof.Machine.execAsyncTrapEntry s
  | .parkWake line => Sys2Proof.Machine.execParkWake line s
  | .pageReclassify leaf level => Sys2Proof.Machine.execPageReclassify leaf level s
  | .leaseGrant quad => Sys2Proof.Machine.execLeaseGrant quad s
  | .leaseRunEnd quad => Sys2Proof.Machine.execLeaseRunEnd quad s
  | .plateFillComplete quad plate remaps => Sys2Proof.Machine.execPlateFillComplete quad plate remaps s
  | .mmulComplete => Sys2Proof.Machine.execMmulComplete s
  | .gets h sector ctx hint => Sys2Proof.Machine.execGets h sector ctx hint s
  | .getm h sector ctx window hint => Sys2Proof.Machine.execGetm h sector ctx window hint s
  | .putm h sector => Sys2Proof.Machine.execPutm h sector s
  | .inv h sector => Sys2Proof.Machine.execInv h sector s
  | .invack h sector up => Sys2Proof.Machine.execInvack h sector up s
  | .fwdS h sector => Sys2Proof.Machine.execFwdS h sector s
  | .fwdM h sector => Sys2Proof.Machine.execFwdM h sector s
  | .data h sector flit => Sys2Proof.Machine.execData h sector flit s
  | .replacement h sector => Sys2Proof.Machine.execReplacement h sector s
  | .create => Sys2Proof.Machine.execCreate s
  | .start => Sys2Proof.Machine.execStart s
  | .destroy => Sys2Proof.Machine.execDestroy s
  | .scrubComplete ctx => Sys2Proof.Machine.execScrubComplete ctx s
  | .freeze core => Sys2Proof.Machine.execFreeze core s
  | .freezeComplete core => Sys2Proof.Machine.execFreezeComplete core s
  | .resume core => Sys2Proof.Machine.execResume core s
  | .restore core mgr => Sys2Proof.Machine.execRestore core mgr s
  | .snapdataAccess mgr value => Sys2Proof.Machine.execSnapdataAccess mgr value s
  | .graphaddrWrite fn v => Sys2Proof.Machine.execGraphaddrWrite fn v s
  | .triggerWrite fn v => Sys2Proof.Machine.execTriggerWrite fn v s
  | .launchRegisterWrite fn off data => Sys2Proof.Machine.execLaunchRegisterWrite fn off data s
  | .groupPlace => Sys2Proof.Machine.execGroupPlace s
  | .quantumExpiry group => Sys2Proof.Machine.execQuantumExpiry group s
  | .coreExit => Sys2Proof.Machine.execCoreExit s
  | .groupFail core => Sys2Proof.Machine.execGroupFail core s
  | .launchEnd launch => Sys2Proof.Machine.execLaunchEnd launch s
  | .completionInterrupt launch => Sys2Proof.Machine.execCompletionInterrupt launch s
  | .rowArrival sender => Sys2Proof.Machine.execRowArrival sender s
  | .sendAnswer idx => Sys2Proof.Machine.execSendAnswer idx s
  | .refusalArrival idx => Sys2Proof.Machine.execRefusalArrival idx s
  | .etchUnitRun chan => Sys2Proof.Machine.execEtchUnitRun chan s
  | .etchYield chan ops => Sys2Proof.Machine.execEtchYield chan ops s
  | .roundAck round chan => Sys2Proof.Machine.execRoundAck round chan s
  | .remoteAccess dev core flit => Sys2Proof.Machine.execRemoteAccess dev core flit s
  | .remoteAck flit => Sys2Proof.Machine.execRemoteAck flit s
  | .flitReceive port flit corrected => Sys2Proof.Machine.execFlitReceive port flit corrected s
  | .replayRequest port seq => Sys2Proof.Machine.execReplayRequest port seq s
  | .laneFailure port => Sys2Proof.Machine.execLaneFailure port s
  | .trainComplete port lanes peer => Sys2Proof.Machine.execTrainComplete port lanes peer s
  | .linkStart port => Sys2Proof.Machine.execLinkStart port s
  | .linkStop port => Sys2Proof.Machine.execLinkStop port s
  | .startSequence src boot => Sys2Proof.Machine.execStartSequence src boot s
  | .minimalModeRetry boot => Sys2Proof.Machine.execMinimalModeRetry boot s
  | .thermalTrip boot => Sys2Proof.Machine.execThermalTrip boot s
  | .attestationRequest nonce => Sys2Proof.Machine.execAttestationRequest nonce s
  | .worldqWrite v => Sys2Proof.Machine.execWorldqWrite v s
  | .worldrWrite v => Sys2Proof.Machine.execWorldrWrite v s
  | .worlduWrite v => Sys2Proof.Machine.execWorlduWrite v s
  | .debugstWrite v => Sys2Proof.Machine.execDebugstWrite v s
  | .quadP1 quad mgr => Sys2Proof.Machine.execQuadP1 quad mgr s
  | .quadP2 quad mgr => Sys2Proof.Machine.execQuadP2 quad mgr s
  | .quadWake quad => Sys2Proof.Machine.execQuadWake quad s
  | .dieSleep die => Sys2Proof.Machine.execDieSleep die s
  | .dieWake die => Sys2Proof.Machine.execDieWake die s
  | .fnpolicyWrite v => Sys2Proof.Machine.execFnpolicyWrite v s
  | .plmaskWrite v => Sys2Proof.Machine.execPlmaskWrite v s
  | .pltagWrite n v => Sys2Proof.Machine.execPltagWrite n v s
  | .estateWrite e v => Sys2Proof.Machine.execEstateWrite e v s
  | .vmodeWrite v => Sys2Proof.Machine.execVmodeWrite v s
  | .viewWordWrite k v => Sys2Proof.Machine.execViewWordWrite k v s
  | .apertureRead fn off len => Sys2Proof.Machine.execApertureRead fn off len s
  | .apertureWrite fn off data => Sys2Proof.Machine.execApertureWrite fn off data s
  | .illegalInstruction => Sys2Proof.Machine.execIllegalInstruction s
  | .fetchFault => Sys2Proof.Machine.execFetchFault s
  | .hostLinkCompletion ok => Sys2Proof.Machine.execHostLinkCompletion ok s
  | .debugAccess core req => Sys2Proof.Machine.execDebugAccess core req s
  | .watchdog boot => Sys2Proof.Machine.execWatchdog boot s
  | .podJob device ctx route pkgs => Sys2Proof.Machine.execPodJob device ctx route pkgs s
  | .quadP0 quad mgr => Sys2Proof.Machine.execQuadP0 quad mgr s

end Sys2Proof.Machine
end

