-- ==== Sys2Proof/Machine/Step.lean ====
section
/-! DEFINITION. One step of the machine: the next turn of its schedule. -/

namespace Sys2Proof.Machine

/-- One step: the turn at the head of the schedule is taken (assumption log 1). -/
def step (s : State) : Host.Outcome State Fault Refusal := nextTurn exec s

/-- The machine with a word placed where the next step fetches: a word that the SQ's decoder reads stands at the pc of core 0, any
other in an entry that its engine runs (assumption logs 7, 8). -/
def State.withFetchWord (s : State) (nbits w : Nat) : State :=
  if (decodeSq w).toOption.isSome then s.placeSq (leBytes (nbits / 8) w)
  else
    let halves : List (BitVec 16) := if nbits = 16 then [bits w 0 16] else [bits w 0 16, bits w 16 16]
    match [Engine.ve, .ae, .me, .ce, .xe].find? fun e => (decodeEngine e w).toOption.isSome with
    | some e => s.placeEngine e halves
    | none => s.placeSq (leBytes (nbits / 8) w)

end Sys2Proof.Machine
end

