-- ==== Sys2Proof/Safety.lean ====
section
/-! DEFINITION. The words that the claims are stated in: when an instruction goes on, and with which machine. -/

namespace Sys2Proof.Machine

/-! ## The SQ -/

/-- The machine with which an instruction that is a resolution point goes on (R120): the same outside a region, the committed one in
a region whose checks have all resolved, none while a check is outstanding. -/
def State.resolved (s : State) : Option State :=
  if !s.core.sq.spec.act || s.core.sq.resolvedAt = some s.core.sq.pc then some s
  else if s.core.sq.spec.checks.isEmpty then some s.implicitCommit
  else none

/-- The same where only some forms of the instruction are resolution points. -/
def State.resolvedIf (s : State) (b : Bool) : Option State := if b then s.resolved else some s

/-- Where an access of the SQ goes on (R349): its address translates, names no device register, and a memory request is free
(R19). -/
def State.reach (s : State) (k : Kind) (va : Word) : Option (Nat × Tlb × State) :=
  match s.translate s.sqAgent k va with
  | .ok pa t s' => if isDevice pa || 4096 ≤ s'.requests then none else some (pa, t, s'.unpark)
  | _ => none

/-- The value that a load of the SQ finds (R112, R116): held bytes first, then memory's; none where a sector is marked or the host link
is still busy. `hs` are the holders on its way. -/
def State.found (s : State) (hs : List Holder) (al : Alloc) (t : Tlb) (pa n : Nat) : Option (Nat × State) :=
  let held := s.core.sq.spec.held
  if allHeld held pa n then some (leNat (overlay held pa n []), s)
  else if s.hostBusy pa || (s.marked hs t pa n).isSome then none
  else
    let r := s.loadPhys hs al t pa n
    some (leNat (overlay held pa n r.1), r.2)

/-- What an atomic reads (R299): the old value, the machine after the read, and the holders on its way. -/
def State.atomRead (s : State) (t : Tlb) (pa n : Nat) : Nat × State × List Holder :=
  let a := s.atHome t pa
  let r := a.1.loadPhys a.2 .all t pa n
  (leNat r.1, r.2, a.2)

/-- The storage without the copies: every value, mark and bit at home. -/
def Store.data (st : Store) : Store := { st with coh := {}, fetch := [], nc := [] }

/-- A quad without what the coherence of lines moves in it: the STALE bits of its plates and two of its counters. -/
def Quad.rest (q : Quad) : Quad := { q with plate := vmap (fun p => { p with stale := false }) q.plate, pfdrop := 0, sfevict := 0 }

/-- The pieces of a range of PUBC or CACHE that translates whole, and the machine after it (R321, R339). -/
def State.range (s : State) (k : Kind) (a n : Word) : Option (List (Nat × Nat × Tlb) × State) :=
  match s.pages s.sqAgent k (a.toNat + n.toNat) (n.toNat / 4096 + 2) a.toNat [] with
  | .ok ps s' => some (ps, s'.unpark)
  | _ => none

/-- Everything of the machine but the registers x1 to x31, the pc and what is kept of the instruction that stands at the pc. -/
def State.besideX (s : State) : State :=
  { s with core.sq := { s.core.sq.leave with x := Vector.replicate 32 0, pc := 0 } }

/-- A system register that RDSYS may read and WRSYS write at the privilege of the SQ (R106). -/
def State.sysOk (s : State) (n : Nat) : Bool := (s.sysFault n).isNone

/-! ## The VE -/

/-- An element word of the VE may issue with element type `t` (R135, R136, R144): the values that it reads from `reads`, where its
result goes, and the core that has read them; none where a view does not stand or an operand is not ready. -/
def State.veReady (s : State) (t : Ty) (order typed raw reads : List (BitVec 8)) (d : BitVec 8) :
    Option (List Granule × VDest × Core) :=
  if s.core.wordType order = some t && typed.all (s.core.operandOk (some t)) && raw.all (s.core.operandOk none) then
    match s.core.readSources s.act.entry.args t.width reads with
    | .error _ => none
    | .ok (gs, c) =>
      match c.veTarget d with
      | .error _ => none
      | .ok (dst, c) => some (gs, dst, c)
  else none

/-- The machine after an element word: its value is scheduled to land `lat` VE cycles later in the elements of `merge`, its tag
change with it where it goes to a granule, and the engine is at the next word (R138-R140, R144, R263). -/
def State.veWrote (s : State) (c : Core) (t : Ty) (lat : Nat) (dst : VDest) (merge : BitVec 1024) (g : Granule) (tag : VTag := .clear) :
    State :=
  let w : VWrite := { left := lat, dests := [dst], data := [g], merge := merge, esz := t.size, tag := dst.tagChange tag, latch := true }
  State.wordDone { s with core := c.schedule w } 2

/-- The machine after a word that changes only the tag of a granule, two VE cycles later (R269, R270). -/
def State.veTagged (s : State) (c : Core) (g : Nat) (tag : VTag) : State :=
  State.wordDone { s with core := c.schedule { left := 2, dests := [.gran g], tag := tag } } 2

/-! ## The AE -/

/-- The pointers that a word of the AE uses are ready: no pending LDI writes one (R192, R194). -/
def State.ptrsReady (s : State) (ps : List (BitVec 4)) : Bool := !ps.any fun p => s.core.loading (.ptr p)

/-- No access of a class is on the wheel: one of the AE may follow in program order (R193, R199). -/
def State.inOrder (s : State) (cls : BitVec 4) : Bool := !s.core.onWheel cls

/-- The word may also send `n` memory requests (R19). -/
def State.memReady (s : State) (ps : List (BitVec 4)) (n : Nat) : Bool := s.ptrsReady ps && s.requests + n ≤ 4096

/-- Where a load of the AE goes, and what reserves it; none where a view does not stand or a data queue is full (R176, R204). -/
def State.loadTarget (s : State) (f : BitVec 8) : Option (Core → LDest × Core) :=
  match operand f with
  | .queue q =>
    if (vget s.core.dq q).length < 8 then
      some fun c => (.dq q c.seq, { c with dq := vset c.dq q (vget c.dq q ++ [.reserved c.seq]), seq := c.seq + 1 })
    else none
  | .main v i => (s.core.granuleOf v i).map fun g c => (.gran g, c)
  | .ofile o => some fun c => (.ofile o, c)
  | _ => none

/-- The 1 KiB that a store of the AE reads, and the core with a queue entry popped; none where it must wait (R176, R193). -/
def State.storeValue (s : State) (f : BitVec 8) : Option (Granule × Core) :=
  match operand f with
  | .main v i =>
    match s.core.granuleOf v i with
    | some g => if s.core.loading (.gran g) then none else some (s.core.regs.granule g, s.core)
    | none => none
  | .ofile o => if s.core.loading (.ofile o) then none else some (vget s.core.regs.ofile o, s.core)
  | .queue q =>
    match vget s.core.sqq (q.setWidth 1) with
    | .full g :: rest => some (g, { s.core with sqq := vset s.core.sqq (q.setWidth 1) rest })
    | _ => none
  | _ => none

/-- The bytes of a store: those a stopped word has kept, else those of its source (R353). -/
def State.storeBytes (s : State) (f : BitVec 8) : Option (List Byte × Core) :=
  (s.storeValue f).map fun r =>
    let kept := (s.act.part.map (·.src)).getD []
    (if kept.isEmpty then granBytes r.1 else kept, r.2)

/-- The pieces of an access of an engine, all translated or failed, with no read behind posted writes and no request beyond the limit
(R19, R349, R353). -/
def State.span (s : State) (ag : Agent) (k : Kind) (l : List (Word × Nat)) : Option (List Piece × State) :=
  match s.split (some s.cur) ag k l with
  | .ok ps s' => if s'.mustWait k ps then none else some (ps, s'.unparkEngine l)
  | _ => none

/-- The pieces of an access that stops at the first that cannot be reached, as far as that one (R241, R429). -/
def State.spanTo (s : State) (who : Option Nat) (ag : Agent) (k : Kind) (l : List (Word × Nat)) : Option (List Piece × State) :=
  match s.splitTo who ag k l with
  | .ok ps s' => if s'.mustWait k ps then none else some (ps, s'.unparkEngine l)
  | _ => none

/-- The sectors that a vector access has still to do, where every one of them can perform (R353). -/
def State.sectorsLeft (s : State) (ag : Agent) (k : Kind) (ea : Word) (n : Nat) :
    Option (List (Nat × Word × Except Cause (Nat × Tlb)) × State) :=
  match s.span ag k (s.leftPieces ea n) with
  | none => none
  | some (ps, s') =>
    let l := (ps.flatMap fun p => p.sectors ea).filter fun x => !(s.act.part.getD {}).done.contains x.1
    let l := if k.read then l.map s'.readable else l
    if (firstBad l).isNone then some (l, s') else none

/-- The group that a word that binds holds: the one it has kept, or a new one (R272); none where no group is free. -/
def State.groupHeld (s : State) : Option (Nat × State) :=
  let p := s.act.part.getD {}
  match p.group with
  | some k => some (k, s)
  | none =>
    s.core.allocate.map fun r => (r.1, State.upd { s with core := r.2 } fun e => { e with part := some { p with group := some r.1 } })

/-- The rows of a gather, each read or, with `zp`, replaced by zeros where it is marked (R205). -/
def State.rowsRead (ag : Agent) (size : Nat) (zp : Bool) : List (Nat × Word) → List Byte → Nat → State → Option (List Byte × Nat × State)
  | [], buf, z, s => some (buf, z, s)
  | (_, a) :: rest, buf, z, s =>
    match s.span ag { read := true } (piecesOf a size) with
    | none => none
    | some (ps, s') =>
      let secs := ps.flatMap fun p => p.sectors a
      if (firstBad secs).isSome then none
      else if (firstBad (secs.map s'.readable)).isSome then
        if zp then State.rowsRead ag size zp rest (buf ++ List.replicate size 0) (z + 1) s' else none
      else
        let r := secs.foldl (s'.readInto .all) (List.replicate size 0, s')
        State.rowsRead ag size zp rest (buf ++ r.1) z r.2

/-- The sectors of a scatter written in order (R207). -/
def State.rowsWritten (ag : Agent) (src : List Byte) : List (Nat × Word) → State → Option State
  | [], s => some s
  | (i, va) :: rest, s =>
    match s.span ag { write := true } [(va, 64)] with
    | none => none
    | some (ps, s') =>
      let secs := ps.flatMap fun p => p.sectors (va - BitVec.ofNat 64 (64 * i))
      if (firstBad secs).isSome then none
      else State.rowsWritten ag src rest
        ((secs.foldl (s'.writeFrom .all src) s').upd fun e => { e with part := some { (e.part.getD {}) with done := List.range (i + 1), src := src } })

/-- Runs of bytes read in order, every one of them readable (R272, R276). -/
def State.runsRead (ag : Agent) (al : Alloc) : List (Nat × Word × Nat) → List Byte → State → Option (List Byte × State)
  | [], buf, s => some (buf, s)
  | (_, va, n) :: rest, buf, s =>
    match s.spanTo (some s.cur) ag { read := true } (piecesOf va n) with
    | none => none
    | some (ps, s') =>
      if (ps.findSome? s'.markIn).isSome then none
      else
        let r := s'.readPieces al ps
        State.runsRead ag al rest (buf ++ r.1) r.2

/-- Runs of bytes written in order, every one of them writable (R274, R275). A run that a stopped word has written is not written again. -/
def State.runsWritten (ag : Agent) (al : Alloc) (data : List Byte) : List (Nat × Nat × Word × Nat) → State → Option State
  | [], s => some s
  | (_, off, va, n) :: rest, s =>
    match s.span ag { write := true } ((piecesOf va n).filter fun p => !((s.act.part.getD {}).done.contains (unitOf (off + (p.1 - va).toNat)))) with
    | none => none
    | some (todo, s') =>
      let place (p : Piece) : Nat := off + (p.va - va).toNat
      if todo.any fun p => match p.res with | .ok _ => false | .error _ => true then none
      else
        let put (s : State) (p : Piece) : State :=
          match p.res with
          | .ok (pa, t) => s.storeAcc s.engHolders al t pa ((data.drop (place p)).take p.len)
          | .error _ => s
        let p0 := s'.act.part.getD {}
        State.runsWritten ag al data rest ((todo.foldl put s').upd fun e =>
          { e with part := some { p0 with done := p0.done ++ todo.map fun p => unitOf (place p), src := data } })

/-! ## The ME -/

/-- The machine with which a lease word goes on (R230, R231): its quad is in P0, and its core holds the lease, from the cycle on in which the run
begins, with fewer than 16 words of the run behind it, or takes it back at once; none where it waits. A run that is spent ends first. A word
in its fill phase goes on as it is. -/
def State.leased (s : State) : Option State :=
  if s.core.mex.plan.isSome then some s
  else
    let s := if s.runSpent s.quadNo && (s.quadAt s.quadNo).lease.holder = s.pos then s.endRun else s
    let q := s.quadAt s.quadNo
    let on (s : State) : State := s.upd fun e => { e with wait := 0 }
    if q.power ≠ .p0 then none
    else if q.lease.holder = s.pos then (if q.lease.start.toNat ≤ s.time.toNat && s.leaseWords < 16 then some (on s) else none)
    else if s.bankFree s.quadNo && q.lease.last = s.pos && q.lease.grants ≠ 0 &&
        (List.range 4).all (fun k => k = s.pos || !s.asksLease (4 * s.quadNo + k)) then some (on (s.grantLease s.quadNo s.pos s.time))
    else none

/-- The pieces of a read of the weights or the scales of a tile, for the core, or for the plates that fill (R233, R318). -/
def State.weightSpan (s : State) (who : Option Nat) (stream : Nat) (l : List (Word × Nat)) : Option (List Piece × State) :=
  s.spanTo who (s.streamAgent stream) { read := true } l

/-- The tile of a weight pointer of a word that fills plates, or not (R240): a valid descriptor of 128 rows of 128 bytes of a weight format, an aligned address in one page
of at least 64 KiB, and, with SMODE = 2, its scales. -/
def State.tileAt (s : State) (fills : Bool) (qi : BitVec 3) (sc : Bool) : Option (Tile × State) :=
  let q := vget s.core.mex.q qi
  let d := s.descriptor q.id
  if descValid d && (descFmt d = 0 || descFmt d = 9 || descFmt d = 11) && (descSmode d = 2 || (descSmode d = 0 && !sc)) &&
      descRows d = 128 && descCols d = 128 && descRowStride d = 128 && q.addr.toNat % 16384 = 0 then
    let who := s.tileFiller fills q.addr (BitVec.ofNat 4 (descFmt d))
    match s.weightSpan who (32 + qi.toNat) [(q.addr, 16384)] with
    | some (⟨_, _, .ok (pa, t)⟩ :: _, s1) =>
      let tile : Tile := { va := q.addr, pa := pa, tlb := t, fmt := BitVec.ofNat 4 (descFmt d), scl := false, scales := [], hint := descHint d }
      if t.size < 65536 then none
      else if descSmode d = 0 then some (tile, s1)
      else
        let runs := (List.range 4).flatMap fun b => piecesOf (BitVec.ofNat 64 (descScBase d + b * descScStride d)) 128
        match s1.weightSpan who (50 + qi.toNat) runs with
        | some (sp, s2) =>
          if sp.all fun p => match p.res with | .ok _ => true | .error _ => false then some ({ tile with scl := true, scales := sp }, s2)
          else none
        | none => none
    | _ => none
  else none

/-- The tiles of a panel, from pointer `qi + j` on. -/
def State.panel (qi : BitVec 3) (sc : Bool) : Nat → Nat → State → Option (List Tile × State)
  | 0, _, s => some ([], s)
  | n + 1, j, s =>
    match s.tileAt true (qi + BitVec.ofNat 3 j) sc with
    | none => none
    | some (t, s1) => (State.panel qi sc n (j + 1) s1).map fun r => (t :: r.1, r.2)

/-- The fill phase of the word of the ME has ended, all fills good (R242). -/
def State.filled (s : State) : Option (Plan × State) :=
  match s.core.mex.plan with
  | some p => if s.planDone p && p.bad.isNone then some (p, { s with core.mex.plan := none }) else none
  | none => none

/-- The planned fills may start: none of the plates is in use, no copy is still filling for another word, and memory requests are free for the
four largest of them (R19, R225, R242). -/
def State.mayFill (s : State) (tiles : List Tile) (w : Want) : Bool :=
  !(s.anyBusy (w.fills.map (·.1)) || s.stillFilling w) && s.requests + fourMost (w.reqs tiles) ≤ 4096

/-- The machine after a planned word has started its fills: one that fills nothing goes on in the same turn with its own effect (R242). -/
def State.planned (s : State) (tiles : List Tile) (w : Want) (grans : List Nat) (go : Plan → State → State) : State :=
  let s := s.startPlan tiles w grans
  match s.core.mex.plan with
  | some p => if w.fills.isEmpty then go p { s with core.mex.plan := none } else s
  | none => s

/-! ## The CE and the XE -/

/-- The promise of a CE word is pushed, or has been already (R216); none where the outcome queue is full. -/
def State.promising (s : State) (n : Nat) (mem : Bool) : Option State :=
  let p := s.act.part.getD {}
  if p.promised then some s
  else if s.core.outcomeRoom s.actor.id 0 then
    some ((s.pushOutcome s.actor.id 0 (s.promise n mem)).upd fun e => { e with part := some { p with promised := true } })
  else none

/-- The unit of the scratchpad that a word has asked for has performed, and its cycle has come: what it has brought, and the word that goes on
with it (R198). -/
def State.spadServed (s : State) (off : Nat) (data : List Byte) : Option (List Byte × State) :=
  let p := s.act.part.getD {}
  match p.due with
  | some d =>
    if s.time < d || p.unit.isSome then none
    else some (p.got, s.upd fun e =>
      { e with part := some { promised := s.promised, count := off, data := data }, exec := false, wait := 0 })
  | none => none

/-- Bytes read from a space within one of its 64-byte units (R213). -/
def State.bytesFrom (space : BitVec 2) (k : Nat) (a : Word) (n off : Nat) (s : State) : Option (List Byte × State) :=
  match space.toNat with
  | 0 =>
    match (s.keep off []).span (s.streamAgent k) { read := true } [(a, n)] with
    | some (ps, s') => if (ps.findSome? s'.markIn).isSome then none else some (s'.readPieces .all ps)
    | none => none
  | 1 => s.spadServed off []
  | _ => some (s.core.regs.readBytes a.toNat n, s)

/-- Bytes written to a space within one of its 64-byte units (R213). -/
def State.bytesTo (space : BitVec 2) (k : Nat) (a : Word) (bs : List Byte) (off : Nat) (data : List Byte) (s : State) : Option State :=
  match space.toNat with
  | 0 =>
    match (s.keep off data).span (s.streamAgent k) { write := true } [(a, bs.length)] with
    | some (⟨_, _, .ok (pa, t)⟩ :: _, s') => some (s'.storeAcc s'.engHolders .all t pa bs)
    | _ => none
  | 1 => (s.spadServed off data).map (·.2)
  | _ => some (s.regWrite a.toNat bs)

/-- The source bytes of a unit of a copy within memory (R214): up to the first that cannot be read, which is not the first byte. -/
def State.unitBytes (y : Word) (m off : Nat) (s : State) : Option (List Byte × State) :=
  let k := min (toBoundary y.toNat) m
  let ps := if k = m then [(y, m)] else [(y, k), (y + BitVec.ofNat 64 k, m - k)]
  match (s.keep off []).span (s.streamAgent ceStreamB) { read := true } ps with
  | some (ps, s') =>
    if (ps.head?.bind s'.markIn).isSome then none
    else some (s'.readPieces .all (ps.takeWhile fun p => (s'.markIn p).isNone))
  | none => none

/-- What a word has read of a unit has come back across the die boundaries (R431). -/
def State.cameBack (r : Option (List Byte × State)) : Option (List Byte × State) :=
  r.bind fun r => if r.2.time.toNat < r.2.reply.toNat then none else some r

/-- What a word holds of a unit has come back. -/
def State.heldBytes (s : State) (bs : List Byte) : Option (List Byte × State) := if s.onWay then none else some (bs, s)

/-- The machine after a copy, unit by unit of its destination (R214). -/
def State.copied (ds ss : BitVec 2) (a b : Word) (n : Nat) : Nat → Nat → State → Option State
  | 0, _, _ => none
  | fuel + 1, off, s =>
    if n ≤ off then some s
    else
      let x := a + BitVec.ofNat 64 off
      let y := b + BitVec.ofNat 64 off
      let m := min (toBoundary x.toNat) (n - off)
      let mem := ds.toNat = 0 && ss.toNat = 0
      let read : Option (List Byte × State) :=
        match (s.act.part.getD {}).data with
        | [] => State.cameBack (if mem then State.unitBytes y m off s else State.bytesFrom ss ceStreamB y m off s)
        | bs => s.heldBytes bs
      read.bind fun r =>
        (State.bytesTo ds ceStreamA x (if mem then overlapBytes (a - b).toNat r.1 else r.1) off r.1 r.2).bind fun s =>
          State.copied ds ss a b n fuel (off + r.1.length) (s.keep (off + r.1.length) [])

/-- The machine after a fill, unit by unit (R215). -/
def State.patterned (ds : BitVec 2) (a v : Word) (w n : Nat) : Nat → Nat → State → Option State
  | 0, _, _ => none
  | fuel + 1, off, s =>
    if n ≤ off then some s
    else
      let x := a + BitVec.ofNat 64 off
      let m := min (toBoundary x.toNat) (n - off)
      (State.bytesTo ds ceStreamA x (patternBytes v w off m) off [] s).bind fun s =>
        State.patterned ds a v w n fuel (off + m) (s.keep (off + m) [])

/-- The machine after runs of bytes of `data` are written to memory in order, by pieces within 64-byte units (R248, R274). -/
def State.streamed (al : Alloc) (data : List Byte) (hold : Nat → State → State) : Nat → List (Word × Nat) → Nat → Nat → State → Option State
  | 0, _, _, _, _ => none
  | _ + 1, [], _, _, s => some s
  | fuel + 1, (a, n) :: rest, base, off, s =>
    if base + n ≤ off then State.streamed al data hold fuel rest (base + n) off s
    else
      let x := a + BitVec.ofNat 64 (off - base)
      let m := min (toBoundary x.toNat) (base + n - off)
      match (hold off s).span (s.streamAgent ceStreamA) { write := true } [(x, m)] with
      | some (⟨_, _, .ok (pa, t)⟩ :: _, s') =>
        State.streamed al data hold fuel ((a, n) :: rest) base (off + m)
          (s'.storeAcc s'.engHolders al t pa ((data.drop off).take m))
      | _ => none

/-- The machine after a CPYT has written its granules from number `g` on, each read once, when it was started (R274). -/
def State.tensorCopied (t : Tensor) (reg n : Nat) : Nat → Nat → Nat × Nat → State → Option State
  | 0, _, _, _ => none
  | fuel + 1, g, (i, c), s =>
    if n ≤ g then some s
    else
      let gran := reg / 1024 + g
      let p := s.act.part.getD {}
      let runs := (t.segments i c).map (fun a => (a, t.wg)) ++ (t.scaleRuns i c).map fun a => (a, t.wg / 32)
      let write (data : List Byte) (off : Nat) : Option State :=
        (State.streamed (allocOf (descHint t.desc)) data (fun off s => s.keepGran g off data) (data.length + 200) runs 0 off s).bind
          fun s => State.tensorCopied t reg n fuel (g + 1) (t.next i c) (s.keepGran (g + 1) 0 [])
      if p.data.length = 1056 then write p.data p.count
      else if i < 2 ^ 32 && t.ok (BitVec.ofNat 64 (i * 2 ^ 32 + c)) && (badSegment (t.segments i c)).isNone then
        match s.core.regs.checkBinding gran with
        | .error _ => none
        | .ok k => write (scaledBytes s.core.regs gran k) 0
      else none

/-- The target of an XE word can be reached, and no remote access of the XE is unanswered (R432, R436). -/
def State.remoteReady (s : State) (dev : BitVec 10) : Bool :=
  s.core.remote.isNone &&
    (if s.ownDev dev then s.mgmt.podCtx.isSome
      else 5 ≤ s.core.sq.maxscope.toNat && s.reachable dev.toNat && s.mgmt.podBound.contains dev.toNat)

/-- The machine after the local pages of a word that moves bytes have been checked, none of them at fault (R436); a word that has begun
checks them no more. -/
def State.localReady (s : State) (k : RemKind) (a : Word) (n : Nat) : Option State :=
  if s.act.part.isSome then some s
  else match s.splitTo (some s.cur) (s.streamAgent xeStreamA) (if k = .get then { write := true } else { read := true }) (piecesOf a n) with
    | .ok ps s => if ps.all fun p => match p.res with | .ok _ => true | .error _ => false then some (s.unparkEngine (piecesOf a n)) else none
    | _ => none

/-- The machine after a unit of a remote access to the issuing package itself, and what it read (R19, R433). -/
def State.unitHere (s : State) (dev : BitVec 10) (op : OutOp) (va : Word) : Option (List Byte × State) :=
  if s.ownDev dev && s.requests < 4096 then
    match s.outUnit .remote (some s.dieNo) (s.mgmt.podCtx.getD 0) s.coreSecure op va with
    | .ok d s' => some (d, s'.unparkEngine [(va, op.len)])
    | _ => none
  else none

/-- The source bytes of a unit of a remote word on the issuing package: from memory here for a word that sends, from the target for XGET, whose
page here is checked first (R436, R437). -/
def State.unitSource (k : RemKind) (dev : BitVec 10) (x y : Word) (m off : Nat) (s : State) : Option (List Byte × State) :=
  match k with
  | .get =>
    match (s.keep off []).span (s.streamAgent xeStreamA) { write := true } [(x, m)] with
    | some (ps, s1) =>
      if ps.any fun p => match p.res with | .error _ => true | .ok _ => false then none else s1.unitHere dev (k.op m []) y
    | none => none
  | _ => State.bytesFrom 0 xeStreamA x m off s

/-- The machine after the bytes of a unit have gone where the word takes them. -/
def State.unitSunk (k : RemKind) (dev : BitVec 10) (x y : Word) (m off : Nat) (bs : List Byte) (s : State) : Option State :=
  match k with
  | .get => State.bytesTo 0 xeStreamA x bs off bs s
  | _ => (s.unitHere dev (k.op m bs) y).map (·.2)

/-- The machine after XPUT, XGET or XRED to the issuing package itself, unit by unit (R437). -/
def State.movedHere (k : RemKind) (dev : BitVec 10) (a b : Word) (n : Nat) : Nat → Nat → State → Option State
  | 0, _, _ => none
  | fuel + 1, off, s =>
    if n ≤ off then some s
    else
      let x := a + BitVec.ofNat 64 off
      let y := b + BitVec.ofNat 64 off
      let m := min (min (toBoundary x.toNat) (toBoundary y.toNat)) (n - off)
      let read : Option (List Byte × State) :=
        match (s.act.part.getD {}).data with
        | [] => State.cameBack (State.unitSource k dev x y m off s)
        | bs => s.heldBytes bs
      read.bind fun r =>
        (State.unitSunk k dev x y m off r.1 r.2).bind fun s => State.movedHere k dev a b n fuel (off + m) (s.keep (off + m) [])

/-- The pieces of a range of an ETCH, all translated for the unit of a channel and, with `inside`, in package memory (R429). -/
def State.pagesAt (s : State) (ch : Nat) (k : Kind) (inside : Bool) (l : List (Word × Nat)) : Option (List Piece × State) :=
  match s.splitTo (some s.cur) { s.streamAgent ceStreamA with unitSecure := s.etchSecure ch } k l with
  | .ok ps s' => if (firstFault inside k ps).isSome then none else some (ps, s'.unparkEngine l)
  | _ => none

/-- The declared streams of an ETCH, each translated and inside package memory (R429). -/
def State.streamsAt (ch : Nat) (r : EtchRec) (f n : Nat) : List Nat → EtchRanges → State → Option (EtchRanges × State)
  | [], acc, s => some (acc, s)
  | k :: rest, acc, s =>
    if !r.declared k then State.streamsAt ch r f n rest { acc with pieces := acc.pieces ++ [[]] } s
    else
      let size := (streamTy r.types k).size
      let kind : Kind := if k = 3 then { write := true } else { read := true }
      match s.pagesAt ch kind true (piecesOf (r.bases.getD k 0 + BitVec.ofNat 64 (f * size)) (n * size)) with
      | some (ps, s') =>
        State.streamsAt ch r f n rest { pieces := acc.pieces ++ [physPieces ps], tlbs := acc.tlbs ++ piecesTlbs ps } s'
      | none => none

end Sys2Proof.Machine
end

