-- ==== Sys2Proof/Certificates/Slice0/Obligations.lean ====
section
/-! DEFINITION. The statements for the provers. -/

open Sys2Proof Sys2Proof.Machine

/-! ## The registers and the integer instructions of the SQ -/

/-- R96: x0 reads zero and discards writes; a write of another register changes that register alone. -/
def Obligations.RegisterFile : Prop :=
  ∀ (s : State) (rd r : BitVec 5) (v : Word) (n : Nat),
    s.x 0 = 0 ∧ s.setX 0 v = s ∧ (rd ≠ 0 → (s.setX rd v).x rd = v) ∧ (r ≠ rd → (s.setX rd v).x r = s.x r) ∧
    (s.setX rd v).core.sq.pc = s.core.sq.pc ∧ (s.setX rd v).besideX = s.besideX ∧
    (s.adv n).x r = s.x r ∧ (s.adv n).core.sq.pc = s.core.sq.pc + BitVec.ofNat 64 n ∧ (s.adv n).besideX = s.besideX

/-- R107, R109, R110, R111: the two-register functions and the immediate forms, at 64 bits and at 32 bits with the result sign-
extended; MOVW bit by bit. -/
def Obligations.IntegerResults : Prop :=
  (∀ (s : State) (rd ra rb : BitVec 5),
      let a := s.x ra
      let b := s.x rb
      let a4 := a.setWidth 32
      let b4 := b.setWidth 32
      let r (v : Word) : Out := .next ((s.setX rd v).adv 4)
      exec (.add rd ra rb 0) s = r (a + b) ∧ exec (.add rd ra rb 1) s = r (sext64 (a4 + b4)) ∧
      exec (.sub rd ra rb 0) s = r (a - b) ∧ exec (.sub rd ra rb 1) s = r (sext64 (a4 - b4)) ∧
      exec (.and rd ra rb) s = r (a &&& b) ∧ exec (.or rd ra rb) s = r (a ||| b) ∧ exec (.xor rd ra rb) s = r (a ^^^ b) ∧
      exec (.andn rd ra rb) s = r (a &&& ~~~b) ∧
      exec (.sll rd ra rb 0) s = r (a <<< (b.toNat % 64)) ∧ exec (.sll rd ra rb 1) s = r (sext64 (a4 <<< (b.toNat % 32))) ∧
      exec (.srl rd ra rb 0) s = r (a >>> (b.toNat % 64)) ∧ exec (.srl rd ra rb 1) s = r (sext64 (a4 >>> (b.toNat % 32))) ∧
      exec (.sra rd ra rb 0) s = r (a.sshiftRight (b.toNat % 64)) ∧
      exec (.sra rd ra rb 1) s = r (sext64 (a4.sshiftRight (b.toNat % 32))) ∧
      exec (.rol rd ra rb 0) s = r (a.rotateLeft (b.toNat % 64)) ∧ exec (.rol rd ra rb 1) s = r (sext64 (a4.rotateLeft (b.toNat % 32))) ∧
      exec (.slt rd ra rb) s = r (if a.toInt < b.toInt then 1 else 0) ∧
      exec (.sltn rd ra rb) s = r (if a.toNat < b.toNat then 1 else 0) ∧
      exec (.min rd ra rb) s = r (BitVec.ofInt 64 (min a.toInt b.toInt)) ∧
      exec (.max rd ra rb) s = r (BitVec.ofInt 64 (max a.toInt b.toInt)) ∧
      exec (.minn rd ra rb) s = r (BitVec.ofNat 64 (min a.toNat b.toNat)) ∧
      exec (.maxn rd ra rb) s = r (BitVec.ofNat 64 (max a.toNat b.toNat)) ∧
      exec (.mul rd ra rb 0) s = r (a * b) ∧ exec (.mul rd ra rb 1) s = r (sext64 (a4 * b4)) ∧
      exec (.mulh rd ra rb) s = r (BitVec.ofInt 64 (a.toInt * b.toInt / 2 ^ 64)) ∧
      exec (.mulhn rd ra rb) s = r (BitVec.ofNat 64 (a.toNat * b.toNat / 2 ^ 64))) ∧
  (∀ (s : State) (rd ra : BitVec 5) (imm : BitVec 15) (amt : BitVec 6) (k : BitVec 2) (keep : BitVec 1) (imm16 : BitVec 16),
      let a := s.x ra
      let i := sext64 imm
      let a4 := a.setWidth 32
      let r (v : Word) : Out := .next ((s.setX rd v).adv 4)
      exec (.addi rd ra imm) s = r (a + i) ∧ exec (.andi rd ra imm) s = r (a &&& i) ∧ exec (.ori rd ra imm) s = r (a ||| i) ∧
      exec (.xori rd ra imm) s = r (a ^^^ i) ∧
      exec (.slli rd ra amt 0) s = r (a <<< amt.toNat) ∧ exec (.slli rd ra amt 1) s = r (sext64 (a4 <<< (amt.toNat % 32))) ∧
      exec (.srli rd ra amt 0) s = r (a >>> amt.toNat) ∧ exec (.srli rd ra amt 1) s = r (sext64 (a4 >>> (amt.toNat % 32))) ∧
      exec (.srai rd ra amt 0) s = r (a.sshiftRight amt.toNat) ∧
      exec (.srai rd ra amt 1) s = r (sext64 (a4.sshiftRight (amt.toNat % 32))) ∧
      exec (.roli rd ra amt 0) s = r (a.rotateLeft amt.toNat) ∧
      exec (.roli rd ra amt 1) s = r (sext64 (a4.rotateLeft (amt.toNat % 32))) ∧
      exec (.slti rd ra imm) s = r (if a.toInt < i.toInt then 1 else 0) ∧
      exec (.sltni rd ra imm) s = r (if a.toNat < i.toNat then 1 else 0) ∧
      ∃ v : Word, exec (.movw rd k keep imm16) s = r v ∧
        ∀ j, j < 64 → v.getLsbD j =
          if 16 * k.toNat ≤ j ∧ j < 16 * k.toNat + 16 then imm16.getLsbD (j - 16 * k.toNat)
          else if keep = 0 then false else (s.x rd).getLsbD j)

/-- R108, R109: division rounds toward zero; a divisor of zero and the overflow have results and no fault. R107, R109, R82: the
counts of bits by what they mean, the byte reversal byte by byte, and the extensions. -/
def Obligations.DivideAndScan : Prop :=
  (∀ (s : State) (rd ra rb : BitVec 5),
      let a := s.x ra
      let b := s.x rb
      let a4 := a.setWidth 32
      let b4 := b.setWidth 32
      let r (v : Word) : Out := .next ((s.setX rd v).adv 4)
      exec (.div rd ra rb 0) s = r (if b = 0 then BitVec.allOnes 64 else BitVec.ofInt 64 (Int.tdiv a.toInt b.toInt)) ∧
      exec (.div rd ra rb 1) s =
        r (sext64 (if b4 = 0 then BitVec.allOnes 32 else BitVec.ofInt 32 (Int.tdiv a4.toInt b4.toInt))) ∧
      exec (.divn rd ra rb 0) s = r (if b = 0 then BitVec.allOnes 64 else BitVec.ofNat 64 (a.toNat / b.toNat)) ∧
      exec (.divn rd ra rb 1) s = r (sext64 (if b4 = 0 then BitVec.allOnes 32 else BitVec.ofNat 32 (a4.toNat / b4.toNat))) ∧
      exec (.rem rd ra rb 0) s = r (if b = 0 then a else BitVec.ofInt 64 (Int.tmod a.toInt b.toInt)) ∧
      exec (.rem rd ra rb 1) s = r (sext64 (if b4 = 0 then a4 else BitVec.ofInt 32 (Int.tmod a4.toInt b4.toInt))) ∧
      exec (.remn rd ra rb 0) s = r (if b = 0 then a else BitVec.ofNat 64 (a.toNat % b.toNat)) ∧
      exec (.remn rd ra rb 1) s = r (sext64 (if b4 = 0 then a4 else BitVec.ofNat 32 (a4.toNat % b4.toNat)))) ∧
  (∀ (s : State) (rd ra : BitVec 5) (w : BitVec 1),
      let n : Nat := if w = 1 then 32 else 64
      let a := s.x ra
      let r (v : Word) : Out := .next ((s.setX rd v).adv 4)
      (∃ k : Nat, exec (.clz rd ra w) s = r (BitVec.ofNat 64 k) ∧ k ≤ n ∧ (∀ i, n - k ≤ i → i < n → a.getLsbD i = false) ∧
        (k < n → a.getLsbD (n - 1 - k) = true)) ∧
      (∃ k : Nat, exec (.ctz rd ra w) s = r (BitVec.ofNat 64 k) ∧ k ≤ n ∧ (∀ i, i < k → a.getLsbD i = false) ∧
        (k < n → a.getLsbD k = true)) ∧
      exec (.popc rd ra w) s = r (BitVec.ofNat 64 ((List.range n).countP fun i => a.getLsbD i)) ∧
      (∃ v : Word, exec (.bswap rd ra w) s = r v ∧
        (∀ k < n / 8, (v.toNat / 256 ^ k) % 256 = (a.toNat / 256 ^ (n / 8 - 1 - k)) % 256) ∧
        (w = 1 → v = sext64 (v.setWidth 32))) ∧
      exec (.sext rd ra 0) s = r (sext64 (a.setWidth 8)) ∧ exec (.zext rd ra 0) s = r (zext64 (a.setWidth 8)) ∧
      exec (.sext rd ra 1) s = r (sext64 (a.setWidth 16)) ∧ exec (.zext rd ra 1) s = r (zext64 (a.setWidth 16)) ∧
      exec (.sext rd ra 2) s = r (sext64 (a.setWidth 32)) ∧ exec (.zext rd ra 2) s = r (zext64 (a.setWidth 32)))

/-- R66, R113, R114: branches, jumps and links, and the compact words, each as the 32-bit instruction that R66 names for it with
the pc going on by 2. -/
def Obligations.ControlTransfer : Prop :=
  (∀ (s : State) (rd rs : BitVec 5) (imm : BitVec 6) (off11 : BitVec 11),
      let r (v : Word) : Out := .next ((s.setX rd v).adv 2)
      exec (.cAddi rd imm) s = r (s.x rd + sext64 imm) ∧ exec (.cMov rd rs) s = r (s.x rs) ∧
      exec (.cAdd rd rs) s = r (s.x rd + s.x rs) ∧ exec (.cSub rd rs) s = r (s.x rd - s.x rs) ∧
      exec (.cSlli rd imm) s = r (s.x rd <<< imm.toNat) ∧ exec (.cSrli rd imm) s = r (s.x rd >>> imm.toNat) ∧
      exec (.cAndi rd imm) s = r (s.x rd &&& sext64 imm) ∧
      exec (.cBeqz rd imm) s = .next (if s.x rd = 0 then s.jump (s.core.sq.pc + 2 * sext64 imm) else s.adv 2) ∧
      exec (.cBnez rd imm) s = .next (if s.x rd = 0 then s.adv 2 else s.jump (s.core.sq.pc + 2 * sext64 imm)) ∧
      exec (.cJ off11) s = .next (s.jump (s.core.sq.pc + 2 * sext64 off11)) ∧
      ((s.x 1).getLsbD 0 = false → exec .cRet s = .next (s.jump (s.x 1)))) ∧
  (∀ (s : State) (rd ra rb : BitVec 5) (off : BitVec 15) (off20 : BitVec 20),
      let pc := s.core.sq.pc
      let b (c : Prop) [Decidable c] : Out := .next (if c then s.jump (pc + 2 * sext64 off) else s.adv 4)
      let t := s.x ra + sext64 off
      exec (.beq ra rb off) s = b (s.x ra = s.x rb) ∧ exec (.bne ra rb off) s = b (s.x ra ≠ s.x rb) ∧
      exec (.blt ra rb off) s = b ((s.x ra).toInt < (s.x rb).toInt) ∧ exec (.bge ra rb off) s = b ((s.x rb).toInt ≤ (s.x ra).toInt) ∧
      exec (.bltn ra rb off) s = b ((s.x ra).toNat < (s.x rb).toNat) ∧ exec (.bgen ra rb off) s = b ((s.x rb).toNat ≤ (s.x ra).toNat) ∧
      exec (.jal rd off20) s = .next ((s.setX rd (pc + 4)).jump (pc + 2 * sext64 off20)) ∧
      (t.getLsbD 0 = false → exec (.jalr rd ra off) s = .next ((s.setX rd (pc + 4)).jump t)) ∧
      (t.getLsbD 0 = true → exec (.jalr rd ra off) s = .next (s.raise .misaligned t)))

/-- R66, R107 to R114, R121, R123, R180: the integer instructions, JAL, the compact words without a jump, SPECQ, RDTIME and TCNT
of any unit change no more than rd and the pc; every byte of memory, every flag and every special register stays. -/
def Obligations.ScalarFrame : Prop :=
  ∀ (s t : State) (rd ra rb : BitVec 5) (w : BitVec 1) (imm : BitVec 15) (amt : BitVec 6) (off20 : BitVec 20) (width k : BitVec 2) (unit : BitVec 3)
    (keep : BitVec 1) (imm16 : BitVec 16) (i : Instr),
    i ∈ [Instr.add rd ra rb w, .sub rd ra rb w, .and rd ra rb, .or rd ra rb, .xor rd ra rb, .andn rd ra rb, .sll rd ra rb w,
      .srl rd ra rb w, .sra rd ra rb w, .rol rd ra rb w, .slt rd ra rb, .sltn rd ra rb, .min rd ra rb, .max rd ra rb, .minn rd ra rb,
      .maxn rd ra rb, .mul rd ra rb w, .mulh rd ra rb, .mulhn rd ra rb, .div rd ra rb w, .divn rd ra rb w, .rem rd ra rb w,
      .remn rd ra rb w, .clz rd ra w, .ctz rd ra w, .popc rd ra w, .bswap rd ra w, .sext rd ra width, .zext rd ra width,
      .addi rd ra imm, .andi rd ra imm, .ori rd ra imm, .xori rd ra imm, .slli rd ra amt w, .srli rd ra amt w, .srai rd ra amt w,
      .roli rd ra amt w, .slti rd ra imm, .sltni rd ra imm, .movw rd k keep imm16, .jal rd off20, .cAddi rd amt, .cMov rd ra,
      .cAdd rd ra, .cSub rd ra, .cSlli rd amt, .cSrli rd amt, .cAndi rd amt, .specq rd, .rdtime rd, .tcnt rd unit] →
    exec i s = .next t →
    t.besideX = s.besideX ∧ ∀ r : BitVec 5, r ≠ rd → t.x r = s.x r

/-! ## Loads and stores of the SQ -/

/-- R59, R62, R66, R112, R116: an aligned load whose address translates completes: rd takes the value found, sign-extended or, in
the N forms, zero-extended. -/
def Obligations.SqLoads : Prop :=
  ∀ (s s1 s2 : State) (rd ra : BitVec 5) (cls : BitVec 4) (sz hint : BitVec 2) (off : BitVec 9) (off6 : BitVec 6) (pa v : Nat) (t : Tlb),
    let n := 2 ^ sz.toNat
    let ea := s.x ra + sext64 off * BitVec.ofNat 64 n
    let eax := s.x ra + sext64 off6 * BitVec.ofNat 64 n
    let eac := s.x 2 + zext64 off6 * 8
    let r (x : Word) (len : Nat) : Out := .next ((s2.awaitReply.setX rd x).adv len)
    (ea.toNat % n = 0 → s.reach { read := true } ea = some (pa, t, s1) → s1.found (sqHolders s1.cur) .all t pa n = some (v, s2) →
      exec (.ld rd ra cls sz off) s = r (sext64 (BitVec.ofNat (8 * n) v)) 4 ∧
      exec (.ldn rd ra cls sz off) s = r (BitVec.ofNat 64 v) 4) ∧
    (eax.toNat % n = 0 → s.reach { read := true } eax = some (pa, t, s1) → s1.found (sqHolders s1.cur) (allocOf hint) t pa n = some (v, s2) →
      exec (.ldx rd ra cls sz hint off6) s = r (sext64 (BitVec.ofNat (8 * n) v)) 4 ∧
      exec (.ldxn rd ra cls sz hint off6) s = r (BitVec.ofNat 64 v) 4) ∧
    (eac.toNat % 8 = 0 → s.reach { read := true } eac = some (pa, t, s1) → s1.found (sqHolders s1.cur) .all t pa 8 = some (v, s2) →
      exec (.cLd rd off6) s = r (BitVec.ofNat 64 v) 2)

/-- R5, R112, R116, R303: what a load finds: outside the non-coherent pages and the host window the bytes of memory, little-
endian, with nothing changed; in a region each byte from the youngest held store that covers it. What is the model's own choice in
it: assumption logs 2, 3. -/
def Obligations.LoadedValue : Prop :=
  (∀ (s s2 : State) (hs : List Holder) (t : Tlb) (al : Alloc) (pa n v : Nat),
      t.nc = false → isHost pa = false → inDevice pa = false → s.core.sq.spec.held = [] → s.found hs al t pa n = some (v, s2) →
      v = leNat ((List.range n).map fun k => memRead s.store.mem (pa + k)) ∧ s2.store.data = s.store.data ∧ s2.store.nc = s.store.nc ∧
      s2 = { s with store := s2.store, quads := s2.quads, dies := s2.dies, reply := s2.reply } ∧ (∀ q, (s2.quadAt q).rest = (s.quadAt q).rest) ∧
      ∀ d, { s2.dieAt d with asleep := (s.dieAt d).asleep } = s.dieAt d) ∧
  (∀ (s s2 : State) (hs : List Holder) (t : Tlb) (al : Alloc) (pa n v : Nat), s.found hs al t pa n = some (v, s2) →
      let covers (h : Held) (k : Nat) : Prop := h.pa ≤ pa + k ∧ pa + k < h.pa + h.size
      (∀ k, k < n →
        (∀ old h new, s.core.sq.spec.held = old ++ h :: new → covers h k → (∀ x ∈ new, ¬covers x k) →
          v / 256 ^ k % 256 = h.data.toNat / 256 ^ (pa + k - h.pa) % 256) ∧
        (t.nc = false → isHost pa = false → inDevice pa = false → (∀ h ∈ s.core.sq.spec.held, ¬covers h k) →
          v / 256 ^ k % 256 = (memRead s.store.mem (pa + k)).toNat)) ∧
      ((∀ k, k < n → ∃ h ∈ s.core.sq.spec.held, covers h k) → s2 = s))

/-- R112, R116, R120: an aligned store whose address translates completes: outside a region it performs, inside it is held, and
the 65th held store is a resolution point. What is the model's own choice in it: assumption log 2. -/
def Obligations.SqStores : Prop :=
  ∀ (s s1 s2 : State) (rd ra : BitVec 5) (cls : BitVec 4) (sz hint : BitVec 2) (off : BitVec 9) (off6 : BitVec 6) (pa : Nat) (t : Tlb)
    (i : Instr) (ea : Word) (n len : Nat) (c : BitVec 4) (al : BitVec 2),
    (i, ea, n, len, c, al) ∈
      [(Instr.st rd ra cls sz off, s.x ra + sext64 off * BitVec.ofNat 64 (2 ^ sz.toNat), 2 ^ sz.toNat, 4, cls, 3),
       (.stx rd ra cls sz hint off6, s.x ra + sext64 off6 * BitVec.ofNat 64 (2 ^ sz.toNat), 2 ^ sz.toNat, 4, cls, hint),
       (.cSt rd off6, s.x 2 + zext64 off6 * 8, 8, 2, 0, 3)] →
    let v := s.x rd
    let h : Held := { pa := pa, tlb := t, size := n, cls := c, hint := al, data := v }
    ea.toNat % n = 0 → s.reach { write := true } ea = some (pa, t, s1) →
    (s1.core.sq.spec.act = false →
      exec i s = .next ((s1.storeAcc (sqHolders s1.cur) (allocOf al) t pa (leBytes n v.toNat)).adv len)) ∧
    (s1.core.sq.spec.act = true → s1.core.sq.spec.held.length < 64 →
      exec i s = .next (State.adv { s1 with core.sq.spec.held := s1.core.sq.spec.held ++ [h] } len)) ∧
    (s1.core.sq.spec.act = true → 64 ≤ s1.core.sq.spec.held.length → s1.resolved = some s2 →
      exec i s = .next (State.adv { s2 with core.sq.spec.held := s2.core.sq.spec.held ++ [h] } len))

/-- R5, R112, R295, R303, R320: where a store that performs writes: its bytes and no other on a coherent page of package memory; a
posted write in the host window; a copy on a non-coherent page that allocates. What is the model's own choice in it: assumption
logs 2, 18. -/
def Obligations.StoredBytes : Prop :=
  (∀ (s : State) (hs : List Holder) (al : Alloc) (t : Tlb) (pa n : Nat) (v : Nat),
      t.nc = false → isHost pa = false → inDevice pa = false → (∀ c ∈ s.store.nc, c.sector ∉ sectorsOf pa n) →
      Memory.wf s.store.mem = true →
      let u := s.storeAcc hs al t pa (leBytes n v)
      let w := (s.wakeHomes pa n).wakeLines ((sectorsOf pa n).map (· / 4))
      leNat ((List.range n).map fun k => memRead u.store.mem (pa + k)) = v % 256 ^ n ∧
      (∀ a, (a < pa ∨ pa + n ≤ a) → memRead u.store.mem a = memRead s.store.mem a) ∧
      u = { w with store := u.store, quads := u.quads } ∧ (∀ r, w.x r = s.x r) ∧ (∀ q, (u.quadAt q).rest = (s.quadAt q).rest) ∧
      u.store.host = s.store.host ∧ u.store.sram = s.store.sram ∧ u.store.sched = s.store.sched ∧ u.store.posted = s.store.posted ∧
      Memory.wf u.store.mem = true) ∧
  (∀ (s : State) (hs : List Holder) (al : Alloc) (t : Tlb) (pa : Nat) (bs : List Byte),
      let u := s.storeAcc hs al t pa bs
      (isHost pa = true → u.store.posted = s.store.posted ++ [(pa - 0x800000000000, bs)] ∧ u.store.mem = s.store.mem ∧
        u.store.host = s.store.host) ∧
      (isHost pa = false → inDevice pa = false → (∀ k ∈ sectorsOf pa bs.length, s.store.isCode (64 * k) = false) → t.nc = true →
        (al = .l2only ∧ hs ≠ [] ∨ ∃ h ∈ hs, ∀ k ∈ sectorsOf pa bs.length,
          (s.store.ncOf h k).isSome = true ∨ (al = .all ∨ al = .stream) ∧ (s.store.ncRoom h k).full h k = false) →
        { u.store.data with badAt := s.store.badAt } = s.store.data ∧ u = { s.wakeHomes pa bs.length with store := u.store }))

/-- The frame of the loads and stores of the SQ (R112): a store changes its bytes at the address that the form computes, and a
load its register; every other byte, register and special register stays as the translation leaves it. What is the model's own
choice in it: assumption log 2. -/
def Obligations.SqMemoryFrame : Prop :=
  (∀ (s s1 u : State) (rd ra : BitVec 5) (cls : BitVec 4) (sz hint : BitVec 2) (off : BitVec 9) (off6 : BitVec 6) (pa n len : Nat) (t : Tlb)
      (i : Instr) (ea : Word),
      (i, ea, n, len) ∈
        [(Instr.st rd ra cls sz off, scaledAddr ra off sz s, szBytes sz, 4),
         (.stx rd ra cls sz hint off6, scaledAddr ra off6 sz s, szBytes sz, 4),
         (.cSt rd off6, s.x 2 + zext64 off6 * 8, 8, 2)] →
      ea.toNat % n = 0 → s.reach { write := true } ea = some (pa, t, s1) → s1.core.sq.spec.act = false →
      t.nc = false → isHost pa = false → inDevice pa = false → (∀ c ∈ s1.store.nc, c.sector ∉ sectorsOf pa n) →
      Memory.wf s1.store.mem = true → exec i s = .next u →
      let w := (s1.wakeHomes pa n).wakeLines ((sectorsOf pa n).map (· / 4))
      (∀ k, k < n → memRead u.store.mem (pa + k) = BitVec.ofNat 8 ((s.x rd).toNat / 256 ^ k)) ∧
      (∀ a, (a < pa ∨ pa + n ≤ a) → memRead u.store.mem a = memRead s1.store.mem a) ∧
      u = { w.adv len with store := u.store, quads := u.quads } ∧ (∀ r, u.x r = s1.x r) ∧ (∀ q, (u.quadAt q).rest = (s1.quadAt q).rest) ∧
      u.store.host = s1.store.host ∧ u.store.sram = s1.store.sram ∧ u.store.sched = s1.store.sched ∧ u.store.posted = s1.store.posted) ∧
  (∀ (s s1 u : State) (rd ra : BitVec 5) (cls : BitVec 4) (sz hint : BitVec 2) (off : BitVec 9) (off6 : BitVec 6) (pa n : Nat) (t : Tlb)
      (i : Instr) (ea : Word),
      (i, ea, n) ∈
        [(Instr.ld rd ra cls sz off, scaledAddr ra off sz s, szBytes sz), (.ldn rd ra cls sz off, scaledAddr ra off sz s, szBytes sz),
         (.ldx rd ra cls sz hint off6, scaledAddr ra off6 sz s, szBytes sz),
         (.ldxn rd ra cls sz hint off6, scaledAddr ra off6 sz s, szBytes sz), (.cLd rd off6, s.x 2 + zext64 off6 * 8, 8)] →
      ea.toNat % n = 0 → s.reach { read := true } ea = some (pa, t, s1) → s1.marked (sqHolders s1.cur) t pa n = none → s1.hostBusy pa = false →
      exec i s = .next u →
      (∀ a, memRead u.store.mem a = memRead s1.store.mem a) ∧ u.store.data = s1.store.data ∧ (∀ q, (u.quadAt q).rest = (s1.quadAt q).rest) ∧
      (∀ r, r ≠ rd → u.x r = s1.x r) ∧ (∀ d, { u.dieAt d with asleep := (s1.dieAt d).asleep } = s1.dieAt d) ∧
      { u.besideX with store := s1.store, quads := s1.quads, dies := s1.dies, reply := s1.reply, core.sq.nextAt := s1.core.sq.nextAt } = s1.besideX)

/-- R112, R296, R300: an address that is no multiple of the access size raises MISALIGNED with BADADDR the address, and nothing
else happens. -/
def Obligations.MisalignedAccess : Prop :=
  ∀ (s s0 : State) (rd ra rb : BitVec 5) (cls : BitVec 4) (sz hint ord : BitVec 2) (off : BitVec 9) (off6 : BitVec 6) (scope : BitVec 3)
    (wide : BitVec 1) (i : Instr),
    (∀ ea n, (i, ea, n) ∈
        [(Instr.ld rd ra cls sz off, scaledAddr ra off sz s, szBytes sz), (.ldn rd ra cls sz off, scaledAddr ra off sz s, szBytes sz),
         (.st rd ra cls sz off, scaledAddr ra off sz s, szBytes sz), (.ldx rd ra cls sz hint off6, scaledAddr ra off6 sz s, szBytes sz),
         (.ldxn rd ra cls sz hint off6, scaledAddr ra off6 sz s, szBytes sz),
         (.stx rd ra cls sz hint off6, scaledAddr ra off6 sz s, szBytes sz), (.cLd rd off6, s.x 2 + zext64 off6 * 8, 8),
         (.cSt rd off6, s.x 2 + zext64 off6 * 8, 8)] →
      ea.toNat % n ≠ 0 → exec i s = .next (s.raise .misaligned ea)) ∧
    (i ∈ [Instr.amoadd rd ra rb cls scope ord wide, .amoand rd ra rb cls scope ord wide, .amoor rd ra rb cls scope ord wide,
        .amoxor rd ra rb cls scope ord wide, .amomin rd ra rb cls scope ord wide, .amomax rd ra rb cls scope ord wide,
        .amominn rd ra rb cls scope ord wide, .amomaxn rd ra rb cls scope ord wide, .amoswp rd ra rb cls scope ord wide,
        .cas rd ra rb cls scope ord wide, .sto ra rb cls scope ord wide] →
      s.resolved = some s0 → (s0.x ra).toNat % (if wide = 1 then 8 else 4) ≠ 0 → exec i s = .next (s0.raise .misaligned (s0.x ra))) ∧
    (s.resolvedIf (ord = 1) = some s0 → (s0.x ra).toNat % (if wide = 1 then 8 else 4) ≠ 0 →
      exec (.ldo rd ra cls scope ord wide) s = .next (s0.raise .misaligned (s0.x ra)))

/-! ## Ordered accesses and atomics -/

/-- R297, R298: LDO and STO complete; a store-release at .sys waits for the posted writes. R299, R300: an atomic reads its
location, writes the combined value, and rd takes the old one; CAS writes only on a match. What is the model's own choice in it:
assumption logs 2, 18, 70. -/
def Obligations.OrderedAccess : Prop :=
  (∀ (s s0 s1 s3 : State) (rd ra rb : BitVec 5) (cls : BitVec 4) (scope : BitVec 3) (ord : BitVec 2) (wide : BitVec 1) (pa v : Nat) (t : Tlb),
      let n := if wide = 1 then 8 else 4
      let a := s1.atHome t pa
      (s0.x ra).toNat % n = 0 →
      (s.resolvedIf (ord = 1) = some s0 → s0.reach { read := true } (s0.x ra) = some (pa, t, s1) → a.1.found a.2 .all t pa n = some (v, s3) →
        exec (.ldo rd ra cls scope ord wide) s =
          .next (((s3.countDemote scope (ord = 1)).awaitReply.setX rd (sext64 (BitVec.ofNat (8 * n) v))).adv 4)) ∧
      (s.resolved = some s0 → s0.reach { write := true } (s0.x ra) = some (pa, t, s1) →
        (s1.releaseWaits scope (ord = 2) = false →
          exec (.sto ra rb cls scope ord wide) s =
            .next (((a.1.storeAcc a.2 .all t pa (leBytes n (a.1.x rb).toNat)).countDemote scope (ord = 2)).adv 4)) ∧
        (s1.releaseWaits scope (ord = 2) = true → exec (.sto ra rb cls scope ord wide) s = .next s1))) ∧
  (∀ (s s0 s1 s2 : State) (rd ra rb : BitVec 5) (cls : BitVec 4) (scope : BitVec 3) (ord : BitVec 2) (wide : BitVec 1) (pa old : Nat)
      (t : Tlb) (hs : List Holder),
      let n := if wide = 1 then 8 else 4
      let b := (s2.x rb).toNat % 256 ^ n
      let sg (v : Nat) : Int := (BitVec.ofNat (8 * n) v).toInt
      let done (u : State) : Out := .next (((u.countDemote scope (ord ≠ 0)).awaitReply.setX rd (sext64 (BitVec.ofNat (8 * n) old))).adv 4)
      let r (v : Nat) : Out := done (s2.storeAcc hs .all t pa (leBytes n (v % 256 ^ n)))
      s.resolved = some s0 → (s0.x ra).toNat % n = 0 → s0.reach { read := true, write := true } (s0.x ra) = some (pa, t, s1) →
      s1.hostBusy pa = false → (s1.atHome t pa).1.marked (s1.atHome t pa).2 t pa n = none →
      (s1.atHome t pa).1.releaseWaits scope (ord = 2 || ord = 3) = false → s1.atomRead t pa n = (old, s2, hs) →
      (exec (.amoadd rd ra rb cls scope ord wide) s = r (old + b) ∧ exec (.amoswp rd ra rb cls scope ord wide) s = r b ∧
        exec (.cas rd ra rb cls scope ord wide) s = if old = (s2.x rd).toNat % 256 ^ n then r b else done s2) ∧
      (isHost pa = false →
        exec (.amoand rd ra rb cls scope ord wide) s = r (old &&& b) ∧ exec (.amoor rd ra rb cls scope ord wide) s = r (old ||| b) ∧
        exec (.amoxor rd ra rb cls scope ord wide) s = r (old ^^^ b) ∧
        exec (.amomin rd ra rb cls scope ord wide) s = r (if sg b < sg old then b else old) ∧
        exec (.amomax rd ra rb cls scope ord wide) s = r (if sg old < sg b then b else old) ∧
        exec (.amominn rd ra rb cls scope ord wide) s = r (min old b) ∧
        exec (.amomaxn rd ra rb cls scope ord wide) s = r (max old b)) ∧
      (isHost pa = true →
        ∀ i ∈ [Instr.amoand rd ra rb cls scope ord wide, .amoor rd ra rb cls scope ord wide, .amoxor rd ra rb cls scope ord wide,
          .amomin rd ra rb cls scope ord wide, .amomax rd ra rb cls scope ord wide, .amominn rd ra rb cls scope ord wide,
          .amomaxn rd ra rb cls scope ord wide], exec i s = .next (s1.raise .pageWrite (s0.x ra))))

/-- R301, R321, R339, R341: fences, publication, cache maintenance and PATCH complete; PATCH replaces its field of bits alone.
What is the model's own choice in it: assumption logs 2, 20, 70, 78. -/
def Obligations.FenceAndMaintenance : Prop :=
  (∀ (s s0 s1 : State) (ra rb : BitVec 5) (scope : BitVec 3) (mask : BitVec 16) (op : BitVec 2) (off width : BitVec 5)
      (ps : List (Nat × Nat × Tlb)) (pa : Nat) (t : Tlb),
      let ea := s0.x ra
      let new (bs : List Byte) : List Byte :=
        leBytes 4 (patchField (BitVec.ofNat 32 (leNat bs)) off.toNat (width.toNat + 1) (s0.x rb)).toNat
      s.resolved = some s0 →
      (s0.releaseWaits scope (mask ≠ 0) = false →
        exec (.fenceC scope mask) s = .next ((s0.countDemote scope (mask ≠ 0)).adv 4)) ∧
      (s0.x rb = 0 → exec (.pubc ra rb scope) s = .next (s0.adv 4) ∧ exec (.cache ra rb op scope) s = .next (s0.adv 4)) ∧
      (s0.x rb ≠ 0 → ea.toNat + (s0.x rb).toNat ≤ 2 ^ 64 → s0.range { read := true } ea (s0.x rb) = some (ps, s1) →
        exec (.pubc ra rb scope) s =
          if ps.any fun p => s1.hostBusy p.1 then .next s1
          else
            let ks := ps.flatMap fun p => (sectorsOf p.1 p.2.1).map fun k => (k, p.2.2.xsh)
            let s2 := ks.foldl (fun u k => u.ncFlush (sqHolders u.cur) k.1) s1
            .next ((s2.publish (min (s2.capScope scope) 4) (ks.filter fun k => s2.store.isCode (64 * k.1))).adv 4)) ∧
      (s0.x rb ≠ 0 → ea.toNat + (s0.x rb).toNat ≤ 2 ^ 64 →
        s0.range (if op = 1 then { write := true } else { read := true }) ea (s0.x rb) = some (ps, s1) →
        exec (.cache ra rb op scope) s = .next (State.adv (ps.foldl (fun u p => (sectorsOf p.1 p.2.1).foldl (fun u k =>
          if isHost (64 * k) then u
          else if p.2.2.nc then u.cacheNc op.toNat (3 < s1.capScope scope) k
          else u.cacheCoh op.toNat (3 < s1.capScope scope) k) u) s1) 4)) ∧
      (spadRef ea = true →
        exec (.patch ra rb off width) s = .next ((s0.spadWrite (ea.toNat % 2 ^ 23 / 4 * 4) (new (s0.spadRead (ea.toNat % 2 ^ 23 / 4 * 4) 4))).adv 4)) ∧
      (spadRef ea = false → ea.toNat % 4 = 0 → s0.reach { read := true, write := true } ea = some (pa, t, s1) →
        s1.hostBusy pa = false → (s1.atHome t pa).1.marked (s1.atHome t pa).2 t pa 4 = none →
        let a := s1.atHome t pa
        let r := a.1.loadPhys a.2 .all t pa 4
        exec (.patch ra rb off width) s = .next ((r.2.storeAcc a.2 .all t pa (new r.1)).awaitReply.adv 4))) ∧
  (∀ (old : BitVec 32) (off width : BitVec 5) (v : Word) (j : Nat), off.toNat + width.toNat < 32 → j < 32 →
      (patchField old off.toNat (width.toNat + 1) v).getLsbD j =
        if off.toNat ≤ j ∧ j ≤ off.toNat + width.toNat then v.getLsbD (j - off.toNat) else old.getLsbD j)

/-- R349, R351, R462, R464: an address that the SQ's own TLB translates, with the permissions it asks for, goes to its frame in
memory that is on and of its world, and the machine does not change where no die sleeps. R356: TLBINV drops the matching
translations from every TLB of the package, and keeps every other one; it completes once no access is left that had taken one of
them, and does not drop again while it waits. R351, R356: what is dropped leaves every TLB and nothing else does; no byte of
memory and no register changes. What is the model's own choice in it: assumption logs 19, 74, 81. -/
def Obligations.Translation : Prop :=
  (∀ (s : State) (t : Tlb) (va : Word) (k : Kind),
      canonical va = true → s.core.sq.tlb.find? (fun u => u.ctx = s.core.sq.ctxid && u.base ≤ va.toNat && va.toNat < u.base + u.size) = some t →
      (t.w && t.x) = false → (s.priv ≠ 0 ∨ t.usr = true) → (k.read = true → t.r = true) → (k.write = true → t.w = true ∧ t.d = true) →
      (k.fetch = true → t.x = true ∧ t.nc = false ∧ isHost t.frame = false) →
      s.memoryOff (t.frame + va.toNat % t.size) = false →
      (s.secureRegion (t.frame + va.toNat % t.size) = true → s.secureAgent s.sqAgent t.ctx = true) → (∀ d ∈ s.dies, d.2.asleep = false) →
      s.translate s.sqAgent k va = .ok (t.frame + va.toNat % t.size) t s) ∧
  (∀ (s s0 : State) (ra : BitVec 5), s.priv ≠ 0 → s.resolved = some s0 →
      let drops (i : Instr) (p : Tlb → Bool) : Prop :=
        let u := (s0.dropTlb p).markRemoved p
        (s0.core.sq.invalidated = false →
          exec i s = .next (if u.removedUsed then { u with core.sq.invalidated := true } else u.adv 4)) ∧
        (s0.core.sq.invalidated = true → exec i s = .next (if s0.removedUsed then s0 else s0.adv 4))
      drops (.tlbinvVa ra) (fun t => canonical (s.x ra) && t.hits s.core.sq.ctxid (s.x ra).toNat) ∧
      (s.priv = 3 ∨ (s.x ra).setWidth 6 = s.core.sq.ctxid → drops (.tlbinvCtx ra) fun t => t.ctx = (s.x ra).setWidth 6) ∧
      (s.priv = 3 → drops .tlbinvAll fun _ => true)) ∧
  (∀ (s : State) (p : Tlb → Bool) (t : Tlb),
      let u := (s.dropTlb p).markRemoved p
      (t ∈ u.core.sq.tlb ↔ t ∈ s.core.sq.tlb ∧ p t = false) ∧ (∀ k, (k, t) ∈ u.core.stream ↔ (k, t) ∈ s.core.stream ∧ p t = false) ∧
      (t ∈ u.mgmt.rxTlb ↔ t ∈ s.mgmt.rxTlb ∧ p t = false) ∧ (t ∈ u.mgmt.apTlb ↔ t ∈ s.mgmt.apTlb ∧ p t = false) ∧
      (∀ q v, (q, v) ∈ u.quads → ∃ w, (q, w) ∈ s.quads ∧ (t ∈ v.tlb ↔ t ∈ w.tlb ∧ p t = false)) ∧
      (∀ c v, (c, v) ∈ u.others → ∃ w, (c, w) ∈ s.others ∧ (t ∈ v.sq.tlb ↔ t ∈ w.sq.tlb ∧ p t = false) ∧
        ∀ k, (k, t) ∈ v.stream ↔ (k, t) ∈ w.stream ∧ p t = false) ∧
      u.store = s.store ∧ ∀ r, u.x r = s.x r)

/-! ## Speculation -/

/-- R115, R116, R118, R119, R121: SPEC opens a region, COMMIT closes one whose checks have resolved and performs what it holds,
ABORT rolls it back, SPECQ reports it. -/
def Obligations.SpeculativeRegion : Prop :=
  (∀ (s s0 : State) (rd : BitVec 5) (off : BitVec 20),
      let p := s.core.sq.spec
      (s.resolved = some s0 →
        exec (.spec off) s = .next (State.adv { s0 with core.sq.spec := { s0.core.sq.spec with
          act := true, chkpt := s0.core.sq.x, handler := s0.core.sq.pc + 2 * sext64 off } } 4)) ∧
      (p.act = true → p.checks = [] → exec .commit s = .next (State.adv { s.releaseHeld with core.sq.spec.act := false } 4)) ∧
      (p.act = false → exec .commit s = .next (s.adv 4) ∧ exec .abort s = .next (s.adv 4)) ∧
      (p.act = true → ∃ t, exec .abort s = .next t ∧ t.core.sq.x = p.chkpt ∧ t.core.sq.pc = p.handler ∧ t.core.sq.spec.act = false ∧
        t.core.sq.spec.held = [] ∧ t.core.sq.spec.checks = [] ∧ t.core.sq.spec.reason = 1 ∧ t.store = s.store ∧ t.quads = s.quads ∧
        t.core.sq.trap = s.core.sq.trap ∧ t.core.regs = s.core.regs) ∧
      exec (.specq rd) s = .next ((s.setX rd (BitVec.ofNat 64 ((if p.act then 1 else 0) + min p.checks.length 3 * 2 +
        p.held.length * 2 ^ 3 + p.reason.toNat * 2 ^ 10 + p.resolves.toNat * 2 ^ 16 + p.fcause.toNat * 2 ^ 32))).adv 4)) ∧
  (∀ (s : State) (h : Held), s.core.sq.spec.act = true → s.core.sq.spec.checks = [] → s.core.sq.spec.held = [h] →
      h.tlb.nc = false → isHost h.pa = false → inDevice h.pa = false → (∀ c ∈ s.store.nc, c.sector ∉ sectorsOf h.pa h.size) →
      Memory.wf s.store.mem = true →
      ∃ t, exec .commit s = .next t ∧ t.core.sq.spec.act = false ∧ t.core.sq.spec.held = [] ∧
        (∀ k, k < h.size → memRead t.store.mem (h.pa + k) = BitVec.ofNat 8 (h.data.toNat / 256 ^ k)) ∧
        (∀ a, (a < h.pa ∨ h.pa + h.size ≤ a) → memRead t.store.mem a = memRead s.store.mem a) ∧ t.core.sq.x = s.core.sq.x)

/-- R117: the oldest check meets the head of its queue: a match is consumed and becomes the last value; a mismatch aborts the
region with REASON 2 and stays at the head; while the queue is empty nothing happens. What is the model's own choice in it:
assumption log 14. -/
def Obligations.CheckResolution : Prop :=
  ∀ (s : State) (c : Check) (rest : List Check) (v : Word) (q : List Word), s.core.sq.spec.checks = c :: rest →
    (s.core.outcome c.unit.toNat 0 = [] → exec .checkResolve s = .next s) ∧
    (s.core.outcome c.unit.toNat 0 = v :: q → v = c.predicted →
      exec .checkResolve s =
        .next (({ s with core := { s.core.setOutcome c.unit.toNat 0 q with sq.spec.checks := rest } }).setLast c.unit.toNat v)) ∧
    (s.core.outcome c.unit.toNat 0 = v :: q → v ≠ c.predicted → ∃ t, exec .checkResolve s = .next t ∧
      t.core.sq.x = s.core.sq.spec.chkpt ∧ t.core.sq.pc = s.core.sq.spec.handler ∧ t.core.sq.spec.act = false ∧
      t.core.sq.spec.reason = 2 ∧ t.core.sq.spec.held = [] ∧ t.core.outcome c.unit.toNat 0 = v :: q ∧ t.store = s.store)

/-! ## Queues and engines as the SQ sees them -/

/-- R166, R168, R170, R177 to R179: ENQ and RENQ add an entry behind every other of a queue with room; RENQ.nb answers 0 with it,
or 1 without waiting. -/
def Obligations.CommandQueue : Prop :=
  (∀ (s s0 : State) (rd ra rb ab : BitVec 5) (eng give take1 take2 take3 : BitVec 3) (e : Engine),
      let n := (s0.x rb).toNat
      let entry : Entry :=
        { addr := s0.convertBlock (s0.x ra), args := #v[s0.x ab, s0.x (ab + 1), s0.x (ab + 2), s0.x (ab + 3)]
          give := give, take1 := take1, take2 := take2, take3 := take3, priv := s0.priv }
      let sent : Entry := { addr := s0.convertBlock (s0.x ra), args := #v[BitVec.ofNat 64 s0.cur, 0, 0, 0], priv := s0.priv }
      s.resolved = some s0 → Engine.ofId eng.toNat = some e →
      ((s0.eng e).accepts s0.cur = true →
        exec (.enq eng ra ab give take1 take2 take3) s = .next ((s0.pushSlot s0.cur e (.entry entry)).adv 4)) ∧
      (s0.renqTarget (s0.x rb) = false → exec (.renq ra rb eng) s = .next (s0.raise .queueTarget 0) ∧
        exec (.renqNb rd ra rb eng) s = .next (s0.raise .queueTarget 0)) ∧
      (s0.renqTarget (s0.x rb) = true → (spadRef (s0.x ra) && n / 4 ≠ s0.quadNo) = false →
        (((s0.coreAt n).eng e).accepts s0.cur = true →
          exec (.renq ra rb eng) s = .next (((s0.pushSlot n e (.entry sent)).countDemote 4 true).adv 4) ∧
          exec (.renqNb rd ra rb eng) s = .next ((((s0.pushSlot n e (.entry sent)).countDemote 4 true).setX rd 0).adv 4)) ∧
        (((s0.coreAt n).eng e).accepts s0.cur = false →
          exec (.renqNb rd ra rb eng) s = .next (((s0.countDemote 4 true).setX rd 1).adv 4)))) ∧
  (∀ (s : State) (e : Engine) (x : Entry), (s.eng e).q.all (fun y => y ≠ .marker) = true →
      let u := s.pushSlot s.cur e (.entry x)
      (u.eng e).q = (s.eng e).q ++ [.entry x] ∧ (∀ f, f ≠ e → u.eng f = s.eng f) ∧ u.core.tok = s.core.tok ∧ u.core.outq = s.core.outq ∧
      (∀ r, u.x r = s.x r) ∧ u.store = s.store ∧ u.others = s.others)

/-- R117, R174, R175, R180, R181: tokens are taken and added one at a time; BPOP takes the oldest value, BPOP.S predicts the last
one where none is there, BPUSH appends. What is the model's own choice in it: assumption log 14. -/
def Obligations.TokensAndOutcomes : Prop :=
  (∀ (s s0 : State) (rd : BitVec 5) (eng : BitVec 3), eng.toNat ≤ 5 →
      let t := s0.core.tokq eng.toNat 0
      let u := s0.core.tokq 0 eng.toNat
      (s.resolved = some s0 → t.present ≠ 0 →
        exec (.twait eng) s = .next (State.adv { s0 with core := s0.core.setTokq eng.toNat 0 { t with present := t.present - 1 } } 4) ∧
        exec (.cTwait eng) s = .next (State.adv { s0 with core := s0.core.setTokq eng.toNat 0 { t with present := t.present - 1 } } 2)) ∧
      (s.resolved = some s0 → u.present + u.reserved < 15 →
        exec (.tsig eng) s = .next (State.adv { s0 with core := s0.core.setTokq 0 eng.toNat { u with present := u.present + 1 } } 4)) ∧
      (s.resolved = some s0 → u.present + u.reserved ≥ 15 → exec (.tsig eng) s = .next s0) ∧
      exec (.tcnt rd eng) s = .next ((s.setX rd (BitVec.ofNat 64 (s.core.tokq eng.toNat 0).present)).adv 4)) ∧
  (∀ (s s0 : State) (rd ra : BitVec 5) (eng : BitVec 3) (v : Word) (rest : List Word),
      let u := eng.toNat
      let popped (m : State) : State := State.adv (State.setX (State.setLast { m with core := m.core.setOutcome u 0 rest } u v) rd v) 4
      let claimed := s.core.sq.spec.checks.any fun c => c.unit = eng
      let last := s.core.sq.last.getD u 0
      let predicted : State := State.adv (State.setX { s with
        core.sq.spec.checks := s.core.sq.spec.checks ++ [{ unit := eng, predicted := last }] } rd last) 4
      (s.resolved = some s0 → s0.core.outcome u 0 = v :: rest → exec (.bpop rd eng) s = .next (popped s0)) ∧
      (s.core.sq.spec.act = false → s.core.outcome u 0 = v :: rest → exec (.bpopS rd eng) s = .next (popped s)) ∧
      (s.core.sq.spec.act = true → s.core.sq.stalledAt = none → claimed = false → s.core.outcome u 0 = v :: rest →
        exec (.bpopS rd eng) s = .next (popped s)) ∧
      (s.core.sq.spec.act = true → s.core.sq.stalledAt = none → s.core.sq.spec.checks.length < 4 →
        (claimed = true ∨ s.core.outcome u 0 = []) → exec (.bpopS rd eng) s = .next predicted) ∧
      (s.resolved = some s0 → s0.core.outcomeRoom 0 u = true →
        exec (.bpush ra eng) s = .next ((s0.pushOutcome 0 u (s0.x ra)).adv 4)))

/-- R182, R184 to R186, R188: FENCE.M completes where its markers are gone; ERESUME clears a fault and a freeze; EFREEZE freezes,
and completes once the engine has stopped; EQUERY reads ESTATE. What is the model's own choice in it: assumption logs 14, 67. -/
def Obligations.EngineControl : Prop :=
  ∀ (s s0 : State) (rd : BitVec 5) (eng : BitVec 3) (mask : BitVec 5) (e : Engine), s.resolved = some s0 →
    (∀ s1, s1 = s0.pushMarkers (maskEngines mask) → (∀ f ∈ maskEngines mask, s1.core.sq.fencePushed.getLsbD f.id = true ∧ .marker ∉ (s1.eng f).q) →
      exec (.fenceM mask) s = .next (State.adv { s1 with core.sq.fencePushed := 0 } 4)) ∧
    (Engine.ofId eng.toNat = some e →
      (∃ t, exec (.eresume eng) s = .next t ∧ (t.eng e).flt = false ∧ (t.eng e).frz = false ∧
        ((s0.eng e).flt = true → (t.eng e).efV = false ∧ (t.eng e).st = .running ∧ (t.eng e).repass = true ∧
          (t.eng e).pos = (s0.eng e).pos ∧ (t.eng e).rem = (s0.eng e).rem) ∧
        (∀ f, f ≠ e → t.eng f = s0.eng f) ∧ (∀ r, t.x r = s0.x r)) ∧
      (∃ t, exec (.efreeze eng) s = .next (if t.core.stopped e || (s0.eng e).flt then t.adv 4 else t) ∧ (t.eng e).frz = true ∧
        (t.eng e).pos = (s0.eng e).pos ∧ (t.eng e).flt = (s0.eng e).flt ∧ (∀ f, f ≠ e → t.eng f = s0.eng f) ∧ (∀ r, t.x r = s0.x r) ∧
        t.store = s0.store) ∧
      exec (.equery rd eng) s = .next ((s0.setX rd (s0.estate e)).adv 4))

/-- R392 to R396: a barrier word of a member completes as R396 says, and the arrival that completes the count trips the barrier.
What is the model's own choice in it: assumption logs 11, 15, 16. -/
def Obligations.GroupBarriers : Prop :=
  (∀ (s s0 : State) (scope : BitVec 3) (id : BitVec 5) (g : Grp) (w : BarWord), s.resolved = some s0 → s0.groupOf s0.cur = some g →
      let rank := s0.cur - g.first
      let key := barKey scope.toNat rank id.toNat
      let b := smGet g.barriers key {}
      let b' := b.arrive rank (s0.members g scope.toNat rank).length (s0.alone scope.toNat)
      let arrived := ((s0.setGroup { g with barriers := smSet g.barriers key b' }).announce g id.toNat b b').countDemote scope true
      let waiting (m : State) : State := { m with core.sq.bar := some { pc := m.core.sq.pc, key := key, gen := b.gen } }
      let done (m : State) : State := State.adv { m with core.sq.bar := none } 4
      let fresh := ∀ w, s0.core.sq.bar = some w → w.pc ≠ s0.core.sq.pc ∨ w.key ≠ key
      (fresh → rank ∉ b.arrived → exec (.bara scope id) s = .next (done arrived) ∧ exec (.barw scope id) s = .next (done s0) ∧
        exec (.baraw scope id) s = .next (if b'.gen ≠ b.gen then done arrived else waiting arrived)) ∧
      (fresh → rank ∈ b.arrived → exec (.bara scope id) s = .next s0 ∧ exec (.barw scope id) s = .next (waiting (s0.countDemote scope true)) ∧
        exec (.baraw scope id) s = .next (waiting (s0.countDemote scope true))) ∧
      (s0.core.sq.bar = some w → w.pc = s0.core.sq.pc → w.key = key → ∀ i ∈ [Instr.bara scope id, .barw scope id, .baraw scope id],
        exec i s = .next (if b.gen = w.gen then s0 else done s0))) ∧
  (∀ (b : Barrier) (rank members : Nat),
      let b' := b.arrive rank members true
      let p := b.arrive rank members false
      (b.arrived.length + 1 = members → b.others = true → p.gen = b.gen + 1 ∧ p.arrived = [] ∧ p.others = false) ∧
      (b.arrived.length + 1 = members → b.others = false → p.gen = b.gen ∧ p.full = true ∧ p.arrived = rank :: b.arrived) ∧
      (b.arrived.length + 1 = members → b'.gen = b.gen + 1 ∧ b'.arrived = [] ∧ b'.abort = false) ∧
      (b.arrived.length + 1 < members → b'.gen = b.gen ∧ b'.arrived = rank :: b.arrived) ∧
      smGet b'.pendgen rank 0 = b.gen)

/-- R18, R390, R391: PQPUSH inserts within the quota and the room of the queue; PQPOP answers and removes an entry of the
candidates, PQPEEK leaves it; on empty queues both answer 0 and 1 in bit 32. The candidates are the entries of the context in the
queues reached that rank first, by key and then by push order: at most 8 of the issuing die's queue, or at most 32 of the four
queues. What is the model's own choice in it: assumption logs 10, 54. -/
def Obligations.PriorityQueues : Prop :=
  ∀ (s s0 : State) (rd ra rb : BitVec 5) (scope : BitVec 3) (e : PqEntry), s.resolved = some s0 →
    let d := s0.pqTarget (s0.pqReach scope)
    let c := s0.pqCandidates scope
    let wide := scope.toNat = 4 ∧ 4 ≤ s0.core.sq.maxscope.toNat
    let n := if wide then 32 else 8
    let mine (x : PqEntry) : Prop := x.ctx = s0.core.sq.ctxid ∧ ∃ d, (if wide then d < 4 else d = s0.dieNo) ∧ x ∈ (s0.dieAt d).pq
    (c.length ≤ n ∧ (∀ x ∈ c, mine x) ∧ c.Pairwise (fun x y => x.key.toNat < y.key.toNat ∨ (x.key = y.key ∧ x.seq ≤ y.seq)) ∧
      ∀ x, mine x → x ∉ c → c.length = n ∧ ∀ y ∈ c, y.key.toNat < x.key.toNat ∨ (y.key = x.key ∧ y.seq ≤ x.seq)) ∧
    (s0.pqHeld d < (s0.ctxAt s0.core.sq.ctxid.toNat).quota.toNat → (s0.dieAt d).pq.length < 65536 →
      exec (.pqpush ra rb scope) s = .next (State.adv { s0.setDie d { s0.dieAt d with
        pq := (s0.dieAt d).pq ++ [{ seq := s0.ids, key := (s0.x ra).setWidth 32, value := s0.x rb, ctx := s0.core.sq.ctxid }] } with
          ids := s0.ids + 1 } 4)) ∧
    (c = [] → exec (.pqpeek rd scope) s = .next (((s0.setX rd 0).setX (rd + 1) 0x100000000).adv 4) ∧
      ∃ t, exec (.pqpop rd scope) s = .next t ∧ t.dies = s0.dies ∧
        t.core.counts.popempty = sat16 s0.core.counts.popempty 1 ∧ (rd ≠ 0 → rd + 1 ≠ 0 → t.x rd = 0 ∧ t.x (rd + 1) = 0x100000000)) ∧
    ((c.drop (Config.freeChoice s0.freeN c.length)).head? = some e →
      exec (.pqpeek rd scope) s =
        .next (((State.setX { s0 with freeN := s0.freeN + 1 } rd e.value).setX (rd + 1) (zext64 e.key)).adv 4) ∧
      exec (.pqpop rd scope) s = .next (((State.setX { s0 with
        freeN := s0.freeN + 1, dies := s0.dies.map fun x => (x.1, { x.2 with pq := x.2.pq.filter fun y => y.seq ≠ e.seq }) }
        rd e.value).setX (rd + 1) (zext64 e.key)).adv 4))

/-! ## Traps, privilege and system registers -/

/-- R102, R104, R119, R122, R459: TRAP and BRK take their exception, at U and S into S's registers and at M into the manager's;
inside a region they abort it with REASON 3. What is the model's own choice in it: assumption log 17. -/
def Obligations.TrapTaken : Prop :=
  (∀ (s : State) (code : BitVec 12),
      let enters (i : Instr) (c : Cause) (info : BitVec 12) : Prop :=
        ∃ t, exec i s = .next t ∧ t.core.sq.pc = s.core.sq.trap.tvec ∧ t.core.sq.trap.epc = s.core.sq.pc ∧
          t.core.sq.trap.cause = BitVec.ofNat 64 (c.code.toNat + info.toNat * 2 ^ 16) ∧ t.core.sq.trap.badaddr = 0 ∧
          t.core.sq.trap.tvec = s.core.sq.trap.tvec ∧ t.core.sq.trap.scratch = s.core.sq.trap.scratch ∧
          t.core.sq.trap.status = { intrap := true, pie := s.core.sq.trap.status.ie, ie := false, ppriv := s.priv, priv := 1 } ∧
          t.core.sq.x = s.core.sq.x ∧ t.core.sq.mtrap = s.core.sq.mtrap ∧ t.store = s.store ∧ t.quads = s.quads
      (s.core.sq.spec.act = false → s.priv ≠ 3 → ¬ (s.priv = 1 ∧ s.core.sq.trap.status.intrap = true) →
        enters (.trap code) .trapInstruction code ∧ enters .brk .breakpoint 0) ∧
      (s.core.sq.spec.act = true →
        exec (.trap code) s = .next (s.abortRegion 3 Cause.trapInstruction.code) ∧ exec .brk s = .next (s.abortRegion 3 Cause.breakpoint.code))) ∧
  (∀ (s : State) (code : BitVec 12), s.core.sq.spec.act = false → s.priv = 3 →
      let m := s.core.sq.mtrap
      let enters (i : Instr) (c : Cause) (info : BitVec 12) : Prop :=
        ∃ t, exec i s = .next t ∧ t.core.sq.pc = m.tvec ∧ t.core.sq.mtrap.epc = s.core.sq.pc ∧
          t.core.sq.mtrap.cause = BitVec.ofNat 64 (c.code.toNat + info.toNat * 2 ^ 16) ∧ t.core.sq.mtrap.badaddr = 0 ∧
          t.core.sq.mtrap.tvec = m.tvec ∧ t.core.sq.mtrap.scratch = m.scratch ∧
          t.core.sq.mtrap.status = { m.status with intrap := true, pie := m.status.ie, ie := false, ppriv := 3 } ∧ t.priv = 3 ∧
          t.core.sq.trap = s.core.sq.trap ∧ t.core.sq.x = s.core.sq.x ∧ t.store = s.store ∧ t.quads = s.quads
      enters (.trap code) .trapInstruction code ∧ enters .brk .breakpoint 0)

/-- R103: a synchronous trap inside the handler at S freezes the core: no group's program goes on there, and the management
complex gets the second trap's cause. R101, R122: a pending engine fault is taken with the engine's number in UNIT, and is pending
no more; an open region is aborted first, with REASON 4 and the handler as EPC; a WFI that waits has ended, and EPC is the next
instruction. -/
def Obligations.EngineAndDoubleTraps : Prop :=
  (∀ (s : State) (code : BitVec 12), s.core.sq.spec.act = false → s.priv = 1 → s.core.sq.trap.status.intrap = true →
      ∃ t, exec (.trap code) s = .next t ∧ t.core.sq.run = .doubleTrap ∧ t.core.freezing = true ∧
        t.core.sq.trap = s.core.sq.trap ∧ t.core.sq.pc = s.core.sq.pc ∧
        t.mgmt.trapReports = s.mgmt.trapReports ++ [(s.cur, Cause.trapInstruction.code)] ∧ t.mgmt.mevent.getLsbD 1 = true) ∧
  (∀ (s : State) (e : Engine), s.sqLive = true → s.ieNow = true → s.core.firstPending = some e → s.priv ≠ 3 →
      ∃ t, exec .asyncTrapEntry s = .next t ∧ t.core.faultPending e = false ∧ t.core.sq.pc = s.core.sq.trap.tvec ∧
        t.core.sq.trap.epc = (if s.core.sq.spec.act then s.core.sq.spec.handler
          else if s.core.sq.inWfi then s.core.sq.pc + 4 else s.core.sq.pc) ∧
        t.core.sq.trap.cause =
          BitVec.ofNat 64 (0x1A + e.id * 2 ^ 8 + (if s.core.sq.spec.act then 1 else 0) * 2 ^ 11) ∧
        t.core.sq.trap.status.ie = false ∧ t.core.sq.trap.status.priv = 1 ∧ t.core.sq.spec.act = false ∧
        t.core.sq.x = (if s.core.sq.spec.act then s.core.sq.spec.chkpt else s.core.sq.x))

/-- R122: ERET returns: the pc is EPC, IE takes PIE, PRIV takes PPRIV, and INTRAP clears; at M the manager's registers serve. What
is the model's own choice in it: assumption log 17. -/
def Obligations.ExceptionReturn : Prop :=
  ∀ (s s0 : State), s.priv ≠ 0 → s.resolved = some s0 →
    (s0.priv ≠ 3 → ∃ t, exec .eret s = .next t ∧ t.core.sq.pc = s0.core.sq.trap.epc ∧
      t.core.sq.trap.status =
        { intrap := false, pie := true, ie := s0.core.sq.trap.status.pie, ppriv := 0, priv := s0.core.sq.trap.status.ppriv } ∧
      t.core.sq.x = s0.core.sq.x ∧ t.store = s0.store) ∧
    (s0.priv = 3 → ∃ t, exec .eret s = .next t ∧ t.core.sq.pc = s0.core.sq.mtrap.epc ∧ t.priv = s0.core.sq.mtrap.status.ppriv ∧
      t.core.sq.mtrap.status.ie = s0.core.sq.mtrap.status.pie ∧ t.core.sq.x = s0.core.sq.x)

/-- R81, R97, R106: at U the instructions marked S raise PRIVILEGE with no other effect; RDSYS and WRSYS of a register that this
privilege may not reach raise what R106 names: PRIVILEGE where the number is hidden, or readable here and written at another
privilege, as CTXID and MAXSCOPE at U and S, and DEMOTE and STATUS at U; ILLEGAL_INSTRUCTION for an unassigned number, and for any
above 0x2FF at every privilege. What is the model's own choice in it: assumption log 14. -/
def Obligations.Privilege : Prop :=
  ∀ (s : State) (rd ra : BitVec 5) (reg : BitVec 12) (c : Cause),
    (s.priv = 0 → ∀ i ∈ [Instr.eret, .wfi, .tlbinvVa ra, .tlbinvCtx ra, .tlbinvAll], exec i s = .next (s.raise .privilege 0)) ∧
    (s.priv = 1 → exec .tlbinvAll s = .next (s.raise .privilege 0) ∧
      ((s.x ra).setWidth 6 ≠ s.core.sq.ctxid → exec (.tlbinvCtx ra) s = .next (s.raise .privilege 0))) ∧
    (s.sysFault reg.toNat = some c → exec (.rdsys rd reg) s = .next (s.raise c 0) ∧ exec (.wrsys ra reg) s = .next (s.raise c 0)) ∧
    (0x200 ≤ reg.toNat → reg.toNat ≤ 0x2FF → s.priv ≠ 3 → s.sysFault reg.toNat = some .privilege) ∧
    (regAccess reg.toNat = none → (s.priv = 3 ∨ reg.toNat < 0x200) → s.sysFault reg.toNat = some .illegalInstruction) ∧
    (0x2FF < reg.toNat → exec (.rdsys rd reg) s = .next (s.raise .illegalInstruction 0) ∧
      exec (.wrsys ra reg) s = .next (s.raise .illegalInstruction 0)) ∧
    (∀ a, regAccess reg.toNat = some a → s.sysFault reg.toNat = none → a.at s.priv = .read → a.writable = true →
      exec (.wrsys ra reg) s = .next (s.raise .privilege 0)) ∧
    (s.priv = 0 ∨ s.priv = 1 → reg.toNat = 0x009 ∨ reg.toNat = 0x00A → exec (.wrsys ra reg) s = .next (s.raise .privilege 0)) ∧
    (s.priv = 0 → reg.toNat = 0x000 ∨ reg.toNat = 0x00B → exec (.wrsys ra reg) s = .next (s.raise .privilege 0))

/-- R98, R104, R105, R106, R125: RDSYS reads and WRSYS writes: the scalar registers by name, CTXID 6 bits wide and DEMOTE 32, the
others through their own operations; a write that nothing may make is ignored. RDSYS reads STATUS, EPC, CAUSE, BADADDR, TVEC,
SCRATCH, CTXID, DEMOTE and VMODE by their fields, and after a write what that has left. R41, R129, R134, R188, R225, R250, R254:
the writes of single registers: PLMASK waits while a plate that it disables is in use and makes it Invalid; PLTAG clears PIN;
ESTATE moves a stopped or frozen engine to POS and REM; VMODE keeps what a VMODE word has written in the same cycle; the view
words. What is the model's own choice in it: assumption logs 50, 63. -/
def Obligations.SystemRegisters : Prop :=
  (∀ (s s0 : State) (rd ra : BitVec 5) (reg : BitVec 12) (a : Access),
      let v := s0.x ra
      let w (n : Nat) (t : State) : Prop := reg.toNat = n → exec (.wrsys ra reg) s = .next (t.adv 4)
      s.sysFault reg.toNat = none →
      (reg.toNat ≠ 0x14A → exec (.rdsys rd reg) s = .next ((s.setX rd (s.sysRead reg.toNat)).adv 4)) ∧
      (reg.toNat = 0x14A → exec (.rdsys rd reg) s =
        .next (((s.snapRead s.secureHere).2.setX rd (s.snapRead s.secureHere).1).adv 4)) ∧
      (regAccess reg.toNat = some a → s.resolved = some s0 → a.at s.priv = .write → a.at s0.priv = .write →
        w 0x000 { s0 with core.sq.trap.status :=
          { intrap := v.getLsbD 6, pie := v.getLsbD 5, ie := v.getLsbD 4, priv := s0.priv
            ppriv := if (bits v.toNat 2 2 : BitVec 2) = 2 || ((bits v.toNat 2 2 : BitVec 2) = 3 && s0.priv ≠ 3)
              then s0.core.sq.trap.status.ppriv else bits v.toNat 2 2 } } ∧
        w 0x009 { s0 with core.sq.ctxid := bits v.toNat 0 6 } ∧
        w 0x001 { s0 with core.sq.trap.epc := v &&& ~~~1#64 } ∧ w 0x002 { s0 with core.sq.trap.cause := v &&& 0x0FFF0FFF#64 } ∧
        w 0x003 { s0 with core.sq.trap.badaddr := v } ∧ w 0x004 { s0 with core.sq.trap.tvec := v &&& ~~~3#64 } ∧
        w 0x005 { s0 with core.sq.trap.scratch := v } ∧ w 0x00B { s0 with core.sq.demote := bits v.toNat 0 32 } ∧
        w 0x00D (if s0.core.sq.vmodeAt = some s0.time then s0 else { s0 with core.sq.vmode := v.setWidth 4 }) ∧
        (0x100 ≤ reg.toNat → reg.toNat < 0x180 → exec (.wrsys ra reg) s = .next ((s0.writePage reg.toNat v).adv 4)) ∧
        (0x180 ≤ reg.toNat → reg.toNat < 0x200 → exec (.wrsys ra reg) s = .next ((s0.writeGroup reg.toNat v).adv 4)) ∧
        (0x200 ≤ reg.toNat → exec (.wrsys ra reg) s = .next ((s0.writeManager reg.toNat v).adv 4))) ∧
      (regAccess reg.toNat = some a → a.writable = false → s.resolved = some s0 → a.at s0.priv ≠ .write →
        exec (.wrsys ra reg) s = .next (s0.adv 4)) ∧
      (let st := s.core.sq.trap.status
       let r (n : Nat) (x : Word) : Prop := reg.toNat = n → exec (.rdsys rd reg) s = .next ((s.setX rd x).adv 4)
       r 0x000 (BitVec.ofNat 64 (st.priv.toNat + 2 ^ 2 * st.ppriv.toNat + 2 ^ 4 * st.ie.toNat + 2 ^ 5 * st.pie.toNat + 2 ^ 6 * st.intrap.toNat)) ∧
       r 0x001 s.core.sq.trap.epc ∧ r 0x002 s.core.sq.trap.cause ∧ r 0x003 s.core.sq.trap.badaddr ∧ r 0x004 s.core.sq.trap.tvec ∧
       r 0x005 s.core.sq.trap.scratch ∧ r 0x009 (zext64 s.core.sq.ctxid) ∧ r 0x00B (zext64 s.core.sq.demote) ∧ r 0x00D (zext64 s.core.sq.vmode)) ∧
      (∀ u, regAccess reg.toNat = some a → s.resolved = some s0 → a.at s.priv = .write → a.at s0.priv = .write →
        exec (.wrsys ra reg) s = .next u →
        let r (n : Nat) (x : Word) : Prop := reg.toNat = n → exec (.rdsys rd reg) u = .next ((u.setX rd x).adv 4)
        r 0x001 (v &&& ~~~1#64) ∧ r 0x002 (v &&& 0x0FFF0FFF#64) ∧ r 0x003 v ∧ r 0x004 (v &&& ~~~3#64) ∧ r 0x005 v ∧
        r 0x009 (v &&& 0x3F#64) ∧ r 0x00B (v &&& 0xFFFFFFFF#64) ∧
        (s0.core.sq.vmodeAt ≠ some s0.time → r 0x00D (v &&& 0xF#64)) ∧
        (v.toNat / 4 % 4 ≤ 1 → r 0x000 ((v &&& 0x7C#64) ||| zext64 s0.priv)))) ∧
  (∀ (s : State) (v : Word) (n k : BitVec 4) (e : Engine),
      let q := s.quadAt s.quadNo
      let mask := v.setWidth 16 &&& q.avail
      let lost := (enabled q.plmask).filter fun p => !mask.getLsbD p
      (s.anyBusy lost = true → exec (.plmaskWrite v) s = .next s) ∧
      (s.anyBusy lost = false → ∃ t, exec (.plmaskWrite v) s = .next t ∧ (t.quadAt s.quadNo).plmask = mask ∧ t.core = s.core ∧
        ∀ p, p < 16 → plateAt (t.quadAt s.quadNo).plate p = if p ∈ lost then (plateAt q.plate p).invalid else plateAt q.plate p) ∧
      (v.getLsbD 1 = true → exec (.pltagWrite n v) s = .next s) ∧
      (v.getLsbD 1 = false → s.anyBusy [n.toNat] = true → exec (.pltagWrite n v) s = .next s) ∧
      (v.getLsbD 1 = false → s.anyBusy [n.toNat] = false → ∃ t, exec (.pltagWrite n v) s = .next t ∧ t.core = s.core ∧
        ∀ p, p < 16 → plateAt (t.quadAt s.quadNo).plate p =
          if p = n.toNat then { plateAt q.plate p with pin := false } else plateAt q.plate p) ∧
      ((s.eng e).flt = true ∨ (s.eng e).frz = true → ∃ t, exec (.estateWrite e v) s = .next t ∧ (t.eng e).pos = bits v.toNat 28 12 ∧
        (t.eng e).rem = (if bits v.toNat 40 16 = 0 then (s.eng e).rem else bits v.toNat 40 16) ∧ (t.eng e).st = (s.eng e).st ∧
        (∀ g, g ≠ e → t.eng g = s.eng g) ∧ t.core.sq = s.core.sq) ∧
      ((s.eng e).flt = false → (s.eng e).frz = false → ∃ t, exec (.estateWrite e v) s = .next t ∧ ∀ g, t.eng g = s.eng g) ∧
      (s.core.sq.vmodeAt ≠ some s.time → exec (.vmodeWrite v) s = .next { s with core.sq.vmode := v.setWidth 4 }) ∧
      (s.core.sq.vmodeAt = some s.time → exec (.vmodeWrite v) s = .next s) ∧
      (s.quiet [.ae, .ve, .me] = false → exec (.viewWordWrite k v) s = .next s) ∧
      (s.quiet [.ae, .ve, .me] = true → ∃ t, exec (.viewWordWrite k v) s = .next t ∧
        (∀ i : BitVec 3, i.toNat ≠ k.toNat / 2 → t.core.view i = s.core.view i) ∧
        seg (t.core.view (BitVec.ofNat 3 (k.toNat / 2))).toNat (64 * (k.toNat % 2)) 64 =
          (v &&& if k.toNat % 2 = 0 then 0x03FF03FF03FFFF1F#64 else 0x3FF#64).toNat ∧
        seg (t.core.view (BitVec.ofNat 3 (k.toNat / 2))).toNat (64 - 64 * (k.toNat % 2)) 64 =
          seg (s.core.view (BitVec.ofNat 3 (k.toNat / 2))).toNat (64 - 64 * (k.toNat % 2)) 64))

/-- R101, R122, R123, R217: RDTIME reads TIME; SLEEPU ends once TIME has reached its operand, with PROMISE_MISSED where the named
engine has given no token; WFI goes on once an engine fault is pending. What is the model's own choice in it: assumption logs 4,
57. -/
def Obligations.TimeAndWaits : Prop :=
  ∀ (s s0 : State) (rd ra : BitVec 5) (eng : BitVec 3),
    exec (.rdtime rd) s = .next ((s.setX rd s.time).adv 4) ∧
    (s.resolved = some s0 →
      (s0.time.toNat < (s0.x ra).toNat → exec (.sleepu ra eng) s = .next { s0 with core.sq.sleep := some (s0.x ra, eng) }) ∧
      ((s0.x ra).toNat ≤ s0.time.toNat → (eng = 7 ∨ (s0.core.tokq eng.toNat 0).present ≠ 0) →
        exec (.sleepu ra eng) s = .next (State.adv { s0 with core.sq.sleep := none } 4)) ∧
      ((s0.x ra).toNat ≤ s0.time.toNat → eng ≠ 7 → (s0.core.tokq eng.toNat 0).present = 0 →
        exec (.sleepu ra eng) s = .next (State.raise { s0 with core.sq.sleep := none } .promiseMissed 0)) ∧
      (s.priv ≠ 0 → s0.core.sq.pending ≠ 0 → exec .wfi s = .next (s0.adv 4)) ∧
      (s.priv ≠ 0 → s0.core.sq.pending = 0 → exec .wfi s = .next { s0 with core.sq.inWfi := true }))

/-- R133, R201, R203: WVIEW and TDSET load a record that is well formed, and raise VIEW_INVALID and DESCRIPTOR_INVALID for one
that is not; they wait while the engines that use it have entries. -/
def Obligations.ViewsAndDescriptors : Prop :=
  ∀ (s s0 s1 s2 : State) (ra : BitVec 5) (view : BitVec 3) (id : BitVec 8) (pa v : Nat) (t : Tlb), s.resolved = some s0 →
    s0.reach { read := true } (s0.x ra) = some (pa, t, s1) →
    (s0.quiet [.ae, .ve, .me] = true → (s0.x ra).toNat % 16 = 0 → s1.found (sqHolders s1.cur) .all t pa 16 = some (v, s2) →
      exec (.wview ra view) s =
        if viewWf (BitVec.ofNat 128 v) then .next (State.adv { s2 with core := s2.core.setView view (BitVec.ofNat 128 v) } 4)
        else .next (s2.raise .viewInvalid (s2.x ra))) ∧
    (s0.quiet [.ae, .me, .ce] = true → (s0.x ra).toNat % 64 = 0 → s1.found (sqHolders s1.cur) .all t pa 64 = some (v, s2) →
      let n := s2.core.sq.ctxid.toNat
      exec (.tdset ra id) s =
        if descWf (BitVec.ofNat 512 v) then
          .next ((s2.setCtx n { s2.ctxAt n with desc := smSet (s2.ctxAt n).desc id.toNat (BitVec.ofNat 512 v) }).adv 4)
        else .next (s2.raise .descriptorInvalid (s2.x ra))) ∧
    (s0.quiet [.ae, .ve, .me] = false → exec (.wview ra view) s = .next s0) ∧
    (s0.quiet [.ae, .me, .ce] = false → exec (.tdset ra id) s = .next s0)

/-! ## The control words and the VE -/

/-- R41, R132, R157, R159 to R164: the control words and the mode words complete, each with its own effect. What is the model's
own choice in it: assumption log 76. -/
def Obligations.ControlWords : Prop :=
  ∀ (s : State) (tgt msk view : BitVec 3) (cnt : BitVec 8) (summary : BitVec 2) (mode : BitVec 4) (v : Word) (rest : List Word),
    let s' : State := { s with core := s.core.setOutcome tgt.toNat s.actor.id rest }
    exec .nop s = .next (s.wordDone 1) ∧
    exec .stop s = .next ((s.wordDone 1).upd fun e => { e with st := .draining }) ∧
    (s.core.outcome tgt.toNat s.actor.id = v :: rest →
      exec (.bexit tgt) s = .next (if v = 0 then s'.wordDone 1 else (s'.wordDone 1).upd fun e => { e with st := .draining }) ∧
      exec (.bskip tgt cnt) s = .next (s'.wordDone (if v = 0 then 1 else 1 + cnt.toNat))) ∧
    (s.core.outcomeRoom s.actor.id tgt.toNat = true →
      exec (.bpushm tgt msk summary) s =
        .next ((s.pushOutcome s.actor.id tgt.toNat (maskSummary (vget s.core.regs.mask msk) summary)).wordDone 1)) ∧
    exec (.vmsel msk) s = .next (State.wordDone { s with core.vex.amask := msk } 1) ∧
    exec (.rot view) s = .next (State.wordDone { s with core := s.core.setView view (rotateView (s.core.view view)) } 1) ∧
    exec (.vmode mode) s = .next (State.wordDone { s with core.vex.mode := mode, core.sq.vmode := mode, core.sq.vmodeAt := some s.time } 2)

/-- R131, R132: a well-formed view resolves an index into the register space, ROT keeps the view well-formed, and after it an
index names the granule that the index STEP further on named before. -/
def Obligations.RotatedViews : Prop :=
  ∀ (v : BitVec 128), viewWf v = true → viewCount v ≠ 0 →
    viewWf (rotateView v) = true ∧ viewCount (rotateView v) = viewCount v ∧
    (∀ i, ∃ g, resolveView v i = some g ∧ g < 1280) ∧
    (∀ (i k : Nat), ((k : Int) - (BitVec.ofNat 10 (seg v.toNat 48 10)).toInt) % (viewCount v : Int) = 0 →
      resolveView (rotateView v) i = resolveView v (i + k))

/-- R44, R46, R135, R138, R145: VADD, VSUB, VMUL, VMIN, VMAX and VABSD of two sources that are ready schedule, element by element,
the wrapped or saturated integer two cycles later, or the float rounded once four cycles later. R136, R145: the bitwise words of
every type, and the shifts, the saturating sums and the high product of the integer types. R145, R151: VFMA and VFMS read the old
destination as a third source and round once; VDOT4 adds four products of bytes to it. What is the model's own choice in it:
assumption log 64. -/
def Obligations.VectorArithmetic : Prop :=
  (∀ (s : State) (d s1 s2 : BitVec 8) (m : BitVec 1) (t : Ty) (a b : Granule) (dst : VDest) (c : Core),
      s.veReady t [d, s1, s2] [d, s1, s2] [] [s1, s2] d = some ([a, b], dst, c) →
      let md := modeOf c.vex.mode
      let each (lat : Nat) (f : Nat → Nat → Nat) : Out :=
        .next (s.veWrote c t lat dst (c.activeMask m) (packElems t.width (List.zipWith f (elemsOf t.width a) (elemsOf t.width b))))
      (t.isInt = true →
        exec (.vadd d s1 s2 m) s = each 2 (fun x y => t.wrap (t.int x + t.int y)) ∧
        exec (.vsub d s1 s2 m) s = each 2 (fun x y => t.wrap (t.int x - t.int y)) ∧
        exec (.vmul d s1 s2 m) s = each 2 (fun x y => t.wrap (t.int x * t.int y)) ∧
        exec (.vmin d s1 s2 m) s = each 2 (fun x y => t.wrap (min (t.int x) (t.int y))) ∧
        exec (.vmax d s1 s2 m) s = each 2 (fun x y => t.wrap (max (t.int x) (t.int y))) ∧
        exec (.vabsd d s1 s2 m) s = each 2 (fun x y => t.satBits (t.int x - t.int y).natAbs)) ∧
      (t.isWide = true →
        exec (.vadd d s1 s2 m) s = each 4 (fun x y => t.convert md (fAdd md.rm (t.read md x) (t.read md y))) ∧
        exec (.vsub d s1 s2 m) s = each 4 (fun x y => t.convert md (fAdd md.rm (t.read md x) (fNeg (t.read md y)))) ∧
        exec (.vmul d s1 s2 m) s = each 4 (fun x y => t.convert md (fMul (t.read md x) (t.read md y))) ∧
        exec (.vmin d s1 s2 m) s = each 4 (fun x y => t.convert md (fPick false (t.read md x) (t.read md y))) ∧
        exec (.vmax d s1 s2 m) s = each 4 (fun x y => t.convert md (fPick true (t.read md x) (t.read md y))) ∧
        exec (.vabsd d s1 s2 m) s =
          each 4 (fun x y => t.convert md ((fAdd md.rm (t.read md x) (fNeg (t.read md y))).withSign false)))) ∧
  (∀ (s : State) (d s1 s2 : BitVec 8) (m : BitVec 1) (t : Ty) (a b : Granule) (dst : VDest) (c : Core),
      s.veReady t [d, s1, s2] [d, s1, s2] [] [s1, s2] d = some ([a, b], dst, c) →
      let each (f : Nat → Nat → Nat) : Out :=
        .next (s.veWrote c t 2 dst (c.activeMask m) (packElems t.width (List.zipWith f (elemsOf t.width a) (elemsOf t.width b))))
      exec (.vand d s1 s2 m) s = each (· &&& ·) ∧ exec (.vor d s1 s2 m) s = each (· ||| ·) ∧ exec (.vxor d s1 s2 m) s = each (· ^^^ ·) ∧
      (t.isInt = true →
        exec (.vshl d s1 s2 m) s = each (fun x n => if t.width ≤ n then 0 else x * 2 ^ n % 2 ^ t.width) ∧
        exec (.vshr d s1 s2 m) s = each (fun x n => t.wrap (t.int x / 2 ^ min n t.width)) ∧
        exec (.vadds d s1 s2 m) s = each (fun x y => t.satBits (t.int x + t.int y)) ∧
        exec (.vsubs d s1 s2 m) s = each (fun x y => t.satBits (t.int x - t.int y)) ∧
        exec (.vmulh d s1 s2 m) s = each (fun x y => t.wrap (t.int x * t.int y / 2 ^ t.width)))) ∧
  (∀ (s : State) (d s1 s2 : BitVec 8) (m : BitVec 1) (t ta tb : Ty) (a b old : Granule) (dst : VDest) (c : Core),
      let md := modeOf c.vex.mode
      let each (lat : Nat) (f : Nat → Nat → Nat → Nat) : Out :=
        .next (s.veWrote c t lat dst (c.activeMask m) (packElems t.width
          (List.zipWith (fun p z => f p.1 p.2 z) (List.zip (elemsOf t.width a) (elemsOf t.width b)) (elemsOf t.width old))))
      (s.veReady t [d, s1, s2] [d, s1, s2] [] [s1, s2, d] d = some ([a, b, old], dst, c) →
        (t.isInt = true →
          exec (.vfma d s1 s2 m) s = each 2 (fun x y z => t.wrap (t.int z + t.int x * t.int y)) ∧
          exec (.vfms d s1 s2 m) s = each 2 (fun x y z => t.wrap (t.int z - t.int x * t.int y))) ∧
        (t.isWide = true →
          exec (.vfma d s1 s2 m) s = each 4 (fun x y z => t.convert md (fAdd md.rm (t.read md z) (fMul (t.read md x) (t.read md y)))) ∧
          exec (.vfms d s1 s2 m) s =
            each 4 (fun x y z => t.convert md (fAdd md.rm (t.read md z) (fNeg (fMul (t.read md x) (t.read md y))))))) ∧
      (s.veReady t [d] [d] [s1, s2] [s1, s2, d] d = some ([a, b, old], dst, c) →
        dotType s.core t s1 = some ta → dotType s.core t s2 = some tb →
        (t = .i32 → exec (.vdot4 d s1 s2 m) s = each 4 (fun x y z => t.wrap (t.int z +
          (ta.int (x % 256) * tb.int (y % 256) + ta.int (x / 256 % 256) * tb.int (y / 256 % 256) +
           ta.int (x / 65536 % 256) * tb.int (y / 65536 % 256) + ta.int (x / 16777216 % 256) * tb.int (y / 16777216 % 256))))) ∧
        (t = .f32 → exec (.vdot4 d s1 s2 m) s = each 4 (dotLane t ta tb md))))

/-- R138, R153-R155: the words of one source: moves, negations, absolute values, rounding to an integral value, the counts of
bits, the transcendental functions, and the reductions, which enter masked elements as inert ones. R153, R263: VMOV copies bits;
between two main-file operands and unmasked it copies the binding tag too, whose group takes one more reference at issue. R154,
R156-R158: VCVT, VMCNT, VIOTA and VMOVI. What is the model's own choice in it: assumption log 64. -/
def Obligations.VectorUnary : Prop :=
  (∀ (s : State) (d s1 : BitVec 8) (m : BitVec 1) (t : Ty) (a : Granule) (dst : VDest) (c : Core),
      s.veReady t [d, s1] [d, s1] [] [s1] d = some ([a], dst, c) →
      let md := modeOf c.vex.mode
      let put (lat : Nat) (g : Granule) : Out := .next (s.veWrote c t lat dst (c.activeMask m) g)
      let each (lat : Nat) (f : Nat → Nat) : Out := put lat (packElems t.width ((elemsOf t.width a).map f))
      let fold (v : Nat) : Out := .next (s.veWrote c t 8 dst (BitVec.allOnes 1024) (splat t.width v))
      let es := masked t (c.activeMask m) a
      exec (.vnot d s1 m) s = each 2 (fun x => 2 ^ t.width - 1 - x) ∧
      exec (.vbcast d s1 m) s = put 2 (splat t.width (a.toNat % 2 ^ t.width)) ∧
      (t.isInt = true →
        exec (.vneg d s1 m) s = each 2 (fun x => t.wrap (-(t.int x))) ∧
        exec (.vabs d s1 m) s = each 2 (fun x => t.wrap (t.int x).natAbs) ∧
        exec (.vpopc d s1 m) s = each 2 (popCount t.width) ∧
        exec (.vclz d s1 m) s = each 2 (leadingZeros t.width) ∧
        exec (.vrdsum d s1 m) s = fold (t.satBits (root (· + ·) (es.map fun p => if p.2 then t.int p.1 else 0))) ∧
        exec (.vrdmax d s1 m) s = fold (t.satBits (root max (es.map fun p => if p.2 then t.int p.1 else t.range.1))) ∧
        exec (.vrdmin d s1 m) s = fold (t.satBits (root min (es.map fun p => if p.2 then t.int p.1 else t.range.2)))) ∧
      (t.isWide = true →
        exec (.vneg d s1 m) s = each 4 (fun x => t.convert md (fNeg (t.read md x))) ∧
        exec (.vabs d s1 m) s = each 4 (fun x => t.convert md ((t.read md x).withSign false)) ∧
        exec (.vrnd d s1 m) s = each 4 (fun x => t.convert md (fIntegral md.rm (t.read md x))) ∧
        (∀ i g, (i, g) ∈ [(Instr.vexp2 d s1 m, Fn1.exp2), (.vlog2 d s1 m, .log2), (.vexp d s1 m, .exp), (.vrcp d s1 m, .rcp),
            (.vrsq d s1 m, .rsq), (.vsqrt d s1 m, .sqrt), (.vsig d s1 m, .sig), (.vtanh d s1 m, .tanh)] →
          exec i s = each 12 (g.apply t md)) ∧
        exec (.vrdsum d s1 m) s =
          fold (t.convert md (root (sumNode md) (es.map fun p => if p.2 then t.read md p.1 else .zero))) ∧
        exec (.vrdmax d s1 m) s =
          fold (t.convert md (root (fPick true) (es.map fun p => if p.2 then t.read md p.1 else limitOf md t true))) ∧
        exec (.vrdmin d s1 m) s =
          fold (t.convert md (root (fPick false) (es.map fun p => if p.2 then t.read md p.1 else limitOf md t false))))) ∧
  (∀ (s : State) (d s1 : BitVec 8) (m : BitVec 1) (t : Ty) (a : Granule) (dst : VDest) (c : Core),
      ((mainOnly d && mainOnly s1 && m = 0) = false →
        s.veReady t [d, s1] [d, s1] [] [s1] d = some ([a], dst, c) →
        exec (.vmov d s1 m) s = .next (s.veWrote c t 2 dst (c.activeMask m) (packElems t.width (elemsOf t.width a)))) ∧
      (∀ v i g, mainOnly d = true → operand s1 = .main v i → s.core.granuleOf v i = some g → m = 0 →
        let tag := s.core.regs.tagOf g
        let s' : State := { s with core := if tagBound tag then { s.core with regs := s.core.regs.addRef (tagGroup tag) } else s.core }
        s'.veReady t [d, s1] [d, s1] [] [s1] d = some ([a], dst, c) →
        exec (.vmov d s1 m) s = .next (s'.veWrote c t 2 dst (BitVec.allOnes 1024) a (.copy tag)))) ∧
  (∀ (s : State) (d s1 : BitVec 8) (m : BitVec 1) (k : BitVec 3) (imm : BitVec 16) (t u : Ty) (a : Granule) (dst : VDest) (c : Core),
      let md := modeOf c.vex.mode
      let put (g : Granule) : Out := .next (s.veWrote c t 2 dst (c.activeMask m) g)
      (s.veReady t [d] [d] [s1] [s1] d = some ([a], dst, c) → s.core.wordType [s1] = some u → u ≠ t →
        exec (.vcvt d s1 m) s = .next (s.veWrote c t 4 dst (c.activeMask m &&& lowOnes (min u.count t.count))
          (packElems t.width (((elemsOf u.width a).take (min u.count t.count)).map fun x => t.convert md (u.read md x))))) ∧
      (s.veReady t [d] [d] [] [] d = some ([], dst, c) →
        (t.isInt = true ∨ t.isWide = true →
          exec (.vmcnt d k m) s = put (splat t.width (t.convert md
            (ofInt (popCount (vget c.regs.mask k).width (vget c.regs.mask k).bits.toNat)))) ∧
          exec (.viota d m) s = put (packElems t.width ((List.range t.count).map fun (j : Nat) =>
            if t.isInt then t.wrap j else t.convert md (ofInt j)))) ∧
        (t = .i32 → exec (.vmovi d imm m) s = put (splat 32 (t.wrap imm.toInt))) ∧
        (t = .f32 → exec (.vmovi d imm m) s = put (splat 32 (imm.toNat * 65536))) ∧
        (t.size = 2 → exec (.vmovi d imm m) s = put (splat 16 (imm.toNat % 65536))) ∧
        (t.size = 1 → imm.toNat < 256 → exec (.vmovi d imm m) s = put (splat 8 (imm.toNat % 256)))))

/-- R147-R150: VSEL selects by the active mask whole registers of bits, VPERM and VLUT pick elements by number, and VSCL scales by
a power of two. R146, R152: a compare schedules one bit of the mask for each active element, the bits above cleared and the width
the element count; the mask words work within the width of s1. No such word feeds the latch. What is the model's own choice in it:
assumption log 76. -/
def Obligations.VectorSelection : Prop :=
  (∀ (s : State) (d s1 s2 : BitVec 8) (m : BitVec 1) (t : Ty) (a b : Granule) (dst : VDest) (c : Core),
      let md := modeOf c.vex.mode
      let put (lat : Nat) (l : List Nat) : Out := .next (s.veWrote c t lat dst (c.activeMask m) (packElems t.width l))
      (s.veReady t [d, s1, s2] [d, s1, s2] [] [s1, s2] d = some ([a, b], dst, c) →
        exec (.vsel d s1 s2) s = .next (s.veWrote c t 2 dst (BitVec.allOnes 1024)
          (mergeBits (elemMask (vget c.regs.mask c.vex.amask).bits 0 t.width) b a))) ∧
      (s.veReady t [d, s1, s2] [d, s1] [s2] [s1, s2] d = some ([a, b], dst, c) →
        exec (.vperm d s1 s2 m) s = put 6 ((elemsOf t.width b).map fun i => (elemsOf t.width a).getD (i % t.count) 0) ∧
        (t.isWide = true → exec (.vscl d s1 s2 m) s = put 4
          (List.zipWith (fun x k => t.convert md (fScale (intOf true t.width k) (t.read md x))) (elemsOf t.width a) (elemsOf t.width b)))) ∧
      (s.veReady t [d, s1, s2] [d, s2] [s1] [s1, s2] d = some ([a, b], dst, c) →
        exec (.vlut d s1 s2 m) s = put 6 ((elemsOf t.width a).map fun i => (elemsOf t.width b).getD (i % 256 % t.count) 0))) ∧
  (∀ (s : State) (d m1 m2 : BitVec 3) (s1 s2 : BitVec 8) (m : BitVec 1) (t : Ty) (a b : Granule) (c : Core),
      let md := modeOf c.vex.mode
      let put (c : Core) (v merge : BitVec 1024) (w : Nat) : Out :=
        let x : VWrite := { left := 2, dests := [.mask d], data := [v.setWidth 8192], merge := merge, width := w }
        .next (State.wordDone { s with core := c.schedule x } 2)
      let cmp (f : Nat → Nat → Bool) : Out :=
        put c (bitsOf (List.zipWith f (elemsOf t.width a) (elemsOf t.width b))) (c.activeMask m ||| ~~~lowOnes t.count) t.count
      let real (nan : Bool) (f : Int → Bool) (x y : Nat) : Bool :=
        if t.read md x = .nan ∨ t.read md y = .nan then nan else f (fCompare (t.read md x) (t.read md y))
      let src := vget s.core.regs.mask m1
      let other := (vget s.core.regs.mask m2).bits
      let op (v : BitVec 1024) : Out := put s.core (v &&& lowOnes src.width) (BitVec.allOnes 1024) src.width
      (s.core.wordType [s1, s2] = some t → s.core.operandOk (some t) s1 = true → s.core.operandOk (some t) s2 = true →
        s.core.readSources s.act.entry.args t.width [s1, s2] = .ok ([a, b], c) →
        (t.isInt = true →
          exec (.vcmpeq d s1 s2 m) s = cmp (fun x y => t.int x = t.int y) ∧ exec (.vcmpne d s1 s2 m) s = cmp (fun x y => t.int x ≠ t.int y) ∧
          exec (.vcmplt d s1 s2 m) s = cmp (fun x y => t.int x < t.int y) ∧ exec (.vcmple d s1 s2 m) s = cmp (fun x y => t.int x ≤ t.int y)) ∧
        (t.isWide = true →
          exec (.vcmpeq d s1 s2 m) s = cmp (real false (· = 0)) ∧ exec (.vcmpne d s1 s2 m) s = cmp (real true (· ≠ 0)) ∧
          exec (.vcmplt d s1 s2 m) s = cmp (real false (· < 0)) ∧ exec (.vcmple d s1 s2 m) s = cmp (real false (· ≤ 0)))) ∧
      exec (.vmand d m1 m2) s = op (src.bits &&& other) ∧ exec (.vmor d m1 m2) s = op (src.bits ||| other) ∧
      exec (.vmxor d m1 m2) s = op (src.bits ^^^ other) ∧ exec (.vmnot d m1) s = op (~~~src.bits))

/-- R139, R140, R263: when the latency of a single pending write to a granule runs out, each element of it takes the new value
where its merge bit is set and keeps the old one elsewhere; the tag is cleared, and the latch holds the merged value. R15, R138:
exec of VE_WRITE_LAND passes a cycle of TIME, in which each core's VE counts one; a write whose latency has not run out does not
land. What is the model's own choice in it: assumption log 4. -/
def Obligations.VectorLanding : Prop :=
  (∀ (c : Core) (t : Ty) (g : Nat) (data : Granule) (merge : BitVec 1024),
      c.ve.frz = false → c.halted = false →
      c.vex.pend = [{ left := 1, dests := [.gran g], data := [data], merge := merge, esz := t.size, tag := .clear, latch := true }] →
      let u := c.veTick
      elemsOf t.width (u.regs.granule g) = (List.range t.count).map (fun j =>
        if merge.getLsbD j then (elemsOf t.width data).getD j 0 else (elemsOf t.width (c.regs.granule g)).getD j 0) ∧
      u.vex.lat = u.regs.granule g ∧ u.vex.latValid = true ∧ u.regs.tagOf g = 0 ∧ u.vex.pend = [] ∧ u.vex.cycle = c.vex.cycle + 1 ∧
      (∀ k, k ≠ g → u.regs.granule k = c.regs.granule k ∧ u.regs.tagOf k = c.regs.tagOf k)) ∧
  (∀ (s : State), exec .veWriteLand s = .next (State.performDue { s with
        core := s.core.veTick, others := s.others.map (fun c => (c.1, c.2.veTick)), time := s.time + 1 }) ∧
      ((∀ w, w ∈ s.core.vex.pend → 2 ≤ w.left) → s.core.ve.frz = false → s.core.halted = false →
        s.core.veTick.vex.pend = s.core.vex.pend.map (fun w => { w with left := w.left - 1 }) ∧
        s.core.veTick.regs = { s.core.regs with freed := 0 } ∧ s.core.veTick.vex.lat = s.core.vex.lat))

/-- R257-R263, R267-R270: the words over scales: each allocates, references or rewrites a group of scales at issue and schedules
the change of its granule's tag. R47, R267, R268: VCVTD picks a scale for each block of 32 elements, allocates a group, and binds
the granule that it writes; VCVTU multiplies each element by the scale of its block. -/
def Obligations.ScaledWords : Prop :=
  (∀ (s : State) (d s1 : BitVec 8) (g k old : Nat) (v : Granule) (c c' : Core),
      let codes := v.setWidth 256
      let bound (codes : BitVec 256) : Out := .next (s.veTagged c' g (.bind k codes))
      let mix (f : Nat → Nat → Nat) : BitVec 256 :=
        packCodes ((List.range 32).map fun j => f (codeAt (s.core.regs.groupAt old).codes j) (codeAt codes j))
      (s.core.scaledGranule d = some g → s.core.operandOk none s1 = true → s.core.readSource s.act.entry.args 8 s1 = .ok (v, c) →
        c.allocate = some (k, c') →
        exec (.scset d s1) s = bound codes ∧
        (s.core.regs.checkBinding g = .ok old →
          exec (.scadde d s1) s = bound (mix fun a b => if a = 255 then 255 else (satInt (a + intOf true 8 b) 0 254).toNat) ∧
          exec (.scmax d s1) s = bound (mix fun a b => if a = 255 ∨ b = 255 then 255 else max a b) ∧
          exec (.scmin d s1) s = bound (mix fun a b => if a = 255 ∨ b = 255 then 255 else min a b))) ∧
      (s.core.scaledGranule d = some g → s.core.operandOk none s1 = true → s.core.readSource s.act.entry.args 8 s1 = .ok (v, c) →
        s.core.regs.checkBinding g = .ok old → exec (.scwr d s1) s = .next (s.veTagged c g (.rewrite old codes))) ∧
      (s.core.scaledGranule d = some g → s.core.allocate = some (k, c') →
        exec (.scnew d) s = bound (packCodes (List.replicate 32 0x7F)) ∧
        (∀ h, s.core.scaledGranule s1 = some h → s.core.regs.checkBinding h = .ok old →
          exec (.scmov d s1) s = bound (s.core.regs.groupAt old).codes)) ∧
      (∀ h, s.core.scaledGranule d = some g → s.core.scaledGranule s1 = some h → s.core.regs.checkBinding h = .ok old →
        exec (.scbind d s1) s =
          if g = h then .next (s.wordDone 2)
          else .next (s.veTagged { s.core with regs := s.core.regs.addRef old } g (.copy (s.core.regs.tagOf h)))) ∧
      (∀ w i, operand d = .main w i → s.core.granuleOf w i = some g → exec (.scunb d) s = .next (s.veTagged s.core g .clear)) ∧
      (∀ h dst, s.core.scaledGranule s1 = some h → s.core.operandOk none d = true → s.core.regs.checkBinding h = .ok old →
        s.core.veTarget d = .ok (dst, c) →
        exec (.scrd d s1) s =
          .next (s.veWrote c .n8 2 dst (BitVec.allOnes 1024) ((s.core.regs.groupAt old).codes.setWidth 8192)))) ∧
  (∀ (s : State) (d s1 : BitVec 8) (m : BitVec 1) (g k : Nat) (t u : Ty) (regs : List VDest) (c : Core),
      let md := modeOf s.core.vex.mode
      (s.core.scaledGranule d = some g → (s.core.operandView d).bind viewType = some t → s.core.wordType [s1] = some u →
        t.scalable = true → u.isWide = true → s.core.span s1 u.size = some regs → spanOver s1 u.size = false →
        s.core.allocate = some (k, c) →
        let src := (regs.map fun r => (elemsOf u.width (c.regAt r)).map (u.read { md with sat := false })).flatten
        let out := (chunks 32 32 src).map (scaleSelect t md)
        exec (.vcvtd d s1) s = .next (s.veWrote c .n8 6 (.gran g) (BitVec.allOnes 1024) (packElems 8 (out.map (·.2)).flatten)
          (.bind k (packCodes (out.map (·.1)))))) ∧
      (s.core.scaledGranule s1 = some g → (s.core.operandView s1).bind viewType = some u → s.core.wordType [d] = some t →
        u.scalable = true → t.isWide = true → s.core.span d t.size = some regs → spanOver d t.size = false →
        s.core.regs.checkBinding g = .ok k →
        let out := ((elemsOf 8 (s.core.regs.granule g)).zipIdx).map fun p =>
          t.convert md (scaledValue u md (codeAt (s.core.regs.groupAt k).codes (p.2 / 32)) p.1)
        let w : VWrite := { left := 6, dests := regs, data := (chunks t.count t.size out).map (packElems t.width),
                            merge := s.core.activeMask m, esz := t.size, tag := (regs.headD (.ofile 0)).tagChange .clear, latch := true }
        exec (.vcvtu d s1 m) s = .next (State.wordDone { s with core := s.core.schedule w } 2)))

/-! ## The AE -/

/-- R89, R211: the pointer operations, on the AE once no pending LDI writes a pointer that they use; PCMP pushes the outcome of
its comparison, and LDI puts the value that it reads, zero-extended, on its way to its pointer. R193, R208: an aligned LDI whose
address translates and whose data is unmarked reads 2^size bytes; the value is on its way to its pointer, zero-extended. -/
def Obligations.Pointers : Prop :=
  (∀ (s : State) (pd ps pt : BitVec 4) (imm : BitVec 18) (arg : BitVec 2) (cond tgt : BitVec 3) (k : Cond),
      let put (v : Word) : Out := .next ((s.setPtr pd v).wordDone 2)
      let ready (l : List (BitVec 4)) : Prop := s.actor = .ae → s.ptrsReady l = true
      (ready [pd, ps] →
        exec (.paddi pd ps imm) s = put (s.ptr ps + sext64 imm) ∧ exec (.padd pd ps) s = put (s.ptr pd + s.ptr ps) ∧
        exec (.pmuli pd ps imm) s = put (s.ptr ps * sext64 imm)) ∧
      (ready [pd] → exec (.pmovi pd imm) s = put (sext64 imm) ∧ exec (.pmova pd arg) s = put (s.arg arg)) ∧
      (s.ptrsReady [ps, pt] = true → condOf cond = some k → s.core.outcomeRoom s.actor.id tgt.toNat = true →
        exec (.pcmp ps pt cond tgt) s =
          .next ((s.pushOutcome s.actor.id tgt.toNat (if k.holds (s.ptr ps) (s.ptr pt) then 1 else 0)).wordDone 2))) ∧
  (∀ (s s1 s2 : State) (pd p : BitVec 4) (size : BitVec 2) (cls : BitVec 4) (imm : BitVec 10) (pa : Nat) (t : Tlb) (x : Piece)
      (bs : List Byte),
      let n := 2 ^ size.toNat
      let ea := s.ptr p + sext64 imm * BitVec.ofNat 64 n
      s.memReady [p, pd] 1 = true → s.inOrder cls = true → ea.toNat % n = 0 →
      s.span (s.streamAgent p.toNat) { read := true } [(ea, n)] = some ([x], s1) → x.res = .ok (pa, t) → s1.marked s1.engHolders t pa n = none →
      s1.loadPhys s1.engHolders .all t pa n = (bs, s2) →
      exec (.ldi pd size p cls imm) s = .next ((s2.launchLoad (fun c => (.ptr pd, c))
        { dest := .none, value := BitVec.ofNat 64 (leNat bs), reqs := 1 }).wordDone 2))

/-- R195, R204, R209, R353: LDV and STV of an aligned 1 KiB, every sector of which can perform: LDV puts the bytes read on their
way to its register, STV writes the bytes of its source; of an address that is not aligned, each raises MISALIGNED with element 0;
and PREF, whose fetches count as requests until they return. R5, R353: the sectors of a vector load take, in coherent package
memory, the bytes of memory at their addresses, each at its place, and change neither memory nor the core. R353: the sectors of a
vector store write, in coherent package memory of which no copy of a non-coherent page stands, their own bytes and nothing else: a
byte outside every sector is unchanged, and a byte of the sector written last is that of the source. No register changes. What is
the model's own choice in it: assumption logs 29, 66, 77. -/
def Obligations.VectorMemory : Prop :=
  (∀ (s : State) (opd : BitVec 8) (p cls : BitVec 4) (imm : BitVec 10),
      let ea := s.ptr p + sext64 imm * 1024
      let ag := s.streamAgent p.toNat
      s.memReady [p] 16 = true →
      (s.inOrder cls = true → ea.toNat % 64 ≠ 0 →
        (∀ put, s.loadTarget opd = some put → exec (.ldv opd p cls imm) s = .next (s.engFault .misaligned ea 0)) ∧
        (∀ b, s.storeBytes opd = some b → exec (.stv opd p cls imm) s = .next (s.engFault .misaligned ea 0))) ∧
      (s.inOrder cls = true → ea.toNat % 64 = 0 → ∀ put todo s1, s.loadTarget opd = some put → s.sectorsLeft ag { read := true } ea 1024 = some (todo, s1) →
        let kept := (s.act.part.getD {}).data
        let r := todo.foldl (s1.readInto .all) (if kept.isEmpty then List.replicate 1024 0 else kept, s1)
        exec (.ldv opd p cls imm) s =
          .next ((r.2.launchLoad put { dest := .none, data := granOfBytes (r.1.take 1024), reqs := 16 }).wordDone 2)) ∧
      (s.inOrder cls = true → ea.toNat % 64 = 0 → ∀ src c todo s1, s.storeBytes opd = some (src, c) →
        (s.keepSource src).sectorsLeft ag { write := true } ea src.length = some (todo, s1) →
        let s2 := todo.foldl (s1.writeFrom .all src) s1
        exec (.stv opd p cls imm) s = .next (State.wordDone { s2 with core.sqq := c.sqq } 2)) ∧
      (let r := (piecesOf (BitVec.ofNat 64 (ea.toNat / 64 * 64)) 1024).foldl (State.prefetch ag) (s, 0)
       exec (.pref p cls imm) s = .next ((if r.2 = 0 then r.1 else r.1.launchLoad noDest { dest := .none, reqs := r.2 }).wordDone 2))) ∧
  (∀ (s0 s : State) (al : Alloc) (l : List (Nat × Word × Except Cause (Nat × Tlb))) (buf : List Byte),
      buf.length = 1024 →
      (∀ x ∈ l, x.1 < 16 ∧ ∃ pa t, x.2.2 = .ok (pa, t) ∧ t.nc = false ∧ isHost pa = false ∧ inDevice pa = false) →
      let r := l.foldl (s0.readInto al) (buf, s)
      r.2.store.mem = s.store.mem ∧ r.2.core = s.core ∧ r.1.length = 1024 ∧
      (∀ l' x, l = l' ++ [x] → ∀ pa t, x.2.2 = .ok (pa, t) →
        (r.1.drop (64 * x.1)).take 64 = (List.range 64).map fun k => memRead s.store.mem (pa + k))) ∧
  (∀ (s0 s : State) (al : Alloc) (src : List Byte) (l : List (Nat × Word × Except Cause (Nat × Tlb))),
      Memory.wf s.store.mem = true →
      (∀ x ∈ l, ∃ pa t, x.2.2 = .ok (pa, t) ∧ t.nc = false ∧ isHost pa = false ∧ inDevice pa = false ∧
        ∀ c ∈ s.store.nc, c.sector ∉ sectorsOf pa 64) →
      let r := l.foldl (fun acc x => State.writeFrom s0 al src acc x) s
      r.core.regs = s.core.regs ∧ (∀ x, r.x x = s.x x) ∧ r.store.host = s.store.host ∧ r.store.sram = s.store.sram ∧
      r.store.posted = s.store.posted ∧ Memory.wf r.store.mem = true ∧
      (∀ a, (∀ x ∈ l, ∀ pa t, x.2.2 = .ok (pa, t) → a < pa ∨ pa + 64 ≤ a) → memRead r.store.mem a = memRead s.store.mem a) ∧
      (∀ l' x, l = l' ++ [x] → ∀ pa t k, x.2.2 = .ok (pa, t) → k < 64 → 64 * x.1 + 64 ≤ src.length →
        memRead r.store.mem (pa + k) = src.getD (64 * x.1 + k) 0))

/-- R193, R196, R198, R204, R210, R405-R408: the scratchpad words, once no access of their class is on the wheel, send one request
for each 64-byte unit of their access, in order: LDS and SRCHK to read it, STS to write the bytes of its source, ATOMS to combine
each 32-bit element with its source's; HIST sends one for each valid element whose column is in range, and counts the others. Each
word is in flight until its requests have performed. R193, R199: a scratchpad access sends its requests, none of which performs
before those of the AE's earlier accesses of its class, which may still be on the wheel. R197, R198: a request of slot i at bank b
is served in a fabric cycle in which the bank turns to that slot, after those before it there, and within twelve cycles where none
is. It performs four cycles later; what it does changes its own bytes of the scratchpad and of the access alone. R196: a byte
written to the scratchpad is read at its offset, another offset of the window reads as before, and offsets wrap in the window.
R406: SRCHK's entries: the keys are the k largest, each with its column, in descending order and by ascending column among equals.
What is the model's own choice in it: assumption logs 11, 28, 77. -/
def Obligations.ScratchpadAccess : Prop :=
  (∀ (s : State) (opd : BitVec 8) (p cls : BitVec 4) (imm : BitVec 10) (op : BitVec 3) (n e : BitVec 8) (k : BitVec 2),
      let o := (s.ptr p + sext64 imm * 1024).toNat / 64 * 64
      let o' := (s.ptr p).toNat / 64 * 64
      let len := 2 * (n.toNat + 1)
      s.ptrsReady [p] = true →
      (∀ put, s.loadTarget opd = some put →
        exec (.lds opd p cls imm) s =
          .next ((s.spadLoad cls ((List.range 16).map fun k => (s.spadAt (o + 64 * k), .read (64 * k) 64)) none put).wordDone 2) ∧
        exec (.srchk opd p cls n k) s = .next ((s.spadLoad cls ((List.range ((len + 63) / 64)).map fun j =>
          (s.spadAt (o' + 64 * j), .read (64 * j) (min 64 (len - 64 * j)))) (some (n.toNat + 1, 2 ^ k.toNat)) put).wordDone 2)) ∧
      (∀ g c, s.storeValue opd = some (g, c) →
        let s' : State := { s with core := c }
        let sends (o : Nat) (op : Nat → SpadOp) (put : Core → LDest × Core) : Out :=
          .next ((s'.spadLoad cls ((List.range 16).map fun k => (s.spadAt (o + 64 * k), op k)) none put).wordDone 2)
        exec (.sts opd p cls imm) s = sends o (fun k => .write (((granBytes g).drop (64 * k)).take 64)) noDest ∧
        (let ops (k : Nat) : SpadOp := .update op (64 * k) (((granBytes g).drop (64 * k)).take 64)
         (op.toNat ≠ 4 → exec (.atoms opd p cls op) s = sends o' ops noDest) ∧
         (∀ h, op.toNat = 4 → s.core.aeOperand opd = some (.gran h) →
           exec (.atoms opd p cls op) s = sends o' ops fun c => (.gran h, c)) ∧
         (∀ h, op.toNat = 4 → s.core.aeOperand opd = some (.ofile h) →
           exec (.atoms opd p cls op) s = sends o' ops fun c => (.ofile h, c))) ∧
        (let cols := ((elemsOf 32 g).filter fun v => v.testBit 15).map (· % 256)
         let s'' : State := { s' with
           core.counts.histoor := sat32 c.counts.histoor (cols.filter fun c => e.toNat < c).length }
         exec (.hist opd p cls e) s = .next ((s''.spadLoad cls
           ((cols.filter fun c => c ≤ e.toNat).map fun c => (s.spadAt (o' + 4 * c), SpadOp.incr)) none noDest).wordDone 2)))) ∧
  ((∀ (s : State) (cls : BitVec 4) (ops : List (Nat × SpadOp)) (search : Option (Nat × Nat)),
      ∃ a : AeLoad, (s.spadLoad cls ops search noDest).core.loads = s.core.loads ++ [a] ∧ a.spad = true ∧ a.cls = cls ∧
        a.reqsLeft.map (fun r => (r.off, r.op)) = ops ∧
        ∀ l ∈ s.core.loads, l.spad = true → l.cls = cls → ∀ r ∈ l.reqsLeft, ∀ r' ∈ a.reqsLeft, r.cycle ≤ r'.cycle) ∧
    ∀ (slot t b : Nat) (wheel : SMap Nat) (m : Memory) (off n a : Nat) (data : Granule) (bs : List Byte) (op : BitVec 3) (s : State) (i : Nat)
      (l : AeLoad) (r : SpadReq),
      (let u := (serve slot t wheel b).1
       (∀ last, smFind wheel b = some last → last % 12 = (slot + b) % 12 → last < u) ∧ t ≤ u ∧
       ((∀ last, smFind wheel b = some last → last % 12 = (slot + b) % 12) → u % 12 = (slot + b) % 12) ∧
       (smFind wheel b = none → u < t + 12) ∧ smFind (serve slot t wheel b).2 b = some u) ∧
      (s.core.loads[i]? = some l →
        let u := s.performReq { core := s.cur, place := some i, req := r }
        let done := r.op.perform (s.quadAt s.quadNo).spad r.off l.data
        (u.quadAt s.quadNo).spad = done.1 ∧ u.core.loads[i]? = some { l with data := done.2, reqsLeft := l.reqsLeft.erase r } ∧
        u.store = s.store ∧ u.core.regs = s.core.regs) ∧
      SpadOp.perform (.write bs) m off data = (writeBytes m off bs, data) ∧
      (SpadOp.perform (.read a n) m off data).1 = m ∧
      (a + n ≤ 1024 → (SpadOp.perform (.read a n) m off data).2 = granOfBytes (patchBytes (granBytes data) a (readBytes m off n))) ∧
      (a + 64 ≤ 1024 → bs.length = 64 → Memory.wf m = true →
        let r := SpadOp.perform (.update op a bs) m off data
        r.2 = granOfBytes (patchBytes (granBytes data) a (readBytes m off 64)) ∧
        (∀ j, j < 16 → leNat (readBytes r.1 (off + 4 * j) 4) =
          atomsElem op (leNat (readBytes m (off + 4 * j) 4)) (leNat ((bs.drop (4 * j)).take 4)) % 2 ^ 32) ∧
        ∀ x, (x < off ∨ off + 64 ≤ x) → memRead r.1 x = memRead m x) ∧
      (Memory.wf m = true →
        let r := SpadOp.perform .incr m off data
        r.2 = data ∧ leNat (readBytes r.1 off 4) = (leNat (readBytes m off 4) + 1) % 2 ^ 32 ∧
        ∀ x, (x < off ∨ off + 4 ≤ x) → memRead r.1 x = memRead m x)) ∧
  (∀ (s : State) (o : Nat) (bs : List Byte),
      Memory.wf (s.quadAt s.quadNo).spad = true → s.window.2 ≠ 0 → bs.length ≤ s.window.2 →
      let u := s.spadWrite o bs
      u.spadRead o bs.length = bs ∧ u.store = s.store ∧ u.core = s.core ∧
      (∀ a, (∀ k, k < bs.length → a % s.window.2 ≠ (o + k) % s.window.2) → u.spadRead a 1 = s.spadRead a 1) ∧
      (∀ a n, s.spadRead (a + s.window.2) n = s.spadRead a n)) ∧
  (∀ (key : Nat → Nat) (n k : Nat), k ≤ n → (∀ c, key c < 65536) →
      let l := (searchColumns key n k).foldr (insertCol key) []
      l.length = k ∧ l.Nodup ∧ (∀ c ∈ l, c < n) ∧
      l.Pairwise (fun a b => key b < key a ∨ (key a = key b ∧ a < b)) ∧
      (∀ c d, c ∈ l → d < n → d ∉ l → key d < key c ∨ (key d = key c ∧ c < d)))

/-- R189, R193, R205, R207: GATH and SCAT from a misaligned address raise MISALIGNED with element 0; GATH of rows that can all be
read puts them, in order, on their way to its register, rows that .zp replaced counted; SCAT writes the sectors of its source to
its rows in order. R271-R276: LDT and FILLP read a granule with its scales and put it, bound to a new group, on its way, LDT to
the group that it has allocated at its issue; STT and SPILLP write a granule's bytes and codes, those they have kept where they
stopped or waited. R176, R193, R198, R205, R208, R407, R431: the returns: the data of an access of the AE that is in flight
arrives in its register, that of memory not before its replies have come, that of a scratchpad access not before its requests have
performed, nor before its time; nothing else that is in flight changes. A push to a store queue lands as the next cycle begins.
What is the model's own choice in it: assumption logs 29, 36, 65, 77. -/
def Obligations.TableAccess : Prop :=
  (∀ (s : State) (opd : BitVec 8) (p cls idx : BitVec 4) (size : BitVec 2) (zp : BitVec 1),
      let n := 128 * 2 ^ size.toNat
      let row (j : Nat) : Word := s.ptr p + s.ptr (idx + BitVec.ofNat 4 j) * BitVec.ofNat 64 n
      let ag := s.streamAgent p.toNat
      s.memReady (p :: (List.range (1024 / n)).map fun j => idx + BitVec.ofNat 4 j) 16 = true → s.inOrder cls = true →
      ((s.ptr p).toNat % 64 ≠ 0 →
        (∀ put, s.loadTarget opd = some put → exec (.gath opd p cls idx size zp) s = .next (s.engFault .misaligned (s.ptr p) 0)) ∧
        (∀ b, s.storeBytes opd = some b → exec (.scat opd p cls idx size) s = .next (s.engFault .misaligned (s.ptr p) 0))) ∧
      ((s.ptr p).toNat % 64 = 0 → ∀ put buf z s1, s.loadTarget opd = some put →
        State.rowsRead ag n (zp = 1) ((List.range (1024 / n)).map fun j => (j, row j)) [] 0 s = some (buf, z, s1) →
        exec (.gath opd p cls idx size zp) s =
          .next ((s1.launchLoad put { dest := .none, data := granOfBytes buf, reqs := 16, poison := z }).wordDone 2)) ∧
      ((s.ptr p).toNat % 64 = 0 → ∀ src c s1, s.storeBytes opd = some (src, c) →
        State.rowsWritten ag src (((List.range 16).filter fun i => (s.act.part.getD {}).done.length ≤ i).map fun i =>
          (i, row (i / (n / 64)) + BitVec.ofNat 64 (64 * (i % (n / 64))))) (s.keepSource src) = some s1 →
        exec (.scat opd p cls idx size) s = .next (State.wordDone { s1 with core.sqq := c.sqq } 2))) ∧
  (∀ (s : State) (opd : BitVec 8) (p cls : BitVec 4) (id : BitVec 8) (g : Nat),
      let t : Tensor := { desc := s.descriptor id, base := s.ptr p }
      let coord := s.ptr (p + 1)
      let segs := t.segments (coordRow coord) (coordCol coord)
      let ag (k : Nat) := s.streamAgent (p.toNat + k)
      let kept := (s.act.part.map (·.src)).getD []
      let reqs := t.requests (coordRow coord) (coordCol coord)
      let bound (s : State) (k : Nat) (c : Core) (codes : BitVec 256) (data : Granule) (n : Nat) : Out :=
        .next ((State.launchLoad { s with core := c } (fun c => (.bound g k codes, c)) { dest := .none, data := data, reqs := n }).wordDone 2)
      (s.memReady [p, p + 1] reqs = true → s.inOrder (t.cls cls) = true → t.ok coord = true → s.core.tensorGranule opd t.desc = some g → (∀ a ∈ segs, a.toNat % 32 = 0) →
        (∀ s0 buf s1 sc s2 k, s.groupHeld = some (k, s0) →
          State.runsRead (s0.streamAgent p.toNat) (allocOf (descHint t.desc)) (segs.zipIdx.map fun x => (x.2, x.1, t.wg)) [] s0 =
            some (buf, s1) →
          State.runsRead (s1.streamAgent (p.toNat + 1)) (allocOf (descHint t.desc))
            ((t.scaleRuns (coordRow coord) (coordCol coord)).map fun a => (t.rows, a, t.wg / 32)) [] s1 = some (sc, s2) →
          exec (.ldt opd p cls id) s = bound s2 k s2.core (BitVec.ofNat 256 (leNat sc)) (granOfBytes buf) reqs) ∧
        (∀ k s1, s.core.loading (.gran g) = false → (kept.length = 1056 ∨ s.core.regs.checkBinding g = .ok k) →
          let data := if kept.length = 1056 then kept else scaledBytes s.core.regs g k
          State.runsWritten (ag 0) (allocOf (descHint t.desc)) data (t.runs (coordRow coord) (coordCol coord)) (s.keepSource data) = some s1 →
          exec (.stt opd p cls id) s = .next (s1.wordDone 2))) ∧
      (s.memReady [p] 17 = true → s.inOrder cls = true → s.core.aeOperand opd = some (.gran g) → (s.ptr p).toNat % 64 = 0 →
        (∀ s1, s.core.loading (.gran g) = false →
          (kept.length = 1058 ∨ (tagBound (s.core.regs.tagOf g) = true → s.core.regs.current (s.core.regs.tagOf g) = true)) →
          let data := if kept.length = 1058 then kept else recordBytes s.core.regs g
          State.runsWritten (ag 0) .all data (recordUnits (s.ptr p)) (s.keepSource data) = some s1 →
          exec (.spillp opd p cls) s = .next (s1.wordDone 2)) ∧
        (∀ buf s1, State.runsRead (ag 0) .all ((recordUnits (s.ptr p)).map fun u => (u.1, u.2.2.1, u.2.2.2)) [] s = some (buf, s1) →
          ((leNat (buf.drop 1056)).testBit 15 = false → exec (.fillp opd p cls) s =
            .next ((s1.launchLoad (fun c => (.gran g, c)) { dest := .none, data := granOfBytes (buf.take 1024), reqs := 17 }).wordDone 2)) ∧
          (∀ k c, (leNat (buf.drop 1056)).testBit 15 = true → s1.core.allocate = some (k, c) → exec (.fillp opd p cls) s =
            bound s1 k c (BitVec.ofNat 256 (leNat ((buf.drop 1024).take 32))) (granOfBytes (buf.take 1024)) 17)))) ∧
  (∀ (s : State) (n : Nat) (l : AeLoad) (q : BitVec 3),
      let s' : State := { s with core := Core.deliver { s.core with loads := s.core.loads.eraseIdx n } l }
      (s.core.loads[n]? = some l →
        (l.spad = false → s.time.toNat < l.due.toNat → exec (.aeLoadReturn n) s = .next s ∧ exec (.ldiDataReturn n) s = .next s) ∧
        (l.spad = false → l.due.toNat ≤ s.time.toNat → (∀ k tag, l.dest ≠ .dq k tag) → (∀ r, l.dest ≠ .ptr r) →
          exec (.aeLoadReturn n) s = .next s') ∧
        (∀ r, l.spad = false → l.due.toNat ≤ s.time.toNat → l.dest = .ptr r → exec (.ldiDataReturn n) s = .next s' ∧ s'.core.ae.ptr = vset s.core.ae.ptr r l.value) ∧
        (l.spad = true → l.reqsLeft = [] → l.due.toNat ≤ s.time.toNat → exec (.scratchpadAccessComplete n) s = .next s') ∧
        (l.spad = true → (l.reqsLeft ≠ [] ∨ s.time.toNat < l.due.toNat) → exec (.scratchpadAccessComplete n) s = .next s) ∧
        (∀ k tag, l.dest = .dq k tag → l.spad = false → l.due.toNat ≤ s.time.toNat → q.toNat = k.toNat →
          (∀ m, m < n → ∀ x k' tag', s.core.loads[m]? = some x → x.spad = false → x.due.toNat ≤ s.time.toNat → x.dest = .dq k' tag' → k' ≠ k) →
          exec (.dataQueueArrival q) s = .next s' ∧
          (l.search = none → s'.core.dq = vset s.core.dq k (fillSlot (vget s.core.dq k) tag l.data))) ∧
        (∀ g, l.dest = .gran g → s'.core.regs.tagOf g = 0 ∧ (l.search = none → s'.core.regs.granule g = l.data) ∧
          ∀ c k, l.search = some (c, k) → s'.core.regs.granule g = searchResult ((elemsOf 16 l.data).take c) c k)) ∧
      (4 ≤ q.toNat → s.core.pushDue (q.toNat - 4) = true → s.core.ve.frz = false → s.core.halted = false →
        exec (.dataQueueArrival q) s = exec .veWriteLand s))

/-! ## The ME -/

/-- R222, R243, R244, R247: the words that need no lease: MQSET and MQADD write a weight pointer and start the translation of the
page that it names in the pointer's stream, MCLR clears the counters of an accumulator tile, and MSTAT pushes them. R240-R242,
R91: an MMUL that holds the lease, whose tiles are all found and which nothing hinders starts its fills, and goes on at once where
there are none; when they have ended it streams the A rows through the plates. R53: PlateAccumulate on the INT32 path: the
products of each block of 32 are summed exactly, added, and saturated block by block; an element records overflow where a block
has saturated. R53, R54, R55: PlateAccumulate on the F32 path: the exact sum of the products of each block of 32, scaled by the
sum of its scale exponents, is added and rounded block by block. An element records overflow where it meets an infinity or where a
rounding passes the largest finite value; one that meets a NaN operand or a NaN scale becomes the canonical NaN, and counts it.
R127, R263: the 128 rows of 128 elements that a word writes to an accumulator tile are read back from it, row by row; no granule
of another tile or of the rest of the register space changes. What is the model's own choice in it: assumption logs 31, 33. -/
def Obligations.MatrixWords : Prop :=
  (∀ (s : State) (q : BitVec 3) (id : BitVec 8) (arg : BitVec 2) (grow : BitVec 1) (k : BitVec 20) (acc : BitVec 4),
      let p := vget s.core.mex.q q
      exec (.mqset q id arg grow) s =
        .next ((State.translateAhead { s with core.mex.q := vset s.core.mex.q q { addr := s.arg arg, id := id, grow := grow = 1 } }
          (s.streamAgent (32 + q.toNat)) (s.arg arg)).wordDone 2) ∧
      exec (.mqadd q k) s =
        .next ((State.translateAhead { s with core.mex.q := vset s.core.mex.q q { p with addr := p.addr + sext64 k * 16384 } }
          (s.streamAgent (32 + q.toNat)) (p.addr + sext64 k * 16384)).wordDone 2) ∧
      ((∀ r ∈ s.core.mex.running, acc.toNat ∉ r.accs) →
        exec (.mclr acc) s = .next (State.wordDone { s with
          core.regs.ovf := s.core.regs.ovf.setIfInBounds acc.toNat 0, core.regs.nan := s.core.regs.nan.setIfInBounds acc.toNat 0 } 2) ∧
        (s.core.outcomeRoom s.actor.id 0 = true →
          exec (.mstat acc) s = .next ((s.pushOutcome s.actor.id 0 (BitVec.ofNat 64 ((s.core.regs.ovf.getD acc.toNat 0).toNat +
            65536 * (s.core.regs.nan.getD acc.toNat 0).toNat + 4294967296 * acc.toNat))).wordDone 2)))) ∧
  (∀ (s s1 s2 : State) (acc : BitVec 4) (src : BitVec 8) (q : BitVec 3) (n : BitVec 2) (rows : BitVec 7) (z sc : BitVec 1) (ta : Ty)
      (grans : List Nat) (tiles : List Tile) (w : Want) (p : Plan),
      let panel := tiles.zipIdx.map fun x => (x.2, x.1)
      let w' := growPanel s2.core (s1.quadAt s1.quadNo).plmask q panel w
      (s.core.mex.plan = none → s.leased = some s1 → s1.core.mex.plan = none → (s1.quadAt s1.quadNo).plmask ≠ 0 →
        s1.core.aType src = some ta → s1.core.aGrans src (rows.toNat + 1) = some grans →
        State.panel q (sc = 1) (n.toNat + 1) 0 s1 = some (tiles, s2) →
        (s2.core.aScaled src (sc = 1) = true → s2.core.aUnbound grans = none) →
        serveAllTiles (s1.quadAt s1.quadNo).plmask (sc = 1) panel { bank := (s2.quadAt s2.quadNo).plate } = .ok w →
        s2.core.accBusy (mmulTiles acc src (n.toNat + 1) grans) true = false → s2.mayFill tiles w' = true →
        exec (.mmul acc src q n rows z sc) s =
          .next (s2.planned tiles w' grans fun p s => s.stream acc src ta (rows.toNat + 1) (sc = 1) (z = 1) p)) ∧
      (s.filled = some (p, s1) → s.core.aType src = some ta →
        exec (.mmul acc src q n rows z sc) s = .next (s1.stream acc src ta (rows.toNat + 1) (sc = 1) (z = 1) p))) ∧
  (∀ (old : Nat) (a : ARow) (w : List Nat) (xw : List (Option Int)), a.elems.length = 128 → w.length = 128 →
      let block (k : Nat) : Int :=
        ((List.range 32).map fun i => intOf true 8 (a.elems.getD (32 * k + i) 0) * intOf true 8 (w.getD (32 * k + i) 0)).sum
      let sat (x : Int) : Int := satInt x (-2147483648) 2147483647
      let v0 := intOf true 32 old + block 0
      let v1 := sat v0 + block 1
      let v2 := sat v1 + block 2
      let v3 := sat v2 + block 3
      plateAccumulate .i8 .i8 false old a w xw =
        (Ty.wrap .i32 (sat v3), decide (sat v0 ≠ v0 ∨ sat v1 ≠ v1 ∨ sat v2 ≠ v2 ∨ sat v3 ≠ v3), false)) ∧
  (∀ (ta tw : Ty) (sc : Bool) (old : Nat) (a : ARow) (w : List Nat) (xw : List (Option Int)),
      ¬ (ta = .i8 ∧ tw = .i8 ∧ sc = false) → a.elems.length = 128 → w.length = 128 → a.xa.length = 4 → xw.length = 4 →
      let pairs (k : Nat) : List (Nat × Nat) := (List.range 32).map fun i => (a.elems.getD (32 * k + i) 0, w.getD (32 * k + i) 0)
      let x (k : Nat) : Option Int :=
        match a.xa.getD k none, xw.getD k none with
        | some i, some j => some (if sc then i + j else 0)
        | _, _ => none
      let nan (k : Nat) : Prop := x k = none ∨ ∃ p ∈ pairs k, ta.value p.1 = .nan ∨ tw.value p.2 = .nan
      let inf (k : Nat) : Prop := ∃ p ∈ pairs k, (ta.value p.1).isInf = true
      let add (v : FVal) (k : Nat) : FVal × Bool := plateRound (fAdd 0 v (fScale ((x k).getD 0) (blockSum ta tw (pairs k))))
      let r0 := add (plateVal .f32 old) 0
      let r1 := add r0.1 1
      let r2 := add r1.1 2
      let r3 := add r2.1 3
      let infs := (Ty.value .f32 old).isInf = true ∨ inf 0 ∨ inf 1 ∨ inf 2 ∨ inf 3
      let out := plateAccumulate ta tw sc old a w xw
      (¬ nan 0 ∧ ¬ nan 1 ∧ ¬ nan 2 ∧ ¬ nan 3 →
        out.1 = Ty.convert .f32 {} r3.1 ∧ (out.2.1 = true ↔ infs ∨ r0.2 = true ∨ r1.2 = true ∨ r2.2 = true ∨ r3.2 = true) ∧ out.2.2 = false) ∧
      (nan 0 ∨ nan 1 ∨ nan 2 ∨ nan 3 → out.1 = Ty.convert .f32 {} .nan ∧ out.2.2 = true ∧ (infs → out.2.1 = true))) ∧
  (∀ (r : Regs) (t ovf nan : Nat) (rows : List (List Nat)),
      rows.length = 128 → (∀ l ∈ rows, l.length = 128 ∧ ∀ x ∈ l, x < 4294967296) →
      let u := r.setAcc t rows ovf nan
      (∀ g, g < 128 → u.accRow t g = rows.getD g []) ∧
      (∀ k, (k < 512 + 64 * t ∨ 576 + 64 * t ≤ k) → u.granule k = r.granule k ∧ u.tagOf k = r.tagOf k) ∧
      (∀ k, k < 64 → u.tagOf (512 + 64 * t + k) = 0))

/-- R227, R228: the victim of a fill is an enabled plate outside the protected set: the lowest invalid one, or, where every such
plate is valid, an unpinned one that was used least recently. R245, R246, R253: the words over one tile: MFILL and MPIN fill what
is missing and MPIN pins every copy, MUNPIN and MINV change the copies that stand, MQRY pushes the residency of the tile, and LREL
gives the lease up. R230-R232, R236, R242, R253: the events of the plates: a fill ends at its time, the oldest running MMUL
completes at its own and counts its tiles, the free bank is granted to the next position whose ME asks for it, from the next cycle
on or, to the last holder, at once, and a run that is over ends. What is the model's own choice in it: assumption logs 4, 31, 32,
68, 79. -/
def Obligations.PlateBank : Prop :=
  (∀ (b : Vector Plate 16) (mask : BitVec 16) (prot : List Nat) (p : Nat), victim b mask prot = some p →
      p < 16 ∧ mask.getLsbD p = true ∧ p ∉ prot ∧
      ((plateAt b p).valid = true → (plateAt b p).pin = false ∧
        ∀ x, x < 16 → mask.getLsbD x = true → x ∉ prot →
          (plateAt b x).valid = true ∧ ((plateAt b x).pin = false → (plateAt b p).used ≤ (plateAt b x).used)) ∧
      ((plateAt b p).valid = false → ∀ x, x < p → mask.getLsbD x = true → x ∉ prot → (plateAt b x).valid = true)) ∧
  (∀ (s s1 s2 : State) (q reps tgt : BitVec 3) (t : Tile) (w : Want) (p : Plan),
      let mask := (s1.quadAt s1.quadNo).plmask
      let bank := (s2.quadAt s2.quadNo).plate
      let cs := copiesOf bank (s2.quadAt s2.quadNo).plmask t.pa t.fmt
      let done (s : State) : Out := .next (s.leaseOver.wordDone 2)
      (s.leased = some s1 → s1.core.mex.plan = none → mask ≠ 0 → s1.tileAt true q false = some (t, s2) →
        (Want.serve (s2.quadAt s2.quadNo).plmask false { bank := bank } 0 t = some w →
          let w' := growTile (fun w => victim w.bank (s2.quadAt s2.quadNo).plmask w.prot) (reps.toNat + 1) 0 t 8 w
          (s2.mayFill [t] w' = true → exec (.mfill q reps) s = .next (s2.planned [t] w' [] fun _ s => s.leaseOver.wordDone 2)) ∧
          (cs = [] → s2.mayFill [t] w = true → exec (.mpin q) s = .next (s2.planned [t] w [] fun p s =>
            (s.mapPlates p.copies.flatten fun p => { p with pin := true }).leaseOver.wordDone 2))) ∧
        (cs ≠ [] → s2.anyBusy cs = false → exec (.mpin q) s = done (s2.mapPlates cs fun p => { p with pin := true }))) ∧
      (s.filled = some (p, s1) →
        exec (.mfill q reps) s = done s1 ∧
        exec (.mpin q) s = done (s1.mapPlates p.copies.flatten fun p => { p with pin := true })) ∧
      (s.leased = some s1 → s1.tileAt false q false = some (t, s2) →
        (s2.anyBusy cs = false →
          exec (.munpin q) s = done (s2.mapPlates cs fun p => { p with pin := false }) ∧
          exec (.minv q) s = done (s2.mapPlates cs Plate.invalid)) ∧
        (s2.core.outcomeRoom s2.actor.id tgt.toNat = true →
          exec (.mqry q tgt) s = done (s2.pushOutcome s2.actor.id tgt.toNat (residency bank cs)))) ∧
      (s.leased = some s1 → exec .lrel s = .next ((s1.leaseOver.endLease s1.cur).wordDone 2))) ∧
  (∀ (s : State) (quad : BitVec 6) (plate : BitVec 4) (remaps k : Nat) (r : Running) (rest : List Running),
      let n := quad.toNat
      let b := s.quadAt n
      let x := plateAt b.plate plate.toNat
      let q := s.quadAt s.quadNo
      (x.filling = true → x.due.toNat ≤ s.time.toNat → (b.spare.getD plate.toNat 0).toNat + remaps ≤ 32 →
        exec (.plateFillComplete quad plate remaps) s = .next (s.setQuad n { b with
          plate := setPlate b.plate plate.toNat { x with filling := false, due := s.time }
          spare := b.spare.setIfInBounds plate.toNat (BitVec.ofNat 6 ((b.spare.getD plate.toNat 0).toNat + remaps)) })) ∧
      (s.core.mex.running = r :: rest → r.doneAt.toNat ≤ s.time.toNat →
        exec .mmulComplete s = .next ((State.setQuad { s with core.mex.running := rest } s.quadNo
          { q with hit := sat32 q.hit r.hits, miss := sat32 q.miss r.misses }).leaseWordDone r.run)) ∧
      (b.lease.holder = 7 → b.lease.freeAt.toNat ≤ s.time.toNat → b.power = .p0 →
        (∀ j, j < 4 → (s.coreAt (4 * n + j)).mex.plan = none) → 1 ≤ k → k ≤ 4 →
        s.asksLease (4 * n + (b.lease.last + k) % 4) = true →
        (∀ j, 1 ≤ j → j < k → s.asksLease (4 * n + (b.lease.last + j) % 4) = false) →
        exec (.leaseGrant quad) s = .next (s.grantLease n ((b.lease.last + k) % 4)
          (if k = 4 ∧ b.lease.grants ≠ 0 then s.time else s.time + 1))) ∧
      (b.lease.holder < 4 → (16 ≤ b.lease.words ∨ b.lease.start.toNat + 4096 ≤ s.time.toNat) →
        (s.coreAt (4 * n + b.lease.holder)).mex.plan = none → (s.coreAt (4 * n + b.lease.holder)).mex.nextAt.toNat ≤ s.time.toNat →
        exec (.leaseRunEnd quad) s = .next (s.setQuad n { b with lease := { b.lease with
          holder := 7, words := 0, last := b.lease.holder, freeAt := (s.coreAt (4 * n + b.lease.holder)).mex.nextAt } })))

/-! ## The CE and the XE -/

/-- R212-R216, R248, R274: the copies of the CE: each pushes its promise, and completes when every byte that it names has been
read and written, unit by unit. R198, R213, R214: a copy from the scratchpad to the register space, of one 64-byte unit whose
destination is aligned: CPY asks the bank for the unit on the CE's slot of the wheel and executes until its cycle has come; the
destination then takes the bytes that the unit has brought, and no translation is made. What is the model's own choice in it:
assumption log 30. -/
def Obligations.CopyEngine : Prop :=
  (∀ (s s1 s2 : State) (pa pb pc : BitVec 3) (cls acc ty : BitVec 4) (ds ss esz : BitVec 2) (id : BitVec 8),
      let a := s1.ptr3 pa
      let b := s1.ptr3 pb
      let n := (s.ptr3 pc).toNat
      let done : Out := .next (s2.wordDone 2)
      (let nonMem := decide (ds.toNat ≠ 0 ∨ ss.toNat ≠ 0)
       let len := if nonMem then n / 64 * 64 else n
       s.promising len (decide (ds.toNat = 0 ∨ ss.toNat = 0)) = some s1 →
       sideFault ds a len nonMem = none → sideFault ss b len nonMem = none →
       State.copied ds ss (spaceAddr ds a) (spaceAddr ss b) len (len + 1) s1.doneBytes s1 = some s2 →
       exec (.cpy pa pb pc cls ds ss) s = done) ∧
      (let nonMem := decide (ds.toNat ≠ 0)
       let len := if nonMem then n / 64 * 64 else n
       s.promising len (!nonMem) = some s1 → (nonMem = false → a.toNat % 2 ^ esz.toNat = 0 ∧ len % 2 ^ esz.toNat = 0) →
       sideFault ds a len nonMem = none →
       State.patterned ds (spaceAddr ds a) b (2 ^ esz.toNat) len (len + 1) s1.doneBytes s1 = some s2 →
       exec (.fill pa pb pc cls ds esz) s = done) ∧
      (let size := accSize ty.toNat
       let kept := (s1.act.part.getD {}).data
       let data := if kept.isEmpty then accBytes s1.core.regs acc ty.toNat else kept
       s.promising (16384 * size + 8) true = some s1 → (s.ptr3 pa).toNat % 8 = 0 → (s.ptr3 pb).toNat % 8 = 0 →
       State.streamed .all data (fun off s => s.keep off data) (data.length + 200)
         ((List.range 128).map (fun k => (s.ptr3 pa + BitVec.ofNat 64 k * s.ptr3 pb, 128 * size)) ++ [(s.ptr3 pa + 128 * s.ptr3 pb, 8)])
         0 s1.doneBytes s1 = some s2 →
       exec (.cpyacc pa pb cls acc ty) s = done) ∧
      (let t : Tensor := { desc := s.descriptor id, base := s.ptr3 pa }
       let coord := s.ptr3 (pa + 1)
       let reg := s.ptr3 pb
       let g := (s1.act.part.getD {}).gran
       s.promising (n * 1056) true = some s1 → t.ok coord = true → reg.toNat % 1024 = 0 → reg.toNat + 1024 * n ≤ 0x140000 →
       State.tensorCopied t reg.toNat n (n + 1) g (t.advance g (coordRow coord, coordCol coord)) s1 = some s2 →
       exec (.cpyt pa pb pc cls id) s = done)) ∧
  (∀ (s s0 s1 : State) (pa pb pc : BitVec 3) (cls : BitVec 4) (a b : Word) (l : List Byte), l.length = 64 → a.toNat % 64 = 0 →
      (s.promising 64 false = some s0 → 64 ≤ (s.ptr3 pc).toNat → (s.ptr3 pc).toNat < 128 → s0.ptr3 pa = a → a.toNat + 64 ≤ 0x140000 → s0.doneBytes = 0 →
        (s0.act.part.getD {}).data = [] → (s0.act.part.getD {}).due = none →
        let o := s0.spadAt (spadOff (s0.ptr3 pb))
        let u := serve (4 + s0.pos) (2 * s0.time.toNat + 2) s0.core.ceWheel (bankOf o)
        exec (.cpy pa pb pc cls 2 1) s = .next (State.upd { s0 with core.ceWheel := u.2 } fun e => { e with
          part := some { promised := s0.promised, due := some (BitVec.ofNat 64 ((u.1 + 5) / 2)),
                         unit := some { cycle := u.1 + 4, off := o, op := .read 0 64 } }
          exec := true
          wait := 0 })) ∧
      ((s.act.part.getD {}).data = [] → s.spadServed 0 [] = some (l, s1) → s1.reply.toNat ≤ s1.time.toNat →
        State.copied 2 1 a b 64 2 0 s = some ((s1.regWrite a.toNat l).keep 64 [])) ∧
      (s.regWrite a.toNat l).core.regs.readBytes a.toNat 64 = l ∧ (s.regWrite a.toNat l).store = s.store ∧
      (∀ g, g ≠ a.toNat / 1024 → (s.regWrite a.toNat l).core.regs.granule g = s.core.regs.granule g))

/-- R427-R430: ROUNDO opens a closed round, which becomes the current one; ROUNDC of a round with no involved unit closes it and
otherwise broadcasts the close, executing until the last acknowledgement; ETCH hands the program to the unit of its channel.
R422-R426, R428: the etch units: a unit runs the oldest job of its queue to its end and writes its accumulators, which a job of
whose range no element ran leaves as they are, or yields after some operators; its acknowledgement of the close of a round counts
its errors, and the last one closes the round. R421, R422: an operator over the stack alone touches no more than it pops and
pushes; a program whose depth stays within bounds takes the stack from empty to empty. What is the model's own choice in it:
assumption log 38. -/
def Obligations.EtchRounds : Prop :=
  (∀ (s : State) (id : BitVec 4) (pa pb pc : BitVec 3) (ch : BitVec 9),
      let st := s.core.rounds.getD id.toNat .closed
      let owed := (s.core.etched.filter fun x => x.1 = id.toNat).map fun x => x.2.1
      let order := s.core.roundOrder.filter (· ≠ id.toNat)
      (st = .closed →
        exec (.roundo id) s = .next (State.wordDone { s with
          core.rounds := s.core.rounds.setIfInBounds id.toNat .opened, core.roundOrder := s.core.roundOrder ++ [id.toNat] } 2) ∧
        exec (.roundc id) s = .next (s.wordDone 2)) ∧
      (st = .opened → owed = [] → exec (.roundc id) s = .next (State.wordDone { s with
        core.roundOrder := order, core.rounds := s.core.rounds.setIfInBounds id.toNat .closed } 2)) ∧
      (st = .opened → owed ≠ [] → exec (.roundc id) s = .next (State.upd { s with
        core.roundOrder := order, core.rounds := s.core.rounds.setIfInBounds id.toNat (.closing owed) } fun e => { e with exec := true })) ∧
      (∀ round ps s1 bs s2 x s3,
        let n := (s.ptr3 pc).toNat
        let f := (s.ptr3 pb).toNat
        let r := EtchRec.ofBytes bs
        let j (t : State) (dest : Option Nat) (tlbs : List Tlb) : EtchJob :=
          { core := t.cur, round := round, chan := ch.toNat, ops := r.ops, types := r.types, consts := r.consts, bases := r.bases,
            pieces := x.pieces, first := f, count := n, dest := dest, tlbs := (x.tlbs ++ tlbs).eraseDups }
        s.big = true → s.channelLive ch.toNat = true → s.core.currentRound = some round → (s.ptr3 pa).toNat % 64 = 0 →
        s.spanTo (some s.cur) (s.streamAgent ceStreamA) { read := true } (piecesOf (s.ptr3 pa) 128) = some (ps, s1) →
        ps.findSome? s1.markIn = none → s1.readPieces .all ps = (bs, s2) → r.ok = true →
        (n = 0 → exec (.etch pa pb pc ch) s = .next (s2.wordDone 2)) ∧
        (n ≠ 0 → State.streamsAt ch.toNat r f n [0, 1, 2, 3] {} s2 = some (x, s3) →
          (r.dest = 0 → (s3.unitQueue ch.toNat).length < 8 →
            exec (.etch pa pb pc ch) s = .next ((s3.handJob ch.toNat (j s3 none [])).wordDone 2)) ∧
          (∀ qs s4, r.dest ≠ 0 →
            s3.pagesAt ch.toNat { write := true } false [(r.dest + BitVec.ofNat 64 (64 * ch.toNat), 64)] = some (qs, s4) →
            (s4.unitQueue ch.toNat).length < 8 →
            exec (.etch pa pb pc ch) s =
              .next ((s4.handJob ch.toNat (j s4 (qs.head?.map Piece.pa) (piecesTlbs qs))).wordDone 2))))) ∧
  (∀ (s : State) (chan : BitVec 9) (ops : Nat) (j : EtchJob) (rest : List EtchJob) (round : BitVec 4) (owed : List Nat),
      let q := smGet s.etch chan.toNat []
      let mine (x : Nat × Nat × Nat) : Bool := x.1 = round.toNat && x.2.1 = chan.toNat
      (q = j :: rest →
        (let r := etchRun ops j s
         exec (.etchYield chan ops) s = .next { r.2 with etch := smSet r.2.etch chan.toNat (r.1 :: rest) }) ∧
        (let r := etchRun (25 * (j.count - j.elem) + 25) j s
         let s1 := etchAccs r.1 r.2
         let c := s1.coreAt r.1.core
         exec (.etchUnitRun chan) s = .next (State.setCoreAt { s1 with etch := smSet s1.etch chan.toNat rest } r.1.core
           { c with etched := c.etched.map fun x => if x.1 = r.1.round && x.2.1 = r.1.chan then (x.1, x.2.1, x.2.2 + r.1.errs) else x }))) ∧
      (j.ran = false → etchAccs j s = s) ∧
      (s.core.rounds.getD round.toNat .closed = .closing owed → chan.toNat ∈ owed →
        (∀ x ∈ q, ¬(x.core = s.cur ∧ x.round = round.toNat)) →
        let left := owed.filter (· ≠ chan.toNat)
        exec (.roundAck round chan) s = .next { s with
          core.etched := s.core.etched.filter fun x => !mine x
          core.counts.etcherr := sat32 s.core.counts.etcherr ((s.core.etched.filter mine).map fun x => x.2.2).sum
          core.rounds := s.core.rounds.setIfInBounds round.toNat (if left = [] then .closed else .closing left) })) ∧
  ((∀ (code : Nat) (st : List (Nat × Bool)) (pop push : Nat), opStack code = some (pop, push) → pop ≤ st.length →
      (0x10 ≤ code ∧ code < 0x50) → (etchStack code st).length = st.length - pop + push ∧ ∃ l, etchStack code st = l ++ st.drop pop) ∧
    (∀ codes : List Nat, depthOk codes 0 = true →
      (codes.foldl (fun d c => (opStack c).elim d fun x => d - x.1 + x.2) 0) = 0))

/-- R432-R437: XPUT, XGET, XRED and XSIG to the issuing package perform unit by unit and complete once the local pages have passed
their checks; toward another package a unit is sent, the word executes until it is answered, and it completes when every byte is
done. R410, R413, R414, R439: XSEND puts a row on its way, XADM announces or withdraws a hosting entry, XREFQ reports the oldest
refusal, and XWAIT completes when its flag meets the condition. R411, R412: a row that arrives is admitted into the next slot of
its hosting entry, or refused with reason 1 where the entry is full and 2 where no entry hosts its expert; the answer reaches the
sender. What is the model's own choice in it: assumption logs 10, 26, 37. -/
def Obligations.ExchangeWords : Prop :=
  (∀ (s s1 : State) (pa pb pc : BitVec 3) (cls : BitVec 4) (dev : BitVec 10) (op : BitVec 3) (d : List Byte) (port : Nat),
      let a := s.ptr3 pa
      let b := s.ptr3 pb
      let n := s.ptr3 pc
      let moved (k : RemKind) : Prop :=
        ∃ s0, s.localReady k a n.toNat = some s0 ∧ State.movedHere k dev a b n.toNat (n.toNat + 1) s0.doneBytes s0 = some s1
      let finished (k : RemKind) : Prop := s.localReady k a n.toNat = some s1 ∧ n.toNat ≤ s1.doneBytes
      let aligned : Prop := a.toNat % 4 = 0 ∧ b.toNat % 4 = 0 ∧ n.toNat % 4 = 0
      s.remoteReady dev = true → n.toNat < 4294967296 →
      (s.ownDev dev = true →
        (moved .put → exec (.xput pa pb pc cls dev) s = .next (s1.wordDone 2)) ∧
        (moved .get → exec (.xget pa pb pc cls dev) s = .next (s1.wordDone 2)) ∧
        (aligned → moved (.red op) → exec (.xred pa pb pc cls dev op) s = .next (s1.wordDone 2)) ∧
        (a.toNat % 8 = 0 → s.doneBytes ≠ 8 →
          s.unitHere dev (.apply 8 fun old => leBytes 8 (leNat old + leNat (leBytes 8 b.toNat))) a = some (d, s1) →
          exec (.xsig pa pb cls dev) s = .next (s1.wordDone 2))) ∧
      (finished .put → exec (.xput pa pb pc cls dev) s = .next (s1.wordDone 2)) ∧
      (finished .get → exec (.xget pa pb pc cls dev) s = .next (s1.wordDone 2)) ∧
      (aligned → finished (.red op) → exec (.xred pa pb pc cls dev op) s = .next (s1.wordDone 2)) ∧
      (s.doneBytes = 8 → exec (.xsig pa pb cls dev) s = .next (s.wordDone 2)) ∧
      (s.ownDev dev = false → s.portFor dev.toNat = some port → a.toNat % 8 = 0 → s.doneBytes ≠ 8 → s.requests < 4096 →
        let x : Remote := { kind := .sig, dev := dev, va := a, loc := a, len := 8, data := leBytes 8 b.toNat, tag := s.free.1.setWidth 8,
                            port := port, cls := cls }
        exec (.xsig pa pb cls dev) s = .next (State.upd (State.keep
          { s.free.2.sendFlit port dev.toNat (x.cargo s.cur) with core.remote := some x } 0 []) fun e => { e with exec := true, wait := 0 }))) ∧
  (∀ (s s1 : State) (pa pb pc : BitVec 3) (cls : BitVec 4) (tgt : BitVec 8) (cond : BitVec 2),
      let a := s.ptr3 pa
      let n := (s.ptr3 pb).toNat % 256
      let expert := (s.ptr3 pc).toNat % 256
      (∀ ps, s.ownsCore tgt.toNat = true → a.toNat % 64 = 0 → s.core.sends.length + s.core.refusals.length < 64 →
        s.spanTo (some s.cur) (s.streamAgent xeStreamA) { read := true } (piecesOf a 1024) = some (ps, s1) →
        (∀ p ∈ ps, ∃ v, p.res = .ok v) →
        let xs := (ps.flatMap fun p => p.sectors a).map s1.readable
        firstBad xs = none →
        let r := xs.foldl (s1.readInto .all) (List.replicate 1024 0, s1)
        exec (.xsend pa pb pc cls tgt) s = .next (State.wordDone { r.2 with
          core.sends := r.2.core.sends ++ [{ seq := r.2.core.seq, target := tgt.toNat, expert := (r.2.ptr3 pc).toNat % 256,
                                             token := (r.2.ptr3 pb).setWidth 32, row := r.1.take 1024 }]
          core.seq := r.2.core.seq + 1 } 2)) ∧
      (a.toNat % 1024 = 0 → n = 0 → exec (.xadm pa pb pc) s =
        .next (State.wordDone { s with core.hosting := s.core.hosting.filter fun h => h.expert ≠ expert } 2)) ∧
      (∀ ps, a.toNat % 1024 = 0 → n ≠ 0 → n ≤ 240 →
        s.span (s.streamAgent xeStreamA) { write := true } (piecesOf a (1024 * (n + 1))) = some (ps, s1) →
        (∀ p ∈ ps, ∃ v, p.res = .ok v) →
        let tl := (ps.filterMap fun p => match p.res with | .ok (_, t) => some t | .error _ => none).eraseDups
        let h : Hosting := { expert := expert, ctx := s1.core.sq.ctxid, base := a, slots := n, tlb := tl }
        ((∃ x ∈ s1.core.hosting, x.expert = expert) → exec (.xadm pa pb pc) s =
          .next (State.wordDone { h.put s1 0 (leBytes 4 0) with
            core.hosting := s1.core.hosting.map fun x => if x.expert = expert then h else x } 2)) ∧
        ((∀ x ∈ s1.core.hosting, x.expert ≠ expert) → s1.core.hosting.length < 8 → exec (.xadm pa pb pc) s =
          .next (State.wordDone { h.put s1 0 (leBytes 4 0) with core.hosting := s1.core.hosting ++ [h] } 2))) ∧
      (s.core.outcomeRoom s.actor.id 0 = true →
        let give (rec reason : Word) (rest : List (Word × Word)) : Out :=
          .next (((State.setPtr { s.pushOutcome s.actor.id 0 rec with core.refusals := rest } (pa.setWidth 4) rec).setPtr
            (pb.setWidth 4) reason).wordDone 2)
        (s.core.refusals = [] → exec (.xrefq pa pb) s = give 0 0 []) ∧
        (∀ x rest, s.core.refusals = x :: rest → exec (.xrefq pa pb) s = give x.1 x.2 rest)) ∧
      (∀ p pa' t, a.toNat % 8 = 0 → s.span (s.streamAgent xeStreamA) { read := true } [(a, 8)] = some ([p], s1) →
        p.res = .ok (pa', t) → s1.marked s1.engHolders t pa' 8 = none →
        let v := leNat (s1.store.readHome pa' 8)
        let w := (s1.ptr3 pb).toNat
        (cond.toNat = 0 ∧ w ≤ v ∨ cond.toNat = 1 ∧ w = v ∨ cond.toNat = 2 ∧ w ≠ v) → exec (.xwait pa pb cond) s = .next (s1.wordDone 2))) ∧
  (∀ (s : State) (sender : BitVec 8) (x : Send) (n : Nat) (r : BitVec 8),
      let back (s : State) (r : BitVec 8) : Out :=
        let c := s.coreAt sender.toNat
        .next (s.setCoreAt sender.toNat { c with sends := decide1 c.sends x.seq r })
      (nextRow (s.coreAt sender.toNat).sends s.cur = some x →
        ((∀ h ∈ s.core.hosting, h.expert ≠ x.expert) → exec (.rowArrival sender) s = back s 2) ∧
        (∀ h, s.core.hosting.find? (fun h => h.expert = x.expert) = some h →
          (h.slots ≤ h.rows → exec (.rowArrival sender) s = back s 1) ∧
          (h.rows < h.slots →
            let s1 := h.put (h.put (h.put s (1024 * (h.rows + 1)) x.row) (64 + 4 * h.rows) (leBytes 4 x.token.toNat)) 0
              (leBytes 4 (h.rows + 1))
            exec (.rowArrival sender) s = back { s1 with
              core.hosting := s1.core.hosting.map fun y => if y.expert = x.expert then { y with rows := h.rows + 1 } else y } 0))) ∧
      (s.core.sends[n]? = some x → x.answer = some 0 →
        exec (.sendAnswer n) s = .next { s with core.sends := s.core.sends.eraseIdx n }) ∧
      (s.core.sends[n]? = some x → x.answer = some r → r ≠ 0 → exec (.refusalArrival n) s = .next { s with
        core.sends := s.core.sends.eraseIdx n
        core.refusals := s.core.refusals ++ [(refusalRecord x r, zext64 r)]
        core.counts.full := if r = 1 then sat32 s.core.counts.full 1 else s.core.counts.full
        core.counts.nh := if r = 2 then sat32 s.core.counts.nh 1 else s.core.counts.nh }))

/-! ## The events -/

/-- R168, R169: an entry whose tokens and give slot are there starts at position 0: it takes one token of each take field and
reserves one slot, and a block in the scratchpad is read whole; where one is missing it waits, and no queue changes. R171: at the
end of a repetition the VE rotates every view, once, and REM is decremented and tested: the next repetition starts at position 2,
or the entry drains. A freeze between the two steps leaves RTP set and the test to be made. R173, R185: an entry completes when
its effects have landed and performed, a frozen engine's too: the reserved slot becomes a token and the slot of the command queue
is freed; before that nothing changes. What is the model's own choice in it: assumption logs 25, 58. -/
def Obligations.EntryLife : Prop :=
  (∀ (s : State) (e : Engine) (x : Entry),
      let g := (s.eng e).sweep
      s.core.halted = false → g.free = true → g.q.head? = some (.entry x) →
      let has (u : BitVec 3) : Prop := 5 < u.toNat ∨ (s.core.tokq u.toNat e.id).present ≠ 0
      let give := s.core.tokq e.id x.give.toNat
      (has x.take1 → has x.take2 → has x.take3 → (x.give.toNat ≤ 5 → give.present + give.reserved < 15) →
        ∃ t, exec (.entryStart e) s = .next t ∧ (t.eng e).st = .running ∧ (t.eng e).pos = 0 ∧ (t.eng e).rem = 0 ∧ (t.eng e).q = g.q ∧
          (∀ u, u ≤ 5 → (t.core.tokq u e.id).present =
            (s.core.tokq u e.id).present - ([x.take1, x.take2, x.take3].filter fun f => f.toNat = u).length) ∧
          (∀ u, u ≤ 5 → (t.core.tokq e.id u).reserved = (s.core.tokq e.id u).reserved + if x.give.toNat = u then 1 else 0) ∧
          (t.eng e).words = (if spadRef x.addr then s.spadBlock (x.addr.toNat % 8388608) else []) ∧
          t.core.sq = s.core.sq ∧ t.core.regs = s.core.regs ∧ t.store = s.store ∧ t.quads = s.quads) ∧
      (¬(has x.take1 ∧ has x.take2 ∧ has x.take3) →
        ∃ t, exec (.entryStart e) s = .next t ∧ (t.eng e).st = .waiting ∧ (t.eng e).wait = 1 ∧ (t.eng e).q = g.q ∧ t.core.tok = s.core.tok) ∧
      (has x.take1 → has x.take2 → has x.take3 → x.give.toNat ≤ 5 → 15 ≤ give.present + give.reserved →
        ∃ t, exec (.entryStart e) s = .next t ∧ (t.eng e).st = .waiting ∧ (t.eng e).wait = 2 ∧ (t.eng e).q = g.q ∧ t.core.tok = s.core.tok)) ∧
  (∀ (s : State) (e : Engine), (s.eng e).atEnd = true → s.core.halted = false →
      (∀ half, ∃ t, exec (.repetitionEnd e half) s = .next t ∧
        (∀ v, t.core.view v = if e = .ve ∧ (s.eng e).rtp = false then rotateView (s.core.view v) else s.core.view v) ∧
        (t.eng e).words = (s.eng e).words ∧ (t.eng e).len = (s.eng e).len ∧ t.core.tok = s.core.tok ∧ t.store = s.store) ∧
      (∃ t, exec (.repetitionEnd e false) s = .next t ∧ (t.eng e).rem = (s.eng e).rem - 1 ∧ (t.eng e).rtp = false ∧
        ((s.eng e).rem ≠ 1 → (t.eng e).st = .running ∧ (t.eng e).pos = 2) ∧ ((s.eng e).rem = 1 → (t.eng e).st = .draining)) ∧
      (∃ t, exec (.repetitionEnd e true) s = .next t ∧ (t.eng e).rem = (s.eng e).rem ∧ (t.eng e).rtp = true ∧
        (t.eng e).st = .running ∧ (t.eng e).pos = (s.eng e).pos ∧
        exec (.repetitionEnd e false) t = exec (.repetitionEnd e false) s)) ∧
  (∀ (s : State) (e : Engine), (s.eng e).st = .draining → s.core.frozen = false → s.core.sq.run ≠ .failed →
      (s.drained e = true → ∃ t, exec (.entryComplete e) s = .next t ∧ (t.eng e).st = .idle ∧ 
        (t.eng e).q = (if (s.eng e).frz then (s.eng e).q.tail else (s.eng e).q.tail.dropWhile (· = .marker)) ∧
        (∀ u, u ≤ 5 → (t.core.tokq e.id u).present = (s.core.tokq e.id u).present + (if (s.eng e).entry.give.toNat = u then 1 else 0) ∧
          (t.core.tokq e.id u).reserved = (s.core.tokq e.id u).reserved - (if (s.eng e).entry.give.toNat = u then 1 else 0)) ∧
        t.core.sq = s.core.sq ∧ t.core.regs = s.core.regs ∧ t.store = s.store) ∧
      (s.drained e = false → exec (.entryComplete e) s = .next s))

/-- R177, R217: a SLEEPU whose time has come checks its token and goes on, or raises PROMISE_MISSED at its own address; a unit
whose wait is over takes the next turn. R355: a write to a watched line wakes every access parked on it and disarms its monitor, a
write to another line wakes none; the wake gives each woken unit of every core a turn in which it walks again, and runs on an
access of another package. R318: a fill by another core of a private page without X makes it shared: the leaf is marked, the
owner's copies of the page and every translation of it are gone, and PRIVCNT of the filling core counts. R78, R99, R332, R336: a
word that is no instruction, and a fetch that faults, raise their exception at U with EPC at the word; the fetch's BADADDR is the
halfword that faulted. A word that the SQ holds, because its instruction waits or because it has been fetched ahead, is not
fetched again. What is the model's own choice in it: assumption logs 1, 23, 40, 58. -/
def Obligations.WaitsAndFetches : Prop :=
  (∀ (s : State) (t : Word) (f : BitVec 3) (e : Engine), s.sqLive = true →
      (s.core.sq.sleep = some (t, f) → t.toNat ≤ s.time.toNat →
        (f = 7 ∨ (s.core.tokq f.toNat 0).present ≠ 0 →
          exec .sleepuWake s = .next (State.adv { s with core.sq.sleep := none } 4)) ∧
        (f ≠ 7 → (s.core.tokq f.toNat 0).present = 0 → s.core.sq.spec.act = false → s.core.sq.trap.status.priv = 0 →
          ∃ u, exec .sleepuWake s = .next u ∧ u.core.sq.pc = s.core.sq.trap.tvec ∧ u.core.sq.trap.epc = s.core.sq.pc ∧
            u.core.sq.trap.badaddr = 0 ∧ u.core.sq.trap.cause = causeWord Cause.promiseMissed.code 0 0 false ∧
            u.core.sq.x = s.core.sq.x ∧ u.core.tok = s.core.tok)) ∧
      (s.core.sq.sleep = some (t, f) → s.time.toNat < t.toNat → exec .sleepuWake s = .next s) ∧
      exec (.queueWaitResume .sq) s = .next { s with schedule := .unit s.cur .sq 0 :: s.schedule } ∧
      (1 ≤ (s.eng e).wait.toNat → (s.eng e).wait.toNat ≤ 6 →
        exec (.queueWaitResume (.eng e)) s = .next { s with schedule := .unit s.cur (.eng e) 0 :: s.schedule })) ∧
  (∀ (s : State) (line : Nat),
      let u := s.wakeLines [line]
      let woken (c : Core) : Prop :=
        (c.sq.parked = some line → c.sq.woken = true) ∧ ∀ e, (c.eng e).parked = some line → (c.eng e).woken = true
      ((∃ d ∈ s.dies, line ∈ d.2.monitors) →
        woken u.core ∧ (∀ c ∈ u.others, woken c.2) ∧ (∀ a ∈ u.mgmt.arrivals, a.parked = some line → a.woken = true) ∧
        (∀ d ∈ u.dies, line ∉ d.2.monitors) ∧ u.store = s.store ∧ u.core.regs = s.core.regs ∧ u.core.sq.x = s.core.sq.x) ∧
      ((∀ d ∈ s.dies, line ∉ d.2.monitors) → u = s) ∧
      ((∀ a ∈ s.mgmt.arrivals, a.parked ≠ none ∧ (a.parked = some line → a.woken = false)) →
        ∃ t, exec (.parkWake line) s = .next t ∧ t = { s with schedule := t.schedule } ∧
          (∀ c ∈ smSet s.others s.cur s.core, c.2.sq.parked = some line → c.2.sq.woken = true → .unit c.1 .sq 0 ∈ t.schedule) ∧
          (∀ c ∈ smSet s.others s.cur s.core, ∀ e, (c.2.eng e).parked = some line → (c.2.eng e).woken = true →
            .unit c.1 (.eng e) 0 ∈ t.schedule) ∧
          (∀ x ∈ s.schedule, x ∈ t.schedule)) ∧
      (∀ a, s.mgmt.arrivals.find? (fun a => a.parked.isNone || (a.parked = some line && a.woken)) = some a →
        ∃ t, exec (.parkWake line) s = .next t ∧
          t = { State.arriveAccess { s with mgmt.arrivals := s.mgmt.arrivals.erase a } a with schedule := t.schedule })) ∧
  (∀ (s : State) (leaf level : Nat),
      let e := leNat (s.store.readHome leaf 8)
      let e' := setSeg (setSeg e 7 1 1) 62 2 2
      let size := leafSize level e
      leaf % 8 = 0 → leaf < s.packageTop → Memory.wf s.store.mem = true → level ≤ 2 → seg e 0 1 = 1 → isLeaf e = true →
      s.malformed false level e = false → seg e 62 2 = 1 → seg e 54 8 ≠ s.cur → s.cur < 256 → seg e 3 1 = 0 →
      ∃ t, exec (.pageReclassify leaf level) s = .next t ∧ leNat (t.store.readHome leaf 8) = e' ∧
        (∀ c ∈ t.store.coh.copies, ¬(frameOf e < 64 * c.sector + 64 ∧ 64 * c.sector < frameOf e + size)) ∧
        (∀ u ∈ t.core.sq.tlb, u.entry ≠ leaf) ∧ (∀ c ∈ t.others, ∀ u ∈ c.2.sq.tlb, u.entry ≠ leaf) ∧
        (∀ c ∈ t.others, ∀ u ∈ c.2.stream ++ c.2.ahead, u.2.entry ≠ leaf) ∧ (∀ q ∈ t.quads, ∀ u ∈ q.2.tlb, u.entry ≠ leaf) ∧
        t.core.counts.priv = sat32 s.core.counts.priv 1 ∧ t.core.sq.pc = s.core.sq.pc ∧ t.core.sq.x = s.core.sq.x) ∧
  (∀ (s s' : State) (h : BitVec 16) (h2 : Option (BitVec 16)) (f : EFault), s.sqLive = true →
      let taken (c : Cause) (addr : Word) (u : State) : Prop :=
        u.core.sq.pc = s'.core.sq.trap.tvec ∧ u.core.sq.trap.epc = s'.core.sq.pc ∧ u.core.sq.trap.badaddr = addr ∧
        u.core.sq.trap.cause = causeWord c.code 0 0 false ∧ u.core.sq.x = s'.core.sq.x ∧
        u.core.sq.trap.status = { intrap := true, pie := s'.core.sq.trap.status.ie, ie := false, ppriv := 0, priv := 1 } ∧
        u.store = s'.store ∧ u.core.regs = s'.core.regs
      s'.core.sq.spec.act = false → s'.core.sq.trap.status.priv = 0 →
      (∀ w, s.core.sq.holds s.time = some w →
        exec .fetchFault s = .next s ∧
        (s = s' → (decodeSq w).toOption = none → ∃ u, exec .illegalInstruction s = .next u ∧ taken .illegalInstruction 0 u)) ∧
      (s.core.sq.holds s.time = none → s.fetchSq = (.ok h s', h2) → (decodeSq (wordOf h h2)).toOption = none →
        ∃ u, exec .illegalInstruction s = .next u ∧ taken .illegalInstruction 0 u) ∧
      (s.core.sq.holds s.time = none → s.fetchSq = (.fault f s', h2) → ∃ u, exec .fetchFault s = .next u ∧ taken f.cause f.addr u))

/-! ### The coherence protocol, message by message -/

/-- R308, R310, R330: a holder that misses asks its directory under its next number and waits in IS_D, IM_D or SM_D; the request
reaches the directory as soon as that can serve it. A fetch takes the data of a published sector of a code frame from home, the
die's directory records its quad, and it takes none of an unpublished or a marked one. R306, R307, R309, R311, R327: a request
that reaches its directory: a lone reader is granted Exclusive and another reader, or one of a code frame, Shared; an owner that
asks again is granted Exclusive under its new number, another owner is sent FWD with the requester's context and window bit, and a
writer waits for the other sharers' acknowledgements or is granted Modified; one beyond the level's permission goes up under the
level's own number and the entry waits in B_UP; at a busy entry the request waits in the queue. A die's fifth sharer makes its
vector coarse. R309, R310, R312, R314: what a child does with an INV: a filtered one is answered and counted, a cache's copy takes
the state of R310 and the answer carries data where it was dirty, and a level passes it to every child that its record names. What
is the model's own choice in it: assumption logs 39, 59, 69. -/
def Obligations.CoherenceRequests : Prop :=
  (∀ (s : State) (h : Holder) (k : Nat) (m : Bool) (t : Tlb) (hint : BitVec 2),
      let c := s.store.coh
      let ev : Instr := if m then .getm h k t.ctx t.xsh hint else .gets h k t.ctx hint
      let fetches : Prop := (∃ n, h = .icache n) ∨ ∃ n e, h = .loopBuf n e
      (∀ q, CohMsg.req q k ∈ c.msgs → q.child = h → q.m ≠ m) → s.holderTlb h k t.ctx = some t →
      (s.mayMiss h k m t = true → (m = true ∨ ¬fetches) →
        let dir : DirId := match h with | .l2 d => .die d | _ => parentDir h
        let r : Req := { child := h, dir := dir, m := m, num := c.nextNum h, ctx := t.ctx, window := t.xsh, hint := hint }
        let u := c.ask h k m t.ctx t.xsh hint
        let s1 : State := { s with store.coh := u }
        u.msgs = c.msgs ++ [.req r k] ∧ u.nextNum h = c.nextNum h + 1 ∧ u.dirs = c.dirs ∧
        ((∀ d, h ≠ .l2 d) → u.copyOf h k = some { holder := h, sector := k, num := c.nextNum h
                                                  st := if m = false then .isD else if c.stOf h k = some .s then .smD else .imD }) ∧
        exec ev s = .next (if s1.deliverable (.req r k) then (s1.deliver (.req r k)).spillAt h else s1)) ∧
      (m = false → fetches → t.x = true → t.nc = false → s.store.isCode (64 * k) = true →
        (∀ x ∈ s.store.fetch, x.holder = h → x.sector ≠ k) →
        (s.store.unpublished k = true ∨ s.markAt [h] t k ≠ none → exec (.gets h k t.ctx hint) s = .next s) ∧
        (s.store.unpublished k = false → s.markAt [h] t k = none → c.fullSet (holderDie h) (k / 4) = [] →
          ∃ u : State, exec (.gets h k t.ctx hint) s = .next u ∧ u = { s with store := u.store } ∧ u.store.data = s.store.data ∧
            u.store.fetchCopy h k = some { holder := h, sector := k, data := s.store.readHome (64 * k) 64 } ∧
            (s.store.full h k = false → u.store.fetch = { holder := h, sector := k, data := s.store.readHome (64 * k) 64 } :: s.store.fetch) ∧
            holderQuad h ∈ (u.store.coh.dirEnt (.die (holderDie h)) k).fetch ∧ u.store.coh.msgs = c.msgs ∧ u.store.coh.copies = c.copies))) ∧
  (∀ (s : State) (r : Req) (k : Nat) (a b : List CohMsg),
      let c := s.store.coh
      let e := c.dirEnt r.dir k
      let has := c.permission r.dir k
      let code := s.store.isCode (64 * k)
      c.msgs = a ++ .req r k :: b → (∀ q, CohMsg.req q k ∈ a → q.child = r.child → q.m ≠ r.m) → c.crowded r k = none →
      r.self = false → (∀ x ∈ c.dirs, x.sector = k → x.queue = []) →
      ∃ t : State, exec (if r.m then .getm r.child k r.ctx r.window r.hint else .gets r.child k r.ctx r.hint) s = .next (t.spillAt r.child) ∧ t = { s with store.coh := t.store.coh } ∧
        let u := t.store.coh
        let e' := u.dirEnt r.dir k
        let on (l : List CohMsg) : Prop := u.msgs = a ++ b ++ l
        (c.ready r.dir k = false → e'.queue = [r] ∧ on []) ∧
        (c.ready r.dir k = true →
          (∀ l, levelOf r.dir = some l → (has = none ∨ (r.m = true ∧ has = some .s)) →
            e'.busy = .up r ∧ on [.req { r with child := l, dir := parentDir l, num := c.nextNum l } k] ∧ u.nextNum l = c.nextNum l + 1 ∧
            u.copyOf l k = some { holder := l, sector := k, num := c.nextNum l
                                  st := if r.m = false then .isD else if has = some .s then .smD else .imD }) ∧
          (r.m = false → has ≠ none →
            (e.owner = none → e.sharers = [] → readOnly r.child = false → code = false → has ≠ some .s →
              e'.owner = some r.child ∧ e'.ownerNum = some r.num ∧ on [.grant r.child k .e]) ∧
            (e.owner = none → (e.sharers ≠ [] ∨ readOnly r.child = true ∨ code = true ∨ has = some .s) →
              (∃ n, (r.child, n) ∈ e'.sharers) ∧ on [.grant r.child k .s] ∧
              (∀ d, r.dir = .die d → 4 ≤ (e.sharers.filter fun x => x.1 ≠ r.child).length →
                e'.coarse = true ∧ ∀ x ∈ e'.sharers, x.2 = none)) ∧
            (e.owner = some r.child → e'.owner = some r.child ∧ e'.ownerNum = some r.num ∧ on [.grant r.child k .e]) ∧
            (∀ o, e.owner = some o → o ≠ r.child → e'.busy = .fwd r ∧ on [.fwd o k false r.ctx r.window])) ∧
          (r.m = true → has = some .e ∨ has = some .m →
            (e.owner = none → e.targets (some r.child) = [] → e'.owner = some r.child ∧ e'.ownerNum = some r.num ∧ on [.grant r.child k .m]) ∧
            (e.owner = none → e.targets (some r.child) ≠ [] → e'.busy = .inv r (e.targets (some r.child)).length ∧
              on ((e.targets (some r.child)).map fun x => .inv x.1 k x.2 r.ctx r.window e.coarse)) ∧
            (∀ o, e.owner = some o → o ≠ r.child → e'.busy = .fwd r ∧ on [.fwd o k true r.ctx r.window])))) ∧
  (∀ (s : State) (h : Holder) (k : Nat) (num : Option (BitVec 8)) (ctx : BitVec 6) (w co : Bool) (a b : List CohMsg),
      let c := s.store.coh
      let st := c.stOf h k
      let after : Option CopySt :=
        match c.copyOf h k with
        | none => none
        | some x =>
          match x.st with
          | .s | .e | .m => none
          | .isD => some (if num = none ∨ num = some x.num then .isDI else .isD)
          | .smD => some .imD
          | .miA => some .iiA
          | y => some y
      let answer : CohMsg := if st = some .m ∨ st = some .miA then .reply h k else .invack h k
      c.msgs = a ++ .inv h k num ctx w co :: b → (∀ n c w o, CohMsg.inv h k n c w o ∉ a) →
      s.deliverable (.inv h k num ctx w co) = true → (∀ x ∈ c.dirs, x.sector = k → x.queue = []) →
      ∃ t : State, exec (.inv h k) s = .next (t.spillAt h) ∧ t = { s with store.coh := t.store.coh, quads := t.quads } ∧
        let u := t.store.coh
        (s.filtered h ctx w co = true → u.copies = c.copies ∧ u.dirs = c.dirs ∧ u.msgs = a ++ b ++ [.invack h k] ∧
          (t.quadAt (holderQuad h)).pfdrop = sat32 (s.quadAt (holderQuad h)).pfdrop 1) ∧
        (s.filtered h ctx w co = false → ownDir h = none → u.stOf h k = after ∧ u.dirs = c.dirs ∧ u.msgs = a ++ b ++ [answer]) ∧
        (∀ d, s.filtered h ctx w co = false → ownDir h = some d →
          let e := c.dirEnt d k
          (e.children ≠ [] → (u.dirEnt d k).down = some { kind := .inv, num := num, left := e.children.length } ∧ u.copies = c.copies ∧
            u.msgs = a ++ b ++ e.children.map fun x => .inv x.1 k x.2 ctx w e.coarse) ∧
          (e.children = [] → u.stOf h k = after ∧ u.msgs = a ++ b ++ [answer])))

/-- R310, R311: what an owner does with FWD.S and FWD.M: it hands its data over and keeps S or nothing, a level passes the message
to the owner below it, a holder that has the data no more says so, and data kept for a PUTM is given once. R307, R309, R311, R431:
the answers of the children at a directory: each acknowledgement is counted and the last one grants Modified, the owner's data or
acknowledgement ends a forward, the last answer of a level's children is the level's own, and a PUTM takes its owner from the
record and is acknowledged. A request that waited is then served in its turn. Data that arrives uncorrectable over a die boundary
leaves its sector marked at home. R309, R310, R315, R317, R320, R431, R473: a grant gives a cache its state, an IS_DI copy is used
once and goes, a level that may use its data once grants it so, and a level that gains Modified grants the request for which it
waited; an acknowledged PUTM ends the copy; a clean copy is replaced silently, a dirty one with PUTM, one of a non-coherent page
is written to its home, and an L2 first recalls the copies that its cores have of a private page. A sector that arrives
uncorrectable over a die boundary is poisoned there, and one that its stack cannot correct is marked at home. R18, R313, R315,
R316: the room of a holder: one that has room for what it holds keeps it, one that does not replaces its oldest stable copy, and a
stream's copy stands as the oldest. The filter of a die recalls, of a full set, the line used least recently whose sectors are all
stable. What is the model's own choice in it: assumption logs 39, 60. -/
def Obligations.CoherenceAnswers : Prop :=
  (∀ (s : State) (h : Holder) (k : Nat) (m : Bool) (ctx : BitVec 6) (w : Bool) (a b : List CohMsg),
      let c := s.store.coh
      let st := c.stOf h k
      c.msgs = a ++ .fwd h k m ctx w :: b → (∀ ctx w, CohMsg.fwd h k m ctx w ∉ a) → s.deliverable (.fwd h k m ctx w) = true →
      (∀ x ∈ c.dirs, x.sector = k → x.queue = []) →
      ∃ t : State, exec (if m then .fwdM h k else .fwdS h k) s = .next (t.spillAt h) ∧ t = { s with store.coh := t.store.coh } ∧
        let u := t.store.coh
        (ownDir h = none → st = some .s ∨ st = some .e ∨ st = some .m →
          u.stOf h k = (if m then none else some .s) ∧ u.dirs = c.dirs ∧ u.msgs = a ++ b ++ [.reply h k]) ∧
        (st = none ∨ st = some .iiA → u.copies = c.copies ∧ u.dirs = c.dirs ∧ u.msgs = a ++ b ++ [.invack h k]) ∧
        (st = some .miA → u.stOf h k = some .iiA ∧ u.dirs = c.dirs ∧ u.msgs = a ++ b ++ [.reply h k]) ∧
        (∀ d o, ownDir h = some d → (c.dirEnt d k).owner = some o → st = some .s ∨ st = some .e ∨ st = some .m →
          (u.dirEnt d k).down = some { kind := if m then .fwdM else .fwdS, left := 1 } ∧ u.copies = c.copies ∧
            u.msgs = a ++ b ++ [.fwd o k m ctx w])) ∧
  (∀ (s : State) (h : Holder) (q : Req) (k n : Nat),
      let c := s.store.coh
      let d := parentDir h
      let e := c.dirEnt d k
      let quiet : Prop := ∀ x ∈ c.dirs, x.sector = k → x.queue = []
      q.self = false →
      (∀ data,
        let msg : CohMsg := if data then .reply h k else .invack h k
        let rest := c.msgs.erase msg
        msg ∈ c.msgs →
        ∃ t : State, exec (if data then .data h k { up := true, poisoned := false } else .invack h k true) s = .next (t.spillAt h) ∧
          t = { s with store.coh := t.store.coh } ∧
          let u := t.store.coh
          (data = true → exec (.data h k { up := true, poisoned := true }) s =
            .next (if s.crosses h k then (t.spillAt h).markHome k false else t.spillAt h)) ∧
          let e' := u.dirEnt d k
          (quiet → e.down = none →
            (e.busy = .inv q (n + 2) → e'.busy = .inv q (n + 1) ∧ u.msgs = rest) ∧
            (e.busy = .inv q 1 ∨ (e.busy = .fwd q ∧ q.m = true) →
              e'.owner = some q.child ∧ e'.ownerNum = some q.num ∧ e'.busy = .stable ∧ u.msgs = rest ++ [.grant q.child k .m]) ∧
            (e.busy = .fwd q → q.m = false → readOnly q.child = false → e'.busy = .stable ∧
              (data = true → e'.owner = none ∧ e'.sharers.map (·.1) = q.child :: e.owner.toList ∧ u.msgs = rest ++ [.grant q.child k .s]) ∧
              (data = false → e'.owner = some q.child ∧ u.msgs = rest ++ [.grant q.child k .e])) ∧
            (e.busy = .bi 1 → e'.busy = .stable ∧ e'.owner = none ∧ e'.sharers = [] ∧ u.msgs = rest)) ∧
          (∀ dn l, quiet → e.down = some dn → levelOf d = some l →
            (dn.left = n + 2 → e'.down = some { dn with left := n + 1, data := dn.data || data } ∧ u.msgs = rest) ∧
            (dn.left = 1 → dn.kind = .inv → c.stOf l k = none ∨ c.stOf l k = some .s ∨ c.stOf l k = some .e ∨ c.stOf l k = some .m →
              e'.down = none ∧ e'.owner = none ∧ e'.sharers = [] ∧ u.stOf l k = none ∧
              u.msgs = rest ++ [if c.stOf l k = some .m ∨ dn.data = true ∨ data = true then .reply l k else .invack l k])) ∧
          (∀ p : Req, (∀ x ∈ c.dirs, x.sector = k → x.dir ≠ d → x.queue = []) → e.down = none → e.busy = .inv q 1 → e.queue = [p] →
            p.dir = d → p.m = false → p.child ≠ q.child → c.permission d k = some .m →
            e'.busy = .fwd p ∧ e'.queue = [] ∧ u.msgs = rest ++ [.grant q.child k .m, .fwd q.child k false p.ctx p.window])) ∧
      (let rest := c.msgs.erase (.putm h k)
       CohMsg.putm h k ∈ c.msgs → quiet → ∃ t : State, exec (.putm h k) s = .next (t.spillAt h) ∧ t = { s with store.coh := t.store.coh } ∧
        let u := t.store.coh
        (e.owner ≠ some h → u.dirs = c.dirs ∧ u.msgs = rest ++ [.ackPut h k]) ∧
        (e.owner = some h → e.busy = .stable → e.down = none → (u.dirEnt d k).owner = none ∧ u.msgs = rest ++ [.ackPut h k]))) ∧
  (∀ (s : State) (h : Holder) (k : Nat) (g : Grant) (x : Copy) (a b : List CohMsg),
      let c := s.store.coh
      c.copyOf h k = some x → (∀ x ∈ c.dirs, x.sector = k → x.queue = []) →
      (c.msgs = a ++ .grant h k g :: b → (∀ g, CohMsg.grant h k g ∉ a) → s.deliverable (.grant h k g) = true →
        ∃ t : State, t = { s with store.coh := t.store.coh } ∧
          let u := t.store.coh
          (∀ poisoned, exec (.data h k { up := false, poisoned := poisoned }) s = .next (
            if s.crosses h k then { t.spillAt h with store.badAt :=
              let l := (t.spillAt h).store.badAt.filter fun x => x ≠ (holderDie h, k)
              if poisoned then (holderDie h, k) :: l else l }
            else t.spillAt h)) ∧
          (∀ poisoned, exec (.data h k { up := false, poisoned := poisoned, ecc := true }) s =
            exec (.data h k { up := false, poisoned := poisoned }) (s.markHome k true)) ∧
          (ownDir h = none → u.msgs = a ++ b ∧
            (x.st = .isD → u.stOf h k = some (match g with | .s => .s | .e => .e | .m => .m)) ∧
            (x.st = .isDI → u.stOf h k = none) ∧ (x.st = .imD ∨ x.st = .smD → g = .m → u.stOf h k = some .m)) ∧
          (∀ d r, ownDir h = some d → (c.dirEnt d k).busy = .up r → r.m = false → r.self = false → r.child ≠ h → x.st = .isDI →
            u.stOf h k = none ∧ (c.stOf r.child k = some .isD → u.stOf r.child k = some .isDI) ∧ (u.dirEnt d k).busy = .stable ∧
              u.msgs = a ++ b ++ [.grant r.child k .s]) ∧
          (∀ d r, ownDir h = some d → (c.dirEnt d k).busy = .up r → r.m = true → r.dir = d → r.self = false →
            (c.dirEnt d k).owner = none → (c.dirEnt d k).targets (some r.child) = [] → x.st = .imD ∨ x.st = .smD → g = .m →
            u.stOf h k = some .m ∧ (u.dirEnt d k).owner = some r.child ∧ (u.dirEnt d k).busy = .stable ∧
              u.msgs = a ++ b ++ [.grant r.child k .m])) ∧
      (CohMsg.ackPut h k ∈ c.msgs → x.st = .miA ∨ x.st = .iiA →
        ∃ t : State, exec (.invack h k false) s = .next (t.spillAt h) ∧ t = { s with store.coh := t.store.coh } ∧ t.store.coh.stOf h k = none ∧
          t.store.coh.msgs = c.msgs.erase (.ackPut h k)) ∧
      (ownDir h = none → ∃ t : State, exec (.replacement h k) s = .next t ∧
        (s.store.ncOf h k = none → t.store.mem = s.store.mem ∧
          (x.st = .s ∨ x.st = .e → t.store.coh.stOf h k = none ∧ t.store.coh.msgs = c.msgs) ∧
          (x.st = .m → t.store.coh.stOf h k = some .miA ∧ t.store.coh.msgs = c.msgs ++ [.putm h k])) ∧
        (∀ y, s.store.ncOf h k = some y → y.dirty = true → isHost (64 * k) = false → inDevice (64 * k) = false →
          t.store.mem = writeBytes s.store.mem (64 * k) y.data ∧ t.store.ncOf h k = none)) ∧
      (∀ d, h = .l2 d → c.lineStable d (k / 4) = true → (c.dirEnt (.die d) k).children = [] → s.store.ncOf h k = none → x.st = .e →
        let below (y : Copy) : Prop := y.sector = k ∧ holderDie y.holder = d ∧ y.holder ≠ h
        ∃ t : State, exec (.replacement h k) s = .next t ∧ (∀ y ∈ t.store.coh.copies, ¬ below y) ∧
          ((∃ y ∈ c.copies, below y ∧ y.st = .m) → t.store.coh.stOf h k = some .miA ∧ t.store.coh.msgs = c.msgs ++ [.putm h k]) ∧
          ((∀ y ∈ c.copies, below y → y.st ≠ .m) → t.store.coh.stOf h k = none ∧ t.store.coh.msgs = c.msgs))) ∧
  ((∀ (s : State) (h : Holder),
      let n := s.store.coh.copies.length + s.store.nc.length + s.store.fetch.length
      let mine := s.store.coh.copies.filter fun x => x.holder = h
      (n ≤ capacity h → n ≤ capacity (.l2 (holderDie h)) → s.spillAt h = s) ∧
      (∀ x, capacity h < mine.length → (mine.filter fun x => !x.st.transient).getLast? = some x → s.spill h = s.replaceAt h x.sector)) ∧
    (∀ (c : Coh) (h : Holder) (k : Nat) (x : Copy), c.copyOf h k = some x →
      (((c.age h k).copies.filter fun x => x.holder = h).getLast?).map Copy.sector = some k) ∧
    (∀ (c : Coh) (d line v : Nat), c.victim d (c.fullSet d line) = some v →
      v ∈ c.lines d ∧ line ∉ c.lines d ∧ 16 ≤ (c.fullSet d line).length ∧ c.lineStable d v = true ∧
        Config.filterSet v % 8192 = Config.filterSet line % 8192))

/-! ### Contexts -/

/-- R360, R361, R363, R462: START, DESTROY and CREATE by their states: a context starts from Configured, is destroyed from
Configured or Frozen with every core freezing and every launch ended, and is created with its resources and its cores at group
start; a command that is not allowed, and CREATE and START in minimal mode, is refused and changes nothing else. R363: the scrub
of a context whose cores have all frozen and whose launches have their records: the context is Free, its cores and functions are
as at reset, its frames read zero and every other byte of memory is as before. What is the model's own choice in it: assumption
logs 43, 80. -/
def Obligations.Contexts : Prop :=
  (∀ (s : State),
      let n := s.mgmt.ctxSel.toNat
      let c := s.ctxAt n
      let refused (s : State) : State := { s with mgmt.ctxBusy := 0, mgmt.ctxRefused := true, mgmt.frzErr := true }
      (s.mgmt.ctxBusy = 2 →
        (s.held = false → c.st = .configured → exec .start s = .next { s with ctxs := smSet s.ctxs n { c with st := .running }, mgmt.ctxBusy := 0 }) ∧
        (s.held = true ∨ c.st ≠ .configured → exec .start s = .next (refused s))) ∧
      (s.mgmt.ctxBusy = 3 →
        (c.st = .configured ∨ c.st = .frozen → ∃ t, exec .destroy s = .next t ∧ (t.ctxAt n).st = .scrubbing ∧ t.store = s.store ∧
          (∀ k ∈ c.cores, (t.coreAt k).freezing = true ∧ (t.coreAt k).held = true) ∧ (∀ l ∈ t.launches, l.ctx = n → l.ended = true)) ∧
        (c.st = .free ∨ c.st = .running → exec .destroy s = .next (refused s))) ∧
      (∀ pa tl s1 bs s2, s.mgmt.ctxBusy = 1 →
        let m := s.focus s.mgmt.ctxFrom
        let va := m.core.sq.mtrap.scratch
        let u := s2.focus s.cur
        let r := CreateRec.ofBytes bs
        (s.held = true ∨ va.toNat % 64 ≠ 0 → exec .create s = .next (refused s)) ∧
        (s.held = false → va.toNat % 64 = 0 → m.translate m.sqAgent { read := true } va = .ok pa tl s1 → s1.hostBusy pa = true →
          exec .create s = .next (s1.focus s.cur)) ∧
        (s.held = false → va.toNat % 64 = 0 → m.translate m.sqAgent { read := true } va = .ok pa tl s1 → s1.hostBusy pa = false →
          s1.loadPhys (sqHolders s1.cur) .all tl pa 64 = (bs, s2) →
          (u.createOk r = false ∨ s1.marked (sqHolders s1.cur) tl pa 64 ≠ none → exec .create s = .next (refused u)) ∧
          (u.createOk r = true → s1.marked (sqHolders s1.cur) tl pa 64 = none → ∃ t, exec .create s = .next t ∧ t.mgmt.ctxBusy = 0 ∧ t.store = u.store ∧
            t.ctxAt r.ctx =
              { st := .configured, secure := r.world = 1, quads := r.quads, regions := r.regions, fns := r.fnList
                ptbase := ptbaseField r.ptbase, maxscope := t.policyScope r.ctx } ∧
            (∀ f ∈ r.fnList, (t.fnAt f).ctx = some r.ctx) ∧
            (∀ k, k < 256 → r.quads.getLsbD (k / 4) = true → let q := (t.coreAt k).sq
              q.ctxid = BitVec.ofNat 6 r.ctx ∧ q.maxscope = t.policyScope r.ctx ∧ q.run = .idle ∧ q.pc = 0 ∧ q.trap.status = { ie := true, priv := 0 } ∧
              (∀ e, ((t.coreAt k).eng e).q = []) ∧ (t.coreAt k).regs = Core.fresh.regs))))) ∧
  (∀ (s : State) (ctx : BitVec 6),
      let n := ctx.toNat
      let c := s.ctxAt n
      (c.st ≠ .scrubbing → exec (.scrubComplete ctx) s = .next s) ∧
      (∀ k ∈ c.cores, (s.coreAt k).frozen = false → exec (.scrubComplete ctx) s = .next s) ∧
      (c.st = .scrubbing → (∀ k ∈ c.cores, (s.coreAt k).frozen = true) → (∀ l ∈ s.launches, l.ctx ≠ n) → Memory.wf s.store.mem = true →
        ∃ t, exec (.scrubComplete ctx) s = .next t ∧ t.ctxAt n = {} ∧ (∀ k ∈ c.cores, t.coreAt k = Core.fresh) ∧
          (∀ f ∈ c.fns, (t.fnAt f).ctx = none) ∧
          (∀ q, q < 64 → c.quads.getLsbD q = true → (t.quadAt q).spad = [] ∧ (t.quadAt q).plmask = (t.quadAt q).avail) ∧
          (∀ a, memRead t.store.mem a = if inRegions c.regions a then 0 else memRead s.store.mem a)))

/-- R360, R362, R364, R366, R370, R373: FREEZE stops a core of a running or frozen context and keeps every register and queue of
it but MAXSCOPE, which takes the policies of its context, and a group that an LDT has reserved, which is given back; one that
freezes for a park already stays frozen after it; the core is frozen, with its stamp, once what it has issued has drained; RESUME
lets it run again, and the context runs once no core is frozen. R9, R366, R367, R372, R375: SNAPDATA reads the frozen core's dword
and advances OFFSET, a write stands until RESTORE; part 0 holds the pc and x1 to x31; RESTORE is refused for a core that is not
frozen, and otherwise gives the core the registers of the parts, with the reserved bits of a view 0. What is the model's own
choice in it: assumption logs 41, 42, 62, 84. -/
def Obligations.FreezeAndSnapshot : Prop :=
  (∀ (s : State) (core : BitVec 8) (k : Nat),
      let n := core.toNat
      let c := s.coreAt n
      let x := s.ctxAt k
      (s.ownerOf n = none → exec (.freeze core) s = .next { s with mgmt.frzErr := true } ∧ exec (.resume core) s = .next { s with mgmt.frzErr := true }) ∧
      (s.ownerOf n = some k → c.held = false → c.sq.run ≠ .doubleTrap → x.st = .running ∨ x.st = .frozen →
        ∃ t, exec (.freeze core) s = .next t ∧ (t.coreAt n).held = true ∧ (t.ctxAt k).st = .frozen ∧ t.store = s.store ∧
          (c.freezing = true → t.coreAt n = { c with held := true }) ∧
          (c.freezing = false → (t.coreAt n).freezing = true ∧ (t.coreAt n).sq.maxscope = s.policyScope k ∧ (t.coreAt n).sq.x = c.sq.x ∧
            (t.coreAt n).sq.pc = c.sq.pc ∧ (t.coreAt n).sq.trap = c.sq.trap ∧ (t.coreAt n).regs = c.giveBack.regs ∧ (t.coreAt n).tok = c.tok ∧
            (t.coreAt n).outq = c.outq ∧ ∀ e, ((t.coreAt n).eng e).q = (c.eng e).q ∧ ((t.coreAt n).eng e).pos = (c.eng e).pos)) ∧
      (s.ownerOf n = some k → c.held = true ∨ c.sq.run = .doubleTrap → exec (.freeze core) s = .next s) ∧
      (s.ownerOf n = some k → c.held = false → c.sq.run ≠ .doubleTrap → x.st ≠ .running → x.st ≠ .frozen →
        exec (.freeze core) s = .next { s with mgmt.frzErr := true }) ∧
      (c.freezing = true → c.frozen = false →
        (s.drainedCore n = false → exec (.freezeComplete core) s = .next s) ∧
        (s.drainedCore n = true → exec (.freezeComplete core) s = .next (s.setCoreAt n
          { c with frozen := true, stamp := BitVec.ofNat 64 (n * 2 ^ 56 + s.time.toNat % 2 ^ 56) }))) ∧
      (s.ownerOf n = some k → x.st = .frozen → c.frozen = true → c.held = true → c.sq.run ≠ .doubleTrap →
        ∃ t, exec (.resume core) s = .next t ∧ t.store = s.store ∧
          (s.parks n = false → t.coreAt n = { c with freezing := false, frozen := false, held := false }) ∧
          (s.parks n = true → t.coreAt n = { c with held := false }) ∧
          ((∀ j ∈ x.cores, j ≠ n → (s.coreAt j).held = false ∧ (s.coreAt j).sq.run ≠ .doubleTrap) → (t.ctxAt k).st = .running)) ∧
      (s.ownerOf n = some k → x.st = .frozen ∨ x.st = .running → c.frozen = false ∨ c.held = false ∨ c.sq.run = .doubleTrap →
        exec (.resume core) s = .next s)) ∧
  (∀ (s : State) (core : BitVec 8) (mgr : BitVec 2) (v : Word),
      let n := core.toNat
      let sec := s.mgmt.secureCores.getLsbD mgr.toNat
      let sel := s.mgmt.snapCore.toNat
      let next (ok : Bool) (s : State) : State := { s with mgmt.snapOff := s.mgmt.snapOff + 8, mgmt.frzErr := s.mgmt.frzErr || !ok }
      (s.snapAllowed sec = true →
        exec (.snapdataAccess mgr none) s = .next (State.emit (next true s)
          (.data (leBytes 8 (s.snapDword sel s.mgmt.snapPart.toNat (s.mgmt.snapOff.toNat / 8 * 8)).toNat))) ∧
        ∃ t, exec (.snapdataAccess mgr (some v)) s = .next t ∧ t.mgmt.snapOff = s.mgmt.snapOff + 8 ∧ t.core = s.core ∧ t.store = s.store ∧
          smFind t.mgmt.snapstage (stageKey sel s.mgmt.snapPart.toNat s.mgmt.snapOff.toNat) = some v) ∧
      (s.snapAllowed sec = false →
        exec (.snapdataAccess mgr none) s = .next (State.emit (next false s) (.data (leBytes 8 0))) ∧
        exec (.snapdataAccess mgr (some v)) s = .next (next false s)) ∧
      ((∀ p off, smFind s.mgmt.snapstage (stageKey n p off) = none) →
        s.snapDword n 0 0x40 = (s.coreAt n).sq.pc ∧
        ∀ k : BitVec 5, k ≠ 0 → s.snapDword n 0 (0x48 + 8 * (k.toNat - 1)) = vget (s.coreAt n).sq.x k) ∧
      ((s.coreAt n).frozen = false → exec (.restore core mgr) s = .next { s with mgmt.frzErr := true }) ∧
      (∀ k held s1 hosts s2,
        let old := s.coreAt n
        let m (p : Nat) : Image := fun off => s.snapDword n p off
        let c := old.ofParts (m 0) (m 1) (m 2)
        let same : Bool := m 1 8 = m 2 8
        let c' := { c with
          regs := (if same then c.regs else c.regs.rebind), counts.tintStamp := (if same then m 1 8 else m 1 8 ^^^ (1#64 <<< 63)), stamp := m 0 8 }
        s.ownerOf n = some k → old.frozen = true → headerOk (m 0) 0 old.sq.ctxid = true → headerOk (m 1) 1 old.sq.ctxid = true →
        headerOk (m 2) 2 old.sq.ctxid = true → c.fieldsOk (sec && (s.ctxAt k).secure) = true → (m 0).hostingOk = true → (s.setCoreAt n c).stageOk n = true →
        State.reholdAll c'.sq.spec.held ((s.setCoreAt n c').focus n) = some (held, s1) → State.rehostAll c'.hosting s1 = (hosts, s2) →
        exec (.restore core mgr) s =
          .next ((State.focus { s2 with core.sq.spec.held := held, core.hosting := hosts } s.cur).dropStage n) ∧
        c'.sq.pc = m 0 0x40 &&& ~~~1#64 ∧ (∀ k : BitVec 5, k ≠ 0 → vget c'.sq.x k = m 0 (0x48 + 8 * (k.toNat - 1))) ∧
        ∀ k : BitVec 3, vget c'.regs.view k = (m 0 (0xB88 + 16 * k.toNat) &&& 0x3FF#64) ++ (m 0 (0xB80 + 16 * k.toNat) &&& 0x03FF03FF03FFFF1F#64)))

/-! ### Graphs, launches and groups -/

/-- R363, R378 to R381, R475, R476: a write of GRAPHADDR registers an image that passes the checks, or BAD_GRAPH or BUSY; a write
of TRIGGER starts a launch with its tag, or BAD_GRAPH, BUSY or BAD_PATCH, and one of a context that is destroyed ends as
destroyed; a host write of the launch page writes PATCHADDR, APBASE or bytes of the share, and a read answers with LSTATUS,
PATCHADDR or APBASE; any other access to the registers is unsupported, as is every access but a read of BOOTCAUSE while the
package is held. R383: a launch that is over stores its record of 32 bytes where the record's address translates, or loses it with
RECORD_LOST; then the function's vector is raised and the launch is gone. What is the model's own choice in it: assumption logs
45, 75. -/
def Obligations.Launches : Prop :=
  (∀ (s : State) (fn : BitVec 6) (v : Word) (off n : Nat) (data : List Byte) (k : Nat),
      let f := s.fnAt fn.toNat
      let c := s.ctxAt k
      let tag : BitVec 32 := bits v.toNat 32 32
      let code (n : BitVec 8) (t : State) : Prop := (t.fnAt fn.toNat).code = n
      let unsupported : State := s.emit (.hostUnsupported fn.toNat)
      let answers (o m : Nat) (bs : List Byte) : Prop := exec (.launchRegisterWrite fn o (.read m)) s = .next (s.emit (.hostData fn.toNat bs false))
      (s.held = true → exec (.graphaddrWrite fn v) s = .next unsupported ∧ exec (.triggerWrite fn v) s = .next unsupported ∧
        (fn ≠ 0 ∨ off < 0x800 ∨ 0x808 < off + data.length ∨ s.mgmt.minimal = false →
          exec (.launchRegisterWrite fn off (.write data)) s = .next unsupported) ∧
        (s.store.posted = [] → (fn ≠ 0 ∨ off < 0x800 ∨ 0x808 < off + n ∨ s.mgmt.minimal = false →
            exec (.launchRegisterWrite fn off (.read n)) s = .next unsupported) ∧
          (fn = 0 → s.mgmt.minimal = true → answers 0x800 8 (leBytes 8 s.bootcause.toNat)))) ∧
      (s.held = false → off < 0x28 → data.length ≠ 8 ∨ off % 8 ≠ 0 → exec (.launchRegisterWrite fn off (.write data)) s = .next unsupported) ∧
      (s.held = false → s.store.posted = [] →
        (off < 0x28 → n ≠ 8 ∨ off % 8 ≠ 0 → exec (.launchRegisterWrite fn off (.read n)) s = .next unsupported) ∧
        answers 0 8 (leBytes 8 f.patch.toNat) ∧ answers 0x10 8 (leBytes 8 f.lstatus.toNat) ∧ answers 0x20 8 (leBytes 8 f.apbase.toNat)) ∧
      (s.held = false → f.ctx = some k →
        (s.graphAt f c (seg v.toNat 0 24) = none →
          ∃ t, exec (.graphaddrWrite fn v) s = .next t ∧ code 0x11 t ∧ (t.ctxAt k).graphs = c.graphs) ∧
        (∀ g, s.graphAt f c (seg v.toNat 0 24) = some g →
          ((∃ l ∈ s.launches, l.ctx = k ∧ l.graph.id = g.id) →
            ∃ t, exec (.graphaddrWrite fn v) s = .next t ∧ code 0x13 t ∧ (t.ctxAt k).graphs = c.graphs) ∧
          ((∀ l ∈ s.launches, ¬(l.ctx = k ∧ l.graph.id = g.id)) →
            ∃ t, exec (.graphaddrWrite fn v) s = .next t ∧ code 0x02 t ∧ (t.ctxAt k).graphs = g :: c.graphs.filter fun h => h.id ≠ g.id)) ∧
        (let known := c.graphs.find? fun g => g.id = seg v.toNat 0 8
         let patches := seg v.toNat 8 16
         let room := (s.launches.filter fun l => l.ctx = k).length < 16
         let refused (n : BitVec 8) : Prop :=
          ∃ t, exec (.triggerWrite fn v) s = .next t ∧ code n t ∧ (t.fnAt fn.toNat).tag = tag ∧ t.launches = s.launches
         (known = none → refused 0x11) ∧
         (∀ g, known = some g →
          (¬room → refused 0x13) ∧
          (room → 1024 < patches ∨ f.patch.toNat % 16 ≠ 0 ∨ s.applyPatches f f.patch.toNat g.nodes.length (List.range patches) g.nodes = none →
            refused 0x12) ∧
          (∀ nodes, room → patches ≤ 1024 → f.patch.toNat % 16 = 0 → (∀ l ∈ s.launches, l.id < s.ids) →
            s.applyPatches f f.patch.toNat g.nodes.length (List.range patches) g.nodes = some nodes →
            ∃ t, exec (.triggerWrite fn v) s = .next t ∧ code 0x01 t ∧ (t.fnAt fn.toNat).tag = tag ∧
              (∃ l ∈ t.launches, l.id = s.ids) ∧
              ∀ l ∈ t.launches, l.id = s.ids → l.fn = fn.toNat ∧ l.ctx = k ∧ l.tag = tag ∧ l.graph = { g with nodes := nodes } ∧
                (c.st = .scrubbing → l.ended = true ∧ l.status = 0x21))))) ∧
      (s.held = false →
        (data.length = 8 →
          (∃ t, exec (.launchRegisterWrite fn 0 (.write data)) s = .next t ∧ (t.fnAt fn.toNat).patch = BitVec.ofNat 64 (leNat data % 2 ^ 24)) ∧
          (∃ t, exec (.launchRegisterWrite fn 0x20 (.write data)) s = .next t ∧
            (t.fnAt fn.toNat).apbase = BitVec.ofNat 64 (leNat data / 2 ^ 16 % 2 ^ 40 * 2 ^ 16))) ∧
        (Memory.wf s.store.sched = true → 0x1000 ≤ off → off + data.length ≤ 0x1000 + f.shareSize → off + data.length ≤ 2 ^ 25 →
          ∃ t, exec (.launchRegisterWrite fn off (.write data)) s = .next t ∧
            let a := f.shbase.toNat * 65536 + (off - 0x1000)
            ∀ x, memRead t.store.sched x = if a ≤ x ∧ x < a + data.length then data.getD (x - a) 0 else memRead s.store.sched x))) ∧
  (∀ (s s1 : State) (id : Nat) (l : Launch) (pa : Nat) (t : Tlb), s.launches.find? (fun x => x.id = id) = some l → l.id = id →
      (l.raising = false → s.launchOver l = false → exec (.launchEnd id) s = .next s) ∧
      (l.raising = false → s.launchOver l = true → s.store.posted = [] → s.walkOnce l.ctx l.graph.record = .ok pa t s1 →
        t.nc = false → isHost pa = false → inDevice pa = false → (∀ c ∈ s1.store.nc, c.sector ∉ sectorsOf pa 32) → Memory.wf s1.store.mem = true → s1.launches = s.launches →
        ∃ u, exec (.launchEnd id) s = .next u ∧ (∀ m ∈ u.launches, m.id = id → m.raising = true) ∧
          ∀ a, memRead u.store.mem a = if pa ≤ a ∧ a < pa + 32 then (s.recordOf l).getD (a - pa) 0 else memRead s1.store.mem a) ∧
      (∀ c, l.raising = false → s.launchOver l = true → s.store.posted = [] → s.walkOnce l.ctx l.graph.record = .fault c s1 →
        s1.launches = s.launches → ∃ u, exec (.launchEnd id) s = .next u ∧ (u.fnAt l.fn).code = 0x15 ∧ (u.fnAt l.fn).tag = l.tag ∧
          ∀ m ∈ u.launches, m.id = id → m.raising = true) ∧
      (∀ a p, l.raising = true → l.recAt = some a → p ∈ s.store.posted → p.1 = a → exec (.completionInterrupt id) s = .next s) ∧
      (l.raising = true → (∀ a, l.recAt = some a → ∀ p ∈ s.store.posted, p.1 ≠ a) → ∃ u, exec (.completionInterrupt id) s = .next u ∧
        u.irqs = s.irqs ++ [(l.fn, l.graph.vector)] ∧ (∀ m ∈ u.launches, m.id ≠ id) ∧ u.store = s.store ∧ u.core = s.core))

/-- R385, R386, R387, R481: the first waiting group that fits is placed on its set, and a group that starts finds each of its
cores in the group-start state: pc at CODE, x1 the exit address, x10 to x13 the parameters, x14 the index, interrupts enabled, at
S only if the node says so. One that does not fit parks running groups of its context and of lower priority, none of them with a
frozen core, and where the departure of all of those does not make room it parks none (the model's choice, assumption log 82).
R387: a group's quantum ends after 1,200,000 cycles: it parks, its cores freezing, where a waiting group of its priority fits its
set, which that group is then next to take (the model's choice, assumption log 82), and otherwise a new quantum begins. R393,
R400, R482, R484: a core whose pc is its exit address has exited once its queues hold no entry; the group of a core that a double
trap stopped runs on until all that the core had issued has performed, then the core is saved and the group fails, its cores
running nothing, its barriers discarded, its launch ended as GROUP_FAILED, and the other packages of a pod job told. What is the
model's own choice in it: assumption logs 10, 44, 53, 82. -/
def Obligations.Groups : Prop :=
  ((∀ (s : State) (g : Grp), s.held = false → (∀ h ∈ s.groups, h.st ≠ .parking ∧ h.st ≠ .ended) → s.waitingGroups = [g] →
      s.findSet g s.coreFree = none → s.findSet g (s.coreSoon []) = none →
      (State.victims g s.groups.length s [] = none → exec .groupPlace s = .next s) ∧
      ∀ vs f b, State.victims g s.groups.length s [] = some (vs, f, b) → exec .groupPlace s = .next (vs.foldl State.beginPark s) ∧
        ∀ v ∈ vs, v ∈ s.groups ∧ v.ctx = g.ctx ∧ v.st = .running ∧ v.prio < g.prio ∧ ∀ n ∈ v.cores, (s.coreAt n).freezing = false) ∧
    ∀ (s : State) (g : Grp) (rest : List Grp) (first : Nat) (bases : SMap Nat) (l : Launch) (n : Node),
      s.held = false → (∀ h ∈ s.groups, h.st ≠ .parking ∧ h.st ≠ .ended) → s.waitingGroups = g :: rest → g.st = .ready →
      s.findSet g s.coreFree = some (first, bases) → s.launches.find? (fun x => x.id = g.launch) = some l → l.graph.nodes[g.node]? = some n →
      ∃ t, exec .groupPlace s = .next t ∧
        (∀ h ∈ t.groups, h.id = g.id → h.st = .running ∧ h.first = first ∧ h.bases = bases) ∧
        ∀ rank, rank < 4 ^ g.size → let c := t.coreAt (first + rank)
          c.sq.pc = n.code ∧ c.sq.exitAddr.getLsbD 0 = false ∧ c.sq.run = .running ∧ c.sq.ctxid = BitVec.ofNat 6 g.ctx ∧
          c.sq.trap.status = { ie := true, priv := if n.supr then 1 else 0 } ∧ c.counts.groupinfo = g.info n.count rank ∧
          (∀ e, (c.eng e).q = [] ∧ (c.eng e).st = .idle) ∧ c.regs = Core.fresh.regs ∧
          ∀ k : BitVec 5, vget c.sq.x k = if k = 1 then c.sq.exitAddr else if k = 14 then BitVec.ofNat 64 g.index
            else if 10 ≤ k.toNat ∧ k.toNat < 14 then n.params.getD (k.toNat - 10) 0 else 0) ∧
  (∀ (s : State) (id : Nat) (g : Grp), s.groups.find? (fun g => g.id = id && g.st = .running) = some g →
      let without : State := { s with groups := s.groups.filter fun (h : Grp) => h.id ≠ id }
      let rival := s.waitingGroups.find? fun h => h.ctx = g.ctx && h.prio = g.prio &&
        (without.findSet h fun n => g.has n && without.coreSoon [] n).isSome
      (s.time.toNat < g.quantum.toNat + 1200000 → exec (.quantumExpiry id) s = .next s) ∧
      (g.quantum.toNat + 1200000 ≤ s.time.toNat → (∀ n ∈ g.cores, (s.coreAt n).freezing = false) →
        (rival = none → exec (.quantumExpiry id) s = .next (s.setGroup { g with quantum := s.time })) ∧
        (∀ r, rival = some r → r.id ≠ g.id → ∃ t, exec (.quantumExpiry id) s = .next t ∧ t.store = s.store ∧
          (∀ n ∈ g.cores, (t.coreAt n).freezing = true) ∧ (∀ h ∈ t.groups, h.id = g.id → h.st = .parking) ∧
          ∀ h ∈ t.groups, h.id = r.id → h.next = true))) ∧
  (∀ (s : State) (core : BitVec 8) (g : Grp),
      (s.core.sq.pc ≠ s.core.sq.exitAddr → exec .coreExit s = .next s) ∧
      (s.cur < 256 → s.core.sq.run = .running → s.core.halted = false → s.core.sq.pc = s.core.sq.exitAddr → s.core.sq.spec.act = false →
        ((∀ e, (s.eng e).q = [] ∧ (s.eng e).waiters = []) → s.groupOf s.cur = none →
          exec .coreExit s = .next { s with core.sq.run := .exited }) ∧
        ((∀ e, (s.eng e).q = [] ∧ (s.eng e).waiters = []) → s.groupOf s.cur = some g →
          exec .coreExit s = .next ((State.leaveBarriers { s with core.sq.run := .exited } g (s.cur - g.first)).groupProgress g)) ∧
        ((∃ e x, .entry x ∈ (s.eng e).q) → exec .coreExit s = .next (s.waitOn engines))) ∧
      (∀ l, s.groups.find? (fun g => g.holds && g.has core.toNat) = some g → (s.coreAt core.toNat).sq.run = .doubleTrap →
        (s.drainedCore core.toNat = false → exec (.groupFail core) s = .next s) ∧
        (s.drainedCore core.toNat = true → s.launches.find? (fun l => l.id = g.launch) = some l → l.ended = false →
          ∃ t, exec (.groupFail core) s = .next t ∧ t.store = s.store ∧
            (∀ n ∈ g.cores, (t.coreAt n).sq.run = .failed ∧ (t.coreAt n).freezing = (s.coreAt n).held) ∧
            (∀ h ∈ t.groups, h.id = g.id → h.st = .ended ∧ h.barriers = []) ∧
            t.out = s.out ++ (if some g.ctx = s.mgmt.podCtx ∧ s.mgmt.barpod ≠ 1 then [.podFailed g.id] else []) ∧ smFind t.saves core.toNat = some (s.coreAt core.toNat) ∧
            ∀ m ∈ t.launches, m.id = l.id → m.ended = true ∧ m.status = 0x20 ∧ m.node = BitVec.ofNat 16 g.node)))

/-! ### The link, remote accesses and the host -/

/-- R441, R443, R462, R469: a port moves between its states by the manager's start and stop, a lane failure and the end of
training, and no port starts while the links are held; the third failed training retires it with MEVENT bit 2; a word in flight
toward a device that can no longer be reached stops with QUEUE_TARGET. What goes out again on another port changes the SEQs and
the kept flits alone. R442: a port that carries traffic takes the flit it expects, keeps what the flit brings this device,
discards every other, and answers a bad flit with a replay request that names the SEQ it expects; a replay request that a received
flit carries has the kept flits sent again from its SEQ on, and the sixteenth replay of a flit makes the port train. What is the
model's own choice in it: assumption logs 49, 71. -/
def Obligations.Links : Prop :=
  (∀ (s : State) (port : BitVec 4) (lanes : BitVec 3) (peer : BitVec 10),
      let k := port.toNat
      let p := s.port k
      let line (q : Port) : Port := { q with next := 0, kept := [] }
      (s.fitted k = false → exec (.linkStart port) s = .next s ∧ exec (.linkStop port) s = .next s ∧ exec (.laneFailure port) s = .next s) ∧
      (s.held = true → exec (.linkStart port) s = .next s) ∧
      (s.fitted k = true →
        (s.held = false → ∃ t, exec (.linkStart port) s = .next t ∧
          line (t.port k) = line (if p.st = .down then { p with st := .train, failures := 0 } else p)) ∧
        (∃ t, exec (.linkStop port) s = .next t ∧ line (t.port k) = line (if p.st = .retired then p else { p with st := .down })) ∧
        (∃ t, exec (.laneFailure port) s = .next t ∧
          line (t.port k) = line (if p.st = .up ∨ p.st = .degraded then { p with st := .train } else p)) ∧
        (∃ t, exec (.trainComplete port lanes peer) s = .next t ∧ (∀ j, j ≠ k → line (t.port j) = line (s.port j)) ∧
          (p.st ≠ .train → line (t.port k) = line p) ∧
          (p.st = .train → lanes = 4 → (t.port k).st = .up ∧ (t.port k).peer = peer) ∧
          (p.st = .train → lanes = 2 ∨ lanes = 3 → (t.port k).st = .degraded ∧ (t.port k).peer = peer) ∧
          (p.st = .train → lanes = 0 ∨ lanes = 1 → p.failures ≠ 2 → (t.port k).st = .train ∧ (t.port k).failures = p.failures + 1) ∧
          (p.st = .train → lanes = 0 ∨ lanes = 1 → p.failures = 2 → (t.port k).st = .retired ∧ t.mgmt.mevent = s.mgmt.mevent ||| 4)) ∧
        (∀ r, s.core.remote = some r → smFind s.mgmt.route r.dev.toNat = some [k] → (r.dev.toNat, [k]) ∈ s.mgmt.route → p.st = .up →
          ∃ t, exec (.linkStop port) s = .next t ∧ t.core.remote = none ∧ t.core.xe.st = .stopped ∧ t.core.xe.efCode = Cause.queueTarget.code ∧
            t.core.xe.efAddr = zext64 r.dev ∧ t.core.sq.x = s.core.sq.x ∧ t.core.sq.pc = s.core.sq.pc))) ∧
  (∀ (s : State) (port : BitVec 4) (bs : List Byte) (n : Nat) (seq : BitVec 12),
      let k := port.toNat
      let p := s.port k
      let p' := { p with feccorr := sat16 p.feccorr n }
      let rx (q : Port) : State := s.setPort k q
      let asks (x : Taken) : Bool := x.kind = 7 && x.payload = (replayCargo seq.toNat).payload
      s.fitted k = true →
      (p.taken.any asks = false → exec (.replayRequest port seq) s = .next s) ∧
      (p.st ≠ .up → p.st ≠ .degraded → exec (.flitReceive port bs n) s = .next s ∧
        (p.taken.any asks = true → exec (.replayRequest port seq) s = .next (rx { p with taken := p.taken.eraseP asks }))) ∧
      (p.st = .up ∨ p.st = .degraded →
        (flitGood bs = true → flitSeq bs = p.expect → exec (.flitReceive port bs n) s = .next (rx { p' with
          expect := (p.expect + 1) % 4096, taken := p.taken ++ flitTaken s.mgmt.device.toNat bs })) ∧
        (flitGood bs = true → flitSeq bs ≠ p.expect → exec (.flitReceive port bs n) s = .next (rx p')) ∧
        (flitGood bs = false →
          let payload := (replayCargo p.expect).payload
          ∃ t, exec (.flitReceive port bs n) s = .next t ∧ (t.port k).expect = p.expect ∧ (t.port k).taken = p.taken ∧
            (t.port k).feccorr = p'.feccorr ∧ t.core = s.core ∧ t.store = s.store ∧
            t.out = s.out ++ [.flit k p.next (flitBytes p.peer.toNat s.mgmt.device.toNat 0 7 p.next 0 payload.length 0 payload)]) ∧
        (p.taken.any asks = true →
         let again := p.kept.dropWhile fun f => f.seq ≠ seq.toNat
         ∃ t more, exec (.replayRequest port seq) s = .next t ∧ t.out = s.out ++ again.map (fun f => .flit k f.seq f.data) ++ more ∧
          (t.port k).replay = sat16 p.replay again.length ∧ (t.port k).taken = p.taken.eraseP asks ∧ t.store = s.store ∧
          ((∃ f ∈ again, 15 ≤ f.replays) → (t.port k).st = .train) ∧
          ((∀ f ∈ again, f.replays < 15) → (t.port k).st = p.st ∧ more = []))))

/-- R295, R383: the oldest posted write reaches host memory, whole; where the link reports an error for a completion record, the
record is lost: LSTATUS says RECORD_LOST. R355, R394, R400, R433 to R438, R442: what a received flit carries takes effect once,
when the event says what the header and the payload say. An access performs at its home as an access of the pod job's context,
unit by unit, and is answered under its tag and its class; without a context, or at a fault, the answer names the cause; one that
parks, or stands behind posted writes to the host, keeps what it has done; a misaligned reduction or signal has no effect. The
news about a pod barrier trips it where every local member has arrived, in whichever state the group is, and else stays with it; a
group that failed elsewhere aborts the pod barriers of the group here. R434, R436, R442: the answer of the target, under the tag
of the XE's remote access and as the received flit carries it, ends the unit of it: the bytes count as done, or the word stops
with the cause at the byte that faulted. R295, R299, R300, R474 to R477: a host access through the memory aperture: its units
translate with the context's tables; a read returns the bytes or Completer Abort, and waits behind the posted writes; a write
performs the units that are accepted, and a refused unit leaves APERTURE_FAULT in LSTATUS; FetchAdd, Swap and CAS answer with the
old value and write the new one; an unbound function, a machine that is held and an offset past the window are Unsupported
Requests, and so is a misaligned AtomicOp. R402, R432, R443: the manager binds the pod job: the device number, the context, the
routes, the devices on which a context is bound and, from 1 to 1,024, the number of packages in BARPOD. A remote access in flight
toward a device whose ports the new routes leave DOWN or RETIRED stops with QUEUE_TARGET. What is the model's own choice in it:
assumption logs 18, 37, 49, 73, 83. -/
def Obligations.Outside : Prop :=
  (∀ (s : State) (ok : Bool) (a : Nat) (bs : List Byte) (rest : List (Nat × List Byte)),
      (s.store.posted = [] → exec (.hostLinkCompletion ok) s = .next s) ∧
      (s.store.posted = (a, bs) :: rest →
        (Memory.wf s.store.host = true → ∃ t, exec (.hostLinkCompletion true) s = .next t ∧ t.store.posted = rest ∧
          t.store.mem = s.store.mem ∧ t.core = s.core ∧
          ∀ x, memRead t.store.host x = if a ≤ x ∧ x < a + bs.length then bs.getD (x - a) 0 else memRead s.store.host x) ∧
        (∃ t, exec (.hostLinkCompletion false) s = .next t ∧ t.store.posted = rest ∧ t.store.host = s.store.host ∧ t.core = s.core ∧
          ∀ l, s.launches.find? (fun l => l.raising && l.recAt = some a) = some l →
            (t.fnAt l.fn).code = 0x15 ∧ (t.fnAt l.fn).tag = l.tag))) ∧
  (∀ (s s1 : State) (dev : BitVec 10) (core : BitVec 8) (port : BitVec 4) (seq : BitVec 12) (tag : BitVec 8) (cls : BitVec 4) (va v : Word)
        (data d : List Byte) (n m ctx : Nat) (op : BitVec 3) (id : BitVec 5) (c : Cause) (l : Option Nat) (g : Grp) (sec : Bool),
      let p := s.port port.toNat
      let go (r : RemoteReq) : Out := exec (.remoteAccess dev core ⟨port, seq, tag, cls, r⟩) s
      let x (r : RemoteReq) : Taken :=
        let f := requestCargo r core ⟨port, seq, tag, cls, r⟩
        { seq := seq.toNat, src := dev.toNat, core := f.core, kind := f.kind, cls := f.cls, tag := f.tag, payload := f.payload }
      let u (r : RemoteReq) : State := s.setPort port.toNat { p with taken := p.taken.erase (x r) }
      let answer (kind op len : Nat) (d : List Byte) (e : Emit) (s : State) : Out :=
        .next ((s.sendAnswer { dev := dev.toNat, cargo :=
          { core := core.toNat, kind := kind, cls := cls.toNat, tag := tag.toNat, va := va, op := op, len := len, data := d } }).emit e)
      let reqs : List (RemoteReq × RemKind × Nat × List Byte) :=
        [(.write va data, .put, data.length, data), (.read va n, .get, n, []), (.reduce op va data, .red op, data.length, data),
         (.signal va v, .sig, 8, leBytes 8 v.toNat)]
      (∀ r, x r ∉ p.taken → go r = .next s) ∧
      (x (.signal va v) ∈ p.taken → va.toNat % 8 ≠ 0 → go (.signal va v) = .next (u (.signal va v))) ∧
      (x (.reduce op va data) ∈ p.taken → va.toNat % 4 ≠ 0 ∨ data.length % 4 ≠ 0 → go (.reduce op va data) = .next (u (.reduce op va data))) ∧
      (va.toNat % 8 = 0 → data.length % 4 = 0 → ∀ r ∈ reqs, x r.1 ∈ p.taken →
        let t := (u r.1).answered dev.toNat core.toNat
        let loop := State.arriveLoop ctx (s.portSecure port.toNat) r.2.1 va r.2.2.1 r.2.2.2 (r.2.2.1 + 1) 0 [] t
        (s.mgmt.podCtx = none → go r.1 = answer 8 Cause.queueTarget.code.toNat 0 [] (.remoteFault dev.toNat core.toNat .queueTarget 0) t) ∧
        (s.mgmt.podCtx = some ctx →
          (loop = .ok d s1 → go r.1 = answer (if r.2.1 = .get then 3 else 6) 0 d.length d (.remoteDone dev.toNat core.toNat d) s1) ∧
          (loop = .fault c m s1 → go r.1 = answer 8 c.code.toNat m [] (.remoteFault dev.toNat core.toNat c m) s1) ∧
          (loop = .stand l m d s1 →
            go r.1 = .next { s1 with mgmt.arrivals := s1.mgmt.arrivals ++ [{
              dev := dev.toNat, core := core.toNat, tag := tag, cls := cls, kind := r.2.1, va := va, len := r.2.2.1, data := r.2.2.2,
              port := port.toNat, parked := l, done := m, got := d }] }))) ∧
      (s.groups.find? (fun g => g.id = n && g.st ≠ .ended) = some g → x (.podTrip n id) ∈ p.taken →
        let b := smGet g.barriers (barKey 5 0 id.toNat) {}
        ∃ t, go (.podTrip n id) = .next t ∧
          ∀ h ∈ t.groups, h.id = g.id → smGet h.barriers (barKey 5 0 id.toNat) {} = if b.full then b.trip false else { b with others := true }) ∧
      (x (.podAbort n) ∈ p.taken → ∃ t, go (.podAbort n) = .next t ∧ t.core = s.core ∧
        t.groups = s.groups.map fun g => if g.id = n && g.st ≠ .ended then g.abortPod else g) ∧
      (∀ pa t, let s2 := s1.shareFrames pa data.length
        data.length ≠ 0 → va.toNat % 64 + data.length ≤ 64 → isHost pa = false → inDevice pa = false → t.nc = false →
        (s.outTranslate .remote ctx sec { write := true } va = .ok pa t s1 → (∀ x ∈ s2.store.nc, x.sector ∉ sectorsOf pa data.length) →
          Memory.wf s2.store.mem = true →
          ∃ u, State.arriveLoop ctx sec .put va data.length data (data.length + 1) 0 [] s = .ok [] u ∧
            ∀ x, memRead u.store.mem x = if pa ≤ x ∧ x < pa + data.length then data.getD (x - pa) 0 else memRead s2.store.mem x) ∧
        (s.outTranslate .remote ctx sec { read := true } va = .ok pa t s1 → s2.marked [] t pa data.length = none →
          ∃ u, State.arriveLoop ctx sec .get va data.length [] (data.length + 1) 0 [] s =
            .ok ((List.range data.length).map fun k => memRead s2.store.mem (pa + k)) u))) ∧
  (∀ (s : State) (port : BitVec 4) (seq : BitVec 12) (tag : BitVec 8) (r : Remote) (code : BitVec 8) (count : Nat) (c : Cause),
      let p := s.port port.toNat
      let go (a : RemoteAns) : Out := exec (.remoteAck ⟨port, seq, tag, a⟩) s
      let x (a : RemoteAns) : Taken :=
        let f := answerCargo a r s.cur
        { seq := seq.toNat, src := r.dev.toNat, core := f.core, kind := f.kind, cls := f.cls, tag := f.tag, payload := f.payload }
      let s' (a : RemoteAns) : State :=
        { s.setPort port.toNat { p with taken := p.taken.erase (x a) } with core.remote := none, actor := .xe }
      (s.core.remote = none → ∀ a, go a = .next s) ∧
      (s.core.remote = some r →
        (tag ≠ r.tag → ∀ a, go a = .next s) ∧
        (tag = r.tag →
          (∀ a, x a ∉ p.taken → go a = .next s) ∧
          (x (.done []) ∈ p.taken → r.kind ≠ .get → ∃ t, go (.done []) = .next t ∧ t.core.remote = none ∧
            (t.core.xe.part.getD {}).count = (s.core.xe.part.getD {}).count + r.len ∧ t.store = s.store) ∧
          (∀ data, x (.done data) ∈ p.taken → r.kind = .get → data.length = r.len → go (.done data) =
            storeLocal r.loc (s' (.done data)).doneBytes data (s' (.done data)) fun s => .next (s.keep ((s' (.done data)).doneBytes + r.len) [])) ∧
          (x (.fault code count) ∈ p.taken → answerCause code = some c → ∃ t, go (.fault code count) = .next t ∧ t.core.remote = none ∧
            t.core.xe.st = .stopped ∧ t.core.xe.efCode = c.code ∧
            t.core.xe.efAddr = (if c = .queueTarget then zext64 r.dev else r.va + BitVec.ofNat 64 count) ∧
            t.core.sq.pending.getLsbD 5 = true ∧ t.store = s.store)))) ∧
  (∀ (s s1 : State) (fn : BitVec 6) (off n k : Nat) (data bs : List Byte) (bad wide : Bool) (op : HostAtomic) (v : Word),
      let f := s.fnAt fn.toNat
      let unsupported : Out := .next (s.emit (.hostUnsupported fn.toNat))
      let va := f.apertureAt off
      let read (n : Nat) : Out := exec (.apertureRead fn off n) s
      let write : Out := exec (.apertureWrite fn off (.write data)) s
      let atomic : Out := exec (.apertureWrite fn off (.atomic op wide v)) s
      let w := if wide then 8 else 4
      (f.ctx = none ∨ s.held = true → read n = unsupported ∧ write = unsupported ∧ atomic = unsupported) ∧
      (2 ^ 36 < off + n → read n = unsupported) ∧ (2 ^ 36 < off + data.length → write = unsupported) ∧ (2 ^ 36 < off + w → atomic = unsupported) ∧
      (f.ctx = some k → s.held = false →
        (off + n ≤ 2 ^ 36 → s.store.posted ≠ [] → read n =
          .next { s with schedule := s.schedule ++ [.due s.cur .hostLinkCompletion, .due s.cur (.apertureRead fn off n)] }) ∧
        (off + w ≤ 2 ^ 36 → s.store.posted ≠ [] → atomic = .next { s with
          schedule := s.schedule ++ [.due s.cur .hostLinkCompletion, .due s.cur (.apertureWrite fn off (.atomic op wide v))] }) ∧
        (off + n ≤ 2 ^ 36 → s.store.posted = [] →
          (State.apertureLoop k (unitsOfAccess va (n + 1) 0 n) s = (some (bs, bad), s1) → read n = .next (s1.emit (.hostData fn.toNat bs bad))) ∧
          (State.apertureLoop k (unitsOfAccess va (n + 1) 0 n) s = (none, s1) →
            read n = .next ((s1.setCode fn.toNat 0x14).emit (.hostAbort fn.toNat)))) ∧
        (off + data.length ≤ 2 ^ 36 →
          State.apertureStore k data (unitsOfAccess va (data.length + 1) 0 data.length) false s = (bad, s1) →
          write = .next (if bad then s1.setCode fn.toNat 0x14 else s1)) ∧
        (off + w ≤ 2 ^ 36 → s.store.posted = [] →
          (va.toNat % w ≠ 0 → atomic = unsupported) ∧
          (va.toNat % w = 0 → s.apertureUnit k { read := true, write := true } va w = (none, s1) →
            atomic = .next ((s1.setCode fn.toNat 0x14).emit (.hostAbort fn.toNat)))) ∧
        (∀ pa t, isHost pa = false → inDevice pa = false → t.nc = false → t.x = false →
          (let s2 := s1.shareFrames pa data.length
           data.length ≠ 0 → off + data.length ≤ 2 ^ 36 → va.toNat % 64 + data.length ≤ 64 →
            (s.outTranslate .aperture k true { read := true } va = .ok pa t s1 → s.store.posted = [] →
              ∃ u, read data.length = .next (State.emit u (.hostData fn.toNat ((List.range data.length).map fun k => memRead s2.store.mem (pa + k))
                (s2.marked [] t pa data.length).isSome))) ∧
            (s.outTranslate .aperture k true { write := true } va = .ok pa t s1 → (∀ x ∈ s2.store.nc, x.sector ∉ sectorsOf pa data.length) →
              Memory.wf s2.store.mem = true → ∃ u, write = .next u ∧
                ∀ x, memRead u.store.mem x = if pa ≤ x ∧ x < pa + data.length then data.getD (x - pa) 0 else memRead s2.store.mem x)) ∧
          (let s2 := s1.shareFrames pa w
           let old := (List.range w).map fun k => memRead s2.store.mem (pa + k)
           off + w ≤ 2 ^ 36 → s.store.posted = [] → va.toNat % w = 0 →
            s.outTranslate .aperture k true { read := true, write := true } va = .ok pa t s1 →
            (∀ x ∈ s2.store.nc, x.sector ∉ sectorsOf pa w) → Memory.wf s2.store.mem = true →
            ∃ u, atomic = .next (State.emit u (.hostData fn.toNat old (s2.marked [] t pa w).isSome)) ∧
              ∀ x, memRead u.store.mem x = match hostAtomic op w (leNat old) v with
                | some new => if pa ≤ x ∧ x < pa + w then (leBytes w new).getD (x - pa) 0 else memRead s2.store.mem x
                | none => memRead s2.store.mem x)))) ∧
  (∀ (s : State) (device : BitVec 10) (ctx : Option (BitVec 6)) (pkgs : BitVec 11) (d : Nat) (ports : List Nat) (bound : Bool),
      ∃ t, exec (.podJob device ctx [⟨d, bound, ports⟩] pkgs) s = .next t ∧ t.mgmt.device = device ∧ t.mgmt.podCtx = ctx.map (·.toNat) ∧
        t.mgmt.route = [(d, ports)] ∧ t.mgmt.podBound = (if bound then [d] else []) ∧
        t.mgmt.barpod = (if 1 ≤ pkgs.toNat ∧ pkgs.toNat ≤ 1024 then pkgs else s.mgmt.barpod) ∧
        (s.core.remote = none → t.core = s.core) ∧ t.store = s.store ∧ t.mgmt.worldq = s.mgmt.worldq ∧
        (∀ r, s.core.remote = some r → s.reachable r.dev.toNat = true →
          r.dev.toNat ≠ d ∨ (∀ k ∈ ports, (s.port k).st = .down ∨ (s.port k).st = .retired) →
          t.core.remote = none ∧ t.core.xe.st = .stopped ∧ t.core.xe.efCode = Cause.queueTarget.code ∧ t.core.xe.efAddr = zext64 r.dev))

/-! ### Management -/

/-- R460 to R463, R465, R480: a start completes where the owner record and the image verify under both schemes, the self-test
passes, the fetch succeeds and the image is no older than the record's minimum. It leaves every core, context and group as at
reset, package memory empty, the image in the manager's SRAM, the ports to be started next and BOOTCAUSE OK with its source, and
enters full debug only with a token of this device; one that fails counts, and says why, and an attempt whose count reaches 3
enters minimal mode, which an image that verifies leaves. R464, R465, R471: a write of worlds moves the units that no context
holds, and sets ERR where a held unit's bit would change; DEBUGST only falls; FNPOLICY sets the selected function's share, cap and
SUPER, or is refused where shares would overlap or leave memory. R466, R469: a quad whose cores are frozen or idle enters the
state that PWRCTL names, its plates Invalid in P1 and kept otherwise; refused with ERR where a core runs or the worlds differ; a
quad woken by a lease word is in P0 after its time; a die all of whose quads are in P2 sleeps. R462, R467, R468, R478: a debug
access reaches a core only where the debug state and the worlds let it: off reaches nothing, non-secure debug no secure quad or
context and no register of the package; BOOTCAUSE answers in every debug state; a quote covers the nonce, the measurements, the
worlds, the debug state, CAPS and the live channels, signed with the alias key of the image's DICE layer. What is the model's own
choice in it: assumption logs 9, 46, 47, 48, 72. -/
def Obligations.Management : Prop :=
  (∀ (s : State) (src : BitVec 8) (b : Boot),
      let s9 : State := { s with mgmt.lastErr := 9 }
      let attempts : List (BitVec 8 × State × Out) :=
        [(4, s, exec (.thermalTrip b) s), (3, if s.mgmt.startOk then s else s9, exec (.watchdog b) s)] ++
          if src.toNat ≤ 4 then [(src, s, exec (.startSequence src b) s)] else []
      let owner : Prop := Config.rsaPss Config.anchorRsa b.owner b.ownerSigRsa = true ∧ Config.slhDsa Config.anchorSlh b.owner b.ownerSigSlh = true
      let image : Prop := b.fetch = 0 ∧ ∃ v, Config.imageVersion b.image = some v ∧ Config.ownerMinimum b.owner ≤ v ∧
        Config.rsaPss (Config.ownerRsa b.owner) b.image b.imageSigRsa = true ∧ Config.slhDsa (Config.ownerSlh b.owner) b.image b.imageSigSlh = true
      let token : Prop := Config.tokenIdentity b.token = Config.identity Config.deviceSecret ∧
        Config.rsaPss (Config.ownerRsa b.owner) b.token b.tokenSigRsa = true ∧ Config.slhDsa (Config.ownerSlh b.owner) b.token b.tokenSigSlh = true
      let good : Prop := owner ∧ b.selfTest = false ∧ image
      let fresh (t : State) : Prop := t.core = State.reset.core ∧ t.ctxs = [] ∧ t.groups = [] ∧ t.launches = [] ∧ t.store.mem = [] ∧
        t.store.host = s.store.host ∧ t.ports = State.reset.ports ∧ t.time = 0 ∧
        t.others.map (·.1) = [256, 257, 258, 259] ∧ ∀ c ∈ t.others, c.2.sq.trap.status.priv = 3 ∧ c.2.sq.run = .running
      (4 < src.toNat → exec (.startSequence src b) s = .next s) ∧
      (∀ a ∈ attempts, ∃ t, a.2.2 = .next t ∧ fresh t ∧ t.mgmt.resetSrc = a.1 ∧
        (s.mgmt.failedStarts < 2 → good → t.mgmt.startOk = true ∧ t.mgmt.failedStarts = 0 ∧ t.mgmt.minimal = false ∧
          t.mgmt.worldq = b.worldq ∧ t.mgmt.image = b.image ∧ t.mgmt.owner = b.owner ∧ t.mgmt.lastErr = a.2.1.mgmt.lastErr ∧
          t.store.sram = writeBytes [] 0 (b.image.take (2 ^ 23)) ∧
          (b.debug = 2 → (token → t.mgmt.debugst = 2 ∧ t.mgmt.fullDebug = true) ∧ (¬token → t.mgmt.debugst = 0 ∧ t.mgmt.fullDebug = false)) ∧
          (b.debug ≠ 2 → b.debug ≠ 3 → t.mgmt.debugst = zext64 b.debug ∧ t.mgmt.fullDebug = false) ∧
          t.schedule = (((List.range 16).filter s.fitted).map fun k => .due 0 (.linkStart (BitVec.ofNat 4 k))) ++ s.schedule) ∧
        (s.mgmt.failedStarts < 2 → ¬good → t.mgmt.startOk = false ∧ t.mgmt.failedStarts = s.mgmt.failedStarts + 1 ∧
          t.mgmt.minimal = false ∧ (¬owner → t.mgmt.lastErr = 6) ∧ (owner → b.selfTest = true → t.mgmt.lastErr = 8) ∧
          (owner → b.selfTest = false → b.fetch ≠ 0 → t.mgmt.lastErr = b.fetch.setWidth 8) ∧
          (owner → b.selfTest = false → b.fetch = 0 → t.mgmt.lastErr ∈ [3, 4, 5, 7])) ∧
        (2 ≤ s.mgmt.failedStarts → s.mgmt.failedStarts < 255 → t.mgmt.minimal = true ∧ t.mgmt.failedStarts = s.mgmt.failedStarts + 1)) ∧
      (s.mgmt.minimal = false → exec (.minimalModeRetry b) s = .next s) ∧
      (s.mgmt.minimal = true → ¬image → ∃ c, c ≠ 0 ∧ exec (.minimalModeRetry b) s = .next { s with mgmt.lastErr := c }) ∧
      (s.mgmt.minimal = true → good → ∃ t, exec (.minimalModeRetry b) s = .next t ∧ fresh t ∧ t.mgmt.minimal = false ∧
        t.mgmt.failedStarts = 0 ∧ t.mgmt.startOk = true)) ∧
  (∀ (s : State) (v : Word),
      let held (f : Ctx → Word) (u : Nat) : Prop := ∃ c ∈ s.ctxs, c.2.st ≠ .free ∧ (f c.2).getLsbD u = true
      (∃ t, exec (.worldqWrite v) s = .next t ∧ t.core = s.core ∧ t.mgmt.worldr = s.mgmt.worldr ∧
        (∀ u, u < 64 → (held Ctx.quads u → t.mgmt.worldq.getLsbD u = s.mgmt.worldq.getLsbD u) ∧
          (¬held Ctx.quads u → t.mgmt.worldq.getLsbD u = v.getLsbD u)) ∧
        (∀ u, u < 64 → held Ctx.quads u → v.getLsbD u ≠ s.mgmt.worldq.getLsbD u → t.mgmt.frzErr = true)) ∧
      (∃ t, exec (.worldrWrite v) s = .next t ∧ t.core = s.core ∧ t.mgmt.worldq = s.mgmt.worldq ∧
        (∀ u, u < 64 → (held Ctx.regions u → t.mgmt.worldr.getLsbD u = s.mgmt.worldr.getLsbD u) ∧
          (¬held Ctx.regions u → t.mgmt.worldr.getLsbD u = v.getLsbD u)) ∧
        (∀ u, u < 64 → held Ctx.regions u → v.getLsbD u ≠ s.mgmt.worldr.getLsbD u → t.mgmt.frzErr = true)) ∧
      exec (.worlduWrite v) s = .next { s with mgmt.worldu := BitVec.ofNat 64 (v.toNat % 2 ^ 22) } ∧
      (∃ t, exec (.debugstWrite v) s = .next t ∧ t.core = s.core ∧ t.mgmt.debugst.toNat = min s.mgmt.debugst.toNat (v.toNat % 4)) ∧
      (let fn := s.mgmt.fnsel.toNat
       let f := s.fnAt fn
       let share : BitVec 9 := bits v.toNat 17 9
       let base : BitVec 8 := bits v.toNat 9 8
       let cap : BitVec 3 := bits v.toNat 0 3
       let bad := 256 < base.toNat + share.toNat ∨ s.shareTaken fn base.toNat share.toNat = true ∨
        (f.ctx.isSome = true ∧ (share ≠ f.share ∨ base ≠ f.shbase))
       (bad → exec (.fnpolicyWrite v) s = .next { s with mgmt.frzErr := true }) ∧
       (¬bad → ∃ t, exec (.fnpolicyWrite v) s = .next t ∧ t.fnAt fn = { f with
        share := share, shbase := base, supr := v.getLsbD 4, maxscope := if cap = 0 ∨ cap = 7 then f.maxscope else cap } ∧ t.core = s.core))) ∧
  (∀ (s : State) (quad : BitVec 6) (die mgr : BitVec 2),
      let q := s.quadAt quad.toNat
      let names : List (Power × Instr) := [(.p0, .quadP0 quad mgr), (.p1, .quadP1 quad mgr), (.p2, .quadP2 quad mgr)]
      let may := s.quadQuiet quad.toNat = true ∧ s.mgmt.worldq.getLsbD quad.toNat = s.mgmt.secureCores.getLsbD mgr.toNat
      let d := die.toNat
      (∀ x ∈ names, (q.power = x.1 → exec x.2 s = .next s) ∧
        (q.power ≠ x.1 → ¬may → exec x.2 s = .next { s with mgmt.frzErr := true }) ∧
        (q.power ≠ x.1 → may → ∃ t, exec x.2 s = .next t ∧ (t.quadAt quad.toNat).power = x.1 ∧ t.core = s.core ∧ t.store = s.store ∧
          (t.quadAt quad.toNat).spad = q.spad ∧
          (x.1 = .p1 → ∀ p : Fin 16, ((t.quadAt quad.toNat).plate[p]).valid = false ∧ ((t.quadAt quad.toNat).plate[p]).pin = false) ∧
          (x.1 ≠ .p1 → (t.quadAt quad.toNat).plate = q.plate))) ∧
      (q.power = .p1 → q.wakeAt ≠ 0 → q.wakeAt.toNat ≤ s.time.toNat →
        exec (.quadWake quad) s = .next (s.setQuad quad.toNat { q with power := .p0, wakeAt := 0 })) ∧
      (q.power ≠ .p1 ∨ q.wakeAt = 0 ∨ s.time.toNat < q.wakeAt.toNat → exec (.quadWake quad) s = .next s) ∧
      ((∀ k, k < 16 → (s.quadAt (16 * d + k)).power = .p2) → ∃ t, exec (.dieSleep die) s = .next t ∧ (t.dieAt d).asleep = true ∧
        (∀ r, t.x r = s.x r) ∧ t.core.regs = s.core.regs) ∧
      ((∃ k, k < 16 ∧ (s.quadAt (16 * d + k)).power ≠ .p2) → exec (.dieSleep die) s = .next s) ∧
      (∃ t, exec (.dieWake die) s = .next t ∧ (t.dieAt d).asleep = false ∧ t.core = s.core ∧ t.store = s.store)) ∧
  (∀ (s : State) (core : BitVec 8) (req : DebugReq) (r : BitVec 5) (v : Word) (nonce : List Byte) (k : Nat),
      let n := core.toNat
      let secure := s.mgmt.worldq.getLsbD (n / 4) = true ∨ ∃ k, s.ownerOf n = some k ∧ (s.ctxAt k).secure = true
      let reach := s.mgmt.debugst = 2 ∨ (s.mgmt.debugst = 1 ∧ ¬secure)
      exec (.debugAccess core (.readSys 0x200)) s = .next (s.emit (.data (leBytes 8 s.bootcause.toNat))) ∧
      (req ≠ .readSys 0x200 → ¬reach → exec (.debugAccess core req) s = .next s) ∧
      (s.mgmt.debugst = 1 → packageReg k = true → exec (.debugAccess core (.writeSys k v)) s = .next s ∧
        (k ≠ 0x200 → exec (.debugAccess core (.readSys k)) s = .next s)) ∧
      (reach →
        (∃ t, exec (.debugAccess core (.readX r)) s = .next t ∧ t.core = s.core ∧
          t.out = s.out ++ [.data (leBytes 8 (if r = 0 then 0 else (vget (s.coreAt n).sq.x r).toNat))]) ∧
        (r ≠ 0 → ∃ t, exec (.debugAccess core (.writeX r v)) s = .next t ∧ vget (t.coreAt n).sq.x r = v ∧
          (∀ j : BitVec 5, j ≠ r → vget (t.coreAt n).sq.x j = vget (s.coreAt n).sq.x j) ∧ (t.coreAt n).sq.pc = (s.coreAt n).sq.pc ∧ t.store = s.store)) ∧
      (nonce.length = 32 →
        let m := s.mgmt
        let claims := nonce ++ Config.sha384 m.image ++ Config.sha384 m.owner ++ leBytes 8 m.worldq.toNat ++ leBytes 8 m.worldr.toNat ++
          leBytes 8 m.debugst.toNat ++ leBytes 8 s.caps.toNat ++ m.chlive.toList.flatMap fun w => leBytes 8 w.toNat
        exec (.attestationRequest nonce) s =
          .next { s with out := s.out ++ [.quote (claims ++ Config.signature s.diceLayer claims ++ Config.certificates s.diceLayer)] }) ∧
      (nonce.length ≠ 32 → exec (.attestationRequest nonce) s = .next s))

/-! ### Words, steps, reset -/

/-- R56, R67, R336, R431, R483: a turn of an SQ runs the instruction that the word at the pc decodes to, or that which has been
fetched and waits; a turn of an engine the word at its position; an event's turn the event. exec does the rest of the step. Words
are read as little-endian halfwords; a fetch leaves a copy, and one that crosses the die boundaries issues when it has come back;
a refetch point discards what has been fetched ahead; a turn that another of its cycle precedes is put behind it (R166, R261,
R395, R411, R428), and an empty schedule is filled again. What is the model's own choice in it: assumption logs 1, 4, 23, 56. -/
def Obligations.StepRuns : Prop :=
  ∀ (s : State) (core dt : Nat) (rest : List Turn) (i : Instr) (d : Due),
    let s0 := ({ s with schedule := rest, reply := 0 }.pass dt).focus core
    let n := wordBits i / 8
    let issued (w : Nat) (u : State) : State :=
      { u.unpark with core.sq.fetched := some w, core.sq.ahead := u.core.sq.aheadAfter, core.sq.nextAt := u.time + 1 }
    let runs (w : Nat) (u : State) : Out := exec i (if isRefetch i then { issued w u with core.sq.ahead := [] } else issued w u)
    (s.schedule = [] → step s = .next { s.pass 1 with schedule := s.defaultRound }) ∧
    (∀ t l, s.schedule = t :: rest → s.postpone t rest = some l → step s = .next { s.pass t.dt with schedule := l }) ∧
    (s.schedule = .event core i dt :: rest → s.postpone (.event core i dt) rest = none → n = 0 → step s = exec i s0) ∧
    (s.schedule = .due core d :: rest → s.postpone (.due core d) rest = none →
      step s = dueTurn d (State.focus { s with schedule := rest, reply := 0 } core)) ∧
    (s.schedule = .fetchAhead core dt :: rest → s.postpone (.fetchAhead core dt) rest = none → step s = .next s0.fetchMore) ∧
    (s.schedule = .unit core .sq dt :: rest → s.postpone (.unit core .sq dt) rest = none →
      s0.core.halted = false → s0.core.sq.run = .running → (s0.core.sq.parked = none ∨ s0.core.sq.woken = true) →
      (s0.ieNow = false ∨ s0.core.firstPending = none) → s0.core.sq.nextAt.toNat ≤ s0.time.toNat →
      (s0.core.sq.pc ≠ s0.core.sq.exitAddr ∨ 256 ≤ core) →
      (∀ w, s0.core.sq.holds s0.time = some w → decodeSq w = .ok i → step s = runs w s0) ∧
      (s0.core.sq.holds s0.time = none → s0.core.sq.aheadWord = none →
        (∀ h h2 s1, s0.fetchSq = (.ok h s1, h2) → decodeSq (wordOf h h2) = .ok i →
          (s1.reply.toNat ≤ s1.time.toNat → step s = runs (wordOf h h2) s1) ∧
          (s1.time.toNat < s1.reply.toNat → step s = .next { issued (wordOf h h2) s1 with core.sq.nextAt := s1.reply })) ∧
        (∀ pa t, s0.translate s0.sqAgent { fetch := true } s0.core.sq.pc = .ok pa t s0 → isHost pa = false → inDevice pa = false →
          pa % 64 + n ≤ 64 → s0.store.fetchCopy (.icache core) (sectorOf pa) = none → s0.store.unpublished (sectorOf pa) = false →
          s0.markAt [.icache core] { t with nc := false } (sectorOf pa) = none → decodeSq (encode i) = .ok i →
          readBytes s0.store.mem pa n = encodeBytes i →
          let s1 := (s0.noteReply s0.dieNo (64 * sectorOf pa) 64).keepFetch (.icache core) (sectorOf pa) t
          s1.reply.toNat ≤ s1.time.toNat →
          (n = 2 → step s = runs (encode i) s1) ∧
          (n = 4 → ∀ t2, s1.translate s1.sqAgent { fetch := true } (s0.core.sq.pc + 2) = .ok (pa + 2) t2 s1 →
            step s = runs (encode i) s1)))) ∧
    (∀ e, s.schedule = .unit core (.eng e) dt :: rest → s.postpone (.unit core (.eng e) dt) rest = none → s0.core.halted = false →
      let s1 : State := { s0 with actor := e }
      let g := s1.eng e
      let p := g.pos.toNat
      let taken : State := if e = .me ∧ s1.core.mex.plan = none then { s1 with core.mex.nextAt := s1.time + 1 } else s1
      g.flt = false → g.frz = false → (g.parked = none ∨ g.woken = true) → g.st = .running → g.repass = false → g.atEnd = false →
      g.nextAt.toNat ≤ s1.time.toNat →
      (e = .me → s1.core.mex.plan.isSome = true ∨ g.wait ≠ 0 ∨ s1.core.mex.nextAt.toNat ≤ s1.time.toNat) →
      g.passStop = none → decodeEngine e (encode i) = .ok i → (∀ c k, i ≠ .bskip c k) →
      smFind g.words p = some (bits (encode i) 0 16) → (n = 2 ∨ (n = 4 ∧ smFind g.words (p + 1) = some (bits (encode i) 16 16) ∧ p + 1 < g.len)) →
      step s = exec i taken)

/-- R56-R93: the words of the spec's own examples decode to the instructions it gives for them, one of every family. -/
def Obligations.DecodeWords : Prop :=
  decodeSq 0x00140285 = .ok (.addi 5 0 10) ∧ decodeSq 0x090C5383 = .ok (.div 7 5 6 0) ∧ decodeSq 0x12342293 = .ok (.movw 5 2 0 0x1234) ∧
  decodeSq 0x01C02295 = .ok (.ld 5 2 0 2 3) ∧ decodeSq 0x0000C059 = .ok (.spec 12) ∧ decodeSq 0xF0141D51 = .ok (.enq 2 7 8 1 0 4 7) ∧
  decodeSq 0x00907053 = .ok (.renq 7 8 2) ∧ decodeSq 0x04000055 = .ok (.twait 2) ∧ decodeSq 0x030C505F = .ok (.pqpush 5 6 3) ∧
  decodeSq 0x1B00005D = .ok (.bara 3 3) ∧ decodeSq 0x028402E5 = .ok (.rdsys 5 0x142) ∧ decodeSq 0x01200063 = .ok (.trap 0x12) ∧
  decodeSq 0x00020063 = .ok .eret ∧ decodeSq 0x00C0C06B = .ok (.tdset 12 3) ∧ decodeSq 0x0000A069 = .ok (.wview 10 0) ∧
  decodeEngine .ve 0x00800101 = .ok (.vadd 2 0 1 0) ∧ decodeEngine .ve 0x0298207D = .ok (.vcvtd 0x40 0x30) ∧
  decodeEngine .me 0x41804003 = .ok (.mmul 0 0x10 0 0 3 1 0) ∧ decodeEngine .me 0x3F8E8903 = .ok (.mmul 4 0xA2 3 0 127 0 0) ∧
  decodeEngine .me 0xD1 = .ok (.mclr 3) ∧ decodeEngine .me 0x00003053 = .ok (.mqset 1 3 0 0) ∧ decodeEngine .ae 0x0081C993 = .ok (.ldi 6 2 7 0 2) ∧
  decodeEngine .ae 0x00008007 = .ok (.lds 0 2 0 0) ∧ decodeEngine .ae 0x4140B057 = .ok (.srchk 0xC1 2 0 5 1) ∧
  decodeEngine .ae 0x0FC0C419 = .ok (.hist 0x10 3 0 63) ∧ decodeEngine .ce 0x0020B443 = .ok (.cpy 1 2 3 1 0 1) ∧
  decodeEngine .ce 0x01286B0B = .ok (.etch 4 5 6 37) ∧ decodeEngine .ce 0x0010000D = .ok (.roundo 2) ∧
  decodeEngine .xe 0x00603443 = .ok (.xput 1 2 3 0 12) ∧ decodeEngine .xe 0x0410344B = .ok (.xsend 1 2 3 0 0x82) ∧
  decodeEngine .xe 0x0000344D = .ok (.xadm 1 2 3)

/-- R56-R95: every word that a decoder reads is the word that the instruction encodes to, and every instruction of an encoding
whose fields R78 accepts is read back by a decoder, with every operand at every value: no bit of an encoding is dropped. -/
def Obligations.RoundTrip : Prop :=
  (∀ w i, decodeSq w = .ok i → i.WellFormed ∧ encode i = w % 2 ^ wordBits i) ∧
  (∀ e w i, decodeEngine e w = .ok i → i.WellFormed ∧ i.defectOn e = none ∧ encode i = w % 2 ^ wordBits i) ∧
  (∀ i : Instr, i.WellFormed → wordBits i ≠ 0 → decodeSq (encode i) = .ok i ∨ ∃ e, decodeEngine e (encode i) = .ok i)

/-- Every step keeps package memory, host memory, scheduler memory and the management complex's SRAM in their one canonical form.
What is the model's own choice in it: assumption log 3. -/
def Obligations.MemoryInvariant : Prop :=
  ∀ (s t : State), (Memory.wf s.store.mem && Memory.wf s.store.host && Memory.wf s.store.sched && Memory.wf s.store.sram) = true →
    step s = .next t → (Memory.wf t.store.mem && Memory.wf t.store.host && Memory.wf t.store.sched && Memory.wf t.store.sram) = true

/-- R8, R458, R481: after the start, the registers whose Reset value is 0 read 0, package memory is empty and in its canonical
form, no context, group or launch exists, every plate is enabled, every compute core is as fresh as the one in focus, and the
manager cores run at M. What is the model's own choice in it: assumption logs 3, 5, 6, 9. -/
def Obligations.ResetState : Prop :=
  let s := State.reset
  (∀ r, s.x r = 0) ∧ (∀ n ∈ [0x001, 0x002, 0x003, 0x004, 0x005, 0x008, 0x00B, 0x00C, 0x00D] ++ (List.range 16).map (0x010 + ·), s.sysRead n = 0) ∧
  Memory.wf s.store.mem = true ∧ Memory.wf s.store.host = true ∧ Memory.wf s.store.sched = true ∧ Memory.wf s.store.sram = true ∧
  (∀ a, memRead s.store.mem a = 0) ∧
  s.ctxs = [] ∧ s.groups = [] ∧ s.launches = [] ∧ (∀ n, n < 256 → s.coreAt n = s.core) ∧
  (∀ n, 256 ≤ n → n < 260 → (s.coreAt n).sq.trap.status.priv = 3 ∧ (s.coreAt n).sq.run = .running) ∧
  (∀ e, (s.eng e).q = [] ∧ (s.eng e).flt = false ∧ (s.eng e).frz = false) ∧
  (∀ q, (s.quadAt q).plmask = (s.quadAt q).avail)
end

