-- ==== Sys2Proof/Laws/Memory.lean ====
section
/-! SUPPORT. Byte stores: reads after writes, and the canonical form that every write keeps. -/

namespace Sys2Proof.Machine

/-- Every key of a map lies above a number. -/
def keysAbove {α : Type} (m : SMap α) (a : Nat) : Prop := ∀ p ∈ m, a < p.1

theorem smSorted_tail {α : Type} {p : Nat × α} {t : SMap α} (h : smSorted (p :: t) = true) : smSorted t = true := by
  cases t with
  | nil => rfl
  | cons q u => simp only [smSorted, Bool.and_eq_true] at h; exact h.2

theorem smSorted_above {α : Type} {p : Nat × α} {t : SMap α} (h : smSorted (p :: t) = true) : keysAbove t p.1 := by
  induction t generalizing p with
  | nil => intro x hx; cases hx
  | cons q u ih =>
    simp only [smSorted, Bool.and_eq_true, decide_eq_true_eq] at h
    intro x hx
    rcases List.mem_cons.1 hx with rfl | hx
    · exact h.1
    · exact lt_trans h.1 (ih h.2 x hx)

theorem smSorted_cons {α : Type} {p : Nat × α} {t : SMap α} (h : smSorted t = true) (ha : keysAbove t p.1) :
    smSorted (p :: t) = true := by
  cases t with
  | nil => rfl
  | cons q u => simp only [smSorted, Bool.and_eq_true, decide_eq_true_eq]; exact ⟨ha q (by simp), h⟩

theorem Memory.wf_cons {p : Host.Cell} {t : Memory} :
    Memory.wf (p :: t) = true ↔ Memory.wf t = true ∧ keysAbove t p.1 ∧ p.2 ≠ 0 := by
  simp only [Memory.wf, Bool.and_eq_true, List.all_cons, bne_iff_ne, ne_eq]
  exact ⟨fun h => ⟨⟨smSorted_tail h.1, h.2.2⟩, smSorted_above h.1, h.2.1⟩,
    fun h => ⟨smSorted_cons h.1.1 h.2.1, h.2.2, h.1.2⟩⟩

theorem memRead_above (m : Memory) (a b : Nat) (h : keysAbove m b) (hab : a ≤ b) : memRead m a = 0 := by
  cases m with
  | nil => rfl
  | cons p t =>
    have := h p (by simp)
    unfold memRead
    rw [if_neg (by omega), if_pos (by omega)]

theorem keysAbove_mono {α : Type} {m : SMap α} {a b : Nat} (h : keysAbove m b) (hab : a ≤ b) : keysAbove m a :=
  fun p hp => lt_of_le_of_lt hab (h p hp)

theorem keysAbove_memWrite (m : Memory) (a c : Nat) (b : Byte) (h : keysAbove m c) (hc : c < a) : keysAbove (memWrite m a b) c := by
  induction m with
  | nil =>
    unfold memWrite; split
    · intro p hp; cases hp
    · intro p hp; obtain rfl := List.mem_singleton.1 hp; exact hc
  | cons q t ih =>
    have ht : keysAbove t c := fun p hp => h p (List.mem_cons_of_mem _ hp)
    have hq := h q (by simp)
    unfold memWrite
    split
    · split
      · exact h
      · intro p hp; rcases List.mem_cons.1 hp with rfl | hp
        · exact hc
        · exact h p hp
    · split
      · split
        · exact ht
        · intro p hp; rcases List.mem_cons.1 hp with rfl | hp
          · exact hc
          · exact ht p hp
      · intro p hp; rcases List.mem_cons.1 hp with rfl | hp
        · exact hq
        · exact ih ht p hp

/-- A write keeps the canonical form. -/
theorem memWrite_wf (m : Memory) (a : Nat) (b : Byte) (h : Memory.wf m = true) : Memory.wf (memWrite m a b) = true := by
  induction m with
  | nil =>
    unfold memWrite; split
    · rfl
    · rename_i hb; exact Memory.wf_cons.2 ⟨rfl, (fun p hp => (nomatch hp)), hb⟩
  | cons q t ih =>
    obtain ⟨k, v⟩ := q
    obtain ⟨ht, ha, hv⟩ := Memory.wf_cons.1 h
    unfold memWrite
    split
    · rename_i hak
      split
      · exact h
      · rename_i hb
        refine Memory.wf_cons.2 ⟨h, fun p hp => ?_, hb⟩
        rcases List.mem_cons.1 hp with rfl | hp
        · exact hak
        · exact lt_trans hak (ha p hp)
    · split
      · rename_i hak; subst hak
        split
        · exact ht
        · rename_i hb; exact Memory.wf_cons.2 ⟨ht, ha, hb⟩
      · exact Memory.wf_cons.2 ⟨ih ht, keysAbove_memWrite _ _ _ _ ha (by simp only at *; omega), hv⟩

/-- A byte reads as it was written, and every other byte as before. -/
theorem memRead_memWrite (m : Memory) (a c : Nat) (b : Byte) (h : Memory.wf m = true) :
    memRead (memWrite m a b) c = if c = a then b else memRead m c := by
  induction m with
  | nil =>
    unfold memWrite; split
    · rename_i hb; subst hb; simp [memRead]
    · unfold memRead
      by_cases hc : c = a
      · rw [if_pos hc.symm, if_pos hc]
      · rw [if_neg (Ne.symm hc), if_neg hc]; split <;> rfl
  | cons q t ih =>
    obtain ⟨k, v⟩ := q
    obtain ⟨ht, ha, hv⟩ := Memory.wf_cons.1 h
    simp only at ha hv
    unfold memWrite
    split
    · rename_i hak
      split
      · rename_i hb; subst hb
        split
        · rename_i hc; subst hc
          unfold memRead; rw [if_neg (by omega), if_pos hak]
        · rfl
      · rw [memRead]
        by_cases hc : c = a
        · rw [if_pos hc.symm, if_pos hc]
        · rw [if_neg (Ne.symm hc), if_neg hc]
          split
          · rename_i hlt; unfold memRead; rw [if_neg (by omega), if_pos (by omega)]
          · rfl
    · split
      · rename_i hak; subst hak
        split
        · rename_i hb; subst hb
          by_cases hc : c = a
          · subst hc; rw [if_pos rfl]; exact memRead_above _ _ _ ha (le_refl _)
          · rw [if_neg hc]
            conv_rhs => unfold memRead
            rw [if_neg (Ne.symm hc)]
            split
            · rename_i hlt; exact memRead_above _ _ _ ha (le_of_lt hlt)
            · rfl
        · rw [memRead, memRead]
          by_cases hc : c = a
          · rw [if_pos hc.symm, if_pos hc]
          · rw [if_neg (Ne.symm hc), if_neg hc, if_neg (Ne.symm hc)]
      · rename_i h1 h2
        rw [memRead, memRead, ih ht]
        by_cases hc : c = a
        · subst hc; rw [if_neg (by omega), if_neg (by omega), if_pos rfl]; simp
        · simp only [if_neg hc]

/-- A write of bytes keeps the canonical form. -/
theorem writeBytes_wf (m : Memory) (a : Nat) (bs : List Byte) (h : Memory.wf m = true) : Memory.wf (writeBytes m a bs) = true := by
  induction bs generalizing m a with
  | nil => exact h
  | cons b t ih => exact ih _ _ (memWrite_wf _ _ _ h)

/-- What a byte reads as after bytes have been written. -/
theorem memRead_writeBytes (m : Memory) (a c : Nat) (bs : List Byte) (h : Memory.wf m = true) :
    memRead (writeBytes m a bs) c = if a ≤ c ∧ c < a + bs.length then bs.getD (c - a) 0 else memRead m c := by
  induction bs generalizing m a with
  | nil => rw [if_neg (by intro h; simp at h; omega)]; rfl
  | cons b t ih =>
    rw [writeBytes, ih _ _ (memWrite_wf _ _ _ h), memRead_memWrite _ _ _ _ h]
    by_cases h1 : c = a
    · subst h1; rw [if_neg (by omega), if_pos rfl, if_pos (by simp), Nat.sub_self]; rfl
    · rw [if_neg h1]
      by_cases h2 : a + 1 ≤ c ∧ c < a + 1 + t.length
      · rw [if_pos h2, if_pos (by simp; omega), show c - a = (c - (a + 1)) + 1 by omega, List.getD_cons_succ]
      · rw [if_neg h2, if_neg (by simp; omega)]

/-! ## Little-endian numbers -/

theorem leBytes_length (n v : Nat) : (leBytes n v).length = n := by
  induction n generalizing v with
  | zero => rfl
  | succ n ih => simp [leBytes, ih]

theorem leNat_lt (l : List Byte) : leNat l < 256 ^ l.length := by
  induction l with
  | nil => simp [leNat]
  | cons b t ih => simp only [leNat, List.length_cons, pow_succ]; have := b.isLt; omega

theorem leBytes_getD (n v k : Nat) (h : k < n) : (leBytes n v).getD k 0 = BitVec.ofNat 8 (v / 256 ^ k) := by
  induction n generalizing v k with
  | zero => omega
  | succ n ih =>
    cases k with
    | zero => simp [leBytes]
    | succ k => rw [leBytes, List.getD_cons_succ, ih _ _ (by omega), Nat.div_div_eq_div_mul, pow_succ, Nat.mul_comm]

theorem leNat_leBytes (n v : Nat) : leNat (leBytes n v) = v % 256 ^ n := by
  induction n generalizing v with
  | zero => simp [leBytes, leNat, Nat.mod_one]
  | succ n ih =>
    rw [leBytes, leNat, ih, BitVec.toNat_ofNat, pow_succ 256, Nat.mul_comm (256 ^ n) 256, Nat.mod_mul]

/-- The bytes of a number, by position. -/
theorem leBytes_eq_map (n v : Nat) : leBytes n v = (List.range n).map fun k => BitVec.ofNat 8 (v / 256 ^ k) := by
  apply List.ext_getElem
  · simp [leBytes_length]
  · intro k h1 h2
    have hk : k < n := by simpa [leBytes_length] using h1
    have := leBytes_getD n v k hk
    rw [List.getD_eq_getElem?_getD, List.getElem?_eq_getElem h1] at this
    simpa using this

/-! ## Sparse maps -/

theorem smGet_smSet {α : Type} (m : SMap α) (a c : Nat) (v d : α) :
    smGet (smSet m a v) c d = if c = a then v else smGet m c d := by
  induction m with
  | nil =>
    unfold smSet
    by_cases h : c = a
    · subst h; simp [smGet]
    · simp [smGet, h, Ne.symm h]
  | cons q t ih =>
    obtain ⟨k, w⟩ := q
    unfold smSet
    split
    · rw [smGet]
      by_cases h : c = a
      · subst h; simp
      · simp [h, Ne.symm h]
    · split
      · rename_i h1; subst h1
        rw [smGet, smGet]
        by_cases h : c = a
        · subst h; simp
        · simp [h, Ne.symm h]
      · rename_i h1 h2
        rw [smGet, smGet, ih]
        by_cases h : c = a
        · subst h; rw [if_neg (Ne.symm h2)]; simp
        · simp only [if_neg h]

theorem smGet_smErase {α : Type} (m : SMap α) (a c : Nat) (d : α) :
    smGet (smErase m a) c d = if c = a then d else smGet m c d := by
  induction m with
  | nil => simp [smErase, smGet]
  | cons q t ih =>
    obtain ⟨k, w⟩ := q
    unfold smErase
    split
    · rename_i h1; subst h1
      rw [ih, smGet]
      by_cases h : c = k
      · subst h; simp
      · simp [h, Ne.symm h]
    · rename_i h1
      rw [smGet, smGet, ih]
      by_cases h : c = a
      · subst h; rw [if_neg h1]; simp
      · simp only [if_neg h]

/-- The value at a key of a map just set. -/
@[simp] theorem smGet_smSet_self {α : Type} (m : SMap α) (a : Nat) (v d : α) : smGet (smSet m a v) a d = v := by
  rw [smGet_smSet, if_pos rfl]

/-- Clearing some addresses keeps the canonical form (scrubbing, R363; the window of a group, R386). -/
theorem Memory.wf_filter (m : Memory) (f : Host.Cell → Bool) (h : Memory.wf m = true) : Memory.wf (m.filter f) = true := by
  induction m with
  | nil => rfl
  | cons p t ih =>
    obtain ⟨h1, h2, h3⟩ := Memory.wf_cons.mp h
    rw [List.filter_cons]
    split
    · exact Memory.wf_cons.mpr ⟨ih h1, fun q hq => h2 q (List.mem_filter.mp hq).1, h3⟩
    · exact ih h1

/-- The memories of the machine after reset are in their canonical form. -/
theorem reset_memory_wf : Memory.wf State.reset.store.mem = true ∧ Memory.wf State.reset.store.host = true ∧
    Memory.wf State.reset.store.sched = true := ⟨rfl, rfl, rfl⟩

end Sys2Proof.Machine
end

