-- ==== Sys2Proof/Laws/Goes.lean ====
section
/-! SUPPORT. The shared operations of the SQ, each with what it does once: resolution points, translation, loads and stores. -/

namespace Sys2Proof.Machine

/-! ## Resolution points and translations -/

/-- A resolution point that goes on is its continuation. -/
theorem resolve_of_resolved {s s' : State} (h : s.resolved = some s') (go : State → Out) : s.resolve go = go s' := by
  unfold State.resolved at h; unfold State.resolve
  split at h
  · rename_i hc; rw [if_pos hc]; cases h; rfl
  · rename_i hc
    split at h
    · rename_i hd; rw [if_neg hc, if_pos hd]; cases h; rfl
    · cases h

/-- Outside a region a resolution point is passed with no effect. -/
theorem resolved_of_act {s : State} (h : s.core.sq.spec.act = false) : s.resolved = some s := by
  unfold State.resolved; rw [if_pos]; simp [h]

theorem resolveIf_of_resolvedIf {s s' : State} {b : Bool} (h : s.resolvedIf b = some s') (go : State → Out) :
    s.resolveIf b go = go s' := by
  cases b
  · cases h; rfl
  · exact resolve_of_resolved h go

/-- An access that reaches an address is its continuation there. -/
theorem withPa_of_reach {s s1 : State} {k : Kind} {va : Word} {pa : Nat} {t : Tlb} (h : s.reach k va = some (pa, t, s1))
    (go : Nat → Tlb → State → Out) : s.withPa k va go = go pa t s1 := by
  unfold State.reach at h; unfold State.withPa
  split at h
  · rename_i pa' t' s' he
    rw [he]
    split at h
    · cases h
    · rename_i hd
      simp only [Bool.or_eq_true, decide_eq_true_eq, not_or, Bool.not_eq_true, Nat.not_le] at hd
      simp only [hd.1, Nat.not_le.2 hd.2, if_false, Bool.false_eq_true]
      cases h; rfl
  · cases h

/-- A load that finds a value is its continuation with it. -/
theorem loadValue_of_found {s s2 : State} {hs : List Holder} {al : Alloc} {t : Tlb} {pa n v : Nat}
    (h : s.found hs al t pa n = some (v, s2)) (bad : Word) (go : Nat → State → Out) : loadValue hs pa n t al s bad go = go v s2 := by
  unfold State.found at h; unfold loadValue
  simp only at h ⊢
  split at h
  · rename_i hc; rw [if_pos hc]; cases h; rfl
  · rename_i hc
    rw [if_neg hc]
    split at h
    · cases h
    · rename_i hd
      simp only [Bool.or_eq_true, not_or, Bool.not_eq_true, Option.isSome_eq_false_iff, Option.isNone_iff_eq_none] at hd
      rw [if_neg (by simp [hd.1]), hd.2]
      cases h; rfl

/-! ## What coherence leaves alone -/

/-- A fold that keeps a quantity keeps it. -/
theorem foldl_keeps {α β γ : Type} (q : β → γ) (f : β → α → β) (h : ∀ b a, q (f b a) = q b) (l : List α) (b : β) :
    q (l.foldl f b) = q b := by
  induction l generalizing b with
  | nil => rfl
  | cons a t ih => rw [List.foldl_cons, ih, h]

/-- Nothing but copies, directories, messages, STALE bits and the counters of probes differs. -/
structure State.Still (s u : State) : Prop where
  data : u.store.data = s.store.data
  nc : u.store.nc = s.store.nc
  same : u = { s with store := u.store, quads := u.quads }
  rest (q : Nat) : (u.quadAt q).rest = (s.quadAt q).rest

theorem State.Still.refl (s : State) : State.Still s s := ⟨rfl, rfl, rfl, fun _ => rfl⟩

theorem State.Still.trans {s t u : State} (h : State.Still s t) (g : State.Still t u) : State.Still s u := by
  refine ⟨g.data.trans h.data, g.nc.trans h.nc, ?_, fun q => (g.rest q).trans (h.rest q)⟩
  rw [g.same, h.same]

/-- A fold of steps that keep everything but the coherence of lines keeps it. -/
theorem State.Still.foldl {α : Type} (f : State → α → State) (h : ∀ s a, State.Still s (f s a)) (l : List α) (s : State) :
    State.Still s (l.foldl f s) := by
  induction l generalizing s with
  | nil => exact .refl s
  | cons a t ih => exact (h s a).trans (ih _)

theorem State.Still.coh (s : State) (c : Coh) : State.Still s { s with store.coh := c } := ⟨rfl, rfl, rfl, fun _ => rfl⟩

theorem State.Still.fetch (s : State) (c : Coh) (f : List DataCopy) : State.Still s { s with store.coh := c, store.fetch := f } :=
  ⟨rfl, rfl, rfl, fun _ => rfl⟩

theorem State.Still.setQuad (s : State) (n : Nat) (v : Quad) (h : v.rest = (s.quadAt n).rest) : State.Still s (s.setQuad n v) := by
  refine ⟨rfl, rfl, rfl, fun q => ?_⟩
  show (smGet (smSet s.quads n v) q _).rest = _
  rw [smGet_smSet]
  split
  · rename_i hq; subst hq; exact h
  · rfl

theorem vmap_vmap {α β γ : Type} {n : Nat} (f : β → γ) (g : α → β) (v : Vector α n) : vmap f (vmap g v) = vmap (f ∘ g) v := by
  unfold vmap; simp

theorem touched_rest (q : Quad) (ks : List Nat) : Quad.rest { q with plate := vmap (fun p => p.touched ks) q.plate } = q.rest := by
  unfold Quad.rest
  simp only [vmap_vmap]
  congr 2
  funext p
  simp only [Function.comp, Plate.touched]
  split <;> rfl

theorem dropFetch_still (s : State) (d k : Nat) (here : Nat → Bool) (ctx : BitVec 6) (w : Bool) :
    State.Still s (s.dropFetch d k here ctx w) :=
  (State.Still.fetch s _ _).trans (State.Still.foldl _ (fun s q => State.Still.setQuad s q { s.quadAt q with pfdrop := sat32 (s.quadAt q).pfdrop 1 } rfl) _ _)

/-- A back-invalidated line changes nothing else. -/
theorem evictLine_still (s : State) (d line : Nat) : State.Still s (s.evictLine d line) := by
  unfold State.evictLine
  generalize ((List.range 4).map (4 * line + ·)).map (fun k => s.store.coh.dirEnt (.die d) k) = es
  simp only
  refine State.Still.trans ?_ (State.Still.foldl _ (fun s q => State.Still.setQuad s q { s.quadAt q with sfevict := sat32 (s.quadAt q).sfevict 1 } rfl) _ _)
  refine State.Still.trans ?_ (State.Still.coh _ _)
  exact State.Still.foldl _ (fun s (e : DirEnt) => dropFetch_still s d e.sector (fun _ => true) e.ctx e.window) _ _

theorem takeInv_still (s : State) (h : Holder) (k : Nat) (num : Option (BitVec 8)) (ctx : BitVec 6) (w co : Bool) :
    State.Still s (s.takeInv h k num ctx w co) := by
  unfold State.takeInv
  split
  · exact (State.Still.coh s _).trans (State.Still.setQuad _ _ _ rfl)
  · split
    · exact State.Still.coh s _
    · simp only
      split
      · split
        · exact (State.Still.coh s _).trans (State.Still.setQuad _ _ _ (touched_rest _ _))
        · exact State.Still.coh s _
      · exact State.Still.coh s _

/-- A message that is delivered changes nothing else. -/
theorem deliver_still (s : State) (m : CohMsg) : State.Still s (s.deliver m) := by
  unfold State.deliver
  refine State.Still.trans ?_ (State.Still.coh _ _)
  cases m with
  | req r k =>
    simp only
    split
    · split
      · exact evictLine_still ..
      · exact .refl s
    · exact State.Still.coh s _
  | inv h k num ctx w co => exact (State.Still.coh s _).trans (takeInv_still ..)
  | _ => exact State.Still.coh s _

theorem drain_still (k n : Nat) (s : State) : State.Still s (s.drain k n) := by
  induction n generalizing s with
  | zero => exact .refl s
  | succ n ih =>
    unfold State.drain
    simp only
    split
    · exact .refl s
    · exact (deliver_still s _).trans (ih _)

theorem settle_still (s : State) (k : Nat) : State.Still s (s.settle k) := drain_still k _ s

/-- An access that gains its permission changes nothing else. -/
theorem obtain_still (s : State) (h : Holder) (k : Nat) (m : Bool) (ctx : BitVec 6) (w : Bool) (hint : BitVec 2) :
    State.Still s (s.obtain h k m ctx w hint) := by
  have h1 : ∀ u : State, State.Still s u → State.Still s (if m then { u with store.coh := u.store.coh.dirtied h k } else u) := by
    intro u hu
    split
    · exact hu.trans (State.Still.coh u _)
    · exact hu
  unfold State.obtain
  apply h1
  split
  · exact .refl s
  · simp only
    split
    · exact settle_still s k
    · exact (settle_still s k).trans ((State.Still.coh _ _).trans (settle_still _ k))

theorem callBack_still (s : State) (k : Nat) (ctx : BitVec 6) (w : Bool) : State.Still s (s.callBack k ctx w) := by
  unfold State.callBack
  simp only
  refine (settle_still s k).trans ?_
  split
  · exact .refl _
  · exact (State.Still.coh _ _).trans (settle_still _ k)

theorem flushSector_still (s : State) (k : Nat) (ctx : BitVec 6) (w : Bool) : State.Still s (s.flushSector k ctx w) := by
  unfold State.flushSector
  split
  · exact (callBack_still ..).trans (State.Still.coh _ _)
  · exact .refl s

/-- A recall of a range leaves no copy of it, and changes nothing but the coherence of lines. -/
theorem recall_still (s : State) (base size : Nat) (ctx : BitVec 6) :
    State.Still s (s.recall base size ctx).2 ∧ ∀ c ∈ (s.recall base size ctx).2.store.coh.copies, sectorIn base size c.sector = false := by
  refine ⟨(State.Still.foldl _ (fun _ _ => settle_still ..) _ _).trans
    ((State.Still.foldl _ (fun _ _ => callBack_still ..) _ _).trans (State.Still.coh _ _)), fun c hc => ?_⟩
  unfold State.recall Coh.without at hc
  simp only [List.mem_filter, Bool.not_eq_true'] at hc
  exact hc.2

theorem replaceAt_still (s : State) (h : Holder) (k : Nat) : State.Still s (s.replaceAt h k) := by
  unfold State.replaceAt
  simp only
  split
  · exact ((evictLine_still ..).trans (settle_still _ k)).trans ((State.Still.coh _ _).trans ((State.Still.coh _ _).trans (settle_still _ k)))
  · exact (State.Still.coh _ _).trans (settle_still _ k)

theorem spill_still (s : State) (h : Holder) : State.Still s (s.spill h) := by
  unfold State.spill
  split
  · exact .refl s
  · simp only
    split
    · exact .refl s
    · split
      · exact replaceAt_still ..
      · exact .refl s

theorem gain_still (s : State) (h : Holder) (k : Nat) (m : Bool) (al : Alloc) (t : Tlb) : State.Still s (s.gain h k m al t) := by
  have h2 : ∀ u : State, State.Still s u → State.Still s (u.spillAt h) := fun u hu => (hu.trans (spill_still ..)).trans (spill_still ..)
  have h1 : State.Still s (if t.priv then { s with store.coh := s.store.coh.ownPage h k m } else s.obtain h k m t.ctx t.xsh al.hint) := by
    split
    · exact State.Still.coh s _
    · exact obtain_still ..
  unfold State.gain
  apply h2
  split
  · exact h1.trans (State.Still.coh _ _)
  · exact h1

/-! ## Loads and stores of memory -/

theorem readHome_data (st : Store) (pa n : Nat) : st.data.readHome pa n = st.readHome pa n := rfl

/-- Waking home dies changes the dies alone, and of a die only that it sleeps. -/
theorem wakeHomes_keeps (s : State) (pa n : Nat) :
    s.wakeHomes pa n = { s with dies := (s.wakeHomes pa n).dies } ∧
      ∀ d, { (s.wakeHomes pa n).dieAt d with asleep := (s.dieAt d).asleep } = s.dieAt d := by
  have one : ∀ (s : State) (a : Nat), s.wakeHome a = { s with dies := (s.wakeHome a).dies } ∧
      ∀ d, { (s.wakeHome a).dieAt d with asleep := (s.dieAt d).asleep } = s.dieAt d := by
    intro s a
    unfold State.wakeHome
    split
    · simp only
      split
      · exact ⟨rfl, fun _ => rfl⟩
      · refine ⟨rfl, fun d => ?_⟩
        simp only [State.dieAt, State.setDie, smGet_smSet]
        split
        · rename_i h; subst h; rfl
        · rfl
    · exact ⟨rfl, fun _ => rfl⟩
  have all : ∀ (l : List Nat) (s : State), l.foldl (fun s k => State.wakeHome s (64 * k)) s =
        { s with dies := (l.foldl (fun s k => State.wakeHome s (64 * k)) s).dies } ∧
      ∀ d, { (l.foldl (fun s k => State.wakeHome s (64 * k)) s).dieAt d with asleep := (s.dieAt d).asleep } = s.dieAt d := by
    intro l
    induction l with
    | nil => exact fun s => ⟨rfl, fun _ => rfl⟩
    | cons k l ih =>
      intro s
      obtain ⟨e1, e2⟩ := one s (64 * k)
      obtain ⟨f1, f2⟩ := ih (s.wakeHome (64 * k))
      rw [List.foldl_cons]
      refine ⟨?_, fun d => ?_⟩
      · rw [f1]
        generalize (l.foldl (fun s k => State.wakeHome s (64 * k)) (s.wakeHome (64 * k))).dies = D
        rw [e1]
      · have a := f2 d
        rw [← e2 d, ← a]
  unfold State.wakeHomes
  split
  · exact all _ s
  · exact ⟨rfl, fun _ => rfl⟩

/-- Where no die sleeps, none is woken. -/
theorem wakeHomes_awake (s : State) (pa n : Nat) (h : ∀ d ∈ s.dies, d.2.asleep = false) : s.wakeHomes pa n = s := by
  unfold State.wakeHomes
  rw [if_neg]
  simpa using h

theorem wakeHome_awake (s : State) (pa : Nat) (h : ∀ d ∈ s.dies, d.2.asleep = false) : s.wakeHome pa = s := by
  unfold State.wakeHome
  rw [if_neg]
  simpa using h

/-- A read notes when its reply comes, and changes nothing else. -/
theorem noteRead_keeps (s : State) (hs : List Holder) (pa n : Nat) : s.noteRead hs pa n = { s with reply := (s.noteRead hs pa n).reply } := by
  unfold State.noteRead
  split
  · unfold State.noteReply
    simp only
    split <;> rfl
  · rfl

/-- A load changes the copies alone, wakes the homes of its sectors, and notes when its reply comes: no value at home, no other part of the
machine. -/
theorem loadPhys_keeps (s : State) (hs : List Holder) (al : Alloc) (t : Tlb) (pa n : Nat) :
    let u := (s.loadPhys hs al t pa n).2
    u.store.data = s.store.data ∧ u = { s.wakeHomes pa n with store := u.store, quads := u.quads, reply := u.reply } ∧
      (∀ q, (u.quadAt q).rest = (s.quadAt q).rest) ∧ (t.nc = false → u.store.nc = s.store.nc) := by
  have hw := (wakeHomes_keeps s pa n).1
  have hr := noteRead_keeps (s.wakeHomes pa n) hs pa n
  have key : ∀ v : State, State.Still ((s.wakeHomes pa n).noteRead hs pa n) v → v.store.data = s.store.data ∧
      v = { s.wakeHomes pa n with store := v.store, quads := v.quads, reply := v.reply } ∧ (∀ q, (v.quadAt q).rest = (s.quadAt q).rest) ∧
      v.store.nc = s.store.nc := by
    intro v h
    refine ⟨by rw [h.data, hr, hw], by conv_lhs => rw [h.same, hr]
                                       rw [h.same, hr], fun q => ?_, by rw [h.nc, hr, hw]⟩
    rw [h.rest, hr, hw]; rfl
  unfold State.loadPhys
  simp only
  split
  · obtain ⟨a, b, c, d⟩ := key _ (.refl _)
    exact ⟨a, b, c, fun _ => d⟩
  · split
    · rename_i hn
      obtain ⟨a, b, c, d⟩ := key _ (.refl _)
      refine ⟨Eq.trans ?_ a, by conv_lhs => rw [b], c, fun h => by simp [h] at hn⟩
      refine foldl_keeps Store.data _ (fun b a => ?_) _ _
      refine foldl_keeps Store.data _ (fun b a => ?_) _ _
      split
      · rfl
      · have : ∀ st : Store, ∀ h k, (st.ncRoom h k).data = st.data := fun st h k => by unfold Store.ncRoom; split <;> rfl
        split
        · exact this ..
        · exact this ..
    · obtain ⟨a, b, c, d⟩ := key _ (State.Still.foldl (fun (s : State) k => match s.store.place hs al k with | some h => s.gain h k false al t | none => s)
        (fun s k => by
          show State.Still s (match s.store.place hs al k with | some h => s.gain h k false al t | none => s)
          split
          · exact gain_still ..
          · exact .refl s) (sectorsOf pa n) _)
      exact ⟨a, b, c, fun _ => d⟩

/-- A load of a coherent page reads the bytes at home. -/
theorem loadPhys_bytes (s : State) (hs : List Holder) (al : Alloc) (t : Tlb) (pa n : Nat) (ht : t.nc = false) :
    (s.loadPhys hs al t pa n).1 = s.store.readHome pa n := by
  have h : ((s.wakeHomes pa n).noteRead hs pa n).store = s.store := by
    rw [noteRead_keeps, (wakeHomes_keeps s pa n).1]
  unfold State.loadPhys
  simp only
  split
  · show Store.readHome _ pa n = _; rw [h]
  · rw [if_neg (by simp [ht])]
    show Store.readHome _ pa n = _; rw [h]

/-- A flush of a sector of which no copy of a non-coherent page stands does nothing. -/
theorem ncFlush_none (s : State) (hs : List Holder) (k : Nat) (h : ∀ c ∈ s.store.nc, c.sector ≠ k) : s.ncFlush hs k = s := by
  unfold State.ncFlush
  induction hs.reverse with
  | nil => rfl
  | cons a l ih =>
    have : s.store.ncOf a k = none := by
      unfold Store.ncOf
      rw [List.find?_eq_none]
      intro c hc
      simp [h c hc]
    rw [List.foldl_cons, this]; exact ih

theorem wakeLines_mem (s : State) (l : List Nat) : (s.wakeLines l).store = s.store := by unfold State.wakeLines; split <;> rfl

theorem wakeLines_quads (s : State) (l : List Nat) : (s.wakeLines l).quads = s.quads := by unfold State.wakeLines; split <;> rfl

/-- The machine that a write wakes, with another storage and other quads. -/
theorem wakeLines_with (s : State) (st : Store) (qs : SMap Quad) (l : List Nat) :
    State.wakeLines { s with store := st, quads := qs } l = { s.wakeLines l with store := st, quads := qs } := by
  unfold State.wakeLines; simp only; split <;> rfl

/-- A write of package memory at home. -/
theorem storePhys_mem (s : State) (pa : Nat) (bs : List Byte) (h : isHost pa = false) (hd : inDevice pa = false) :
    (s.storePhys pa bs).store.mem = writeBytes s.store.mem pa bs := by
  unfold State.storePhys; simp only; rw [if_neg (by simp [hd]), if_neg (by simp [h]), wakeLines_mem]; rfl

/-- A transfer that is mended leaves every byte. -/
theorem mend_keeps (st : Store) (hs : List Holder) (pa n : Nat) :
    let u := st.mend hs pa n
    u.mem = st.mem ∧ u.host = st.host ∧ u.sched = st.sched ∧ u.sram = st.sram ∧ u.posted = st.posted ∧ u.nc = st.nc := by
  have h : ∀ {β : Type} (q : Store → β), (∀ st m b, q { st with marks := m, badAt := b } = q st) → q (st.mend hs pa n) = q st := by
    intro β q hq
    unfold Store.mend
    split
    · rfl
    · refine (hq _ _ _).trans ?_
      exact foldl_keeps q _ (fun b a => hq b _ b.badAt) _ _
  exact ⟨h _ fun _ _ _ => rfl, h _ fun _ _ _ => rfl, h _ fun _ _ _ => rfl, h _ fun _ _ _ => rfl, h _ fun _ _ _ => rfl, h _ fun _ _ _ => rfl⟩

/-- A store to a coherent page of package memory, of whose sectors no copy of a non-coherent page stands: its bytes are written at home, parked
accesses wake, as do the homes of its sectors, and the rest of the machine but the coherence of lines keeps its place. -/
theorem storeAcc_coherent (s : State) (hs : List Holder) (al : Alloc) (t : Tlb) (pa : Nat) (bs : List Byte) (ht : t.nc = false)
    (h : isHost pa = false) (hd : inDevice pa = false) (hn : ∀ c ∈ s.store.nc, c.sector ∉ sectorsOf pa bs.length) :
    let u := s.storeAcc hs al t pa bs
    u.store.mem = writeBytes s.store.mem pa bs ∧ u.store.host = s.store.host ∧ u.store.sched = s.store.sched ∧
      u.store.sram = s.store.sram ∧ u.store.posted = s.store.posted ∧ u.store.nc = s.store.nc ∧
      u = { (s.wakeHomes pa bs.length).wakeLines ((sectorsOf pa bs.length).map (· / 4)) with store := u.store, quads := u.quads } ∧
      ∀ q, (u.quadAt q).rest = (s.quadAt q).rest := by
  intro u
  obtain ⟨w, hw⟩ : ∃ w, w = s.wakeHomes pa bs.length := ⟨_, rfl⟩
  have hws : w = { s with dies := w.dies } := by rw [hw]; exact (wakeHomes_keeps s pa bs.length).1
  have hst : w.store = s.store := by rw [hws]
  have hu : ∃ (st : Store) (v : State), (st.mem = s.store.mem ∧ st.host = s.store.host ∧ st.sched = s.store.sched ∧ st.sram = s.store.sram ∧
      st.posted = s.store.posted ∧ st.nc = s.store.nc) ∧ State.Still { w with store := st } v ∧ u = v.storePhys pa bs := by
    simp only [u]
    unfold State.storeAcc
    rw [← hw, if_neg (by simp [h, hd])]
    simp only
    split
    · refine ⟨w.store, _, by rw [hst]; exact ⟨rfl, rfl, rfl, rfl, rfl, rfl⟩, ?_, rfl⟩
      have hf : (sectorsOf pa bs.length).foldl (fun s k => s.ncFlush hs k) w = w := by
        have : ∀ l : List Nat, (∀ k ∈ l, k ∈ sectorsOf pa bs.length) → l.foldl (fun s k => State.ncFlush s hs k) w = w := by
          intro l
          induction l with
          | nil => intro _; rfl
          | cons a l ih =>
            intro hl
            rw [List.foldl_cons, ncFlush_none w hs a (fun c hc e => hn c (hst ▸ hc) (e ▸ hl a (by simp)))]
            exact ih fun k hk => hl k (by simp [hk])
        exact this _ fun _ hk => hk
      rw [hf]
      exact State.Still.foldl _ (fun _ _ => flushSector_still ..) _ _
    · rw [if_neg (by simp [ht])]
      refine ⟨w.store.mend hs pa bs.length, _, by have := mend_keeps w.store hs pa bs.length; rw [hst] at this ⊢; exact this, ?_, rfl⟩
      refine State.Still.foldl _ (fun s k => ?_) _ _
      split
      · exact gain_still ..
      · exact flushSector_still ..
  obtain ⟨st, v, ⟨k1, k2, k3, k4, k5, k6⟩, ⟨h1, h2, h3, h4⟩, hu⟩ := hu
  have hv : ∀ {β : Type} (f : Store → β), (∀ st, f st.data = f st) → f v.store = f st := fun f hf => by rw [← hf, h1, hf]
  have e : u = { v.wakeLines ((sectorsOf pa bs.length).map (· / 4)) with
      store := v.store.writeHome pa bs, quads := staleQuads v.quads (sectorsOf pa bs.length) } := by
    rw [hu]; unfold State.storePhys
    simp only
    rw [if_neg (by simp [hd]), if_neg (by simp [h])]
    exact wakeLines_with ..
  have es : u.store = v.store.writeHome pa bs := by rw [e]
  have eq : u.quads = staleQuads v.quads (sectorsOf pa bs.length) := by rw [e]
  have em : u.made = v.made ∧ u.big = v.big := by
    rw [e]
    constructor <;> (unfold State.wakeLines; simp only; split <;> rfl)
  refine ⟨?_, ?_, ?_, ?_, ?_, ?_, ?_, fun q => ?_⟩
  · rw [es]; show writeBytes v.store.mem pa bs = _; rw [hv Store.mem fun _ => rfl, k1]
  · rw [es]; exact (hv Store.host fun _ => rfl).trans k2
  · rw [es]; exact (hv Store.sched fun _ => rfl).trans k3
  · rw [es]; exact (hv Store.sram fun _ => rfl).trans k4
  · rw [es]; exact (hv Store.posted fun _ => rfl).trans k5
  · rw [es]; exact h2.trans k6
  · rw [es, eq, e, h3, ← hw]; exact (by rw [wakeLines_with, wakeLines_with])
  · have hq : (u.quadAt q).rest = (v.quadAt q).rest := by
      show (smGet u.quads q (Quad.fresh (u.madePlates q))).rest = (smGet v.quads q (Quad.fresh (v.madePlates q))).rest
      rw [show u.madePlates q = v.madePlates q by unfold State.madePlates; rw [em.1, em.2], eq]
      unfold staleQuads
      induction v.quads with
      | nil => rfl
      | cons x l ih =>
        simp only [List.map_cons, smGet]
        split
        · exact touched_rest ..
        · exact ih
    refine hq.trans ((h4 q).trans ?_)
    rw [hws]; rfl

end Sys2Proof.Machine
end

