-- ==== Sys2Proof/Laws/State.lean ====
section
/-! SUPPORT. What each update of the state leaves as it was: one lemma per field. -/

namespace Sys2Proof.Machine

section
set_option Elab.async false
set_option linter.all false

/-! Writing a register touches nothing but the register file. -/

@[simp] theorem State.setX_cur (s : State) (r : BitVec 5) (v : Word) : (s.setX r v).cur = s.cur := by unfold State.setX; split <;> rfl
@[simp] theorem State.setX_actor (s : State) (r : BitVec 5) (v : Word) : (s.setX r v).actor = s.actor := by unfold State.setX; split <;> rfl
@[simp] theorem State.setX_others (s : State) (r : BitVec 5) (v : Word) : (s.setX r v).others = s.others := by unfold State.setX; split <;> rfl
@[simp] theorem State.setX_quads (s : State) (r : BitVec 5) (v : Word) : (s.setX r v).quads = s.quads := by unfold State.setX; split <;> rfl
@[simp] theorem State.setX_dies (s : State) (r : BitVec 5) (v : Word) : (s.setX r v).dies = s.dies := by unfold State.setX; split <;> rfl
@[simp] theorem State.setX_store (s : State) (r : BitVec 5) (v : Word) : (s.setX r v).store = s.store := by unfold State.setX; split <;> rfl
@[simp] theorem State.setX_time (s : State) (r : BitVec 5) (v : Word) : (s.setX r v).time = s.time := by unfold State.setX; split <;> rfl
@[simp] theorem State.setX_ctxs (s : State) (r : BitVec 5) (v : Word) : (s.setX r v).ctxs = s.ctxs := by unfold State.setX; split <;> rfl
@[simp] theorem State.setX_fns (s : State) (r : BitVec 5) (v : Word) : (s.setX r v).fns = s.fns := by unfold State.setX; split <;> rfl
@[simp] theorem State.setX_launches (s : State) (r : BitVec 5) (v : Word) : (s.setX r v).launches = s.launches := by unfold State.setX; split <;> rfl
@[simp] theorem State.setX_groups (s : State) (r : BitVec 5) (v : Word) : (s.setX r v).groups = s.groups := by unfold State.setX; split <;> rfl
@[simp] theorem State.setX_ids (s : State) (r : BitVec 5) (v : Word) : (s.setX r v).ids = s.ids := by unfold State.setX; split <;> rfl
@[simp] theorem State.setX_irqs (s : State) (r : BitVec 5) (v : Word) : (s.setX r v).irqs = s.irqs := by unfold State.setX; split <;> rfl
@[simp] theorem State.setX_etch (s : State) (r : BitVec 5) (v : Word) : (s.setX r v).etch = s.etch := by unfold State.setX; split <;> rfl
@[simp] theorem State.setX_out (s : State) (r : BitVec 5) (v : Word) : (s.setX r v).out = s.out := by unfold State.setX; split <;> rfl
@[simp] theorem State.setX_saves (s : State) (r : BitVec 5) (v : Word) : (s.setX r v).saves = s.saves := by unfold State.setX; split <;> rfl
@[simp] theorem State.setX_ports (s : State) (r : BitVec 5) (v : Word) : (s.setX r v).ports = s.ports := by unfold State.setX; split <;> rfl
@[simp] theorem State.setX_mgmt (s : State) (r : BitVec 5) (v : Word) : (s.setX r v).mgmt = s.mgmt := by unfold State.setX; split <;> rfl
@[simp] theorem State.setX_big (s : State) (r : BitVec 5) (v : Word) : (s.setX r v).big = s.big := by unfold State.setX; split <;> rfl
@[simp] theorem State.setX_made (s : State) (r : BitVec 5) (v : Word) : (s.setX r v).made = s.made := by unfold State.setX; split <;> rfl
@[simp] theorem State.setX_schedule (s : State) (r : BitVec 5) (v : Word) : (s.setX r v).schedule = s.schedule := by unfold State.setX; split <;> rfl
@[simp] theorem State.setX_freeN (s : State) (r : BitVec 5) (v : Word) : (s.setX r v).freeN = s.freeN := by unfold State.setX; split <;> rfl
@[simp] theorem State.setX_reply (s : State) (r : BitVec 5) (v : Word) : (s.setX r v).reply = s.reply := by unfold State.setX; split <;> rfl
@[simp] theorem State.setX_core_ae (s : State) (r : BitVec 5) (v : Word) : (s.setX r v).core.ae = s.core.ae := by unfold State.setX; split <;> rfl
@[simp] theorem State.setX_core_ve (s : State) (r : BitVec 5) (v : Word) : (s.setX r v).core.ve = s.core.ve := by unfold State.setX; split <;> rfl
@[simp] theorem State.setX_core_me (s : State) (r : BitVec 5) (v : Word) : (s.setX r v).core.me = s.core.me := by unfold State.setX; split <;> rfl
@[simp] theorem State.setX_core_ce (s : State) (r : BitVec 5) (v : Word) : (s.setX r v).core.ce = s.core.ce := by unfold State.setX; split <;> rfl
@[simp] theorem State.setX_core_xe (s : State) (r : BitVec 5) (v : Word) : (s.setX r v).core.xe = s.core.xe := by unfold State.setX; split <;> rfl
@[simp] theorem State.setX_core_tok (s : State) (r : BitVec 5) (v : Word) : (s.setX r v).core.tok = s.core.tok := by unfold State.setX; split <;> rfl
@[simp] theorem State.setX_core_outq (s : State) (r : BitVec 5) (v : Word) : (s.setX r v).core.outq = s.core.outq := by unfold State.setX; split <;> rfl
@[simp] theorem State.setX_core_dq (s : State) (r : BitVec 5) (v : Word) : (s.setX r v).core.dq = s.core.dq := by unfold State.setX; split <;> rfl
@[simp] theorem State.setX_core_sqq (s : State) (r : BitVec 5) (v : Word) : (s.setX r v).core.sqq = s.core.sqq := by unfold State.setX; split <;> rfl
@[simp] theorem State.setX_core_regs (s : State) (r : BitVec 5) (v : Word) : (s.setX r v).core.regs = s.core.regs := by unfold State.setX; split <;> rfl
@[simp] theorem State.setX_core_vex (s : State) (r : BitVec 5) (v : Word) : (s.setX r v).core.vex = s.core.vex := by unfold State.setX; split <;> rfl
@[simp] theorem State.setX_core_loads (s : State) (r : BitVec 5) (v : Word) : (s.setX r v).core.loads = s.core.loads := by unfold State.setX; split <;> rfl
@[simp] theorem State.setX_core_seq (s : State) (r : BitVec 5) (v : Word) : (s.setX r v).core.seq = s.core.seq := by unfold State.setX; split <;> rfl
@[simp] theorem State.setX_core_mex (s : State) (r : BitVec 5) (v : Word) : (s.setX r v).core.mex = s.core.mex := by unfold State.setX; split <;> rfl
@[simp] theorem State.setX_core_rounds (s : State) (r : BitVec 5) (v : Word) : (s.setX r v).core.rounds = s.core.rounds := by unfold State.setX; split <;> rfl
@[simp] theorem State.setX_core_roundOrder (s : State) (r : BitVec 5) (v : Word) : (s.setX r v).core.roundOrder = s.core.roundOrder := by unfold State.setX; split <;> rfl
@[simp] theorem State.setX_core_etched (s : State) (r : BitVec 5) (v : Word) : (s.setX r v).core.etched = s.core.etched := by unfold State.setX; split <;> rfl
@[simp] theorem State.setX_core_hosting (s : State) (r : BitVec 5) (v : Word) : (s.setX r v).core.hosting = s.core.hosting := by unfold State.setX; split <;> rfl
@[simp] theorem State.setX_core_refusals (s : State) (r : BitVec 5) (v : Word) : (s.setX r v).core.refusals = s.core.refusals := by unfold State.setX; split <;> rfl
@[simp] theorem State.setX_core_sends (s : State) (r : BitVec 5) (v : Word) : (s.setX r v).core.sends = s.core.sends := by unfold State.setX; split <;> rfl
@[simp] theorem State.setX_core_remote (s : State) (r : BitVec 5) (v : Word) : (s.setX r v).core.remote = s.core.remote := by unfold State.setX; split <;> rfl
@[simp] theorem State.setX_core_aeWheel (s : State) (r : BitVec 5) (v : Word) : (s.setX r v).core.aeWheel = s.core.aeWheel := by unfold State.setX; split <;> rfl
@[simp] theorem State.setX_core_ceWheel (s : State) (r : BitVec 5) (v : Word) : (s.setX r v).core.ceWheel = s.core.ceWheel := by unfold State.setX; split <;> rfl
@[simp] theorem State.setX_core_stream (s : State) (r : BitVec 5) (v : Word) : (s.setX r v).core.stream = s.core.stream := by unfold State.setX; split <;> rfl
@[simp] theorem State.setX_core_ahead (s : State) (r : BitVec 5) (v : Word) : (s.setX r v).core.ahead = s.core.ahead := by unfold State.setX; split <;> rfl
@[simp] theorem State.setX_core_counts (s : State) (r : BitVec 5) (v : Word) : (s.setX r v).core.counts = s.core.counts := by unfold State.setX; split <;> rfl
@[simp] theorem State.setX_core_frozen (s : State) (r : BitVec 5) (v : Word) : (s.setX r v).core.frozen = s.core.frozen := by unfold State.setX; split <;> rfl
@[simp] theorem State.setX_core_freezing (s : State) (r : BitVec 5) (v : Word) : (s.setX r v).core.freezing = s.core.freezing := by unfold State.setX; split <;> rfl
@[simp] theorem State.setX_core_held (s : State) (r : BitVec 5) (v : Word) : (s.setX r v).core.held = s.core.held := by unfold State.setX; split <;> rfl
@[simp] theorem State.setX_core_stamp (s : State) (r : BitVec 5) (v : Word) : (s.setX r v).core.stamp = s.core.stamp := by unfold State.setX; split <;> rfl
@[simp] theorem State.setX_sq_pc (s : State) (r : BitVec 5) (v : Word) : (s.setX r v).core.sq.pc = s.core.sq.pc := by unfold State.setX; split <;> rfl
@[simp] theorem State.setX_sq_exitAddr (s : State) (r : BitVec 5) (v : Word) : (s.setX r v).core.sq.exitAddr = s.core.sq.exitAddr := by unfold State.setX; split <;> rfl
@[simp] theorem State.setX_sq_run (s : State) (r : BitVec 5) (v : Word) : (s.setX r v).core.sq.run = s.core.sq.run := by unfold State.setX; split <;> rfl
@[simp] theorem State.setX_sq_trap (s : State) (r : BitVec 5) (v : Word) : (s.setX r v).core.sq.trap = s.core.sq.trap := by unfold State.setX; split <;> rfl
@[simp] theorem State.setX_sq_mtrap (s : State) (r : BitVec 5) (v : Word) : (s.setX r v).core.sq.mtrap = s.core.sq.mtrap := by unfold State.setX; split <;> rfl
@[simp] theorem State.setX_sq_ctxid (s : State) (r : BitVec 5) (v : Word) : (s.setX r v).core.sq.ctxid = s.core.sq.ctxid := by unfold State.setX; split <;> rfl
@[simp] theorem State.setX_sq_maxscope (s : State) (r : BitVec 5) (v : Word) : (s.setX r v).core.sq.maxscope = s.core.sq.maxscope := by unfold State.setX; split <;> rfl
@[simp] theorem State.setX_sq_demote (s : State) (r : BitVec 5) (v : Word) : (s.setX r v).core.sq.demote = s.core.sq.demote := by unfold State.setX; split <;> rfl
@[simp] theorem State.setX_sq_vmode (s : State) (r : BitVec 5) (v : Word) : (s.setX r v).core.sq.vmode = s.core.sq.vmode := by unfold State.setX; split <;> rfl
@[simp] theorem State.setX_sq_spec (s : State) (r : BitVec 5) (v : Word) : (s.setX r v).core.sq.spec = s.core.sq.spec := by unfold State.setX; split <;> rfl
@[simp] theorem State.setX_sq_last (s : State) (r : BitVec 5) (v : Word) : (s.setX r v).core.sq.last = s.core.sq.last := by unfold State.setX; split <;> rfl
@[simp] theorem State.setX_sq_pending (s : State) (r : BitVec 5) (v : Word) : (s.setX r v).core.sq.pending = s.core.sq.pending := by unfold State.setX; split <;> rfl
@[simp] theorem State.setX_sq_fencePushed (s : State) (r : BitVec 5) (v : Word) : (s.setX r v).core.sq.fencePushed = s.core.sq.fencePushed := by unfold State.setX; split <;> rfl
@[simp] theorem State.setX_sq_sleep (s : State) (r : BitVec 5) (v : Word) : (s.setX r v).core.sq.sleep = s.core.sq.sleep := by unfold State.setX; split <;> rfl
@[simp] theorem State.setX_sq_bar (s : State) (r : BitVec 5) (v : Word) : (s.setX r v).core.sq.bar = s.core.sq.bar := by unfold State.setX; split <;> rfl
@[simp] theorem State.setX_sq_barsBelow (s : State) (r : BitVec 5) (v : Word) : (s.setX r v).core.sq.barsBelow = s.core.sq.barsBelow := by unfold State.setX; split <;> rfl
@[simp] theorem State.setX_sq_fetched (s : State) (r : BitVec 5) (v : Word) : (s.setX r v).core.sq.fetched = s.core.sq.fetched := by unfold State.setX; split <;> rfl
@[simp] theorem State.setX_sq_ahead (s : State) (r : BitVec 5) (v : Word) : (s.setX r v).core.sq.ahead = s.core.sq.ahead := by unfold State.setX; split <;> rfl
@[simp] theorem State.setX_sq_nextAt (s : State) (r : BitVec 5) (v : Word) : (s.setX r v).core.sq.nextAt = s.core.sq.nextAt := by unfold State.setX; split <;> rfl
@[simp] theorem State.setX_sq_inWfi (s : State) (r : BitVec 5) (v : Word) : (s.setX r v).core.sq.inWfi = s.core.sq.inWfi := by unfold State.setX; split <;> rfl
@[simp] theorem State.setX_sq_invalidated (s : State) (r : BitVec 5) (v : Word) : (s.setX r v).core.sq.invalidated = s.core.sq.invalidated := by unfold State.setX; split <;> rfl
@[simp] theorem State.setX_sq_vmodeAt (s : State) (r : BitVec 5) (v : Word) : (s.setX r v).core.sq.vmodeAt = s.core.sq.vmodeAt := by unfold State.setX; split <;> rfl
@[simp] theorem State.setX_sq_resolvedAt (s : State) (r : BitVec 5) (v : Word) : (s.setX r v).core.sq.resolvedAt = s.core.sq.resolvedAt := by unfold State.setX; split <;> rfl
@[simp] theorem State.setX_sq_stalledAt (s : State) (r : BitVec 5) (v : Word) : (s.setX r v).core.sq.stalledAt = s.core.sq.stalledAt := by unfold State.setX; split <;> rfl
@[simp] theorem State.setX_sq_parked (s : State) (r : BitVec 5) (v : Word) : (s.setX r v).core.sq.parked = s.core.sq.parked := by unfold State.setX; split <;> rfl
@[simp] theorem State.setX_sq_woken (s : State) (r : BitVec 5) (v : Word) : (s.setX r v).core.sq.woken = s.core.sq.woken := by unfold State.setX; split <;> rfl
@[simp] theorem State.setX_sq_parkCounted (s : State) (r : BitVec 5) (v : Word) : (s.setX r v).core.sq.parkCounted = s.core.sq.parkCounted := by unfold State.setX; split <;> rfl
@[simp] theorem State.setX_sq_lineUp (s : State) (r : BitVec 5) (v : Word) : (s.setX r v).core.sq.lineUp = s.core.sq.lineUp := by unfold State.setX; split <;> rfl
@[simp] theorem State.setX_sq_tlb (s : State) (r : BitVec 5) (v : Word) : (s.setX r v).core.sq.tlb = s.core.sq.tlb := by unfold State.setX; split <;> rfl
@[simp] theorem State.setX_zero (s : State) (v : Word) : s.setX 0 v = s := rfl

/-! Moving the program counter. -/

@[simp] theorem State.adv_cur (s : State) (n : Nat) : (s.adv n).cur = s.cur := rfl
@[simp] theorem State.adv_actor (s : State) (n : Nat) : (s.adv n).actor = s.actor := rfl
@[simp] theorem State.adv_others (s : State) (n : Nat) : (s.adv n).others = s.others := rfl
@[simp] theorem State.adv_quads (s : State) (n : Nat) : (s.adv n).quads = s.quads := rfl
@[simp] theorem State.adv_dies (s : State) (n : Nat) : (s.adv n).dies = s.dies := rfl
@[simp] theorem State.adv_store (s : State) (n : Nat) : (s.adv n).store = s.store := rfl
@[simp] theorem State.adv_time (s : State) (n : Nat) : (s.adv n).time = s.time := rfl
@[simp] theorem State.adv_ctxs (s : State) (n : Nat) : (s.adv n).ctxs = s.ctxs := rfl
@[simp] theorem State.adv_fns (s : State) (n : Nat) : (s.adv n).fns = s.fns := rfl
@[simp] theorem State.adv_launches (s : State) (n : Nat) : (s.adv n).launches = s.launches := rfl
@[simp] theorem State.adv_groups (s : State) (n : Nat) : (s.adv n).groups = s.groups := rfl
@[simp] theorem State.adv_ids (s : State) (n : Nat) : (s.adv n).ids = s.ids := rfl
@[simp] theorem State.adv_irqs (s : State) (n : Nat) : (s.adv n).irqs = s.irqs := rfl
@[simp] theorem State.adv_etch (s : State) (n : Nat) : (s.adv n).etch = s.etch := rfl
@[simp] theorem State.adv_out (s : State) (n : Nat) : (s.adv n).out = s.out := rfl
@[simp] theorem State.adv_saves (s : State) (n : Nat) : (s.adv n).saves = s.saves := rfl
@[simp] theorem State.adv_ports (s : State) (n : Nat) : (s.adv n).ports = s.ports := rfl
@[simp] theorem State.adv_mgmt (s : State) (n : Nat) : (s.adv n).mgmt = s.mgmt := rfl
@[simp] theorem State.adv_big (s : State) (n : Nat) : (s.adv n).big = s.big := rfl
@[simp] theorem State.adv_made (s : State) (n : Nat) : (s.adv n).made = s.made := rfl
@[simp] theorem State.adv_schedule (s : State) (n : Nat) : (s.adv n).schedule = s.schedule := rfl
@[simp] theorem State.adv_freeN (s : State) (n : Nat) : (s.adv n).freeN = s.freeN := rfl
@[simp] theorem State.adv_reply (s : State) (n : Nat) : (s.adv n).reply = s.reply := rfl
@[simp] theorem State.adv_core_ae (s : State) (n : Nat) : (s.adv n).core.ae = s.core.ae := rfl
@[simp] theorem State.adv_core_ve (s : State) (n : Nat) : (s.adv n).core.ve = s.core.ve := rfl
@[simp] theorem State.adv_core_me (s : State) (n : Nat) : (s.adv n).core.me = s.core.me := rfl
@[simp] theorem State.adv_core_ce (s : State) (n : Nat) : (s.adv n).core.ce = s.core.ce := rfl
@[simp] theorem State.adv_core_xe (s : State) (n : Nat) : (s.adv n).core.xe = s.core.xe := rfl
@[simp] theorem State.adv_core_tok (s : State) (n : Nat) : (s.adv n).core.tok = s.core.tok := rfl
@[simp] theorem State.adv_core_outq (s : State) (n : Nat) : (s.adv n).core.outq = s.core.outq := rfl
@[simp] theorem State.adv_core_dq (s : State) (n : Nat) : (s.adv n).core.dq = s.core.dq := rfl
@[simp] theorem State.adv_core_sqq (s : State) (n : Nat) : (s.adv n).core.sqq = s.core.sqq := rfl
@[simp] theorem State.adv_core_regs (s : State) (n : Nat) : (s.adv n).core.regs = s.core.regs := rfl
@[simp] theorem State.adv_core_vex (s : State) (n : Nat) : (s.adv n).core.vex = s.core.vex := rfl
@[simp] theorem State.adv_core_loads (s : State) (n : Nat) : (s.adv n).core.loads = s.core.loads := rfl
@[simp] theorem State.adv_core_seq (s : State) (n : Nat) : (s.adv n).core.seq = s.core.seq := rfl
@[simp] theorem State.adv_core_mex (s : State) (n : Nat) : (s.adv n).core.mex = s.core.mex := rfl
@[simp] theorem State.adv_core_rounds (s : State) (n : Nat) : (s.adv n).core.rounds = s.core.rounds := rfl
@[simp] theorem State.adv_core_roundOrder (s : State) (n : Nat) : (s.adv n).core.roundOrder = s.core.roundOrder := rfl
@[simp] theorem State.adv_core_etched (s : State) (n : Nat) : (s.adv n).core.etched = s.core.etched := rfl
@[simp] theorem State.adv_core_hosting (s : State) (n : Nat) : (s.adv n).core.hosting = s.core.hosting := rfl
@[simp] theorem State.adv_core_refusals (s : State) (n : Nat) : (s.adv n).core.refusals = s.core.refusals := rfl
@[simp] theorem State.adv_core_sends (s : State) (n : Nat) : (s.adv n).core.sends = s.core.sends := rfl
@[simp] theorem State.adv_core_remote (s : State) (n : Nat) : (s.adv n).core.remote = s.core.remote := rfl
@[simp] theorem State.adv_core_aeWheel (s : State) (n : Nat) : (s.adv n).core.aeWheel = s.core.aeWheel := rfl
@[simp] theorem State.adv_core_ceWheel (s : State) (n : Nat) : (s.adv n).core.ceWheel = s.core.ceWheel := rfl
@[simp] theorem State.adv_core_stream (s : State) (n : Nat) : (s.adv n).core.stream = s.core.stream := rfl
@[simp] theorem State.adv_core_ahead (s : State) (n : Nat) : (s.adv n).core.ahead = s.core.ahead := rfl
@[simp] theorem State.adv_core_counts (s : State) (n : Nat) : (s.adv n).core.counts = s.core.counts := rfl
@[simp] theorem State.adv_core_frozen (s : State) (n : Nat) : (s.adv n).core.frozen = s.core.frozen := rfl
@[simp] theorem State.adv_core_freezing (s : State) (n : Nat) : (s.adv n).core.freezing = s.core.freezing := rfl
@[simp] theorem State.adv_core_held (s : State) (n : Nat) : (s.adv n).core.held = s.core.held := rfl
@[simp] theorem State.adv_core_stamp (s : State) (n : Nat) : (s.adv n).core.stamp = s.core.stamp := rfl
@[simp] theorem State.adv_sq_x (s : State) (n : Nat) : (s.adv n).core.sq.x = s.core.sq.x := rfl
@[simp] theorem State.adv_sq_pc (s : State) (n : Nat) : (s.adv n).core.sq.pc = s.core.sq.pc + BitVec.ofNat 64 n := rfl
@[simp] theorem State.adv_sq_exitAddr (s : State) (n : Nat) : (s.adv n).core.sq.exitAddr = s.core.sq.exitAddr := rfl
@[simp] theorem State.adv_sq_run (s : State) (n : Nat) : (s.adv n).core.sq.run = s.core.sq.run := rfl
@[simp] theorem State.adv_sq_trap (s : State) (n : Nat) : (s.adv n).core.sq.trap = s.core.sq.trap := rfl
@[simp] theorem State.adv_sq_mtrap (s : State) (n : Nat) : (s.adv n).core.sq.mtrap = s.core.sq.mtrap := rfl
@[simp] theorem State.adv_sq_ctxid (s : State) (n : Nat) : (s.adv n).core.sq.ctxid = s.core.sq.ctxid := rfl
@[simp] theorem State.adv_sq_maxscope (s : State) (n : Nat) : (s.adv n).core.sq.maxscope = s.core.sq.maxscope := rfl
@[simp] theorem State.adv_sq_demote (s : State) (n : Nat) : (s.adv n).core.sq.demote = s.core.sq.demote := rfl
@[simp] theorem State.adv_sq_vmode (s : State) (n : Nat) : (s.adv n).core.sq.vmode = s.core.sq.vmode := rfl
@[simp] theorem State.adv_sq_spec (s : State) (n : Nat) : (s.adv n).core.sq.spec = s.core.sq.spec := rfl
@[simp] theorem State.adv_sq_last (s : State) (n : Nat) : (s.adv n).core.sq.last = s.core.sq.last := rfl
@[simp] theorem State.adv_sq_pending (s : State) (n : Nat) : (s.adv n).core.sq.pending = s.core.sq.pending := rfl
@[simp] theorem State.adv_sq_fencePushed (s : State) (n : Nat) : (s.adv n).core.sq.fencePushed = s.core.sq.fencePushed := rfl
@[simp] theorem State.adv_sq_sleep (s : State) (n : Nat) : (s.adv n).core.sq.sleep = s.core.sq.sleep := rfl
@[simp] theorem State.adv_sq_bar (s : State) (n : Nat) : (s.adv n).core.sq.bar = s.core.sq.bar := rfl
@[simp] theorem State.adv_sq_barsBelow (s : State) (n : Nat) : (s.adv n).core.sq.barsBelow = s.core.sq.barsBelow := rfl
@[simp] theorem State.adv_sq_fetched (s : State) (n : Nat) : (s.adv n).core.sq.fetched = none := rfl
@[simp] theorem State.adv_sq_ahead (s : State) (n : Nat) : (s.adv n).core.sq.ahead = s.core.sq.ahead := rfl
@[simp] theorem State.adv_sq_nextAt (s : State) (n : Nat) : (s.adv n).core.sq.nextAt = s.core.sq.nextAt := rfl
@[simp] theorem State.adv_sq_inWfi (s : State) (n : Nat) : (s.adv n).core.sq.inWfi = false := rfl
@[simp] theorem State.adv_sq_invalidated (s : State) (n : Nat) : (s.adv n).core.sq.invalidated = false := rfl
@[simp] theorem State.adv_sq_vmodeAt (s : State) (n : Nat) : (s.adv n).core.sq.vmodeAt = s.core.sq.vmodeAt := rfl
@[simp] theorem State.adv_sq_resolvedAt (s : State) (n : Nat) : (s.adv n).core.sq.resolvedAt = none := rfl
@[simp] theorem State.adv_sq_stalledAt (s : State) (n : Nat) : (s.adv n).core.sq.stalledAt = none := rfl
@[simp] theorem State.adv_sq_parked (s : State) (n : Nat) : (s.adv n).core.sq.parked = s.core.sq.parked := rfl
@[simp] theorem State.adv_sq_woken (s : State) (n : Nat) : (s.adv n).core.sq.woken = s.core.sq.woken := rfl
@[simp] theorem State.adv_sq_parkCounted (s : State) (n : Nat) : (s.adv n).core.sq.parkCounted = s.core.sq.parkCounted := rfl
@[simp] theorem State.adv_sq_lineUp (s : State) (n : Nat) : (s.adv n).core.sq.lineUp = s.core.sq.lineUp := rfl
@[simp] theorem State.adv_sq_tlb (s : State) (n : Nat) : (s.adv n).core.sq.tlb = s.core.sq.tlb := rfl

/-! Setting the program counter. -/

@[simp] theorem State.jump_cur (s : State) (t : Word) : (s.jump t).cur = s.cur := rfl
@[simp] theorem State.jump_actor (s : State) (t : Word) : (s.jump t).actor = s.actor := rfl
@[simp] theorem State.jump_others (s : State) (t : Word) : (s.jump t).others = s.others := rfl
@[simp] theorem State.jump_quads (s : State) (t : Word) : (s.jump t).quads = s.quads := rfl
@[simp] theorem State.jump_dies (s : State) (t : Word) : (s.jump t).dies = s.dies := rfl
@[simp] theorem State.jump_store (s : State) (t : Word) : (s.jump t).store = s.store := rfl
@[simp] theorem State.jump_time (s : State) (t : Word) : (s.jump t).time = s.time := rfl
@[simp] theorem State.jump_ctxs (s : State) (t : Word) : (s.jump t).ctxs = s.ctxs := rfl
@[simp] theorem State.jump_fns (s : State) (t : Word) : (s.jump t).fns = s.fns := rfl
@[simp] theorem State.jump_launches (s : State) (t : Word) : (s.jump t).launches = s.launches := rfl
@[simp] theorem State.jump_groups (s : State) (t : Word) : (s.jump t).groups = s.groups := rfl
@[simp] theorem State.jump_ids (s : State) (t : Word) : (s.jump t).ids = s.ids := rfl
@[simp] theorem State.jump_irqs (s : State) (t : Word) : (s.jump t).irqs = s.irqs := rfl
@[simp] theorem State.jump_etch (s : State) (t : Word) : (s.jump t).etch = s.etch := rfl
@[simp] theorem State.jump_out (s : State) (t : Word) : (s.jump t).out = s.out := rfl
@[simp] theorem State.jump_saves (s : State) (t : Word) : (s.jump t).saves = s.saves := rfl
@[simp] theorem State.jump_ports (s : State) (t : Word) : (s.jump t).ports = s.ports := rfl
@[simp] theorem State.jump_mgmt (s : State) (t : Word) : (s.jump t).mgmt = s.mgmt := rfl
@[simp] theorem State.jump_big (s : State) (t : Word) : (s.jump t).big = s.big := rfl
@[simp] theorem State.jump_made (s : State) (t : Word) : (s.jump t).made = s.made := rfl
@[simp] theorem State.jump_schedule (s : State) (t : Word) : (s.jump t).schedule = s.schedule := rfl
@[simp] theorem State.jump_freeN (s : State) (t : Word) : (s.jump t).freeN = s.freeN := rfl
@[simp] theorem State.jump_reply (s : State) (t : Word) : (s.jump t).reply = s.reply := rfl
@[simp] theorem State.jump_core_ae (s : State) (t : Word) : (s.jump t).core.ae = s.core.ae := rfl
@[simp] theorem State.jump_core_ve (s : State) (t : Word) : (s.jump t).core.ve = s.core.ve := rfl
@[simp] theorem State.jump_core_me (s : State) (t : Word) : (s.jump t).core.me = s.core.me := rfl
@[simp] theorem State.jump_core_ce (s : State) (t : Word) : (s.jump t).core.ce = s.core.ce := rfl
@[simp] theorem State.jump_core_xe (s : State) (t : Word) : (s.jump t).core.xe = s.core.xe := rfl
@[simp] theorem State.jump_core_tok (s : State) (t : Word) : (s.jump t).core.tok = s.core.tok := rfl
@[simp] theorem State.jump_core_outq (s : State) (t : Word) : (s.jump t).core.outq = s.core.outq := rfl
@[simp] theorem State.jump_core_dq (s : State) (t : Word) : (s.jump t).core.dq = s.core.dq := rfl
@[simp] theorem State.jump_core_sqq (s : State) (t : Word) : (s.jump t).core.sqq = s.core.sqq := rfl
@[simp] theorem State.jump_core_regs (s : State) (t : Word) : (s.jump t).core.regs = s.core.regs := rfl
@[simp] theorem State.jump_core_vex (s : State) (t : Word) : (s.jump t).core.vex = s.core.vex := rfl
@[simp] theorem State.jump_core_loads (s : State) (t : Word) : (s.jump t).core.loads = s.core.loads := rfl
@[simp] theorem State.jump_core_seq (s : State) (t : Word) : (s.jump t).core.seq = s.core.seq := rfl
@[simp] theorem State.jump_core_mex (s : State) (t : Word) : (s.jump t).core.mex = s.core.mex := rfl
@[simp] theorem State.jump_core_rounds (s : State) (t : Word) : (s.jump t).core.rounds = s.core.rounds := rfl
@[simp] theorem State.jump_core_roundOrder (s : State) (t : Word) : (s.jump t).core.roundOrder = s.core.roundOrder := rfl
@[simp] theorem State.jump_core_etched (s : State) (t : Word) : (s.jump t).core.etched = s.core.etched := rfl
@[simp] theorem State.jump_core_hosting (s : State) (t : Word) : (s.jump t).core.hosting = s.core.hosting := rfl
@[simp] theorem State.jump_core_refusals (s : State) (t : Word) : (s.jump t).core.refusals = s.core.refusals := rfl
@[simp] theorem State.jump_core_sends (s : State) (t : Word) : (s.jump t).core.sends = s.core.sends := rfl
@[simp] theorem State.jump_core_remote (s : State) (t : Word) : (s.jump t).core.remote = s.core.remote := rfl
@[simp] theorem State.jump_core_aeWheel (s : State) (t : Word) : (s.jump t).core.aeWheel = s.core.aeWheel := rfl
@[simp] theorem State.jump_core_ceWheel (s : State) (t : Word) : (s.jump t).core.ceWheel = s.core.ceWheel := rfl
@[simp] theorem State.jump_core_stream (s : State) (t : Word) : (s.jump t).core.stream = s.core.stream := rfl
@[simp] theorem State.jump_core_ahead (s : State) (t : Word) : (s.jump t).core.ahead = s.core.ahead := rfl
@[simp] theorem State.jump_core_counts (s : State) (t : Word) : (s.jump t).core.counts = s.core.counts := rfl
@[simp] theorem State.jump_core_frozen (s : State) (t : Word) : (s.jump t).core.frozen = s.core.frozen := rfl
@[simp] theorem State.jump_core_freezing (s : State) (t : Word) : (s.jump t).core.freezing = s.core.freezing := rfl
@[simp] theorem State.jump_core_held (s : State) (t : Word) : (s.jump t).core.held = s.core.held := rfl
@[simp] theorem State.jump_core_stamp (s : State) (t : Word) : (s.jump t).core.stamp = s.core.stamp := rfl
@[simp] theorem State.jump_sq_x (s : State) (t : Word) : (s.jump t).core.sq.x = s.core.sq.x := rfl
@[simp] theorem State.jump_sq_pc (s : State) (t : Word) : (s.jump t).core.sq.pc = t := rfl
@[simp] theorem State.jump_sq_exitAddr (s : State) (t : Word) : (s.jump t).core.sq.exitAddr = s.core.sq.exitAddr := rfl
@[simp] theorem State.jump_sq_run (s : State) (t : Word) : (s.jump t).core.sq.run = s.core.sq.run := rfl
@[simp] theorem State.jump_sq_trap (s : State) (t : Word) : (s.jump t).core.sq.trap = s.core.sq.trap := rfl
@[simp] theorem State.jump_sq_mtrap (s : State) (t : Word) : (s.jump t).core.sq.mtrap = s.core.sq.mtrap := rfl
@[simp] theorem State.jump_sq_ctxid (s : State) (t : Word) : (s.jump t).core.sq.ctxid = s.core.sq.ctxid := rfl
@[simp] theorem State.jump_sq_maxscope (s : State) (t : Word) : (s.jump t).core.sq.maxscope = s.core.sq.maxscope := rfl
@[simp] theorem State.jump_sq_demote (s : State) (t : Word) : (s.jump t).core.sq.demote = s.core.sq.demote := rfl
@[simp] theorem State.jump_sq_vmode (s : State) (t : Word) : (s.jump t).core.sq.vmode = s.core.sq.vmode := rfl
@[simp] theorem State.jump_sq_spec (s : State) (t : Word) : (s.jump t).core.sq.spec = s.core.sq.spec := rfl
@[simp] theorem State.jump_sq_last (s : State) (t : Word) : (s.jump t).core.sq.last = s.core.sq.last := rfl
@[simp] theorem State.jump_sq_pending (s : State) (t : Word) : (s.jump t).core.sq.pending = s.core.sq.pending := rfl
@[simp] theorem State.jump_sq_fencePushed (s : State) (t : Word) : (s.jump t).core.sq.fencePushed = s.core.sq.fencePushed := rfl
@[simp] theorem State.jump_sq_sleep (s : State) (t : Word) : (s.jump t).core.sq.sleep = s.core.sq.sleep := rfl
@[simp] theorem State.jump_sq_bar (s : State) (t : Word) : (s.jump t).core.sq.bar = s.core.sq.bar := rfl
@[simp] theorem State.jump_sq_barsBelow (s : State) (t : Word) : (s.jump t).core.sq.barsBelow = s.core.sq.barsBelow := rfl
@[simp] theorem State.jump_sq_fetched (s : State) (t : Word) : (s.jump t).core.sq.fetched = none := rfl
@[simp] theorem State.jump_sq_ahead (s : State) (t : Word) : (s.jump t).core.sq.ahead = s.core.sq.ahead := rfl
@[simp] theorem State.jump_sq_nextAt (s : State) (t : Word) : (s.jump t).core.sq.nextAt = s.core.sq.nextAt := rfl
@[simp] theorem State.jump_sq_inWfi (s : State) (t : Word) : (s.jump t).core.sq.inWfi = false := rfl
@[simp] theorem State.jump_sq_invalidated (s : State) (t : Word) : (s.jump t).core.sq.invalidated = false := rfl
@[simp] theorem State.jump_sq_vmodeAt (s : State) (t : Word) : (s.jump t).core.sq.vmodeAt = s.core.sq.vmodeAt := rfl
@[simp] theorem State.jump_sq_resolvedAt (s : State) (t : Word) : (s.jump t).core.sq.resolvedAt = none := rfl
@[simp] theorem State.jump_sq_stalledAt (s : State) (t : Word) : (s.jump t).core.sq.stalledAt = none := rfl
@[simp] theorem State.jump_sq_parked (s : State) (t : Word) : (s.jump t).core.sq.parked = s.core.sq.parked := rfl
@[simp] theorem State.jump_sq_woken (s : State) (t : Word) : (s.jump t).core.sq.woken = s.core.sq.woken := rfl
@[simp] theorem State.jump_sq_parkCounted (s : State) (t : Word) : (s.jump t).core.sq.parkCounted = s.core.sq.parkCounted := rfl
@[simp] theorem State.jump_sq_lineUp (s : State) (t : Word) : (s.jump t).core.sq.lineUp = s.core.sq.lineUp := rfl
@[simp] theorem State.jump_sq_tlb (s : State) (t : Word) : (s.jump t).core.sq.tlb = s.core.sq.tlb := rfl

/-! Replacing an engine. -/

@[simp] theorem State.setEng_cur (s : State) (e : Engine) (g : Eng) : (s.setEng e g).cur = s.cur := rfl
@[simp] theorem State.setEng_actor (s : State) (e : Engine) (g : Eng) : (s.setEng e g).actor = s.actor := rfl
@[simp] theorem State.setEng_others (s : State) (e : Engine) (g : Eng) : (s.setEng e g).others = s.others := rfl
@[simp] theorem State.setEng_quads (s : State) (e : Engine) (g : Eng) : (s.setEng e g).quads = s.quads := rfl
@[simp] theorem State.setEng_dies (s : State) (e : Engine) (g : Eng) : (s.setEng e g).dies = s.dies := rfl
@[simp] theorem State.setEng_store (s : State) (e : Engine) (g : Eng) : (s.setEng e g).store = s.store := rfl
@[simp] theorem State.setEng_time (s : State) (e : Engine) (g : Eng) : (s.setEng e g).time = s.time := rfl
@[simp] theorem State.setEng_ctxs (s : State) (e : Engine) (g : Eng) : (s.setEng e g).ctxs = s.ctxs := rfl
@[simp] theorem State.setEng_fns (s : State) (e : Engine) (g : Eng) : (s.setEng e g).fns = s.fns := rfl
@[simp] theorem State.setEng_launches (s : State) (e : Engine) (g : Eng) : (s.setEng e g).launches = s.launches := rfl
@[simp] theorem State.setEng_groups (s : State) (e : Engine) (g : Eng) : (s.setEng e g).groups = s.groups := rfl
@[simp] theorem State.setEng_ids (s : State) (e : Engine) (g : Eng) : (s.setEng e g).ids = s.ids := rfl
@[simp] theorem State.setEng_irqs (s : State) (e : Engine) (g : Eng) : (s.setEng e g).irqs = s.irqs := rfl
@[simp] theorem State.setEng_etch (s : State) (e : Engine) (g : Eng) : (s.setEng e g).etch = s.etch := rfl
@[simp] theorem State.setEng_out (s : State) (e : Engine) (g : Eng) : (s.setEng e g).out = s.out := rfl
@[simp] theorem State.setEng_saves (s : State) (e : Engine) (g : Eng) : (s.setEng e g).saves = s.saves := rfl
@[simp] theorem State.setEng_ports (s : State) (e : Engine) (g : Eng) : (s.setEng e g).ports = s.ports := rfl
@[simp] theorem State.setEng_mgmt (s : State) (e : Engine) (g : Eng) : (s.setEng e g).mgmt = s.mgmt := rfl
@[simp] theorem State.setEng_big (s : State) (e : Engine) (g : Eng) : (s.setEng e g).big = s.big := rfl
@[simp] theorem State.setEng_made (s : State) (e : Engine) (g : Eng) : (s.setEng e g).made = s.made := rfl
@[simp] theorem State.setEng_schedule (s : State) (e : Engine) (g : Eng) : (s.setEng e g).schedule = s.schedule := rfl
@[simp] theorem State.setEng_freeN (s : State) (e : Engine) (g : Eng) : (s.setEng e g).freeN = s.freeN := rfl
@[simp] theorem State.setEng_reply (s : State) (e : Engine) (g : Eng) : (s.setEng e g).reply = s.reply := rfl
@[simp] theorem Core.setEng_sq (c : Core) (e : Engine) (g : Eng) : (c.setEng e g).sq = c.sq := by cases e <;> rfl
@[simp] theorem State.setEng_core_sq (s : State) (e : Engine) (g : Eng) : (s.setEng e g).core.sq = s.core.sq := by cases e <;> rfl
@[simp] theorem Core.setEng_tok (c : Core) (e : Engine) (g : Eng) : (c.setEng e g).tok = c.tok := by cases e <;> rfl
@[simp] theorem State.setEng_core_tok (s : State) (e : Engine) (g : Eng) : (s.setEng e g).core.tok = s.core.tok := by cases e <;> rfl
@[simp] theorem Core.setEng_outq (c : Core) (e : Engine) (g : Eng) : (c.setEng e g).outq = c.outq := by cases e <;> rfl
@[simp] theorem State.setEng_core_outq (s : State) (e : Engine) (g : Eng) : (s.setEng e g).core.outq = s.core.outq := by cases e <;> rfl
@[simp] theorem Core.setEng_dq (c : Core) (e : Engine) (g : Eng) : (c.setEng e g).dq = c.dq := by cases e <;> rfl
@[simp] theorem State.setEng_core_dq (s : State) (e : Engine) (g : Eng) : (s.setEng e g).core.dq = s.core.dq := by cases e <;> rfl
@[simp] theorem Core.setEng_sqq (c : Core) (e : Engine) (g : Eng) : (c.setEng e g).sqq = c.sqq := by cases e <;> rfl
@[simp] theorem State.setEng_core_sqq (s : State) (e : Engine) (g : Eng) : (s.setEng e g).core.sqq = s.core.sqq := by cases e <;> rfl
@[simp] theorem Core.setEng_regs (c : Core) (e : Engine) (g : Eng) : (c.setEng e g).regs = c.regs := by cases e <;> rfl
@[simp] theorem State.setEng_core_regs (s : State) (e : Engine) (g : Eng) : (s.setEng e g).core.regs = s.core.regs := by cases e <;> rfl
@[simp] theorem Core.setEng_vex (c : Core) (e : Engine) (g : Eng) : (c.setEng e g).vex = c.vex := by cases e <;> rfl
@[simp] theorem State.setEng_core_vex (s : State) (e : Engine) (g : Eng) : (s.setEng e g).core.vex = s.core.vex := by cases e <;> rfl
@[simp] theorem Core.setEng_loads (c : Core) (e : Engine) (g : Eng) : (c.setEng e g).loads = c.loads := by cases e <;> rfl
@[simp] theorem State.setEng_core_loads (s : State) (e : Engine) (g : Eng) : (s.setEng e g).core.loads = s.core.loads := by cases e <;> rfl
@[simp] theorem Core.setEng_seq (c : Core) (e : Engine) (g : Eng) : (c.setEng e g).seq = c.seq := by cases e <;> rfl
@[simp] theorem State.setEng_core_seq (s : State) (e : Engine) (g : Eng) : (s.setEng e g).core.seq = s.core.seq := by cases e <;> rfl
@[simp] theorem Core.setEng_mex (c : Core) (e : Engine) (g : Eng) : (c.setEng e g).mex = c.mex := by cases e <;> rfl
@[simp] theorem State.setEng_core_mex (s : State) (e : Engine) (g : Eng) : (s.setEng e g).core.mex = s.core.mex := by cases e <;> rfl
@[simp] theorem Core.setEng_rounds (c : Core) (e : Engine) (g : Eng) : (c.setEng e g).rounds = c.rounds := by cases e <;> rfl
@[simp] theorem State.setEng_core_rounds (s : State) (e : Engine) (g : Eng) : (s.setEng e g).core.rounds = s.core.rounds := by cases e <;> rfl
@[simp] theorem Core.setEng_roundOrder (c : Core) (e : Engine) (g : Eng) : (c.setEng e g).roundOrder = c.roundOrder := by cases e <;> rfl
@[simp] theorem State.setEng_core_roundOrder (s : State) (e : Engine) (g : Eng) : (s.setEng e g).core.roundOrder = s.core.roundOrder := by cases e <;> rfl
@[simp] theorem Core.setEng_etched (c : Core) (e : Engine) (g : Eng) : (c.setEng e g).etched = c.etched := by cases e <;> rfl
@[simp] theorem State.setEng_core_etched (s : State) (e : Engine) (g : Eng) : (s.setEng e g).core.etched = s.core.etched := by cases e <;> rfl
@[simp] theorem Core.setEng_hosting (c : Core) (e : Engine) (g : Eng) : (c.setEng e g).hosting = c.hosting := by cases e <;> rfl
@[simp] theorem State.setEng_core_hosting (s : State) (e : Engine) (g : Eng) : (s.setEng e g).core.hosting = s.core.hosting := by cases e <;> rfl
@[simp] theorem Core.setEng_refusals (c : Core) (e : Engine) (g : Eng) : (c.setEng e g).refusals = c.refusals := by cases e <;> rfl
@[simp] theorem State.setEng_core_refusals (s : State) (e : Engine) (g : Eng) : (s.setEng e g).core.refusals = s.core.refusals := by cases e <;> rfl
@[simp] theorem Core.setEng_sends (c : Core) (e : Engine) (g : Eng) : (c.setEng e g).sends = c.sends := by cases e <;> rfl
@[simp] theorem State.setEng_core_sends (s : State) (e : Engine) (g : Eng) : (s.setEng e g).core.sends = s.core.sends := by cases e <;> rfl
@[simp] theorem Core.setEng_remote (c : Core) (e : Engine) (g : Eng) : (c.setEng e g).remote = c.remote := by cases e <;> rfl
@[simp] theorem State.setEng_core_remote (s : State) (e : Engine) (g : Eng) : (s.setEng e g).core.remote = s.core.remote := by cases e <;> rfl
@[simp] theorem Core.setEng_aeWheel (c : Core) (e : Engine) (g : Eng) : (c.setEng e g).aeWheel = c.aeWheel := by cases e <;> rfl
@[simp] theorem State.setEng_core_aeWheel (s : State) (e : Engine) (g : Eng) : (s.setEng e g).core.aeWheel = s.core.aeWheel := by cases e <;> rfl
@[simp] theorem Core.setEng_ceWheel (c : Core) (e : Engine) (g : Eng) : (c.setEng e g).ceWheel = c.ceWheel := by cases e <;> rfl
@[simp] theorem State.setEng_core_ceWheel (s : State) (e : Engine) (g : Eng) : (s.setEng e g).core.ceWheel = s.core.ceWheel := by cases e <;> rfl
@[simp] theorem Core.setEng_stream (c : Core) (e : Engine) (g : Eng) : (c.setEng e g).stream = c.stream := by cases e <;> rfl
@[simp] theorem State.setEng_core_stream (s : State) (e : Engine) (g : Eng) : (s.setEng e g).core.stream = s.core.stream := by cases e <;> rfl
@[simp] theorem Core.setEng_ahead (c : Core) (e : Engine) (g : Eng) : (c.setEng e g).ahead = c.ahead := by cases e <;> rfl
@[simp] theorem State.setEng_core_ahead (s : State) (e : Engine) (g : Eng) : (s.setEng e g).core.ahead = s.core.ahead := by cases e <;> rfl
@[simp] theorem Core.setEng_counts (c : Core) (e : Engine) (g : Eng) : (c.setEng e g).counts = c.counts := by cases e <;> rfl
@[simp] theorem State.setEng_core_counts (s : State) (e : Engine) (g : Eng) : (s.setEng e g).core.counts = s.core.counts := by cases e <;> rfl
@[simp] theorem Core.setEng_frozen (c : Core) (e : Engine) (g : Eng) : (c.setEng e g).frozen = c.frozen := by cases e <;> rfl
@[simp] theorem State.setEng_core_frozen (s : State) (e : Engine) (g : Eng) : (s.setEng e g).core.frozen = s.core.frozen := by cases e <;> rfl
@[simp] theorem Core.setEng_freezing (c : Core) (e : Engine) (g : Eng) : (c.setEng e g).freezing = c.freezing := by cases e <;> rfl
@[simp] theorem State.setEng_core_freezing (s : State) (e : Engine) (g : Eng) : (s.setEng e g).core.freezing = s.core.freezing := by cases e <;> rfl
@[simp] theorem Core.setEng_held (c : Core) (e : Engine) (g : Eng) : (c.setEng e g).held = c.held := by cases e <;> rfl
@[simp] theorem State.setEng_core_held (s : State) (e : Engine) (g : Eng) : (s.setEng e g).core.held = s.core.held := by cases e <;> rfl
@[simp] theorem Core.setEng_stamp (c : Core) (e : Engine) (g : Eng) : (c.setEng e g).stamp = c.stamp := by cases e <;> rfl
@[simp] theorem State.setEng_core_stamp (s : State) (e : Engine) (g : Eng) : (s.setEng e g).core.stamp = s.core.stamp := by cases e <;> rfl
@[simp] theorem Core.setEng_eng (c : Core) (e : Engine) (g : Eng) : (c.setEng e g).eng e = g := by cases e <;> rfl
@[simp] theorem State.setEng_eng (s : State) (e : Engine) (g : Eng) : (s.setEng e g).eng e = g := by cases e <;> rfl

/-! Changing the engine in action. -/

@[simp] theorem State.upd_cur (s : State) (f : Eng → Eng) : (s.upd f).cur = s.cur := rfl
@[simp] theorem State.upd_actor (s : State) (f : Eng → Eng) : (s.upd f).actor = s.actor := rfl
@[simp] theorem State.upd_others (s : State) (f : Eng → Eng) : (s.upd f).others = s.others := rfl
@[simp] theorem State.upd_quads (s : State) (f : Eng → Eng) : (s.upd f).quads = s.quads := rfl
@[simp] theorem State.upd_dies (s : State) (f : Eng → Eng) : (s.upd f).dies = s.dies := rfl
@[simp] theorem State.upd_store (s : State) (f : Eng → Eng) : (s.upd f).store = s.store := rfl
@[simp] theorem State.upd_time (s : State) (f : Eng → Eng) : (s.upd f).time = s.time := rfl
@[simp] theorem State.upd_ctxs (s : State) (f : Eng → Eng) : (s.upd f).ctxs = s.ctxs := rfl
@[simp] theorem State.upd_fns (s : State) (f : Eng → Eng) : (s.upd f).fns = s.fns := rfl
@[simp] theorem State.upd_launches (s : State) (f : Eng → Eng) : (s.upd f).launches = s.launches := rfl
@[simp] theorem State.upd_groups (s : State) (f : Eng → Eng) : (s.upd f).groups = s.groups := rfl
@[simp] theorem State.upd_ids (s : State) (f : Eng → Eng) : (s.upd f).ids = s.ids := rfl
@[simp] theorem State.upd_irqs (s : State) (f : Eng → Eng) : (s.upd f).irqs = s.irqs := rfl
@[simp] theorem State.upd_etch (s : State) (f : Eng → Eng) : (s.upd f).etch = s.etch := rfl
@[simp] theorem State.upd_out (s : State) (f : Eng → Eng) : (s.upd f).out = s.out := rfl
@[simp] theorem State.upd_saves (s : State) (f : Eng → Eng) : (s.upd f).saves = s.saves := rfl
@[simp] theorem State.upd_ports (s : State) (f : Eng → Eng) : (s.upd f).ports = s.ports := rfl
@[simp] theorem State.upd_mgmt (s : State) (f : Eng → Eng) : (s.upd f).mgmt = s.mgmt := rfl
@[simp] theorem State.upd_big (s : State) (f : Eng → Eng) : (s.upd f).big = s.big := rfl
@[simp] theorem State.upd_made (s : State) (f : Eng → Eng) : (s.upd f).made = s.made := rfl
@[simp] theorem State.upd_schedule (s : State) (f : Eng → Eng) : (s.upd f).schedule = s.schedule := rfl
@[simp] theorem State.upd_freeN (s : State) (f : Eng → Eng) : (s.upd f).freeN = s.freeN := rfl
@[simp] theorem State.upd_reply (s : State) (f : Eng → Eng) : (s.upd f).reply = s.reply := rfl
@[simp] theorem State.upd_act (s : State) (f : Eng → Eng) : (s.upd f).act = f s.act := State.setEng_eng s s.actor (f s.act)

/-! `State.setQuad`. -/

@[simp] theorem State.setQuad_core (s : State) (q : Nat) (v : Quad) : (s.setQuad q v).core = s.core := rfl
@[simp] theorem State.setQuad_cur (s : State) (q : Nat) (v : Quad) : (s.setQuad q v).cur = s.cur := rfl
@[simp] theorem State.setQuad_actor (s : State) (q : Nat) (v : Quad) : (s.setQuad q v).actor = s.actor := rfl
@[simp] theorem State.setQuad_others (s : State) (q : Nat) (v : Quad) : (s.setQuad q v).others = s.others := rfl
@[simp] theorem State.setQuad_dies (s : State) (q : Nat) (v : Quad) : (s.setQuad q v).dies = s.dies := rfl
@[simp] theorem State.setQuad_store (s : State) (q : Nat) (v : Quad) : (s.setQuad q v).store = s.store := rfl
@[simp] theorem State.setQuad_time (s : State) (q : Nat) (v : Quad) : (s.setQuad q v).time = s.time := rfl
@[simp] theorem State.setQuad_ctxs (s : State) (q : Nat) (v : Quad) : (s.setQuad q v).ctxs = s.ctxs := rfl
@[simp] theorem State.setQuad_fns (s : State) (q : Nat) (v : Quad) : (s.setQuad q v).fns = s.fns := rfl
@[simp] theorem State.setQuad_launches (s : State) (q : Nat) (v : Quad) : (s.setQuad q v).launches = s.launches := rfl
@[simp] theorem State.setQuad_groups (s : State) (q : Nat) (v : Quad) : (s.setQuad q v).groups = s.groups := rfl
@[simp] theorem State.setQuad_ids (s : State) (q : Nat) (v : Quad) : (s.setQuad q v).ids = s.ids := rfl
@[simp] theorem State.setQuad_irqs (s : State) (q : Nat) (v : Quad) : (s.setQuad q v).irqs = s.irqs := rfl
@[simp] theorem State.setQuad_etch (s : State) (q : Nat) (v : Quad) : (s.setQuad q v).etch = s.etch := rfl
@[simp] theorem State.setQuad_out (s : State) (q : Nat) (v : Quad) : (s.setQuad q v).out = s.out := rfl
@[simp] theorem State.setQuad_saves (s : State) (q : Nat) (v : Quad) : (s.setQuad q v).saves = s.saves := rfl
@[simp] theorem State.setQuad_ports (s : State) (q : Nat) (v : Quad) : (s.setQuad q v).ports = s.ports := rfl
@[simp] theorem State.setQuad_mgmt (s : State) (q : Nat) (v : Quad) : (s.setQuad q v).mgmt = s.mgmt := rfl
@[simp] theorem State.setQuad_big (s : State) (q : Nat) (v : Quad) : (s.setQuad q v).big = s.big := rfl
@[simp] theorem State.setQuad_made (s : State) (q : Nat) (v : Quad) : (s.setQuad q v).made = s.made := rfl
@[simp] theorem State.setQuad_schedule (s : State) (q : Nat) (v : Quad) : (s.setQuad q v).schedule = s.schedule := rfl
@[simp] theorem State.setQuad_freeN (s : State) (q : Nat) (v : Quad) : (s.setQuad q v).freeN = s.freeN := rfl
@[simp] theorem State.setQuad_reply (s : State) (q : Nat) (v : Quad) : (s.setQuad q v).reply = s.reply := rfl

/-! `State.setDie`. -/

@[simp] theorem State.setDie_core (s : State) (d : Nat) (v : Die) : (s.setDie d v).core = s.core := rfl
@[simp] theorem State.setDie_cur (s : State) (d : Nat) (v : Die) : (s.setDie d v).cur = s.cur := rfl
@[simp] theorem State.setDie_actor (s : State) (d : Nat) (v : Die) : (s.setDie d v).actor = s.actor := rfl
@[simp] theorem State.setDie_others (s : State) (d : Nat) (v : Die) : (s.setDie d v).others = s.others := rfl
@[simp] theorem State.setDie_quads (s : State) (d : Nat) (v : Die) : (s.setDie d v).quads = s.quads := rfl
@[simp] theorem State.setDie_store (s : State) (d : Nat) (v : Die) : (s.setDie d v).store = s.store := rfl
@[simp] theorem State.setDie_time (s : State) (d : Nat) (v : Die) : (s.setDie d v).time = s.time := rfl
@[simp] theorem State.setDie_ctxs (s : State) (d : Nat) (v : Die) : (s.setDie d v).ctxs = s.ctxs := rfl
@[simp] theorem State.setDie_fns (s : State) (d : Nat) (v : Die) : (s.setDie d v).fns = s.fns := rfl
@[simp] theorem State.setDie_launches (s : State) (d : Nat) (v : Die) : (s.setDie d v).launches = s.launches := rfl
@[simp] theorem State.setDie_groups (s : State) (d : Nat) (v : Die) : (s.setDie d v).groups = s.groups := rfl
@[simp] theorem State.setDie_ids (s : State) (d : Nat) (v : Die) : (s.setDie d v).ids = s.ids := rfl
@[simp] theorem State.setDie_irqs (s : State) (d : Nat) (v : Die) : (s.setDie d v).irqs = s.irqs := rfl
@[simp] theorem State.setDie_etch (s : State) (d : Nat) (v : Die) : (s.setDie d v).etch = s.etch := rfl
@[simp] theorem State.setDie_out (s : State) (d : Nat) (v : Die) : (s.setDie d v).out = s.out := rfl
@[simp] theorem State.setDie_saves (s : State) (d : Nat) (v : Die) : (s.setDie d v).saves = s.saves := rfl
@[simp] theorem State.setDie_ports (s : State) (d : Nat) (v : Die) : (s.setDie d v).ports = s.ports := rfl
@[simp] theorem State.setDie_mgmt (s : State) (d : Nat) (v : Die) : (s.setDie d v).mgmt = s.mgmt := rfl
@[simp] theorem State.setDie_big (s : State) (d : Nat) (v : Die) : (s.setDie d v).big = s.big := rfl
@[simp] theorem State.setDie_made (s : State) (d : Nat) (v : Die) : (s.setDie d v).made = s.made := rfl
@[simp] theorem State.setDie_schedule (s : State) (d : Nat) (v : Die) : (s.setDie d v).schedule = s.schedule := rfl
@[simp] theorem State.setDie_freeN (s : State) (d : Nat) (v : Die) : (s.setDie d v).freeN = s.freeN := rfl
@[simp] theorem State.setDie_reply (s : State) (d : Nat) (v : Die) : (s.setDie d v).reply = s.reply := rfl

/-! `State.setCtx`. -/

@[simp] theorem State.setCtx_core (s : State) (n : Nat) (c : Ctx) : (s.setCtx n c).core = s.core := rfl
@[simp] theorem State.setCtx_cur (s : State) (n : Nat) (c : Ctx) : (s.setCtx n c).cur = s.cur := rfl
@[simp] theorem State.setCtx_actor (s : State) (n : Nat) (c : Ctx) : (s.setCtx n c).actor = s.actor := rfl
@[simp] theorem State.setCtx_others (s : State) (n : Nat) (c : Ctx) : (s.setCtx n c).others = s.others := rfl
@[simp] theorem State.setCtx_quads (s : State) (n : Nat) (c : Ctx) : (s.setCtx n c).quads = s.quads := rfl
@[simp] theorem State.setCtx_dies (s : State) (n : Nat) (c : Ctx) : (s.setCtx n c).dies = s.dies := rfl
@[simp] theorem State.setCtx_store (s : State) (n : Nat) (c : Ctx) : (s.setCtx n c).store = s.store := rfl
@[simp] theorem State.setCtx_time (s : State) (n : Nat) (c : Ctx) : (s.setCtx n c).time = s.time := rfl
@[simp] theorem State.setCtx_fns (s : State) (n : Nat) (c : Ctx) : (s.setCtx n c).fns = s.fns := rfl
@[simp] theorem State.setCtx_launches (s : State) (n : Nat) (c : Ctx) : (s.setCtx n c).launches = s.launches := rfl
@[simp] theorem State.setCtx_groups (s : State) (n : Nat) (c : Ctx) : (s.setCtx n c).groups = s.groups := rfl
@[simp] theorem State.setCtx_ids (s : State) (n : Nat) (c : Ctx) : (s.setCtx n c).ids = s.ids := rfl
@[simp] theorem State.setCtx_irqs (s : State) (n : Nat) (c : Ctx) : (s.setCtx n c).irqs = s.irqs := rfl
@[simp] theorem State.setCtx_etch (s : State) (n : Nat) (c : Ctx) : (s.setCtx n c).etch = s.etch := rfl
@[simp] theorem State.setCtx_out (s : State) (n : Nat) (c : Ctx) : (s.setCtx n c).out = s.out := rfl
@[simp] theorem State.setCtx_saves (s : State) (n : Nat) (c : Ctx) : (s.setCtx n c).saves = s.saves := rfl
@[simp] theorem State.setCtx_ports (s : State) (n : Nat) (c : Ctx) : (s.setCtx n c).ports = s.ports := rfl
@[simp] theorem State.setCtx_mgmt (s : State) (n : Nat) (c : Ctx) : (s.setCtx n c).mgmt = s.mgmt := rfl
@[simp] theorem State.setCtx_big (s : State) (n : Nat) (c : Ctx) : (s.setCtx n c).big = s.big := rfl
@[simp] theorem State.setCtx_made (s : State) (n : Nat) (c : Ctx) : (s.setCtx n c).made = s.made := rfl
@[simp] theorem State.setCtx_schedule (s : State) (n : Nat) (c : Ctx) : (s.setCtx n c).schedule = s.schedule := rfl
@[simp] theorem State.setCtx_freeN (s : State) (n : Nat) (c : Ctx) : (s.setCtx n c).freeN = s.freeN := rfl
@[simp] theorem State.setCtx_reply (s : State) (n : Nat) (c : Ctx) : (s.setCtx n c).reply = s.reply := rfl

/-! `State.setFn`. -/

@[simp] theorem State.setFn_core (s : State) (n : Nat) (f : Fn) : (s.setFn n f).core = s.core := rfl
@[simp] theorem State.setFn_cur (s : State) (n : Nat) (f : Fn) : (s.setFn n f).cur = s.cur := rfl
@[simp] theorem State.setFn_actor (s : State) (n : Nat) (f : Fn) : (s.setFn n f).actor = s.actor := rfl
@[simp] theorem State.setFn_others (s : State) (n : Nat) (f : Fn) : (s.setFn n f).others = s.others := rfl
@[simp] theorem State.setFn_quads (s : State) (n : Nat) (f : Fn) : (s.setFn n f).quads = s.quads := rfl
@[simp] theorem State.setFn_dies (s : State) (n : Nat) (f : Fn) : (s.setFn n f).dies = s.dies := rfl
@[simp] theorem State.setFn_store (s : State) (n : Nat) (f : Fn) : (s.setFn n f).store = s.store := rfl
@[simp] theorem State.setFn_time (s : State) (n : Nat) (f : Fn) : (s.setFn n f).time = s.time := rfl
@[simp] theorem State.setFn_ctxs (s : State) (n : Nat) (f : Fn) : (s.setFn n f).ctxs = s.ctxs := rfl
@[simp] theorem State.setFn_launches (s : State) (n : Nat) (f : Fn) : (s.setFn n f).launches = s.launches := rfl
@[simp] theorem State.setFn_groups (s : State) (n : Nat) (f : Fn) : (s.setFn n f).groups = s.groups := rfl
@[simp] theorem State.setFn_ids (s : State) (n : Nat) (f : Fn) : (s.setFn n f).ids = s.ids := rfl
@[simp] theorem State.setFn_irqs (s : State) (n : Nat) (f : Fn) : (s.setFn n f).irqs = s.irqs := rfl
@[simp] theorem State.setFn_etch (s : State) (n : Nat) (f : Fn) : (s.setFn n f).etch = s.etch := rfl
@[simp] theorem State.setFn_out (s : State) (n : Nat) (f : Fn) : (s.setFn n f).out = s.out := rfl
@[simp] theorem State.setFn_saves (s : State) (n : Nat) (f : Fn) : (s.setFn n f).saves = s.saves := rfl
@[simp] theorem State.setFn_ports (s : State) (n : Nat) (f : Fn) : (s.setFn n f).ports = s.ports := rfl
@[simp] theorem State.setFn_mgmt (s : State) (n : Nat) (f : Fn) : (s.setFn n f).mgmt = s.mgmt := rfl
@[simp] theorem State.setFn_big (s : State) (n : Nat) (f : Fn) : (s.setFn n f).big = s.big := rfl
@[simp] theorem State.setFn_made (s : State) (n : Nat) (f : Fn) : (s.setFn n f).made = s.made := rfl
@[simp] theorem State.setFn_schedule (s : State) (n : Nat) (f : Fn) : (s.setFn n f).schedule = s.schedule := rfl
@[simp] theorem State.setFn_freeN (s : State) (n : Nat) (f : Fn) : (s.setFn n f).freeN = s.freeN := rfl
@[simp] theorem State.setFn_reply (s : State) (n : Nat) (f : Fn) : (s.setFn n f).reply = s.reply := rfl

/-! `State.setCoreAt`. -/

@[simp] theorem State.setCoreAt_cur (s : State) (n : Nat) (c : Core) : (s.setCoreAt n c).cur = s.cur := by unfold State.setCoreAt; split <;> rfl
@[simp] theorem State.setCoreAt_actor (s : State) (n : Nat) (c : Core) : (s.setCoreAt n c).actor = s.actor := by unfold State.setCoreAt; split <;> rfl
@[simp] theorem State.setCoreAt_quads (s : State) (n : Nat) (c : Core) : (s.setCoreAt n c).quads = s.quads := by unfold State.setCoreAt; split <;> rfl
@[simp] theorem State.setCoreAt_dies (s : State) (n : Nat) (c : Core) : (s.setCoreAt n c).dies = s.dies := by unfold State.setCoreAt; split <;> rfl
@[simp] theorem State.setCoreAt_store (s : State) (n : Nat) (c : Core) : (s.setCoreAt n c).store = s.store := by unfold State.setCoreAt; split <;> rfl
@[simp] theorem State.setCoreAt_time (s : State) (n : Nat) (c : Core) : (s.setCoreAt n c).time = s.time := by unfold State.setCoreAt; split <;> rfl
@[simp] theorem State.setCoreAt_ctxs (s : State) (n : Nat) (c : Core) : (s.setCoreAt n c).ctxs = s.ctxs := by unfold State.setCoreAt; split <;> rfl
@[simp] theorem State.setCoreAt_fns (s : State) (n : Nat) (c : Core) : (s.setCoreAt n c).fns = s.fns := by unfold State.setCoreAt; split <;> rfl
@[simp] theorem State.setCoreAt_launches (s : State) (n : Nat) (c : Core) : (s.setCoreAt n c).launches = s.launches := by unfold State.setCoreAt; split <;> rfl
@[simp] theorem State.setCoreAt_groups (s : State) (n : Nat) (c : Core) : (s.setCoreAt n c).groups = s.groups := by unfold State.setCoreAt; split <;> rfl
@[simp] theorem State.setCoreAt_ids (s : State) (n : Nat) (c : Core) : (s.setCoreAt n c).ids = s.ids := by unfold State.setCoreAt; split <;> rfl
@[simp] theorem State.setCoreAt_irqs (s : State) (n : Nat) (c : Core) : (s.setCoreAt n c).irqs = s.irqs := by unfold State.setCoreAt; split <;> rfl
@[simp] theorem State.setCoreAt_etch (s : State) (n : Nat) (c : Core) : (s.setCoreAt n c).etch = s.etch := by unfold State.setCoreAt; split <;> rfl
@[simp] theorem State.setCoreAt_out (s : State) (n : Nat) (c : Core) : (s.setCoreAt n c).out = s.out := by unfold State.setCoreAt; split <;> rfl
@[simp] theorem State.setCoreAt_saves (s : State) (n : Nat) (c : Core) : (s.setCoreAt n c).saves = s.saves := by unfold State.setCoreAt; split <;> rfl
@[simp] theorem State.setCoreAt_ports (s : State) (n : Nat) (c : Core) : (s.setCoreAt n c).ports = s.ports := by unfold State.setCoreAt; split <;> rfl
@[simp] theorem State.setCoreAt_mgmt (s : State) (n : Nat) (c : Core) : (s.setCoreAt n c).mgmt = s.mgmt := by unfold State.setCoreAt; split <;> rfl
@[simp] theorem State.setCoreAt_big (s : State) (n : Nat) (c : Core) : (s.setCoreAt n c).big = s.big := by unfold State.setCoreAt; split <;> rfl
@[simp] theorem State.setCoreAt_made (s : State) (n : Nat) (c : Core) : (s.setCoreAt n c).made = s.made := by unfold State.setCoreAt; split <;> rfl
@[simp] theorem State.setCoreAt_schedule (s : State) (n : Nat) (c : Core) : (s.setCoreAt n c).schedule = s.schedule := by unfold State.setCoreAt; split <;> rfl
@[simp] theorem State.setCoreAt_freeN (s : State) (n : Nat) (c : Core) : (s.setCoreAt n c).freeN = s.freeN := by unfold State.setCoreAt; split <;> rfl
@[simp] theorem State.setCoreAt_reply (s : State) (n : Nat) (c : Core) : (s.setCoreAt n c).reply = s.reply := by unfold State.setCoreAt; split <;> rfl

/-! `State.focus`. -/

@[simp] theorem State.focus_actor (s : State) (n : Nat) : (s.focus n).actor = s.actor := by unfold State.focus; split <;> rfl
@[simp] theorem State.focus_quads (s : State) (n : Nat) : (s.focus n).quads = s.quads := by unfold State.focus; split <;> rfl
@[simp] theorem State.focus_dies (s : State) (n : Nat) : (s.focus n).dies = s.dies := by unfold State.focus; split <;> rfl
@[simp] theorem State.focus_store (s : State) (n : Nat) : (s.focus n).store = s.store := by unfold State.focus; split <;> rfl
@[simp] theorem State.focus_time (s : State) (n : Nat) : (s.focus n).time = s.time := by unfold State.focus; split <;> rfl
@[simp] theorem State.focus_ctxs (s : State) (n : Nat) : (s.focus n).ctxs = s.ctxs := by unfold State.focus; split <;> rfl
@[simp] theorem State.focus_fns (s : State) (n : Nat) : (s.focus n).fns = s.fns := by unfold State.focus; split <;> rfl
@[simp] theorem State.focus_launches (s : State) (n : Nat) : (s.focus n).launches = s.launches := by unfold State.focus; split <;> rfl
@[simp] theorem State.focus_groups (s : State) (n : Nat) : (s.focus n).groups = s.groups := by unfold State.focus; split <;> rfl
@[simp] theorem State.focus_ids (s : State) (n : Nat) : (s.focus n).ids = s.ids := by unfold State.focus; split <;> rfl
@[simp] theorem State.focus_irqs (s : State) (n : Nat) : (s.focus n).irqs = s.irqs := by unfold State.focus; split <;> rfl
@[simp] theorem State.focus_etch (s : State) (n : Nat) : (s.focus n).etch = s.etch := by unfold State.focus; split <;> rfl
@[simp] theorem State.focus_out (s : State) (n : Nat) : (s.focus n).out = s.out := by unfold State.focus; split <;> rfl
@[simp] theorem State.focus_saves (s : State) (n : Nat) : (s.focus n).saves = s.saves := by unfold State.focus; split <;> rfl
@[simp] theorem State.focus_ports (s : State) (n : Nat) : (s.focus n).ports = s.ports := by unfold State.focus; split <;> rfl
@[simp] theorem State.focus_mgmt (s : State) (n : Nat) : (s.focus n).mgmt = s.mgmt := by unfold State.focus; split <;> rfl
@[simp] theorem State.focus_big (s : State) (n : Nat) : (s.focus n).big = s.big := by unfold State.focus; split <;> rfl
@[simp] theorem State.focus_made (s : State) (n : Nat) : (s.focus n).made = s.made := by unfold State.focus; split <;> rfl
@[simp] theorem State.focus_schedule (s : State) (n : Nat) : (s.focus n).schedule = s.schedule := by unfold State.focus; split <;> rfl
@[simp] theorem State.focus_freeN (s : State) (n : Nat) : (s.focus n).freeN = s.freeN := by unfold State.focus; split <;> rfl
@[simp] theorem State.focus_reply (s : State) (n : Nat) : (s.focus n).reply = s.reply := by unfold State.focus; split <;> rfl

/-! `State.setLast`. -/

@[simp] theorem State.setLast_cur (s : State) (u : Nat) (v : Word) : (s.setLast u v).cur = s.cur := rfl
@[simp] theorem State.setLast_actor (s : State) (u : Nat) (v : Word) : (s.setLast u v).actor = s.actor := rfl
@[simp] theorem State.setLast_others (s : State) (u : Nat) (v : Word) : (s.setLast u v).others = s.others := rfl
@[simp] theorem State.setLast_quads (s : State) (u : Nat) (v : Word) : (s.setLast u v).quads = s.quads := rfl
@[simp] theorem State.setLast_dies (s : State) (u : Nat) (v : Word) : (s.setLast u v).dies = s.dies := rfl
@[simp] theorem State.setLast_store (s : State) (u : Nat) (v : Word) : (s.setLast u v).store = s.store := rfl
@[simp] theorem State.setLast_time (s : State) (u : Nat) (v : Word) : (s.setLast u v).time = s.time := rfl
@[simp] theorem State.setLast_ctxs (s : State) (u : Nat) (v : Word) : (s.setLast u v).ctxs = s.ctxs := rfl
@[simp] theorem State.setLast_fns (s : State) (u : Nat) (v : Word) : (s.setLast u v).fns = s.fns := rfl
@[simp] theorem State.setLast_launches (s : State) (u : Nat) (v : Word) : (s.setLast u v).launches = s.launches := rfl
@[simp] theorem State.setLast_groups (s : State) (u : Nat) (v : Word) : (s.setLast u v).groups = s.groups := rfl
@[simp] theorem State.setLast_ids (s : State) (u : Nat) (v : Word) : (s.setLast u v).ids = s.ids := rfl
@[simp] theorem State.setLast_irqs (s : State) (u : Nat) (v : Word) : (s.setLast u v).irqs = s.irqs := rfl
@[simp] theorem State.setLast_etch (s : State) (u : Nat) (v : Word) : (s.setLast u v).etch = s.etch := rfl
@[simp] theorem State.setLast_out (s : State) (u : Nat) (v : Word) : (s.setLast u v).out = s.out := rfl
@[simp] theorem State.setLast_saves (s : State) (u : Nat) (v : Word) : (s.setLast u v).saves = s.saves := rfl
@[simp] theorem State.setLast_ports (s : State) (u : Nat) (v : Word) : (s.setLast u v).ports = s.ports := rfl
@[simp] theorem State.setLast_mgmt (s : State) (u : Nat) (v : Word) : (s.setLast u v).mgmt = s.mgmt := rfl
@[simp] theorem State.setLast_big (s : State) (u : Nat) (v : Word) : (s.setLast u v).big = s.big := rfl
@[simp] theorem State.setLast_made (s : State) (u : Nat) (v : Word) : (s.setLast u v).made = s.made := rfl
@[simp] theorem State.setLast_schedule (s : State) (u : Nat) (v : Word) : (s.setLast u v).schedule = s.schedule := rfl
@[simp] theorem State.setLast_freeN (s : State) (u : Nat) (v : Word) : (s.setLast u v).freeN = s.freeN := rfl
@[simp] theorem State.setLast_reply (s : State) (u : Nat) (v : Word) : (s.setLast u v).reply = s.reply := rfl

/-! `State.emit`. -/

@[simp] theorem State.emit_core (s : State) (e : Emit) : (s.emit e).core = s.core := rfl
@[simp] theorem State.emit_cur (s : State) (e : Emit) : (s.emit e).cur = s.cur := rfl
@[simp] theorem State.emit_actor (s : State) (e : Emit) : (s.emit e).actor = s.actor := rfl
@[simp] theorem State.emit_others (s : State) (e : Emit) : (s.emit e).others = s.others := rfl
@[simp] theorem State.emit_quads (s : State) (e : Emit) : (s.emit e).quads = s.quads := rfl
@[simp] theorem State.emit_dies (s : State) (e : Emit) : (s.emit e).dies = s.dies := rfl
@[simp] theorem State.emit_store (s : State) (e : Emit) : (s.emit e).store = s.store := rfl
@[simp] theorem State.emit_time (s : State) (e : Emit) : (s.emit e).time = s.time := rfl
@[simp] theorem State.emit_ctxs (s : State) (e : Emit) : (s.emit e).ctxs = s.ctxs := rfl
@[simp] theorem State.emit_fns (s : State) (e : Emit) : (s.emit e).fns = s.fns := rfl
@[simp] theorem State.emit_launches (s : State) (e : Emit) : (s.emit e).launches = s.launches := rfl
@[simp] theorem State.emit_groups (s : State) (e : Emit) : (s.emit e).groups = s.groups := rfl
@[simp] theorem State.emit_ids (s : State) (e : Emit) : (s.emit e).ids = s.ids := rfl
@[simp] theorem State.emit_irqs (s : State) (e : Emit) : (s.emit e).irqs = s.irqs := rfl
@[simp] theorem State.emit_etch (s : State) (e : Emit) : (s.emit e).etch = s.etch := rfl
@[simp] theorem State.emit_saves (s : State) (e : Emit) : (s.emit e).saves = s.saves := rfl
@[simp] theorem State.emit_ports (s : State) (e : Emit) : (s.emit e).ports = s.ports := rfl
@[simp] theorem State.emit_mgmt (s : State) (e : Emit) : (s.emit e).mgmt = s.mgmt := rfl
@[simp] theorem State.emit_big (s : State) (e : Emit) : (s.emit e).big = s.big := rfl
@[simp] theorem State.emit_made (s : State) (e : Emit) : (s.emit e).made = s.made := rfl
@[simp] theorem State.emit_schedule (s : State) (e : Emit) : (s.emit e).schedule = s.schedule := rfl
@[simp] theorem State.emit_freeN (s : State) (e : Emit) : (s.emit e).freeN = s.freeN := rfl
@[simp] theorem State.emit_reply (s : State) (e : Emit) : (s.emit e).reply = s.reply := rfl

/-! `State.setPort`. -/

@[simp] theorem State.setPort_core (s : State) (k : Nat) (p : Port) : (s.setPort k p).core = s.core := rfl
@[simp] theorem State.setPort_cur (s : State) (k : Nat) (p : Port) : (s.setPort k p).cur = s.cur := rfl
@[simp] theorem State.setPort_actor (s : State) (k : Nat) (p : Port) : (s.setPort k p).actor = s.actor := rfl
@[simp] theorem State.setPort_others (s : State) (k : Nat) (p : Port) : (s.setPort k p).others = s.others := rfl
@[simp] theorem State.setPort_quads (s : State) (k : Nat) (p : Port) : (s.setPort k p).quads = s.quads := rfl
@[simp] theorem State.setPort_dies (s : State) (k : Nat) (p : Port) : (s.setPort k p).dies = s.dies := rfl
@[simp] theorem State.setPort_store (s : State) (k : Nat) (p : Port) : (s.setPort k p).store = s.store := rfl
@[simp] theorem State.setPort_time (s : State) (k : Nat) (p : Port) : (s.setPort k p).time = s.time := rfl
@[simp] theorem State.setPort_ctxs (s : State) (k : Nat) (p : Port) : (s.setPort k p).ctxs = s.ctxs := rfl
@[simp] theorem State.setPort_fns (s : State) (k : Nat) (p : Port) : (s.setPort k p).fns = s.fns := rfl
@[simp] theorem State.setPort_launches (s : State) (k : Nat) (p : Port) : (s.setPort k p).launches = s.launches := rfl
@[simp] theorem State.setPort_groups (s : State) (k : Nat) (p : Port) : (s.setPort k p).groups = s.groups := rfl
@[simp] theorem State.setPort_ids (s : State) (k : Nat) (p : Port) : (s.setPort k p).ids = s.ids := rfl
@[simp] theorem State.setPort_irqs (s : State) (k : Nat) (p : Port) : (s.setPort k p).irqs = s.irqs := rfl
@[simp] theorem State.setPort_etch (s : State) (k : Nat) (p : Port) : (s.setPort k p).etch = s.etch := rfl
@[simp] theorem State.setPort_out (s : State) (k : Nat) (p : Port) : (s.setPort k p).out = s.out := rfl
@[simp] theorem State.setPort_saves (s : State) (k : Nat) (p : Port) : (s.setPort k p).saves = s.saves := rfl
@[simp] theorem State.setPort_mgmt (s : State) (k : Nat) (p : Port) : (s.setPort k p).mgmt = s.mgmt := rfl
@[simp] theorem State.setPort_big (s : State) (k : Nat) (p : Port) : (s.setPort k p).big = s.big := rfl
@[simp] theorem State.setPort_made (s : State) (k : Nat) (p : Port) : (s.setPort k p).made = s.made := rfl
@[simp] theorem State.setPort_schedule (s : State) (k : Nat) (p : Port) : (s.setPort k p).schedule = s.schedule := rfl
@[simp] theorem State.setPort_freeN (s : State) (k : Nat) (p : Port) : (s.setPort k p).freeN = s.freeN := rfl
@[simp] theorem State.setPort_reply (s : State) (k : Nat) (p : Port) : (s.setPort k p).reply = s.reply := rfl

end

end Sys2Proof.Machine
end

