-- ==== Sys2Proof/Laws/Registers.lean ====
section
/-! SUPPORT. What the operations over registers, frames and the taking of a trap do. -/

namespace Sys2Proof.Laws

open Sys2Proof Sys2Proof.Machine

set_option linter.all false

/-- A write to a register other than x0. -/
theorem setX_pos (s : State) (rd : BitVec 5) (v : Word) (h : rd ≠ 0) :
    s.setX rd v = { s with core.sq.x := vset s.core.sq.x rd v } := by unfold State.setX; rw [if_neg h]

theorem vget_set_eq {α : Type} {n k : Nat} (v : Vector α n) (i : BitVec k) (a : α) (h : 2 ^ k = n) : vget (vset v i a h) i h = a := by
  simp [vget, vset]

theorem vget_set_ne {α : Type} {n k : Nat} (v : Vector α n) (i j : BitVec k) (a : α) (h : 2 ^ k = n) (hij : j ≠ i) :
    vget (vset v i a h) j h = vget v j h := by
  have : ¬ i.toNat = j.toNat := fun e => hij (BitVec.eq_of_toNat_eq e.symm)
  simp [vget, vset, Vector.getElem_set, this]

theorem divS_eq {n} (a b : BitVec n) : divS a b = if b = 0 then BitVec.allOnes n else BitVec.ofInt n (Int.tdiv a.toInt b.toInt) := by
  unfold divS; split
  · rfl
  · apply BitVec.eq_of_toInt_eq; rw [BitVec.toInt_sdiv, BitVec.toInt_ofInt]

theorem remS_eq {n} (a b : BitVec n) : remS a b = if b = 0 then a else BitVec.ofInt n (Int.tmod a.toInt b.toInt) := by
  unfold remS; split
  · rfl
  · rw [← BitVec.toInt_srem, BitVec.ofInt_toInt]

theorem divU_eq {n} (a b : BitVec n) : divU a b = if b = 0 then BitVec.allOnes n else BitVec.ofNat n (a.toNat / b.toNat) := by
  unfold divU; split
  · rfl
  · apply BitVec.eq_of_toNat_eq; simp [BitVec.toNat_udiv]; exact (Nat.mod_eq_of_lt (lt_of_le_of_lt (Nat.div_le_self _ _) a.isLt)).symm

theorem remU_eq {n} (a b : BitVec n) : remU a b = if b = 0 then a else BitVec.ofNat n (a.toNat % b.toNat) := by
  unfold remU; split
  · rfl
  · apply BitVec.eq_of_toNat_eq; simp [BitVec.toNat_umod]; exact (Nat.mod_eq_of_lt (lt_of_le_of_lt (Nat.mod_le _ _) a.isLt)).symm

theorem sext_small (k : Nat) (h : k ≤ 32) : sext64 (BitVec.ofNat 32 k) = BitVec.ofNat 64 k := by
  unfold sext64
  interval_cases k <;> rfl

theorem leNat_append (a b : List Byte) : leNat (a ++ b) = leNat a + 256 ^ a.length * leNat b := by
  induction a with
  | nil => simp [leNat]
  | cons x t ih => simp [leNat, ih, pow_succ]; ring

theorem leNat_get (l : List Byte) (k : Nat) : leNat l / 256 ^ k % 256 = (l.getD k 0).toNat := by
  induction l generalizing k with
  | nil => simp [leNat]
  | cons b t ih =>
    cases k with
    | zero => have := b.isLt; simp [leNat]; omega
    | succ k =>
      have hb := b.isLt
      rw [pow_succ, Nat.mul_comm, ← Nat.div_div_eq_div_mul]
      have : leNat (b :: t) / 256 = leNat t := by simp only [leNat]; omega
      rw [this, ih]; simp

theorem leBytes_get (n v k : Nat) (h : k < n) : ((leBytes n v).getD k 0).toNat = v / 256 ^ k % 256 := by
  induction n generalizing v k with
  | zero => omega
  | succ n ih =>
    cases k with
    | zero => simp [leBytes]
    | succ k =>
      rw [leBytes, List.getD_cons_succ, ih _ _ (by omega), Nat.div_div_eq_div_mul, pow_succ, Nat.mul_comm]

/-- A register written reads back, x0 apart. -/
theorem x_setX_self (s : State) (rd : BitVec 5) (v : Word) (h : rd ≠ 0) : (s.setX rd v).x rd = v := by
  rw [setX_pos _ _ _ h]; unfold State.x; rw [if_neg h]; exact vget_set_eq ..

/-- Writing a register leaves every other register alone. -/
theorem x_setX_ne (s : State) (rd r : BitVec 5) (v : Word) (h : r ≠ rd) : (s.setX rd v).x r = s.x r := by
  by_cases h0 : rd = 0
  · subst h0; rfl
  · rw [setX_pos _ _ _ h0]; unfold State.x
    split
    · rfl
    · exact vget_set_ne _ _ _ _ _ h

/-- Writing a register touches nothing beside the register file. -/
theorem besideX_setX (s : State) (rd : BitVec 5) (v : Word) : (s.setX rd v).besideX = s.besideX := by
  unfold State.setX; split <;> rfl

/-- The frame of every instruction that writes one register and moves on. -/
theorem frame_writeX (rd : BitVec 5) (v : Word) (n : Nat) (s t : State) (h : writeX rd v n s = .next t) :
    t.besideX = s.besideX ∧ ∀ r : BitVec 5, r ≠ rd → t.x r = s.x r := by
  obtain rfl : (s.setX rd v).adv n = t := by simpa [writeX] using h
  exact ⟨besideX_setX s rd v, fun r hr => x_setX_ne s rd r v hr⟩

theorem wakeLines_sqx (s : State) (l : List Nat) : (s.wakeLines l).core.sq.x = s.core.sq.x := by unfold State.wakeLines; split <;> rfl
theorem setEng_eng (c : Core) (e f : Engine) (v : Eng) : (c.setEng e v).eng f = if f = e then v else c.eng f := by
  cases e <;> cases f <;> rfl
theorem setEng_tok (c : Core) (e : Engine) (v : Eng) : (c.setEng e v).tok = c.tok ∧ (c.setEng e v).outq = c.outq ∧ (c.setEng e v).sq = c.sq ∧ (c.setEng e v).regs = c.regs := by
  cases e <;> exact ⟨rfl, rfl, rfl, rfl⟩

theorem dropWhile_no {l : List Slot} (h : l.all (fun y => y ≠ .marker) = true) : l.dropWhile (fun x => x = .marker) = l := by
  cases l with
  | nil => rfl
  | cons a t => simp at h; simp [List.dropWhile, h.1]

theorem sweep_q (g : Eng) (h : g.q.all (fun y => y ≠ .marker) = true) : g.sweep.q = g.q := by
  unfold Eng.sweep; split
  · exact dropWhile_no h
  · rfl

theorem bpop_go (rd : BitVec 5) (eng : BitVec 3) (s : State) (v : Word) (rest : List Word) (h : s.core.outcome eng.toNat 0 = v :: rest) :
    bpop rd eng s = popSq rd eng.toNat v rest s := by unfold bpop; rw [h]
theorem setEngS (s : State) (e f : Engine) (v : Eng) : (s.setEng e v).eng f = if f = e then v else s.eng f := setEng_eng ..
theorem adv_eng (s : State) (n : Nat) (f : Engine) : (s.adv n).eng f = s.eng f := by cases f <;> rfl
theorem setEng_x (s : State) (e : Engine) (v : Eng) (n : Nat) (r : BitVec 5) : ((s.setEng e v).adv n).x r = s.x r := by
  unfold State.x; show (if r = 0 then 0 else vget (s.core.setEng e v).sq.x r) = _; rw [(setEng_tok ..).2.2.1]
theorem sweep_same (g : Eng) : g.sweep.flt = g.flt ∧ g.sweep.frz = g.frz ∧ g.sweep.efV = g.efV ∧ g.sweep.st = g.st ∧ g.sweep.repass = g.repass ∧ g.sweep.pos = g.pos ∧ g.sweep.rem = g.rem := by
  unfold Eng.sweep; split <;> exact ⟨rfl, rfl, rfl, rfl, rfl, rfl, rfl⟩
theorem endLease_core (s : State) (n : Nat) : (s.endLease n).core = s.core ∧ (s.endLease n).store = s.store := by
  unfold State.endLease; simp only; split <;> exact ⟨rfl, rfl⟩

theorem pqInsert_perm (e : PqEntry) (l : List PqEntry) : (pqInsert e l).Perm (e :: l) := by
  induction l with
  | nil => exact .refl _
  | cons h t ih =>
    unfold pqInsert
    split
    · exact .refl _
    · exact (ih.cons h).trans (List.Perm.swap e h t)

theorem pqBefore_iff (a b : PqEntry) : pqBefore a b = true ↔ a.key.toNat < b.key.toNat ∨ (a.key = b.key ∧ a.seq ≤ b.seq) := by
  unfold pqBefore; simp

theorem pqBefore_total (a b : PqEntry) (h : pqBefore a b = false) : pqBefore b a = true := by
  rw [← Bool.not_eq_true, pqBefore_iff, not_or, not_and] at h
  rw [pqBefore_iff]
  rcases Nat.lt_trichotomy a.key.toNat b.key.toNat with h1 | h1 | h1
  · exact absurd h1 h.1
  · have := h.2 (BitVec.eq_of_toNat_eq h1)
    exact .inr ⟨(BitVec.eq_of_toNat_eq h1).symm, by omega⟩
  · exact .inl h1

theorem pqBefore_trans (a b c : PqEntry) (h : pqBefore a b = true) (g : pqBefore b c = true) : pqBefore a c = true := by
  rw [pqBefore_iff] at *
  rcases h with h | ⟨h, h'⟩ <;> rcases g with g | ⟨g, g'⟩
  · exact .inl (by omega)
  · exact .inl (g ▸ h)
  · exact .inl (h ▸ g)
  · exact .inr ⟨h.trans g, by omega⟩

theorem pqInsert_sorted (e : PqEntry) (l : List PqEntry) (hl : l.Pairwise (fun a b => pqBefore a b = true)) :
    (pqInsert e l).Pairwise (fun a b => pqBefore a b = true) := by
  induction l with
  | nil => simp [pqInsert]
  | cons h t ih =>
    obtain ⟨h1, h2⟩ := List.pairwise_cons.1 hl
    unfold pqInsert
    split
    · rename_i hb
      refine List.pairwise_cons.2 ⟨fun x hx => ?_, hl⟩
      rcases List.mem_cons.1 hx with rfl | hx
      · exact hb
      · exact pqBefore_trans _ _ _ hb (h1 x hx)
    · rename_i hb
      refine List.pairwise_cons.2 ⟨fun x hx => ?_, ih h2⟩
      rcases List.mem_cons.1 ((pqInsert_perm e t).mem_iff.1 hx) with rfl | hx
      · exact pqBefore_total _ _ (by simpa using hb)
      · exact h1 x hx

theorem pqAll (l : List PqEntry) : (l.foldr pqInsert []).Perm l ∧ (l.foldr pqInsert []).Pairwise (fun a b => pqBefore a b = true) := by
  induction l with
  | nil => exact ⟨.refl _, .nil⟩
  | cons a l ih => exact ⟨(pqInsert_perm a _).trans (ih.1.cons a), pqInsert_sorted a _ ih.2⟩

theorem pqCandidates_smallest (s0 : State) (scope : BitVec 3) :
    let c := s0.pqCandidates scope
    let wide := scope.toNat = 4 ∧ 4 ≤ s0.core.sq.maxscope.toNat
    let n := if wide then 32 else 8
    let mine (x : PqEntry) : Prop := x.ctx = s0.core.sq.ctxid ∧ ∃ d, (if wide then d < 4 else d = s0.dieNo) ∧ x ∈ (s0.dieAt d).pq
    c.length ≤ n ∧ (∀ x ∈ c, mine x) ∧ c.Pairwise (fun x y => x.key.toNat < y.key.toNat ∨ (x.key = y.key ∧ x.seq ≤ y.seq)) ∧
      ∀ x, mine x → x ∉ c → c.length = n ∧ ∀ y ∈ c, y.key.toNat < x.key.toNat ∨ (y.key = x.key ∧ y.seq ≤ x.seq) := by
  intro c wide n mine
  obtain ⟨all, hall⟩ : ∃ all, all = ((s0.pqReach scope).map fun d => (s0.dieAt d).pq.filter fun e => e.ctx = s0.core.sq.ctxid).flatten := ⟨_, rfl⟩
  have hn : (if (s0.pqReach scope).length = 1 then 8 else 32) = n := by
    simp only [n, wide, State.pqReach]; split <;> rfl
  have hc : c = (all.foldr pqInsert []).take n := by
    rw [← hn, hall]; rfl
  have hm : ∀ x, x ∈ all ↔ mine x := by
    intro x
    rw [hall]
    simp only [List.mem_flatten, List.mem_map, mine]
    constructor
    · rintro ⟨l, ⟨d, hd, rfl⟩, hx⟩
      obtain ⟨hx1, hx2⟩ := List.mem_filter.1 hx
      refine ⟨by simpa using hx2, d, ?_, hx1⟩
      simp only [State.pqReach, wide] at hd ⊢
      split at hd
      · rename_i hw; rw [if_pos hw]; simp at hd; omega
      · rename_i hw; rw [if_neg hw]; simpa using hd
    · rintro ⟨hx, d, hd, hxd⟩
      refine ⟨_, ⟨d, ?_, rfl⟩, List.mem_filter.2 ⟨hxd, by simpa using hx⟩⟩
      simp only [State.pqReach, wide] at hd ⊢
      split at hd
      · rename_i hw; rw [if_pos hw]; simp; omega
      · rename_i hw; rw [if_neg hw]; simpa using hd
  obtain ⟨p1, p2⟩ := pqAll all
  have p2' := p2
  rw [← List.take_append_drop n (all.foldr pqInsert []), List.pairwise_append, ← hc] at p2'
  refine ⟨by rw [hc]; exact List.length_take_le .., fun x hx => (hm x).1 (p1.mem_iff.1 (List.mem_of_mem_take (hc ▸ hx))), p2'.1.imp fun h => (pqBefore_iff _ _).1 h, fun x hx hxc => ?_⟩
  have hx' := p1.mem_iff.2 ((hm x).2 hx)
  rw [← List.take_append_drop n (all.foldr pqInsert []), List.mem_append, ← hc] at hx'
  have hd := hx'.resolve_left hxc
  refine ⟨?_, fun y hy => (pqBefore_iff _ _).1 (p2'.2.2 y hy x hd)⟩
  have hlen : n < (all.foldr pqInsert []).length := by
    by_contra hl
    rw [List.drop_eq_nil_of_le (by omega)] at hd
    cases hd
  rw [hc, List.length_take]; omega

theorem leaveLine_core (s : State) : (s.leaveLine).core.sq.trap = s.core.sq.trap ∧ s.leaveLine.core.sq.x = s.core.sq.x ∧ s.leaveLine.core.sq.pc = s.core.sq.pc ∧
   s.leaveLine.core.sq.mtrap = s.core.sq.mtrap ∧ s.leaveLine.store = s.store ∧ s.leaveLine.quads = s.quads ∧ s.leaveLine.mgmt = s.mgmt ∧ s.leaveLine.cur = s.cur ∧ s.leaveLine.core.sq.spec = s.core.sq.spec ∧ s.leaveLine.core.sq.pending = s.core.sq.pending ∧ s.leaveLine.core.sq.ctxid = s.core.sq.ctxid := by
  unfold State.leaveLine
  split
  · exact ⟨rfl, rfl, rfl, rfl, rfl, rfl, rfl, rfl, rfl, rfl, rfl⟩
  · simp only [State.setCoreAt]
    split
    · rename_i n e h hn
      have : ∀ v, ((s.coreAt n).setEng e v).sq = s.core.sq := by
        intro v; rw [(setEng_tok ..).2.2.1]; unfold State.coreAt; rw [if_pos hn]
      simp only [this]; simp
    · exact ⟨rfl, rfl, rfl, rfl, rfl, rfl, rfl, rfl, rfl, rfl, rfl⟩

/-- What abandoning a waiting instruction does to the core. -/
theorem abandon_core (s : State) : (s.abandon).core.sq.trap = s.core.sq.trap ∧ s.abandon.core.sq.x = s.core.sq.x ∧ s.abandon.core.sq.pc = s.core.sq.pc ∧
   s.abandon.core.sq.mtrap = s.core.sq.mtrap ∧ s.abandon.store = s.store ∧ s.abandon.quads = s.quads ∧ s.abandon.mgmt = s.mgmt ∧ s.abandon.cur = s.cur ∧ s.abandon.core.sq.spec = s.core.sq.spec ∧ s.abandon.core.sq.pending = s.core.sq.pending ∧ s.abandon.core.sq.ctxid = s.core.sq.ctxid := by
  obtain ⟨a, b, c, d, e, f, g, h, i, j, k⟩ := leaveLine_core s
  exact ⟨a, b, c, d, e, f, g, h, i, j, k⟩

/-- Trap entry from U or S that is no double trap (R102). -/
theorem trap_us (s : State) (code : BitVec 8) (unit : BitVec 3) (info : BitVec 12) (addr epc : Word) (spec : Bool) (hp : s.core.sq.trap.status.priv ≠ 3) (hd : ¬ (s.core.sq.trap.status.priv = 1 ∧ s.core.sq.trap.status.intrap = true ∧ code ≠ Cause.engineFault.code)) :
  s.trapEntry code unit info addr epc spec = { { s.abandon with core.sq := s.abandon.core.sq.interrupt } with
      core.sq.trap :=
        { s.core.sq.trap with
          epc := epc, badaddr := addr, cause := causeWord code unit info spec
          status := { intrap := true, pie := s.core.sq.trap.status.ie, ie := false, ppriv := s.core.sq.trap.status.priv, priv := 1 } }
      core.sq.pc := s.core.sq.trap.tvec } := by
  unfold State.trapEntry
  simp only [(abandon_core s).1]
  rw [if_neg hp, if_neg hd]

theorem giveBack_sq (c : Core) : c.giveBack.sq = c.sq := by 
  unfold Core.giveBack
  cases c.ae.part with
  | none => rfl
  | some p => cases hg : p.group <;> simp only [hg]

theorem freeze_sq (c : Core) : c.freeze.sq.trap = c.sq.trap ∧ c.freeze.sq.pc = c.sq.pc := by
  have h := giveBack_sq c
  exact ⟨(show c.giveBack.sq.trap = _ by rw [h]), (show c.giveBack.sq.pc = _ by rw [h])⟩

theorem firstPending_spec {c : Core} {e : Engine} (h : c.firstPending = some e) : c.faultPending e = true := by
  unfold Core.firstPending at h; exact List.find?_some h

/-- The trap entry of a pending engine fault at U or S, which is never a double trap (R101, R102). -/
theorem faultEntry_go (s : State) (e : Engine) (epc : Word) (spec : Bool) (hp : s.core.sq.trap.status.priv ≠ 3) :
    let t := s.trapEntry Cause.engineFault.code (BitVec.ofNat 3 e.id) 0 0 epc spec
    t.core.sq.pending = s.core.sq.pending ∧ t.core.sq.pc = s.core.sq.trap.tvec ∧ t.core.sq.trap.epc = epc ∧
      t.core.sq.trap.cause = causeWord Cause.engineFault.code (BitVec.ofNat 3 e.id) 0 spec ∧
      t.core.sq.trap.status.ie = false ∧ t.core.sq.trap.status.priv = 1 ∧ t.core.sq.spec = s.core.sq.spec ∧ t.core.sq.x = s.core.sq.x := by
  intro t
  have ht : t = _ := trap_us s Cause.engineFault.code (BitVec.ofNat 3 e.id) 0 0 epc spec hp fun h => h.2.2 rfl
  obtain ⟨-, hx, -, -, -, -, -, -, hs, hpd, -⟩ := abandon_core s
  rw [ht]
  exact ⟨hpd, rfl, rfl, rfl, rfl, rfl, hs, hx⟩

theorem faultCause_eq (e : Engine) (spec : Bool) : causeWord Cause.engineFault.code (BitVec.ofNat 3 e.id) 0 spec =
    BitVec.ofNat 64 (0x1A + e.id * 2 ^ 8 + (if spec then 1 else 0) * 2 ^ 11) := by
  cases e <;> cases spec <;> rfl

theorem pending_cleared (p : BitVec 6) (e : Engine) : (p &&& ~~~(1#6 <<< e.id)).getLsbD e.id = false := by
  cases e <;> simp [Engine.id] <;> intros <;> decide

theorem takeFault_region (s : State) (e : Engine) (hw : s.core.sq.inWfi = false) (ha : s.core.sq.spec.act = true) :
    s.takeEngineFault e =
      State.trapEntry (State.abortRegion { s with core.sq.pending := s.core.sq.pending &&& ~~~(1#6 <<< e.id) } 4 0)
        Cause.engineFault.code (BitVec.ofNat 3 e.id) 0 0 s.core.sq.spec.handler true := by
  unfold State.takeEngineFault
  rw [if_neg (by simp [hw])]
  simp only [ha, if_true]
  rfl

theorem takeFault_plain (s : State) (e : Engine) (hw : s.core.sq.inWfi = false) (ha : s.core.sq.spec.act = false) :
    s.takeEngineFault e = State.trapEntry { s with core.sq.pending := s.core.sq.pending &&& ~~~(1#6 <<< e.id) }
      Cause.engineFault.code (BitVec.ofNat 3 e.id) 0 0 s.core.sq.pc false := by
  unfold State.takeEngineFault
  rw [if_neg (by simp [hw])]
  simp only [ha, Bool.false_eq_true, if_false]

theorem takeFault_go (s : State) (e : Engine) (hp : s.core.sq.trap.status.priv ≠ 3) (hw : s.core.sq.inWfi = false) :
    let t := s.takeEngineFault e
    t.core.faultPending e = false ∧ t.core.sq.pc = s.core.sq.trap.tvec ∧
      t.core.sq.trap.epc = (if s.core.sq.spec.act then s.core.sq.spec.handler else s.core.sq.pc) ∧
      t.core.sq.trap.cause =
        BitVec.ofNat 64 (0x1A + e.id * 2 ^ 8 + (if s.core.sq.spec.act then 1 else 0) * 2 ^ 11) ∧
      t.core.sq.trap.status.ie = false ∧ t.core.sq.trap.status.priv = 1 ∧ t.core.sq.spec.act = false ∧
      t.core.sq.x = (if s.core.sq.spec.act then s.core.sq.spec.chkpt else s.core.sq.x) := by
  intro t
  cases ha : s.core.sq.spec.act with
  | true =>
    have ht : t = _ := takeFault_region s e hw ha
    obtain ⟨a, b, c, d, f, g, h, i⟩ := faultEntry_go
      (State.abortRegion { s with core.sq.pending := s.core.sq.pending &&& ~~~(1#6 <<< e.id) } 4 0) e s.core.sq.spec.handler true hp
    rw [ht]
    exact ⟨(congrArg (·.getLsbD e.id) a).trans (pending_cleared _ e), b, c, d.trans (faultCause_eq e true), f, g, congrArg Spec.act h, i⟩
  | false =>
    have ht : t = _ := takeFault_plain s e hw ha
    obtain ⟨a, b, c, d, f, g, h, i⟩ := faultEntry_go
      { s with core.sq.pending := s.core.sq.pending &&& ~~~(1#6 <<< e.id) } e s.core.sq.pc false hp
    rw [ht]
    exact ⟨(congrArg (·.getLsbD e.id) a).trans (pending_cleared _ e), b, c, d.trans (faultCause_eq e false), f, g, (congrArg Spec.act h).trans ha, i⟩

theorem tlbinv_go {s s0 : State} (a : Bool) (p : Tlb → Bool) (hp : s.priv ≠ 0) (ha : a = true) (hr : s.resolved = some s0) :
    let u := (s0.dropTlb p).markRemoved p
    (s0.core.sq.invalidated = false → tlbinv a p s = .next (if u.removedUsed then { u with core.sq.invalidated := true } else u.adv 4)) ∧
    (s0.core.sq.invalidated = true → tlbinv a p s = .next (if s0.removedUsed then s0 else s0.adv 4)) := by
  intro u
  unfold tlbinv
  rw [if_neg (by rw [ha]; simpa using hp), resolve_of_resolved hr]
  refine ⟨fun h => ?_, fun h => ?_⟩
  · simp only [h]
    show (if u.removedUsed = true then _ else _) = _
    split <;> rfl
  · simp only [h]
    show (if s0.removedUsed = true then _ else _) = _
    split <;> rfl

end Sys2Proof.Laws
end

