-- ==== Sys2Proof/Laws/Access.lean ====
section
/-! SUPPORT. What the accesses of the SQ do: loads, stores and atomics that go on. -/

namespace Sys2Proof.Laws

open Sys2Proof Sys2Proof.Machine

set_option linter.all false

theorem countDemote_setX (s : State) (scope : BitVec 3) (b : Bool) (rd : BitVec 5) (v : Word) : (s.countDemote scope b).setX rd v = (s.setX rd v).countDemote scope b := by
  by_cases h : rd = 0
  · subst h; rfl
  · rw [setX_pos _ _ _ h, setX_pos _ _ _ h]; unfold State.countDemote
    by_cases hc : (b && decide (s.core.sq.maxscope.toNat < scope.toNat)) = true
    · rw [if_pos hc, if_pos hc]
    · rw [if_neg hc, if_neg hc]

/-- A load that the translation and the value allow ends its instruction with the value. -/
theorem ld_go {s s1 s2 : State} {ea : Word} {n pa v len : Nat} {t : Tlb} {al : Alloc} (rd : BitVec 5) (sg : Bool) (h0 : ea.toNat % n = 0)
    (h1 : s.reach { read := true } ea = some (pa, t, s1)) (h2 : s1.found (sqHolders s1.cur) al t pa n = some (v, s2)) :
    sqLoad rd ea n sg al len s = .next ((s2.awaitReply.setX rd (extendTo sg n v)).adv len) := by
  unfold sqLoad; rw [if_neg (by simp [h0]), withPa_of_reach h1, loadValue_of_found h2]; rfl

theorem readHome_map (m : Memory) (a n : Nat) : readBytes m a n = (List.range n).map fun k => memRead m (a + k) := rfl
theorem heldByte_nil (a : Nat) : heldByte [] a = none := rfl

theorem overlay_nil (pa : Nat) (bs : List Byte) : overlay [] pa bs.length bs = bs := by
  unfold overlay
  simp only [heldByte_nil, Option.getD_none]
  refine List.ext_getElem (by simp) fun i h1 h2 => ?_
  rw [List.getElem_map, List.getElem_range, List.getD_eq_getElem?_getD, List.getElem?_eq_getElem h2]; rfl

theorem allHeld_nil {pa n : Nat} (h : allHeld [] pa n = true) : n = 0 := by
  unfold allHeld at h
  simp only [heldByte_nil] at h
  by_contra hn
  have := List.all_eq_true.1 h 0 (by simp; omega)
  simp at this

/-- What a load leaves as it was: everything but the storage, the quads, the reply and which dies sleep. -/
theorem loadPhys_frame (s : State) (hs : List Holder) (al : Alloc) (t : Tlb) (pa n : Nat) :
    let u := (s.loadPhys hs al t pa n).2
    u = { s with store := u.store, quads := u.quads, dies := u.dies, reply := u.reply } ∧
      ∀ d, { u.dieAt d with asleep := (s.dieAt d).asleep } = s.dieAt d := by
  intro u
  obtain ⟨w1, w2⟩ := wakeHomes_keeps s pa n
  have k : u = _ := (loadPhys_keeps s hs al t pa n).2.1
  have e : u.dies = (s.wakeHomes pa n).dies := by rw [k]
  refine ⟨?_, fun d => ?_⟩
  · refine k.trans ?_
    rw [e]
    generalize (s.loadPhys hs al t pa n).2.store = a, (s.loadPhys hs al t pa n).2.quads = b, (s.loadPhys hs al t pa n).2.reply = c
    conv_lhs => rw [w1]
  · rw [← w2 d]
    simp only [State.dieAt, e]

/-- The held byte at an address: that of the youngest held store that covers it. -/
theorem heldByte_young (old new : List Held) (h : Held) (a : Nat) (ha : h.pa ≤ a ∧ a < h.pa + h.size)
    (hn : ∀ x ∈ new, ¬(x.pa ≤ a ∧ a < x.pa + x.size)) : heldByte (old ++ h :: new) a = some (BitVec.ofNat 8 (h.data.toNat / 256 ^ (a - h.pa))) := by
  unfold heldByte
  rw [List.reverse_append, List.reverse_cons, List.findSome?_append, List.findSome?_append]
  have : new.reverse.findSome? (fun h => if h.pa ≤ a && a < h.pa + h.size then some (BitVec.ofNat 8 (h.data.toNat / 256 ^ (a - h.pa))) else none) = none := by
    rw [List.findSome?_eq_none_iff]
    intro x hx
    have := hn x (List.mem_reverse.1 hx)
    rw [if_neg (by simpa using this)]
  rw [this]
  simp [ha.1, ha.2]

/-- No held store covers a byte that none is found at. -/
theorem heldByte_none (held : List Held) (a : Nat) (hn : ∀ x ∈ held, ¬(x.pa ≤ a ∧ a < x.pa + x.size)) : heldByte held a = none := by
  unfold heldByte
  rw [List.findSome?_eq_none_iff]
  intro x hx
  rw [if_neg (by simpa using hn x (List.mem_reverse.1 hx))]

theorem heldByte_some (held : List Held) (a : Nat) (h : Held) (hh : h ∈ held) (ha : h.pa ≤ a ∧ a < h.pa + h.size) : (heldByte held a).isSome = true := by
  unfold heldByte
  rw [List.findSome?_isSome_iff]
  exact ⟨h, List.mem_reverse.2 hh, by simp [ha.1, ha.2]⟩

theorem overlay_getD (held : List Held) (pa n : Nat) (bs : List Byte) (k : Nat) (hk : k < n) :
    (overlay held pa n bs).getD k 0 = (heldByte held (pa + k)).getD (bs.getD k 0) := by
  unfold overlay
  rw [List.getD_eq_getElem?_getD, List.getElem?_map, List.getElem?_range hk]; rfl

theorem leNat_byte (bs : List Byte) (k : Nat) : leNat bs / 256 ^ k % 256 = (bs.getD k 0).toNat := by
  induction bs generalizing k with
  | nil => simp [leNat]
  | cons b l ih =>
    cases k with
    | zero => simp [leNat, Nat.add_mul_mod_self_left]; exact b.isLt
    | succ k =>
      rw [List.getD_cons_succ, ← ih k, Nat.pow_succ', ← Nat.div_div_eq_div_mul]
      congr 2
      have := b.isLt
      simp only [leNat]
      omega

/-- A store that translates stores. -/
theorem st_eq (i : Instr) (ea : Word) (n len : Nat) (c : BitVec 4) (al : BitVec 2) (s : State) (rd : BitVec 5) (he : exec i s = sqStore (s.x rd) ea n c al len s)
   (s1 s2 : State) (pa : Nat) (t : Tlb) : 
    let v := s.x rd
    let h : Held := { pa := pa, tlb := t, size := n, cls := c, hint := al, data := v }
    ea.toNat % n = 0 → s.reach { write := true } ea = some (pa, t, s1) →
    (s1.core.sq.spec.act = false →
      exec i s = .next ((s1.storeAcc (sqHolders s1.cur) (allocOf al) t pa (leBytes n v.toNat)).adv len)) ∧
    (s1.core.sq.spec.act = true → s1.core.sq.spec.held.length < 64 →
      exec i s = .next (State.adv { s1 with core.sq.spec.held := s1.core.sq.spec.held ++ [h] } len)) ∧
    (s1.core.sq.spec.act = true → 64 ≤ s1.core.sq.spec.held.length → s1.resolved = some s2 →
      exec i s = .next (State.adv { s2 with core.sq.spec.held := s2.core.sq.spec.held ++ [h] } len)) := by
  intro v h h0 h1
  rw [he]; unfold sqStore
  rw [if_neg (by simp [h0]), withPa_of_reach h1]
  simp only
  refine ⟨fun ha => ?_, fun ha hl => ?_, fun ha hl hr => ?_⟩
  · rw [if_pos (by simp [ha])]
  · rw [if_neg (by simp [ha]), if_pos hl]
  · rw [if_neg (by simp [ha]), if_neg (by omega), resolve_of_resolved hr]

theorem wakeLines_x (s : State) (l : List Nat) (r : BitVec 5) : (s.wakeLines l).x r = s.x r := by unfold State.wakeLines; split <;> rfl

theorem host_not_device {pa : Nat} (h : isHost pa = true) : inDevice pa = false := by
  unfold isHost at h; unfold inDevice
  simp only [Bool.and_eq_true, decide_eq_true_eq, decide_eq_false_iff_not] at *
  omega

theorem ncRoom_data (st : Store) (h : Holder) (k : Nat) : (st.ncRoom h k).data = st.data := by unfold Store.ncRoom; split <;> rfl

/-- Finding a value keeps the registers and the bytes of memory. -/
theorem found_keeps {s s2 : State} {hs al t pa n v} (h : s.found hs al t pa n = some (v, s2)) :
    s2.store.data = s.store.data ∧ s2 = { s with store := s2.store, quads := s2.quads, dies := s2.dies, reply := s2.reply } ∧
      (∀ q, (s2.quadAt q).rest = (s.quadAt q).rest) ∧ ∀ d, { s2.dieAt d with asleep := (s.dieAt d).asleep } = s.dieAt d := by
  unfold State.found at h
  simp only at h
  split at h
  · cases h; exact ⟨rfl, rfl, fun _ => rfl, fun _ => rfl⟩
  · split at h
    · cases h
    · injection h with h; injection h with _ h2; subst h2
      have k := loadPhys_keeps s hs al t pa n
      obtain ⟨f1, f2⟩ := loadPhys_frame s hs al t pa n
      exact ⟨k.1, f1, k.2.2.1, f2⟩

theorem besideX_adv (s : State) (rd : BitVec 5) (v : Word) (n : Nat) : ((s.setX rd v).adv n).besideX = s.besideX ∧ (∀ r, r ≠ rd → ((s.setX rd v).adv n).x r = s.x r) :=
  frame_writeX rd v n s _ rfl

theorem setX_store (s : State) (rd : BitVec 5) (v : Word) (n : Nat) : ((s.setX rd v).adv n).store = s.store := by
  have := (besideX_adv s rd v n).1
  have h2 := congrArg State.store this
  exact h2

/-- A load that goes on leaves memory and every register beside its destination alone. -/
theorem ld_frame {s s1 u : State} {i : Instr} {ea : Word} {n pa len : Nat} {t : Tlb} {al : Alloc} (rd : BitVec 5) (sg : Bool) (he : exec i s = sqLoad rd ea n sg al len s) (h0 : ea.toNat % n = 0)
    (h1 : s.reach { read := true } ea = some (pa, t, s1)) (hm : s1.marked (sqHolders s1.cur) t pa n = none) (hb : s1.hostBusy pa = false) (hu : exec i s = .next u) :
    (∀ a, memRead u.store.mem a = memRead s1.store.mem a) ∧ u.store.data = s1.store.data ∧ (∀ q, (u.quadAt q).rest = (s1.quadAt q).rest) ∧
    (∀ r, r ≠ rd → u.x r = s1.x r) ∧ (∀ d, { u.dieAt d with asleep := (s1.dieAt d).asleep } = s1.dieAt d) ∧
    { u.besideX with store := s1.store, quads := s1.quads, dies := s1.dies, reply := s1.reply, core.sq.nextAt := s1.core.sq.nextAt } = s1.besideX := by
  have hf : ∃ v s2, s1.found (sqHolders s1.cur) al t pa n = some (v, s2) := by
    unfold State.found
    simp only [hm, hb]
    split
    · exact ⟨_, _, rfl⟩
    · rw [if_neg (by simp)]; exact ⟨_, _, rfl⟩
  obtain ⟨v, s2, hf⟩ := hf
  rw [he, ld_go rd sg h0 h1 hf] at hu
  obtain rfl := (Host.Outcome.next.inj hu)
  obtain ⟨k1, k2, k3, k4⟩ := found_keeps hf
  obtain ⟨b1, b2⟩ := besideX_adv s2.awaitReply rd (extendTo sg n v) len
  have hd : ((s2.awaitReply.setX rd (extendTo sg n v)).adv len).dies = s2.dies := (congrArg State.dies b1 : State.dies (State.besideX _) = _)
  refine ⟨fun a => by rw [setX_store]; exact congrArg (fun d => memRead d.mem a) k1, by rw [setX_store]; exact k1, fun q => ?_, fun r hr => ?_, fun d => ?_, ?_⟩
  · rw [← k3 q]; exact (congrArg (fun v : State => (v.quadAt q).rest) b1 : (State.quadAt (State.besideX _) q).rest = _)
  · rw [b2 r hr, k2]; rfl
  · rw [show (((s2.awaitReply.setX rd (extendTo sg n v)).adv len).dieAt d) = s2.dieAt d by unfold State.dieAt; rw [hd]]; exact k4 d
  · rw [b1]
    generalize s2.store = a, s2.quads = b, s2.dies = c, s2.reply = e at k2
    rw [k2]; rfl

/-- An atomic that translates runs its operation on what it reads. -/
theorem atomicOp_go {s s0 s1 s2 : State} {ra : BitVec 5} (rd : BitVec 5) (scope : BitVec 3) {ord : BitVec 2} {wide : BitVec 1} {pa old : Nat}
    {t : Tlb} {hs : List Holder} (host : Bool) (f : Nat → Nat → State → Option Nat) (hr : s.resolved = some s0) (h0 : (s0.x ra).toNat % wideBytes wide = 0)
    (h1 : s0.reach { read := true, write := true } (s0.x ra) = some (pa, t, s1)) (hh : (isHost pa && !host) = false)
    (hb : s1.hostBusy pa = false) (hm : (s1.atHome t pa).1.marked (s1.atHome t pa).2 t pa (wideBytes wide) = none) (hw : (s1.atHome t pa).1.releaseWaits scope (ord = 2 || ord = 3) = false)
    (ha : s1.atomRead t pa (wideBytes wide) = (old, s2, hs)) :
    atomicOp rd ra scope ord wide host f s = .next ((((match f (wideBytes wide) old s2 with
              | some v => s2.storeAcc hs .all t pa (leBytes (wideBytes wide) v)
              | none => s2).countDemote scope (ord ≠ 0)).awaitReply.setX rd (extendTo true (wideBytes wide) old)).adv 4) := by
  unfold State.atomRead at ha
  simp only [Prod.mk.injEq] at ha
  obtain ⟨e1, e2, e3⟩ := ha
  subst e1 e2 e3
  unfold atomicOp
  rw [resolve_of_resolved hr]
  simp only
  rw [if_neg (by simpa using h0), withPa_of_reach h1]
  simp only [hh, hb, hm, hw, Bool.false_eq_true, if_false]
  unfold writeX
  congr 3

/-- An operation over a range that translates goes on with it. -/
theorem withRange_go {s s1 : State} {ra rb : BitVec 5} {k : Kind} {ps} (hz : s.x rb ≠ 0) (hl : (s.x ra).toNat + (s.x rb).toNat ≤ 2 ^ 64)
    (h : s.range k (s.x ra) (s.x rb) = some (ps, s1)) (go : List (Nat × Nat × Tlb) → State → Out) : withRange ra rb k s go = go ps s1 := by
  unfold State.range at h; unfold withRange
  simp only
  have hz' : (s.x rb).toNat ≠ 0 := fun e => hz (BitVec.eq_of_toNat_eq e)
  rw [if_neg hz', if_neg (by omega)]
  split at h
  · rename_i he; rw [he]; cases h; rfl
  · cases h

theorem tlbOwn_of_find (s : State) (t : Tlb) (va : Word) (hf : s.core.sq.tlb.find? (fun u => u.ctx = s.core.sq.ctxid && u.base ≤ va.toNat && va.toNat < u.base + u.size) = some t) : s.tlbOwn s.sqAgent va.toNat = some t := by
    unfold State.tlbOwn State.sqAgent; simp only; rw [← hf]; rfl

theorem translate_of_own (s : State) (t : Tlb) (va : Word) (k : Kind) (hc : canonical va = true) (this : s.tlbOwn s.sqAgent va.toNat = some t) : s.translate s.sqAgent k va = s.finish s.sqAgent k va.toNat t := by
  unfold State.translate State.translateFor
  rw [hc]
  simp only [this]
  show State.through s s.sqAgent k va.toNat t = _
  unfold State.through
  cases s.finish s.sqAgent k va.toNat t <;> rfl

end Sys2Proof.Laws
end

