-- ==== Sys2Proof/Laws/Vector.lean ====
section
/-! SUPPORT. What the shared operations of the vector engine and of views do. -/

namespace Sys2Proof.Laws

open Sys2Proof Sys2Proof.Machine

set_option linter.all false

/-- What a word of the vector engine that is ready has. -/
theorem veReady_spec {s : State} {t order typed raw reads d gs dst c}
    (h : s.veReady t order typed raw reads d = some (gs, dst, c)) :
    s.core.wordType order = some t ∧ (typed.all (s.core.operandOk (some t)) && raw.all (s.core.operandOk none)) = true ∧
    ∃ c0, s.core.readSources s.act.entry.args t.width reads = .ok (gs, c0) ∧ c0.veTarget d = .ok (dst, c) := by
  unfold State.veReady at h
  split at h
  · rename_i h1
    rw [Bool.and_assoc, Bool.and_eq_true] at h1
    refine ⟨by simpa using h1.1, h1.2, ?_⟩
    cases hr : s.core.readSources s.act.entry.args t.width reads with
    | error e => rw [hr] at h; cases h
    | ok p =>
      obtain ⟨gs', c0⟩ := p
      rw [hr] at h
      simp only at h
      cases ht : c0.veTarget d with
      | error e => rw [ht] at h; cases h
      | ok q =>
        obtain ⟨dst', c'⟩ := q
        rw [ht] at h
        simp only [Option.some.injEq, Prod.mk.injEq] at h
        obtain ⟨rfl, rfl, rfl⟩ := h
        exact ⟨c0, rfl, ht⟩
  · cases h

/-- A ready word passes the type and operand checks. -/
theorem veTyped_go {s : State} {t order typed raw reads d gs dst c} {allowed : Ty → Bool} {go : Ty → Out}
    (h : s.veReady t order typed raw reads d = some (gs, dst, c)) (ha : allowed t = true) :
    veTyped order typed raw allowed s go = go t := by
  obtain ⟨h1, h2, -⟩ := veReady_spec h
  unfold veTyped
  rw [h1]
  simp only
  rw [if_pos (by rw [Bool.and_assoc, h2, ha]; rfl)]

/-- A ready word issues: its sources are read and its destination is taken. -/
theorem veIssue_go {s : State} {t order typed raw reads d gs dst c srcs merge readsD lat tag f}
    (h : s.veReady t order typed raw reads d = some (gs, dst, c)) (hr : (srcs ++ if readsD = true then [d] else []) = reads) :
    veIssue t d srcs merge readsD lat tag f s =
      .next (s.veWrote c t lat dst (merge c) (f (modeOf c.vex.mode) c gs) (tag c)) := by
  obtain ⟨-, -, c0, h1, h2⟩ := veReady_spec h
  unfold veIssue
  rw [hr, h1]
  simp only
  rw [h2]
  rfl

/-- A ready word whose type is allowed puts its write on its way. -/
theorem veWord_go {s : State} {t d typed raw srcs m lat f gs dst c} {allowed : Ty → Bool}
    (h : s.veReady t (d :: srcs) (d :: typed) raw srcs d = some (gs, dst, c)) (ha : allowed t = true) :
    veWord d typed raw srcs m allowed lat f s =
      .next (s.veWrote c t (lat t) dst (c.activeMask m) (f t (modeOf c.vex.mode) gs)) := by
  unfold veWord
  rw [veTyped_go h ha, veIssue_go h (by simp)]

theorem arith2_int {t : Ty} (hi : t.isInt = true) (md fi ff) :
    arith2 t md fi ff = fun x y => t.wrap (fi (t.int x) (t.int y)) := by funext x y; simp [arith2, hi]
theorem arith2_real {t : Ty} (hi : t.isInt = false) (md fi ff) :
    arith2 t md fi ff = fun x y => t.convert md (ff (t.read md x) (t.read md y)) := by funext x y; simp [arith2, hi]
theorem arith3_int {t : Ty} (hi : t.isInt = true) (md fi ff) :
    arith3 t md fi ff = fun x y z => t.wrap (fi (t.int x) (t.int y) (t.int z)) := by funext x y z; simp [arith3, hi]

theorem arith3_real {t : Ty} (hi : t.isInt = false) (md fi ff) :
    arith3 t md fi ff = fun x y z => t.convert md (ff (t.read md x) (t.read md y) (t.read md z)) := by
  funext x y z; simp [arith3, hi]

theorem veArith_go {s : State} {t d s1 s2 m fi ff gs dst c}
    (h : s.veReady t [d, s1, s2] [d, s1, s2] [] [s1, s2] d = some (gs, dst, c)) (ha : arithTy t = true) :
    veArith d s1 s2 m fi ff s = .next (s.veWrote c t (latAB t) dst (c.activeMask m)
      (map2 t (arith2 t (modeOf c.vex.mode) fi (ff (modeOf c.vex.mode))) gs)) := by
  unfold veArith; rw [veWord_go h ha]

theorem not_int_of_wide {t : Ty} (hw : t.isWide = true) : t.isInt = false := by cases t <;> first | rfl | cases hw

theorem veOne_go {s : State} {t d s1 m lat f gs dst c} {allowed : Ty → Bool}
    (h : s.veReady t [d, s1] [d, s1] [] [s1] d = some (gs, dst, c)) (ha : allowed t = true) :
    veOne d s1 m allowed lat f s = .next (s.veWrote c t (lat t) dst (c.activeMask m) (map1 t (f t (modeOf c.vex.mode)) gs)) := by
  unfold veOne; rw [veWord_go h ha]

/-- A reduction whose operands are ready writes the splat of what it reduces to. -/
theorem veReduce_go {s : State} {t d s1 m fi ff ii ifl gs dst c}
    (h : s.veReady t [d, s1] [d, s1] [] [s1] d = some (gs, dst, c)) (ha : arithTy t = true) :
    veReduce d s1 m fi ff ii ifl s = .next (s.veWrote c t 8 dst (BitVec.allOnes 1024)
      (splat t.width (
        if t.isInt then t.satBits (root fi ((masked t (c.activeMask m) (gs.getD 0 0)).map fun p => if p.2 then t.int p.1 else ii t))
        else t.convert (modeOf c.vex.mode) (root (ff (modeOf c.vex.mode)) ((masked t (c.activeMask m) (gs.getD 0 0)).map fun p =>
          if p.2 then t.read (modeOf c.vex.mode) p.1 else ifl (modeOf c.vex.mode) t))))) := by
  unfold veReduce; rw [veTyped_go h ha, veIssue_go h rfl]

theorem readSources_two {c c' : Core} {args w s1 s2 gs}
    (h : c.readSources args w [s1, s2] = .ok (gs, c')) : True := trivial

theorem veCompare_go {s : State} {d s1 s2 m nan f t a b c}
    (h1 : s.core.wordType [s1, s2] = some t) (h2 : s.core.operandOk (some t) s1 = true) (h3 : s.core.operandOk (some t) s2 = true)
    (h4 : s.core.readSources s.act.entry.args t.width [s1, s2] = .ok ([a, b], c)) (ha : arithTy t = true) :
    veCompare d s1 s2 m nan f s = .next (State.wordDone { s with core := c.schedule (maskWrite d
      (bitsOf (List.zipWith (cmpElem t (modeOf c.vex.mode) nan f) (elemsOf t.width a) (elemsOf t.width b)))
      (c.activeMask m ||| ~~~lowOnes t.count) t.count) } 2) := by
  unfold veCompare veTyped
  rw [h1]
  simp only [List.all_cons, List.all_nil, h2, h3, ha, Bool.and_self, if_true, h4]
  rfl

theorem cmp_int {t : Ty} (hi : t.isInt = true) (md nan f) :
    cmpElem t md nan f = fun x y => f (t.int x - t.int y) := by funext x y; simp [cmpElem, hi]

theorem cmp_real {t : Ty} (hi : t.isInt = false) (md : Mode) (nan : Bool) (f : Int → Bool) :
    cmpElem t md nan f = fun x y => if t.read md x = .nan ∨ t.read md y = .nan then nan else f (fCompare (t.read md x) (t.read md y)) := by
  funext x y
  simp only [cmpElem, hi, Bool.false_eq_true, if_false]
  cases hx : t.read md x <;> cases hy : t.read md y <;> simp

/-- A word over scales that is ready goes on. -/
theorem scaleWord_go {s : State} {d s1 g v c go}
    (h1 : s.core.scaledGranule d = some g) (h2 : s.core.operandOk none s1 = true)
    (h3 : s.core.readSource s.act.entry.args 8 s1 = .ok (v, c)) : scaleWord d s1 s go = go g (v.setWidth 256) c := by
  unfold scaleWord; rw [h1]; simp only; rw [if_neg (by simp [h2]), h3]

/-- A free group is bound. -/
theorem bindNew_go {s : State} {g codes c k c'} (h : c.allocate = some (k, c')) :
    bindNew g codes c s = .next (s.veTagged c' g (.bind k codes)) := by
  unfold bindNew needGroup; rw [h]; rfl

theorem needBound_go {s : State} {g k go} (h : s.core.regs.checkBinding g = .ok k) : needBound g s go = go k := by
  unfold needBound; rw [h]
def packSum (w : Nat) (l : List Nat) : Nat := l.foldr (fun x acc => x % 2 ^ w + 2 ^ w * acc) 0

theorem packSum_lt (w : Nat) (l : List Nat) : packSum w l < 2 ^ (w * l.length) := by
  induction l with
  | nil => simp [packSum]
  | cons x t ih =>
    have e : packSum w (x :: t) = x % 2 ^ w + 2 ^ w * packSum w t := rfl
    have h1 : x % 2 ^ w < 2 ^ w := Nat.mod_lt _ (Nat.two_pow_pos w)
    rw [e, List.length_cons, Nat.mul_add, Nat.mul_one, Nat.add_comm (w * t.length), Nat.pow_add]
    calc x % 2 ^ w + 2 ^ w * packSum w t < 2 ^ w + 2 ^ w * packSum w t := by omega
      _ = 2 ^ w * (packSum w t + 1) := by ring
      _ ≤ 2 ^ w * 2 ^ (w * t.length) := Nat.mul_le_mul_left _ ih

theorem packSum_elem (w : Nat) (l : List Nat) (j : Nat) : packSum w l / 2 ^ (w * j) % 2 ^ w = l.getD j 0 % 2 ^ w := by
  induction l generalizing j with
  | nil => simp [packSum]
  | cons x t ih =>
    have e : packSum w (x :: t) = x % 2 ^ w + 2 ^ w * packSum w t := rfl
    have hp : 0 < 2 ^ w := Nat.two_pow_pos w
    cases j with
    | zero => rw [e]; simp
    | succ j =>
      rw [e, Nat.mul_succ, Nat.add_comm (w * j), Nat.pow_add, ← Nat.div_div_eq_div_mul, Nat.add_mul_div_left _ _ hp,
        Nat.div_eq_of_lt (Nat.mod_lt _ hp), Nat.zero_add, ih]
      simp

/-- The elements of a packed granule are those packed. -/
theorem elemsOf_packElems (w : Nat) (l : List Nat) (hl : w * l.length ≤ 8192) (j : Nat) :
    (packElems w l).toNat / 2 ^ (w * j) % 2 ^ w = l.getD j 0 % 2 ^ w := by
  have : (packElems w l).toNat = packSum w l := by
    show (BitVec.ofNat 8192 (packSum w l)).toNat = _
    rw [BitVec.toNat_ofNat, Nat.mod_eq_of_lt (lt_of_lt_of_le (packSum_lt w l) (Nat.pow_le_pow_right (by omega) hl))]
  rw [this, packSum_elem]

theorem elem_eq_extract (w : Nat) (g : Granule) (j : Nat) : g.toNat / 2 ^ (w * j) % 2 ^ w = (g.extractLsb' (w * j) w).toNat := by
  rw [BitVec.extractLsb'_toNat, Nat.shiftRight_eq_div_pow]

/-- Merging under a mask takes each element from one side or the other. -/
theorem mergeBits_elem (w : Nat) (m old new : Granule) (b : Bool) (j : Nat) (hj : w * j + w ≤ 8192)
    (hm : m.toNat / 2 ^ (w * j) % 2 ^ w = if b then 2 ^ w - 1 else 0) :
    (mergeBits m old new).toNat / 2 ^ (w * j) % 2 ^ w =
      if b then new.toNat / 2 ^ (w * j) % 2 ^ w else old.toNat / 2 ^ (w * j) % 2 ^ w := by
  rw [elem_eq_extract] at hm
  rw [elem_eq_extract, elem_eq_extract, elem_eq_extract]
  have hm2 : ∀ i, i < w → m.getLsbD (w * j + i) = b := by
    intro i hi
    have : (m.extractLsb' (w * j) w) = if b then BitVec.allOnes w else 0#w := by
      apply BitVec.eq_of_toNat_eq; rw [hm]; cases b <;> simp
    have h2 : (m.extractLsb' (w * j) w).getLsbD i = b := by rw [this]; cases b <;> simp [hi]
    rw [BitVec.getLsbD_extractLsb'] at h2
    simpa [hi] using h2
  have : (mergeBits m old new).extractLsb' (w * j) w = if b then new.extractLsb' (w * j) w else old.extractLsb' (w * j) w := by
    apply BitVec.eq_of_getLsbD_eq
    intro i hi
    have := hm2 i hi
    cases b <;> simp [mergeBits, BitVec.getLsbD_extractLsb', hi, this]
    omega
  rw [this]; cases b <;> rfl

theorem elemMask_elem (m : BitVec 1024) (w j : Nat) (hw : 0 < w) (hj : w * j + w ≤ 8192) :
    (elemMask m 0 w).toNat / 2 ^ (w * j) % 2 ^ w = if m.getLsbD j then 2 ^ w - 1 else 0 := by
  have hp : 0 < 2 ^ w := Nat.two_pow_pos w
  have hd : j < 8192 / w := by rw [Nat.lt_div_iff_mul_lt hw]; rw [Nat.mul_comm]; omega
  unfold elemMask
  rw [elemsOf_packElems]
  · rw [List.getD_eq_getElem?_getD, List.getElem?_map, List.getElem?_range hd]
    simp only [Option.map_some, Option.getD_some, Nat.zero_add]
    split
    · exact Nat.mod_eq_of_lt (by omega)
    · simp
  · simp only [List.length_map, List.length_range]; exact Nat.mul_div_le _ _

theorem tyWidth_cases (t : Ty) : t.size = 1 ∨ t.size = 2 ∨ t.size = 4 := by cases t <;> simp [Ty.size]
theorem gran_release (r : Regs) (g : Nat) : (r.release g).gran = r.gran := by
  unfold Regs.release; simp only []; split <;> rfl
theorem tag_release (r : Regs) (g : Nat) : (r.release g).tag = r.tag := by
  unfold Regs.release; simp only []; split <;> rfl

theorem gran_setTag (r : Regs) (g : Nat) (x : BitVec 16) : (r.setTag g x).gran = r.gran := by
  unfold Regs.setTag Regs.releaseTag; simp only []; split
  · rw [gran_release]
  · rfl

theorem tag_setTag (r : Regs) (g : Nat) : (r.setTag g 0).tag = smErase r.tag g := by
  unfold Regs.setTag Regs.releaseTag; simp only [if_true]; split
  · rw [tag_release]
  · rfl

theorem veTick_single {c : Core} {t : Ty} {g : Nat} {data : Granule} {merge : BitVec 1024}
    (hf : c.ve.frz = false) (hh : c.halted = false)
    (hp : c.vex.pend = [{ left := 1, dests := [.gran g], data := [data], merge := merge, esz := t.size, tag := .clear, latch := true }]) :
    let v := mergeBits (elemMask merge 0 t.width) (c.regs.granule g) data
    let r := Regs.setTag { c.regs with freed := 0, gran := smSet c.regs.gran g v } g 0
    c.veTick = { c with vex.cycle := c.vex.cycle + 1, vex.pend := [], vex.lat := v, vex.latValid := true,
                        regs := r } := by
  intro v r
  unfold Core.veTick
  simp only []
  rw [if_pos (show Core.veRuns _ = true by unfold Core.veRuns; unfold Core.halted at hh ⊢; simp [hf, hh]), hp]
  simp only [List.map_cons, List.map_nil, List.filter_cons, List.filter_nil, Nat.sub_self, decide_true, if_true, ne_eq, not_true_eq_false,
    decide_false, Bool.false_eq_true, if_false, List.foldl_cons, List.foldl_nil]
  unfold Core.landWrite
  simp only [List.zipIdx_cons, List.zipIdx_nil, List.foldl_cons, List.foldl_nil, if_true, Core.landOne, Nat.zero_mul, List.getD_cons_zero]
  rfl

/-- The view with another ROTBASE. -/
def withRot (v : BitVec 128) (r : Nat) : BitVec 128 := BitVec.ofNat 128 (setSeg v.toNat 64 10 r)

theorem withRot_toNat {v : BitVec 128} (h : seg v.toNat 74 54 = 0) {r : Nat} (hr : r < 1024) :
    (withRot v r).toNat = v.toNat % 2 ^ 64 + r * 2 ^ 64 := by
  unfold withRot setSeg
  have hv := v.isLt
  unfold seg at *
  rw [BitVec.toNat_ofNat]
  norm_num at *
  omega

theorem seg_withRot {v : BitVec 128} (h : seg v.toNat 74 54 = 0) {r : Nat} (hr : r < 1024) (a b : Nat) (hab : a + b ≤ 64) :
    seg (withRot v r).toNat a b = seg v.toNat a b := by
  rw [withRot_toNat h hr]
  unfold seg
  have e : ∀ m q : Nat, (m + q * 2 ^ 64) / 2 ^ a % 2 ^ b = m / 2 ^ a % 2 ^ b := by
    intro m q
    have : q * 2 ^ 64 = 2 ^ a * (2 ^ b * (q * 2 ^ (64 - a - b))) := by
      have : (2:Nat) ^ 64 = 2 ^ a * (2 ^ b * 2 ^ (64 - a - b)) := by rw [← Nat.pow_add, ← Nat.pow_add]; congr 1; omega
      rw [this]; ring
    rw [this, Nat.add_mul_div_left _ _ (Nat.two_pow_pos a), Nat.add_mul_mod_self_left]
  rw [e, ← e (v.toNat % 2 ^ 64) (v.toNat / 2 ^ 64)]
  congr 2
  omega

theorem rot_withRot {v : BitVec 128} (h : seg v.toNat 74 54 = 0) {r : Nat} (hr : r < 1024) : viewRot (withRot v r) = r := by
  unfold viewRot; rw [withRot_toNat h hr]; unfold seg; norm_num; omega
theorem scaled_seg (v : BitVec 128) : v.getLsbD 4 = decide (seg v.toNat 4 1 = 1) := by
  rw [BitVec.getLsbD, Nat.testBit_eq_decide_div_mod_eq]; rfl

/-- When a view is well formed, in the numbers of its fields. -/
theorem viewWf_iff (v : BitVec 128) : viewWf v = true ↔
    seg v.toNat 5 3 = 0 ∧ seg v.toNat 26 6 = 0 ∧ seg v.toNat 42 6 = 0 ∧ seg v.toNat 58 6 = 0 ∧ seg v.toNat 74 54 = 0 ∧
    seg v.toNat 0 4 ≤ 11 ∧ seg v.toNat 48 10 % 2 = 0 ∧ seg v.toNat 48 10 ≠ 512 ∧ seg v.toNat 8 8 % 2 = 1 ∧
    seg v.toNat 32 10 % 2 = 0 ∧ seg v.toNat 32 10 ≤ 512 ∧ viewRot v % 2 = 0 ∧
    (viewRot v < seg v.toNat 32 10 ∨ (viewRot v = 0 ∧ seg v.toNat 32 10 = 0)) ∧
    (seg v.toNat 4 1 = 1 → seg v.toNat 0 4 = 0 ∨ 9 ≤ seg v.toNat 0 4) ∧
    (seg v.toNat 32 10 = 0 ∨
      seg v.toNat 16 10 * 2048 + ((seg v.toNat 32 10 - 1) * seg v.toNat 8 8 + 1) * 1024 ≤ 0x140000) := by
  have hsg : seg v.toNat 4 1 < 2 := Nat.mod_lt _ (by norm_num)
  unfold viewWf viewCount viewTypeCode viewScaled
  rw [scaled_seg]
  simp only [Bool.and_eq_true, Bool.or_eq_true, decide_eq_true_eq, Bool.not_eq_true', decide_eq_false_iff_not, ne_eq, and_assoc, imp_iff_not_or, or_assoc]

theorem withRot_wf {v : BitVec 128} (hv : viewWf v = true) {r : Nat} (h2 : r % 2 = 0) (hc : r < viewCount v) :
    viewWf (withRot v r) = true := by
  rw [viewWf_iff] at hv
  obtain ⟨tlbOwn_of_find, translate_of_own, a3, a4, a5, a6, a7, a8, a9, a10, a11, a12, a13, a14, a15⟩ := hv
  have hr : r < 1024 := by unfold viewCount at hc; omega
  have s := fun a b h => seg_withRot (r := r) a5 hr a b h
  have e5 : seg (withRot v r).toNat 74 54 = 0 := by rw [withRot_toNat a5 hr]; unfold seg; norm_num; omega
  rw [viewWf_iff, rot_withRot a5 hr, s 5 3 (by omega), s 26 6 (by omega), s 42 6 (by omega), s 58 6 (by omega), s 0 4 (by omega),
    s 48 10 (by omega), s 8 8 (by omega), s 32 10 (by omega), s 4 1 (by omega), s 16 10 (by omega)]
  exact ⟨tlbOwn_of_find, translate_of_own, a3, a4, e5, a6, a7, a8, a9, a10, a11, h2, .inl hc, a14, a15⟩

end Sys2Proof.Laws
end

