-- ==== Sys2Proof/Laws/Storage.lean ====
section
/-! SUPPORT. What the shared operations of the access engine do: splits, rows and runs. -/

namespace Sys2Proof.Laws

open Sys2Proof Sys2Proof.Machine

set_option linter.all false

/-- A word of the access engine whose operands are ready goes on. -/
theorem aeReady_go {s : State} {ps : List (BitVec 4)} {n go} (h : s.ptrsReady ps = true) (hm : n ≠ 0 → s.requests + n ≤ 4096) :
    aeReady ps n s go = go := by
  unfold aeReady; rw [if_neg]
  unfold State.ptrsReady at h
  simp only [Bool.not_eq_true'] at h
  rw [h]
  simp only [Bool.false_or, Bool.and_eq_true, decide_eq_true_eq, not_and, Nat.not_lt]
  exact hm

/-- A word of the AE whose pointers and request room are there goes on. -/
theorem aeReady_mem {s : State} {ps : List (BitVec 4)} {n go} (h : s.memReady ps n = true) : aeReady ps n s go = go := by
  unfold State.memReady at h
  simp only [Bool.and_eq_true, decide_eq_true_eq] at h
  exact aeReady_go h.1 fun _ => h.2

/-- A word of the AE that only uses pointers goes on where they are there. -/
theorem aeReady_ptr {s : State} {ps : List (BitVec 4)} {go} (h : s.ptrsReady ps = true) : aeReady ps 0 s go = go :=
  aeReady_go h (by simp)

theorem aeOrder_go {s : State} {cls : BitVec 4} {go} (h : s.inOrder cls = true) : aeOrder cls s go = go := by
  unfold State.inOrder at h; unfold aeOrder; rw [if_neg (by simpa using h)]

theorem aeReady_noPtr {s : State} {ps : List (BitVec 4)} {n go} (h : s.memReady ps n = true) : aeReady [] n s go = go := by
  unfold State.memReady at h
  simp only [Bool.and_eq_true, decide_eq_true_eq] at h
  exact aeReady_go (by rfl) fun _ => h.2

theorem aeReady_only {s : State} {ps : List (BitVec 4)} {n go} (h : s.memReady ps n = true) : aeReady ps 0 s go = go := by
  unfold State.memReady at h
  simp only [Bool.and_eq_true, decide_eq_true_eq] at h
  exact aeReady_ptr h.1

/-- An operation on a pointer writes it. -/
theorem pointerOp_go {s : State} {pd uses v} (h : s.actor = .ae → s.ptrsReady (pd :: uses) = true) :
    pointerOp pd uses v s = .next ((s.setPtr pd (v s)).wordDone 2) := by
  unfold pointerOp
  simp only []
  split
  · rename_i ha; exact aeReady_ptr (h ha)
  · rfl

theorem ptrsReady_sub {s : State} {l l' : List (BitVec 4)} (h : s.ptrsReady l = true) (hs : ∀ x ∈ l', x ∈ l) : s.ptrsReady l' = true := by
  unfold State.ptrsReady at *
  simp only [Bool.not_eq_true', List.any_eq_false] at *
  exact fun x hx => h x (hs x hx)

/-- An access that splits goes on with its pieces. -/
theorem withSplit_go {s s1 : State} {ag k l ps go} (h : s.span ag k l = some (ps, s1)) : withSplit ag k l s go = go ps s1 := by
  unfold State.span at h
  unfold withSplit withSplitFor
  split at h
  · rename_i qs s' hs
    split at h
    · cases h
    · rename_i hb
      simp only [Option.some.injEq, Prod.mk.injEq] at h
      obtain ⟨rfl, rfl⟩ := h
      rw [hs]; simp only []; rw [if_neg hb]
  · cases h

/-- A destination that is free is taken. -/
theorem aeDest_go {s : State} {f put} {go : (Core → LDest × Core) → Out} (h : s.loadTarget f = some put) : aeDest' f s go = go put := by
  unfold State.loadTarget at h
  unfold aeDest'
  cases ho : operand f <;> simp only [ho] at h ⊢
  case main v i =>
    cases hg : s.core.granuleOf v i with
    | none => rw [hg] at h; cases h
    | some g => rw [hg] at h; cases h; rfl
  case ofile o => cases h; rfl
  case queue q =>
    split at h
    · rename_i h1; cases h; rw [if_pos h1]
    · cases h
  all_goals cases h

/-- A source that is present is read. -/
theorem aeSource_go {s : State} {f g c} {go : Granule → Core → Out} (h : s.storeValue f = some (g, c)) : aeSource' f s go = go g c := by
  unfold State.storeValue at h
  unfold aeSource' Core.aeOperand
  cases ho : operand f <;> simp only [ho] at h ⊢
  case main v i =>
    cases hg : s.core.granuleOf v i with
    | none => rw [hg] at h; cases h
    | some x =>
      rw [hg] at h; simp only [Option.map_some] at h ⊢
      split at h
      · cases h
      · rename_i hl; cases h; rw [if_neg hl]
  case ofile o =>
    split at h
    · cases h
    · rename_i hl; cases h; rw [if_neg hl]
  case queue q =>
    split at h
    · rename_i g' rest hq; cases h; first | rw [hq] | rfl
    · cases h
  all_goals cases h

/-- A store source that is present is read. -/
theorem storeSource_go {s : State} {f src c} {go : List Byte → Core → State → Out} (h : s.storeBytes f = some (src, c)) :
    storeSource f s go = go src c (s.keepSource src) := by
  unfold State.storeBytes at h
  unfold storeSource
  cases hv : s.storeValue f with
  | none => rw [hv] at h; cases h
  | some r => obtain ⟨g, c'⟩ := r; rw [hv] at h; simp only [Option.map_some, Option.some.injEq, Prod.mk.injEq] at h; obtain ⟨rfl, rfl⟩ := h; rw [aeSource_go hv]

/-- A vector read that translates reads. -/
theorem vecRead_go {s s1 : State} {ag al ea n todo go} (h : s.sectorsLeft ag { read := true } ea n = some (todo, s1)) :
    vecRead ag al ea n s go =
      (let r := todo.foldl (s1.readInto al) (if (s.act.part.getD {}).data.isEmpty then List.replicate n 0 else (s.act.part.getD {}).data, s1)
       go (r.1.take n) r.2) := by
  unfold State.sectorsLeft at h
  split at h
  · cases h
  · rename_i ps s' hs
    simp only [if_true] at h
    split at h
    · rename_i hb
      simp only [Option.some.injEq, Prod.mk.injEq] at h
      obtain ⟨rfl, rfl⟩ := h
      unfold vecRead
      simp only []
      rw [withSplit_go hs, Option.isNone_iff_eq_none.1 hb]
    · cases h

/-- A vector write that translates writes. -/
theorem vecWrite_go {s s1 : State} {ag al ea src todo go} (h : s.sectorsLeft ag { write := true } ea src.length = some (todo, s1)) :
    vecWrite ag al ea src s go = go (todo.foldl (s1.writeFrom al src) s1) := by
  unfold State.sectorsLeft at h
  split at h
  · cases h
  · rename_i ps s' hs
    simp only [Bool.false_eq_true, if_false] at h
    split at h
    · rename_i hb
      simp only [Option.some.injEq, Prod.mk.injEq] at h
      obtain ⟨rfl, rfl⟩ := h
      unfold vecWrite
      simp only []
      rw [withSplit_go hs, Option.isNone_iff_eq_none.1 hb]
    · cases h

/-- Reading rows that translate launches one load. -/
theorem rowsRead_go {ag size zp done rows buf z s buf' z' s'}
    (h : State.rowsRead ag size zp rows buf z s = some (buf', z', s')) : gathRows ag size zp done rows buf z s = done buf' z' s' := by
  induction rows generalizing buf z s with
  | nil =>
    simp only [State.rowsRead, Option.some.injEq, Prod.mk.injEq] at h
    obtain ⟨rfl, rfl, rfl⟩ := h; rfl
  | cons r rest ih =>
    obtain ⟨j, a⟩ := r
    unfold State.rowsRead at h
    unfold gathRows
    split at h
    · cases h
    · rename_i ps s1 hs
      rw [withSplit_go hs]
      simp only [] at h ⊢
      split at h
      · cases h
      · rename_i hb
        simp only [Bool.not_eq_true, Option.isSome_eq_false_iff, Option.isNone_iff_eq_none] at hb
        rw [hb]
        simp only []
        split at h
        · rename_i hb2
          obtain ⟨⟨i, va, c⟩, hb2⟩ := Option.isSome_iff_exists.1 hb2
          rw [hb2]
          simp only []
          cases zp with
          | true => rw [if_pos rfl] at h ⊢; exact ih h
          | false => cases h
        · rename_i hb2
          simp only [Bool.not_eq_true, Option.isSome_eq_false_iff, Option.isNone_iff_eq_none] at hb2
          rw [hb2]
          exact ih h

/-- Writing rows that translate writes them all. -/
theorem rowsWritten_go {ag src done rows s s'} (h : State.rowsWritten ag src rows s = some s') :
    scatSectors ag src done rows s = done s' := by
  induction rows generalizing s with
  | nil => simp only [State.rowsWritten, Option.some.injEq] at h; subst h; rfl
  | cons r rest ih =>
    obtain ⟨i, va⟩ := r
    unfold State.rowsWritten at h
    unfold scatSectors
    split at h
    · cases h
    · rename_i ps s1 hs
      rw [withSplit_go hs]
      simp only [] at h ⊢
      split at h
      · cases h
      · rename_i hb
        simp only [Bool.not_eq_true, Option.isSome_eq_false_iff, Option.isNone_iff_eq_none] at hb
        rw [hb]
        exact ih h

/-- A span that translates is its continuation over its pieces. -/
theorem withSplitTo_go {s s1 : State} {who ag k l ps go} (h : s.spanTo who ag k l = some (ps, s1)) : withSplitTo who ag k l s go = go ps s1 := by
  unfold State.spanTo at h
  unfold withSplitTo
  split at h
  · rename_i qs s' hs
    split at h
    · cases h
    · rename_i hb
      simp only [Option.some.injEq, Prod.mk.injEq] at h
      obtain ⟨rfl, rfl⟩ := h
      rw [hs]; simp only []; rw [if_neg hb]
  · cases h

/-- A load that finds a free group, or holds one, goes on with it. -/
theorem holdGroup_go {s s0 : State} {k go} (h : s.groupHeld = some (k, s0)) : holdGroup s go = go k s0 := by
  unfold State.groupHeld at h
  unfold holdGroup
  simp only [] at h ⊢
  cases hk : (s.act.part.getD {}).group with
  | some k' => rw [hk] at h; cases h; rfl
  | none =>
    rw [hk] at h
    unfold needGroup
    simp only [] at h ⊢
    cases ha : s.core.allocate with
    | none => rw [ha] at h; cases h
    | some r => rw [ha] at h; cases h; rfl

/-- Reading runs that translate launches one load. -/
theorem runsRead_go {ag al go runs buf s buf' s'} (h : State.runsRead ag al runs buf s = some (buf', s')) :
    readRuns ag al go runs buf s = go buf' s' := by
  induction runs generalizing buf s with
  | nil => simp only [State.runsRead, Option.some.injEq, Prod.mk.injEq] at h; obtain ⟨rfl, rfl⟩ := h; rfl
  | cons r rest ih =>
    obtain ⟨e, va, n⟩ := r
    unfold State.runsRead at h
    unfold readRuns
    split at h
    · cases h
    · rename_i ps s1 hs
      rw [withSplitTo_go hs]
      simp only [] at h ⊢
      split at h
      · cases h
      · rename_i hb
        simp only [Bool.not_eq_true, Option.isSome_eq_false_iff, Option.isNone_iff_eq_none] at hb
        rw [hb]
        exact ih h

/-- Writing runs that translate writes them all. -/
theorem runsWritten_go {ag al data go runs s s'} (h : State.runsWritten ag al data runs s = some s') :
    writeRuns ag al data go runs s = go s' := by
  induction runs generalizing s with
  | nil => simp only [State.runsWritten, Option.some.injEq] at h; subst h; rfl
  | cons r rest ih =>
    obtain ⟨e, off, va, n⟩ := r
    unfold State.runsWritten at h
    unfold writeRuns
    split at h
    · cases h
    · rename_i ps s1 hs
      rw [withSplit_go hs]
      simp only [] at h ⊢
      split at h
      · cases h
      · rename_i hb
        simp only [List.any_eq_true, not_exists, not_and, Bool.not_eq_true] at hb
        have hok : ∀ p ∈ ps, ∃ v, p.res = .ok v := by
          intro p hp
          have := hb p hp
          cases hx : p.res with
          | ok v => exact ⟨v, rfl⟩
          | error c => rw [hx] at this; cases this
        split
        · rename_i a c hf
          obtain ⟨p, hp, hq⟩ := List.exists_of_findSome?_eq_some hf
          obtain ⟨v, hv⟩ := hok p hp
          rw [hv] at hq; cases hq
        · refine Eq.trans ?_ (ih h)
          congr 2
          funext e
          congr 5
          rw [List.filter_eq_self]
          intro p hp
          obtain ⟨v, hv⟩ := hok p hp
          rw [hv]

theorem readHome_bytes (st : Store) (pa n : Nat) (h : isHost pa = false) (hd : inDevice pa = false) :
    st.readHome pa n = (List.range n).map fun k => memRead st.mem (pa + k) := by
  unfold Store.readHome; rw [if_neg (by simp [h]), if_neg (by simp [hd])]; rfl

/-- What a read of coherent memory answers and keeps. -/
theorem loadPhys_coherent (s : State) (hs al t pa n) (ht : t.nc = false) (hp : isHost pa = false) (hd : inDevice pa = false) :
    let r := s.loadPhys hs al t pa n
    r.1 = (List.range n).map (fun k => memRead s.store.mem (pa + k)) ∧ r.2.store.mem = s.store.mem ∧ r.2.core = s.core := by
  intro r
  obtain ⟨h1, h2, -, -⟩ := loadPhys_keeps s hs al t pa n
  refine ⟨?_, (show _ = s.store.data.mem by rw [← h1]; rfl), by show (s.loadPhys hs al t pa n).2.core = _; rw [h2, (wakeHomes_keeps s pa n).1]⟩
  show (s.loadPhys hs al t pa n).1 = _
  rw [loadPhys_bytes s hs al t pa n ht, readHome_bytes _ _ _ hp hd]

theorem patch_length (old : List Byte) (off : Nat) (bs : List Byte) (h : off + bs.length ≤ old.length) :
    (patchBytes old off bs).length = old.length := by
  unfold patchBytes; simp; omega

theorem patch_take (old : List Byte) (off : Nat) (bs : List Byte) (h : off + bs.length ≤ old.length) :
    ((patchBytes old off bs).drop off).take bs.length = bs := by
  unfold patchBytes
  rw [List.append_assoc, List.drop_append_of_le_length (by simp; omega)]
  have : (old.take off).drop off = [] := by simp
  rw [this, List.nil_append]
  simp

theorem sectorsOf_sub {pa m n k : Nat} (h : m ≤ n) (hk : k ∈ sectorsOf pa m) : k ∈ sectorsOf pa n := by
  unfold sectorsOf at *
  by_cases hm : m = 0
  · rw [if_pos hm] at hk; cases hk
  · rw [if_neg hm] at hk; rw [if_neg (by omega)]
    simp only [List.mem_map, List.mem_range] at *
    obtain ⟨j, hj, rfl⟩ := hk
    refine ⟨j, ?_, rfl⟩
    have : (pa + m - 1) / 64 ≤ (pa + n - 1) / 64 := Nat.div_le_div_right (by omega)
    omega

theorem wakeLines_regs (s : State) (l : List Nat) : (s.wakeLines l).core.regs = s.core.regs := by unfold State.wakeLines; split <;> rfl

/-- A quad set reads back, and no other quad changes. -/
@[simp] theorem quadAt_setQuad (s : State) (q : Nat) (v : Quad) (k : Nat) :
    (s.setQuad q v).quadAt k = if k = q then v else s.quadAt k := by
  unfold State.quadAt State.setQuad
  simp only []
  rw [smGet_smSet]; rfl

theorem window_setQuad (s : State) (q : Nat) (v : Quad) : (s.setQuad q v).window = s.window := rfl

theorem foldWrites (f : Nat → Nat) (bs : List Byte) (n : Nat) (m : Memory) (hw : Memory.wf m = true)
    (hf : ∀ i j, n ≤ i → i < n + bs.length → n ≤ j → j < n + bs.length → f i = f j → i = j) :
    let r := (bs.zipIdx n).foldl (fun m b => memWrite m (f b.2) b.1) m
    Memory.wf r = true ∧ (∀ k, k < bs.length → memRead r (f (n + k)) = bs.getD k 0) ∧
    (∀ a, (∀ k, k < bs.length → a ≠ f (n + k)) → memRead r a = memRead m a) := by
  induction bs generalizing n m with
  | nil => exact ⟨hw, by simp, fun _ _ => rfl⟩
  | cons b t ih =>
    intro r
    have hw' := memWrite_wf m (f n) b hw
    obtain ⟨h1, h2, h3⟩ := ih (n + 1) (memWrite m (f n) b) hw' (fun i j a b c d => hf i j (by omega) (by simp; omega) (by omega) (by simp; omega))
    have hr : r = (t.zipIdx (n + 1)).foldl (fun m b => memWrite m (f b.2) b.1) (memWrite m (f n) b) := by
      simp only [r, List.zipIdx_cons, List.foldl_cons]
    rw [hr]
    refine ⟨h1, fun k hk => ?_, fun a ha => ?_⟩
    · cases k with
      | zero =>
        have hn : ∀ k, k < t.length → f (n + 0) ≠ f (n + 1 + k) := by
          intro k hk he
          have := hf (n + 0) (n + 1 + k) (by omega) (by simp) (by omega) (by simp; omega) he
          omega
        rw [h3 _ hn, Nat.add_zero, memRead_memWrite _ _ _ _ hw, if_pos rfl]; rfl
      | succ k =>
        rw [show n + (k + 1) = n + 1 + k by omega, h2 k (by simpa using hk)]; rfl
    · rw [h3 a (fun k hk => by rw [show n + 1 + k = n + (k + 1) by omega]; exact ha _ (by simpa using hk)),
        memRead_memWrite _ _ _ _ hw, if_neg (by simpa using ha 0 (by simp))]

theorem div_split (x b : Nat) : x / 2 ^ b = 2 * (x / 2 ^ (b + 1)) + if x.testBit b then 1 else 0 := by
  have h1 : x / 2 ^ (b + 1) = x / 2 ^ b / 2 := by rw [Nat.pow_succ, Nat.div_div_eq_div_mul]
  rw [h1, Nat.testBit_eq_decide_div_mod_eq]
  by_cases h : x / 2 ^ b % 2 = 1 <;> simp [h] <;> omega

theorem smFind_smSet {α : Type} (m : SMap α) (a : Nat) (v : α) : smFind (smSet m a v) a = some v := by
  induction m with
  | nil => simp [smSet, smFind]
  | cons p t ih =>
    obtain ⟨k, w⟩ := p
    unfold smSet
    split
    · simp [smFind]
    · split
      · simp [smFind]
      · rename_i h1 h2
        simp only [smFind]
        rw [if_neg]
        · exact ih
        · omega

/-! the service of a scratchpad request -/

theorem flatMap_units (n : Nat) (f : Nat → List Byte) (hf : ∀ j, (f j).length = 4) :
    ((List.range n).flatMap f).length = 4 * n ∧ ∀ j, j < n → (((List.range n).flatMap f).drop (4 * j)).take 4 = f j := by
  induction n with
  | zero => exact ⟨rfl, fun j h => absurd h (Nat.not_lt_zero _)⟩
  | succ n ih =>
    rw [List.range_succ, List.flatMap_append, List.flatMap_singleton]
    refine ⟨by rw [List.length_append, ih.1, hf]; omega, fun j hj => ?_⟩
    by_cases h : j < n
    · rw [List.drop_append_of_le_length (by rw [ih.1]; omega), List.take_append_of_le_length (by rw [List.length_drop, ih.1]; omega)]
      exact ih.2 j h
    · obtain rfl : j = n := by omega
      rw [List.drop_append, ih.1, Nat.sub_self, List.drop_zero, List.drop_of_length_le (by rw [ih.1]), List.nil_append,
        List.take_of_length_le (by rw [hf])]

/-- Bytes written read back. -/
theorem readBytes_writeBytes (m : Memory) (off i n : Nat) (bs : List Byte) (hw : Memory.wf m = true) (h : i + n ≤ bs.length) :
    readBytes (writeBytes m off bs) (off + i) n = (bs.drop i).take n := by
  apply List.ext_getElem
  · simp [readBytes]; omega
  · intro k h1 h2
    have hk : k < n := by simpa [readBytes] using h1
    simp only [readBytes, List.getElem_map, List.getElem_range, List.getElem_take, List.getElem_drop]
    rw [memRead_writeBytes _ _ _ _ hw, if_pos (by omega), show off + i + k - off = i + k by omega]
    rw [List.getD_eq_getElem?_getD, List.getElem?_eq_getElem (by omega)]; rfl

/-- A write leaves the bytes outside it alone. -/
theorem writeBytes_out (m : Memory) (off x : Nat) (bs : List Byte) (hw : Memory.wf m = true) (h : x < off ∨ off + bs.length ≤ x) :
    memRead (writeBytes m off bs) x = memRead m x := by
  rw [memRead_writeBytes _ _ _ _ hw, if_neg (by omega)]

theorem readBytes_length (m : Memory) (a n : Nat) : (readBytes m a n).length = n := by simp [readBytes]

/-- A part of the bytes read is the bytes of that part. -/
theorem readBytes_slice (m : Memory) (a i k n : Nat) (h : i + k ≤ n) : ((readBytes m a n).drop i).take k = readBytes m (a + i) k := by
  apply List.ext_getElem
  · simp [readBytes]; omega
  · intro j h1 h2
    simp only [readBytes, List.getElem_take, List.getElem_drop, List.getElem_map, List.getElem_range]
    rw [Nat.add_assoc]

/-- The requests of an access are those of its operations, in their order. -/
theorem serveAll_ops (slot c : Nat) (ops : List (Nat × SpadOp)) (w : SMap Nat) :
    (serveAll slot c ops w).1.map (fun r => (r.off, r.op)) = ops := by
  induction ops generalizing w with
  | nil => rfl
  | cons x t ih => simp only [serveAll, List.map_cons]; rw [ih]

theorem foldl_max_ge (l : List SpadReq) (a : Nat) : a ≤ l.foldl (fun a r => max a r.cycle) a ∧ ∀ r ∈ l, r.cycle ≤ l.foldl (fun a r => max a r.cycle) a := by
  induction l generalizing a with
  | nil => exact ⟨Nat.le_refl _, fun _ h => by cases h⟩
  | cons x t ih =>
    obtain ⟨h1, h2⟩ := ih (max a x.cycle)
    refine ⟨by simp only [List.foldl_cons]; omega, fun r hr => ?_⟩
    simp only [List.foldl_cons]
    rcases List.mem_cons.1 hr with rfl | hr
    · omega
    · exact h2 r hr

theorem foldl_ends_ge (ls : List AeLoad) (a : Nat) :
    a ≤ ls.foldl (fun a l => l.reqsLeft.foldl (fun a r => max a r.cycle) a) a ∧
    ∀ l ∈ ls, ∀ r ∈ l.reqsLeft, r.cycle ≤ ls.foldl (fun a l => l.reqsLeft.foldl (fun a r => max a r.cycle) a) a := by
  induction ls generalizing a with
  | nil => exact ⟨Nat.le_refl _, fun _ h => by cases h⟩
  | cons x t ih =>
    obtain ⟨h1, h2⟩ := ih (x.reqsLeft.foldl (fun a r => max a r.cycle) a)
    obtain ⟨h3, h4⟩ := foldl_max_ge x.reqsLeft a
    refine ⟨by simp only [List.foldl_cons]; omega, fun l hl r hr => ?_⟩
    simp only [List.foldl_cons]
    rcases List.mem_cons.1 hl with rfl | hl
    · exact Nat.le_trans (h4 r hr) h1
    · exact h2 l hl r hr

/-- No request of the AE's accesses of a class performs after the class's end. -/
theorem classEnd_ge {c : Core} {cls : BitVec 4} {l : AeLoad} {r : SpadReq} (hl : l ∈ c.loads) (hs : l.spad = true) (hc : l.cls = cls)
    (hr : r ∈ l.reqsLeft) : r.cycle ≤ c.classEnd cls :=
  (foldl_ends_ge _ 0).2 l (List.mem_filter.2 ⟨hl, by simp [hs, hc]⟩) r hr

end Sys2Proof.Laws
end

