-- ==== Sys2Proof/Laws/Matrix.lean ====
section
/-! SUPPORT. What the shared operations of plates and of the matrix engine do. -/

namespace Sys2Proof.Laws

open Sys2Proof Sys2Proof.Machine

set_option linter.all false

theorem accBusy_false {c : Core} {a : Nat} (h : ∀ r ∈ c.mex.running, a ∉ r.accs) : c.accBusy [a] false = false := by
  unfold Core.accBusy
  rw [List.any_eq_false]
  intro r hr
  have := h r hr
  simp [this]

/-- A lease word on a core that holds the lease and nothing running goes on. -/
theorem leaseWord_go {s s1 : State} {go : State → Out} (h : s.leased = some s1) : leaseWord s go = go s1 := by
  unfold State.leased at h
  unfold leaseWord
  by_cases h1 : s.core.mex.plan.isSome = true
  · rw [if_pos h1] at h ⊢; cases h; rfl
  · rw [if_neg h1] at h ⊢
    simp only [] at h ⊢
    generalize (if (s.runSpent s.quadNo && decide ((s.quadAt s.quadNo).lease.holder = s.pos)) = true then s.endRun else s) = s' at h ⊢
    split at h
    · cases h
    · rename_i h2
      rw [if_neg h2]
      split at h
      · rename_i h3; rw [if_pos h3]
        split at h
        · rename_i h4; cases h; rw [if_pos h4]
        · cases h
      · rename_i h3
        rw [if_neg h3]
        split at h
        · rename_i h4; cases h; rw [if_pos h4]
        · cases h

/-- The span of a weight tile that translates is its continuation. -/
theorem weightSpan_go {s s1 : State} {who n l ps go} (h : s.weightSpan who n l = some (ps, s1)) :
    withSplitTo who (s.streamAgent n) { read := true } l s go = go ps s1 := withSplitTo_go h

/-- A tile whose lines are there is read. -/
theorem tileAt_go {s s1 : State} {fills q elem sc t go} (h : s.tileAt fills q sc = some (t, s1)) : tileOf fills q elem sc s go = go t s1 := by
  unfold State.tileAt at h
  unfold tileOf
  simp only [] at h ⊢
  split at h
  · rename_i h1
    simp only [Bool.and_eq_true, decide_eq_true_eq] at h1
    obtain ⟨⟨⟨⟨⟨⟨tlbOwn_of_find, translate_of_own⟩, a3⟩, a4⟩, a5⟩, a6⟩, a7⟩ := h1
    rw [if_neg (by simp [tlbOwn_of_find, translate_of_own, a3, a4, a5, a6]), if_neg (by simpa using a7)]
    split at h
    · rename_i va len pa tl ps s' hs
      rw [weightSpan_go hs]
      split at h
      · cases h
      · rename_i h2
        show (if tl.size < 65536 then _ else _) = _
        rw [if_neg h2]
        split at h
        · rename_i h3; rw [if_pos h3]
          simp only [Option.some.injEq, Prod.mk.injEq] at h
          obtain ⟨rfl, rfl⟩ := h
          rfl
        · rename_i h3; rw [if_neg h3]
          split at h
          · rename_i sp s2 hs2
            split at h
            · rename_i hall
              simp only [Option.some.injEq, Prod.mk.injEq] at h
              obtain ⟨rfl, rfl⟩ := h
              rw [weightSpan_go hs2]
              split
              · rename_i a c hf
                exfalso
                obtain ⟨p, hp, hq⟩ := List.exists_of_findSome?_eq_some hf
                have := (List.all_eq_true.1 hall) p hp
                cases hx : p.res with
                | ok v => rw [hx] at hq; cases hq
                | error e => rw [hx] at this; cases this
              · rfl
            · cases h
          · cases h
    · cases h
  · cases h

/-- A panel whose granules are there is read. -/
theorem panel_go {q sc go n j acc} {s s1 : State} {ts : List Tile} (h : State.panel q sc n j s = some (ts, s1)) :
    tilesOf q sc go n j acc s = go (acc ++ ts) s1 := by
  induction n generalizing j acc s ts with
  | zero => simp only [State.panel, Option.some.injEq, Prod.mk.injEq] at h; obtain ⟨rfl, rfl⟩ := h; simp [tilesOf]
  | succ n ih =>
    unfold State.panel at h
    unfold tilesOf
    split at h
    · cases h
    · rename_i t s' ht
      rw [tileAt_go ht]
      cases hp : State.panel q sc n (j + 1) s' with
      | none => rw [hp] at h; cases h
      | some r =>
        obtain ⟨l, s2⟩ := r
        rw [hp] at h
        simp only [Option.map_some, Option.some.injEq, Prod.mk.injEq] at h
        obtain ⟨rfl, rfl⟩ := h
        rw [ih hp, List.append_assoc]; rfl

/-- What a plate that is filled holds. -/
theorem filled_spec {s s1 : State} {p} (h : s.filled = some (p, s1)) :
    s.core.mex.plan = some p ∧ s.leased = some s ∧ (∀ go, afterFills p s go = go s1) := by
  unfold State.filled at h
  cases hp : s.core.mex.plan with
  | none => rw [hp] at h; cases h
  | some x =>
    rw [hp] at h
    simp only [] at h
    split at h
    · rename_i hd
      simp only [Option.some.injEq, Prod.mk.injEq] at h
      obtain ⟨rfl, rfl⟩ := h
      simp only [Bool.and_eq_true, Option.isNone_iff_eq_none] at hd
      refine ⟨rfl, ?_, fun go => ?_⟩
      · unfold State.leased; rw [if_pos (by rw [hp]; rfl)]
      · unfold afterFills; rw [if_neg (by simp [hd.1])]; simp only []; rw [hd.2]
    · cases h

theorem afterFills_now {s : State} {p : Plan} {go : State → State} (h : p.fills = []) (hb : p.bad = none) :
    afterFills p s (fun s => .next (go s)) = .next (go { s with core.mex.plan := none }) := by
  unfold afterFills
  rw [if_neg (by simp [State.planDone, h])]
  simp only [hb]

/-- A plan without fills has none to wait for, and none that could fail. -/
theorem startPlan_plan (s : State) (tiles : List Tile) (w : Want) (grans : List Nat) :
    ∃ p, (s.startPlan tiles w grans).core.mex.plan = some p ∧ (w.fills = [] → p.fills = [] ∧ p.bad = none) := by
  unfold State.startPlan
  simp only
  refine ⟨_, rfl, fun h => ?_⟩
  rw [h]
  exact ⟨rfl, rfl⟩

/-- A lease word whose tiles may be filled starts its plan. -/
theorem startOrWait_go {tiles w grans} {s : State} {go : Plan → State → State} (h : s.mayFill tiles w = true) :
    startOrWait tiles w grans s (fun p s => .next (go p s)) = .next (s.planned tiles w grans go) := by
  unfold State.mayFill at h
  simp only [Bool.and_eq_true, Bool.not_eq_true', decide_eq_true_eq] at h
  unfold startOrWait State.planned
  rw [if_neg (by simp [h.1]), if_neg (by omega)]
  obtain ⟨p, hp, hf⟩ := startPlan_plan s tiles w grans
  simp only [hp]
  split
  · rename_i he
    obtain ⟨h1, h2⟩ := hf (List.isEmpty_iff.1 he)
    exact afterFills_now h1 h2
  · rfl

/-- The victim that the fold finds is the least recently used of the list. -/
theorem oldest_spec (used : Nat → Nat) (l : List Nat) (o : Option Nat) (p : Nat)
    (h : l.foldl (fun best p => match best with | none => some p | some q => if used p < used q then some p else best) o = some p) :
    (p ∈ l ∨ o = some p) ∧ (∀ x ∈ l, used p ≤ used x) ∧ (∀ q, o = some q → used p ≤ used q) := by
  induction l generalizing o with
  | nil => simp only [List.foldl_nil] at h; subst h; exact ⟨.inr rfl, by simp, fun q hq => by cases hq; exact le_refl _⟩
  | cons a t ih =>
    rw [List.foldl_cons] at h
    obtain ⟨h1, h2, h3⟩ := ih _ h
    cases o with
    | none =>
      have := h3 a rfl
      refine ⟨.inl ?_, fun x hx => ?_, fun q hq => by cases hq⟩
      · rcases h1 with h1 | h1
        · exact List.mem_cons_of_mem _ h1
        · simp only [Option.some.injEq] at h1; rw [h1]; exact List.mem_cons_self
      · rcases List.mem_cons.1 hx with rfl | hx
        · exact this
        · exact h2 x hx
    | some q =>
      simp only [] at h1 h3
      by_cases hlt : used a < used q
      · rw [if_pos hlt] at h1 h3
        have := h3 a rfl
        refine ⟨.inl ?_, fun x hx => ?_, fun q' hq => by cases hq; omega⟩
        · rcases h1 with h1 | h1
          · exact List.mem_cons_of_mem _ h1
          · simp only [Option.some.injEq] at h1; rw [h1]; exact List.mem_cons_self
        · rcases List.mem_cons.1 hx with rfl | hx
          · exact this
          · exact h2 x hx
      · rw [if_neg hlt] at h1 h3
        have := h3 q rfl
        refine ⟨?_, fun x hx => ?_, fun q' hq => by cases hq; exact this⟩
        · rcases h1 with h1 | h1
          · exact .inl (List.mem_cons_of_mem _ h1)
          · exact .inr h1
        · rcases List.mem_cons.1 hx with rfl | hx
          · omega
          · exact h2 x hx

theorem sum_block (a w : List Nat) (k n : Nat) (ha : k + n ≤ a.length) (hw : k + n ≤ w.length) :
    ((((a.zip w).drop k).take n).map fun x => intOf true 8 x.1 * intOf true 8 x.2).sum =
      ((List.range n).map fun i => intOf true 8 (a.getD (k + i) 0) * intOf true 8 (w.getD (k + i) 0)).sum := by
  congr 1
  apply List.ext_getElem
  · simp; omega
  · intro i h1 h2
    have hi : i < n := by simpa using h2
    simp only [List.getElem_map, List.getElem_take, List.getElem_drop, List.getElem_zip, List.getElem_range, List.getD_eq_getElem?_getD]
    rw [List.getElem?_eq_getElem (by omega), List.getElem?_eq_getElem (by omega)]
    rfl

theorem block_pairs (a w : List Nat) (k n : Nat) (ha : k + n ≤ a.length) (hw : k + n ≤ w.length) :
    ((a.zip w).drop k).take n = (List.range n).map fun i => (a.getD (k + i) 0, w.getD (k + i) 0) := by
  apply List.ext_getElem
  · simp; omega
  · intro i h1 h2
    have hi : i < n := by simpa using h2
    simp only [List.getElem_map, List.getElem_take, List.getElem_drop, List.getElem_zip, List.getElem_range, List.getD_eq_getElem?_getD]
    rw [List.getElem?_eq_getElem (by omega), List.getElem?_eq_getElem (by omega)]
    rfl

theorem isNan_iff (v : FVal) : v.isNan = true ↔ v = .nan := by cases v <;> simp [FVal.isNan]

/-- What a block meets. -/
def blockNan (ta tw : Ty) (x : Option Int) (ps : List (Nat × Nat)) : Prop := x = none ∨ ∃ p ∈ ps, ta.value p.1 = .nan ∨ tw.value p.2 = .nan
def blockInf (ta : Ty) (ps : List (Nat × Nat)) : Prop := ∃ p ∈ ps, (ta.value p.1).isInf = true
def blockAdd (ta tw : Ty) (x : Option Int) (ps : List (Nat × Nat)) (v : FVal) : FVal × Bool :=
  plateRound (fAdd 0 v (fScale (x.getD 0) (blockSum ta tw ps)))

theorem nan_any (ta tw : Ty) (x : Option Int) (ps : List (Nat × Nat)) :
    (x.isNone || ps.any fun p => (ta.value p.1).isNan || (tw.value p.2).isNan) = true ↔ blockNan ta tw x ps := by
  simp only [Bool.or_eq_true, List.any_eq_true, isNan_iff, Option.isNone_iff_eq_none]; rfl

/-- A block without a NaN adds its sum, and records what it meets. -/
theorem block_num (c : Cell) (ta tw : Ty) (x : Option Int) (ps : List (Nat × Nat)) (h : ¬ blockNan ta tw x ps) :
    (c.block ta tw x ps).val = (blockAdd ta tw x ps c.val).1 ∧ (c.block ta tw x ps).nan = c.nan ∧
      ((c.block ta tw x ps).ovf = true ↔ c.ovf = true ∨ blockInf ta ps ∨ (blockAdd ta tw x ps c.val).2 = true) := by
  unfold Cell.block
  simp only
  rw [if_neg (by rw [nan_any]; exact h)]
  refine ⟨rfl, rfl, ?_⟩
  simp only [Bool.or_eq_true, List.any_eq_true, or_assoc]
  rfl

/-- A block with a NaN, or after one, leaves a NaN. -/
theorem block_nan (c : Cell) (ta tw : Ty) (x : Option Int) (ps : List (Nat × Nat))
    (h : blockNan ta tw x ps ∨ c.val = .nan ∧ c.nan = true) :
    (c.block ta tw x ps).val = .nan ∧ (c.block ta tw x ps).nan = true := by
  by_cases hn : blockNan ta tw x ps
  · unfold Cell.block; simp only; rw [if_pos ((nan_any ..).2 hn)]; exact ⟨rfl, rfl⟩
  · obtain ⟨h1, h2⟩ := h.resolve_left hn
    obtain ⟨a, b, -⟩ := block_num c ta tw x ps hn
    refine ⟨?_, b.trans h2⟩
    rw [a, h1]
    unfold blockAdd
    have : ∀ v, fAdd 0 .nan v = .nan := fun v => by cases v <;> rfl
    rw [this]
    decide

theorem block_ovf (c : Cell) (ta tw : Ty) (x : Option Int) (ps : List (Nat × Nat)) (h : c.ovf = true ∨ blockInf ta ps) :
    (c.block ta tw x ps).ovf = true := by
  by_cases hn : blockNan ta tw x ps
  · unfold Cell.block; simp only; rw [if_pos ((nan_any ..).2 hn)]
    simp only [Bool.or_eq_true, List.any_eq_true]
    exact h
  · exact (block_num c ta tw x ps hn).2.2.2 (h.imp_right .inl)

theorem four {α : Type} (l : List α) (d : α) (h : l.length = 4) : l = [l.getD 0 d, l.getD 1 d, l.getD 2 d, l.getD 3 d] := by
  match l, h with
  | [a, b, c, e], _ => rfl

/-- Four blocks in a row. -/
theorem blocks_four (ta tw : Ty) (x : Nat → Option Int) (pairs : Nat → List (Nat × Nat)) (c0 : Cell) (m0 : c0.nan = false) :
    let add (v : FVal) (k : Nat) := blockAdd ta tw (x k) (pairs k) v
    let nan (k : Nat) := blockNan ta tw (x k) (pairs k)
    let inf (k : Nat) := blockInf ta (pairs k)
    let c4 := (((c0.block ta tw (x 0) (pairs 0)).block ta tw (x 1) (pairs 1)).block ta tw (x 2) (pairs 2)).block ta tw (x 3) (pairs 3)
    let r0 := add c0.val 0
    let r1 := add r0.1 1
    let r2 := add r1.1 2
    let r3 := add r2.1 3
    let infs := c0.ovf = true ∨ inf 0 ∨ inf 1 ∨ inf 2 ∨ inf 3
    (¬ nan 0 ∧ ¬ nan 1 ∧ ¬ nan 2 ∧ ¬ nan 3 →
      c4.val = r3.1 ∧ (c4.ovf = true ↔ infs ∨ r0.2 = true ∨ r1.2 = true ∨ r2.2 = true ∨ r3.2 = true) ∧ c4.nan = false) ∧
    (nan 0 ∨ nan 1 ∨ nan 2 ∨ nan 3 → c4.val = .nan ∧ c4.nan = true ∧ (infs → c4.ovf = true)) := by
  intro add nan inf c4 r0 r1 r2 r3 infs
  obtain ⟨c1, hc1⟩ : ∃ c, c = c0.block ta tw (x 0) (pairs 0) := ⟨_, rfl⟩
  obtain ⟨c2, hc2⟩ : ∃ c, c = c1.block ta tw (x 1) (pairs 1) := ⟨_, rfl⟩
  obtain ⟨c3, hc3⟩ : ∃ c, c = c2.block ta tw (x 2) (pairs 2) := ⟨_, rfl⟩
  have hc4 : c4 = c3.block ta tw (x 3) (pairs 3) := by rw [hc3, hc2, hc1]
  clear_value c4
  refine ⟨fun ⟨n0, n1, n2, n3⟩ => ?_, fun h => ?_⟩
  · obtain ⟨tlbOwn_of_find, b1, d1⟩ := block_num c0 ta tw (x 0) (pairs 0) n0
    obtain ⟨translate_of_own, b2, d2⟩ := block_num c1 ta tw (x 1) (pairs 1) n1
    obtain ⟨a3, b3, d3⟩ := block_num c2 ta tw (x 2) (pairs 2) n2
    obtain ⟨a4, b4, d4⟩ := block_num c3 ta tw (x 3) (pairs 3) n3
    rw [← hc1] at tlbOwn_of_find b1 d1
    rw [← hc2] at translate_of_own b2 d2
    rw [← hc3] at a3 b3 d3
    rw [← hc4] at a4 b4 d4
    have e0 : blockAdd ta tw (x 0) (pairs 0) c0.val = r0 := rfl
    rw [e0] at tlbOwn_of_find d1
    have e1 : blockAdd ta tw (x 1) (pairs 1) c1.val = r1 := by rw [tlbOwn_of_find]
    rw [e1] at translate_of_own d2
    have e2 : blockAdd ta tw (x 2) (pairs 2) c2.val = r2 := by rw [translate_of_own]
    rw [e2] at a3 d3
    have e3 : blockAdd ta tw (x 3) (pairs 3) c3.val = r3 := by rw [a3]
    rw [e3] at a4 d4
    refine ⟨a4, ?_, by rw [b4, b3, b2, b1, m0]⟩
    clear tlbOwn_of_find translate_of_own a3 a4 b1 b2 b3 b4 hc1 hc2 hc3 hc4 e0 e1 e2 e3
    clear_value r0 r1 r2 r3
    simp only [infs, inf]
    rw [d4, d3, d2, d1]
    constructor
    · rintro ((((h | h | h) | h | h) | h | h) | h | h) <;> simp [h]
    · rintro ((h | h | h | h | h) | h | h | h | h) <;> simp [h]
  · have s1 : nan 0 → c1.val = .nan ∧ c1.nan = true := fun h => by rw [hc1]; exact block_nan _ _ _ _ _ (.inl h)
    have s2 : nan 1 ∨ c1.val = .nan ∧ c1.nan = true → c2.val = .nan ∧ c2.nan = true := fun h => by rw [hc2]; exact block_nan _ _ _ _ _ h
    have s3 : nan 2 ∨ c2.val = .nan ∧ c2.nan = true → c3.val = .nan ∧ c3.nan = true := fun h => by rw [hc3]; exact block_nan _ _ _ _ _ h
    have s4 : nan 3 ∨ c3.val = .nan ∧ c3.nan = true → c4.val = .nan ∧ c4.nan = true := fun h => by rw [hc4]; exact block_nan _ _ _ _ _ h
    have o1 : c0.ovf = true ∨ inf 0 → c1.ovf = true := fun h => by rw [hc1]; exact block_ovf _ _ _ _ _ h
    have o2 : c1.ovf = true ∨ inf 1 → c2.ovf = true := fun h => by rw [hc2]; exact block_ovf _ _ _ _ _ h
    have o3 : c2.ovf = true ∨ inf 2 → c3.ovf = true := fun h => by rw [hc3]; exact block_ovf _ _ _ _ _ h
    have o4 : c3.ovf = true ∨ inf 3 → c4.ovf = true := fun h => by rw [hc4]; exact block_ovf _ _ _ _ _ h
    have n4 : c4.val = .nan ∧ c4.nan = true := by
      rcases h with h | h | h | h
      · exact s4 (.inr (s3 (.inr (s2 (.inr (s1 h))))))
      · exact s4 (.inr (s3 (.inr (s2 (.inl h)))))
      · exact s4 (.inr (s3 (.inl h)))
      · exact s4 (.inl h)
    refine ⟨n4.1, n4.2, fun h => ?_⟩
    rcases h with h | h | h | h | h
    · exact o4 (.inl (o3 (.inl (o2 (.inl (o1 (.inl h)))))))
    · exact o4 (.inl (o3 (.inl (o2 (.inl (o1 (.inr h)))))))
    · exact o4 (.inl (o3 (.inl (o2 (.inr h))))) 
    · exact o4 (.inl (o3 (.inr h)))
    · exact o4 (.inr h)

/-- The scale exponents of the blocks, one by one. -/
theorem scales_four (f : Option Int → Option Int → Option Int) (a b : List (Option Int)) (ha : a.length = 4) (hb : b.length = 4) :
    List.zipWith f a b = [f (a.getD 0 none) (b.getD 0 none), f (a.getD 1 none) (b.getD 1 none), f (a.getD 2 none) (b.getD 2 none),
      f (a.getD 3 none) (b.getD 3 none)] := by
  match a, ha, b, hb with
  | [_, _, _, _], _, [_, _, _, _], _ => rfl

theorem plainWrite_granule (r : Regs) (g : Nat) (v : Granule) (k : Nat) :
    (r.plainWrite g v).granule k = if k = g then v else r.granule k := by
  unfold Regs.plainWrite Regs.granule; rw [gran_setTag]; simp only []; rw [smGet_smSet]

theorem plainWrite_tag (r : Regs) (g : Nat) (v : Granule) (k : Nat) :
    (r.plainWrite g v).tagOf k = if k = g then 0 else r.tagOf k := by
  unfold Regs.plainWrite Regs.tagOf; rw [tag_setTag]; simp only []; rw [smGet_smErase]

/-- Granules written in a row are what they were written as, and every other granule is as before. -/
theorem foldPlain (base : Nat) (l : List (List (List Nat))) (n : Nat) (r : Regs) :
    let u := (l.zipIdx n).foldl (fun (r : Regs) p => r.plainWrite (base + p.2) (packElems 32 p.1.flatten)) r
    (∀ i, i < l.length → u.granule (base + n + i) = packElems 32 ((l.getD i []).flatten) ∧ u.tagOf (base + n + i) = 0) ∧
    (∀ k, (k < base + n ∨ base + n + l.length ≤ k) → u.granule k = r.granule k ∧ u.tagOf k = r.tagOf k) := by
  induction l generalizing n r with
  | nil => exact ⟨fun i hi => by simp at hi, fun k _ => ⟨rfl, rfl⟩⟩
  | cons a t ih =>
    intro u
    obtain ⟨h1, h2⟩ := ih (n + 1) (r.plainWrite (base + n) (packElems 32 a.flatten))
    have hu : u = (t.zipIdx (n + 1)).foldl (fun (r : Regs) p => r.plainWrite (base + p.2) (packElems 32 p.1.flatten))
        (r.plainWrite (base + n) (packElems 32 a.flatten)) := by
      simp only [u, List.zipIdx_cons, List.foldl_cons]
    rw [hu]
    refine ⟨fun i hi => ?_, fun k hk => ?_⟩
    · cases i with
      | zero =>
        have := h2 (base + n + 0) (by omega)
        rw [this.1, this.2, plainWrite_granule, plainWrite_tag, if_pos (Nat.add_zero _), if_pos (Nat.add_zero _)]
        exact ⟨rfl, rfl⟩
      | succ i =>
        have := h1 i (by simpa using hi)
        rw [show base + (n + 1) + i = base + n + (i + 1) by omega] at this
        exact this
    · simp only [List.length_cons] at hk
      have := h2 k (by omega)
      rw [this.1, this.2, plainWrite_granule, plainWrite_tag, if_neg (by omega), if_neg (by omega)]
      exact ⟨rfl, rfl⟩

theorem chunks_getD {α : Type} (n k : Nat) (l : List α) (i : Nat) (hi : i < k) :
    (chunks n k l).getD i [] = (l.drop (n * i)).take n := by
  induction k generalizing l i with
  | zero => omega
  | succ k ih =>
    unfold chunks
    cases i with
    | zero => simp
    | succ i =>
      rw [List.getD_cons_succ, ih _ _ (by omega), List.drop_drop]
      rw [Nat.mul_succ, Nat.add_comm]

theorem chunks_length {α : Type} (n k : Nat) (l : List α) : (chunks n k l).length = k := by
  induction k generalizing l with
  | zero => rfl
  | succ k ih => simp [chunks, ih]

theorem elems_pack (w : Nat) (l : List Nat) (hl : l.length = 8192 / w) (hw : ∀ x ∈ l, x < 2 ^ w) :
    elemsOf w (packElems w l) = l := by
  unfold elemsOf
  apply List.ext_getElem
  · simp [hl]
  · intro i h1 h2
    simp only [List.getElem_map, List.getElem_range]
    rw [elemsOf_packElems w l (by rw [hl]; exact Nat.mul_div_le _ _)]
    rw [List.getD_eq_getElem?_getD, List.getElem?_eq_getElem h2]
    exact Nat.mod_eq_of_lt (hw _ (List.getElem_mem h2))

end Sys2Proof.Laws
end

