-- ==== Sys2Proof/Laws/Copy.lean ====
section
/-! SUPPORT. What the shared operations of the copy and exchange engines do. -/

namespace Sys2Proof.Laws

open Sys2Proof Sys2Proof.Machine

set_option linter.all false

/-- A promised frame has the slot it was promised. -/
theorem withPromise_go {s s1 : State} {n mem go} (h : s.promising n mem = some s1) : withPromise n mem s go = go s1 := by
  unfold State.promising at h
  unfold withPromise
  simp only [] at h ⊢
  split at h
  · rename_i h1; cases h; rw [if_pos h1]
  · rename_i h1
    rw [if_neg h1]
    split at h
    · rename_i h2; cases h; unfold pushOr; rw [if_pos (by simpa using h2)]; rfl
    · cases h

theorem isSome_false {α} {o : Option α} (h : ¬(o.isSome = true)) : o = none := by
  simpa using h

/-- A scratchpad access that its bank has served goes on. -/
theorem spadTurn_go {a op off data s r go} (h : s.spadServed off data = some r) : spadTurn a op off data s go = go r.1 r.2 := by
  unfold State.spadServed at h
  unfold spadTurn
  simp only [] at h ⊢
  cases hd : (s.act.part.getD {}).due with
  | none => rw [hd] at h; cases h
  | some d =>
    rw [hd] at h
    simp only [] at h ⊢
    split at h
    · cases h
    · rename_i hb
      cases h; rw [if_neg hb]; rfl

/-- A read of a space that is reachable reads it. -/
theorem readSpace_go {space k a n off s r go} (h : State.bytesFrom space k a n off s = some r) :
    readSpace space k a n off s go = go r.1 r.2 := by
  unfold State.bytesFrom at h
  unfold readSpace
  generalize space.toNat = m at h ⊢
  rcases m with _ | _ | m
  · simp only [] at h ⊢
    split at h
    · rename_i ps s' hs
      split at h
      · cases h
      · rename_i hm
        cases h
        rw [withSplit_go (ag := s.streamAgent k) hs, isSome_false hm]
    · cases h
  · exact spadTurn_go h
  · cases h; rfl

theorem cameBack_spec {o : Option (List Byte × State)} {r} (h : State.cameBack o = some r) : o = some r ∧ ¬ r.2.time.toNat < r.2.reply.toNat := by
  unfold State.cameBack at h
  cases o with
  | none => cases h
  | some x =>
    simp only [Option.bind_some] at h
    split at h
    · cases h
    · rename_i hn; cases h; exact ⟨rfl, hn⟩

theorem heldBytes_spec {s : State} {bs r} (h : s.heldBytes bs = some r) : r = (bs, s) ∧ ¬ (s.onWay = true) := by
  unfold State.heldBytes at h
  split at h
  · cases h
  · rename_i hn; cases h; exact ⟨rfl, hn⟩

/-- A write to a space that is reachable writes it. -/
theorem writeSpace_go {space k a bs off data s s1 go} (h : State.bytesTo space k a bs off data s = some s1) :
    writeSpace space k a bs off data s go = go s1 := by
  unfold State.bytesTo at h
  unfold writeSpace
  generalize space.toNat = m at h ⊢
  rcases m with _ | _ | m
  · simp only [] at h ⊢
    split at h
    · rename_i va len pa t ps s' hs
      cases h
      rw [withSplit_go (ag := s.streamAgent k) hs]
    · cases h
  · simp only [] at h ⊢
    obtain ⟨s2, h2, rfl⟩ := Option.map_eq_some_iff.1 h
    exact spadTurn_go h2
  · cases h; rfl

/-- A unit whose bytes are there is read. -/
theorem readUnit_go {y m off s r go} (h : State.unitBytes y m off s = some r) : readUnit y m off s go = go r.1 r.2 := by
  unfold State.unitBytes at h
  unfold readUnit
  simp only [] at h ⊢
  split at h
  · rename_i ps s' hs
    split at h
    · cases h
    · rename_i hm
      cases h
      rw [withSplit_go hs, isSome_false hm]
  · cases h

/-- A copy whose units translate runs to its end. -/
theorem copyLoop_go {ds ss a b n fin fuel off s s1} (h : State.copied ds ss a b n fuel off s = some s1) :
    copyLoop ds ss a b n fin fuel off s = fin s1 := by
  induction fuel generalizing off s with
  | zero => cases h
  | succ f ih =>
    unfold State.copied at h
    unfold copyLoop
    split at h
    · rename_i h1; cases h; rw [if_pos h1]
    · rename_i h1
      rw [if_neg h1]
      simp only [] at h ⊢
      obtain ⟨r, hr, h⟩ := Option.bind_eq_some_iff.1 h
      obtain ⟨s2, hw, h⟩ := Option.bind_eq_some_iff.1 h
      simp only [decide_eq_true_eq, Bool.and_eq_true] at hr hw
      cases hd : (s.act.part.getD {}).data with
      | nil =>
        rw [hd] at hr
        simp only [] at hr ⊢
        simp only [decide_eq_true_eq, Bool.and_eq_true]
        obtain ⟨hr, hn⟩ := cameBack_spec hr
        split at hr
        · rename_i h2
          rw [if_pos h2, readUnit_go hr, if_neg hn, writeSpace_go hw]; exact ih h
        · rename_i h2
          rw [if_neg h2, readSpace_go hr, if_neg hn, writeSpace_go hw]; exact ih h
      | cons x l =>
        rw [hd] at hr
        obtain ⟨rfl, hn⟩ := heldBytes_spec hr
        simp only [decide_eq_true_eq, Bool.and_eq_true]
        rw [if_neg hn, writeSpace_go hw]; exact ih h

/-- A fill whose units translate runs to its end. -/
theorem fillLoop_go {ds a v w n fin fuel off s s1} (h : State.patterned ds a v w n fuel off s = some s1) :
    fillLoop ds a v w n fin fuel off s = fin s1 := by
  induction fuel generalizing off s with
  | zero => cases h
  | succ f ih =>
    unfold State.patterned at h
    unfold fillLoop
    split at h
    · rename_i h1; cases h; rw [if_pos h1]
    · rename_i h1
      rw [if_neg h1]
      obtain ⟨s2, hw, h⟩ := Option.bind_eq_some_iff.1 h
      rw [writeSpace_go hw]
      exact ih h

/-- A run whose units translate runs to its end. -/
theorem runLoop_go {al data hold bad fin fuel runs base off s s1} (h : State.streamed al data hold fuel runs base off s = some s1) :
    runLoop al data hold bad fin fuel runs base off s = fin s1 := by
  induction fuel generalizing runs base off s with
  | zero => cases h
  | succ f ih =>
    cases runs with
    | nil => simp only [State.streamed, Option.some.injEq] at h; subst h; rfl
    | cons x rest =>
      obtain ⟨a, n⟩ := x
      unfold State.streamed at h
      unfold runLoop
      split at h
      · rename_i h1; rw [if_pos h1]; exact ih h
      · rename_i h1
        rw [if_neg h1]
        simp only [] at h ⊢
        split at h
        · rename_i va len pa t ps s' hs
          rw [withSplit_go hs]
          exact ih h
        · cases h

/-- A copy of a tensor whose rows translate runs to its end. -/
theorem cpytLoop_go {t id reg n fuel g x s s1} (h : State.tensorCopied t reg n fuel g x s = some s1) :
    cpytLoop t id reg n fuel g x s = .next (s1.wordDone 2) := by
  induction fuel generalizing g x s with
  | zero => obtain ⟨i, c⟩ := x; cases h
  | succ f ih =>
    obtain ⟨i, c⟩ := x
    unfold State.tensorCopied at h
    unfold cpytLoop
    split at h
    · rename_i h1; cases h; rw [if_pos h1]
    · rename_i h1
      rw [if_neg h1]
      simp only [] at h ⊢
      split at h
      · rename_i h2
        rw [if_pos h2]
        obtain ⟨s2, hr, h⟩ := Option.bind_eq_some_iff.1 h
        rw [runLoop_go hr]
        exact ih h
      · rename_i h2
        rw [if_neg h2]
        split at h
        · rename_i h2
          simp only [Bool.and_eq_true, decide_eq_true_eq, Option.isNone_iff_eq_none] at h2
          rw [if_neg (by simp only [Bool.or_eq_true, decide_eq_true_eq, Bool.not_eq_true', not_or, Bool.not_eq_false]; exact ⟨by omega, h2.1.2⟩)]
          cases hk : s.core.regs.checkBinding (reg / 1024 + g) with
          | error c => rw [hk] at h; cases h
          | ok k =>
            rw [hk] at h
            obtain ⟨s2, hr, h⟩ := Option.bind_eq_some_iff.1 h
            rw [h2.2]
            simp only []
            rw [runLoop_go hr]
            exact ih h
        · cases h

/-- Pages that translate are their continuation. -/
theorem withPages_go {ch k inside l go} {s s1 : State} {ps} (h : s.pagesAt ch k inside l = some (ps, s1)) :
    withPages ch k inside l s go = go ps s1 := by
  unfold State.pagesAt at h
  unfold withPages
  split at h
  · rename_i qs s' hs
    split at h
    · cases h
    · rename_i hf
      simp only [Option.some.injEq, Prod.mk.injEq] at h
      obtain ⟨rfl, rfl⟩ := h
      rw [hs]
      simp only []
      rw [isSome_false hf]
  · cases h

theorem granBytes_length (g : Granule) : (granBytes g).length = 1024 := leBytes_length _ _

/-- 1024 bytes made a granule are its bytes. -/
theorem granBytes_granOfBytes (bs : List Byte) (h : bs.length = 1024) : granBytes (granOfBytes bs) = bs := by
  unfold granBytes granOfBytes
  have hl := leNat_lt bs
  rw [h] at hl
  rw [BitVec.toNat_ofNat, Nat.mod_eq_of_lt (by
    calc leNat bs < 256 ^ 1024 := hl
      _ = 2 ^ 8192 := by rw [show (256 : Nat) = 2 ^ 8 from rfl, ← Nat.pow_mul])]
  apply List.ext_getElem
  · rw [leBytes_length, h]
  · intro i h1 h2
    have e := leBytes_getD 1024 (leNat bs) i (by omega)
    rw [List.getD_eq_getElem?_getD, List.getElem?_eq_getElem h1] at e
    simp only [Option.getD_some] at e
    rw [e]
    have gen : ∀ (l : List Byte) i (hi : i < l.length), BitVec.ofNat 8 (leNat l / 256 ^ i) = l[i] := by
      intro l
      induction l with
      | nil => intro i hi; simp at hi
      | cons b t ih =>
        intro i hi
        have hb : leNat (b :: t) = b.toNat + 256 * leNat t := rfl
        cases i with
        | zero =>
          simp only [pow_zero, Nat.div_one, List.getElem_cons_zero, hb]
          apply BitVec.eq_of_toNat_eq
          have := b.isLt
          rw [BitVec.toNat_ofNat]; omega
        | succ i =>
          simp only [List.getElem_cons_succ]
          rw [← ih i (by simpa using hi), hb, Nat.pow_succ, Nat.mul_comm (256 ^ i), ← Nat.div_div_eq_div_mul]
          congr 2
          have := b.isLt
          omega
    exact gen bs i h2

/-- A remote word whose unit is ready is sent. -/
theorem remoteWord_go {s : State} {dev go} (h : s.remoteReady dev = true) : remoteWord dev s go = go s := by
  unfold State.remoteReady at h
  unfold remoteWord
  simp only [Bool.and_eq_true, Option.isNone_iff_eq_none] at h
  simp only []
  rw [if_neg (by rw [h.1]; simp)]
  by_cases ho : s.ownDev dev = true
  · rw [if_pos ho]
    have := h.2
    rw [if_pos ho] at this
    rw [if_neg (by intro hc; rw [Option.isNone_iff_eq_none.1 hc] at this; cases this)]
  · rw [if_neg ho]
    have := h.2
    rw [if_neg ho] at this
    simp only [Bool.and_eq_true, decide_eq_true_eq] at this
    rw [if_neg (by simp only [Bool.or_eq_true, decide_eq_true_eq, this.1.2, this.2, Bool.not_true, Bool.false_eq_true, or_false]; omega)]

/-- A unit at the own device is performed at once. -/
theorem unitHere_go {k : RemKind} {cls dev va loc n off src} {s : State} {r go}
    (h : s.unitHere dev (k.op n src) va = some r) : remoteUnit k cls dev va loc n off src s go = go r.1 r.2 := by
  unfold State.unitHere at h
  unfold remoteUnit
  split at h
  · rename_i ho
    simp only [Bool.and_eq_true, decide_eq_true_eq] at ho
    rw [if_neg (by omega), if_pos ho.1]
    split at h
    · rename_i d s' hu; cases h; rw [hu]
    · cases h
  · cases h

/-- A remote word all of whose units are at the own device runs to its end. -/
theorem moveLoop_go {k : RemKind} {cls dev a b n fuel off} {s s1 : State} (h : State.movedHere k dev a b n fuel off s = some s1) :
    moveLoop k cls dev a b n fuel off s = .next (s1.wordDone 2) := by
  induction fuel generalizing off s with
  | zero => cases h
  | succ f ih =>
    unfold State.movedHere at h
    unfold moveLoop
    split at h
    · rename_i h1; cases h; rw [if_pos h1]
    · rename_i h1
      rw [if_neg h1]
      simp only [] at h ⊢
      obtain ⟨r, hr, h⟩ := Option.bind_eq_some_iff.1 h
      obtain ⟨s3, hw, h⟩ := Option.bind_eq_some_iff.1 h
      have second : ∀ u : State, u = r.2 → (match (motive := RemKind → Out) k with
          | .get => storeLocal (a + BitVec.ofNat 64 off) off r.1 u fun s => moveLoop k cls dev a b n f
              (off + min (min (toBoundary (a + BitVec.ofNat 64 off).toNat) (toBoundary (b + BitVec.ofNat 64 off).toNat)) (n - off))
              (s.keep (off + min (min (toBoundary (a + BitVec.ofNat 64 off).toNat) (toBoundary (b + BitVec.ofNat 64 off).toNat)) (n - off)) [])
          | _ => remoteUnit k cls dev (b + BitVec.ofNat 64 off) (a + BitVec.ofNat 64 off)
              (min (min (toBoundary (a + BitVec.ofNat 64 off).toNat) (toBoundary (b + BitVec.ofNat 64 off).toNat)) (n - off)) off r.1 u
              fun _ s => moveLoop k cls dev a b n f
              (off + min (min (toBoundary (a + BitVec.ofNat 64 off).toNat) (toBoundary (b + BitVec.ofNat 64 off).toNat)) (n - off))
              (s.keep (off + min (min (toBoundary (a + BitVec.ofNat 64 off).toNat) (toBoundary (b + BitVec.ofNat 64 off).toNat)) (n - off)) []))
          = .next (s1.wordDone 2) := by
        intro u hu
        subst hu
        unfold State.unitSunk at hw
        cases k with
        | get => exact (writeSpace_go hw).trans (ih h)
        | put | red op | sig =>
          obtain ⟨r', hu, rfl⟩ := Option.map_eq_some_iff.1 hw
          exact (unitHere_go hu).trans (ih h)
      cases hd : (s.act.part.getD {}).data with
      | nil =>
        rw [hd] at hr
        simp only [] at hr ⊢
        obtain ⟨hr, hn⟩ := cameBack_spec hr
        unfold State.unitSource at hr
        cases k with
        | get =>
          simp only [] at hr ⊢
          split at hr
          · rename_i ps s2 hs
            split at hr
            · cases hr
            · rename_i hb
              rw [withSplit_go (ag := s.streamAgent xeStreamA) hs]
              split
              · rename_i c hf
                exfalso
                obtain ⟨p, hp, hq⟩ := List.exists_of_findSome?_eq_some hf
                apply hb
                rw [List.any_eq_true]
                refine ⟨p, hp, ?_⟩
                cases hx : p.res with
                | ok v => rw [hx] at hq; cases hq
                | error e => rfl
              · rw [unitHere_go hr, if_neg hn]; exact second _ rfl
          · cases hr
        | put | red op | sig =>
          simp only [] at hr ⊢
          rw [readSpace_go hr, if_neg hn]; exact second _ rfl
      | cons x l =>
        rw [hd] at hr
        obtain ⟨rfl, hn⟩ := heldBytes_spec hr
        simp only []
        rw [if_neg hn]; exact second _ rfl

/-- The local pages of a remote word that translate let it go on. -/
theorem localPages_go {k a n go} {s s1 : State} (h : s.localReady k a n = some s1) : localPages k a n s go = go s1 := by
  unfold State.localReady at h
  unfold localPages
  split at h
  · rename_i hp; cases h; rw [if_pos hp]
  · rename_i hp
    rw [if_neg hp]
    split at h
    · rename_i ps s' hs
      split at h
      · rename_i hall
        cases h
        rw [hs]
        simp only []
        split
        · rename_i x c he
          exfalso
          obtain ⟨p, hp, hq⟩ := List.exists_of_findSome?_eq_some he
          have := (List.all_eq_true.1 hall) p hp
          cases hx : p.res with
          | ok v => rw [hx] at hq; cases hq
          | error e => rw [hx] at this; cases this
        · rfl
      · cases h
    · cases h

end Sys2Proof.Laws
end

