-- ==== Sys2Proof/Laws/Engine.lean ====
section
/-! SUPPORT. What the operations over engines, tokens and wakes do. -/

namespace Sys2Proof.Laws

open Sys2Proof Sys2Proof.Machine

set_option linter.all false

@[simp] theorem eng_setEng (s : State) (e : Engine) (g : Eng) : (s.setEng e g).eng e = g := by cases e <;> rfl
@[simp] theorem ceng_setEng (c : Core) (e : Engine) (g : Eng) : (c.setEng e g).eng e = g := by cases e <;> rfl
@[simp] theorem setEngTok (c : Core) (e : Engine) (g : Eng) : (c.setEng e g).tok = c.tok := by cases e <;> rfl
@[simp] theorem setEng_tok' (c : Core) (e : Engine) (g : Eng) : (c.setEng e g).outq = c.outq := by cases e <;> rfl
@[simp] theorem setEng_sq (c : Core) (e : Engine) (g : Eng) : (c.setEng e g).sq = c.sq := by cases e <;> rfl
@[simp] theorem setEng_regs (c : Core) (e : Engine) (g : Eng) : (c.setEng e g).regs = c.regs := by cases e <;> rfl
@[simp] theorem setEng_halted (c : Core) (e : Engine) (g : Eng) : (c.setEng e g).halted = c.halted := by cases e <;> rfl
@[simp] theorem setEng_tokq (c : Core) (e : Engine) (g : Eng) (a b : Nat) : (c.setEng e g).tokq a b = c.tokq a b := by cases e <;> rfl
@[simp] theorem startVe_eng (c : Core) (e f : Engine) : (c.startVe e).eng f = c.eng f := by unfold Core.startVe; split <;> cases f <;> rfl
@[simp] theorem startVe_tok (c : Core) (e : Engine) : (c.startVe e).tok = c.tok := by unfold Core.startVe; split <;> rfl
@[simp] theorem startVe_tokq (c : Core) (e : Engine) (a b : Nat) : (c.startVe e).tokq a b = c.tokq a b := by unfold Core.startVe; split <;> rfl
@[simp] theorem startVe_sq (c : Core) (e : Engine) : (c.startVe e).sq = c.sq := by unfold Core.startVe; split <;> rfl
@[simp] theorem startVe_regs (c : Core) (e : Engine) : (c.startVe e).regs = c.regs := by unfold Core.startVe; split <;> rfl

theorem sweep_sweep (g : Eng) : g.sweep.sweep = g.sweep := by
  unfold Eng.sweep
  by_cases h : g.free = true
  · simp [h, Eng.free] at *
    simp [h, List.dropWhile_idempotent]
  · simp [h]

theorem vec_getD_set {α : Type} {n : Nat} (v : Vector α n) (i j : Nat) (x d : α) (h : j < n) :
    (v.setIfInBounds i x).getD j d = if i = j then x else v.getD j d := by
  obtain ⟨a, rfl⟩ := v
  show (a.setIfInBounds i x).getD j d = if i = j then x else a.getD j d
  rw [Array.getD_eq_getD_getElem?, Array.getD_eq_getD_getElem?, Array.getElem?_setIfInBounds]
  split
  · rename_i hij; subst hij; simp [h]
  · rfl

/-- A token queue set reads back, and no other queue changes. -/
theorem tokq_setTokq (c : Core) (a b a' b' : Nat) (q : TokQ) (ha : a ≤ 5) (hb : b ≤ 5) (ha' : a' ≤ 5) (hb' : b' ≤ 5) :
    (c.setTokq a b q).tokq a' b' = if a = a' ∧ b = b' then q else c.tokq a' b' := by
  unfold Core.setTokq Core.tokq pair
  refine (vec_getD_set _ _ _ _ _ (by omega)).trans ?_
  have : (6 * a + b = 6 * a' + b') ↔ (a = a' ∧ b = b') := by omega
  simp only [this]

theorem id_le (e : Engine) : e.id ≤ 5 := by cases e <;> decide
theorem bv3_le {u : BitVec 3} (h : ¬5 < u.toNat) : u.toNat ≤ 5 := by omega

/-- A taken token leaves its queue, and no other. -/
theorem takeToken_present (c : Core) (e : Engine) (u : BitVec 3) (v : Nat) (hv : v ≤ 5) :
    ((c.takeToken e u).tokq v e.id).present = (c.tokq v e.id).present - if u.toNat = v then 1 else 0 := by
  unfold Core.takeToken
  split
  · rw [if_neg (by omega)]; rfl
  · rename_i h
    rw [tokq_setTokq _ _ _ _ _ _ (bv3_le h) (id_le e) hv (id_le e)]
    by_cases hu : u.toNat = v
    · simp [hu]
    · simp [hu]

theorem takeToken_reserved (c : Core) (e : Engine) (u : BitVec 3) (v w : Nat) (hv : v ≤ 5) (hw : w ≤ 5) :
    ((c.takeToken e u).tokq v w).reserved = (c.tokq v w).reserved := by
  unfold Core.takeToken
  split
  · rfl
  · rename_i h
    rw [tokq_setTokq _ _ _ _ _ _ (bv3_le h) (id_le e) hv hw]
    split
    · rename_i hh; simp [hh.1, hh.2]
    · rfl

theorem reserveGive_present (c : Core) (e : Engine) (u : BitVec 3) (v w : Nat) (hv : v ≤ 5) (hw : w ≤ 5) :
    ((c.reserveGive e u).tokq v w).present = (c.tokq v w).present := by
  unfold Core.reserveGive
  split
  · rfl
  · rename_i h
    rw [tokq_setTokq _ _ _ _ _ _ (id_le e) (bv3_le h) hv hw]
    split
    · rename_i hh; simp [hh.1, hh.2]
    · rfl

/-- A give field reserves one slot of its queue, and no other. -/
theorem reserveGive_reserved (c : Core) (e : Engine) (u : BitVec 3) (v : Nat) (hv : v ≤ 5) :
    ((c.reserveGive e u).tokq e.id v).reserved = (c.tokq e.id v).reserved + if u.toNat = v then 1 else 0 := by
  unfold Core.reserveGive
  split
  · rw [if_neg (by omega)]; rfl
  · rename_i h
    rw [tokq_setTokq _ _ _ _ _ _ (id_le e) (bv3_le h) (id_le e) hv]
    by_cases hu : u.toNat = v
    · simp [hu]
    · simp [hu]

@[simp] theorem takeToken_sq (c : Core) (e : Engine) (u : BitVec 3) : (c.takeToken e u).sq = c.sq := by unfold Core.takeToken; split <;> rfl
@[simp] theorem takeToken_regs (c : Core) (e : Engine) (u : BitVec 3) : (c.takeToken e u).regs = c.regs := by unfold Core.takeToken; split <;> rfl
@[simp] theorem reserveGive_sq (c : Core) (e : Engine) (u : BitVec 3) : (c.reserveGive e u).sq = c.sq := by unfold Core.reserveGive; split <;> rfl
@[simp] theorem reserveGive_regs (c : Core) (e : Engine) (u : BitVec 3) : (c.reserveGive e u).regs = c.regs := by unfold Core.reserveGive; split <;> rfl

/-- A take field of an entry finds its token, or names none (R169). -/
abbrev tokHas (c : Core) (e : Engine) (u : BitVec 3) : Prop := 5 < u.toNat ∨ (c.tokq u.toNat e.id).present ≠ 0

/-- What an entry waits for (R169). -/
theorem startWait_eq (c : Core) (e : Engine) (x : Entry) :
    c.startWait e x = if ¬(tokHas c e x.take1 ∧ tokHas c e x.take2 ∧ tokHas c e x.take3) then 1
      else if x.give.toNat ≤ 5 ∧ 15 ≤ (c.tokq e.id x.give.toNat).present + (c.tokq e.id x.give.toNat).reserved then 2 else 0 := by
  unfold Core.startWait tokHas
  simp only [← Bool.decide_or, ← Bool.decide_and, and_assoc, ← decide_not, decide_eq_true_eq]

theorem setEng_self (s : State) (e : Engine) : s.setEng e (s.eng e) = s := by cases e <;> rfl

/-- The block of a scratchpad entry is kept when it starts. -/
theorem loadSpadBlock_eq (s : State) (e : Engine) (x : Entry) (hx : (s.eng e).entry = x) (hw : (s.eng e).words = []) :
    s.loadSpadBlock e =
      s.setEng e { s.eng e with words := if spadRef x.addr then s.spadBlock (x.addr.toNat % 8388608) else [] } := by
  unfold State.loadSpadBlock
  simp only []
  rw [hx, hw]
  unfold Entry.inSpad
  by_cases h : spadRef x.addr = true
  · rw [if_pos (by rw [h]; rfl), if_pos h]; rfl
  · rw [if_neg (by simp [h]), if_neg h]
    have : ({ s.eng e with words := [] } : Eng) = s.eng e := by rw [← hw]
    rw [this, setEng_self]

@[simp] theorem setEng_view (c : Core) (e : Engine) (g : Eng) (v : BitVec 3) : (c.setEng e g).view v = c.view v := by cases e <;> rfl

theorem vget_vmap {α β : Type} {n k : Nat} (f : α → β) (v : Vector α n) (i : BitVec k) (h : 2 ^ k = n) :
    vget (vmap f v) i h = f (vget v i h) := by
  unfold vget vmap
  simp [← Array.getElem_toList]

theorem rotateAll_view (c : Core) (v : BitVec 3) : c.rotateAll.view v = rotateView (c.view v) := by
  unfold Core.rotateAll Core.view
  exact vget_vmap ..

/-- What giving a token does to the token queues. -/
theorem giveToken_tokq (c : Core) (e : Engine) (u : BitVec 3) (v : Nat) (hv : v ≤ 5) :
    ((c.giveToken e u).tokq e.id v).present = (c.tokq e.id v).present + (if u.toNat = v then 1 else 0) ∧
    ((c.giveToken e u).tokq e.id v).reserved = (c.tokq e.id v).reserved - if u.toNat = v then 1 else 0 := by
  unfold Core.giveToken
  split
  · rw [if_neg (by omega)]; simp
  · rename_i h
    rw [tokq_setTokq _ _ _ _ _ _ (id_le e) (bv3_le h) (id_le e) hv]
    by_cases hu : u.toNat = v <;> simp [hu]

@[simp] theorem giveToken_sq (c : Core) (e : Engine) (u : BitVec 3) : (c.giveToken e u).sq = c.sq ∧ (c.giveToken e u).regs = c.regs := by
  unfold Core.giveToken; split <;> exact ⟨rfl, rfl⟩

theorem leaveLine_tok (s : State) : s.abandon.core.tok = s.core.tok ∧ s.abandon.core.regs = s.core.regs := by
  unfold State.abandon
  simp only []
  unfold State.leaveLine
  split
  · exact ⟨rfl, rfl⟩
  · simp only [State.setCoreAt]
    split
    · rename_i n e h hn
      simp only [setEngTok, setEng_regs, State.coreAt]
      rw [if_pos hn]
      exact ⟨rfl, rfl⟩
    · exact ⟨rfl, rfl⟩

/-- Hurrying units changes the schedule alone. -/
theorem hurry_sched (l : List UnitId) (core : Nat) (s : State) :
    ∃ sch, l.foldr (fun u s => s.hurry core u) s = { s with schedule := sch } ∧ (∀ x ∈ s.schedule, x ∈ sch) ∧ ∀ u ∈ l, Turn.unit core u 0 ∈ sch := by
  induction l with
  | nil => exact ⟨_, rfl, fun _ h => h, by simp⟩
  | cons u t ih =>
    obtain ⟨sch, h1, h2, h3⟩ := ih
    refine ⟨.unit core u 0 :: sch, by rw [List.foldr_cons, h1]; rfl, fun x hx => List.mem_cons_of_mem _ (h2 x hx), ?_⟩
    intro v hv
    rcases List.mem_cons.mp hv with rfl | hv
    · exact List.mem_cons_self ..
    · exact List.mem_cons_of_mem _ (h3 v hv)

/-- A wake of a line changes the schedule of the units it wakes alone. -/
theorem wake_sched (line : Nat) (l : List (Nat × Core)) (s : State) :
    ∃ sch, l.foldr (fun c s => (c.2.wokenUnits line).foldr (fun u s => s.hurry c.1 u) s) s = { s with schedule := sch } ∧
      (∀ x ∈ s.schedule, x ∈ sch) ∧ ∀ c ∈ l, ∀ u ∈ c.2.wokenUnits line, Turn.unit c.1 u 0 ∈ sch := by
  induction l with
  | nil => exact ⟨_, rfl, fun _ h => h, by simp⟩
  | cons c t ih =>
    obtain ⟨sch1, g1, g2, g3⟩ := ih
    obtain ⟨sch, h1, h2, h3⟩ := hurry_sched (c.2.wokenUnits line) c.1 { s with schedule := sch1 }
    refine ⟨sch, by rw [List.foldr_cons, g1, h1], fun x hx => h2 x (g2 x hx), ?_⟩
    intro d hd
    rcases List.mem_cons.mp hd with rfl | hd
    · exact h3
    · exact fun u hu => h2 _ (g3 d hd u hu)

theorem eng_wake (c : Core) (l : List Nat) (e : Engine) : (c.wake l).eng e = (c.eng e).wake l := by cases e <;> rfl

/-- A write to a line wakes every unit of the core that is parked on it (R355). -/
theorem wake_woken (c : Core) (line : Nat) :
    ((c.wake [line]).sq.parked = some line → (c.wake [line]).sq.woken = true) ∧
      ∀ e, ((c.wake [line]).eng e).parked = some line → ((c.wake [line]).eng e).woken = true := by
  refine ⟨fun h => ?_, fun e h => ?_⟩
  · have h : c.sq.parked = some line := h
    show (c.sq.woken || c.sq.parked.any [line].contains) = true
    rw [h]; simp
  · rw [eng_wake] at h ⊢
    unfold Eng.wake at h ⊢
    split at h
    · rename_i hc; rw [if_pos hc]
    · rename_i hc; rw [h] at hc; simp at hc

theorem setSeg7 (e : Nat) : setSeg e 7 1 1 = e / 256 * 256 + 128 + e % 128 := by
  unfold setSeg seg; simp; omega
theorem setSeg62 (e : Nat) (h : e < 2 ^ 64) : setSeg e 62 2 2 = 2 ^ 63 + e % 2 ^ 62 := by
  unfold setSeg seg; simp; omega
theorem frameOf7 (e : Nat) : frameOf (setSeg e 7 1 1) = frameOf e := by
  rw [setSeg7]; unfold frameOf seg; omega

/-- Another core's use of a private page starts its reclassification (R318). -/
theorem classify_other (s : State) (c : Nat) (w : Walk) (h3 : seg w.entry 3 1 = 0) (h62 : seg w.entry 62 2 = 1) (ho : seg w.entry 54 8 ≠ c) :
    (s.classify (some c) true w).2 =
      (State.reclassify { s with core.counts.priv := sat32 s.core.counts.priv 1 } w.addr (setSeg w.entry 7 1 1) (leafSize w.level w.entry)).2 := by
  unfold State.classify
  have h1 : ¬ (seg w.entry 3 1 = 1) := by omega
  have h2 : ¬ (seg w.entry 62 2 = 0) := by omega
  have h4 : seg w.entry 62 2 = 1 ∧ some c ≠ some (seg w.entry 54 8) := ⟨h62, fun h => ho (Option.some.inj h).symm⟩
  simp only [if_neg h1, if_neg h2, if_pos h4, if_true]

end Sys2Proof.Laws
end

