-- ==== Sys2Proof/Laws/Line.lean ====
section
/-! SUPPORT. What the directories and the holders of the coherence protocol do. -/

namespace Sys2Proof.Laws

open Sys2Proof Sys2Proof.Machine

set_option linter.all false

theorem find_filter_none {α : Type} (l : List α) (p : α → Bool) : (l.filter fun x => !p x).find? p = none := by
  rw [List.find?_eq_none]; intro x hx; simp at hx; simp [hx.2]

theorem dirEnt_key (c : Coh) (d : DirId) (k : Nat) : (c.dirEnt d k).dir = d ∧ (c.dirEnt d k).sector = k := by
  unfold Coh.dirEnt
  cases h : c.dirs.find? fun e => e.dir = d && e.sector = k
  · exact ⟨rfl, rfl⟩
  · have := List.find?_some h
    simpa using this

/-- An entry of a directory that records nobody and has nothing under way. -/
def entIdle (e : DirEnt) : Bool := e.sharers.isEmpty && e.owner.isNone && e.busy = .stable && e.down.isNone && e.queue.isEmpty && e.fetch.isEmpty

/-- A directory entry set reads back, and no other entry changes. -/
theorem dirEnt_set (c : Coh) (e : DirEnt) (d : DirId) (k : Nat) (hd : e.dir = d) (hk : e.sector = k) :
    (c.setDirEnt e).dirEnt d k = if entIdle e then { dir := d, sector := k } else e := by
  subst hd hk
  unfold Coh.setDirEnt Coh.dirEnt entIdle
  simp only []
  split
  · rw [find_filter_none]; rfl
  · rw [List.find?_cons_of_pos (by simp)]; rfl

/-- A copy set reads back. -/
theorem copyOf_set (c : Coh) (h : Holder) (k : Nat) (v : Option CopySt) (n : BitVec 8) :
    (c.setCopy h k v n).copyOf h k = v.map fun v => { holder := h, sector := k, st := v, num := n } := by
  unfold Coh.setCopy Coh.copyOf
  simp only []
  cases v
  · simp only [Option.map_none]; exact find_filter_none c.copies (fun x => x.holder = h && x.sector = k)
  · exact List.find?_cons_of_pos (by simp)

theorem stOf_set (c : Coh) (h : Holder) (k : Nat) (v : Option CopySt) (n : BitVec 8) : (c.setCopy h k v n).stOf h k = v := by
  unfold Coh.stOf; rw [copyOf_set]; cases v <;> rfl

/-- Setting one copy leaves every other copy alone. -/
theorem copyOf_set_ne (c : Coh) (h h' : Holder) (k : Nat) (v : Option CopySt) (n : BitVec 8) (hn : h' ≠ h) :
    (c.setCopy h k v n).copyOf h' k = c.copyOf h' k := by
  unfold Coh.setCopy Coh.copyOf
  simp only []
  have : (c.copies.filter fun x => !(decide (x.holder = h) && decide (x.sector = k))).find? (fun c => decide (c.holder = h') && decide (c.sector = k))
      = c.copies.find? fun c => decide (c.holder = h') && decide (c.sector = k) := by
    rw [List.find?_filter]
    congr 1; funext x
    by_cases hx : x.holder = h'
    · have : x.holder ≠ h := by rw [hx]; exact hn
      simp [hx, hn]
    · simp [hx]
  cases v
  · exact this
  · refine (List.find?_cons_of_neg ?_).trans this
    simp [hn.symm]

theorem level_ne_parent (h : Holder) : levelOf (parentDir h) ≠ some h := by
  cases h <;> simp [parentDir, levelOf, holderQuad]
theorem stOf_set_ne (c : Coh) (h h' : Holder) (k : Nat) (v : Option CopySt) (n : BitVec 8) (hn : h' ≠ h) :
    (c.setCopy h k v n).stOf h' k = c.stOf h' k := by unfold Coh.stOf; rw [copyOf_set_ne _ _ _ _ _ _ hn]

/-- A level that grants raises its own copy, and no other holder's. -/
theorem raiseLevel_spec (c : Coh) (d : DirId) (k : Nat) : (c.raiseLevel d k).msgs = c.msgs ∧ (c.raiseLevel d k).dirs = c.dirs ∧
    (∀ h, levelOf d ≠ some h → (c.raiseLevel d k).copyOf h k = c.copyOf h k) ∧
    (c.permission d k = some .m → (c.raiseLevel d k).permission d k = some .m) := by
  unfold Coh.raiseLevel
  split
  · rename_i h' hl
    split
    · rename_i x hx
      split
      · rename_i hs
        refine ⟨rfl, rfl, fun h hh => copyOf_set_ne _ _ _ _ _ _ (by rintro rfl; exact hh hl), fun hp => ?_⟩
        unfold Coh.permission
        rw [hl]; exact stOf_set ..
      · exact ⟨rfl, rfl, fun _ _ => rfl, fun h => h⟩
    · exact ⟨rfl, rfl, fun _ _ => rfl, fun h => h⟩
  · exact ⟨rfl, rfl, fun _ _ => rfl, fun h => h⟩

theorem dirEnt_congr {a b : Coh} (h : a.dirs = b.dirs) (d : DirId) (k : Nat) : a.dirEnt d k = b.dirEnt d k := by
  unfold Coh.dirEnt; rw [h]
theorem copyOf_congr {a b : Coh} (h : a.copies = b.copies) (x : Holder) (k : Nat) : a.copyOf x k = b.copyOf x k := by
  unfold Coh.copyOf; rw [h]
theorem stOf_congr {a b : Coh} (h : a.copies = b.copies) (x : Holder) (k : Nat) : a.stOf x k = b.stOf x k := by
  unfold Coh.stOf; rw [copyOf_congr h]

/-- Invalidations are queued to their holders in order, and change nothing else. -/
theorem sendInvs_spec (c : Coh) (e : DirEnt) (ts : List (Holder × Option (BitVec 8))) (ctx : BitVec 6) (w : Bool) :
    (c.sendInvs e ts ctx w).msgs = c.msgs ++ ts.map (fun x => .inv x.1 e.sector x.2 ctx w e.coarse) ∧
      (c.sendInvs e ts ctx w).dirs = c.dirs ∧ (c.sendInvs e ts ctx w).copies = c.copies := by
  unfold Coh.sendInvs
  induction ts generalizing c with
  | nil => simp
  | cons x t ih =>
    simp only [List.foldl_cons, List.map_cons]
    obtain ⟨a, b, d⟩ := ih (c.send (.inv x.1 e.sector x.2 ctx w e.coarse))
    exact ⟨by rw [a]; simp [Coh.send], b, d⟩

/-! queues -/

/-- No request waits in any directory for the sector. -/
def QuietAt (c : Coh) (k : Nat) : Prop := ∀ x ∈ c.dirs, x.sector = k → x.queue = []

theorem quiet_dirEnt {c : Coh} {k : Nat} (h : QuietAt c k) (d : DirId) : (c.dirEnt d k).queue = [] := by
  unfold Coh.dirEnt
  cases hf : c.dirs.find? fun e => e.dir = d && e.sector = k with
  | none => rfl
  | some e =>
    have hm := List.mem_of_find?_eq_some hf
    have := List.find?_some hf
    simp only [Bool.and_eq_true, decide_eq_true_eq] at this
    exact h e hm this.2

theorem quiet_congr {a b : Coh} {k : Nat} (h : a.dirs = b.dirs) (q : QuietAt b k) : QuietAt a k := by unfold QuietAt; rw [h]; exact q

theorem quiet_set {c : Coh} {k : Nat} (h : QuietAt c k) (e : DirEnt) (he : e.queue = []) : QuietAt (c.setDirEnt e) k := by
  intro x hx hk
  unfold Coh.setDirEnt at hx
  simp only [] at hx
  split at hx
  · exact h x (List.mem_filter.1 hx).1 hk
  · rcases List.mem_cons.1 hx with rfl | hx
    · exact he
    · exact h x (List.mem_filter.1 hx).1 hk

/-- A directory that is not ready, or has no request waiting, serves none. -/
theorem serveQueue_id (d : DirId) (k : Nat) (code : Bool) (n : Nat) (c : Coh) (h : c.ready d k = false ∨ (c.dirEnt d k).queue = []) :
    Coh.serveQueue d k code n c = c := by
  cases n with
  | zero => rfl
  | succ n =>
    unfold Coh.serveQueue
    simp only []
    rcases h with h | h
    · split
      · rfl
      · rw [if_neg (by simp [h])]
    · rw [h]

theorem serveQueues_id (c : Coh) (k : Nat) (code : Bool) (h : ∀ e ∈ c.dirs, e.sector = k → e.queue ≠ [] → c.ready e.dir k = false) :
    c.serveQueues k code = c := by
  unfold Coh.serveQueues
  have : ∀ l : List DirEnt, (∀ e ∈ l, c.ready e.dir k = false) →
      l.foldl (fun c e => Coh.serveQueue e.dir k code e.queue.length c) c = c := by
    intro l
    induction l with
    | nil => intro _; rfl
    | cons e l ih =>
      intro hl
      rw [List.foldl_cons, serveQueue_id _ _ _ _ _ (.inl (hl e (by simp)))]
      exact ih fun x hx => hl x (by simp [hx])
  apply this
  intro e he
  simp only [List.mem_filter, Bool.and_eq_true, decide_eq_true_eq, Bool.not_eq_true', List.isEmpty_eq_false_iff] at he
  exact h e he.1 he.2.1 he.2.2

/-- Where no request waits, serving the queues changes nothing. -/
theorem serveQueues_quiet {c : Coh} {k : Nat} (h : QuietAt c k) (code : Bool) : c.serveQueues k code = c :=
  serveQueues_id c k code fun e he hk hq => absurd (h e he hk) hq

/-! delivery -/

/-- A message taken leaves the others in their order. -/
theorem took_mid (c : Coh) (m : CohMsg) (a b : List CohMsg) (h : c.msgs = a ++ m :: b) (hn : m ∉ a) : (c.took m).msgs = a ++ b := by
  unfold Coh.took
  show c.msgs.erase m = _
  rw [h, List.erase_append_right _ hn, List.erase_cons_head]

/-- The first message that an event names is delivered. -/
theorem deliverFirst_mid (s : State) (p : CohMsg → Bool) (m : CohMsg) (a b : List CohMsg) (h : s.store.coh.msgs = a ++ m :: b)
    (ha : ∀ x ∈ a, p x = false) (hp : p m = true) (hd : s.deliverable m = true) : s.deliverFirst p = (s.deliver m).spillAt m.holder := by
  unfold State.deliverFirst
  rw [h, List.find?_append, List.find?_eq_none.2 (fun x hx => by simp [ha x hx]), List.find?_cons_of_pos (by simp [hp, hd])]
  rfl

/-- a message that changes only the coherence of lines, with nothing waiting afterwards -/
theorem deliver_of (s : State) (m : CohMsg) (c' : Coh) (hq : QuietAt c' m.sector)
    (h : State.deliver s m = { s with store.coh := c'.serveQueues m.sector (s.store.isCode (64 * m.sector)) }) :
    s.deliver m = { s with store.coh := c' } := by rw [h, serveQueues_quiet hq]

/-- A holder answers, and nothing else changes. -/
theorem reply_spec (c : Coh) (h : Holder) (k : Nat) (b : Bool) :
    (c.reply h k b).msgs = c.msgs ++ [if b then .reply h k else .invack h k] ∧ (c.reply h k b).dirs = c.dirs ∧
      (c.reply h k b).copies = c.copies := by
  unfold Coh.reply; cases b <;> exact ⟨rfl, rfl, rfl⟩

/-- What an invalidation does at a holder (R310). -/
theorem invCopy_spec (c : Coh) (h : Holder) (k : Nat) (num : Option (BitVec 8)) :
    (c.invCopy h k num).1 = decide (c.stOf h k = some .m ∨ c.stOf h k = some .miA) ∧ (c.invCopy h k num).2.dirs = c.dirs ∧
      (c.invCopy h k num).2.msgs = c.msgs ∧
      (c.invCopy h k num).2.stOf h k = (match c.copyOf h k with
        | none => none
        | some x => match x.st with
          | .s | .e | .m => none
          | .isD => some (if num = none ∨ num = some x.num then .isDI else .isD)
          | .smD => some .imD
          | .miA => some .iiA
          | y => some y) := by
  unfold Coh.invCopy Coh.stOf
  cases hc : c.copyOf h k with
  | none => simp [hc]
  | some x =>
    refine ⟨?_, ?_, ?_, ?_⟩
    · simp
    · simp only []; split <;> rfl
    · simp only []; split <;> rfl
    · have e : ∀ v n, Option.map Copy.st ((c.setCopy h k v n).copyOf h k) = v := fun v n => stOf_set ..
      simp only []
      unfold invalidated
      cases hs : x.st <;> simp only []
      · exact e _ _
      · exact e _ _
      · exact e _ _
      · by_cases hn : num = none ∨ num = some x.num
        · rw [if_pos hn]
          rw [if_pos (by rcases hn with h | h <;> simp [h])]
          exact e _ _
        · rw [if_neg hn]
          rw [if_neg (by simpa [not_or] using hn)]
          exact (e _ _).trans (by rw [hs])
      · exact (e _ _).trans (by rw [hs])
      · exact (e _ _).trans (by rw [hs])
      · exact e _ _
      · exact e _ _
      · exact (e _ _).trans (by rw [hs])

theorem keepFetch_room (s : State) (h : Holder) (k : Nat) (t : Tlb) (hf : s.store.coh.fullSet (holderDie h) (k / 4) = []) :
    s.keepFetch h k t = { s with store := { s.store.fetchRoom h k with
      fetch := { holder := h, sector := k, data := s.store.readHome (64 * k) 64 } :: (s.store.fetchRoom h k).fetch
      coh := s.store.coh.setDirEnt
        { (s.store.coh.dirEnt (.die (holderDie h)) k).addFetch (holderQuad h) with ctx := t.ctx, window := t.xsh } } } := by
  have h0 : s.filterRoom (holderDie h) (k / 4) = s := by unfold State.filterRoom; rw [hf]
  unfold State.keepFetch
  simp only []
  rw [h0]

/-- A level without the permission asks above it. -/
theorem goUp_spec (c : Coh) (e : DirEnt) (r : Req) (l : Holder) (hl : levelOf e.dir = some l) (hq : e.queue = []) (hquiet : QuietAt c e.sector) :
    let u := c.goUp e r
    QuietAt u e.sector ∧ (u.dirEnt e.dir e.sector).busy = .up r ∧
      u.msgs = c.msgs ++ [.req { r with child := l, dir := parentDir l, num := c.nextNum l } e.sector] ∧ u.nextNum l = c.nextNum l + 1 ∧
      u.copyOf l e.sector = some { holder := l, sector := e.sector, num := c.nextNum l
                                   st := if r.m = false then .isD else if c.stOf l e.sector = some .s then .smD else .imD } := by
  intro u
  have hu : u = (((c.setDirEnt { e with busy := .up r }).bump l).setCopy l e.sector
      (some (if !r.m then .isD else if c.stOf l e.sector = some .s then .smD else .imD)) (c.nextNum l)).send
      (.req { r with child := l, dir := parentDir l, num := c.nextNum l } e.sector) := by
    show c.goUp e r = _
    unfold Coh.goUp; rw [hl]
  rw [hu]
  refine ⟨quiet_congr rfl (quiet_set hquiet { e with busy := .up r } hq), ?_, rfl, ?_, ?_⟩
  · show ((c.setDirEnt { e with busy := .up r }).dirEnt e.dir e.sector).busy = _
    rw [dirEnt_set _ _ _ _ rfl rfl, if_neg (by simp [entIdle])]
  · show Coh.nextNum ((c.setDirEnt { e with busy := .up r }).bump l) l = _
    unfold Coh.bump Coh.nextNum; simp [Coh.setDirEnt]
  · rw [show ∀ (c : Coh) m h k, (c.send m).copyOf h k = c.copyOf h k from fun _ _ _ _ => rfl, copyOf_set]; cases r.m <;> simp

/-- A grant of M invalidates the other holders and records the new one. -/
theorem grantM_spec (c : Coh) (e : DirEnt) (r : Req) (hs : r.self = false) :
    let u := c.grantM e r
    (u.dirEnt e.dir e.sector).owner = some r.child ∧ (u.dirEnt e.dir e.sector).ownerNum = some r.num ∧
      (u.dirEnt e.dir e.sector).busy = .stable ∧ (u.dirEnt e.dir e.sector).queue = e.queue ∧ (u.dirEnt e.dir e.sector).down = e.down ∧
      u.msgs = c.msgs ++ [.grant r.child e.sector .m] ∧
      u.dirs = (c.setDirEnt (({ e with busy := .stable } : DirEnt).own r.child r.num)).dirs ∧
      (c.permission e.dir e.sector = some .m → u.permission e.dir e.sector = some .m) ∧
      (∀ h, levelOf e.dir ≠ some h → u.copyOf h e.sector = c.copyOf h e.sector) := by
  intro u
  let e1 : DirEnt := ({ e with busy := .stable } : DirEnt).own r.child r.num
  have hu : u = ((c.setDirEnt e1).send (.grant r.child e.sector .m)).raiseLevel e.dir e.sector := by
    show c.grantM e r = _
    unfold Coh.grantM Coh.grant
    simp only [hs]; rfl
  obtain ⟨r1, r2, r3, r4⟩ := raiseLevel_spec ((c.setDirEnt e1).send (.grant r.child e.sector .m)) e.dir e.sector
  have hd : u.dirEnt e.dir e.sector = e1 := by
    rw [hu, dirEnt_congr r2]
    show (c.setDirEnt e1).dirEnt e.dir e.sector = e1
    rw [dirEnt_set _ e1 e.dir e.sector rfl rfl, if_neg (by simp [entIdle, e1, DirEnt.own])]
  rw [hd]
  refine ⟨rfl, rfl, rfl, rfl, rfl, by rw [hu, r1]; rfl, by rw [hu, r2]; rfl, fun h => by rw [hu]; exact r4 h, fun h hh => by rw [hu]; exact r3 h hh⟩

theorem grantM_quiet {c : Coh} {e : DirEnt} {r : Req} (hs : r.self = false) {k : Nat} (h : QuietAt c k) (hq : e.queue = []) : QuietAt (c.grantM e r) k :=
  quiet_congr (grantM_spec c e r hs).2.2.2.2.2.2.1 (quiet_set h _ hq)

/-- A new sharer is recorded; the fifth of a die makes the record coarse (R306, R312). -/
theorem addSharer_spec (e : DirEnt) (h : Holder) (n : BitVec 8) : (e.addSharer h n).dir = e.dir ∧ (e.addSharer h n).sector = e.sector ∧
    (e.addSharer h n).queue = e.queue ∧ (∃ m, (h, m) ∈ (e.addSharer h n).sharers) ∧
    (∀ d, e.dir = .die d → 4 ≤ (e.sharers.filter fun x => x.1 ≠ h).length →
      (e.addSharer h n).coarse = true ∧ ∀ x ∈ (e.addSharer h n).sharers, x.2 = none) := by
  unfold DirEnt.addSharer
  simp only []
  split
  · rename_i d hd
    split
    · refine ⟨rfl, rfl, rfl, ⟨none, by simp⟩, fun _ _ _ => ⟨rfl, fun x hx => ?_⟩⟩
      obtain ⟨y, _, rfl⟩ := List.mem_map.1 hx
      rfl
    · rename_i hc
      refine ⟨rfl, rfl, rfl, ⟨_, List.mem_cons_self ..⟩, fun d' _ h4 => ?_⟩
      exfalso; apply hc
      simp only [Bool.or_eq_true, decide_eq_true_eq, List.length_cons]
      right; omega
  · rename_i hd
    exact ⟨rfl, rfl, rfl, ⟨_, List.mem_cons_self ..⟩, fun d h => absurd h (hd d)⟩

theorem ready_perm {c : Coh} {d : DirId} {k : Nat} (h : c.ready d k = true) :
    c.permission d k = none ∨ c.permission d k = some .s ∨ c.permission d k = some .e ∨ c.permission d k = some .m := by
  unfold Coh.ready at h
  simp only [Bool.and_eq_true, Bool.not_eq_true'] at h
  have := h.2
  cases hp : c.permission d k with
  | none => exact .inl rfl
  | some v =>
    rw [hp] at this
    cases v <;> simp [CopySt.transient] at this ⊢

/-- The only message that an event names is delivered. -/
theorem deliverFirst_only (s : State) (p : CohMsg → Bool) (m : CohMsg) (hm : m ∈ s.store.coh.msgs) (hp : p m = true)
    (hall : ∀ x, p x = true → x = m) (hd : s.deliverable m = true) : s.deliverFirst p = (s.deliver m).spillAt m.holder := by
  unfold State.deliverFirst
  cases hf : s.store.coh.msgs.find? fun m => p m && s.deliverable m with
  | none => exact absurd (List.find?_eq_none.1 hf m hm) (by simp [hp, hd])
  | some x =>
    have := List.find?_some hf
    rw [Bool.and_eq_true] at this
    rw [hall x this.1]

/-- the messages that DATA may be of -/
def mine (up : Bool) (h : Holder) (k : Nat) (x : CohMsg) : Bool :=
  match x with
  | .reply d j => up && decide (d = h) && decide (j = k)
  | .grant d j _ => !up && decide (d = h) && decide (j = k)
  | _ => false

theorem execData_up (s : State) (h : Holder) (k : Nat) (p : Bool) : execData h k { up := true, poisoned := p } s = .next
    (if (!s.crosses h k) = true then s.deliverFirst (mine true h k)
      else if (p && s.store.coh.msgs.any fun m => mine true h k m && s.deliverable m) = true then (s.deliverFirst (mine true h k)).markHome k false
      else s.deliverFirst (mine true h k)) := rfl

theorem execData_down (s : State) (h : Holder) (k : Nat) (p : Bool) : execData h k { up := false, poisoned := p } s = .next
    (if (!s.crosses h k) = true then s.deliverFirst (mine false h k)
      else { s.deliverFirst (mine false h k) with store.badAt :=
        let l := (s.deliverFirst (mine false h k)).store.badAt.filter fun x => x ≠ (holderDie h, k)
        if p then (holderDie h, k) :: l else l }) := rfl

theorem execData_ecc (s : State) (h : Holder) (k : Nat) (p : Bool) : execData h k { up := false, poisoned := p, ecc := true } s =
    execData h k { up := false, poisoned := p } (s.markHome k true) := rfl
theorem setCopy_dirs (c : Coh) (h : Holder) (k : Nat) (v : Option CopySt) (n : BitVec 8) : (c.setCopy h k v n).dirs = c.dirs := rfl

theorem finishDown_quiet {c : Coh} {k : Nat} (h : Holder) (e : DirEnt) (dn : Down) (hq : QuietAt c k) (he : e.queue = []) :
    QuietAt (c.finishDown h e dn) k := by
  unfold Coh.finishDown
  simp only []
  have hs : ∀ e' : DirEnt, e'.queue = [] → QuietAt (c.setDirEnt e') k := fun e' h => quiet_set hq e' h
  cases dn.kind
  · exact quiet_congr ((reply_spec _ _ _ _).2.1.trans (invCopy_spec _ h e.sector dn.num).2.1) (hs _ he)
  · exact quiet_congr (reply_spec _ _ _ _).2.1 (hs _ he)
  · exact quiet_congr (reply_spec _ _ _ _).2.1 (hs _ he)

theorem passDown_quiet {c : Coh} {k : Nat} (h : Holder) (e : DirEnt) (dn : Down) (ts : List (Holder × Option (BitVec 8))) (ctx : BitVec 6) (w : Bool)
    (hq : QuietAt c k) (he : e.queue = []) : QuietAt (c.passDown h e dn ts ctx w) k := by
  unfold Coh.passDown
  split
  · exact finishDown_quiet h e dn hq he
  · exact quiet_congr (sendInvs_spec _ e _ ctx w).2.1 (quiet_set hq { e with down := some { dn with left := ts.length } } he)

theorem takeFwd_quiet {c : Coh} {k : Nat} (h : Holder) (m : Bool) (ctx : BitVec 6) (w : Bool) (hq : QuietAt c k) : QuietAt (c.takeFwd h k m ctx w) k := by
  have hr : ∀ (v : Coh) b, v.dirs = c.dirs → QuietAt (v.reply h k b) k := fun v b hv => quiet_congr ((reply_spec v h k b).2.1.trans hv) hq
  unfold Coh.takeFwd
  split
  · exact hr _ _ rfl
  · split
    · exact hr _ _ rfl
    · exact hr _ _ rfl
    all_goals first
      | (split
         · exact hr _ _ rfl
         · rename_i d hd
           simp only []
           have he := quiet_dirEnt hq d
           split
           · exact quiet_congr (b := c.setDirEnt { c.dirEnt d k with down := some { kind := if m then .fwdM else .fwdS, left := 1 } }) rfl (quiet_set hq _ he)
           · exact passDown_quiet h _ _ _ _ _ hq he)
      | exact hq

theorem idle_or (c : Coh) (e : DirEnt) (d : DirId) (k : Nat) (hd : e.dir = d) (hk : e.sector = k) (he : e.owner = none) (hs : e.sharers = [])
    (hb : e.down = none) : ((c.setDirEnt e).dirEnt d k).owner = none ∧ ((c.setDirEnt e).dirEnt d k).sharers = [] ∧ ((c.setDirEnt e).dirEnt d k).down = none := by
  rw [dirEnt_set _ e d k hd hk]
  split
  · exact ⟨rfl, rfl, rfl⟩
  · exact ⟨he, hs, hb⟩

theorem own_level {h : Holder} {d : DirId} (h : ownDir h = some d) : levelOf d = some ‹Holder› := by
  rename_i x
  cases x <;> simp [ownDir] at h <;> subst h <;> rfl

theorem writeBack_spec (s : State) (y : DataCopy) (hh : isHost (64 * y.sector) = false) (hd : inDevice (64 * y.sector) = false) :
    (s.writeBack y).store.mem = writeBytes s.store.mem (64 * y.sector) y.data ∧ (s.writeBack y).store.nc = s.store.nc := by
  have h1 : (s.storePhys (64 * y.sector) y.data).store.mem = writeBytes s.store.mem (64 * y.sector) y.data := storePhys_mem _ _ _ hh hd
  have h2 : (s.storePhys (64 * y.sector) y.data).store.nc = s.store.nc := by
    unfold State.storePhys State.wakeLines
    simp only []
    rw [hd, hh]
    simp only [Bool.false_eq_true, if_false]
    split <;> rfl
  unfold State.writeBack
  simp only []
  split
  · exact ⟨h1, h2⟩
  · exact ⟨h1, h2⟩

theorem spill_room (s : State) (h : Holder) (hn : s.store.coh.copies.length + s.store.nc.length + s.store.fetch.length ≤ capacity h) : s.spill h = s := by
  unfold State.spill
  rw [if_pos hn]

end Sys2Proof.Laws
end

