-- ==== Sys2Proof/Laws/Context.lean ====
section
/-! SUPPORT. What the operations over cores, contexts, snapshots and groups do. -/

namespace Sys2Proof.Laws

open Sys2Proof Sys2Proof.Machine

set_option linter.all false

/-- Moving the focus changes no core. -/
theorem coreAt_focus (s : State) (n k : Nat) : (s.focus n).coreAt k = s.coreAt k := by
  unfold State.focus
  by_cases hn : n = s.cur
  · rw [if_pos hn]
  · rw [if_neg hn]
    unfold State.coreAt
    simp only []
    by_cases hk : k = n
    · subst hk; rw [if_pos rfl, if_neg hn]
    · rw [if_neg hk]
      rw [smGet_smSet, smGet_smErase]
      by_cases hc : k = s.cur
      · rw [if_pos hc, if_pos hc]
      · rw [if_neg hc, if_neg hc, if_neg hk]

/-- The core in focus is the core of that number. -/
theorem focus_core (s : State) (n : Nat) : (s.focus n).core = s.coreAt n := by
  unfold State.focus State.coreAt
  split <;> rfl

theorem focus_cur (s : State) (n : Nat) : (s.focus n).cur = n := by
  unfold State.focus
  split
  · rename_i h; exact h.symm
  · rfl

theorem focus_keeps (s : State) (n : Nat) : (s.focus n).store = s.store ∧ (s.focus n).ctxs = s.ctxs ∧ (s.focus n).launches = s.launches ∧
    (s.focus n).mgmt = s.mgmt ∧ (s.focus n).fns = s.fns ∧ (s.focus n).quads = s.quads := by
  unfold State.focus
  split <;> exact ⟨rfl, rfl, rfl, rfl, rfl, rfl⟩

/-- A core set reads back, and no other core changes. -/
theorem coreAt_setCoreAt (s : State) (n k : Nat) (c : Core) : (s.setCoreAt n c).coreAt k = if k = n then c else s.coreAt k := by
  unfold State.setCoreAt State.coreAt
  by_cases hn : n = s.cur
  · rw [if_pos hn]
    simp only []
    by_cases hk : k = n
    · rw [if_pos (hk.trans hn), if_pos hk]
    · rw [if_neg (fun h => hk (h.trans hn.symm)), if_neg hk, if_neg (fun h => hk (h.trans hn.symm))]
  · rw [if_neg hn]
    simp only [smGet_smSet]
    by_cases hk : k = n
    · subst hk; rw [if_neg hn, if_pos rfl, if_pos rfl]
    · simp [hk]

theorem setCoreAt_keeps (s : State) (n : Nat) (c : Core) : (s.setCoreAt n c).store = s.store ∧ (s.setCoreAt n c).ctxs = s.ctxs ∧
    (s.setCoreAt n c).launches = s.launches ∧ (s.setCoreAt n c).mgmt = s.mgmt ∧ (s.setCoreAt n c).fns = s.fns ∧ (s.setCoreAt n c).quads = s.quads ∧
    (s.setCoreAt n c).cur = s.cur := by
  unfold State.setCoreAt
  split <;> exact ⟨rfl, rfl, rfl, rfl, rfl, rfl, rfl⟩

/-- A context set reads back, and no other context changes. -/
theorem ctxAt_setCtx (s : State) (n k : Nat) (c : Ctx) : (s.setCtx n c).ctxAt k = if k = n then c else s.ctxAt k := by
  unfold State.setCtx State.ctxAt
  exact smGet_smSet ..

theorem endLease_keeps (s : State) (n : Nat) : (s.endLease n).core = s.core ∧ (s.endLease n).cur = s.cur ∧ (s.endLease n).others = s.others ∧ (s.endLease n).store = s.store ∧
    (s.endLease n).ctxs = s.ctxs ∧ (s.endLease n).launches = s.launches ∧ (s.endLease n).mgmt = s.mgmt ∧ (s.endLease n).fns = s.fns := by
  unfold State.endLease
  by_cases hh : n < 256 ∧ (s.quadAt (n / 4)).lease.holder = n % 4
  · simp only []; rw [if_pos hh]; exact ⟨rfl, rfl, rfl, rfl, rfl, rfl, rfl, rfl⟩
  · simp only []; rw [if_neg hh]; exact ⟨rfl, rfl, rfl, rfl, rfl, rfl, rfl, rfl⟩

/-- what a core keeps when the SQ leaves a line -/
def CoreKept (a b : Core) : Prop := a.sq.x = b.sq.x ∧ a.sq.pc = b.sq.pc ∧ a.sq.trap = b.sq.trap ∧ a.regs = b.regs ∧ a.tok = b.tok ∧ a.outq = b.outq ∧
  (∀ e, (a.eng e).q = (b.eng e).q ∧ (a.eng e).pos = (b.eng e).pos) ∧ a.freezing = b.freezing ∧ a.ae.part = b.ae.part ∧ a.held = b.held

theorem CoreKept.refl (a : Core) : CoreKept a a := ⟨rfl, rfl, rfl, rfl, rfl, rfl, fun _ => ⟨rfl, rfl⟩, rfl, rfl, rfl⟩

theorem coreKept_setEng (c : Core) (e : Engine) (w : List Nat) : CoreKept (c.setEng e { c.eng e with waiters := w }) c := by
  refine ⟨by rw [setEng_sq], by rw [setEng_sq], by rw [setEng_sq], by rw [setEng_regs], by rw [setEngTok], setEng_tok' .., ?_, by cases e <;> rfl, by cases e <;> rfl, by cases e <;> rfl⟩
  intro f; rw [setEng_eng]; split <;> simp_all

theorem leaveLine_keeps (s : State) : CoreKept s.leaveLine.core s.core ∧ (s.leaveLine).store = s.store ∧ s.leaveLine.ctxs = s.ctxs ∧ s.leaveLine.launches = s.launches ∧
    s.leaveLine.mgmt = s.mgmt ∧ s.leaveLine.cur = s.cur ∧ (∀ k, CoreKept (s.leaveLine.coreAt k) (s.coreAt k)) ∧ s.leaveLine.fns = s.fns := by
  unfold State.leaveLine
  split
  · exact ⟨CoreKept.refl _, rfl, rfl, rfl, rfl, rfl, fun _ => CoreKept.refl _, rfl⟩
  · rename_i n e h
    simp only []
    have hk := setCoreAt_keeps s n ((s.coreAt n).setEng e { (s.coreAt n).eng e with waiters := ((s.coreAt n).eng e).waiters.filter fun k => k ≠ s.cur })
    have hall : ∀ k, CoreKept ((s.setCoreAt n ((s.coreAt n).setEng e { (s.coreAt n).eng e with waiters := ((s.coreAt n).eng e).waiters.filter fun k => k ≠ s.cur })).coreAt k) (s.coreAt k) := by
      intro k
      rw [coreAt_setCoreAt]
      split
      · rename_i hkn; subst hkn; exact coreKept_setEng ..
      · exact CoreKept.refl _
    have h2 : ∀ (u : State) k, CoreKept (State.coreAt { u with core.sq.lineUp := none } k) (u.coreAt k) := by
      intro u k
      unfold State.coreAt
      simp only []
      split
      · exact ⟨rfl, rfl, rfl, rfl, rfl, rfl, fun e => by cases e <;> exact ⟨rfl, rfl⟩, rfl, rfl, rfl⟩
      · exact CoreKept.refl _
    have tr : ∀ a b c : Core, CoreKept a b → CoreKept b c → CoreKept a c := by
      rintro a b c ⟨tlbOwn_of_find, translate_of_own, a3, a4, a5, a6, a7, a8, a9, a10⟩ ⟨b1, b2, b3, b4, b5, b6, b7, b8, b9, b10⟩
      exact ⟨tlbOwn_of_find.trans b1, translate_of_own.trans b2, a3.trans b3, a4.trans b4, a5.trans b5, a6.trans b6, fun e => ⟨(a7 e).1.trans (b7 e).1, (a7 e).2.trans (b7 e).2⟩, a8.trans b8, a9.trans b9, a10.trans b10⟩
    have h3 : ∀ k, CoreKept (State.coreAt { (s.setCoreAt n ((s.coreAt n).setEng e { (s.coreAt n).eng e with waiters := ((s.coreAt n).eng e).waiters.filter fun k => k ≠ s.cur })) with core.sq.lineUp := none } k) (s.coreAt k) :=
      fun k => tr _ _ _ (h2 _ k) (hall k)
    refine ⟨?_, hk.1, hk.2.1, hk.2.2.1, hk.2.2.2.1, hk.2.2.2.2.2.2, h3, hk.2.2.2.2.1⟩
    have := h3 s.cur
    have e : ∀ u : State, u.cur = s.cur → u.coreAt s.cur = u.core := fun u h => by unfold State.coreAt; rw [if_pos h.symm]
    rw [e s rfl] at this
    refine Eq.mp (congrArg (fun c => CoreKept c s.core) (e _ ?_)) this
    exact hk.2.2.2.2.2.2

theorem CoreKept.trans {a b c : Core} : CoreKept a b → CoreKept b c → CoreKept a c := by
  rintro ⟨tlbOwn_of_find, translate_of_own, a3, a4, a5, a6, a7, a8, a9, a10⟩ ⟨b1, b2, b3, b4, b5, b6, b7, b8, b9, b10⟩
  exact ⟨tlbOwn_of_find.trans b1, translate_of_own.trans b2, a3.trans b3, a4.trans b4, a5.trans b5, a6.trans b6, fun e => ⟨(a7 e).1.trans (b7 e).1, (a7 e).2.trans (b7 e).2⟩, a8.trans b8, a9.trans b9, a10.trans b10⟩

/-- A group given back touches the registers and the AE alone. -/
theorem giveBack_spec (c : Core) : c.giveBack.sq = c.sq ∧ c.giveBack.tok = c.tok ∧ c.giveBack.outq = c.outq ∧
    (∀ e, (c.giveBack.eng e).q = (c.eng e).q ∧ (c.giveBack.eng e).pos = (c.eng e).pos) := by
  unfold Core.giveBack
  split
  · split
    · exact ⟨rfl, rfl, rfl, fun e => by cases e <;> exact ⟨rfl, rfl⟩⟩
    · exact ⟨rfl, rfl, rfl, fun _ => ⟨rfl, rfl⟩⟩
  · exact ⟨rfl, rfl, rfl, fun _ => ⟨rfl, rfl⟩⟩

theorem giveBack_regs {a b : Core} (h : a.regs = b.regs) (hp : a.ae.part = b.ae.part) : a.giveBack.regs = b.giveBack.regs := by
  unfold Core.giveBack
  rw [hp]
  split
  · split
    · show a.regs.unreserve _ = b.regs.unreserve _; rw [h]
    · exact h
  · exact h

/-- A freeze keeps what a core computes with, and gives back the group that a load has reserved. -/
theorem freeze_spec (c : Core) : c.freeze.freezing = true ∧ c.freeze.sq.x = c.sq.x ∧ c.freeze.sq.pc = c.sq.pc ∧ c.freeze.sq.trap = c.sq.trap ∧
    c.freeze.regs = c.giveBack.regs ∧ c.freeze.tok = c.tok ∧ c.freeze.outq = c.outq ∧
    (∀ e, (c.freeze.eng e).q = (c.eng e).q ∧ (c.freeze.eng e).pos = (c.eng e).pos) := by
  obtain ⟨h1, h2, h3, h4⟩ := giveBack_spec c
  unfold Core.freeze
  simp only []
  refine ⟨trivial, (show c.giveBack.sq.x = _ by rw [h1]), (show c.giveBack.sq.pc = _ by rw [h1]), (show c.giveBack.sq.trap = _ by rw [h1]), trivial, h2, h3, fun e => ?_⟩
  rw [← (h4 e).1, ← (h4 e).2]; cases e <;> exact ⟨rfl, rfl⟩

/-- What a core that has been stopped keeps. -/
def Stopped (a b : Core) : Prop := a.freezing = true ∧ a.sq.x = b.sq.x ∧ a.sq.pc = b.sq.pc ∧ a.sq.trap = b.sq.trap ∧ a.regs = b.giveBack.regs ∧ a.tok = b.tok ∧ a.outq = b.outq ∧
  (∀ e, (a.eng e).q = (b.eng e).q ∧ (a.eng e).pos = (b.eng e).pos)

/-- What stopping a core for a snapshot does (R364, R365). -/
theorem stopCore_spec (s : State) (n : Nat) :
    (s.stopCore n).store = s.store ∧ (s.stopCore n).ctxs = s.ctxs ∧ (s.stopCore n).launches = s.launches ∧ (s.stopCore n).mgmt = s.mgmt ∧ (s.stopCore n).cur = s.cur ∧
    ((s.coreAt n).freezing = false → Stopped ((s.stopCore n).coreAt n) (s.coreAt n)) ∧ ((s.stopCore n).coreAt n).freezing = true ∧
    (∀ k, (s.coreAt k).freezing = true → ((s.stopCore n).coreAt k).freezing = true) ∧
    (∀ k, (s.coreAt n).freezing = false → s.ownerOf n = some k → ((s.stopCore n).coreAt n).sq.maxscope = s.policyScope k) := by
  unfold State.stopCore
  by_cases hf : (s.coreAt n).freezing = true
  · rw [if_pos hf]
    exact ⟨rfl, rfl, rfl, rfl, rfl, (fun h => by rw [h] at hf; cases hf), hf, fun _ h => h, fun _ h => by rw [h] at hf; cases hf⟩
  · rw [if_neg hf]
    simp only []
    have he := endLease_keeps s n
    have hel : ∀ k, (s.endLease n).coreAt k = s.coreAt k := by
      intro k; unfold State.coreAt; rw [he.1, he.2.1, he.2.2.1]
    have hfo := focus_keeps (s.endLease n) n
    have hl := leaveLine_keeps ((s.endLease n).focus n)
    generalize hu : ((s.endLease n).focus n).leaveLine = u at *
    have hcur : u.cur = n := hl.2.2.2.2.2.1.trans (focus_cur ..)
    have hk : ∀ k, CoreKept (u.coreAt k) (s.coreAt k) := by
      intro k
      have := hl.2.2.2.2.2.2.1 k
      rw [coreAt_focus, hel] at this; exact this
    have hcore : u.coreAt n = u.core := by unfold State.coreAt; rw [if_pos hcur.symm]
    -- the state after the stop, whatever the cap
    have main : ∀ (c : Core), Stopped c (s.coreAt n) → c.freezing = true → (∀ k, s.ownerOf n = some k → c.sq.maxscope = s.policyScope k) →
        let v := State.focus { u with core := c } s.cur
        v.store = s.store ∧ v.ctxs = s.ctxs ∧ v.launches = s.launches ∧ v.mgmt = s.mgmt ∧ v.cur = s.cur ∧
        ((s.coreAt n).freezing = false → Stopped (v.coreAt n) (s.coreAt n)) ∧ (v.coreAt n).freezing = true ∧
        (∀ k, (s.coreAt k).freezing = true → (v.coreAt k).freezing = true) ∧
        (∀ k, (s.coreAt n).freezing = false → s.ownerOf n = some k → (v.coreAt n).sq.maxscope = s.policyScope k) := by
      intro c hs hc hm v
      have hv := focus_keeps { u with core := c } s.cur
      have hvn : ∀ k, v.coreAt k = if k = n then c else u.coreAt k := by
        intro k
        simp only [v, coreAt_focus]
        unfold State.coreAt
        simp only [hcur]
        split <;> rfl
      refine ⟨hv.1.trans (hl.2.1.trans (hfo.1.trans he.2.2.2.1)), hv.2.1.trans (hl.2.2.1.trans (hfo.2.1.trans he.2.2.2.2.1)),
        hv.2.2.1.trans (hl.2.2.2.1.trans (hfo.2.2.1.trans he.2.2.2.2.2.1)), hv.2.2.2.1.trans (hl.2.2.2.2.1.trans (hfo.2.2.2.1.trans he.2.2.2.2.2.2.1)), focus_cur .., ?_, ?_, ?_, fun k _ hk => by rw [hvn, if_pos rfl]; exact hm k hk⟩
      · intro _; rw [hvn, if_pos rfl]; exact hs
      · rw [hvn, if_pos rfl]; exact hc
      · intro k h
        rw [hvn]
        split
        · exact hc
        · rw [(hk k).2.2.2.2.2.2.2.1]; exact h
    have hpol : ∀ k, u.policyScope k = s.policyScope k := by
      intro k
      have hc : u.ctxs = s.ctxs := hl.2.2.1.trans (hfo.2.1.trans he.2.2.2.2.1)
      have hf : u.fns = s.fns := hl.2.2.2.2.2.2.2.trans (hfo.2.2.2.2.1.trans he.2.2.2.2.2.2.2)
      unfold State.policyScope State.ctxAt State.fnAt; rw [hc, hf]
    have hst : ∀ m, Stopped { u.core.freeze with sq.maxscope := m } (s.coreAt n) := by
      intro m
      have := hk n; rw [hcore] at this
      obtain ⟨tlbOwn_of_find, translate_of_own, a3, a4, a5, a6, a7, a8, a9, a10⟩ := this
      obtain ⟨f1, f2, f3, f4, f5, f6, f7, f8⟩ := freeze_spec u.core
      refine ⟨f1, f2.trans tlbOwn_of_find, f3.trans translate_of_own, f4.trans a3, f5.trans (giveBack_regs a4 a9), f6.trans a5, f7.trans a6, fun e => ?_⟩
      rw [← (a7 e).1, ← (a7 e).2, ← (f8 e).1, ← (f8 e).2]
      cases e <;> exact ⟨rfl, rfl⟩
    split
    · rename_i c ho
      have ho' : s.ownerOf n = some c := by
        have hc : u.ctxs = s.ctxs := hl.2.2.1.trans (hfo.2.1.trans he.2.2.2.2.1)
        unfold State.ownerOf at ho ⊢; rw [← hc]; exact ho
      exact main _ (hst _) rfl (fun k hk => by cases ho'.symm.trans hk; exact hpol c)
    · rename_i ho
      exact main _ (hst u.core.freeze.sq.maxscope) rfl (fun k hk => by
        exfalso
        have hc : u.ctxs = s.ctxs := hl.2.2.1.trans (hfo.2.1.trans he.2.2.2.2.1)
        unfold State.ownerOf at ho hk; rw [show State.ctxs { u with core := u.core.freeze } = s.ctxs from hc] at ho
        rw [hk] at ho; cases ho)

theorem giveBack_held (c : Core) : c.giveBack.held = c.held := by
  unfold Core.giveBack
  split
  · split <;> rfl
  · rfl

theorem stopCore_held (s : State) (n k : Nat) : ((s.stopCore n).coreAt k).held = (s.coreAt k).held := by
  unfold State.stopCore
  split
  · rfl
  · simp only []
    have he := endLease_keeps s n
    have hel : ∀ k, (s.endLease n).coreAt k = s.coreAt k := by
      intro k; unfold State.coreAt; rw [he.1, he.2.1, he.2.2.1]
    have hl := leaveLine_keeps ((s.endLease n).focus n)
    generalize hu : ((s.endLease n).focus n).leaveLine = u at *
    have hcur : u.cur = n := hl.2.2.2.2.2.1.trans (focus_cur ..)
    have hk : ∀ k, (u.coreAt k).held = (s.coreAt k).held := by
      intro k
      have := hl.2.2.2.2.2.2.1 k
      rw [coreAt_focus, hel] at this; exact this.2.2.2.2.2.2.2.2.2
    have main : ∀ c : Core, c.held = u.core.held → ((State.focus { u with core := c } s.cur).coreAt k).held = (s.coreAt k).held := by
      intro c hc
      rw [coreAt_focus, ← hk k]
      unfold State.coreAt
      simp only []
      split
      · exact hc
      · rfl
    have hf : u.core.freeze.held = u.core.held := giveBack_held u.core
    split
    · exact main _ hf
    · exact main _ hf

theorem ownerOf_congr {a b : State} (h : a.ctxs = b.ctxs) (n : Nat) : a.ownerOf n = b.ownerOf n := by unfold State.ownerOf; rw [h]

/-- Every core of the list is stopped, and no other core is touched. -/
theorem stopAll (l : List Nat) (s : State) :
    let u := l.foldl State.stopCore s
    u.store = s.store ∧ u.ctxs = s.ctxs ∧ u.launches = s.launches ∧ u.mgmt = s.mgmt ∧ (∀ k, (u.coreAt k).held = (s.coreAt k).held) ∧
      (∀ k, (s.coreAt k).freezing = true → (u.coreAt k).freezing = true) ∧ ∀ k ∈ l, (u.coreAt k).freezing = true := by
  induction l generalizing s with
  | nil => exact ⟨rfl, rfl, rfl, rfl, fun _ => rfl, fun _ h => h, by simp⟩
  | cons n t ih =>
    obtain ⟨tlbOwn_of_find, translate_of_own, a3, a4, a0, a5, a6⟩ := ih (s.stopCore n)
    obtain ⟨b1, b2, b3, b4, b5, b6, b7, b8, -⟩ := stopCore_spec s n
    refine ⟨tlbOwn_of_find.trans b1, translate_of_own.trans b2, a3.trans b3, a4.trans b4, fun k => (a0 k).trans (stopCore_held s n k), fun k h => a5 k (b8 k h), ?_⟩
    intro k hk
    rcases List.mem_cons.mp hk with rfl | hk
    · exact a5 _ b7
    · exact a6 k hk

theorem holdAll (l : List Nat) (s : State) :
    let u := l.foldl State.holdCore s
    u.store = s.store ∧ u.ctxs = s.ctxs ∧ u.launches = s.launches ∧ u.mgmt = s.mgmt ∧
      (∀ k, (s.coreAt k).freezing = true ∧ (s.coreAt k).held = true → (u.coreAt k).freezing = true ∧ (u.coreAt k).held = true) ∧
      ∀ k ∈ l, (u.coreAt k).freezing = true ∧ (u.coreAt k).held = true := by
  induction l generalizing s with
  | nil => exact ⟨rfl, rfl, rfl, rfl, fun _ h => h, by simp⟩
  | cons n t ih =>
    obtain ⟨tlbOwn_of_find, translate_of_own, a3, a4, a5, a6⟩ := ih (s.holdCore n)
    obtain ⟨b1, b2, b3, b4, b5, b6, b7, b8, -⟩ := stopCore_spec s n
    obtain ⟨c1, c2, c3, c4, -⟩ := setCoreAt_keeps (s.stopCore n) n { (s.stopCore n).coreAt n with held := true }
    have hn : ∀ k, (s.holdCore n).coreAt k = if k = n then { (s.stopCore n).coreAt n with held := true } else (s.stopCore n).coreAt k :=
      fun k => coreAt_setCoreAt ..
    refine ⟨tlbOwn_of_find.trans (c1.trans b1), translate_of_own.trans (c2.trans b2), a3.trans (c3.trans b3), a4.trans (c4.trans b4), fun k h => a5 k ?_, ?_⟩
    · rw [hn]; split
      · exact ⟨b7, rfl⟩
      · exact ⟨b8 k h.1, (stopCore_held s n k).trans h.2⟩
    · intro k hk
      rcases List.mem_cons.mp hk with rfl | hk
      · exact a5 _ (by rw [hn, if_pos rfl]; exact ⟨b7, rfl⟩)
      · exact a6 k hk

/-- A function set reads back, and no other function changes. -/
theorem fnAt_setFn (s : State) (n k : Nat) (f : Fn) : (s.setFn n f).fnAt k = if k = n then f else s.fnAt k := by
  unfold State.setFn State.fnAt
  exact smGet_smSet ..

/-- Bytes of a memory of which some addresses have been cleared. -/
theorem memRead_filter (m : Memory) (f : Nat → Bool) (a : Nat) (h : Memory.wf m = true) :
    memRead (m.filter fun c => f c.1) a = if f a then memRead m a else 0 := by
  induction m with
  | nil => simp [memRead]
  | cons p t ih =>
    rw [Memory.wf_cons] at h
    have iht := ih h.1
    have hkeep : keysAbove (t.filter fun c => f c.1) p.1 := by
      intro q hq; exact h.2.1 q (List.mem_of_mem_filter hq)
    obtain ⟨k, v⟩ := p
    by_cases hf : f k = true
    · rw [List.filter_cons_of_pos (by exact hf)]
      unfold memRead
      by_cases hk : k = a
      · subst hk; simp [hf]
      · rw [if_neg hk, if_neg hk]
        by_cases hl : a < k
        · rw [if_pos hl, if_pos hl]; simp
        · rw [if_neg hl, if_neg hl, iht]
    · rw [List.filter_cons_of_neg (by exact hf), iht]
      rw [show memRead ((k, v) :: t) a = if k = a then v else if a < k then 0 else memRead t a from rfl]
      by_cases hk : k = a
      · subst hk; simp [hf]
      · rw [if_neg hk]
        by_cases hl : a < k
        · rw [if_pos hl, memRead_above t a k h.2.1 (by omega)]
        · rw [if_neg hl]

theorem vget_tabulate {α : Type} {n k : Nat} (f : Nat → α) (i : BitVec k) (h : 2 ^ k = n) : vget (tabulate n f) i h = f i.toNat := by
  unfold vget tabulate
  simp

theorem atBytes_foldl (fs : List (Nat × Nat)) (a : Nat) : fs.foldl (fun a f => a + f.2 * 256 ^ f.1) a = a + fs.foldl (fun a f => a + f.2 * 256 ^ f.1) 0 := by
  induction fs generalizing a with
  | nil => simp
  | cons x t ih => rw [List.foldl_cons, List.foldl_cons, ih, ih (0 + _)]; omega

theorem packed_get (size : Nat) (hs : 0 < size) (vs : List Nat) (hv : ∀ v ∈ vs, v < 256 ^ size) (k : Nat) :
    packed size vs / 256 ^ (size * k) % 256 ^ size = vs.getD k 0 := by
  have gen : ∀ (vs : List Nat) j, (∀ v ∈ vs, v < 256 ^ size) → ((vs.zipIdx j).map fun v => (size * v.2, v.1)).foldl (fun a f => a + f.2 * 256 ^ f.1) 0 =
      256 ^ (size * j) * packed size vs := by
    intro vs
    induction vs with
    | nil => intro j _; simp [packed, atBytes]
    | cons v t ih =>
      intro j h
      have h1 := ih (j + 1) (fun x hx => h x (List.mem_cons_of_mem _ hx))
      have h2 := ih 1 (fun x hx => h x (List.mem_cons_of_mem _ hx))
      rw [List.zipIdx_cons, List.map_cons, List.foldl_cons, atBytes_foldl, h1]
      have : packed size (v :: t) = v + 256 ^ size * packed size t := by
        show ((List.zipIdx (v :: t) 0).map fun v => (size * v.2, v.1)).foldl (fun a f => a + f.2 * 256 ^ f.1) 0 = _
        rw [List.zipIdx_cons, List.map_cons, List.foldl_cons, atBytes_foldl, h2]
        simp
      rw [this, Nat.mul_add, Nat.pow_add]
      ring
  have cons : ∀ v t, (∀ x ∈ v :: t, x < 256 ^ size) → packed size (v :: t) = v + 256 ^ size * packed size t := by
    intro v t h
    show ((List.zipIdx (v :: t) 0).map fun v => (size * v.2, v.1)).foldl (fun a f => a + f.2 * 256 ^ f.1) 0 = _
    rw [List.zipIdx_cons, List.map_cons, List.foldl_cons, atBytes_foldl, gen t 1 (fun x hx => h x (List.mem_cons_of_mem _ hx))]
    simp
  induction vs generalizing k with
  | nil => simp [packed, atBytes]
  | cons v t ih =>
    rw [cons v t hv]
    have hv0 := hv v (List.mem_cons_self ..)
    cases k with
    | zero => simp [Nat.mod_eq_of_lt hv0]
    | succ k =>
      rw [Nat.mul_succ, Nat.add_comm (size * k) size, Nat.pow_add, ← Nat.div_div_eq_div_mul]
      rw [Nat.add_mul_div_left _ _ (Nat.pow_pos (by decide)), Nat.div_eq_of_lt hv0, Nat.zero_add]
      rw [ih (fun x hx => hv x (List.mem_cons_of_mem _ hx))]
      rfl

theorem leBytes_bits (n : Nat) (k : Nat) : leBytes k n = (List.range k).map fun j => bits n (8 * j) 8 := by
  induction k generalizing n with
  | zero => rfl
  | succ k ih =>
    rw [List.range_succ_eq_map, List.map_cons, List.map_map]
    show BitVec.ofNat 8 n :: leBytes k (n / 256) = _
    rw [ih]
    congr 1
    · simp [bits]
    · apply List.map_congr_left
      intro j _
      show bits (n / 256) (8 * j) 8 = bits n (8 * (j + 1)) 8
      unfold bits
      rw [show 8 * (j + 1) = 8 + 8 * j by omega, Nat.pow_add, ← Nat.div_div_eq_div_mul]

theorem coreAt_setGroup (s : State) (g : Grp) (n : Nat) : (s.setGroup g).coreAt n = s.coreAt n := rfl

theorem foldl_id {α β : Type} (f : β → α → β) (l : List α) (b : β) (h : ∀ x ∈ l, f b x = b) : l.foldl f b = b := by
  induction l with
  | nil => rfl
  | cons x t ih => rw [List.foldl_cons, h x (List.mem_cons_self ..)]; exact ih (fun y hy => h y (List.mem_cons_of_mem _ hy))

theorem fillWindows_keeps (s : State) (g : Grp) (cs : List Memory) :
    (s.fillWindows g cs).groups = s.groups ∧ (∀ n, (s.fillWindows g cs).coreAt n = s.coreAt n) := by
  unfold State.fillWindows
  generalize g.bases.zipIdx = l
  induction l generalizing s with
  | nil => exact ⟨rfl, fun _ => rfl⟩
  | cons x t ih => rw [List.foldl_cons]; exact ⟨(ih _).1, fun n => (ih _).2 n⟩

/-- The cores of a list are made in the order of their ranks. -/
theorem setRanks (first : Nat) (mk : Core → Nat → Core) (p : Nat → Core → Prop) (hp : ∀ c r, p r (mk c r)) (l : List Nat) (s : State) :
    let u := l.foldl (fun s r => s.setCoreAt (first + r) (mk (s.coreAt (first + r)) r)) s
    u.groups = s.groups ∧ (∀ r, p r (s.coreAt (first + r)) → p r (u.coreAt (first + r))) ∧ ∀ r ∈ l, p r (u.coreAt (first + r)) := by
  induction l generalizing s with
  | nil => exact ⟨rfl, fun _ h => h, by simp⟩
  | cons n t ih =>
    obtain ⟨tlbOwn_of_find, translate_of_own, a3⟩ := ih (s.setCoreAt (first + n) (mk (s.coreAt (first + n)) n))
    have hg : (s.setCoreAt (first + n) (mk (s.coreAt (first + n)) n)).groups = s.groups := by unfold State.setCoreAt; split <;> rfl
    refine ⟨tlbOwn_of_find.trans hg, fun r h => translate_of_own r ?_, ?_⟩
    · rw [coreAt_setCoreAt]; split
      · rename_i he; have : r = n := by omega
        subst this; exact hp _ _
      · exact h
    · intro r hr
      rcases List.mem_cons.mp hr with rfl | hr
      · exact translate_of_own _ (by rw [coreAt_setCoreAt, if_pos rfl]; exact hp _ _)
      · exact a3 r hr

theorem schedulerStep_quiet (s : State) (hm : s.held = false) (hpark : ∀ h ∈ s.groups, h.st ≠ .parking ∧ h.st ≠ .ended) :
    s.schedulerStep = s.considerGroups [] s.waitingGroups := by
  unfold State.schedulerStep
  rw [if_neg (by simp [hm])]
  have : s.groups.foldl State.endPark s = s := by
    apply foldl_id
    intro x hx
    unfold State.endPark
    rw [if_neg (by simp [(hpark x hx).1])]
  have hd : s.dropEnded = s := by
    unfold State.dropEnded
    rw [List.filter_eq_self.2 (fun x hx => by simp [(hpark x hx).2])]
  simp only [this, hd]

theorem with_nothing (s : State) : ({ s with groups := s.groups ++ [] } : State) = s := by rw [List.append_nil]

theorem victimFor_is (s : State) (g v : Grp) (h : s.victimFor g = some v) :
    v ∈ s.groups ∧ v.ctx = g.ctx ∧ v.st = .running ∧ v.prio < g.prio ∧ ∀ n ∈ v.cores, (s.coreAt n).freezing = false := by
  unfold State.victimFor at h
  simp only [] at h
  have gen : ∀ (l : List Grp) (b : Option Grp) v, l.foldl (fun best h => match best with
      | none => some h
      | some b => if h.prio < b.prio || (h.prio = b.prio && b.placed < h.placed) then some h else some b) b = some v → v ∈ l ∨ b = some v := by
    intro l
    induction l with
    | nil => intro b v h; exact .inr h
    | cons x t ih =>
      intro b v h
      rw [List.foldl_cons] at h
      rcases ih _ v h with h | h
      · exact .inl (List.mem_cons_of_mem _ h)
      · cases b with
        | none => cases h; exact .inl (List.mem_cons_self ..)
        | some b =>
          simp only [] at h
          split at h
          · cases h; exact .inl (List.mem_cons_self ..)
          · exact .inr h
  rcases gen _ _ _ h with h | h
  · have := List.mem_filter.1 h
    simp only [Bool.and_eq_true, decide_eq_true_eq, List.all_eq_true, Bool.not_eq_true'] at this
    exact ⟨this.1, this.2.1.1.1, this.2.1.1.2, this.2.1.2, this.2.2⟩
  · cases h

theorem victims_are (g : Grp) (s : State) (n : Nat) (soon : State) (parks : List Grp) (hs : ∀ v ∈ soon.groups, v ∈ s.groups)
    (hc : ∀ n, soon.coreAt n = s.coreAt n) (vs : List Grp) (f : Nat) (b : SMap Nat) (h : State.victims g n soon parks = some (vs, f, b)) :
    ∀ v ∈ vs, v ∈ s.groups ∧ v.ctx = g.ctx ∧ v.st = .running ∧ v.prio < g.prio ∧ ∀ n ∈ v.cores, (s.coreAt n).freezing = false := by
  induction n generalizing soon parks vs with
  | zero => cases h
  | succ n ih =>
    unfold State.victims at h
    split at h
    · cases h
    · rename_i v hv
      obtain ⟨v1, v2, v3, v4, v5⟩ := victimFor_is _ _ _ hv
      have hv' := And.intro (hs v v1) (And.intro v2 (And.intro v3 (And.intro v4 (fun n hn => (congrArg Core.freezing (hc n)).symm.trans (v5 n hn)))))
      simp only [] at h
      split at h
      · cases h
        intro x hx
        rw [List.mem_singleton] at hx
        subst hx; exact hv'
      · obtain ⟨r, hr, he⟩ := Option.map_eq_some_iff.1 h
        obtain ⟨vs', f', b'⟩ := r
        obtain ⟨rfl, rfl⟩ : f' = f ∧ b' = b := Prod.mk.inj (congrArg Prod.snd he)
        rw [← show v :: vs' = vs from congrArg Prod.fst he]
        intro x hx
        rcases List.mem_cons.1 hx with rfl | hx
        · exact hv'
        · exact ih (soon.withoutGroup v.id) (v :: parks) (fun y hy => hs y (List.mem_filter.1 hy).1) hc vs' hr x hx

theorem stopAll_rest {α : Type} (p : State → α) (hset : ∀ (s : State) n c, p (s.setCoreAt n c) = p s) (hfo : ∀ (s : State) n, p (s.focus n) = p s)
    (hcore : ∀ (s : State) c, p { s with core := c } = p s) (hquad : ∀ (s : State) n q, p (s.setQuad n q) = p s) (l : List Nat) (s : State) :
    p (l.foldl State.stopCore s) = p s := by
  have one : ∀ (s : State) n, p (s.stopCore n) = p s := by
    intro s n
    unfold State.stopCore
    split
    · rfl
    · simp only []
      have hl : ∀ u : State, p u.leaveLine = p u := by
        intro u; unfold State.leaveLine; split
        · rfl
        · exact (hcore _ _).trans (hset u _ _)
      have he : p (s.endLease n) = p s := by
        unfold State.endLease; simp only []; split
        · exact hquad ..
        · rfl
      rw [hfo]
      have hu := (hl ((s.endLease n).focus n)).trans ((hfo _ _).trans he)
      split
      · exact (hcore _ _).trans ((hcore _ _).trans hu)
      · exact (hcore _ _).trans hu
  induction l generalizing s with
  | nil => rfl
  | cons n t ih => rw [List.foldl_cons, ih, one]

theorem setCoreAt_saves (s : State) (n : Nat) (c : Core) : (s.setCoreAt n c).saves = s.saves ∧ (s.setCoreAt n c).out = s.out := by
  unfold State.setCoreAt; split <;> exact ⟨rfl, rfl⟩
theorem focus_saves (s : State) (n : Nat) : (s.focus n).saves = s.saves ∧ (s.focus n).out = s.out := by
  unfold State.focus; split <;> exact ⟨rfl, rfl⟩

end Sys2Proof.Laws
end

