-- ==== Sys2Proof/Laws/PerInstr.lean ====
section
/-! SUPPORT. What holds of every instruction as syntax: its word fits its length, and bit 0 says which length that is (R56). One
lemma per constructor. -/

namespace Sys2Proof.Laws.Words

/-- A 16-bit word has bit 0 = 0, a 32-bit word bit 0 = 1, and each fits its length (R56). -/
def Statement (i : Instr) : Prop :=
  (wordBits i = 16 → encode i % 2 = 0 ∧ encode i < 2 ^ 16) ∧ (wordBits i = 32 → encode i % 2 = 1 ∧ encode i < 2 ^ 32)

theorem short {i : Instr} (h : wordBits i = 16) (he : encode i % 2 = 0 ∧ encode i < 2 ^ 16) : Statement i :=
  ⟨fun _ => he, fun g => absurd (h.symm.trans g) (by decide)⟩

theorem long {i : Instr} (h : wordBits i = 32) (he : encode i % 2 = 1 ∧ encode i < 2 ^ 32) : Statement i :=
  ⟨fun g => absurd (h.symm.trans g) (by decide), fun _ => he⟩

theorem event {i : Instr} (h : wordBits i = 0) : Statement i :=
  ⟨fun g => absurd (h.symm.trans g) (by decide), fun g => absurd (h.symm.trans g) (by decide)⟩

section
set_option Elab.async false

theorem add : ∀ a0 a1 a2 a3, Statement (.add a0 a1 a2 a3) := fun _ _ _ _ => long rfl (by simp only [encode]; omega)
theorem sub : ∀ a0 a1 a2 a3, Statement (.sub a0 a1 a2 a3) := fun _ _ _ _ => long rfl (by simp only [encode]; omega)
theorem and : ∀ a0 a1 a2, Statement (.and a0 a1 a2) := fun _ _ _ => long rfl (by simp only [encode]; omega)
theorem or : ∀ a0 a1 a2, Statement (.or a0 a1 a2) := fun _ _ _ => long rfl (by simp only [encode]; omega)
theorem xor : ∀ a0 a1 a2, Statement (.xor a0 a1 a2) := fun _ _ _ => long rfl (by simp only [encode]; omega)
theorem andn : ∀ a0 a1 a2, Statement (.andn a0 a1 a2) := fun _ _ _ => long rfl (by simp only [encode]; omega)
theorem sll : ∀ a0 a1 a2 a3, Statement (.sll a0 a1 a2 a3) := fun _ _ _ _ => long rfl (by simp only [encode]; omega)
theorem srl : ∀ a0 a1 a2 a3, Statement (.srl a0 a1 a2 a3) := fun _ _ _ _ => long rfl (by simp only [encode]; omega)
theorem sra : ∀ a0 a1 a2 a3, Statement (.sra a0 a1 a2 a3) := fun _ _ _ _ => long rfl (by simp only [encode]; omega)
theorem rol : ∀ a0 a1 a2 a3, Statement (.rol a0 a1 a2 a3) := fun _ _ _ _ => long rfl (by simp only [encode]; omega)
theorem slt : ∀ a0 a1 a2, Statement (.slt a0 a1 a2) := fun _ _ _ => long rfl (by simp only [encode]; omega)
theorem sltn : ∀ a0 a1 a2, Statement (.sltn a0 a1 a2) := fun _ _ _ => long rfl (by simp only [encode]; omega)
theorem min : ∀ a0 a1 a2, Statement (.min a0 a1 a2) := fun _ _ _ => long rfl (by simp only [encode]; omega)
theorem max : ∀ a0 a1 a2, Statement (.max a0 a1 a2) := fun _ _ _ => long rfl (by simp only [encode]; omega)
theorem minn : ∀ a0 a1 a2, Statement (.minn a0 a1 a2) := fun _ _ _ => long rfl (by simp only [encode]; omega)
theorem maxn : ∀ a0 a1 a2, Statement (.maxn a0 a1 a2) := fun _ _ _ => long rfl (by simp only [encode]; omega)
theorem mul : ∀ a0 a1 a2 a3, Statement (.mul a0 a1 a2 a3) := fun _ _ _ _ => long rfl (by simp only [encode]; omega)
theorem mulh : ∀ a0 a1 a2, Statement (.mulh a0 a1 a2) := fun _ _ _ => long rfl (by simp only [encode]; omega)
theorem mulhn : ∀ a0 a1 a2, Statement (.mulhn a0 a1 a2) := fun _ _ _ => long rfl (by simp only [encode]; omega)
theorem div : ∀ a0 a1 a2 a3, Statement (.div a0 a1 a2 a3) := fun _ _ _ _ => long rfl (by simp only [encode]; omega)
theorem divn : ∀ a0 a1 a2 a3, Statement (.divn a0 a1 a2 a3) := fun _ _ _ _ => long rfl (by simp only [encode]; omega)
theorem rem : ∀ a0 a1 a2 a3, Statement (.rem a0 a1 a2 a3) := fun _ _ _ _ => long rfl (by simp only [encode]; omega)
theorem remn : ∀ a0 a1 a2 a3, Statement (.remn a0 a1 a2 a3) := fun _ _ _ _ => long rfl (by simp only [encode]; omega)
theorem clz : ∀ a0 a1 a2, Statement (.clz a0 a1 a2) := fun _ _ _ => long rfl (by simp only [encode]; omega)
theorem ctz : ∀ a0 a1 a2, Statement (.ctz a0 a1 a2) := fun _ _ _ => long rfl (by simp only [encode]; omega)
theorem popc : ∀ a0 a1 a2, Statement (.popc a0 a1 a2) := fun _ _ _ => long rfl (by simp only [encode]; omega)
theorem bswap : ∀ a0 a1 a2, Statement (.bswap a0 a1 a2) := fun _ _ _ => long rfl (by simp only [encode]; omega)
theorem sext : ∀ a0 a1 a2, Statement (.sext a0 a1 a2) := fun _ _ _ => long rfl (by simp only [encode]; omega)
theorem zext : ∀ a0 a1 a2, Statement (.zext a0 a1 a2) := fun _ _ _ => long rfl (by simp only [encode]; omega)
theorem addi : ∀ a0 a1 a2, Statement (.addi a0 a1 a2) := fun _ _ _ => long rfl (by simp only [encode]; omega)
theorem andi : ∀ a0 a1 a2, Statement (.andi a0 a1 a2) := fun _ _ _ => long rfl (by simp only [encode]; omega)
theorem ori : ∀ a0 a1 a2, Statement (.ori a0 a1 a2) := fun _ _ _ => long rfl (by simp only [encode]; omega)
theorem xori : ∀ a0 a1 a2, Statement (.xori a0 a1 a2) := fun _ _ _ => long rfl (by simp only [encode]; omega)
theorem slli : ∀ a0 a1 a2 a3, Statement (.slli a0 a1 a2 a3) := fun _ _ _ _ => long rfl (by simp only [encode]; omega)
theorem srli : ∀ a0 a1 a2 a3, Statement (.srli a0 a1 a2 a3) := fun _ _ _ _ => long rfl (by simp only [encode]; omega)
theorem srai : ∀ a0 a1 a2 a3, Statement (.srai a0 a1 a2 a3) := fun _ _ _ _ => long rfl (by simp only [encode]; omega)
theorem roli : ∀ a0 a1 a2 a3, Statement (.roli a0 a1 a2 a3) := fun _ _ _ _ => long rfl (by simp only [encode]; omega)
theorem slti : ∀ a0 a1 a2, Statement (.slti a0 a1 a2) := fun _ _ _ => long rfl (by simp only [encode]; omega)
theorem sltni : ∀ a0 a1 a2, Statement (.sltni a0 a1 a2) := fun _ _ _ => long rfl (by simp only [encode]; omega)
theorem movw : ∀ a0 a1 a2 a3, Statement (.movw a0 a1 a2 a3) := fun _ _ _ _ => long rfl (by simp only [encode]; omega)
theorem ld : ∀ a0 a1 a2 a3 a4, Statement (.ld a0 a1 a2 a3 a4) := fun _ _ _ _ _ => long rfl (by simp only [encode]; omega)
theorem ldn : ∀ a0 a1 a2 a3 a4, Statement (.ldn a0 a1 a2 a3 a4) := fun _ _ _ _ _ => long rfl (by simp only [encode]; omega)
theorem st : ∀ a0 a1 a2 a3 a4, Statement (.st a0 a1 a2 a3 a4) := fun _ _ _ _ _ => long rfl (by simp only [encode]; omega)
theorem ldx : ∀ a0 a1 a2 a3 a4 a5, Statement (.ldx a0 a1 a2 a3 a4 a5) := fun _ _ _ _ _ _ => long rfl (by simp only [encode]; omega)
theorem ldxn : ∀ a0 a1 a2 a3 a4 a5, Statement (.ldxn a0 a1 a2 a3 a4 a5) := fun _ _ _ _ _ _ => long rfl (by simp only [encode]; omega)
theorem stx : ∀ a0 a1 a2 a3 a4 a5, Statement (.stx a0 a1 a2 a3 a4 a5) := fun _ _ _ _ _ _ => long rfl (by simp only [encode]; omega)
theorem amoadd : ∀ a0 a1 a2 a3 a4 a5 a6, Statement (.amoadd a0 a1 a2 a3 a4 a5 a6) := fun _ _ _ _ _ _ _ => long rfl (by simp only [encode]; omega)
theorem amoand : ∀ a0 a1 a2 a3 a4 a5 a6, Statement (.amoand a0 a1 a2 a3 a4 a5 a6) := fun _ _ _ _ _ _ _ => long rfl (by simp only [encode]; omega)
theorem amoor : ∀ a0 a1 a2 a3 a4 a5 a6, Statement (.amoor a0 a1 a2 a3 a4 a5 a6) := fun _ _ _ _ _ _ _ => long rfl (by simp only [encode]; omega)
theorem amoxor : ∀ a0 a1 a2 a3 a4 a5 a6, Statement (.amoxor a0 a1 a2 a3 a4 a5 a6) := fun _ _ _ _ _ _ _ => long rfl (by simp only [encode]; omega)
theorem amomin : ∀ a0 a1 a2 a3 a4 a5 a6, Statement (.amomin a0 a1 a2 a3 a4 a5 a6) := fun _ _ _ _ _ _ _ => long rfl (by simp only [encode]; omega)
theorem amomax : ∀ a0 a1 a2 a3 a4 a5 a6, Statement (.amomax a0 a1 a2 a3 a4 a5 a6) := fun _ _ _ _ _ _ _ => long rfl (by simp only [encode]; omega)
theorem amominn : ∀ a0 a1 a2 a3 a4 a5 a6, Statement (.amominn a0 a1 a2 a3 a4 a5 a6) := fun _ _ _ _ _ _ _ => long rfl (by simp only [encode]; omega)
theorem amomaxn : ∀ a0 a1 a2 a3 a4 a5 a6, Statement (.amomaxn a0 a1 a2 a3 a4 a5 a6) := fun _ _ _ _ _ _ _ => long rfl (by simp only [encode]; omega)
theorem amoswp : ∀ a0 a1 a2 a3 a4 a5 a6, Statement (.amoswp a0 a1 a2 a3 a4 a5 a6) := fun _ _ _ _ _ _ _ => long rfl (by simp only [encode]; omega)
theorem cas : ∀ a0 a1 a2 a3 a4 a5 a6, Statement (.cas a0 a1 a2 a3 a4 a5 a6) := fun _ _ _ _ _ _ _ => long rfl (by simp only [encode]; omega)
theorem ldo : ∀ a0 a1 a2 a3 a4 a5, Statement (.ldo a0 a1 a2 a3 a4 a5) := fun _ _ _ _ _ _ => long rfl (by simp only [encode]; omega)
theorem sto : ∀ a0 a1 a2 a3 a4 a5, Statement (.sto a0 a1 a2 a3 a4 a5) := fun _ _ _ _ _ _ => long rfl (by simp only [encode]; omega)
theorem fenceC : ∀ a0 a1, Statement (.fenceC a0 a1) := fun _ _ => long rfl (by simp only [encode]; omega)
theorem fenceM : ∀ a0, Statement (.fenceM a0) := fun _ => long rfl (by simp only [encode]; omega)
theorem pubc : ∀ a0 a1 a2, Statement (.pubc a0 a1 a2) := fun _ _ _ => long rfl (by simp only [encode]; omega)
theorem cache : ∀ a0 a1 a2 a3, Statement (.cache a0 a1 a2 a3) := fun _ _ _ _ => long rfl (by simp only [encode]; omega)
theorem beq : ∀ a0 a1 a2, Statement (.beq a0 a1 a2) := fun _ _ _ => long rfl (by simp only [encode]; omega)
theorem bne : ∀ a0 a1 a2, Statement (.bne a0 a1 a2) := fun _ _ _ => long rfl (by simp only [encode]; omega)
theorem blt : ∀ a0 a1 a2, Statement (.blt a0 a1 a2) := fun _ _ _ => long rfl (by simp only [encode]; omega)
theorem bge : ∀ a0 a1 a2, Statement (.bge a0 a1 a2) := fun _ _ _ => long rfl (by simp only [encode]; omega)
theorem bltn : ∀ a0 a1 a2, Statement (.bltn a0 a1 a2) := fun _ _ _ => long rfl (by simp only [encode]; omega)
theorem bgen : ∀ a0 a1 a2, Statement (.bgen a0 a1 a2) := fun _ _ _ => long rfl (by simp only [encode]; omega)
theorem jal : ∀ a0 a1, Statement (.jal a0 a1) := fun _ _ => long rfl (by simp only [encode]; omega)
theorem jalr : ∀ a0 a1 a2, Statement (.jalr a0 a1 a2) := fun _ _ _ => long rfl (by simp only [encode]; omega)
theorem enq : ∀ a0 a1 a2 a3 a4 a5 a6, Statement (.enq a0 a1 a2 a3 a4 a5 a6) := fun _ _ _ _ _ _ _ => long rfl (by simp only [encode]; omega)
theorem renq : ∀ a0 a1 a2, Statement (.renq a0 a1 a2) := fun _ _ _ => long rfl (by simp only [encode]; omega)
theorem renqNb : ∀ a0 a1 a2 a3, Statement (.renqNb a0 a1 a2 a3) := fun _ _ _ _ => long rfl (by simp only [encode]; omega)
theorem twait : ∀ a0, Statement (.twait a0) := fun _ => long rfl (by simp only [encode]; omega)
theorem tsig : ∀ a0, Statement (.tsig a0) := fun _ => long rfl (by simp only [encode]; omega)
theorem tcnt : ∀ a0 a1, Statement (.tcnt a0 a1) := fun _ _ => long rfl (by simp only [encode]; omega)
theorem bpop : ∀ a0 a1, Statement (.bpop a0 a1) := fun _ _ => long rfl (by simp only [encode]; omega)
theorem bpopS : ∀ a0 a1, Statement (.bpopS a0 a1) := fun _ _ => long rfl (by simp only [encode]; omega)
theorem bpush : ∀ a0 a1, Statement (.bpush a0 a1) := fun _ _ => long rfl (by simp only [encode]; omega)
theorem spec : ∀ a0, Statement (.spec a0) := fun _ => long rfl (by simp only [encode]; omega)
theorem commit : Statement .commit := long rfl (by decide)
theorem abort : Statement .abort := long rfl (by decide)
theorem specq : ∀ a0, Statement (.specq a0) := fun _ => long rfl (by simp only [encode]; omega)
theorem bara : ∀ a0 a1, Statement (.bara a0 a1) := fun _ _ => long rfl (by simp only [encode]; omega)
theorem barw : ∀ a0 a1, Statement (.barw a0 a1) := fun _ _ => long rfl (by simp only [encode]; omega)
theorem baraw : ∀ a0 a1, Statement (.baraw a0 a1) := fun _ _ => long rfl (by simp only [encode]; omega)
theorem pqpush : ∀ a0 a1 a2, Statement (.pqpush a0 a1 a2) := fun _ _ _ => long rfl (by simp only [encode]; omega)
theorem pqpop : ∀ a0 a1, Statement (.pqpop a0 a1) := fun _ _ => long rfl (by simp only [encode]; omega)
theorem pqpeek : ∀ a0 a1, Statement (.pqpeek a0 a1) := fun _ _ => long rfl (by simp only [encode]; omega)
theorem rdtime : ∀ a0, Statement (.rdtime a0) := fun _ => long rfl (by simp only [encode]; omega)
theorem sleepu : ∀ a0 a1, Statement (.sleepu a0 a1) := fun _ _ => long rfl (by simp only [encode]; omega)
theorem trap : ∀ a0, Statement (.trap a0) := fun _ => long rfl (by simp only [encode]; omega)
theorem eret : Statement .eret := long rfl (by decide)
theorem wfi : Statement .wfi := long rfl (by decide)
theorem brk : Statement .brk := long rfl (by decide)
theorem rdsys : ∀ a0 a1, Statement (.rdsys a0 a1) := fun _ _ => long rfl (by simp only [encode]; omega)
theorem wrsys : ∀ a0 a1, Statement (.wrsys a0 a1) := fun _ _ => long rfl (by simp only [encode]; omega)
theorem wview : ∀ a0 a1, Statement (.wview a0 a1) := fun _ _ => long rfl (by simp only [encode]; omega)
theorem tdset : ∀ a0 a1, Statement (.tdset a0 a1) := fun _ _ => long rfl (by simp only [encode]; omega)
theorem patch : ∀ a0 a1 a2 a3, Statement (.patch a0 a1 a2 a3) := fun _ _ _ _ => long rfl (by simp only [encode]; omega)
theorem tlbinvVa : ∀ a0, Statement (.tlbinvVa a0) := fun _ => long rfl (by simp only [encode]; omega)
theorem tlbinvCtx : ∀ a0, Statement (.tlbinvCtx a0) := fun _ => long rfl (by simp only [encode]; omega)
theorem tlbinvAll : Statement .tlbinvAll := long rfl (by decide)
theorem eresume : ∀ a0, Statement (.eresume a0) := fun _ => long rfl (by simp only [encode]; omega)
theorem efreeze : ∀ a0, Statement (.efreeze a0) := fun _ => long rfl (by simp only [encode]; omega)
theorem equery : ∀ a0 a1, Statement (.equery a0 a1) := fun _ _ => long rfl (by simp only [encode]; omega)
theorem cAddi : ∀ a0 a1, Statement (.cAddi a0 a1) := fun _ _ => short rfl (by simp only [encode]; omega)
theorem cMov : ∀ a0 a1, Statement (.cMov a0 a1) := fun _ _ => short rfl (by simp only [encode]; omega)
theorem cAdd : ∀ a0 a1, Statement (.cAdd a0 a1) := fun _ _ => short rfl (by simp only [encode]; omega)
theorem cSub : ∀ a0 a1, Statement (.cSub a0 a1) := fun _ _ => short rfl (by simp only [encode]; omega)
theorem cLd : ∀ a0 a1, Statement (.cLd a0 a1) := fun _ _ => short rfl (by simp only [encode]; omega)
theorem cSt : ∀ a0 a1, Statement (.cSt a0 a1) := fun _ _ => short rfl (by simp only [encode]; omega)
theorem cBeqz : ∀ a0 a1, Statement (.cBeqz a0 a1) := fun _ _ => short rfl (by simp only [encode]; omega)
theorem cBnez : ∀ a0 a1, Statement (.cBnez a0 a1) := fun _ _ => short rfl (by simp only [encode]; omega)
theorem cJ : ∀ a0, Statement (.cJ a0) := fun _ => short rfl (by simp only [encode]; omega)
theorem cSlli : ∀ a0 a1, Statement (.cSlli a0 a1) := fun _ _ => short rfl (by simp only [encode]; omega)
theorem cSrli : ∀ a0 a1, Statement (.cSrli a0 a1) := fun _ _ => short rfl (by simp only [encode]; omega)
theorem cAndi : ∀ a0 a1, Statement (.cAndi a0 a1) := fun _ _ => short rfl (by simp only [encode]; omega)
theorem cRet : Statement .cRet := short rfl (by decide)
theorem cTwait : ∀ a0, Statement (.cTwait a0) := fun _ => short rfl (by simp only [encode]; omega)
theorem nop : Statement .nop := short rfl (by decide)
theorem bexit : ∀ a0, Statement (.bexit a0) := fun _ => short rfl (by simp only [encode]; omega)
theorem bskip : ∀ a0 a1, Statement (.bskip a0 a1) := fun _ _ => short rfl (by simp only [encode]; omega)
theorem stop : Statement .stop := short rfl (by decide)
theorem bpushm : ∀ a0 a1 a2, Statement (.bpushm a0 a1 a2) := fun _ _ _ => short rfl (by simp only [encode]; omega)
theorem vmsel : ∀ a0, Statement (.vmsel a0) := fun _ => short rfl (by simp only [encode]; omega)
theorem rot : ∀ a0, Statement (.rot a0) := fun _ => short rfl (by simp only [encode]; omega)
theorem vadd : ∀ a0 a1 a2 a3, Statement (.vadd a0 a1 a2 a3) := fun _ _ _ _ => long rfl (by simp only [encode]; omega)
theorem vsub : ∀ a0 a1 a2 a3, Statement (.vsub a0 a1 a2 a3) := fun _ _ _ _ => long rfl (by simp only [encode]; omega)
theorem vmul : ∀ a0 a1 a2 a3, Statement (.vmul a0 a1 a2 a3) := fun _ _ _ _ => long rfl (by simp only [encode]; omega)
theorem vfma : ∀ a0 a1 a2 a3, Statement (.vfma a0 a1 a2 a3) := fun _ _ _ _ => long rfl (by simp only [encode]; omega)
theorem vfms : ∀ a0 a1 a2 a3, Statement (.vfms a0 a1 a2 a3) := fun _ _ _ _ => long rfl (by simp only [encode]; omega)
theorem vmin : ∀ a0 a1 a2 a3, Statement (.vmin a0 a1 a2 a3) := fun _ _ _ _ => long rfl (by simp only [encode]; omega)
theorem vmax : ∀ a0 a1 a2 a3, Statement (.vmax a0 a1 a2 a3) := fun _ _ _ _ => long rfl (by simp only [encode]; omega)
theorem vand : ∀ a0 a1 a2 a3, Statement (.vand a0 a1 a2 a3) := fun _ _ _ _ => long rfl (by simp only [encode]; omega)
theorem vor : ∀ a0 a1 a2 a3, Statement (.vor a0 a1 a2 a3) := fun _ _ _ _ => long rfl (by simp only [encode]; omega)
theorem vxor : ∀ a0 a1 a2 a3, Statement (.vxor a0 a1 a2 a3) := fun _ _ _ _ => long rfl (by simp only [encode]; omega)
theorem vshl : ∀ a0 a1 a2 a3, Statement (.vshl a0 a1 a2 a3) := fun _ _ _ _ => long rfl (by simp only [encode]; omega)
theorem vshr : ∀ a0 a1 a2 a3, Statement (.vshr a0 a1 a2 a3) := fun _ _ _ _ => long rfl (by simp only [encode]; omega)
theorem vadds : ∀ a0 a1 a2 a3, Statement (.vadds a0 a1 a2 a3) := fun _ _ _ _ => long rfl (by simp only [encode]; omega)
theorem vsubs : ∀ a0 a1 a2 a3, Statement (.vsubs a0 a1 a2 a3) := fun _ _ _ _ => long rfl (by simp only [encode]; omega)
theorem vmulh : ∀ a0 a1 a2 a3, Statement (.vmulh a0 a1 a2 a3) := fun _ _ _ _ => long rfl (by simp only [encode]; omega)
theorem vabsd : ∀ a0 a1 a2 a3, Statement (.vabsd a0 a1 a2 a3) := fun _ _ _ _ => long rfl (by simp only [encode]; omega)
theorem vcmpeq : ∀ a0 a1 a2 a3, Statement (.vcmpeq a0 a1 a2 a3) := fun _ _ _ _ => long rfl (by simp only [encode]; omega)
theorem vcmpne : ∀ a0 a1 a2 a3, Statement (.vcmpne a0 a1 a2 a3) := fun _ _ _ _ => long rfl (by simp only [encode]; omega)
theorem vcmplt : ∀ a0 a1 a2 a3, Statement (.vcmplt a0 a1 a2 a3) := fun _ _ _ _ => long rfl (by simp only [encode]; omega)
theorem vcmple : ∀ a0 a1 a2 a3, Statement (.vcmple a0 a1 a2 a3) := fun _ _ _ _ => long rfl (by simp only [encode]; omega)
theorem vsel : ∀ a0 a1 a2, Statement (.vsel a0 a1 a2) := fun _ _ _ => long rfl (by simp only [encode]; omega)
theorem vperm : ∀ a0 a1 a2 a3, Statement (.vperm a0 a1 a2 a3) := fun _ _ _ _ => long rfl (by simp only [encode]; omega)
theorem vdot4 : ∀ a0 a1 a2 a3, Statement (.vdot4 a0 a1 a2 a3) := fun _ _ _ _ => long rfl (by simp only [encode]; omega)
theorem vlut : ∀ a0 a1 a2 a3, Statement (.vlut a0 a1 a2 a3) := fun _ _ _ _ => long rfl (by simp only [encode]; omega)
theorem vscl : ∀ a0 a1 a2 a3, Statement (.vscl a0 a1 a2 a3) := fun _ _ _ _ => long rfl (by simp only [encode]; omega)
theorem vmand : ∀ a0 a1 a2, Statement (.vmand a0 a1 a2) := fun _ _ _ => long rfl (by simp only [encode]; omega)
theorem vmor : ∀ a0 a1 a2, Statement (.vmor a0 a1 a2) := fun _ _ _ => long rfl (by simp only [encode]; omega)
theorem vmxor : ∀ a0 a1 a2, Statement (.vmxor a0 a1 a2) := fun _ _ _ => long rfl (by simp only [encode]; omega)
theorem vmov : ∀ a0 a1 a2, Statement (.vmov a0 a1 a2) := fun _ _ _ => long rfl (by simp only [encode]; omega)
theorem vneg : ∀ a0 a1 a2, Statement (.vneg a0 a1 a2) := fun _ _ _ => long rfl (by simp only [encode]; omega)
theorem vabs : ∀ a0 a1 a2, Statement (.vabs a0 a1 a2) := fun _ _ _ => long rfl (by simp only [encode]; omega)
theorem vnot : ∀ a0 a1 a2, Statement (.vnot a0 a1 a2) := fun _ _ _ => long rfl (by simp only [encode]; omega)
theorem vcvt : ∀ a0 a1 a2, Statement (.vcvt a0 a1 a2) := fun _ _ _ => long rfl (by simp only [encode]; omega)
theorem vcvtd : ∀ a0 a1, Statement (.vcvtd a0 a1) := fun _ _ => long rfl (by simp only [encode]; omega)
theorem vcvtu : ∀ a0 a1 a2, Statement (.vcvtu a0 a1 a2) := fun _ _ _ => long rfl (by simp only [encode]; omega)
theorem vrnd : ∀ a0 a1 a2, Statement (.vrnd a0 a1 a2) := fun _ _ _ => long rfl (by simp only [encode]; omega)
theorem vexp2 : ∀ a0 a1 a2, Statement (.vexp2 a0 a1 a2) := fun _ _ _ => long rfl (by simp only [encode]; omega)
theorem vlog2 : ∀ a0 a1 a2, Statement (.vlog2 a0 a1 a2) := fun _ _ _ => long rfl (by simp only [encode]; omega)
theorem vexp : ∀ a0 a1 a2, Statement (.vexp a0 a1 a2) := fun _ _ _ => long rfl (by simp only [encode]; omega)
theorem vrcp : ∀ a0 a1 a2, Statement (.vrcp a0 a1 a2) := fun _ _ _ => long rfl (by simp only [encode]; omega)
theorem vrsq : ∀ a0 a1 a2, Statement (.vrsq a0 a1 a2) := fun _ _ _ => long rfl (by simp only [encode]; omega)
theorem vsqrt : ∀ a0 a1 a2, Statement (.vsqrt a0 a1 a2) := fun _ _ _ => long rfl (by simp only [encode]; omega)
theorem vsig : ∀ a0 a1 a2, Statement (.vsig a0 a1 a2) := fun _ _ _ => long rfl (by simp only [encode]; omega)
theorem vtanh : ∀ a0 a1 a2, Statement (.vtanh a0 a1 a2) := fun _ _ _ => long rfl (by simp only [encode]; omega)
theorem vrdsum : ∀ a0 a1 a2, Statement (.vrdsum a0 a1 a2) := fun _ _ _ => long rfl (by simp only [encode]; omega)
theorem vrdmax : ∀ a0 a1 a2, Statement (.vrdmax a0 a1 a2) := fun _ _ _ => long rfl (by simp only [encode]; omega)
theorem vrdmin : ∀ a0 a1 a2, Statement (.vrdmin a0 a1 a2) := fun _ _ _ => long rfl (by simp only [encode]; omega)
theorem vpopc : ∀ a0 a1 a2, Statement (.vpopc a0 a1 a2) := fun _ _ _ => long rfl (by simp only [encode]; omega)
theorem vclz : ∀ a0 a1 a2, Statement (.vclz a0 a1 a2) := fun _ _ _ => long rfl (by simp only [encode]; omega)
theorem vbcast : ∀ a0 a1 a2, Statement (.vbcast a0 a1 a2) := fun _ _ _ => long rfl (by simp only [encode]; omega)
theorem vmnot : ∀ a0 a1, Statement (.vmnot a0 a1) := fun _ _ => long rfl (by simp only [encode]; omega)
theorem vmcnt : ∀ a0 a1 a2, Statement (.vmcnt a0 a1 a2) := fun _ _ _ => long rfl (by simp only [encode]; omega)
theorem viota : ∀ a0 a1, Statement (.viota a0 a1) := fun _ _ => long rfl (by simp only [encode]; omega)
theorem vmode : ∀ a0, Statement (.vmode a0) := fun _ => long rfl (by simp only [encode]; omega)
theorem scset : ∀ a0 a1, Statement (.scset a0 a1) := fun _ _ => long rfl (by simp only [encode]; omega)
theorem scadde : ∀ a0 a1, Statement (.scadde a0 a1) := fun _ _ => long rfl (by simp only [encode]; omega)
theorem scmax : ∀ a0 a1, Statement (.scmax a0 a1) := fun _ _ => long rfl (by simp only [encode]; omega)
theorem scmin : ∀ a0 a1, Statement (.scmin a0 a1) := fun _ _ => long rfl (by simp only [encode]; omega)
theorem scmov : ∀ a0 a1, Statement (.scmov a0 a1) := fun _ _ => long rfl (by simp only [encode]; omega)
theorem scbind : ∀ a0 a1, Statement (.scbind a0 a1) := fun _ _ => long rfl (by simp only [encode]; omega)
theorem scunb : ∀ a0, Statement (.scunb a0) := fun _ => long rfl (by simp only [encode]; omega)
theorem scrd : ∀ a0 a1, Statement (.scrd a0 a1) := fun _ _ => long rfl (by simp only [encode]; omega)
theorem scwr : ∀ a0 a1, Statement (.scwr a0 a1) := fun _ _ => long rfl (by simp only [encode]; omega)
theorem scnew : ∀ a0, Statement (.scnew a0) := fun _ => long rfl (by simp only [encode]; omega)
theorem vmovi : ∀ a0 a1 a2, Statement (.vmovi a0 a1 a2) := fun _ _ _ => long rfl (by simp only [encode]; omega)
theorem ldv : ∀ a0 a1 a2 a3, Statement (.ldv a0 a1 a2 a3) := fun _ _ _ _ => long rfl (by simp only [encode]; omega)
theorem stv : ∀ a0 a1 a2 a3, Statement (.stv a0 a1 a2 a3) := fun _ _ _ _ => long rfl (by simp only [encode]; omega)
theorem lds : ∀ a0 a1 a2 a3, Statement (.lds a0 a1 a2 a3) := fun _ _ _ _ => long rfl (by simp only [encode]; omega)
theorem sts : ∀ a0 a1 a2 a3, Statement (.sts a0 a1 a2 a3) := fun _ _ _ _ => long rfl (by simp only [encode]; omega)
theorem gath : ∀ a0 a1 a2 a3 a4 a5, Statement (.gath a0 a1 a2 a3 a4 a5) := fun _ _ _ _ _ _ => long rfl (by simp only [encode]; omega)
theorem scat : ∀ a0 a1 a2 a3 a4, Statement (.scat a0 a1 a2 a3 a4) := fun _ _ _ _ _ => long rfl (by simp only [encode]; omega)
theorem ldt : ∀ a0 a1 a2 a3, Statement (.ldt a0 a1 a2 a3) := fun _ _ _ _ => long rfl (by simp only [encode]; omega)
theorem stt : ∀ a0 a1 a2 a3, Statement (.stt a0 a1 a2 a3) := fun _ _ _ _ => long rfl (by simp only [encode]; omega)
theorem ldi : ∀ a0 a1 a2 a3 a4, Statement (.ldi a0 a1 a2 a3 a4) := fun _ _ _ _ _ => long rfl (by simp only [encode]; omega)
theorem pref : ∀ a0 a1 a2, Statement (.pref a0 a1 a2) := fun _ _ _ => long rfl (by simp only [encode]; omega)
theorem srchk : ∀ a0 a1 a2 a3 a4, Statement (.srchk a0 a1 a2 a3 a4) := fun _ _ _ _ _ => long rfl (by simp only [encode]; omega)
theorem hist : ∀ a0 a1 a2 a3, Statement (.hist a0 a1 a2 a3) := fun _ _ _ _ => long rfl (by simp only [encode]; omega)
theorem atoms : ∀ a0 a1 a2 a3, Statement (.atoms a0 a1 a2 a3) := fun _ _ _ _ => long rfl (by simp only [encode]; omega)
theorem spillp : ∀ a0 a1 a2, Statement (.spillp a0 a1 a2) := fun _ _ _ => long rfl (by simp only [encode]; omega)
theorem fillp : ∀ a0 a1 a2, Statement (.fillp a0 a1 a2) := fun _ _ _ => long rfl (by simp only [encode]; omega)
theorem paddi : ∀ a0 a1 a2, Statement (.paddi a0 a1 a2) := fun _ _ _ => long rfl (by simp only [encode]; omega)
theorem padd : ∀ a0 a1, Statement (.padd a0 a1) := fun _ _ => long rfl (by simp only [encode]; omega)
theorem pmovi : ∀ a0 a1, Statement (.pmovi a0 a1) := fun _ _ => long rfl (by simp only [encode]; omega)
theorem pmova : ∀ a0 a1, Statement (.pmova a0 a1) := fun _ _ => long rfl (by simp only [encode]; omega)
theorem pmuli : ∀ a0 a1 a2, Statement (.pmuli a0 a1 a2) := fun _ _ _ => long rfl (by simp only [encode]; omega)
theorem pcmp : ∀ a0 a1 a2 a3, Statement (.pcmp a0 a1 a2 a3) := fun _ _ _ _ => long rfl (by simp only [encode]; omega)
theorem mmul : ∀ a0 a1 a2 a3 a4 a5 a6, Statement (.mmul a0 a1 a2 a3 a4 a5 a6) := fun _ _ _ _ _ _ _ => long rfl (by simp only [encode]; omega)
theorem mfill : ∀ a0 a1, Statement (.mfill a0 a1) := fun _ _ => long rfl (by simp only [encode]; omega)
theorem mpin : ∀ a0, Statement (.mpin a0) := fun _ => long rfl (by simp only [encode]; omega)
theorem munpin : ∀ a0, Statement (.munpin a0) := fun _ => long rfl (by simp only [encode]; omega)
theorem minv : ∀ a0, Statement (.minv a0) := fun _ => long rfl (by simp only [encode]; omega)
theorem mqry : ∀ a0 a1, Statement (.mqry a0 a1) := fun _ _ => long rfl (by simp only [encode]; omega)
theorem lrel : Statement .lrel := long rfl (by decide)
theorem mclr : ∀ a0, Statement (.mclr a0) := fun _ => long rfl (by simp only [encode]; omega)
theorem mqset : ∀ a0 a1 a2 a3, Statement (.mqset a0 a1 a2 a3) := fun _ _ _ _ => long rfl (by simp only [encode]; omega)
theorem mqadd : ∀ a0 a1, Statement (.mqadd a0 a1) := fun _ _ => long rfl (by simp only [encode]; omega)
theorem mstat : ∀ a0, Statement (.mstat a0) := fun _ => long rfl (by simp only [encode]; omega)
theorem cpy : ∀ a0 a1 a2 a3 a4 a5, Statement (.cpy a0 a1 a2 a3 a4 a5) := fun _ _ _ _ _ _ => long rfl (by simp only [encode]; omega)
theorem cpyt : ∀ a0 a1 a2 a3 a4, Statement (.cpyt a0 a1 a2 a3 a4) := fun _ _ _ _ _ => long rfl (by simp only [encode]; omega)
theorem cpyacc : ∀ a0 a1 a2 a3 a4, Statement (.cpyacc a0 a1 a2 a3 a4) := fun _ _ _ _ _ => long rfl (by simp only [encode]; omega)
theorem fill : ∀ a0 a1 a2 a3 a4 a5, Statement (.fill a0 a1 a2 a3 a4 a5) := fun _ _ _ _ _ _ => long rfl (by simp only [encode]; omega)
theorem etch : ∀ a0 a1 a2 a3, Statement (.etch a0 a1 a2 a3) := fun _ _ _ _ => long rfl (by simp only [encode]; omega)
theorem roundo : ∀ a0, Statement (.roundo a0) := fun _ => long rfl (by simp only [encode]; omega)
theorem roundc : ∀ a0, Statement (.roundc a0) := fun _ => long rfl (by simp only [encode]; omega)
theorem xput : ∀ a0 a1 a2 a3 a4, Statement (.xput a0 a1 a2 a3 a4) := fun _ _ _ _ _ => long rfl (by simp only [encode]; omega)
theorem xget : ∀ a0 a1 a2 a3 a4, Statement (.xget a0 a1 a2 a3 a4) := fun _ _ _ _ _ => long rfl (by simp only [encode]; omega)
theorem xred : ∀ a0 a1 a2 a3 a4 a5, Statement (.xred a0 a1 a2 a3 a4 a5) := fun _ _ _ _ _ _ => long rfl (by simp only [encode]; omega)
theorem xsig : ∀ a0 a1 a2 a3, Statement (.xsig a0 a1 a2 a3) := fun _ _ _ _ => long rfl (by simp only [encode]; omega)
theorem xsend : ∀ a0 a1 a2 a3 a4, Statement (.xsend a0 a1 a2 a3 a4) := fun _ _ _ _ _ => long rfl (by simp only [encode]; omega)
theorem xadm : ∀ a0 a1 a2, Statement (.xadm a0 a1 a2) := fun _ _ _ => long rfl (by simp only [encode]; omega)
theorem xrefq : ∀ a0 a1, Statement (.xrefq a0 a1) := fun _ _ => long rfl (by simp only [encode]; omega)
theorem xwait : ∀ a0 a1 a2, Statement (.xwait a0 a1 a2) := fun _ _ _ => long rfl (by simp only [encode]; omega)
theorem entryStart : ∀ a0, Statement (.entryStart a0) := fun _ => event rfl
theorem repetitionEnd : ∀ a0 a1, Statement (.repetitionEnd a0 a1) := fun _ _ => event rfl
theorem entryComplete : ∀ a0, Statement (.entryComplete a0) := fun _ => event rfl
theorem veWriteLand : Statement .veWriteLand := event rfl
theorem dataQueueArrival : ∀ a0, Statement (.dataQueueArrival a0) := fun _ => event rfl
theorem aeLoadReturn : ∀ a0, Statement (.aeLoadReturn a0) := fun _ => event rfl
theorem ldiDataReturn : ∀ a0, Statement (.ldiDataReturn a0) := fun _ => event rfl
theorem scratchpadAccessComplete : ∀ a0, Statement (.scratchpadAccessComplete a0) := fun _ => event rfl
theorem sleepuWake : Statement .sleepuWake := event rfl
theorem queueWaitResume : ∀ a0, Statement (.queueWaitResume a0) := fun _ => event rfl
theorem checkResolve : Statement .checkResolve := event rfl
theorem asyncTrapEntry : Statement .asyncTrapEntry := event rfl
theorem parkWake : ∀ a0, Statement (.parkWake a0) := fun _ => event rfl
theorem pageReclassify : ∀ a0 a1, Statement (.pageReclassify a0 a1) := fun _ _ => event rfl
theorem leaseGrant : ∀ a0, Statement (.leaseGrant a0) := fun _ => event rfl
theorem leaseRunEnd : ∀ a0, Statement (.leaseRunEnd a0) := fun _ => event rfl
theorem plateFillComplete : ∀ a0 a1 a2, Statement (.plateFillComplete a0 a1 a2) := fun _ _ _ => event rfl
theorem mmulComplete : Statement .mmulComplete := event rfl
theorem gets : ∀ a0 a1 a2 a3, Statement (.gets a0 a1 a2 a3) := fun _ _ _ _ => event rfl
theorem getm : ∀ a0 a1 a2 a3 a4, Statement (.getm a0 a1 a2 a3 a4) := fun _ _ _ _ _ => event rfl
theorem putm : ∀ a0 a1, Statement (.putm a0 a1) := fun _ _ => event rfl
theorem inv : ∀ a0 a1, Statement (.inv a0 a1) := fun _ _ => event rfl
theorem invack : ∀ a0 a1 a2, Statement (.invack a0 a1 a2) := fun _ _ _ => event rfl
theorem fwdS : ∀ a0 a1, Statement (.fwdS a0 a1) := fun _ _ => event rfl
theorem fwdM : ∀ a0 a1, Statement (.fwdM a0 a1) := fun _ _ => event rfl
theorem data : ∀ a0 a1 a2, Statement (.data a0 a1 a2) := fun _ _ _ => event rfl
theorem replacement : ∀ a0 a1, Statement (.replacement a0 a1) := fun _ _ => event rfl
theorem create : Statement .create := event rfl
theorem start : Statement .start := event rfl
theorem destroy : Statement .destroy := event rfl
theorem scrubComplete : ∀ a0, Statement (.scrubComplete a0) := fun _ => event rfl
theorem freeze : ∀ a0, Statement (.freeze a0) := fun _ => event rfl
theorem freezeComplete : ∀ a0, Statement (.freezeComplete a0) := fun _ => event rfl
theorem resume : ∀ a0, Statement (.resume a0) := fun _ => event rfl
theorem restore : ∀ a0 a1, Statement (.restore a0 a1) := fun _ _ => event rfl
theorem snapdataAccess : ∀ a0 a1, Statement (.snapdataAccess a0 a1) := fun _ _ => event rfl
theorem graphaddrWrite : ∀ a0 a1, Statement (.graphaddrWrite a0 a1) := fun _ _ => event rfl
theorem triggerWrite : ∀ a0 a1, Statement (.triggerWrite a0 a1) := fun _ _ => event rfl
theorem launchRegisterWrite : ∀ a0 a1 a2, Statement (.launchRegisterWrite a0 a1 a2) := fun _ _ _ => event rfl
theorem groupPlace : Statement .groupPlace := event rfl
theorem quantumExpiry : ∀ a0, Statement (.quantumExpiry a0) := fun _ => event rfl
theorem coreExit : Statement .coreExit := event rfl
theorem groupFail : ∀ a0, Statement (.groupFail a0) := fun _ => event rfl
theorem launchEnd : ∀ a0, Statement (.launchEnd a0) := fun _ => event rfl
theorem completionInterrupt : ∀ a0, Statement (.completionInterrupt a0) := fun _ => event rfl
theorem rowArrival : ∀ a0, Statement (.rowArrival a0) := fun _ => event rfl
theorem sendAnswer : ∀ a0, Statement (.sendAnswer a0) := fun _ => event rfl
theorem refusalArrival : ∀ a0, Statement (.refusalArrival a0) := fun _ => event rfl
theorem etchUnitRun : ∀ a0, Statement (.etchUnitRun a0) := fun _ => event rfl
theorem etchYield : ∀ a0 a1, Statement (.etchYield a0 a1) := fun _ _ => event rfl
theorem roundAck : ∀ a0 a1, Statement (.roundAck a0 a1) := fun _ _ => event rfl
theorem remoteAccess : ∀ a0 a1 a2, Statement (.remoteAccess a0 a1 a2) := fun _ _ _ => event rfl
theorem remoteAck : ∀ a0, Statement (.remoteAck a0) := fun _ => event rfl
theorem flitReceive : ∀ a0 a1 a2, Statement (.flitReceive a0 a1 a2) := fun _ _ _ => event rfl
theorem replayRequest : ∀ a0 a1, Statement (.replayRequest a0 a1) := fun _ _ => event rfl
theorem laneFailure : ∀ a0, Statement (.laneFailure a0) := fun _ => event rfl
theorem trainComplete : ∀ a0 a1 a2, Statement (.trainComplete a0 a1 a2) := fun _ _ _ => event rfl
theorem linkStart : ∀ a0, Statement (.linkStart a0) := fun _ => event rfl
theorem linkStop : ∀ a0, Statement (.linkStop a0) := fun _ => event rfl
theorem startSequence : ∀ a0 a1, Statement (.startSequence a0 a1) := fun _ _ => event rfl
theorem minimalModeRetry : ∀ a0, Statement (.minimalModeRetry a0) := fun _ => event rfl
theorem thermalTrip : ∀ a0, Statement (.thermalTrip a0) := fun _ => event rfl
theorem attestationRequest : ∀ a0, Statement (.attestationRequest a0) := fun _ => event rfl
theorem worldqWrite : ∀ a0, Statement (.worldqWrite a0) := fun _ => event rfl
theorem worldrWrite : ∀ a0, Statement (.worldrWrite a0) := fun _ => event rfl
theorem worlduWrite : ∀ a0, Statement (.worlduWrite a0) := fun _ => event rfl
theorem debugstWrite : ∀ a0, Statement (.debugstWrite a0) := fun _ => event rfl
theorem quadP1 : ∀ a0 a1, Statement (.quadP1 a0 a1) := fun _ _ => event rfl
theorem quadP2 : ∀ a0 a1, Statement (.quadP2 a0 a1) := fun _ _ => event rfl
theorem quadWake : ∀ a0, Statement (.quadWake a0) := fun _ => event rfl
theorem dieSleep : ∀ a0, Statement (.dieSleep a0) := fun _ => event rfl
theorem dieWake : ∀ a0, Statement (.dieWake a0) := fun _ => event rfl
theorem fnpolicyWrite : ∀ a0, Statement (.fnpolicyWrite a0) := fun _ => event rfl
theorem plmaskWrite : ∀ a0, Statement (.plmaskWrite a0) := fun _ => event rfl
theorem pltagWrite : ∀ a0 a1, Statement (.pltagWrite a0 a1) := fun _ _ => event rfl
theorem estateWrite : ∀ a0 a1, Statement (.estateWrite a0 a1) := fun _ _ => event rfl
theorem vmodeWrite : ∀ a0, Statement (.vmodeWrite a0) := fun _ => event rfl
theorem viewWordWrite : ∀ a0 a1, Statement (.viewWordWrite a0 a1) := fun _ _ => event rfl
theorem apertureRead : ∀ a0 a1 a2, Statement (.apertureRead a0 a1 a2) := fun _ _ _ => event rfl
theorem apertureWrite : ∀ a0 a1 a2, Statement (.apertureWrite a0 a1 a2) := fun _ _ _ => event rfl
theorem illegalInstruction : Statement .illegalInstruction := event rfl
theorem fetchFault : Statement .fetchFault := event rfl
theorem hostLinkCompletion : ∀ a0, Statement (.hostLinkCompletion a0) := fun _ => event rfl
theorem debugAccess : ∀ a0 a1, Statement (.debugAccess a0 a1) := fun _ _ => event rfl
theorem watchdog : ∀ a0, Statement (.watchdog a0) := fun _ => event rfl
theorem podJob : ∀ a0 a1 a2 a3, Statement (.podJob a0 a1 a2 a3) := fun _ _ _ _ => event rfl
theorem quadP0 : ∀ a0 a1, Statement (.quadP0 a0 a1) := fun _ _ => event rfl

end

/-- Every instruction. -/
theorem all (i : Instr) : Statement i := by
  cases i
  · exact add ..
  · exact sub ..
  · exact and ..
  · exact or ..
  · exact xor ..
  · exact andn ..
  · exact sll ..
  · exact srl ..
  · exact sra ..
  · exact rol ..
  · exact slt ..
  · exact sltn ..
  · exact min ..
  · exact max ..
  · exact minn ..
  · exact maxn ..
  · exact mul ..
  · exact mulh ..
  · exact mulhn ..
  · exact div ..
  · exact divn ..
  · exact rem ..
  · exact remn ..
  · exact clz ..
  · exact ctz ..
  · exact popc ..
  · exact bswap ..
  · exact sext ..
  · exact zext ..
  · exact addi ..
  · exact andi ..
  · exact ori ..
  · exact xori ..
  · exact slli ..
  · exact srli ..
  · exact srai ..
  · exact roli ..
  · exact slti ..
  · exact sltni ..
  · exact movw ..
  · exact ld ..
  · exact ldn ..
  · exact st ..
  · exact ldx ..
  · exact ldxn ..
  · exact stx ..
  · exact amoadd ..
  · exact amoand ..
  · exact amoor ..
  · exact amoxor ..
  · exact amomin ..
  · exact amomax ..
  · exact amominn ..
  · exact amomaxn ..
  · exact amoswp ..
  · exact cas ..
  · exact ldo ..
  · exact sto ..
  · exact fenceC ..
  · exact fenceM ..
  · exact pubc ..
  · exact cache ..
  · exact beq ..
  · exact bne ..
  · exact blt ..
  · exact bge ..
  · exact bltn ..
  · exact bgen ..
  · exact jal ..
  · exact jalr ..
  · exact enq ..
  · exact renq ..
  · exact renqNb ..
  · exact twait ..
  · exact tsig ..
  · exact tcnt ..
  · exact bpop ..
  · exact bpopS ..
  · exact bpush ..
  · exact spec ..
  · exact commit ..
  · exact abort ..
  · exact specq ..
  · exact bara ..
  · exact barw ..
  · exact baraw ..
  · exact pqpush ..
  · exact pqpop ..
  · exact pqpeek ..
  · exact rdtime ..
  · exact sleepu ..
  · exact trap ..
  · exact eret ..
  · exact wfi ..
  · exact brk ..
  · exact rdsys ..
  · exact wrsys ..
  · exact wview ..
  · exact tdset ..
  · exact patch ..
  · exact tlbinvVa ..
  · exact tlbinvCtx ..
  · exact tlbinvAll ..
  · exact eresume ..
  · exact efreeze ..
  · exact equery ..
  · exact cAddi ..
  · exact cMov ..
  · exact cAdd ..
  · exact cSub ..
  · exact cLd ..
  · exact cSt ..
  · exact cBeqz ..
  · exact cBnez ..
  · exact cJ ..
  · exact cSlli ..
  · exact cSrli ..
  · exact cAndi ..
  · exact cRet ..
  · exact cTwait ..
  · exact nop ..
  · exact bexit ..
  · exact bskip ..
  · exact stop ..
  · exact bpushm ..
  · exact vmsel ..
  · exact rot ..
  · exact vadd ..
  · exact vsub ..
  · exact vmul ..
  · exact vfma ..
  · exact vfms ..
  · exact vmin ..
  · exact vmax ..
  · exact vand ..
  · exact vor ..
  · exact vxor ..
  · exact vshl ..
  · exact vshr ..
  · exact vadds ..
  · exact vsubs ..
  · exact vmulh ..
  · exact vabsd ..
  · exact vcmpeq ..
  · exact vcmpne ..
  · exact vcmplt ..
  · exact vcmple ..
  · exact vsel ..
  · exact vperm ..
  · exact vdot4 ..
  · exact vlut ..
  · exact vscl ..
  · exact vmand ..
  · exact vmor ..
  · exact vmxor ..
  · exact vmov ..
  · exact vneg ..
  · exact vabs ..
  · exact vnot ..
  · exact vcvt ..
  · exact vcvtd ..
  · exact vcvtu ..
  · exact vrnd ..
  · exact vexp2 ..
  · exact vlog2 ..
  · exact vexp ..
  · exact vrcp ..
  · exact vrsq ..
  · exact vsqrt ..
  · exact vsig ..
  · exact vtanh ..
  · exact vrdsum ..
  · exact vrdmax ..
  · exact vrdmin ..
  · exact vpopc ..
  · exact vclz ..
  · exact vbcast ..
  · exact vmnot ..
  · exact vmcnt ..
  · exact viota ..
  · exact vmode ..
  · exact scset ..
  · exact scadde ..
  · exact scmax ..
  · exact scmin ..
  · exact scmov ..
  · exact scbind ..
  · exact scunb ..
  · exact scrd ..
  · exact scwr ..
  · exact scnew ..
  · exact vmovi ..
  · exact ldv ..
  · exact stv ..
  · exact lds ..
  · exact sts ..
  · exact gath ..
  · exact scat ..
  · exact ldt ..
  · exact stt ..
  · exact ldi ..
  · exact pref ..
  · exact srchk ..
  · exact hist ..
  · exact atoms ..
  · exact spillp ..
  · exact fillp ..
  · exact paddi ..
  · exact padd ..
  · exact pmovi ..
  · exact pmova ..
  · exact pmuli ..
  · exact pcmp ..
  · exact mmul ..
  · exact mfill ..
  · exact mpin ..
  · exact munpin ..
  · exact minv ..
  · exact mqry ..
  · exact lrel ..
  · exact mclr ..
  · exact mqset ..
  · exact mqadd ..
  · exact mstat ..
  · exact cpy ..
  · exact cpyt ..
  · exact cpyacc ..
  · exact fill ..
  · exact etch ..
  · exact roundo ..
  · exact roundc ..
  · exact xput ..
  · exact xget ..
  · exact xred ..
  · exact xsig ..
  · exact xsend ..
  · exact xadm ..
  · exact xrefq ..
  · exact xwait ..
  · exact entryStart ..
  · exact repetitionEnd ..
  · exact entryComplete ..
  · exact veWriteLand ..
  · exact dataQueueArrival ..
  · exact aeLoadReturn ..
  · exact ldiDataReturn ..
  · exact scratchpadAccessComplete ..
  · exact sleepuWake ..
  · exact queueWaitResume ..
  · exact checkResolve ..
  · exact asyncTrapEntry ..
  · exact parkWake ..
  · exact pageReclassify ..
  · exact leaseGrant ..
  · exact leaseRunEnd ..
  · exact plateFillComplete ..
  · exact mmulComplete ..
  · exact gets ..
  · exact getm ..
  · exact putm ..
  · exact inv ..
  · exact invack ..
  · exact fwdS ..
  · exact fwdM ..
  · exact data ..
  · exact replacement ..
  · exact create ..
  · exact start ..
  · exact destroy ..
  · exact scrubComplete ..
  · exact freeze ..
  · exact freezeComplete ..
  · exact resume ..
  · exact restore ..
  · exact snapdataAccess ..
  · exact graphaddrWrite ..
  · exact triggerWrite ..
  · exact launchRegisterWrite ..
  · exact groupPlace ..
  · exact quantumExpiry ..
  · exact coreExit ..
  · exact groupFail ..
  · exact launchEnd ..
  · exact completionInterrupt ..
  · exact rowArrival ..
  · exact sendAnswer ..
  · exact refusalArrival ..
  · exact etchUnitRun ..
  · exact etchYield ..
  · exact roundAck ..
  · exact remoteAccess ..
  · exact remoteAck ..
  · exact flitReceive ..
  · exact replayRequest ..
  · exact laneFailure ..
  · exact trainComplete ..
  · exact linkStart ..
  · exact linkStop ..
  · exact startSequence ..
  · exact minimalModeRetry ..
  · exact thermalTrip ..
  · exact attestationRequest ..
  · exact worldqWrite ..
  · exact worldrWrite ..
  · exact worlduWrite ..
  · exact debugstWrite ..
  · exact quadP1 ..
  · exact quadP2 ..
  · exact quadWake ..
  · exact dieSleep ..
  · exact dieWake ..
  · exact fnpolicyWrite ..
  · exact plmaskWrite ..
  · exact pltagWrite ..
  · exact estateWrite ..
  · exact vmodeWrite ..
  · exact viewWordWrite ..
  · exact apertureRead ..
  · exact apertureWrite ..
  · exact illegalInstruction ..
  · exact fetchFault ..
  · exact hostLinkCompletion ..
  · exact debugAccess ..
  · exact watchdog ..
  · exact podJob ..
  · exact quadP0 ..

end Sys2Proof.Laws.Words
end

