-- ==== Sys2Proof/Laws/Link.lean ====
section
/-! SUPPORT. What the operations over ports, the host aperture, quads and fetch do. -/

namespace Sys2Proof.Laws

open Sys2Proof Sys2Proof.Machine

set_option linter.all false

/-- A port set reads back, and no other port changes. -/
theorem port_setPort (s : State) (k j : Nat) (p : Port) (hj : j < 16) : (s.setPort k p).port j = if j = k then p else s.port j := by
  unfold State.setPort State.port
  refine (vec_getD_set _ _ _ _ _ hj).trans ?_
  by_cases h : k = j
  · rw [if_pos h, if_pos h.symm]
  · rw [if_neg h, if_neg (Ne.symm h)]

theorem lost_ports (s was : State) : (s.lost was).ports = s.ports ∧ (s.lost was).mgmt = s.mgmt ∧ (s.lost was).out = s.out ∧ (s.lost was).store = s.store := by
  unfold State.lost
  simp only []
  split <;> exact ⟨rfl, rfl, rfl, rfl⟩

theorem lost_port (s was : State) (k : Nat) : (s.lost was).port k = s.port k := by
  unfold State.port; rw [(lost_ports s was).1]

/-- A port without the flits it is carrying. -/
def line (q : Port) : Port := { q with next := 0, kept := [] }

theorem port_high (s : State) (j : Nat) (hj : ¬j < 16) : s.port j = {} := by
  have : ∀ (v : Vector Port 16), v.getD j {} = {} := by
    intro v; obtain ⟨a, ha⟩ := v
    show a.getD j {} = {}
    rw [Array.getD_eq_getD_getElem?, Array.getElem?_eq_none (by omega)]; rfl
  exact this _

theorem line_setPort (s : State) (k j : Nat) (p : Port) (h : line p = line (s.port k)) : line ((s.setPort k p).port j) = line (s.port j) := by
  by_cases hj : j < 16
  · rw [port_setPort _ _ _ _ hj]
    split
    · rename_i e; rw [e]; exact h
    · rfl
  · rw [port_high _ _ hj, port_high _ _ hj]

/-- A state after flits were sent: the ports differ in the flits they carry alone. -/
def Sent (a b : State) : Prop := (∀ j, line (a.port j) = line (b.port j)) ∧ a.store = b.store ∧ a.cur = b.cur ∧
  a.mgmt = { b.mgmt with owed := a.mgmt.owed, answers := a.mgmt.answers, portNow := a.mgmt.portNow } ∧
  (b.core.remote = none → a.core = b.core) ∧ ∃ l, a.out = b.out ++ l

theorem Sent.refl (a : State) : Sent a a := ⟨fun _ => rfl, rfl, rfl, rfl, fun _ => rfl, [], by simp⟩

theorem Sent.trans {a b c : State} : Sent a b → Sent b c → Sent a c := by
  rintro ⟨tlbOwn_of_find, translate_of_own, a3, a4, a5, l, a6⟩ ⟨b1, b2, b3, b4, b5, m, b6⟩
  refine ⟨fun j => (tlbOwn_of_find j).trans (b1 j), translate_of_own.trans b2, a3.trans b3, ?_, fun h => by
    have := b5 h; exact (a5 (by rw [this]; exact h)).trans this, m ++ l, by rw [a6, b6, List.append_assoc]⟩
  generalize a.mgmt = x at a4 ⊢
  generalize b.mgmt = y at a4 b4
  rw [b4] at a4; rw [a4]

theorem Sent.foldl {α : Type} (f : State → α → State) (h : ∀ s x, Sent (f s x) s) (l : List α) (s : State) : Sent (l.foldl f s) s := by
  induction l generalizing s with
  | nil => exact Sent.refl s
  | cons x t ih => rw [List.foldl_cons]; exact (ih _).trans (h s x)

theorem putFlit_sent (s : State) (k dst : Nat) (c : Cargo) : Sent (s.putFlit k dst c) s :=
  ⟨fun j => line_setPort s k j _ rfl, rfl, rfl, rfl, fun _ => rfl, [_], rfl⟩

theorem usePort_sent (s : State) (dev k : Nat) : Sent (s.usePort dev k) s := by
  unfold State.usePort
  simp only []
  have h := Sent.foldl (fun (s : State) (x : Nat × Answer) => s.putFlit k dev x.2.cargo) (fun s x => putFlit_sent _ _ _ _)
    (s.mgmt.owed.filter fun x => x.2.dev = dev && x.1 ≠ k) s
  exact Sent.trans (b := List.foldl (fun (s : State) (x : Nat × Answer) => s.putFlit k dev x.2.cargo) s (s.mgmt.owed.filter fun x => x.2.dev = dev && x.1 ≠ k))
    ⟨fun _ => rfl, rfl, rfl, rfl, fun _ => rfl, [], (List.append_nil _).symm⟩ h

theorem sendFlit_sent (s : State) (k dev : Nat) (c : Cargo) : Sent (s.sendFlit k dev c) s :=
  (putFlit_sent _ _ _ _).trans (usePort_sent _ _ _)

theorem sendAnswer_sent (s : State) (a : Answer) : Sent (s.sendAnswer a) s := by
  unfold State.sendAnswer
  split
  · rename_i k hk
    exact Sent.trans (b := s.sendFlit k a.dev a.cargo) ⟨fun _ => rfl, rfl, rfl, rfl, fun _ => rfl, [], (List.append_nil _).symm⟩ (sendFlit_sent ..)
  · exact ⟨fun _ => rfl, rfl, rfl, rfl, fun _ => rfl, [], (List.append_nil _).symm⟩

theorem sendAnswers_sent (s : State) : Sent s.sendAnswers s := by
  unfold State.sendAnswers
  generalize s.mgmt.answers = l
  have h : Sent { s with mgmt.answers := [] } s := ⟨fun _ => rfl, rfl, rfl, rfl, fun _ => rfl, [], by simp⟩
  revert h
  generalize ({ s with mgmt.answers := [] } : State) = u
  intro h
  have h2 := Sent.foldl State.sendAnswer sendAnswer_sent l u
  exact Sent.trans h2 h

theorem resendAnswers_sent (s : State) : Sent s.resendAnswers s := by
  unfold State.resendAnswers
  refine Sent.foldl _ (fun s x => ?_) _ _
  split
  · exact Sent.refl s
  · split
    · exact usePort_sent ..
    · exact Sent.refl s

theorem resend_sent (s : State) (n : Nat) : Sent (s.resend n) s := by
  unfold State.resend
  simp only []
  split
  · exact Sent.refl s
  · rename_i r hr
    split
    · exact Sent.refl s
    · split
      · exact Sent.refl s
      · rename_i k hk
        refine (sendFlit_sent ..).trans ?_
        have hp : ∀ c, (s.setCoreAt n c).ports = s.ports ∧ (s.setCoreAt n c).out = s.out := by intro c; unfold State.setCoreAt; split <;> exact ⟨rfl, rfl⟩
        obtain ⟨k1, k2, k3, k4, k5, k6, k7⟩ := setCoreAt_keeps s n { s.coreAt n with remote := some { r with port := k } }
        refine ⟨fun j => by unfold State.port; rw [(hp _).1], k1, k7, by rw [k4], fun h => ?_, [], by rw [(hp _).2]; simp⟩
        have hn : n ≠ s.cur := by
          rintro rfl
          have : s.coreAt s.cur = s.core := by unfold State.coreAt; rw [if_pos rfl]
          rw [this, h] at hr; cases hr
        unfold State.setCoreAt; rw [if_neg hn]

theorem rerouted_sent (s : State) : Sent s.rerouted s := by
  unfold State.rerouted
  have h2 := Sent.foldl (fun (s : State) (c : Nat × Core) => s.resend c.1) (fun s c => resend_sent s c.1) s.cores s
  exact (sendAnswers_sent _).trans ((resendAnswers_sent _).trans h2)

/-- A change of a port is the change and its consequences, then flits. -/
theorem changePort_sent (s : State) (k : Nat) (f : Port → Port) (h : s.fitted k = true) : Sent (s.changePort k f) ((s.setPort k (f (s.port k))).lost s) := by
  unfold State.changePort; rw [if_pos h]
  exact rerouted_sent _

theorem changePort_none (s : State) (k : Nat) (f : Port → Port) (h : s.fitted k = false) : s.changePort k f = s := by
  unfold State.changePort; rw [if_neg (by simp [h])]

/-- A change of one port changes no other. -/
theorem changePort_line (s : State) (k j : Nat) (f : Port → Port) (h : s.fitted k = true) (hk : k < 16) :
    line ((s.changePort k f).port j) = line (if j = k then f (s.port k) else s.port j) := by
  rw [(changePort_sent s k f h).1 j, lost_port]
  by_cases hj : j < 16
  · rw [port_setPort _ _ _ _ hj]
  · rw [if_neg (by omega), port_high _ _ hj, port_high _ _ hj]

theorem changePort_mevent (s : State) (k : Nat) (f : Port → Port) : (s.changePort k f).mgmt.mevent = s.mgmt.mevent := by
  by_cases h : s.fitted k = true
  · have := congrArg Mgmt.mevent (changePort_sent s k f h).2.2.2.1
    rw [(lost_ports ..).2.1] at this; exact this
  · rw [changePort_none _ _ _ (by simpa using h)]

theorem line_st {a b : Port} (h : line a = line b) : a.st = b.st ∧ a.peer = b.peer ∧ a.failures = b.failures ∧ a.replay = b.replay :=
  ⟨show (line a).st = (line b).st by rw [h], show (line a).peer = (line b).peer by rw [h], show (line a).failures = (line b).failures by rw [h],
    show (line a).replay = (line b).replay by rw [h]⟩

theorem emitAll (l : List Kept) (k : Nat) (s : State) :
    l.foldl (fun s f => s.emit (.flit k f.seq f.data)) s = { s with out := s.out ++ l.map fun f => .flit k f.seq f.data } := by
  induction l generalizing s with
  | nil => simp
  | cons x t ih => rw [List.foldl_cons, ih]; simp [State.emit]

theorem loseRemote_none (c : Core) (dead : Nat → Bool) (h : c.remote = none) : c.loseRemote dead = c := by
  unfold Core.loseRemote; rw [h]

theorem lost_core (s was : State) (h : s.core.remote = none) : (s.lost was).core = s.core := by
  unfold State.lost
  simp only []
  split
  · exact Eq.trans (b := s.core.loseRemote fun d => was.reachable d && !s.reachable d) rfl (loseRemote_none _ _ h)
  · rfl

theorem smFind_mem {α : Type} (m : List (Nat × α)) (k : Nat) (v : α) (h : smFind m k = some v) : ∃ x ∈ m, x.1 = k := by
  induction m with
  | nil => cases h
  | cons x t ih =>
    unfold smFind at h
    split at h
    · rename_i e; exact ⟨x, List.mem_cons_self .., e⟩
    · obtain ⟨y, hy, e⟩ := ih h; exact ⟨y, List.mem_cons_of_mem _ hy, e⟩

theorem read_coherent (s : State) (t : Tlb) (pa n : Nat) (ht : t.nc = false) (hh : isHost pa = false) (hd : inDevice pa = false) :
    (s.loadPhys [] .home t pa n).1 = (List.range n).map fun k => memRead s.store.mem (pa + k) := by
  rw [loadPhys_bytes _ _ _ _ _ _ ht]
  unfold Store.readHome
  rw [if_neg (by simp [hh]), if_neg (by simp [hd])]
  rfl

/-- A write of one unit from outside that translates. -/
theorem outUnit_write (s s1 : State) (o : Outside) (ctx : Nat) (sec : Bool) (bs : List Byte) (va : Word) (pa : Nat) (t : Tlb)
    (ht : s.outTranslate o ctx sec { write := true } va = .ok pa t s1) :
    s.outUnit o none ctx sec (.write bs) va = .ok [] ((s1.shareFrames pa bs.length).storeAcc [] .home t pa bs) := by
  unfold State.outUnit
  rw [show (OutOp.write bs).kind = { write := true } from rfl, ht]
  rfl

/-- A read of one unit from outside that translates. -/
theorem outUnit_read (s s1 : State) (o : Outside) (ctx n : Nat) (sec : Bool) (va : Word) (pa : Nat) (t : Tlb)
    (ht : s.outTranslate o ctx sec { read := true } va = .ok pa t s1) (hm : (s1.shareFrames pa n).marked [] t pa n = none) (hh : isHost pa = false) :
    s.outUnit o none ctx sec (.read n) va =
      .ok ((s1.shareFrames pa n).loadPhys [] .home t pa n).1 ((s1.shareFrames pa n).loadPhys [] .home t pa n).2 := by
  unfold State.outUnit
  rw [show (OutOp.read n).kind = { read := true } from rfl, ht]
  generalize hs2 : s1.shareFrames pa n = s2 at hm ⊢
  have hb : s2.hostBusy pa = false := by unfold State.hostBusy; rw [hh]; rfl
  simp only [OutOp.kind, OutOp.len, hs2, hm, hb]
  rfl

theorem unitsOfAccess_one (va : Word) (n : Nat) (hn : n ≠ 0) (hu : va.toNat % 64 + n ≤ 64) : unitsOfAccess va (n + 1) 0 n = [(va, 0, n)] := by
  obtain ⟨f, hf⟩ : ∃ f, n = f + 1 := ⟨n - 1, by omega⟩
  unfold unitsOfAccess
  rw [if_neg hn]
  simp only [show va + BitVec.ofNat 64 0 = va by simp, show min n (64 - va.toNat % 64) = n by omega, Nat.sub_self]
  rw [hf]
  unfold unitsOfAccess
  simp

theorem apertureUnit_ok (s s1 : State) (ctx n : Nat) (k : Kind) (va : Word) (pa : Nat) (t : Tlb) (h : s.outTranslate .aperture ctx true k va = .ok pa t s1)
    (hx : t.x = false) : s.apertureUnit ctx k va n = (some (pa, t), s1.shareFrames pa n) := by
  unfold State.apertureUnit; rw [h]; simp [hx]

theorem loadHome_store (s : State) (t : Tlb) (pa n : Nat) (hn : t.nc = false) :
    (s.loadPhys [] .home t pa n).2.store.mem = s.store.mem ∧ (s.loadPhys [] .home t pa n).2.store.nc = s.store.nc := by
  obtain ⟨h, -, -, h2⟩ := loadPhys_keeps s [] .home t pa n
  exact ⟨by have := congrArg Store.mem h; exact this, h2 hn⟩

/-- An owner record that both anchors sign (R461). -/
def GoodOwner (b : Boot) : Prop := Config.rsaPss Config.anchorRsa b.owner b.ownerSigRsa = true ∧ Config.slhDsa Config.anchorSlh b.owner b.ownerSigSlh = true

/-- An image that is fetched, new enough and signed under both keys of its owner (R461). -/
def GoodImage (b : Boot) : Prop := b.fetch = 0 ∧ ∃ v, Config.imageVersion b.image = some v ∧ Config.ownerMinimum b.owner ≤ v ∧
      Config.rsaPss (Config.ownerRsa b.owner) b.image b.imageSigRsa = true ∧ Config.slhDsa (Config.ownerSlh b.owner) b.image b.imageSigSlh = true

theorem ownerOk_iff (b : Boot) : ownerOk b = true ↔ GoodOwner b := by
  unfold ownerOk GoodOwner; rw [Bool.and_eq_true]

theorem imageErr_spec (b : Boot) : imageErr b ∈ [0, 3, 4, 5, 7] ∧ (b.fetch = 0 → (imageErr b = 0 ↔ GoodImage b)) := by
  unfold imageErr GoodImage
  cases hv : Config.imageVersion b.image with
  | none => exact ⟨show (3 : BitVec 8) ∈ _ by decide, fun _ => ⟨(fun h => by cases h), (fun ⟨_, v, h, _⟩ => by cases h)⟩⟩
  | some v =>
    simp only []
    cases h1 : Config.rsaPss (Config.ownerRsa b.owner) b.image b.imageSigRsa
    · rw [if_pos (by simp)]; exact ⟨by decide, fun _ => ⟨(fun h => by cases h), (fun ⟨_, _, _, _, h, _⟩ => by cases h)⟩⟩
    · rw [if_neg (by simp)]
      cases h2 : Config.slhDsa (Config.ownerSlh b.owner) b.image b.imageSigSlh
      · rw [if_pos (by simp)]; exact ⟨by decide, fun _ => ⟨(fun h => by cases h), (fun ⟨_, _, _, _, _, h⟩ => by cases h)⟩⟩
      · rw [if_neg (by simp)]
        by_cases h3 : v < Config.ownerMinimum b.owner
        · rw [if_pos h3]; exact ⟨by decide, fun _ => ⟨(fun h => by cases h), (fun ⟨_, w, h, hm, _⟩ => by cases h; omega)⟩⟩
        · rw [if_neg h3]; exact ⟨by decide, fun hf => ⟨fun _ => ⟨hf, v, rfl, by omega, rfl, rfl⟩, fun _ => rfl⟩⟩

theorem fetch_ne (f : BitVec 2) (h : f ≠ 0) : f.setWidth 8 ≠ 0#8 := by
  revert f; decide

theorem retryErr_iff (b : Boot) : retryErr b = 0 ↔ GoodImage b := by
  unfold retryErr
  by_cases hf : b.fetch = 0
  · rw [if_neg (by simp [hf])]; exact (imageErr_spec b).2 hf
  · rw [if_pos hf]
    exact ⟨fun h => absurd h (fetch_ne _ hf), fun h => absurd h.1 hf⟩

/-- A start completes exactly where everything it checks holds. -/
theorem bootErr_iff (b : Boot) : bootErr b = 0 ↔ GoodOwner b ∧ b.selfTest = false ∧ GoodImage b := by
  have hr := retryErr_iff b
  unfold retryErr at hr
  unfold bootErr
  rw [← ownerOk_iff]
  cases ownerOk b
  · rw [if_pos (by simp)]; exact ⟨(fun h => by cases h), (fun h => by cases h.1)⟩
  · rw [if_neg (by simp)]
    cases b.selfTest
    · rw [if_neg (by simp)]; rw [hr]; simp
    · rw [if_pos (by simp)]; exact ⟨(fun h => by cases h), (fun h => by cases h.2.1)⟩

/-- The reason of a failed start (R463). -/
theorem bootErr_spec (b : Boot) : (¬GoodOwner b → bootErr b = 6) ∧ (GoodOwner b → b.selfTest = true → bootErr b = 8) ∧
    (GoodOwner b → b.selfTest = false → b.fetch ≠ 0 → bootErr b = b.fetch.setWidth 8) ∧
    (GoodOwner b → b.selfTest = false → b.fetch = 0 → bootErr b ≠ 0 → bootErr b ∈ [3, 4, 5, 7]) := by
  unfold bootErr
  rw [← ownerOk_iff]
  refine ⟨fun h => ?_, fun h hs => ?_, fun h hs hf => ?_, fun h hs hf hn => ?_⟩
  · rw [if_pos (by simpa using h)]
  · rw [if_neg (by simp [h]), if_pos hs]
  · rw [if_neg (by simp [h]), if_neg (by simp [hs]), if_pos hf]
  · rw [if_neg (by simp [h]), if_neg (by simp [hs]), if_neg (by simp [hf])] at hn ⊢
    have := (imageErr_spec b).1
    simp only [List.mem_cons, List.not_mem_nil, or_false] at this ⊢
    rcases this with h | h
    · exact absurd h hn
    · exact h

/-- A unit is held where some context that is not free names it. -/
theorem held_bits (l : SMap Ctx) (f : Ctx → Word) (u : Nat) (hu : u < 64) (a : Word) :
    (l.foldl (fun a c => if c.2.st = .free then a else a ||| f c.2) a).getLsbD u = true ↔
      (a.getLsbD u = true ∨ ∃ c ∈ l, c.2.st ≠ .free ∧ (f c.2).getLsbD u = true) := by
  induction l generalizing a with
  | nil => simp
  | cons x t ih =>
    rw [List.foldl_cons, ih]
    by_cases hx : x.2.st = .free
    · rw [if_pos hx]
      constructor
      · rintro (h | ⟨c, hc, h⟩)
        · exact .inl h
        · exact .inr ⟨c, List.mem_cons_of_mem _ hc, h⟩
      · rintro (h | ⟨c, hc, h⟩)
        · exact .inl h
        · rcases List.mem_cons.mp hc with rfl | hc
          · exact absurd hx h.1
          · exact .inr ⟨c, hc, h⟩
    · rw [if_neg hx, BitVec.getLsbD_or, Bool.or_eq_true]
      constructor
      · rintro ((h | h) | ⟨c, hc, h⟩)
        · exact .inl h
        · exact .inr ⟨x, List.mem_cons_self .., hx, h⟩
        · exact .inr ⟨c, List.mem_cons_of_mem _ hc, h⟩
      · rintro (h | ⟨c, hc, h⟩)
        · exact .inl (.inl h)
        · rcases List.mem_cons.mp hc with rfl | hc
          · exact .inl (.inr h.2)
          · exact .inr ⟨c, hc, h⟩

/-- Units that are held keep their world; a write that would change one is an error (R464). -/
theorem assign_bits (old v held : Word) (u : Nat) (hu : u < 64) :
    (held.getLsbD u = true → (assignWorlds old v held).1.getLsbD u = old.getLsbD u) ∧
    (held.getLsbD u = false → (assignWorlds old v held).1.getLsbD u = v.getLsbD u) ∧
    (held.getLsbD u = true → v.getLsbD u ≠ old.getLsbD u → (assignWorlds old v held).2 = true) := by
  unfold assignWorlds
  refine ⟨?_, ?_, ?_⟩
  · intro h
    rw [BitVec.getLsbD_or, BitVec.getLsbD_and, BitVec.getLsbD_and, BitVec.getLsbD_not, h]; simp
  · intro h
    rw [BitVec.getLsbD_or, BitVec.getLsbD_and, BitVec.getLsbD_and, BitVec.getLsbD_not, h]; simp [hu]
  · intro h hn
    simp only [ne_eq, decide_eq_true_eq]
    intro h0
    have := congrArg (fun w => w.getLsbD u) h0
    simp [h] at this
    exact hn (by simp [this])

theorem dieAt_setDie (s : State) (q : Nat) (v : Die) (k : Nat) : (s.setDie q v).dieAt k = if k = q then v else s.dieAt k := by
  unfold State.setDie State.dieAt
  exact smGet_smSet ..

theorem storePhys_core (s : State) (pa : Nat) (bs : List Byte) : (∀ r, (s.storePhys pa bs).x r = s.x r) ∧ (s.storePhys pa bs).core.regs = s.core.regs := by
  unfold State.storePhys
  simp only []
  split
  · split <;> exact ⟨fun _ => rfl, rfl⟩
  · exact ⟨fun r => wakeLines_x _ _ r, wakeLines_regs _ _⟩

/-- Sectors written back leave the registers of the core in focus alone. -/
theorem writeBack_core (l : List DataCopy) (s : State) : (∀ r, (l.foldl State.writeBack s).x r = s.x r) ∧
    (l.foldl State.writeBack s).core.regs = s.core.regs := by
  induction l generalizing s with
  | nil => exact ⟨fun _ => rfl, rfl⟩
  | cons c t ih =>
    rw [List.foldl_cons]
    have h : (∀ r, (s.writeBack c).x r = s.x r) ∧ (s.writeBack c).core.regs = s.core.regs := by
      have h0 := storePhys_core s (64 * c.sector) c.data
      unfold State.writeBack
      simp only []
      split <;> exact h0
    exact ⟨fun r => ((ih _).1 r).trans (h.1 r), (ih _).2.trans h.2⟩

theorem setPlates (f : Plate → Plate) (l : List Nat) (b : Vector Plate 16) (hl : l.Nodup) (p : Nat) (hp : p < 16) :
    plateAt (l.foldl (fun b p => setPlate b p (f (plateAt b p))) b) p = if p ∈ l then f (plateAt b p) else plateAt b p := by
  induction l generalizing b with
  | nil => rfl
  | cons x t ih =>
    rw [List.nodup_cons] at hl
    have h1 : plateAt (setPlate b x (f (plateAt b x))) p = if x = p then f (plateAt b x) else plateAt b p := vec_getD_set _ _ _ _ _ hp
    rw [List.foldl_cons, ih _ hl.2, h1]
    by_cases hx : x = p
    · subst hx; simp [hl.1]
    · simp [hx, Ne.symm hx]

theorem segLo (lo hi : Nat) (h : lo < 2 ^ 64) (h2 : hi < 2 ^ 64) : seg (lo + 2 ^ 64 * hi) 0 64 = lo ∧ seg (lo + 2 ^ 64 * hi) 64 64 = hi := by
  unfold seg; omega
theorem leNat2 (a b : Byte) : leNat [a, b] = a.toNat + 256 * b.toNat := by simp [leNat]

theorem readBytes_get (m : Memory) (a n k : Nat) (h : k < n) : (readBytes m a n)[k]? = some (memRead m (a + k)) := by
  unfold readBytes
  simp [h]

/-- A halfword of a sector read from memory. -/
theorem half_read (m : Memory) (pa : Nat) (h : pa % 64 + 2 ≤ 64) :
    halfAt (readBytes m (64 * (pa / 64)) 64) pa = BitVec.ofNat 16 ((memRead m pa).toNat + 256 * (memRead m (pa + 1)).toNat) := by
  unfold halfAt
  have : ((readBytes m (64 * (pa / 64)) 64).drop (pa % 64)).take 2 = [memRead m pa, memRead m (pa + 1)] := by
    apply List.ext_getElem?
    intro i
    rw [List.getElem?_take]
    by_cases hi : i < 2
    · rw [if_pos hi, List.getElem?_drop, readBytes_get _ _ _ _ (by omega)]
      rcases (by omega : i = 0 ∨ i = 1) with rfl | rfl
      · rw [show 64 * (pa / 64) + (pa % 64 + 0) = pa by omega]; rfl
      · rw [show 64 * (pa / 64) + (pa % 64 + 1) = pa + 1 by omega]; rfl
    · rw [if_neg hi]; simp; omega
  rw [this, leNat2]

/-- A halfword of an encoded instruction in memory. -/
theorem enc_half (i : Instr) (m : Memory) (pa k : Nat) (hk : 2 * k + 2 ≤ wordBits i / 8) (h : readBytes m pa (wordBits i / 8) = encodeBytes i) :
    BitVec.ofNat 16 ((memRead m (pa + 2 * k)).toNat + 256 * (memRead m (pa + 2 * k + 1)).toNat) = bits (encode i) (16 * k) 16 := by
  have g : ∀ j, j < wordBits i / 8 → memRead m (pa + j) = bits (encode i) (8 * j) 8 := by
    intro j hj
    have h1 := readBytes_get m pa _ j hj
    rw [h] at h1
    unfold encodeBytes at h1
    simp [hj] at h1
    exact h1.symm
  rw [g _ (by omega), show pa + 2 * k + 1 = pa + (2 * k + 1) by omega, g _ (by omega)]
  unfold bits
  apply BitVec.eq_of_toNat_eq
  simp only [BitVec.toNat_ofNat]
  rw [show 8 * (2 * k + 1) = 16 * k + 8 by omega, show 8 * (2 * k) = 16 * k by omega, Nat.pow_add, ← Nat.div_div_eq_div_mul]
  generalize encode i / 2 ^ (16 * k) = x
  omega

/-- A word of 16 bits in memory decodes as its encoding. -/
theorem word_one {i : Instr} (h : wordBits i = 16) : (bits (encode i) 0 16).toNat = encode i ∧ encode i % 2 = 0 := by
  have := (Sys2Proof.Laws.Words.all i).1 h
  refine ⟨?_, this.1⟩
  unfold bits; rw [BitVec.toNat_ofNat]; omega

/-- A word of 32 bits in memory decodes as its encoding. -/
theorem word_two {i : Instr} (h : wordBits i = 32) : (bits (encode i) 0 16).toNat % 2 = 1 ∧
    (bits (encode i) 0 16).toNat + 2 ^ 16 * (bits (encode i) 16 16).toNat = encode i := by
  have := (Sys2Proof.Laws.Words.all i).2 h
  unfold bits; rw [BitVec.toNat_ofNat, BitVec.toNat_ofNat]; omega

theorem sizes (i : Instr) : wordBits i = 0 ∨ wordBits i = 16 ∨ wordBits i = 32 := by
  cases i <;> first | exact .inl rfl | exact .inr (.inl rfl) | exact .inr (.inr rfl)

theorem readHome_data (st st' : Store) (h : st.data = st'.data) (pa n : Nat) : st.readHome pa n = st'.readHome pa n := by
  have h1 := congrArg Store.mem h
  have h2 := congrArg Store.host h
  have h3 := congrArg Store.sram h
  have h4 := congrArg Store.posted h
  have h1' : st.mem = st'.mem := h1
  have h2' : st.host = st'.host := h2
  have h3' : st.sram = st'.sram := h3
  have h4' : st.posted = st'.posted := h4
  unfold Store.readHome Store.hostSeen
  rw [h1', h2', h3', h4']

/-- What room the filter of a die makes for a line changes nothing but the coherence of lines. -/
theorem filterRoom_still (s : State) (d line : Nat) : State.Still s (s.filterRoom d line) := by
  have hl : ∀ (s : State) (line : Nat), State.Still s (s.settleLine line) := by
    intro s line
    unfold State.settleLine
    exact State.Still.foldl _ (fun s k => settle_still _ _) _ _
  unfold State.filterRoom
  cases s.store.coh.fullSet d line with
  | nil => exact .refl s
  | cons x set =>
    have h1 : State.Still s ((x :: set).foldl State.settleLine s) := State.Still.foldl State.settleLine hl (x :: set) s
    simp only []
    generalize (x :: set).foldl State.settleLine s = u at h1 ⊢
    cases u.store.coh.victim d (x :: set) with
    | none => exact h1
    | some v => exact h1.trans ((evictLine_still u d v).trans (hl _ v))

/-- A fetch keeps a copy of the sector as it stands at home, and changes nothing else but the coherence of lines. -/
theorem keepFetch_spec (s : State) (h : Holder) (k : Nat) (t : Tlb) :
    (s.keepFetch h k t).store.fetchCopy h k = some { holder := h, sector := k, data := s.store.readHome (64 * k) 64 } ∧
    (s.keepFetch h k t).core = s.core ∧ (s.keepFetch h k t).cur = s.cur ∧ (s.keepFetch h k t).time = s.time ∧ (s.keepFetch h k t).reply = s.reply := by
  unfold State.keepFetch
  simp only []
  have hs := filterRoom_still s (holderDie h) (k / 4)
  generalize s.filterRoom (holderDie h) (k / 4) = u at hs
  refine ⟨?_, ?_, ?_, ?_, ?_⟩
  · unfold Store.fetchCopy
    show List.find? _ (_ :: _) = _
    rw [List.find?_cons_of_pos (by simp), readHome_data _ _ hs.data]
  · show u.core = _; rw [hs.same]
  · show u.cur = _; rw [hs.same]
  · show u.time = _; rw [hs.same]
  · show u.reply = _; rw [hs.same]

theorem noteReply_keeps (s : State) (d pa n : Nat) : s.noteReply d pa n = { s with reply := (s.noteReply d pa n).reply } := by
  unfold State.noteReply
  simp only []
  split <;> rfl

theorem home_plain (s : State) (pa : Nat) (hh : isHost pa = false) (hd : inDevice pa = false) :
    s.store.readHome (64 * sectorOf pa) 64 = readBytes s.store.mem (64 * sectorOf pa) 64 := by
  have h1 : isHost (64 * sectorOf pa) = false := by
    unfold isHost sectorOf at *
    simp only [Bool.and_eq_false_iff, decide_eq_false_iff_not] at *; omega
  have h2 : inDevice (64 * sectorOf pa) = false := by
    unfold inDevice sectorOf at *
    simp only [decide_eq_false_iff_not] at *; omega
  unfold Store.readHome; rw [h1, h2]; rfl

/-- Fetching a halfword whose sector the fetch copies do not hold. -/
theorem fetch_new (s : State) (va : Word) (pa : Nat) (t : Tlb) (core : Nat) (ht : s.translate s.sqAgent { fetch := true } va = .ok pa t s)
    (hh : isHost pa = false) (hd : inDevice pa = false) (hc : s.store.fetchCopy (.icache core) (sectorOf pa) = none)
    (hu : s.store.unpublished (sectorOf pa) = false)
    (hm : s.markAt [.icache core] { t with nc := false } (sectorOf pa) = none) : s.fetchHalf (.icache core) s.sqAgent va =
      .ok (halfAt (readBytes s.store.mem (64 * sectorOf pa) 64) pa)
        ((s.noteReply s.dieNo (64 * sectorOf pa) 64).keepFetch (.icache core) (sectorOf pa) t) := by
  have hdev : isDevice pa = false := by unfold isDevice; rw [hd]; rfl
  have hr : s.store.readHome (64 * sectorOf pa) 64 = readBytes s.store.mem (64 * sectorOf pa) 64 := home_plain s pa hh hd
  unfold State.fetchHalf
  rw [ht]; simp only [hdev, hc, hu, hm, hr]; rfl

/-- Fetching a halfword whose sector a fetch copy holds. -/
theorem fetch_kept (s : State) (va : Word) (pa : Nat) (t : Tlb) (core : Nat) (c : DataCopy) (ht : s.translate s.sqAgent { fetch := true } va = .ok pa t s)
    (hd : isDevice pa = false) (hc : s.store.fetchCopy (.icache core) (sectorOf pa) = some c) :
    s.fetchHalf (.icache core) s.sqAgent va = .ok (halfAt c.data pa) s := by
  unfold State.fetchHalf
  rw [ht]; simp only [hd, hc]; rfl

theorem performReq_reply (s : State) (x : DueReq) : (s.performReq x).reply = s.reply := by
  have hc : ∀ (s : State) n c, (s.setCoreAt n c).reply = s.reply := by intro s n c; unfold State.setCoreAt; split <;> rfl
  unfold State.performReq
  simp only []
  split
  · exact (hc _ _ _).trans rfl
  · split
    · rfl
    · exact (hc _ _ _).trans rfl

theorem pass_reply (n : Nat) (s : State) : (s.pass n).reply = s.reply := by
  have hf : ∀ {α : Type} (f : State → α → State) (h : ∀ s a, (f s a).reply = s.reply) (l : List α) (s : State), (l.foldl f s).reply = s.reply := by
    intro α f h l
    induction l with
    | nil => intro s; rfl
    | cons a t ih => intro s; rw [List.foldl_cons, ih, h]
  induction n generalizing s with
  | zero => rfl
  | succ n ih =>
    unfold State.pass
    split
    · rfl
    · rw [ih]
      unfold State.cycle State.performDue
      exact hf _ performReq_reply _ _

theorem focus_reply (s : State) (n : Nat) : (s.focus n).reply = s.reply := by
  unfold State.focus; split <;> rfl

end Sys2Proof.Laws
end

