-- ==== Sys2Proof/Tests/Slice0.lean ====
section
/-! SUPPORT. Tests of the model on small states, and for every statement with hypotheses states that meet them. -/

namespace Sys2Proof.Tests

open Sys2Proof Sys2Proof.Machine

section

set_option linter.all false
set_option maxRecDepth 100000
set_option Elab.async false
set_option exponentiation.threshold 10000

/-! ## A small machine -/

/-- A page of 64 KiB at 0x10000 of context 1, in package memory at `frame`. -/
def page (frame : Nat) (nc : Bool := false) : Tlb :=
  { ctx := 1, base := 0x10000, size := 0x10000, frame := frame, r := true, w := true, x := false, usr := true, nc := nc, xsh := false,
    d := true, priv := false, entry := 0 }

/-- Core 0 runs in context 1 at U, with a page at 0x10000 and the bytes 1, 2, 3, 0x84 at its start. -/
def lab : State :=
  { State.reset with
    core.sq.run := .running, core.sq.ctxid := 1, core.sq.pc := 0x40, core.sq.tlb := [page 0x200000]
    core.sq.x := #v[0, 7, 0x10000, 0xFFFFFFFFFFFFFFFE, 0x10000, 3, 0, 0, 0, 0, 0, 0, 0, 0, 0, 0, 0, 0, 0, 0, 0, 0, 0, 0, 0, 0, 0, 0, 0, 0, 0, 0]
    store.mem := [(0x200000, 1), (0x200001, 2), (0x200002, 3), (0x200003, 0x84)] }

/-- The same machine with the page in host memory. -/
def labHost : State := { lab with core.sq.tlb := [page 0x800000000000] }

/-- The same machine with a page that is not coherent. -/
def labNc : State := { lab with core.sq.tlb := [page 0x200000 true] }

/-- A store held in a speculative region. -/
def heldStore : Held := { pa := 0x200000, tlb := page 0x200000, size := 4, cls := 0, hint := 0, data := 9 }

/-- The same machine inside a speculative region, with `n` stores held. -/
def labSpec (n : Nat) : State :=
  { lab with core.sq.spec.act := true, core.sq.spec.handler := 0x80, core.sq.spec.held := List.replicate n heldStore }

/-- The SQ of core 0 at S. -/
def labS : State := { lab with core.sq.trap.status.priv := 1 }

/-- The first manager core at M. -/
def labM : State := { lab with cur := 256, core.sq.trap.status.priv := 3 }

/-! ## Witnesses: the SQ's accesses -/

theorem witness_SqLoads : ∃ pa t s1 v s2, (0x10000#64).toNat % 8 = 0 ∧ lab.reach { read := true } 0x10000 = some (pa, t, s1) ∧
    s1.found (sqHolders s1.cur) .all t pa 8 = some (v, s2) := ⟨_, _, _, _, _, rfl, rfl, rfl⟩

theorem witness_SqLoads_hinted : ∃ pa t s1 v s2, lab.reach { read := true } 0x10000 = some (pa, t, s1) ∧
    s1.found (sqHolders s1.cur) (allocOf 2) t pa 8 = some (v, s2) := ⟨_, _, _, _, _, rfl, rfl⟩

theorem witness_LoadFindsMemory : (page 0x200000).nc = false ∧ isHost 0x200000 = false ∧ inDevice 0x200000 = false ∧
    lab.core.sq.spec.held = [] ∧ ∃ s2, lab.found (sqHolders 0) .all (page 0x200000) 0x200000 4 = some (0x84030201, s2) :=
  ⟨rfl, rfl, rfl, rfl, _, rfl⟩

theorem witness_LoadFindsHeld : (labSpec 1).core.sq.spec.held = [] ++ heldStore :: [] ∧ (heldStore.pa ≤ 0x200003 ∧ 0x200003 < heldStore.pa + heldStore.size) ∧
    ∃ s2, (labSpec 1).found [] .all (page 0x200000) 0x200000 4 = some (9, s2) := ⟨rfl, by decide, _, rfl⟩

/-- A younger held store covers one byte of an older one, and the load reaches past both. -/
def labMixed : State :=
  { labSpec 0 with core.sq.spec.held := [heldStore, { heldStore with pa := 0x200002, size := 1, data := 5 }] }

theorem witness_LoadFindsHeld_mixed : (∃ s2, labMixed.found [] .all (page 0x200000) 0x200000 8 = some (0x50009, s2)) ∧
    (∃ s2, labMixed.found [] .all (page 0x200000) 0x200001 1 = some (0, s2)) ∧
    ∀ h ∈ labMixed.core.sq.spec.held, ¬(h.pa ≤ 0x200004 ∧ 0x200004 < h.pa + h.size) := ⟨⟨_, rfl⟩, ⟨_, rfl⟩, by decide⟩

theorem witness_SqStores : ∃ pa t s1, lab.reach { write := true } 0x10000 = some (pa, t, s1) ∧ s1.core.sq.spec.act = false :=
  ⟨_, _, _, rfl, rfl⟩

theorem witness_SqStores_held : ∃ pa t s1, (labSpec 63).reach { write := true } 0x10000 = some (pa, t, s1) ∧
    s1.core.sq.spec.act = true ∧ s1.core.sq.spec.held.length < 64 := ⟨_, _, _, rfl, rfl, by decide⟩

theorem witness_SqStores_full : ∃ pa t s1 s2, (labSpec 64).reach { write := true } 0x10000 = some (pa, t, s1) ∧
    s1.core.sq.spec.act = true ∧ 64 ≤ s1.core.sq.spec.held.length ∧ s1.resolved = some s2 :=
  ⟨_, _, _, _, rfl, rfl, by decide, rfl⟩

theorem witness_StoreWritesMemory : (page 0x200000).nc = false ∧ isHost 0x200000 = false ∧ inDevice 0x200000 = false ∧
    (∀ c ∈ lab.store.nc, c.sector ∉ sectorsOf 0x200000 8) ∧ Memory.wf lab.store.mem = true := by decide

theorem witness_StoresElsewhere : isHost 0x800000000000 = true ∧ isHost 0x200000 = false ∧ inDevice 0x200000 = false ∧
    (∀ k ∈ sectorsOf 0x200000 [1].length, labNc.store.isCode (64 * k) = false) ∧ (page 0 true).nc = true ∧
    ∃ h ∈ sqHolders 0, ∀ k ∈ sectorsOf 0x200000 [1].length, (labNc.store.ncOf h k).isSome = true ∨
      (Alloc.all = .all ∨ Alloc.all = .stream) ∧ (labNc.store.ncRoom h k).full h k = false := by
  decide

theorem witness_SqMemoryFrame : ∃ pa t s1 u, lab.reach { write := true } (scaledAddr 4 (0#9) 3 lab) = some (pa, t, s1) ∧
    s1.core.sq.spec.act = false ∧ t.nc = false ∧ isHost pa = false ∧ inDevice pa = false ∧ s1.store.nc = [] ∧
    Memory.wf s1.store.mem = true ∧ exec (.st 1 4 0 3 0) lab = .next u := ⟨_, _, _, _, rfl, rfl, rfl, rfl, rfl, rfl, rfl, rfl⟩

theorem witness_SqMemoryFrame_load : ∃ pa t s1 u, lab.reach { read := true } (scaledAddr 4 (0#9) 3 lab) = some (pa, t, s1) ∧
    s1.marked (sqHolders s1.cur) t pa 8 = none ∧ s1.hostBusy pa = false ∧ exec (.ld 1 4 0 3 0) lab = .next u :=
  ⟨_, _, _, _, rfl, rfl, rfl, rfl⟩

theorem witness_MisalignedAccess : (scaledAddr 1 (0#9) 3 lab).toNat % szBytes 3 ≠ 0 ∧ lab.resolved = some lab ∧
    (lab.x 1).toNat % 4 ≠ 0 := by decide

theorem witness_OrderedAccess : ∃ pa t s1 v s3, lab.resolvedIf true = some lab ∧ lab.reach { read := true } (lab.x 4) = some (pa, t, s1) ∧
    (s1.atHome t pa).1.found (s1.atHome t pa).2 .all t pa 8 = some (v, s3) := ⟨_, _, _, _, _, rfl, rfl, rfl⟩

theorem witness_OrderedAccess_store : ∃ pa t s1, lab.reach { write := true } (lab.x 4) = some (pa, t, s1) ∧
    s1.releaseWaits 4 true = false := ⟨_, _, _, rfl, rfl⟩

/-- A posted write is under way, and the context may reach `.sys`. -/
def labPosted : State := { lab with core.sq.maxscope := 6, store.posted := [(0, [1])] }

theorem witness_OrderedAccess_waits : ∃ pa t s1, labPosted.reach { write := true } (labPosted.x 4) = some (pa, t, s1) ∧
    s1.releaseWaits 6 true = true := ⟨_, _, _, rfl, rfl⟩

theorem witness_OrderedAccess_atomic : ∃ pa t s1 old s2 al, lab.reach { read := true, write := true } (lab.x 4) = some (pa, t, s1) ∧
    s1.hostBusy pa = false ∧ (s1.atHome t pa).1.marked (s1.atHome t pa).2 t pa 8 = none ∧ (s1.atHome t pa).1.releaseWaits 2 true = false ∧
    s1.atomRead t pa 8 = (old, s2, al) ∧
    isHost pa = false := ⟨_, _, _, _, _, _, rfl, rfl, rfl, rfl, rfl, rfl⟩

theorem witness_OrderedAccess_hostAtomic : ∃ pa t s1 old s2 al,
    labHost.reach { read := true, write := true } (labHost.x 4) = some (pa, t, s1) ∧ s1.hostBusy pa = false ∧
    (s1.atHome t pa).1.marked (s1.atHome t pa).2 t pa 8 = none ∧ (s1.atHome t pa).1.releaseWaits 2 true = false ∧
    s1.atomRead t pa 8 = (old, s2, al) ∧ isHost pa = true :=
  ⟨_, _, _, _, _, _, rfl, rfl, rfl, rfl, rfl, rfl⟩

theorem witness_FenceAndMaintenance : lab.releaseWaits 4 true = false ∧ lab.x 0 = 0 ∧ lab.x 5 ≠ 0 ∧
    (∃ ps s1, lab.range { read := true } 0x10000 (lab.x 5) = some (ps, s1)) ∧
    ∃ ps s1, lab.range { write := true } 0x10000 (lab.x 5) = some (ps, s1) := ⟨rfl, rfl, by decide, ⟨_, _, rfl⟩, ⟨_, _, rfl⟩⟩

theorem witness_FenceAndMaintenance_patch : spadRef 0xA000000000000010 = true ∧ spadRef 0x10000 = false ∧ (∃ pa t s1,
    lab.reach { read := true, write := true } 0x10000 = some (pa, t, s1) ∧ s1.hostBusy pa = false ∧ (s1.atHome t pa).1.marked (s1.atHome t pa).2 t pa 4 = none) ∧
    (0x10000#64).toNat + (lab.x 5).toNat ≤ 2 ^ 64 :=
  ⟨rfl, rfl, ⟨_, _, _, rfl, rfl, rfl⟩, by decide⟩

/-- R341: the highest bit of a word. -/
theorem witness_PatchedBits : (31 : BitVec 5).toNat + (0 : BitVec 5).toNat < 32 := by decide

theorem witness_Translation : canonical 0x10008 = true ∧ lab.core.sq.tlb.find? (fun u => u.ctx = lab.core.sq.ctxid &&
    u.base ≤ (0x10008#64).toNat && (0x10008#64).toNat < u.base + u.size) = some (page 0x200000) ∧ (page 0x200000).usr = true ∧ isHost (page 0x200000).frame = false ∧
    lab.memoryOff (0x200000 + 8) = false ∧ lab.secureRegion (0x200000 + 8) = false ∧ ∀ d ∈ lab.dies, d.2.asleep = false := by decide


theorem witness_Translation_inv : labS.priv ≠ 0 ∧ labS.resolved = some labS ∧ labM.priv = 3 ∧ labM.resolved = some labM ∧
    labS.core.sq.invalidated = false ∧ ({ labS with core.sq.invalidated := true } : State).core.sq.invalidated = true := by decide

theorem witness_RegisterFile : (31 : BitVec 5) ≠ 0 ∧ (1 : BitVec 5) ≠ 31 := by decide

theorem witness_ControlTransfer : ({ lab with core.sq.x := vset lab.core.sq.x (1 : BitVec 5) 8 } : State).x 1 = 8 ∧ (8#64).getLsbD 0 = false ∧
    (lab.x 1 + sext64 (0#15)).getLsbD 0 = true ∧ (lab.x 1 + sext64 (1#15)).getLsbD 0 = false := by decide

theorem witness_ScalarFrame : ∃ t, exec (.add 6 1 2 0) lab = .next t := ⟨_, rfl⟩

/-! ## Witnesses: speculation, queues, traps and system registers -/

theorem witness_SpeculativeRegion : (labSpec 1).core.sq.spec.act = true ∧ (labSpec 1).core.sq.spec.checks = [] ∧
    (labSpec 1).core.sq.spec.held = [heldStore] ∧ heldStore.tlb.nc = false ∧ isHost heldStore.pa = false ∧ inDevice heldStore.pa = false ∧
    (∀ c ∈ (labSpec 1).store.nc, c.sector ∉ sectorsOf heldStore.pa heldStore.size) ∧
    Memory.wf (labSpec 1).store.mem = true ∧ lab.resolved = some lab ∧ lab.core.sq.spec.act = false := by decide

/-- A check predicts 5 from the VE, whose queue holds `q`. -/
def labCheck (q : List Word) : State :=
  { lab with core := { lab.core.setOutcome 2 0 q with sq.spec.act := true, sq.spec.checks := [{ unit := 2, predicted := 5 }] } }

theorem witness_CheckResolution : (labCheck []).core.outcome 2 0 = [] ∧ (labCheck [5]).core.outcome 2 0 = [5] ∧
    (labCheck [6]).core.outcome 2 0 = [6] ∧ (labCheck [6]).core.sq.spec.checks = [{ unit := 2, predicted := 5 }] := by decide

theorem witness_CommandQueue : Engine.ofId 2 = some .ve ∧ (lab.eng .ve).accepts lab.cur = true ∧ lab.renqTarget 1 = false ∧
    (lab.eng .ve).q.all (fun y => y ≠ .marker) = true := by decide

/-- A group of cores 0 to 3, of size code 1. -/
def labGroup : State := { lab with groups := [{ id := 1, ctx := 1, launch := 1, node := 0, index := 0, size := 1, prio := 0, st := .running }] }

theorem witness_CommandQueue_remote : labGroup.renqTarget 1 = true ∧ (spadRef (labGroup.x 1) && 1 / 4 ≠ labGroup.quadNo) = false ∧
    ((labGroup.coreAt 1).eng .ve).accepts labGroup.cur = true := by decide

/-- Core 1's VE queue is full. -/
def labFull : State := labGroup.setCoreAt 1 { Core.fresh with ve.q := List.replicate 64 (.entry {}) }

theorem witness_CommandQueue_full : labFull.renqTarget 1 = true ∧ ((labFull.coreAt 1).eng .ve).accepts labFull.cur = false := by decide

/-- Tokens and values in the VE's queues toward the SQ. -/
def labTok : State := { lab with core := (lab.core.setTokq 2 0 { present := 1 }).setOutcome 2 0 [4] }

theorem witness_TokensAndOutcomes : (labTok.core.tokq 2 0).present ≠ 0 ∧ labTok.resolved = some labTok ∧
    labTok.core.outcome 2 0 = [4] ∧ (labTok.core.tokq 0 2).present + (labTok.core.tokq 0 2).reserved < 15 ∧
    labTok.core.outcomeRoom 0 2 = true := by decide

theorem witness_TokensAndOutcomes_full : 15 ≤ ((lab.core.setTokq 0 2 { present := 15 }).tokq 0 2).present := by decide

theorem witness_TokensAndOutcomes_predicted : (labSpec 0).core.sq.spec.act = true ∧ (labSpec 0).core.sq.stalledAt = none ∧
    (labSpec 0).core.sq.spec.checks.length < 4 ∧ (labSpec 0).core.outcome 2 0 = [] := by decide

theorem witness_EngineControl : lab.resolved = some lab ∧ ∀ f ∈ maskEngines 2, (lab.pushMarkers (maskEngines 2)).core.sq.fencePushed.getLsbD f.id = true ∧
    .marker ∉ ((lab.pushMarkers (maskEngines 2)).eng f).q := by decide

theorem witness_GroupBarriers : labGroup.resolved = some labGroup ∧ labGroup.groupOf labGroup.cur = some (labGroup.groups.getD 0 default) ∧
    labGroup.core.sq.bar = none ∧ labGroup.cur - 0 ∉ (smGet (labGroup.groups.getD 0 default).barriers (barKey 1 0 0) {}).arrived := by
  decide

/-- The SQ waits at a barrier of the cluster for generation 0 to pass. -/
theorem witness_GroupBarriers_waits : let w : BarWord := { pc := 0x40, key := barKey 1 0 0, gen := 0 }
    ({ labGroup with core.sq.bar := some w } : State).core.sq.bar = some w ∧ w.pc = labGroup.core.sq.pc ∧ w.key = barKey 1 0 0 := by decide

theorem witness_GroupBarriers_last : ({ arrived := [1, 2, 3] } : Barrier).arrived.length + 1 = 4 ∧
    ({ arrived := [1] } : Barrier).arrived.length + 1 < 4 := by decide

/-- The context may hold 4 entries of the priority queues. -/
def labPq (pq : List PqEntry) : State := (lab.setCtx 1 { lab.ctxAt 1 with quota := 4 }).setDie 0 { lab.dieAt 0 with pq := pq }

theorem witness_PriorityQueues : (labPq []).pqHeld ((labPq []).pqTarget ((labPq []).pqReach 3)) <
    ((labPq []).ctxAt (labPq []).core.sq.ctxid.toNat).quota.toNat ∧ ((labPq []).dieAt 0).pq.length < 65536 ∧ (labPq []).pqCandidates 3 = [] := by decide

/-- A queue whose only entry the free choice cannot pass by. -/
theorem witness_PriorityQueues_some : let s := labPq [{ seq := 1, key := 2, value := 3, ctx := 1 }]
    ((s.pqCandidates 3).drop (Config.freeChoice s.freeN (s.pqCandidates 3).length)).head? = some { seq := 1, key := 2, value := 3, ctx := 1 } := by
  intro s
  have h : s.pqCandidates 3 = [{ seq := 1, key := 2, value := 3, ctx := 1 }] := by decide
  rw [h]; simp [Config.freeChoice, Nat.mod_one]

theorem witness_TrapTaken : lab.core.sq.spec.act = false ∧ lab.priv = 0 ∧ labM.priv = 3 ∧ labM.core.sq.spec.act = false ∧
    (labSpec 0).core.sq.spec.act = true := by decide

/-- The SQ is in its handler at S. -/
def labHandler : State := { labS with core.sq.trap.status.intrap := true }

/-- An engine fault of the VE is pending, and interrupts are enabled. -/
def labFault : State := { lab with core.sq.pending := 4, core.sq.trap.status.ie := true }

theorem witness_EngineAndDoubleTraps : labHandler.priv = 1 ∧ labHandler.core.sq.trap.status.intrap = true ∧
    labFault.sqLive = true ∧ labFault.ieNow = true ∧ labFault.core.firstPending = some .ve ∧ labFault.priv = 0 := by decide

theorem witness_ExceptionReturn : labS.resolved = some labS ∧ labS.priv = 1 ∧ labM.resolved = some labM ∧ labM.priv = 3 := by decide

theorem witness_Privilege_writes : (∃ a, regAccess 0x009 = some a ∧ a.at lab.priv = .read ∧ a.writable = true) ∧ lab.sysFault 0x009 = none ∧
    (∃ a, regAccess 0x00A = some a ∧ a.at labS.priv = .read ∧ a.writable = true) ∧ labS.sysFault 0x00A = none ∧
    0x2FF < (0x300#12).toNat := ⟨⟨_, rfl, rfl, rfl⟩, rfl, ⟨_, rfl, rfl, rfl⟩, rfl, by decide⟩

theorem witness_Privilege : lab.priv = 0 ∧ labS.priv = 1 ∧ (labS.x 5).setWidth 6 ≠ labS.core.sq.ctxid ∧
    lab.sysFault 0x200 = some .privilege ∧ regAccess 0x0FF = none ∧ lab.sysFault 0x0FF = some .illegalInstruction := by decide

theorem witness_SystemRegisters : labM.sysFault 0x000 = none ∧ (∃ a, regAccess 0x000 = some a ∧ a.at labM.priv = .write) ∧
    (∃ a, regAccess 0x008 = some a ∧ a.writable = false ∧ a.at labM.priv ≠ .write) ∧ labM.sysFault 0x14A = none := by
  refine ⟨rfl, ⟨_, rfl, rfl⟩, ⟨_, rfl, rfl, by decide⟩, rfl⟩

/-- The ranges of numbers meet at assigned registers and at numbers that no register has. -/
theorem witness_SystemRegisters_ranges : (∃ a, regAccess 0x100 = some a ∧ a.at labM.priv = .write) ∧ labM.sysFault 0x100 = none ∧
    regAccess 0x17F = none ∧ labM.sysFault 0x17F = some .illegalInstruction ∧
    (∃ a, regAccess 0x180 = some a ∧ a.at labM.priv = .write) ∧ labM.sysFault 0x180 = none ∧
    regAccess 0x1FF = none ∧ labM.sysFault 0x1FF = some .illegalInstruction ∧
    (∃ a, regAccess 0x200 = some a ∧ a.writable = false ∧ a.at labM.priv ≠ .write) ∧ labM.sysFault 0x200 = none ∧
    (∃ a, regAccess 0x202 = some a ∧ a.at labM.priv = .write) ∧ labM.resolved = some labM :=
  ⟨⟨_, rfl, rfl⟩, rfl, rfl, rfl, ⟨_, rfl, rfl⟩, rfl, rfl, rfl, ⟨_, rfl, rfl, by decide⟩, rfl, ⟨_, rfl, rfl⟩, rfl⟩

theorem witness_SystemRegisters_after : ∃ u, exec (.wrsys 2 0x001) labS = .next u ∧ labS.sysFault 0x001 = none ∧
    (∃ a, regAccess 0x001 = some a ∧ a.at labS.priv = .write) ∧ labS.core.sq.vmodeAt ≠ some labS.time ∧ (labS.x 2).toNat / 4 % 4 ≤ 1 :=
  ⟨_, rfl, rfl, ⟨_, rfl, rfl⟩, by decide, by decide⟩

theorem witness_SystemRegisters_effects : lab.anyBusy [2] = false ∧ lab.quiet [.ae, .ve, .me] = true ∧
    (lab.setEng .ve { lab.eng .ve with q := [.entry {}] }).quiet [.ae, .ve, .me] = false ∧
    ((lab.setEng .ve { lab.eng .ve with frz := true }).eng .ve).frz = true := by decide

theorem witness_TimeAndWaits : lab.time.toNat < (lab.x 4).toNat ∧ (lab.x 0).toNat ≤ lab.time.toNat ∧
    (lab.core.tokq 2 0).present = 0 ∧ (labTok.core.tokq 2 0).present ≠ 0 ∧ labFault.core.sq.pending ≠ 0 := by decide

/-! ## Witnesses: the control words and the VE -/

/-- A view of `count` granules from granule `2 * base` on, of element type `ty`. -/
def mkView (ty scaled base count : Nat) : BitVec 128 := BitVec.ofNat 128 (ty + scaled * 16 + 2 ^ 8 + base * 2 ^ 16 + count * 2 ^ 32)

/-- An engine runs a word of an entry, in core 0. -/
def labEng (e : Engine) : State :=
  { lab.setEng e { lab.eng e with q := [.entry {}], st := .running, len := 64 } with actor := e }

/-- The VE, with views of i32, f32, i8, f32 once more, scaled e4m3 and scaled i8. -/
def labVe : State :=
  { labEng .ve with core.regs.view :=
      #v[mkView 4 0 0 16, mkView 8 0 8 16, mkView 0 0 16 16, mkView 8 0 24 16, mkView 9 1 32 16, mkView 0 1 40 16, 0, mkView 4 0 48 16] }

theorem witness_ViewsAndDescriptors : ∃ pa t s1 v s2, lab.reach { read := true } (lab.x 4) = some (pa, t, s1) ∧
    lab.quiet [.ae, .ve, .me] = true ∧ lab.quiet [.ae, .me, .ce] = true ∧ s1.found (sqHolders s1.cur) .all t pa 16 = some (v, s2) ∧ v % 64 = 1 :=
  ⟨_, _, _, _, _, rfl, rfl, rfl, rfl, rfl⟩

theorem witness_ViewsAndDescriptors_record : ∃ pa t s1 v s2, lab.reach { read := true } (lab.x 4) = some (pa, t, s1) ∧
    s1.found (sqHolders s1.cur) .all t pa 64 = some (v, s2) ∧ (labEng .ae).quiet [.ae, .ve, .me] = false ∧ (labEng .ce).quiet [.ae, .me, .ce] = false :=
  ⟨_, _, _, _, _, rfl, rfl, rfl, rfl⟩

theorem witness_ControlWords : ({ labVe with core := labVe.core.setOutcome 1 2 [0] }).core.outcome 1 labVe.actor.id = [0] ∧
    labVe.core.outcomeRoom labVe.actor.id 0 = true := by decide

theorem witness_RotatedViews : viewWf (mkView 4 0 0 16) = true ∧ viewCount (mkView 4 0 0 16) ≠ 0 ∧
    (((0 : Nat) : Int) - (BitVec.ofNat 10 (seg (mkView 4 0 0 16).toNat 48 10)).toInt) % (viewCount (mkView 4 0 0 16) : Int) = 0 := by
  decide

theorem witness_VectorArithmetic_int : Ty.isInt .i32 = true ∧ ∃ a b dst c,
    labVe.veReady .i32 [0, 1, 2] [0, 1, 2] [] [1, 2] 0 = some ([a, b], dst, c) := ⟨rfl, _, _, _, _, rfl⟩

theorem witness_VectorArithmetic_float : Ty.isWide .f32 = true ∧ ∃ a b dst c,
    labVe.veReady .f32 [16, 17, 18] [16, 17, 18] [] [17, 18] 16 = some ([a, b], dst, c) := ⟨rfl, _, _, _, _, rfl⟩

theorem witness_VectorArithmetic_fused : ∃ a b old dst c,
    labVe.veReady .f32 [16, 17, 18] [16, 17, 18] [] [17, 18, 16] 16 = some ([a, b, old], dst, c) := ⟨_, _, _, _, _, rfl⟩

theorem witness_VectorArithmetic_dot : dotType labVe.core .i32 32 = some .i8 ∧ ∃ a b old dst c,
    labVe.veReady .i32 [0] [0] [32, 33] [32, 33, 0] 0 = some ([a, b, old], dst, c) := ⟨rfl, _, _, _, _, _, rfl⟩

theorem witness_VectorUnary : (∃ a dst c, labVe.veReady .i32 [0, 1] [0, 1] [] [1] 0 = some ([a], dst, c)) ∧
    (∃ a dst c, labVe.veReady .f32 [16, 17] [16, 17] [] [17] 16 = some ([a], dst, c)) ∧
    (mainOnly 0 && mainOnly 128 && (0 : BitVec 1) = 0) = false := ⟨⟨_, _, _, rfl⟩, ⟨_, _, _, rfl⟩, rfl⟩

theorem witness_VectorUnary_move : ∃ v i g a dst c, mainOnly 0 = true ∧ operand 1 = .main v i ∧ labVe.core.granuleOf v i = some g ∧
    tagBound (labVe.core.regs.tagOf g) = false ∧ labVe.veReady .i32 [0, 1] [0, 1] [] [1] 0 = some ([a], dst, c) :=
  ⟨0, 1, 1, _, _, _, rfl, rfl, rfl, rfl, rfl⟩

theorem witness_VectorUnary_convert : (∃ a dst c, labVe.veReady .f32 [16] [16] [1] [1] 16 = some ([a], dst, c)) ∧
    labVe.core.wordType [1] = some .i32 ∧ (∃ dst c, labVe.veReady .i32 [0] [0] [] [] 0 = some ([], dst, c)) ∧
    ∃ dst c, labVe.veReady .i8 [32] [32] [] [] 32 = some ([], dst, c) := ⟨⟨_, _, _, rfl⟩, rfl, ⟨_, _, rfl⟩, ⟨_, _, rfl⟩⟩

theorem witness_VectorSelection : (∃ a b dst c, labVe.veReady .f32 [16, 17, 1] [16, 17] [1] [17, 1] 16 = some ([a, b], dst, c)) ∧
    ∃ a b dst c, labVe.veReady .f32 [16, 32, 17] [16, 17] [32] [32, 17] 16 = some ([a, b], dst, c) :=
  ⟨⟨_, _, _, _, rfl⟩, ⟨_, _, _, _, rfl⟩⟩

theorem witness_VectorSelection_compare : labVe.core.wordType [0, 1] = some .i32 ∧ labVe.core.operandOk (some .i32) 0 = true ∧
    ∃ a b c, labVe.core.readSources labVe.act.entry.args 32 [0, 1] = .ok ([a, b], c) := ⟨rfl, rfl, _, _, _, rfl⟩

/-- A write of the VE to granule 0 lands in the next cycle. -/
def labLand : Core :=
  { labVe.core with vex.pend := [{ left := 1, dests := [.gran 0], data := [5], merge := 1, esz := 4, tag := .clear, latch := true }] }

theorem witness_VectorLanding : labLand.ve.frz = false ∧ labLand.halted = false ∧
    labLand.vex.pend = [{ left := 1, dests := [.gran 0], data := [5], merge := 1, esz := Ty.size .i32, tag := .clear, latch := true }] := by
  decide

theorem witness_VectorLanding_wait : (∀ w, w ∈ [({ left := 2, dests := [.gran 0], data := [5], merge := 1, tag := .clear } : VWrite)] → 2 ≤ w.left) ∧
    labVe.core.ve.frz = false ∧ labVe.core.halted = false := by
  refine ⟨fun w h => ?_, rfl, rfl⟩
  rw [List.mem_singleton.mp h]

/-- Granule 64 holds scales of group 0. -/
def labScaled : State :=
  { labVe with core.regs := { labVe.core.regs with tag := [(64, mkTag 0 0)], group := [(0, { count := 1 })], free := [1, 2] } }

theorem witness_ScaledWords : labScaled.core.scaledGranule 64 = some 64 ∧ labScaled.core.scaledGranule 65 = some 65 ∧
    labScaled.core.regs.checkBinding 64 = .ok 0 ∧ labScaled.core.operandOk none 1 = true ∧
    (∃ v c, labScaled.core.readSource labScaled.act.entry.args 8 1 = .ok (v, c)) ∧
    (∃ k c, labScaled.core.allocate = some (k, c)) ∧ ∃ dst c, labScaled.core.veTarget 1 = .ok (dst, c) :=
  ⟨rfl, rfl, rfl, rfl, ⟨_, _, rfl⟩, ⟨_, _, rfl⟩, ⟨_, _, rfl⟩⟩

theorem witness_ScaledWords_convert : (labScaled.core.operandView 64).bind viewType = some .e4m3 ∧
    labScaled.core.wordType [16] = some .f32 ∧ spanOver 16 4 = false ∧ ∃ regs, labScaled.core.span 16 4 = some regs :=
  ⟨rfl, rfl, rfl, _, rfl⟩

/-! ## Witnesses: the AE and the ME -/

/-- The AE, whose pointers hold 0x10000 and whose streams hold the page. -/
def labAe : State :=
  { labEng .ae with
    core.ae.ptr := Vector.replicate 16 0x10000, core.stream := (List.range 64).map fun k => (k, page 0x200000)
    core.regs.view := labScaled.core.regs.view
    core.regs.tag := labScaled.core.regs.tag, core.regs.group := labScaled.core.regs.group, core.regs.free := [1, 2] }

theorem witness_Pointers : labAe.ptrsReady [1, 2] = true ∧ condOf 0 = some (Cond.eq) ∧ labAe.core.outcomeRoom labAe.actor.id 0 = true := by
  decide

theorem witness_Pointers_load : ∃ x s1 pa t bs s2, labAe.memReady [1, 2] 1 = true ∧ labAe.inOrder 0 = true ∧ (labAe.ptr 1).toNat % 8 = 0 ∧
    labAe.span (labAe.streamAgent 1) { read := true } [(labAe.ptr 1, 8)] = some ([x], s1) ∧ x.res = .ok (pa, t) ∧
    s1.marked s1.engHolders t pa 8 = none ∧ s1.loadPhys s1.engHolders .all t pa 8 = (bs, s2) :=
  ⟨_, _, _, _, _, _, rfl, rfl, rfl, rfl, rfl, rfl, rfl⟩

theorem witness_VectorMemory : labAe.memReady [1] 16 = true ∧ labAe.inOrder 0 = true ∧ (labAe.ptr 1).toNat % 64 = 0 ∧ (∃ put, labAe.loadTarget 0 = some put) ∧
    (∃ todo s1, labAe.sectorsLeft (labAe.streamAgent 1) { read := true } (labAe.ptr 1) 1024 = some (todo, s1)) :=
  ⟨rfl, rfl, rfl, ⟨_, rfl⟩, ⟨_, _, rfl⟩⟩

theorem witness_VectorMemory_store : ∃ src c todo s1, labAe.storeBytes 0 = some (src, c) ∧
    (labAe.keepSource src).sectorsLeft (labAe.streamAgent 1) { write := true } (labAe.ptr 1) src.length = some (todo, s1) := ⟨_, _, _, _, rfl, rfl⟩

/-- The pointers of the AE hold an address that no access may have. -/
def labOdd : State := { labAe with core.ae.ptr := Vector.replicate 16 0x10001 }

theorem witness_VectorMemory_misaligned : labOdd.memReady [1] 16 = true ∧ labOdd.inOrder 0 = true ∧ (labOdd.ptr 1).toNat % 64 ≠ 0 ∧
    (labOdd.loadTarget 0).isSome = true ∧ (labOdd.storeBytes 0).isSome = true ∧
    labOdd.memReady (1 :: (List.range 1).map fun j => 4 + BitVec.ofNat 4 j) 16 = true := by decide

theorem witness_ScratchpadAccess : (∃ put, labAe.loadTarget 0 = some put) ∧ (∃ g c, labAe.storeValue 0 = some (g, c)) ∧
    (∃ g, labAe.core.aeOperand 0 = some (.gran g)) ∧ (∃ o, labAe.core.aeOperand 128 = some (.ofile o)) ∧
    Memory.wf (labAe.quadAt labAe.quadNo).spad = true ∧ labAe.window.2 ≠ 0 ∧ [1, 2].length ≤ labAe.window.2 :=
  ⟨⟨_, rfl⟩, ⟨_, _, rfl⟩, ⟨_, rfl⟩, ⟨_, rfl⟩, rfl, by decide, by decide⟩

/-- A scratchpad access in flight holds the next of its class back to its own cycle (R193, R199). -/
theorem witness_ScratchpadAccess_order :
    let a : AeLoad := { dest := .none, spad := true, reqsLeft := [{ cycle := 30, off := 0, op := .incr }] }
    (State.spadLoad { labAe with core.loads := [a] } 0 [(64, .incr)] none noDest).core.loads.map (fun l => l.reqsLeft.map (·.cycle)) =
      [[30], [30]] := by decide

/-- The pointers from 4 on hold row numbers. -/
def labRows : State := { labAe with core.ae.ptr := #v[0x10000, 0x10000, 0, 0, 0, 1, 2, 3, 4, 5, 6, 7, 0, 0, 0, 0] }

theorem witness_TableAccess : labRows.memReady (1 :: (List.range 1).map fun j => 4 + BitVec.ofNat 4 j) 16 = true ∧
    ∃ buf z s1, State.rowsRead (labRows.streamAgent 1) 1024 false ((List.range 1).map fun j =>
      (j, labRows.ptr 1 + labRows.ptr (4 + BitVec.ofNat 4 j) * 1024)) [] 0 labRows = some (buf, z, s1) := ⟨rfl, _, _, _, rfl⟩

theorem witness_TableAccess_store : (labRows.storeBytes 0).isSome = true ∧
    (State.rowsWritten (labRows.streamAgent 1) (List.replicate 1024 0) ((List.range 16).map fun i =>
      (i, labRows.ptr 1 + labRows.ptr (4 + BitVec.ofNat 4 (i / 2)) * 128 + BitVec.ofNat 64 (64 * (i % 2))))
      (labRows.keepSource (List.replicate 1024 0))).isSome = true := by
  decide +kernel

/-- A tensor of 64 rows of 1024 columns of E4M3 with scales at 0x18000; a weight matrix of one tile of INT8. -/
def tensorDesc : BitVec 512 := BitVec.ofNat 512 ((9 + 16 + 2 ^ 63) + (64 + 1024 * 2 ^ 32) * 2 ^ 64 + 1024 * 2 ^ 128 + 0x18000 * 2 ^ 192 + 64 * 2 ^ 256)
def weightDesc : BitVec 512 := BitVec.ofNat 512 (2 ^ 63 + (128 + 128 * 2 ^ 32) * 2 ^ 64 + 128 * 2 ^ 128)

theorem witness_descriptors : descWf tensorDesc = true ∧ descWf weightDesc = true := by decide

/-- The AE with the tensor under descriptor 1, and coordinate (0, 0). -/
def labTensor : State :=
  State.setCtx { labAe with core.ae.ptr := #v[0x10000, 0, 0x10000, 0, 0, 0, 0, 0, 0, 0, 0, 0, 0, 0, 0, 0] } 1
    { st := .running, desc := [(1, tensorDesc), (2, weightDesc)] }

theorem witness_TableAccess_tensor : labTensor.memReady [0, 1] 17 = true ∧ labTensor.inOrder 0 = true ∧
    ({ desc := labTensor.descriptor 1, base := labTensor.ptr 0 } : Tensor).ok 0 = true ∧
    labTensor.core.tensorGranule 65 tensorDesc = some 65 ∧
    ∃ k s0 buf s1 sc s2, labTensor.groupHeld = some (k, s0) ∧
      State.runsRead (s0.streamAgent 0) .stream [(0, 0x10000, 1024)] [] s0 = some (buf, s1) ∧
      State.runsRead (s1.streamAgent 1) .stream [(1, 0x18000, 32)] [] s1 = some (sc, s2) :=
  ⟨rfl, rfl, rfl, rfl, _, _, _, _, _, _, rfl, rfl, rfl⟩

theorem witness_TableAccess_segments : let t : Tensor := { desc := labTensor.descriptor 1, base := labTensor.ptr 0 }
    t.segments 0 0 = [0x10000] ∧ t.scaleRuns 0 0 = [0x18000] ∧ t.rows = 1 ∧ t.wg = 1024 ∧ t.requests 0 0 = 17 ∧
      t.cls 0 = 0 ∧ allocOf (descHint t.desc) = .stream := by decide

theorem witness_TableAccess_written : labTensor.core.loading (.gran 64) = false ∧ labTensor.act.part = none ∧
    labTensor.core.regs.checkBinding 64 = .ok 0 ∧ ∃ s1, State.runsWritten (labTensor.streamAgent 0) .stream
      (scaledBytes labTensor.core.regs 64 0)
      (Tensor.runs { desc := labTensor.descriptor 1, base := labTensor.ptr 0 } 0 0)
      (labTensor.keepSource (scaledBytes labTensor.core.regs 64 0)) = some s1 := ⟨rfl, rfl, rfl, _, rfl⟩

/-- An STT and a SPILLP that have stood keep what they had read. -/
theorem witness_TableAccess_kept : ((((labTensor.keepSource (List.replicate 1056 0)).act.part.map (·.src)).getD []).length = 1056 ∧
    (((labTensor.keepSource (List.replicate 1058 0)).act.part.map (·.src)).getD []).length = 1058) := by decide +kernel

/-- The record that a SPILLP writes and a FILLP reads is in host memory. -/
def labRecord (host : Memory) : State :=
  { labTensor with core.stream := (List.range 64).map fun k => (k, page 0x800000000000), store.host := host }

/-- A SPILLP that has written all of its units but the last. -/
def labSpill : State := (labRecord []).upd fun e => { e with part := some { done := List.range 16 } }

theorem witness_TableAccess_records : labSpill.memReady [0] 17 = true ∧ labSpill.inOrder 0 = true ∧ labSpill.core.aeOperand 64 = some (.gran 64) ∧
    (labSpill.ptr 0).toNat % 64 = 0 ∧ labSpill.core.loading (.gran 64) = false ∧
    labSpill.core.regs.current (labSpill.core.regs.tagOf 64) = true ∧
    (State.runsWritten (labSpill.streamAgent 0) .all (recordBytes labSpill.core.regs 64) (recordUnits (labSpill.ptr 0))
      (labSpill.keepSource (recordBytes labSpill.core.regs 64))).isSome = true := by
  decide +kernel

theorem witness_TableAccess_bound : ((State.runsRead ((labRecord [(0x421, 0x80)]).streamAgent 0) .all
    ((recordUnits 0x10000).map fun u => (u.1, u.2.2.1, u.2.2.2)) [] (labRecord [(0x421, 0x80)])).any fun r =>
      (leNat (r.1.drop 1056)).testBit 15 && r.2.core.allocate.isSome) = true := by
  decide +kernel

theorem witness_TableAccess_unbound : ((State.runsRead ((labRecord []).streamAgent 0) .all
    ((recordUnits 0x10000).map fun u => (u.1, u.2.2.1, u.2.2.2)) [] (labRecord [])).any fun r =>
      !(leNat (r.1.drop 1056)).testBit 15) = true := by
  decide +kernel

/-- Loads in flight: to granule 3, to pointer 2, a scratchpad access that is due at 5, one that is due, and a load to queue dq1; a push to
sq1 lands in the next cycle. -/
def labLoads : State := { labAe with
  core.loads := [{ dest := .gran 3, data := 1 }, { dest := .ptr 2, value := 7 }, { dest := .none, spad := true, due := 5 },
    { dest := .none, spad := true }, { dest := .dq 1 0 }]
  core.vex.pend := [{ left := 1, dests := [.sq 1 0], data := [0], merge := 0, tag := .clear }] }

theorem witness_TableAccess_returns : (labLoads.core.loads[1]?.map (·.dest)) = some (.ptr 2) ∧
    (labLoads.core.loads[0]?.map (·.spad)) = some false ∧ (labLoads.core.loads[2]?.map (·.spad)) = some true ∧
    labLoads.time.toNat < 5 ∧ (labLoads.core.loads[3]?.map fun l => (l.reqsLeft, l.due)) = some ([], 0) ∧
    (labLoads.core.loads[4]?.map (·.dest)) = some (.dq 1 0) ∧ labLoads.core.pushDue 1 = true ∧ labLoads.core.ve.frz = false ∧
    labLoads.core.halted = false := by decide

/-- The ME of core 0, which holds the lease of its quad, with pointer 0 at a tile of INT8 weights. -/
def labMe : State :=
  State.setQuad { (labTensor.setEng .me { q := [.entry {}], st := .running, len := 64 }) with
    actor := .me, core.mex.q := Vector.replicate 8 { addr := 0x10000, id := 2, grow := false } } 0
    { Quad.fresh 0xFFFF with lease := { holder := 0, grants := 1 } }

theorem witness_MatrixWords : (∀ r ∈ labMe.core.mex.running, 0 ∉ r.accs) ∧ labMe.core.outcomeRoom labMe.actor.id 0 = true := by decide

theorem witness_MatrixWords_multiply : ∃ s1 grans tiles s2 w, labMe.core.mex.plan = none ∧ labMe.leased = some s1 ∧
    (s1.quadAt s1.quadNo).plmask = 0xFFFF ∧ s1.core.aType 32 = some .i8 ∧ s1.core.aGrans 32 8 = some grans ∧
    State.panel 0 false 1 0 s1 = some (tiles, s2) ∧ s2.core.aScaled 32 false = false ∧
    serveAllTiles 0xFFFF false (tiles.zipIdx.map fun x => (x.2, x.1)) { bank := (s2.quadAt s2.quadNo).plate } = .ok w ∧
    s2.core.accBusy (mmulTiles 0 32 1 grans) true = false ∧
    s2.mayFill tiles (growPanel s2.core 0xFFFF 0 (tiles.zipIdx.map fun x => (x.2, x.1)) w) = true :=
  ⟨_, _, _, _, _, rfl, rfl, rfl, rfl, rfl, rfl, rfl, rfl, rfl, rfl⟩

/-- The fills of a word have ended. -/
def labFilled : State := { labMe with core.mex.plan := some { copies := [[0]], found := [true], missed := [false], fills := [] } }

theorem witness_MatrixWords_filled : ∃ p s1, labFilled.filled = some (p, s1) ∧ labFilled.core.aType 32 = some .i8 := ⟨_, _, rfl, rfl⟩

theorem witness_MatrixWords_sums : (List.replicate 128 0 : List Nat).length = 128 ∧
    ∀ l ∈ List.replicate 128 (List.replicate 128 0), l.length = 128 ∧ ∀ x ∈ l, x < 4294967296 := by
  refine ⟨by simp, fun l h => ?_⟩
  rw [List.eq_of_mem_replicate h]
  exact ⟨by simp, fun x hx => by rw [List.eq_of_mem_replicate hx]; norm_num⟩

/-- A row with scales, none of whose products meets a NaN; with the scale of a block NaN it meets one. -/
theorem witness_MatrixWords_scaled : ¬ ((.e4m3 : Ty) = .i8 ∧ (.i8 : Ty) = .i8 ∧ true = false) ∧
    ({ elems := List.replicate 128 0, xa := List.replicate 4 (some 0) } : ARow).elems.length = 128 ∧
    (∀ k, k < 4 → (List.replicate 4 (some (0 : Int))).getD k none ≠ none) ∧ Ty.value .e4m3 0 ≠ .nan ∧ Ty.value .i8 0 ≠ .nan ∧
    ([none, some 0, some 0, some 0] : List (Option Int)).getD 0 none = none := by decide

theorem witness_PlateBank_victim : victim (Vector.replicate 16 {}) 0x0F00 [8] = some 9 := by decide

theorem witness_PlateBank : ∃ s1 t s2 w, labMe.leased = some s1 ∧ s1.core.mex.plan = none ∧ s1.tileAt true 0 false = some (t, s2) ∧
    copiesOf (s2.quadAt s2.quadNo).plate 0xFFFF t.pa t.fmt = [] ∧
    Want.serve 0xFFFF false { bank := (s2.quadAt s2.quadNo).plate } 0 t = some w ∧ s2.mayFill [t] w = true ∧
    s2.mayFill [t] (growTile (fun w => victim w.bank 0xFFFF w.prot) 2 0 t 8 w) = true ∧ s2.anyBusy [] = false ∧
    s2.core.outcomeRoom s2.actor.id 0 = true := ⟨_, _, _, _, rfl, rfl, rfl, rfl, rfl, rfl, rfl, rfl, rfl⟩

/-- Plate 0 holds a copy of the tile. -/
def labResident : State :=
  State.setQuad labMe 0 { labMe.quadAt 0 with plate := setPlate (labMe.quadAt 0).plate 0 { addr := 0x200000, valid := true } }

theorem witness_PlateBank_resident : ∃ s1 t s2 t' s2', labResident.leased = some s1 ∧ s1.tileAt true 0 false = some (t, s2) ∧
    copiesOf (s2.quadAt s2.quadNo).plate (s2.quadAt s2.quadNo).plmask t.pa t.fmt = [0] ∧ s2.anyBusy [0] = false ∧
    s1.tileAt false 0 false = some (t', s2') ∧ copiesOf (s2'.quadAt s2'.quadNo).plate (s2'.quadAt s2'.quadNo).plmask t'.pa t'.fmt = [0] ∧
    s2'.anyBusy [0] = false ∧ s2'.core.outcomeRoom s2'.actor.id 0 = true :=
  ⟨_, _, _, _, _, rfl, rfl, rfl, rfl, rfl, rfl, rfl, rfl⟩

/-- A plate is filling, an MMUL runs, and the bank is free while core 1 waits for it. -/
def labBank : State :=
  State.setCoreAt (State.setQuad { labMe with core.mex.running := [{ doneAt := 0, accs := [0], plates := [0], hits := 1, misses := 0 }] } 0
    { Quad.fresh 0xFFFF with plate := setPlate (Vector.replicate 16 {}) 0 { valid := true, filling := true } })
    1 { Core.fresh with me.wait := 8 }

theorem witness_PlateBank_events : (plateAt (labBank.quadAt 0).plate 0).filling = true ∧ (labBank.quadAt 0).lease.holder = 7 ∧
    (labBank.quadAt 0).power = .p0 ∧ labBank.asksLease ((3 + 2) % 4) = true ∧ labBank.asksLease ((3 + 1) % 4) = false ∧
    (labBank.quadAt 0).lease.last = 3 ∧ (∀ j, j < 4 → (labBank.coreAt j).mex.plan = none) ∧ (labBank.quadAt 0).lease.freeAt = 0 ∧
    labBank.core.mex.running.length = 1 ∧ ((labBank.quadAt 0).spare.getD 0 0).toNat + 32 ≤ 32 := by
  decide

theorem witness_PlateBank_runEnd : (16 : Nat) ≤ ({ holder := 0, words := 16 } : Lease).words ∧ ({ holder := 0, words := 16 } : Lease).holder < 4 ∧
    (labMe.coreAt 0).mex.plan = none ∧ (labMe.coreAt 0).mex.nextAt.toNat ≤ labMe.time.toNat := by
  decide

/-! ## Witnesses: the CE, the XE and the events -/

/-- The CE: pointers 0, 1, 2 hold the destination, the source and 64 bytes. -/
def labCe : State :=
  { labEng .ce with
    core.ce.ptr := #v[0x10000, 0x11000, 64, 8, 0, 0, 0, 0, 0, 0, 0, 0, 0, 0, 0, 0]
    core.stream := (List.range 64).map fun k => (k, page 0x200000) }

theorem witness_CopyEngine : ∃ s1, labCe.promising 64 true = some s1 ∧ sideFault 0 (s1.ptr3 0) 64 false = none ∧
    ∃ s2, State.copied 0 0 (spaceAddr 0 (s1.ptr3 0)) (spaceAddr 0 (s1.ptr3 1)) 64 65 s1.doneBytes s1 = some s2 :=
  ⟨_, rfl, rfl, _, rfl⟩

theorem witness_CopyEngine_fill : ∃ s1 s2, labCe.promising 64 true = some s1 ∧ (s1.ptr3 0).toNat % 2 ^ 3 = 0 ∧ 64 % 2 ^ 3 = 0 ∧
    State.patterned 0 (spaceAddr 0 (s1.ptr3 0)) (s1.ptr3 1) 8 64 65 s1.doneBytes s1 = some s2 := ⟨_, _, rfl, rfl, rfl, rfl⟩

theorem witness_CopyEngine_streamed : ∃ s1 s2, labCe.promising 64 true = some s1 ∧
    State.streamed .all (List.replicate 64 1) (fun off s => s.keep off []) 8 [(0x10000, 64)] 0 s1.doneBytes s1 = some s2 := ⟨_, _, rfl, rfl⟩

theorem witness_CopyEngine_sides : sideFault 2 0 64 true = none ∧ sideFault 0 0x10000 64 true = none ∧ (labCe.ptr3 0).toNat % 8 = 0 := by decide

/-- The CE writes one bound granule, 64, as a row of the tensor in host memory. -/
def labCpyt : State :=
  State.setCtx { labCe with
    core.ce.ptr := #v[0x10000, 0, 0x10000, 1, 0, 0, 0, 0, 0, 0, 0, 0, 0, 0, 0, 0]
    core.stream := (List.range 64).map fun k => (k, page 0x800000000000), core.regs := labTensor.core.regs } 1
    { st := .running, desc := [(1, tensorDesc)] }

theorem witness_CopyEngine_tensor : let t : Tensor := { desc := labCpyt.descriptor 1, base := labCpyt.ptr3 0 }
    ∃ s1, labCpyt.promising (1 * 1056) true = some s1 ∧ t.ok (labCpyt.ptr3 1) = true ∧ (labCpyt.ptr3 2).toNat % 1024 = 0 ∧
    (labCpyt.ptr3 2).toNat + 1024 * 1 ≤ 0x140000 ∧ (labCpyt.ptr3 3).toNat = 1 ∧
    (State.tensorCopied t 0x10000 1 2 0 (t.advance 0 (0, 0)) s1).isSome = true := by
  refine ⟨_, rfl, ?_, ?_, ?_, ?_, ?_⟩ <;> decide +kernel

/-- A unit of the scratchpad that the wheel has served. -/
theorem witness_CopyEngine_served :
    (State.spadServed (labCe.upd fun e => { e with part := some { due := some 0 } }) 0 []).isSome = true := by decide

theorem witness_CopyEngine_units : (List.replicate 64 (1 : Byte)).length = 64 ∧ (0x400#64).toNat % 64 = 0 := by decide

theorem witness_EtchRounds_closed : labCe.core.rounds.getD 3 .closed = .closed ∧ labCe.big = true ∧ labCe.channelLive 0 = true := by decide

/-- Round 3 is open; the unit of channel 0 has a job of it, and its close has been broadcast in round 4. -/
def etchJob : EtchJob :=
  { core := 0, round := 3, chan := 0, ops := [], types := [], consts := [], bases := [], pieces := [], first := 0, count := 1, dest := none }
def labRound : State :=
  { labCe with
    core.rounds := (labCe.core.rounds.setIfInBounds 3 .opened).setIfInBounds 4 (.closing [0]), core.roundOrder := [3]
    core.etched := [(3, 0, 0), (4, 0, 0)], etch := [(0, [etchJob])] }

theorem witness_EtchRounds : labRound.core.rounds.getD 3 .closed = .opened ∧ labRound.core.currentRound = some 3 ∧
    (labRound.core.etched.filter fun x => x.1 = 3).map (fun x => x.2.1) = [0] ∧ smGet labRound.etch 0 [] = [etchJob] ∧
    labRound.core.rounds.getD 4 .closed = .closing [0] ∧ ∀ x ∈ smGet labRound.etch 0 [], ¬(x.core = labRound.cur ∧ x.round = 4) := by
  decide

theorem witness_EtchRounds_record : ∃ ps s1 bs s2, labRound.spanTo (some 0) (labRound.streamAgent ceStreamA) { read := true } (piecesOf 0x10000 128) = some (ps, s1) ∧
    ps.findSome? s1.markIn = none ∧ s1.readPieces .all ps = (bs, s2) := ⟨_, _, _, _, rfl, rfl, rfl⟩

/-- The record at 0x10000 has no operator, and one stream in, of INT8 at 0x10000; its accumulators go nowhere, or to 0x10000 too. -/
def labEtch (dest : Byte) : State := { labRound with
  store.mem := [(0x200018, 0x80), (0x200042, 1)] ++ if dest = 0 then [] else [(0x200062, dest)] }

theorem witness_EtchRounds_job : ∃ ps s1 bs s2 x s3, (labEtch 0).spanTo (some 0) ((labEtch 0).streamAgent ceStreamA) { read := true }
      (piecesOf ((labEtch 0).ptr3 0) 128) = some (ps, s1) ∧
    ps.findSome? s1.markIn = none ∧ s1.readPieces .all ps = (bs, s2) ∧ (EtchRec.ofBytes bs).ok = true ∧ (EtchRec.ofBytes bs).dest = 0 ∧
    State.streamsAt 0 (EtchRec.ofBytes bs) 0 64 [0, 1, 2, 3] {} s2 = some (x, s3) ∧ (s3.unitQueue 0).length < 8 :=
  ⟨_, _, _, _, _, _, rfl, rfl, rfl, by decide +kernel, by decide +kernel, rfl, by decide +kernel⟩

theorem witness_EtchRounds_dest : ∃ ps s1 bs s2 x s3 qs s4, (labEtch 1).spanTo (some 0) ((labEtch 1).streamAgent ceStreamA) { read := true }
      (piecesOf ((labEtch 1).ptr3 0) 128) = some (ps, s1) ∧
    ps.findSome? s1.markIn = none ∧ s1.readPieces .all ps = (bs, s2) ∧ (EtchRec.ofBytes bs).ok = true ∧ (EtchRec.ofBytes bs).dest ≠ 0 ∧
    State.streamsAt 0 (EtchRec.ofBytes bs) 0 64 [0, 1, 2, 3] {} s2 = some (x, s3) ∧
    s3.pagesAt 0 { write := true } false [((EtchRec.ofBytes bs).dest + BitVec.ofNat 64 (64 * 0), 64)] = some (qs, s4) ∧
    (s4.unitQueue 0).length < 8 :=
  ⟨_, _, _, _, _, _, _, _, rfl, rfl, rfl, by decide +kernel, by decide +kernel, rfl, rfl, by decide +kernel⟩

theorem witness_EtchRounds_unran : etchJob.ran = false := rfl

theorem witness_EtchRounds_operator : ∃ pop push, opStack 0x10 = some (pop, push) ∧ pop ≤ [(1, false), (2, false), (3, false)].length ∧
    depthOk [] 0 = true := ⟨_, _, rfl, by decide, rfl⟩

/-- The XE of a package of a pod job, whose context is 1. -/
def labXe : State :=
  { labEng .xe with
    core.xe.ptr := #v[0x10000, 0x11000, 8, 8, 0, 0, 0, 0, 0, 0, 0, 0, 0, 0, 0, 0]
    core.stream := (List.range 64).map fun k => (k, page 0x200000)
    core.sq.maxscope := 6, mgmt.podCtx := some 1, mgmt.rxTlb := [page 0x200000] }

theorem witness_ExchangeWords : labXe.remoteReady 0 = true ∧ labXe.ownDev 0 = true ∧ labXe.doneBytes ≠ 8 ∧
    (∃ s1, State.movedHere .put 0 0x10000 0x11000 8 9 labXe.doneBytes labXe = some s1) ∧
    (∃ s1, State.movedHere .get 0 0x10000 0x11000 8 9 labXe.doneBytes labXe = some s1) ∧
    ∃ d s1, labXe.unitHere 0 (.apply 8 fun old => leBytes 8 (leNat old + 1)) 0x10000 = some (d, s1) :=
  ⟨rfl, rfl, by decide, ⟨_, rfl⟩, ⟨_, rfl⟩, ⟨_, _, rfl⟩⟩

/-- Another package, 1, is reached over port 0. -/
def labPod : State :=
  { labXe with ports := labXe.ports.setIfInBounds 0 { st := .up }, mgmt := { labXe.mgmt with route := [(0, []), (1, [0])], podBound := [1] } }

theorem witness_ExchangeWords_remote : labPod.remoteReady 1 = true ∧ labPod.ownDev 1 = false ∧ labPod.portFor 1 = some 0 ∧ (labPod.ptr3 0).toNat % 8 = 0 ∧ labPod.doneBytes ≠ 8 := by decide

theorem witness_ExchangeWords_checked : (∃ s1, labXe.localReady .put 0x10000 8 = some s1) ∧ (∃ s1, labXe.localReady .get 0x10000 8 = some s1) ∧
    (labXe.ptr3 2).toNat < 4294967296 := ⟨⟨_, rfl⟩, ⟨_, rfl⟩, by decide⟩

/-- A word whose eight bytes have gone. -/
def labMoved : State := labPod.upd fun e => { e with part := some { count := 8 } }

theorem witness_ExchangeWords_finished : labMoved.remoteReady 1 = true ∧ (∃ s1, labMoved.localReady .put 0x10000 8 = some s1) ∧
    labMoved.doneBytes = 8 := ⟨rfl, ⟨_, rfl⟩, rfl⟩

theorem witness_ExchangeWords_send : ∃ todo s1, (labXe.setCtx 1 { st := .running, quads := 1 }).ownsCore 1 = true ∧
    labXe.spanTo (some 0) (labXe.streamAgent xeStreamA) { read := true } (piecesOf 0x10000 1024) = some (todo, s1) ∧
    (todo.all fun p => match p.res with | .ok _ => true | .error _ => false) = true ∧
    firstBad ((todo.flatMap fun p => p.sectors 0x10000).map s1.readable) = none := ⟨_, _, rfl, rfl, rfl, rfl⟩

theorem witness_ExchangeWords_admit : ∃ ps s1, labXe.span (labXe.streamAgent xeStreamA) { write := true } (piecesOf 0x10000 2048) = some (ps, s1) ∧
    s1.core.hosting = [] := ⟨_, _, rfl, rfl⟩

theorem witness_ExchangeWords_wait : ∃ p pa t s1, labXe.span (labXe.streamAgent xeStreamA) { read := true } [(0x10000, 8)] = some ([p], s1) ∧
    p.res = .ok (pa, t) ∧ s1.marked s1.engHolders t pa 8 = none ∧
    (s1.ptr3 5).toNat ≤ leNat (s1.store.readHome pa 8) ∧ (labXe.ptr3 0).toNat % 8 = 0 := ⟨_, _, _, _, rfl, rfl, rfl, by decide, rfl⟩

/-- Core 0 hosts expert 5, and core 1 has a row for it on its way. -/
def labHost5 (rows : Nat) : State :=
  State.setCoreAt { labXe with core.hosting := [{ expert := 5, ctx := 1, base := 0x10000, slots := 2, rows := rows, tlb := [page 0x200000] }] } 1
    { Core.fresh with sends := [{ seq := 1, target := 0, expert := 5, token := 7, row := [1] }] }

theorem witness_ExchangeWords_arrival : (nextRow ((labHost5 0).coreAt 1).sends (labHost5 0).cur).isSome = true ∧
    ((labHost5 0).core.hosting.find? fun h => h.expert = 5).map (fun h => decide (h.rows < h.slots)) = some true ∧
    ((labHost5 2).core.hosting.find? fun h => h.expert = 5).map (fun h => decide (h.slots ≤ h.rows)) = some true := by decide

theorem witness_EntryLife : lab.core.halted = false ∧ ((lab.setEng .ve { lab.eng .ve with q := [.entry {}] }).eng .ve).sweep.free = true ∧
    ((lab.setEng .ve { lab.eng .ve with q := [.entry {}] }).eng .ve).sweep.q.head? = some (.entry {}) := by decide

theorem witness_EntryLife_end : ((labEng .ve).setEng .ve { (labEng .ve).eng .ve with pos := 64, rem := 2 }).core.halted = false ∧
    (((labEng .ve).setEng .ve { (labEng .ve).eng .ve with pos := 64, rem := 2 }).eng .ve).atEnd = true := by decide

theorem witness_EntryLife_complete : ((labEng .ve).setEng .ve { (labEng .ve).eng .ve with st := .draining }).drained .ve = true ∧
    ((labEng .ve).setEng .ve { (labEng .ve).eng .ve with st := .draining }).core.frozen = false ∧ (labEng .ve).core.sq.run ≠ .failed := by
  decide

/-- The VE is parked on line 0, which die 0 watches, and an access of another package as well. -/
def labParked : State :=
  State.setEng { lab.setDie 0 { lab.dieAt 0 with monitors := [0] } with mgmt.arrivals :=
    [{ dev := 1, core := 0, tag := 0, cls := 0, kind := .get, va := 0x10000, len := 8, data := [], parked := some 0 }] } .ve
    { lab.eng .ve with parked := some 0 }

theorem witness_WaitsAndFetches : lab.sqLive = true ∧ (∃ d ∈ labParked.dies, 0 ∈ d.2.monitors) ∧ (∀ d ∈ lab.dies, 0 ∉ d.2.monitors) ∧
    (∀ a ∈ labParked.mgmt.arrivals, a.parked ≠ none ∧ (a.parked = some 0 → a.woken = false)) ∧
    ((labParked.wakeLines [0]).mgmt.arrivals.find? fun a => a.parked.isNone || (a.parked = some 0 && a.woken)).isSome = true ∧
    1 ≤ ({ lab.eng .ve with wait := 3 } : Eng).wait.toNat := by decide

/-- A SLEEPU whose time has come. -/
theorem witness_WaitsAndFetches_sleep : let s : State := { lab with core.sq.sleep := some (0, 2) }
    s.core.sq.sleep = some (0, 2) ∧ (0#64).toNat ≤ s.time.toNat ∧ (s.core.tokq 2 0).present = 0 ∧ s.core.sq.trap.status.priv = 0 := by decide

/-- A private leaf of 64 KiB of core 9 stands at 0x400000. -/
def labLeaf : State := { lab with store.mem := writeBytes lab.store.mem 0x400000 (leBytes 8 (1 + 2 ^ 1 + 2 ^ 2 + 2 ^ 8 + 0x200000 + 9 * 2 ^ 54 + 2 ^ 62)) }

/-- The bytes of a page of code at the pc. -/
def labFetch (b : Byte) : State :=
  { lab with core.sq.tlb := [{ page 0x200000 with base := 0, w := false, x := true }], store.mem := [(0x200040, b), (0x200041, b), (0x200042, b), (0x200043, b)],
             store.code := [(0x200000, 0x10000)] }

theorem witness_WaitsAndFetches_leaf : (0x400000 : Nat) % 8 = 0 ∧ 0x400000 < labLeaf.packageTop ∧ isHost 0x400000 = false ∧
    Memory.wf labLeaf.store.mem = true ∧ seg (leNat (labLeaf.store.readHome 0x400000 8)) 0 1 = 1 ∧
    isLeaf (leNat (labLeaf.store.readHome 0x400000 8)) = true ∧ labLeaf.malformed false 0 (leNat (labLeaf.store.readHome 0x400000 8)) = false ∧
    seg (leNat (labLeaf.store.readHome 0x400000 8)) 62 2 = 1 ∧ seg (leNat (labLeaf.store.readHome 0x400000 8)) 54 8 ≠ labLeaf.cur ∧
    seg (leNat (labLeaf.store.readHome 0x400000 8)) 3 1 = 0 := by decide +kernel

/-- An instruction that waits holds a word that is no instruction. -/
theorem witness_WaitsAndFetches_held : let s : State := { lab with core.sq.fetched := some 0xFFFFFFFF }
    s.sqLive = true ∧ s.core.sq.holds s.time = some 0xFFFFFFFF ∧ (decodeSq 0xFFFFFFFF).toOption = none ∧ s.core.sq.spec.act = false ∧
    s.core.sq.trap.status.priv = 0 ∧ lab.core.sq.holds lab.time = none := by decide

theorem witness_WaitsAndFetches_fetch : (∃ h s' h2, (labFetch 0xFF).fetchSq = (.ok h s', h2) ∧ (decodeSq (wordOf h h2)).toOption = none) ∧
    ∃ f s' h2, lab.fetchSq = (.fault f s', h2) := ⟨⟨_, _, _, rfl, rfl⟩, _, _, _, rfl⟩


theorem witness_CopyEngine_unit : ∃ s0, labCe.promising 64 false = some s0 ∧ (labCe.ptr3 2).toNat = 64 ∧ (s0.ptr3 0).toNat + 64 ≤ 0x140000 ∧
    s0.doneBytes = 0 ∧ (s0.act.part.getD {}).data = [] ∧ (s0.act.part.getD {}).due = none :=
  ⟨_, rfl, by decide, by decide, rfl, rfl, rfl⟩

/-- The answers to two rows have come: admitted, and refused for want of a slot. -/
theorem witness_ExchangeWords_answers : let s : State := { labXe with core.sends :=
      [{ seq := 1, target := 0, expert := 5, token := 7, row := [1], answer := some 0 },
       { seq := 2, target := 0, expert := 5, token := 8, row := [1], answer := some 1 }] }
    (s.core.sends[0]?.bind (·.answer)) = some 0 ∧ (s.core.sends[1]?.bind (·.answer)) = some 1 ∧
    labXe.core.sends.length + labXe.core.refusals.length < 64 := by decide

theorem witness_VectorMemory_sectors : (List.replicate 1024 (0 : Byte)).length = 1024 ∧
    (∀ x ∈ [((0 : Nat), (0x10000 : Word), (.ok (0x200000, page 0x200000) : Except Cause (Nat × Tlb)))],
      x.1 < 16 ∧ ∃ pa t, x.2.2 = .ok (pa, t) ∧ t.nc = false ∧ isHost pa = false ∧ inDevice pa = false ∧
        ∀ c ∈ lab.store.nc, c.sector ∉ sectorsOf pa 64) ∧ Memory.wf lab.store.mem = true := by
  refine ⟨by simp, fun x hx => ?_, rfl⟩
  rw [List.mem_singleton.mp hx]
  exact ⟨by decide, _, _, rfl, rfl, rfl, rfl, fun c h => absurd (show c ∈ ([] : List DataCopy) from h) (by simp)⟩
/-! ## Witnesses: coherence, contexts, launches and groups -/

/-- The L1 of core 0, and a copy of sector 0x8000 that it or the level above it holds. -/
def l1 : Holder := .dcache 0
def copyIn (h : Holder) (st : CopySt) : Copy := { holder := h, sector := 0x8000, st := st }

/-- Copies of sector 0x8000, the entry of its directory, and messages on their way. -/
def labCoh (copies : List Copy) (e : DirEnt) (msgs : List CohMsg) : State :=
  { lab with store.coh := { copies := copies, dirs := [e], msgs := msgs } }

/-- The entry at the cluster directory of quad 0, and a request of the L1 for it. -/
def ent : DirEnt := { dir := parentDir l1, sector := 0x8000 }
def ask (m : Bool) : Req := { child := l1, dir := parentDir l1, m := m }

theorem witness_CoherenceRequests_miss : (∀ q, CohMsg.req q 0x8000 ∈ lab.store.coh.msgs → q.child = l1 → q.m ≠ true) ∧
    lab.holderTlb l1 0x8000 (page 0x200000).ctx = some (page 0x200000) ∧ lab.mayMiss l1 0x8000 true (page 0x200000) = true ∧
    lab.mayMiss l1 0x8000 false (page 0x200000) = true :=
  ⟨(fun q h => by cases h), by decide, by decide, by decide⟩

/-- A page of published code. -/
theorem witness_CoherenceRequests_fetch : let t : Tlb := { page 0x200000 with x := true, w := false }
    let s : State := { lab with core.sq.tlb := [t], store.code := [(0x200000, 0x10000)] }
    s.holderTlb (.icache 0) 0x8000 t.ctx = some t ∧ t.x = true ∧ t.nc = false ∧ s.store.isCode (64 * 0x8000) = true ∧
    s.store.full (.icache 0) 0x8000 = false ∧ s.markAt [.icache 0] t 0x8000 = none ∧ s.store.coh.fullSet 0 0x2000 = [] ∧ (∀ x ∈ s.store.fetch, x.holder = .icache 0 → x.sector ≠ 0x8000) ∧
    s.store.unpublished 0x8000 = false ∧ ({ s with store.ubit := [0x8000] } : State).store.unpublished 0x8000 = true := by decide

theorem witness_CoherenceRequests : let c := (labCoh [copyIn (.cluster 0) .e] ent [.req (ask false) 0x8000]).store.coh
    c.msgs = [] ++ .req (ask false) 0x8000 :: [] ∧ c.crowded (ask false) 0x8000 = none ∧ (ask false).self = false ∧
    (∀ x ∈ c.dirs, x.sector = 0x8000 → x.queue = []) ∧ c.ready (parentDir l1) 0x8000 = true ∧
    c.permission (parentDir l1) 0x8000 = some .e ∧ (c.dirEnt (parentDir l1) 0x8000).owner = none ∧
    (c.dirEnt (parentDir l1) 0x8000).sharers = [] ∧ readOnly l1 = false ∧ (c.dirEnt (parentDir l1) 0x8000).targets (some l1) = [] := by decide

theorem witness_CoherenceRequests_up : let c := (labCoh [] ent [.req (ask true) 0x8000]).store.coh
    c.ready (parentDir l1) 0x8000 = true ∧ levelOf (parentDir l1) = some (.cluster 0) ∧ c.permission (parentDir l1) 0x8000 = none ∧
    (labCoh [] { ent with busy := .bi 1 } []).store.coh.ready (parentDir l1) 0x8000 = false := by decide

theorem witness_CoherenceRequests_owner : let c := (labCoh [copyIn (.cluster 0) .m] { ent with owner := some (.dcache 1) } []).store.coh
    (c.dirEnt (parentDir l1) 0x8000).owner = some (.dcache 1) ∧ (.dcache 1 : Holder) ≠ l1 ∧ c.ready (parentDir l1) 0x8000 = true ∧
    ({ ent with sharers := [(.dcache 1, none)] } : DirEnt).targets (some l1) ≠ [] := by decide

/-- A die's directory with four sharers. -/
theorem witness_CoherenceRequests_coarse : let e : DirEnt := { dir := .die 0, sector := 0x8000, sharers := (List.range 4).map fun q => (.cluster q, some 0) }
    4 ≤ (e.sharers.filter fun x => x.1 ≠ .cluster 5).length := by decide

theorem witness_CoherenceRequests_invalidation : let s := labCoh [copyIn l1 .m] ent [.inv l1 0x8000 none 0 false false]
    s.deliverable (.inv l1 0x8000 none 0 false false) = true ∧ s.store.coh.msgs = [] ++ .inv l1 0x8000 none 0 false false :: [] ∧
    s.filtered l1 0 false false = false ∧ ownDir l1 = none ∧ (s.store.coh.copyOf l1 0x8000).map Copy.st = some .m := by decide

theorem witness_CoherenceRequests_filtered :
    (State.setCtx (labCoh [] ent []) 1 { quads := 1 }).filtered (.cluster 0) 2 false true = true := by decide

theorem witness_CoherenceRequests_level : let s := labCoh [copyIn (.cluster 0) .m] { ent with owner := some l1 } []
    ownDir (.cluster 0) = some (parentDir l1) ∧ (s.store.coh.dirEnt (parentDir l1) 0x8000).children ≠ [] ∧
    (labCoh [] ent []).store.coh.dirEnt (parentDir l1) 0x8000 = ent ∧ ent.children = [] ∧
    s.deliverable (.inv (.cluster 0) 0x8000 none 0 false false) = true := by decide

theorem witness_CoherenceAnswers_forward : let s := labCoh [copyIn l1 .e] ent [.fwd l1 0x8000 true 0 false]
    s.store.coh.msgs = [] ++ .fwd l1 0x8000 true 0 false :: [] ∧ s.deliverable (.fwd l1 0x8000 true 0 false) = true ∧ s.store.coh.stOf l1 0x8000 = some .e ∧
    (labCoh [copyIn l1 .miA] ent [.fwd l1 0x8000 true 0 false]).deliverable (.fwd l1 0x8000 true 0 false) = true ∧
    (labCoh [] ent [.fwd l1 0x8000 true 0 false]).deliverable (.fwd l1 0x8000 true 0 false) = true := by decide

theorem witness_CoherenceAnswers_forwardDown : let s := labCoh [copyIn (.cluster 0) .m] { ent with owner := some l1 } []
    ownDir (.cluster 0) = some (parentDir l1) ∧ (s.store.coh.dirEnt (parentDir l1) 0x8000).owner = some l1 ∧
    s.store.coh.stOf (.cluster 0) 0x8000 = some .m ∧ s.deliverable (.fwd (.cluster 0) 0x8000 true 0 false) = true := by decide

theorem witness_CoherenceAnswers : let c := (labCoh [] { ent with busy := .inv (ask true) 2 } [.invack (.dcache 1) 0x8000]).store.coh
    CohMsg.invack (.dcache 1) 0x8000 ∈ c.msgs ∧ (ask true).self = false ∧ (∀ x ∈ c.dirs, x.sector = 0x8000 → x.queue = []) ∧
    (c.dirEnt (parentDir (.dcache 1)) 0x8000).busy = .inv (ask true) (0 + 2) ∧ (c.dirEnt (parentDir (.dcache 1)) 0x8000).down = none := by decide

theorem witness_CoherenceAnswers_data : let c := (labCoh [] { ent with busy := .fwd (ask false), owner := some (.dcache 1) } [.reply (.dcache 1) 0x8000]).store.coh
    CohMsg.reply (.dcache 1) 0x8000 ∈ c.msgs ∧ (c.dirEnt (parentDir (.dcache 1)) 0x8000).busy = .fwd (ask false) ∧
    (ask false).m = false ∧ readOnly l1 = false := by decide

theorem witness_CoherenceAnswers_down : let c := (labCoh [copyIn (.cluster 0) .e] { ent with down := some { kind := .inv, left := 1 } } [.invack l1 0x8000]).store.coh
    (c.dirEnt (parentDir l1) 0x8000).down = some { kind := .inv, left := 1 } ∧ levelOf (parentDir l1) = some (.cluster 0) ∧
    c.stOf (.cluster 0) 0x8000 = some .e ∧ CohMsg.invack l1 0x8000 ∈ c.msgs := by decide

/-- A reader waits behind a writer whose last acknowledgement comes. -/
theorem witness_CoherenceAnswers_queue : let p : Req := { child := .dcache 1, dir := parentDir l1, m := false }
    let c := (labCoh [copyIn (.cluster 0) .m] { ent with busy := .inv (ask true) 1, queue := [p] } [.invack (.dcache 2) 0x8000]).store.coh
    (∀ x ∈ c.dirs, x.sector = 0x8000 → x.dir ≠ parentDir (.dcache 2) → x.queue = []) ∧
    (c.dirEnt (parentDir (.dcache 2)) 0x8000).queue = [p] ∧ p.dir = parentDir (.dcache 2) ∧ p.child ≠ (ask true).child ∧
    c.permission (parentDir (.dcache 2)) 0x8000 = some .m := by decide

theorem witness_CoherenceAnswers_putm : let c := (labCoh [] { ent with owner := some l1 } [.putm l1 0x8000]).store.coh
    CohMsg.putm l1 0x8000 ∈ c.msgs ∧ (c.dirEnt (parentDir l1) 0x8000).owner = some l1 ∧
    (c.dirEnt (parentDir l1) 0x8000).busy = .stable ∧ (c.dirEnt (parentDir l1) 0x8000).down = none := by decide

theorem witness_CoherenceAnswers_grant : let s := labCoh [copyIn l1 .isD] ent [.grant l1 0x8000 .s, .ackPut l1 0x8000]
    ownDir l1 = none ∧ s.store.coh.copyOf l1 0x8000 = some (copyIn l1 .isD) ∧ s.deliverable (.grant l1 0x8000 .s) = true ∧
    s.store.coh.msgs = [] ++ .grant l1 0x8000 .s :: [.ackPut l1 0x8000] ∧ s.store.ncOf l1 0x8000 = none ∧
    (copyIn l1 .miA).st = .miA := by decide

theorem witness_CoherenceAnswers_levelGrant : let s := labCoh [copyIn (.cluster 0) .imD] { ent with busy := .up (ask true) } [.grant (.cluster 0) 0x8000 .m]
    ownDir (.cluster 0) = some (parentDir l1) ∧ (s.store.coh.dirEnt (parentDir l1) 0x8000).busy = .up (ask true) ∧
    (s.store.coh.dirEnt (parentDir l1) 0x8000).targets (some l1) = [] ∧ s.deliverable (.grant (.cluster 0) 0x8000 .m) = true := by decide

/-- A sector whose use once a cluster has waited for: its L1 waits below. -/
theorem witness_CoherenceAnswers_once : let s := labCoh [copyIn (.cluster 0) .isDI, copyIn l1 .isD] { ent with busy := .up (ask false) } [.grant (.cluster 0) 0x8000 .s]
    ownDir (.cluster 0) = some (parentDir l1) ∧ (s.store.coh.dirEnt (parentDir l1) 0x8000).busy = .up (ask false) ∧ (ask false).self = false ∧
    (ask false).child ≠ .cluster 0 ∧ s.store.coh.copyOf (.cluster 0) 0x8000 = some (copyIn (.cluster 0) .isDI) ∧
    s.store.coh.stOf (ask false).child 0x8000 = some .isD ∧ s.deliverable (.grant (.cluster 0) 0x8000 .s) = true := by decide

/-- The L2 has a sector of a private page, and a core below it has it dirty. -/
theorem witness_CoherenceAnswers_recall : let c : Coh := { copies := [copyIn (.l2 0) .e, copyIn l1 .m] }
    c.copyOf (.l2 0) 0x8000 = some (copyIn (.l2 0) .e) ∧ c.lineStable 0 (0x8000 / 4) = true ∧ (c.dirEnt (.die 0) 0x8000).children = [] ∧
    (copyIn l1 .m) ∈ c.copies ∧ holderDie l1 = 0 ∧ l1 ≠ .l2 0 ∧ lab.store.ncOf (.l2 0) 0x8000 = none := by decide

theorem witness_CoherenceAnswers_room : lab.store.coh.copies.length + lab.store.nc.length + lab.store.fetch.length ≤ capacity l1 ∧
    capacity l1 ≤ capacity (.l2 (holderDie l1)) ∧ ({ copies := [copyIn l1 .s] } : Coh).copyOf l1 0x8000 = some (copyIn l1 .s) := by
  refine ⟨?_, ?_, ?_⟩ <;> decide

/-- More copies than the L1 has room for, all of them stable. -/
theorem witness_CoherenceAnswers_overfull : let c : List Copy := List.replicate (capacity l1 + 1) (copyIn l1 .s)
    capacity l1 < (c.filter fun x => x.holder = l1).length ∧ (c.filter fun x => !x.st.transient).getLast?.isSome = true := by
  decide +kernel

/-- A list without repeats has none to erase. -/
theorem eraseDups_self : ∀ l : List Nat, l.Nodup → l.eraseDups = l
  | [], _ => rfl
  | a :: l, h => by
    rw [List.eraseDups_cons, List.filter_eq_self.mpr fun x hx => ?_, eraseDups_self l (List.nodup_cons.mp h).2]
    simpa using fun e : x = a => (List.nodup_cons.mp h).1 (e ▸ hx)

/-- Whichever set each line falls in, some seventeen lines fall in one: with sixteen of them in a die's filter, the set of the last is full,
and its victim is one of them. -/
theorem witness_CoherenceAnswers_victim : ∃ (c : Coh) (line v : Nat), c.victim 0 (c.fullSet 0 line) = some v := by
  obtain ⟨y, hy⟩ := Finite.exists_infinite_fiber fun l : Nat => (⟨Config.filterSet l % 8192, Nat.mod_lt _ (by norm_num)⟩ : Fin 8192)
  obtain ⟨f, hf, hn⟩ := (Set.infinite_coe_iff.mp hy).exists_subset_card_eq 17
  have hset : ∀ a ∈ f, Config.filterSet a % 8192 = y.val := fun a ha => congrArg Fin.val (hf ha)
  obtain ⟨x, hx⟩ := Finset.card_pos.mp (by omega : 0 < f.card)
  have hcard : (f.erase x).card = 16 := by rw [Finset.card_erase_of_mem hx, hn]
  obtain ⟨l, hl⟩ : ∃ l, l = (f.erase x).toList := ⟨_, rfl⟩
  have hlen : l.length = 16 := by rw [hl, Finset.length_toList, hcard]
  have hnd : l.Nodup := hl ▸ Finset.nodup_toList _
  have hmem : ∀ a ∈ l, a ≠ x ∧ a ∈ f := fun a ha => Finset.mem_erase.mp (Finset.mem_toList.mp (hl ▸ ha))
  let c : Coh := { dirs := l.map fun a => { dir := .die 0, sector := 4 * a } }
  have hlines : c.lines 0 = l := by
    have : (c.dirs.filter fun e => e.dir = .die 0).map (·.sector / 4) = l := by
      rw [List.filter_eq_self.mpr (by simp [c])]
      simp [c, Function.comp_def]
    rw [Coh.lines, this]
    exact eraseDups_self l hnd
  have hst : ∀ a, c.lineStable 0 a = true := by intro a; simp [Coh.lineStable, c]
  have hfull : c.fullSet 0 x = l := by
    have hx' : l.contains x = false := by
      rw [Bool.eq_false_iff]; intro h; exact (hmem x (List.contains_iff_mem.mp h)).1 rfl
    rw [Coh.fullSet, hlines]
    simp only [hlen, hx', lt_irrefl, decide_false, Bool.or_self, Bool.false_eq_true, if_false]
    rw [List.filter_eq_self.mpr fun a ha => by simp [hset a (hmem a ha).2, hset x hx]]
    simp [hlen]
  refine ⟨c, x, l.getLast (by intro h; simp [h] at hlen), ?_⟩
  rw [hfull, Coh.victim, List.filter_eq_self.mpr fun a _ => hst a, List.getLast?_eq_getLast]

/-- The data of another die's frame, and a dirty copy of a non-coherent page. -/
theorem witness_CoherenceAnswers_poison : (∃ d, lab.crosses (.l2 d) 0x8000 = true) ∧ lab.store.markOf 0x8000 = none ∧
    ({ lab with store.nc := [{ holder := l1, sector := 0x8000, data := [], dirty := true }] } : State).store.ncOf l1 0x8000 =
      some { holder := l1, sector := 0x8000, data := [], dirty := true } ∧ isHost (64 * 0x8000) = false ∧ inDevice (64 * 0x8000) = false := by
  refine ⟨⟨3, ?_⟩, ?_⟩ <;> decide

/-- Context 1 holds quad 0 in a state; a command stands in CTXCMD. -/
def labCtx (st : CtxSt) (cmd : BitVec 3) : State :=
  { lab.setCtx 1 { st := st, quads := 1, regions := 1 } with mgmt := { lab.mgmt with ctxBusy := cmd, ctxSel := 1 } }

theorem witness_Contexts : (labCtx .configured 2).mgmt.ctxBusy = 2 ∧ ((labCtx .configured 2).ctxAt 1).st = .configured ∧
    ((labCtx .running 2).ctxAt 1).st ≠ .configured ∧ (labCtx .frozen 3).mgmt.ctxBusy = 3 ∧ ((labCtx .frozen 3).ctxAt 1).st = .frozen := by
  decide

/-- A manager core asks to create context 1 with quad 0; the record stands at its page. -/
def labCreate : State :=
  { lab with
    others := [(256, { lab.core with sq.trap.status.priv := 3, sq.mtrap.scratch := 0x10000 })]
    mgmt := { lab.mgmt with ctxBusy := 1, ctxSel := 1 }
    store.mem := writeBytes [] 0x200000 (leBytes 16 (1 + 2 ^ 64)) }

theorem witness_Contexts_create : ∃ pa t s1 bs s2, (labCreate.focus 256).core.sq.mtrap.scratch.toNat % 64 = 0 ∧
    (labCreate.focus 256).translate (labCreate.focus 256).sqAgent { read := true } 0x10000 = .ok pa t s1 ∧
    s1.hostBusy pa = false ∧ s1.marked (sqHolders s1.cur) t pa 64 = none ∧
    s1.loadPhys (sqHolders s1.cur) .all t pa 64 = (bs, s2) ∧ labCreate.createOk (CreateRec.ofBytes (leBytes 16 (1 + 2 ^ 64) ++ List.replicate 48 0)) = true :=
  ⟨_, _, _, _, _, rfl, rfl, rfl, rfl, rfl, by decide +kernel⟩

/-- Every core of the context is frozen. -/
def labScrub : State :=
  [0, 1, 2, 3].foldl (fun s n => s.setCoreAt n { s.coreAt n with freezing := true, frozen := true }) (labCtx .scrubbing 0)

theorem witness_Contexts_scrub : (labScrub.ctxAt 1).st = .scrubbing ∧ (∀ k ∈ (labScrub.ctxAt 1).cores, (labScrub.coreAt k).frozen = true) ∧
    (∀ l ∈ labScrub.launches, l.ctx ≠ 1) ∧ Memory.wf labScrub.store.mem = true := by decide

theorem witness_FreezeAndSnapshot : (labCtx .running 0).ownerOf 0 = some 1 ∧ (labCtx .running 0).ownerOf 255 = none ∧
    ((labCtx .running 0).coreAt 0).freezing = false ∧ ((labCtx .running 0).ctxAt 1).st = .running ∧
    ((labCtx .frozen 0).setCoreAt 0 { lab.core with freezing := true }).drainedCore 0 = true := by decide

/-- Core 0 is frozen, by a FREEZE. -/
def labFrozen : State := (labCtx .frozen 0).setCoreAt 0 { lab.core with freezing := true, frozen := true, held := true }

theorem witness_FreezeAndSnapshot_resume : labFrozen.ownerOf 0 = some 1 ∧ (labFrozen.coreAt 0).frozen = true ∧ (labFrozen.coreAt 0).held = true ∧
    labFrozen.parks 0 = false ∧
    (labFrozen.coreAt 0).sq.run ≠ .doubleTrap ∧ labFrozen.snapAllowed false = true ∧ (labCtx .frozen 0).snapAllowed false = false ∧
    ∀ x ∈ labFrozen.mgmt.snapstage, False := by decide

theorem witness_FreezeAndSnapshot_restore : let m (p : Nat) : Image := fun off => labFrozen.snapDword 0 p off
    headerOk (m 0) 0 1 = true ∧ headerOk (m 1) 1 1 = true ∧ headerOk (m 2) 2 1 = true ∧ (m 0).hostingOk = true := by decide +kernel

theorem witness_FreezeAndSnapshot_fields : let m (p : Nat) : Image := fun off => labFrozen.snapDword 0 p off
    ((labFrozen.coreAt 0).ofParts (m 0) (m 1) (m 2)).fieldsOk false = true := by decide +kernel

theorem witness_FreezeAndSnapshot_staged : let m (p : Nat) : Image := fun off => labFrozen.snapDword 0 p off
    let c := (labFrozen.coreAt 0).ofParts (m 0) (m 1) (m 2)
    (labFrozen.setCoreAt 0 c).stageOk 0 = true ∧ (State.reholdAll c.sq.spec.held ((labFrozen.setCoreAt 0 c).focus 0)).isSome = true := by
  decide +kernel

/-- Function 1 belongs to context 1 and has a share of one unit; a graph with one node stands at its start, and is registered. -/
def labLaunch : State :=
  let g : Graph := { id := 3, record := 0x10000, vector := 0, nodes := [{}] }
  { (labCtx .running 0).setFn 1 { ctx := some 1, share := 1, shbase := 0 } with
    ctxs := [(1, { st := .running, quads := 1, graphs := [g] })] }

theorem witness_Launches : labLaunch.held = false ∧ ({ labLaunch with mgmt.minimal := true } : State).held = true ∧ (labLaunch.fnAt 1).ctx = some 1 ∧
    labLaunch.graphAt (labLaunch.fnAt 1) (labLaunch.ctxAt 1) 0 = none ∧
    ((labLaunch.ctxAt 1).graphs.find? fun g => g.id = 3).isSome = true ∧ ((labLaunch.ctxAt 1).graphs.find? fun g => g.id = 4) = none ∧
    (labLaunch.launches.filter fun l => l.ctx = 1).length < 16 ∧ (labLaunch.fnAt 1).patch.toNat % 16 = 0 ∧
    labLaunch.applyPatches (labLaunch.fnAt 1) 0 1 (List.range 0) [{}] = some [{}] ∧ ∀ l ∈ labLaunch.launches, l.id < labLaunch.ids := by
  decide

/-- An image of graph 4 with one node stands at the start of the share. -/
def labImage : State :=
  { labLaunch with store.sched := (writeBytes (writeBytes (writeBytes [] 0
      (leBytes 8 (1 + 2 ^ 16 + 4 * 2 ^ 32))) 74 (leBytes 2 1)) 128 (leBytes 16 (2 ^ 128 - 1))) }

theorem witness_Launches_registered : (labImage.graphAt (labImage.fnAt 1) (labImage.ctxAt 1) 0).map (·.id) = some 4 ∧
    ∀ l ∈ labImage.launches, ¬(l.ctx = 1 ∧ l.graph.id = 4) := by decide +kernel

/-- A launch of graph 3, over or not, raising its interrupt or not. -/
def aLaunch (nodes : List NodeSt) (raising : Bool) : Launch :=
  { id := 5, ctx := 1, fn := 1, tag := 9, graph := { id := 3, record := 0x10000, vector := 2, nodes := [{}] }, nodes := nodes, raising := raising }

theorem witness_Launches_end : ({ labLaunch with launches := [aLaunch [.completed] false] } : State).launchOver (aLaunch [.completed] false) = true ∧
    labLaunch.launchOver (aLaunch [.ready] false) = false ∧
    (match labLaunch.walkOnce 1 0x10000 with | .fault _ s1 => s1.launches = labLaunch.launches | _ => False) := by
  refine ⟨rfl, rfl, ?_⟩
  show ([] : List Launch) = []
  rfl

/-- A table tree at 0 of context 1 that maps 0x10000 by a leaf of 64 KiB at level 0. -/
def labWalk : State :=
  { labLaunch with
    ctxs := [(1, { st := .running, quads := 1, ptbase := 0x300000 })]
    store.mem := writeBytes (writeBytes (writeBytes (writeBytes [] 0x300000 (leBytes 8 (1 + 0x301000))) 0x301000 (leBytes 8 (1 + 0x302000)))
      0x302000 (leBytes 8 (1 + 0x303000))) (0x303000 + 8 * 16) (leBytes 8 (1 + 2 + 4 + 16 + 0xC0 + 2 ^ 8 + 0x200000)) }

theorem witness_Launches_record : (match labWalk.walkOnce 1 0x10000 with
    | .ok pa t s1 => t.nc = false && !isHost pa && !inDevice pa && s1.store.nc.isEmpty && Memory.wf s1.store.mem && s1.launches.isEmpty
    | _ => false) = true := by decide +kernel

/-- A group of one core waits in context 1. -/
def labWaiting : State :=
  { labLaunch with launches := [aLaunch [.ready] false], groups := [{ id := 1, ctx := 1, launch := 5, node := 0, index := 0, size := 0, prio := 0 }] }

theorem witness_Groups : labWaiting.held = false ∧ (∀ h ∈ labWaiting.groups, h.st ≠ .parking ∧ h.st ≠ .ended ∧ h.st = .ready) ∧
    labWaiting.waitingGroups = labWaiting.groups ∧
    labWaiting.findSet (labWaiting.groups.getD 0 default) labWaiting.coreFree = some (0, [(0, 0)]) ∧
    (labWaiting.launches.find? fun x => x.id = 5).isSome = true := by decide +kernel

/-- The group runs on core 0, and time may have passed its quantum. -/
def labQuantum (time : Word) : State :=
  { labWaiting with groups := [{ id := 1, ctx := 1, launch := 5, node := 0, index := 0, size := 0, prio := 0, st := .running }], time := time }

theorem witness_Groups_quantum : ((labQuantum 0).groups.find? fun g => g.id = 1 && g.st = .running).isSome = true ∧
    (labQuantum 0).time.toNat < 0 + 1200000 ∧ 0 + 1200000 ≤ (labQuantum 1200000).time.toNat ∧
    ∀ n ∈ [0], ((labQuantum 0).coreAt n).freezing = false := by decide

/-- Another group of the same priority waits for the same core. -/
theorem witness_Groups_rival : let s : State := { labQuantum 1200000 with groups := (labQuantum 1200000).groups ++
      [{ id := 2, ctx := 1, launch := 5, node := 0, index := 0, size := 0, prio := 0 }], ctxs := [(1, { st := .running, quads := 1 })] }
    let g := s.groups.getD 0 default
    let without : State := { s with groups := s.groups.filter fun (h : Grp) => h.id ≠ 1 }
    (s.waitingGroups.any fun h => h.ctx = g.ctx && h.prio = g.prio &&
      (without.findSet h fun n => g.has n && without.coreSoon [] n).isSome) = true := by decide +kernel

theorem witness_Groups_exit : ({ lab with core.sq.pc := 0 } : State).core.sq.pc = lab.core.sq.exitAddr ∧ lab.core.sq.pc ≠ lab.core.sq.exitAddr ∧
    lab.cur < 256 ∧ lab.core.sq.run = .running ∧ lab.core.halted = false ∧ (∀ e, (lab.eng e).q = [] ∧ (lab.eng e).waiters = []) ∧
    lab.groupOf lab.cur = none ∧ ((labQuantum 0).groupOf 0).isSome = true := by
  refine ⟨rfl, by decide, by decide, rfl, rfl, fun e => ?_, rfl, rfl⟩
  cases e <;> exact ⟨rfl, rfl⟩

/-- A double trap has stopped the core of the group; its cores freeze, or have frozen. -/
def labDouble (freezing : Bool) : State :=
  (labQuantum 0).setCoreAt 0 { lab.core with sq.run := .doubleTrap, freezing := freezing }

theorem witness_Groups_fail : ((labDouble true).groups.find? fun g => g.holds && g.has 0).isSome = true ∧ ((labDouble true).coreAt 0).sq.run = .doubleTrap ∧
    ((labDouble true).coreAt 0).freezing = true ∧ (labDouble true).drainedCore 0 = true ∧ ((labDouble false).coreAt 0).freezing = false ∧
    (aLaunch [.ready] false).ended = false := by decide

/-! ## Witnesses: the link, the host, the management complex, the step -/

theorem witness_Links : lab.fitted 3 = true ∧ ({ lab with big := false } : State).fitted 9 = false ∧ (lab.port 3).st = .down ∧
    (labPod.port 0).st = .up ∧ lab.held = false ∧ ({ lab with mgmt.minimal := true } : State).held = true := by decide

/-- A remote access of the XE toward package 1 is unanswered. -/
def labRemote (k : RemKind) : State :=
  { labPod with core.remote := some { kind := k, dev := 1, va := 0x20000, loc := 0x10000, len := 8, data := [], tag := 6 } }

theorem witness_Links_remote : (labRemote .put).core.remote.isSome = true ∧ smFind (labRemote .put).mgmt.route 1 = some [0] ∧
    ((1, [0]) : Nat × List Nat) ∈ (labRemote .put).mgmt.route ∧ ((labRemote .put).port 0).st = .up := by decide

theorem witness_Links_flit : flitGood (flitBytes 0 0 0 2 0 0 0 0 []) = true ∧ flitSeq (flitBytes 0 0 0 2 0 0 0 0 []) = 0 ∧
    flitSeq (flitBytes 0 0 0 2 5 0 0 0 []) = 5 ∧ flitGood (List.replicate 256 1) = false ∧ (labPod.port 0).expect = 0 := by decide +kernel

/-- A port that carries traffic has received a request to send again from SEQ 4 on; one that does not has received it too. -/
def labAsks (st : PortSt) : State := labPod.setPort 0 { labPod.port 0 with
  st := st, taken := [{ seq := 1, src := 1, core := 0, kind := 7, cls := 0, tag := 0, payload := (replayCargo 4).payload }] }

theorem witness_Links_asks : let asks (x : Taken) : Bool := x.kind = 7 && x.payload = (replayCargo (4#12).toNat).payload
    ((labAsks .up).port 0).taken.any asks = true ∧ ((labAsks .up).port 0).st = .up ∧ ((labAsks .train).port 0).taken.any asks = true ∧
    ((labAsks .train).port 0).st = .train ∧ (labPod.port 0).taken.any asks = false ∧ labPod.fitted 0 = true :=
  have h (st : PortSt) : ((labAsks st).port 0).taken = [{ seq := 1, src := 1, core := 0, kind := 7, cls := 0, tag := 0, payload := (replayCargo 4).payload }] := rfl
  ⟨by rw [h]; simp, rfl, by rw [h]; simp, rfl, rfl, rfl⟩

/-- The XE's access is toward a device that new routes lose, or whose ports they leave down. -/
theorem witness_PodJobBound : (labRemote .put).core.remote.map Remote.dev = some 1 ∧ (labRemote .put).reachable 1 = true ∧
    ((labRemote .put).port 3).st = .down ∧ lab.core.remote = none := by decide

/-- Two kept flits, of which the second has been replayed fifteen times. -/
theorem witness_Links_replay : let fs : List Kept := [{ seq := 4, data := [1] }, { seq := 5, replays := 15, data := [2] }]
    (∃ f ∈ fs.dropWhile fun f => f.seq ≠ (5#12).toNat, 15 ≤ f.replays) ∧
    ∀ f ∈ (fs.take 1).dropWhile fun f => f.seq ≠ (4#12).toNat, f.replays < 15 := by decide

theorem witness_Outside_posted : labPosted.store.posted = [(0, [1])] ∧ Memory.wf labPosted.store.host = true ∧ lab.store.posted = [] := by decide

/-- A launch raises its completion record, whose write is posted. -/
theorem witness_Outside_record : let s : State := { labPosted with launches := [{ (aLaunch [.ready] true) with raising := true, recAt := some 0 }] }
    (s.launches.find? fun l => l.raising && l.recAt = some 0).isSome = true := by decide

/-- A flit of SEQ 5 from device 1 with what it carries has been received over port 0. -/
def takenFlit (f : Cargo) : Taken :=
  { seq := 5, src := 1, core := f.core, kind := f.kind, cls := f.cls, tag := f.tag, payload := f.payload }
def labTaken (f : Cargo) (s : State) : State := s.setPort 0 { s.port 0 with taken := [takenFlit f] }

/-- Each request of another package, received and not received; a signal and a reduction that are not aligned. -/
theorem witness_Outside_taken : ∀ r ∈ [RemoteReq.write 0x10000 [1, 2, 3, 4], .read 0x10000 8, .reduce 0 0x10000 [1, 2, 3, 4], .signal 0x10000 7,
      .signal 0x10001 7, .reduce 0 0x10001 [1, 2, 3, 4], .podTrip 1 3, .podAbort 1],
    let f := requestCargo r 0 ⟨0, 5, 6, 0, r⟩
    takenFlit f ∈ ((labTaken f labXe).port 0).taken ∧ takenFlit f ∉ (labXe.port 0).taken := by
  intro r _ f
  exact ⟨show takenFlit f ∈ [takenFlit f] from by simp, show takenFlit f ∉ ([] : List Taken) from by simp⟩

/-- Each answer to the XE's remote access, received and not received. -/
theorem witness_Outside_answered : ∀ a ∈ [RemoteAns.done [], .done (List.replicate 8 0), .fault Cause.pageRead.code 4], ∀ k ∈ [RemKind.put, .get],
    ∀ r ∈ (labRemote k).core.remote, let f := answerCargo a r 0
    takenFlit f ∈ ((labTaken f (labRemote k)).port 0).taken ∧ takenFlit f ∉ ((labRemote k).port 0).taken ∧
      r.tag = 6 ∧ r.dev = 1 ∧ r.len = 8 := by
  intro a _ k _ r hr f
  obtain rfl := Option.some.inj hr
  exact ⟨show takenFlit f ∈ [takenFlit f] from by simp, show takenFlit f ∉ ([] : List Taken) from by simp, rfl, rfl, rfl⟩

theorem witness_Outside_remote : labXe.mgmt.podCtx = some 1 ∧ lab.mgmt.podCtx = none ∧ isHost 0x200000 = false ∧ inDevice 0x200000 = false ∧
    (∃ pa t s1, labXe.outTranslate .remote 1 false { write := true } 0x10000 = .ok pa t s1 ∧ t.nc = false ∧ (s1.shareFrames pa 8).store.nc = [] ∧
      Memory.wf (s1.shareFrames pa 8).store.mem = true) ∧
    (∃ pa t s1, labXe.outTranslate .remote 1 false { read := true } 0x10000 = .ok pa t s1 ∧ (s1.shareFrames pa 8).marked [] t pa 8 = none) ∧
    (∃ d u, State.arriveLoop 1 false .get 0x10000 8 [] 9 0 [] labXe = .ok d u) ∧
    (∃ c m u, State.arriveLoop 1 false .get 0x7FFFFFFFFFFFFFFF 8 [] 9 0 [] labXe = .fault c m u) ∧
    ∃ l m d u, State.arriveLoop 1 false .get 0x10000 8 [] 9 0 []
      { labXe with mgmt := { labXe.mgmt with rxTlb := [page 0x800000000000] }, store := { labXe.store with posted := [(0, [1])] } } = .stand l m d u :=
  ⟨rfl, rfl, rfl, rfl, ⟨_, _, _, rfl, rfl, rfl, rfl⟩, ⟨_, _, _, rfl, rfl⟩, ⟨_, _, rfl⟩, ⟨_, _, _, rfl⟩, _, _, _, _, rfl⟩

/-- A running group whose one member has arrived at pod barrier 3. -/
def podGroup : Grp :=
  { id := 1, ctx := 1, launch := 5, node := 0, index := 0, size := 0, prio := 0, st := .running
    barriers := [(barKey 5 0 3, { arrived := [0] })] }

theorem witness_Outside_pod : ({ lab with groups := [podGroup] } : State).groups.find? (fun g => g.id = 1 && g.st ≠ .ended) = some podGroup ∧
    ({ lab with groups := [{ podGroup with st := .parked }] } : State).groups.find? (fun g => g.id = 1 && g.st ≠ .ended) =
      some { podGroup with st := .parked } := by decide

theorem witness_Outside_answer : (labRemote .put).core.remote.isSome = true ∧
    answerCause Cause.pageRead.code = some .pageRead ∧ Cause.pageRead ≠ .queueTarget := by decide

/-- Function 1 of context 1, whose aperture starts at the page. -/
def labAperture : State := { lab.setFn 1 { ctx := some 1, apbase := 0x10000 } with mgmt.apTlb := [page 0x200000] }

theorem witness_Outside_aperture : (labAperture.fnAt 1).ctx = some 1 ∧ (labAperture.fnAt 2).ctx = none ∧ labAperture.held = false ∧
    (labAperture.fnAt 1).apertureAt 0 = 0x10000 ∧ labAperture.store.posted = [] ∧ 2 ^ 36 < 2 ^ 36 + 8 ∧
    (∃ pa t s1, labAperture.outTranslate .aperture 1 true { read := true } 0x10000 = .ok pa t s1 ∧ t.nc = false ∧ t.x = false) ∧
    (∃ pa t s1, labAperture.outTranslate .aperture 1 true { write := true } 0x10000 = .ok pa t s1 ∧
      (s1.shareFrames pa 8).store.nc = [] ∧ Memory.wf (s1.shareFrames pa 8).store.mem = true ∧ t.nc = false ∧ t.x = false) ∧
    (∃ pa t s1, labAperture.outTranslate .aperture 1 true { read := true, write := true } 0x10000 = .ok pa t s1 ∧
      (s1.shareFrames pa 8).store.nc = [] ∧ Memory.wf (s1.shareFrames pa 8).store.mem = true ∧ t.nc = false ∧ t.x = false) ∧
    ((labAperture.fnAt 1).apertureAt 1).toNat % 8 ≠ 0 ∧
    (labAperture.apertureUnit 1 { read := true, write := true } 0x50000 8).1 = none ∧ labPosted.store.posted ≠ [] :=
  ⟨rfl, rfl, rfl, rfl, rfl, by decide, ⟨_, _, _, rfl, rfl, rfl⟩, ⟨_, _, _, rfl, rfl, rfl, rfl, rfl⟩, ⟨_, _, _, rfl, rfl, rfl, rfl, rfl⟩,
    by decide, rfl, by decide⟩

theorem witness_Outside_apertureData : (∃ bs bad s1, State.apertureLoop 1 (unitsOfAccess 0x10000 9 0 8) labAperture = (some (bs, bad), s1)) ∧
    ∃ bad s1, State.apertureStore 1 [1, 2, 3, 4, 5, 6, 7, 8] (unitsOfAccess 0x10000 9 0 8) false labAperture = (bad, s1) :=
  ⟨⟨_, _, _, rfl⟩, _, _, rfl⟩

theorem witness_Outside_apertureFault : ∃ s1, State.apertureLoop 1 (unitsOfAccess 0x50000 9 0 8) labAperture = (none, s1) := ⟨_, rfl⟩

/-- An attempt to start, with the outcome of its self-test and of its fetch. -/
def boot (selfTest : Bool) (fetch : BitVec 2) : Boot :=
  { selfTest := selfTest, fetch := fetch, live := [], stuck := [], image := [1], imageSigRsa := [3], imageSigSlh := [4], owner := [2],
    ownerSigRsa := [5], ownerSigSlh := [6], worldq := 1, worldr := 0, worldu := 0, debug := 2, token := [7], tokenSigRsa := [8], tokenSigSlh := [9] }

/-- The attempts that need no signature to be decided: those whose self-test or fetch fails. -/
theorem witness_Management_start : lab.mgmt.failedStarts < 2 ∧ lab.mgmt.minimal = false ∧ (boot true 0).selfTest = true ∧ (boot false 1).fetch ≠ 0 ∧
    ({ lab with mgmt.minimal := true } : State).mgmt.minimal = true ∧ (2#8).toNat ≤ 4 ∧ 4 < (5#8).toNat ∧
    2 ≤ ({ lab with mgmt.failedStarts := 2, mgmt.minimal := true } : State).mgmt.failedStarts := by decide

/-- The verdict of a signature is a free value of Config: a start verifies under every Config whose checks say so of its image and record, and
enters full debug under every one whose checks say so of its token. -/
theorem witness_Management_verified
    (h : Config.rsaPss Config.anchorRsa [2] [5] = true ∧ Config.slhDsa Config.anchorSlh [2] [6] = true)
    (g : ∃ v, Config.imageVersion [1] = some v ∧ Config.ownerMinimum [2] ≤ v ∧
      Config.rsaPss (Config.ownerRsa [2]) [1] [3] = true ∧ Config.slhDsa (Config.ownerSlh [2]) [1] [4] = true)
    (k : Config.tokenIdentity [7] = Config.identity Config.deviceSecret ∧ Config.rsaPss (Config.ownerRsa [2]) [7] [8] = true ∧
      Config.slhDsa (Config.ownerSlh [2]) [7] [9] = true) :
    let b := boot false 0
    (Config.rsaPss Config.anchorRsa b.owner b.ownerSigRsa = true ∧ Config.slhDsa Config.anchorSlh b.owner b.ownerSigSlh = true) ∧ b.selfTest = false ∧
    b.fetch = 0 ∧ ∃ v, Config.imageVersion b.image = some v ∧ Config.ownerMinimum b.owner ≤ v ∧
      (Config.rsaPss (Config.ownerRsa b.owner) b.image b.imageSigRsa = true ∧ Config.slhDsa (Config.ownerSlh b.owner) b.image b.imageSigSlh = true) ∧
      b.debug = 2 ∧ Config.tokenIdentity b.token = Config.identity Config.deviceSecret ∧
      Config.rsaPss (Config.ownerRsa b.owner) b.token b.tokenSigRsa = true ∧ Config.slhDsa (Config.ownerSlh b.owner) b.token b.tokenSigSlh = true :=
  ⟨h, rfl, rfl, let ⟨v, a, b, c⟩ := g; ⟨v, a, b, c, rfl, k⟩⟩

theorem witness_Management_power : lab.quadQuiet 5 = true ∧ (lab.quadAt 5).power = .p0 ∧
    lab.mgmt.worldq.getLsbD 5 = lab.mgmt.secureCores.getLsbD 2 ∧ (labQuantum 0).quadQuiet 0 = false ∧
    (lab.setQuad 5 { lab.quadAt 5 with power := .p1, wakeAt := 1 }).quadAt 5 = { lab.quadAt 5 with power := .p1, wakeAt := 1 } := by decide +kernel

theorem witness_Management_sleep : ∀ k, k < 16 → (((List.range 16).foldl (fun s q => s.setQuad q { s.quadAt q with power := .p2 }) lab).quadAt (16 * 0 + k)).power = .p2 := by
  decide +kernel

theorem witness_Management_debug : ({ lab with mgmt.debugst := 2 } : State).mgmt.debugst = 2 ∧ lab.mgmt.debugst = 0 ∧
    (List.replicate 32 (0 : Byte)).length = 32 ∧ packageReg 0x148 = true ∧ (0x148 : Nat) ≠ 0x200 ∧
    ({ lab with mgmt.debugst := 1, mgmt.worldq := 1 } : State).mgmt.worldq.getLsbD (0 / 4) = true := by decide

/-- The next turn is the SQ's; the word ADDI x5, x0, 10 stands at the pc. -/
def labStep : State := State.reset.withFetchWord 32 0x00140285

theorem witness_StepRuns : let s0 := ({ labStep with schedule := [], reply := 0 }.pass 0).focus 0
    labStep.schedule = [.unit 0 .sq 0] ∧ labStep.postpone (.unit 0 .sq 0) [] = none ∧ s0.core.halted = false ∧ s0.core.sq.run = .running ∧
    s0.core.sq.parked = none ∧ s0.core.firstPending = none ∧ s0.core.sq.pc ≠ s0.core.sq.exitAddr ∧ s0.core.sq.holds s0.time = none ∧
    s0.core.sq.aheadWord = none ∧
    s0.core.sq.nextAt.toNat ≤ s0.time.toNat ∧ isHost 0x1000 = false ∧ inDevice 0x1000 = false ∧
    s0.store.fetchCopy (.icache 0) (sectorOf 0x1000) = none ∧ s0.store.unpublished (sectorOf 0x1000) = false ∧
    s0.markAt [.icache 0] { placedTlb with nc := false } (sectorOf 0x1000) = none ∧
    decodeSq (encode (.addi 5 0 10)) = .ok (.addi 5 0 10) ∧
    readBytes s0.store.mem 0x1000 4 = encodeBytes (.addi 5 0 10) := by decide +kernel

theorem witness_StepRuns_translate : let s0 := ({ labStep with schedule := [], reply := 0 }.pass 0).focus 0
    ∃ t, s0.translate s0.sqAgent { fetch := true } s0.core.sq.pc = .ok 0x1000 t s0 ∧
      let s1 := (s0.noteReply s0.dieNo (64 * sectorOf 0x1000) 64).keepFetch (.icache 0) (sectorOf 0x1000) t
      s1.reply.toNat ≤ s1.time.toNat ∧ ∃ t2, s1.translate s1.sqAgent { fetch := true } (s0.core.sq.pc + 2) = .ok 0x1002 t2 s1 :=
  ⟨_, rfl, by decide +kernel, _, rfl⟩

theorem witness_StepRuns_fetch : let s0 := ({ labStep with schedule := [], reply := 0 }.pass 0).focus 0
    ∃ h h2 s1, s0.fetchSq = (.ok h s1, h2) ∧ decodeSq (wordOf h h2) = .ok (.addi 5 0 10) ∧ s1.reply.toNat ≤ s1.time.toNat :=
  ⟨_, _, _, rfl, by decide +kernel, by decide +kernel⟩

/-- The SQ keeps the word of an instruction that waits; a turn of core 1's SQ, which stands at a barrier word, is put behind that of
core 0, which stands at one as well. -/
theorem witness_StepRuns_order : ({ labStep with core.sq.fetched := some 0x00140285 } : State).core.sq.holds 0 = some 0x00140285 ∧
    labStep.postpone (.due 0 .hostLinkCompletion) [] = none ∧ labStep.postpone (.fetchAhead 0 0) [] = none ∧
    let bar : Core := { labStep.core with sq.fetched := some 0x1B00005D }
    let s : State := State.setCoreAt { labStep with core := bar, schedule := [.unit 1 .sq 0, .unit 0 .sq 0] } 1 bar
    s.postpone (.unit 1 .sq 0) [.unit 0 .sq 0] = some [.unit 0 .sq 0, .unit 1 .sq 0] ∧
    s.postpone (.event 0 .groupPlace 0) [] = none ∧ wordBits .groupPlace / 8 = 0 := by decide +kernel

/-- The next turn is the VE's; VADD stands at position 2. -/
def labVeStep : State := State.reset.withFetchWord 32 0x00800101

theorem witness_StepRuns_engine : let s0 := ({ labVeStep with schedule := [], reply := 0 }.pass 0).focus 0
    labVeStep.schedule = [.unit 0 (.eng .ve) 0] ∧ labVeStep.postpone (.unit 0 (.eng .ve) 0) [] = none ∧ s0.core.halted = false ∧
    (s0.eng .ve).nextAt.toNat ≤ s0.time.toNat ∧ decodeEngine .ve (encode (.vadd 2 0 1 0)) = .ok (.vadd 2 0 1 0) ∧ (s0.eng .ve).flt = false ∧ (s0.eng .ve).frz = false ∧
    (s0.eng .ve).parked = none ∧ (s0.eng .ve).st = .running ∧ (s0.eng .ve).atEnd = false ∧
    (s0.eng .ve).passStop = none ∧ (s0.eng .ve).repass = false ∧
    smFind (s0.eng .ve).words (s0.eng .ve).pos.toNat = some (bits (encode (.vadd 2 0 1 0)) 0 16) ∧
    smFind (s0.eng .ve).words ((s0.eng .ve).pos.toNat + 1) = some (bits (encode (.vadd 2 0 1 0)) 16 16) ∧
    (s0.eng .ve).pos.toNat + 1 < (s0.eng .ve).len := by decide +kernel

theorem witness_MemoryInvariant : (Memory.wf labStep.store.mem && Memory.wf labStep.store.host && Memory.wf labStep.store.sched &&
    Memory.wf labStep.store.sram) = true := by decide

theorem witness_RoundTrip : Instr.WellFormed (.vadd 2 0 1 0) ∧ wordBits (.vadd 2 0 1 0) ≠ 0 ∧ (decodeSq 0x00140285).toOption = some (.addi 5 0 10) := by
  decide +kernel

/-! ## Results, calculated by hand from the rules -/

/-- A value of the machine that an outcome goes on with. -/
def after {α : Type} (o : Out) (f : State → α) (d : α) : α :=
  match o with
  | .next t => f t
  | _ => d

/-- R107: the sum wraps, and at 32 bits it is sign-extended; R108: division by zero gives all ones, and the overflow the dividend. -/
theorem test_integer : after (exec (.add 6 3 5 0) lab) (·.x 6) 0 = 1 ∧
    after (exec (.add 6 1 2 1) { lab with core.sq.x := #v[0, 0x7FFFFFFF, 1, 0, 0, 0, 0, 0, 0, 0, 0, 0, 0, 0, 0, 0, 0, 0, 0, 0, 0, 0, 0, 0, 0, 0, 0, 0, 0, 0, 0, 0] })
      (·.x 6) 0 = 0xFFFFFFFF80000000 ∧
    after (exec (.div 6 5 0 0) lab) (·.x 6) 0 = 0xFFFFFFFFFFFFFFFF ∧ after (exec (.rem 6 3 5 0) lab) (·.x 6) 0 = 0xFFFFFFFFFFFFFFFE := by
  decide +kernel

/-- R112: a load of four bytes sign-extends, little-endian; LDN zero-extends. -/
theorem test_load : after (exec (.ld 6 4 0 2 0) lab) (·.x 6) 0 = 0xFFFFFFFF84030201 ∧
    after (exec (.ldn 6 4 0 2 0) lab) (·.x 6) 0 = 0x84030201 := by decide +kernel

/-- R112: a store writes its bytes, the lowest first. -/
theorem test_store : after (exec (.st 4 4 0 3 0) lab) (fun t => readBytes t.store.mem 0x200000 8) [] = [0, 0, 1, 0, 0, 0, 0, 0] := by decide +kernel

/-- R113: a branch goes to pc + 2 * offset. -/
theorem test_branch : after (exec (.beq 1 1 16) lab) (·.core.sq.pc) 0 = 0x60 ∧ after (exec (.bne 1 1 16) lab) (·.core.sq.pc) 0 = 0x44 := by
  decide +kernel

/-- R102, R104: TRAP 0x12 saves the pc, enters S and names its cause and code. -/
theorem test_trap : let s := { lab with core.sq.trap.tvec := 0x800 }
    after (exec (.trap 0x12) s) (·.core.sq.pc) 0 = 0x800 ∧ after (exec (.trap 0x12) s) (·.core.sq.trap.epc) 0 = 0x40 ∧
    after (exec (.trap 0x12) s) (·.priv) 0 = 1 ∧
    after (exec (.trap 0x12) s) (fun t => t.core.sq.trap.cause.toNat / 65536 % 4096) 0 = 0x12 := by decide +kernel

/-- R122: ERET at U raises PRIVILEGE, at S it returns. -/
theorem test_eret : after (exec .eret { labS with core.sq.trap.epc := 0x90 }) (·.core.sq.pc) 0 = 0x90 ∧
    after (exec .eret lab) (·.core.sq.trap.cause.toNat % 256) 0 = Cause.privilege.code.toNat := by decide +kernel

/-- R299: AMOADD at 32 bits returns the old word, sign-extended, and stores the sum. -/
theorem test_amoadd : after (exec (.amoadd 6 4 1 0 0 0 0) lab) (·.x 6) 0 = 0xFFFFFFFF84030201 ∧
    after (exec (.amoadd 6 4 1 0 0 0 0) lab) (fun t => readBytes t.store.mem 0x200000 4) [] = [8, 2, 3, 0x84] := by decide +kernel

/-- R138: a VADD of INT32 lands two VE cycles later, and not before: 5 + 7 wraps nowhere, 0x7FFFFFFF + 1 wraps. -/
theorem test_vadd : let s := { labVe with core.regs.gran := [(1, 0x7FFFFFFF00000005), (2, 0x0000000100000007)] }
    after (exec (.vadd 0 1 2 0) s) (fun t => t.core.veTick.regs.granule 0) 1 = 0 ∧
    after (exec (.vadd 0 1 2 0) s) (fun t => t.core.veTick.veTick.regs.granule 0) 1 = 0x800000000000000C := by decide +kernel

/-- R34, R46: FLOAT32 1.5 + 2.25 = 3.75. -/
theorem test_float : Ty.convert .f32 (modeOf 0) (fAdd (modeOf 0).rm (Ty.read .f32 (modeOf 0) 0x3FC00000) (Ty.read .f32 (modeOf 0) 0x40100000)) = 0x40700000 := by
  decide +kernel

/-- R34, R44: 1.0 to BFLOAT16 and E4M3. -/
theorem test_convert : Ty.convert .b16 (modeOf 0) (Ty.read .f32 (modeOf 0) 0x3F800000) = 0x3F80 ∧
    Ty.convert .e4m3 (modeOf 0) (Ty.read .f32 (modeOf 0) 0x3F800000) = 0x38 := by decide +kernel

/-- R89: PADD wraps; PMOVI sign-extends. -/
theorem test_pointers : after (exec (.padd 1 2) labAe) (·.ptr 1) 0 = 0x20000 ∧ after (exec (.pmovi 1 0x3FFFF) labAe) (·.ptr 1) 0 = 0xFFFFFFFFFFFFFFFF := by
  decide +kernel

/-- R119: ABORT restores the registers and goes to the handler. -/
theorem test_abort : after (exec .abort (labSpec 1)) (·.core.sq.pc) 0 = 0x80 ∧ after (exec .abort (labSpec 1)) (·.core.sq.spec.held.length) 9 = 0 := by
  decide +kernel

/-- R213, R214: CPY moves the 64 bytes from 0x11000 to 0x10000. -/
theorem test_cpy : let s := { labCe with store.mem := writeBytes labCe.store.mem 0x201000 [9, 8, 7] }
    after (exec (.cpy 0 1 2 0 0 0) s) (fun t => readBytes t.store.mem 0x200000 5) [] = [9, 8, 7, 0, 0] := by decide +kernel

/-- R384, R481: a group of one core starts at its code with the parameters in x10 to x13. -/
theorem test_group : let s := { labWaiting with launches := labWaiting.launches.map fun l =>
      { l with graph := { l.graph with nodes := [{ code := 0x4000, params := #v[1, 2, 3, 4] }] } } }
    after (exec .groupPlace s) (·.core.sq.pc) 0 = 0x4000 ∧ after (exec .groupPlace s) (fun t => (t.x 10, t.x 13, t.x 14)) (0, 0, 9) = (1, 4, 0) := by
  decide +kernel

/-- R309, R311: the first reader of a sector is granted Exclusive. -/
theorem test_gets : after (exec (.gets l1 0x8000 (ask false).ctx (ask false).hint) (labCoh [copyIn (.cluster 0) .e] ent [.req (ask false) 0x8000]))
    (·.store.coh.msgs) [] = [.grant l1 0x8000 .e] := by decide +kernel
/-! ## Decoding: words written out from the encodings of the opcode table (R56-R93), one for every row -/

/-- Words of the SQ. -/
theorem test_decode_sq_1 : ([(0x0009E503, .add 10 30 4 0),
    (0x806C2D83, .sub 27 2 22 1),
    (0x009CE883, .and 17 14 14),
    (0x00F99B03, .or 22 25 28),
    (0x011BD583, .xor 11 29 13),
    (0x015DF483, .andn 9 31 14),
    (0x02316D03, .sll 26 22 24 0),
    (0x8263C083, .srl 1 28 17 1),
    (0x828B3D03, .sra 26 19 5 1),
    (0x82F13883, .rol 17 19 24 1),
    (0x04293683, .slt 13 19 20),
    (0x044C2A83, .sltn 21 2 6)] : List (Nat × Instr)).all (fun p => decodeSq p.1 = .ok p.2) = true := by decide +kernel

/-- Words of the SQ. -/
theorem test_decode_sq_2 : ([(0x04B7CC83, .min 25 28 27),
    (0x04C1CA83, .max 21 28 0),
    (0x05369083, .minn 1 9 27),
    (0x054E0483, .maxn 9 0 7),
    (0x082C9E03, .mul 28 9 22 0),
    (0x086DA203, .mulh 4 26 22),
    (0x0891C083, .mulhn 1 28 8),
    (0x892A4103, .div 2 4 21 1),
    (0x8960BB83, .divn 23 11 16 1),
    (0x09BBD683, .rem 13 29 29 0),
    (0x09C9F383, .remn 7 31 4 0),
    (0x0C01A903, .clz 18 26 0)] : List (Nat × Instr)).all (fun p => decodeSq p.1 = .ok p.2) = true := by decide +kernel

/-- Words of the SQ. -/
theorem test_decode_sq_3 : ([(0x0C402583, .ctz 11 2 0),
    (0x0C811703, .popc 14 17 0),
    (0x8CC0F603, .bswap 12 15 1),
    (0x0D013403, .sext 8 19 0),
    (0x0D437B83, .zext 23 23 1),
    (0x25D69C05, .addi 24 9 4843),
    (0x07DA6D07, .andi 26 6 1005),
    (0x14FB7E09, .ori 28 23 2685),
    (0xC452FA8B, .xori 21 15 25129),
    (0x00279C8D, .slli 25 25 19 0),
    (0x012B730D, .srli 6 23 21 0),
    (0x02AC360D, .srai 12 3 22 1)] : List (Nat × Instr)).all (fun p => decodeSq p.1 = .ok p.2) = true := by decide +kernel

/-- Words of the SQ. -/
theorem test_decode_sq_4 : ([(0x034F940D, .roli 8 25 39 0),
    (0x00755B0F, .slti 22 21 58),
    (0x44267511, .sltni 10 7 8723),
    (0x4E377A93, .movw 21 3 1 20023),
    (0x9CC50A15, .ld 20 16 2 2 313),
    (0x6938A097, .ldn 1 10 12 1 210),
    (0xBE462D19, .st 26 2 3 2 380),
    (0x709FAC1B, .ldx 24 26 15 0 0 28),
    (0x003B339B, .ldxn 7 19 13 1 0 0),
    (0xC1386B9D, .stx 23 6 12 1 1 48),
    (0x24949A9F, .amoadd 21 9 10 2 1 1 0),
    (0x69943FA1, .amoand 31 3 10 6 2 3 0)] : List (Nat × Instr)).all (fun p => decodeSq p.1 = .ok p.2) = true := by decide +kernel

/-- Words of the SQ. -/
theorem test_decode_sq_5 : ([(0xE5703123, .amoor 2 3 24 5 1 3 1),
    (0x44479925, .amoxor 18 25 3 1 1 2 0),
    (0x8CB47CA7, .amomin 25 7 26 2 3 0 1),
    (0x3BA4BC29, .amomax 24 11 18 14 6 1 0),
    (0xE1140AAB, .amominn 21 0 10 4 0 3 1),
    (0xAAC0A6AD, .amomaxn 13 10 0 11 2 1 1),
    (0x4EFE63AF, .amoswp 7 6 31 11 3 2 0),
    (0xD0EE3BB1, .cas 23 3 23 3 4 2 1),
    (0x0B4112B3, .ldo 5 17 13 2 0 0),
    (0x91F0F035, .sto 15 24 7 4 0 1),
    (0x667B0137, .fenceC 2 26235),
    (0x000004B9, .fenceM 9)] : List (Nat × Instr)).all (fun p => decodeSq p.1 = .ok p.2) = true := by decide +kernel

/-- Words of the SQ. -/
theorem test_decode_sq_6 : ([(0x011B203B, .pubc 18 13 4),
    (0x0184B03D, .cache 11 2 2 1),
    (0xB4A31E41, .beq 28 17 23121),
    (0x76C10B43, .bne 22 16 15200),
    (0x88254BC5, .blt 23 20 17426),
    (0x15167EC7, .bge 29 7 2699),
    (0xD73C0249, .bltn 4 0 27550),
    (0xE87F9DCB, .bgen 27 25 29759),
    (0x28E4AFCD, .jal 31 167498),
    (0x865B33CF, .jalr 7 19 17197),
    (0xF65BF0D1, .enq 1 28 23 5 4 5 7),
    (0x00573053, .renq 19 11 1)] : List (Nat × Instr)).all (fun p => decodeSq p.1 = .ok p.2) = true := by decide +kernel

/-- Words of the SQ. -/
theorem test_decode_sq_7 : ([(0x030EB753, .renqNb 14 11 7 4),
    (0x04000055, .twait 2),
    (0x0A400055, .tsig 5),
    (0x0A800AD5, .tcnt 21 5),
    (0x05000DD7, .bpop 27 5),
    (0x02400E57, .bpopS 28 2),
    (0x05808057, .bpush 8 5),
    (0xFCA47059, .spec 1034823),
    (0x0000005B, .commit),
    (0x0040005B, .abort),
    (0x00800B5B, .specq 22),
    (0x4400005D, .bara 4 8)] : List (Nat × Instr)).all (fun p => decodeSq p.1 = .ok p.2) = true := by decide +kernel

/-- Words of the SQ. -/
theorem test_decode_sq_8 : ([(0x2C40005D, .barw 4 5),
    (0x5480005D, .baraw 4 10),
    (0x0437805F, .pqpush 24 27 4),
    (0x0440085F, .pqpop 16 4),
    (0x0380045F, .pqpeek 8 3),
    (0x00000DE1, .rdtime 27),
    (0x0141E061, .sleepu 30 1),
    (0x35000063, .trap 848),
    (0x00020063, .eret),
    (0x00040063, .wfi),
    (0x00060063, .brk),
    (0x0E660EE5, .rdsys 29 1843)] : List (Nat × Instr)).all (fun p => decodeSq p.1 = .ok p.2) = true := by decide +kernel

/-- Words of the SQ. -/
theorem test_decode_sq_9 : ([(0x13BC9067, .wrsys 9 2526),
    (0x00001069, .wview 1 0),
    (0x3340E06B, .tdset 14 205),
    (0x1190806D, .patch 8 8 6 2),
    (0x0001906F, .tlbinvVa 25),
    (0x0041706F, .tlbinvCtx 23),
    (0x0080006F, .tlbinvAll),
    (0x01000071, .eresume 1),
    (0x05400071, .efreeze 5),
    (0x048008F1, .equery 17 4)] : List (Nat × Instr)).all (fun p => decodeSq p.1 = .ok p.2) = true := by decide +kernel

/-- Words of the compact words. -/
theorem test_decode_c_1 : ([(0xD082, .cAddi 4 52),
    (0x04E4, .cMov 7 1),
    (0x3666, .cAdd 19 13),
    (0x1F68, .cSub 27 7),
    (0xC28A, .cLd 20 48),
    (0x140C, .cSt 0 5),
    (0x52AE, .cBeqz 21 20),
    (0x5230, .cBnez 17 20),
    (0xF152, .cJ 1930),
    (0xE5B4, .cSlli 13 57),
    (0xD5B6, .cSrli 13 53),
    (0xE058, .cAndi 2 56)] : List (Nat × Instr)).all (fun p => decodeSq p.1 = .ok p.2) = true := by decide +kernel

/-- Words of the compact words. -/
theorem test_decode_c_2 : ([(0x001A, .cRet),
    (0x009C, .cTwait 4)] : List (Nat × Instr)).all (fun p => decodeSq p.1 = .ok p.2) = true := by decide +kernel

/-- Words of the VE and the control words. -/
theorem test_decode_ve_1 : ([(0x0002, .nop),
    (0x0024, .bexit 1),
    (0x4486, .bskip 4 68),
    (0x0008, .stop),
    (0x020A, .bpushm 0 2 0),
    (0x00AC, .vmsel 5),
    (0x00EE, .rot 7),
    (0xB6BB2701, .vadd 78 118 109 1),
    (0x2E468D83, .vsub 27 141 92 0),
    (0xB5C12A85, .vmul 85 130 107 1),
    (0xBA831607, .vfma 44 6 117 1),
    (0x812FB709, .vfms 110 95 2 1)] : List (Nat × Instr)).all (fun p => decodeEngine .ve p.1 = .ok p.2) = true := by decide +kernel

/-- Words of the VE and the control words. -/
theorem test_decode_ve_2 : ([(0xBC44218B, .vmin 67 136 120 1),
    (0x27EA0D8D, .vmax 27 212 79 0),
    (0x9C41990F, .vand 50 131 56 1),
    (0xEA1F3211, .vor 100 62 212 1),
    (0xAC451593, .vxor 43 138 88 1),
    (0xAE38C515, .vshl 138 113 92 1),
    (0x3FB23997, .vshr 115 100 127 0),
    (0x3D348A99, .vadds 21 105 122 0),
    (0x0A05C41B, .vsubs 136 11 20 0),
    (0x61B7801D, .vmulh 0 111 195 0),
    (0xC1851D9F, .vabsd 59 10 131 1),
    (0x09BA02A1, .vcmpeq 5 116 19 0)] : List (Nat × Instr)).all (fun p => decodeEngine .ve p.1 = .ok p.2) = true := by decide +kernel

/-- Words of the VE and the control words. -/
theorem test_decode_ve_3 : ([(0x90188223, .vcmpne 4 49 32 1),
    (0x9B4403A5, .vcmplt 7 136 54 1),
    (0x911C8327, .vcmple 6 57 34 1),
    (0x44E428A9, .vsel 81 200 137),
    (0xAB0CE02B, .vperm 192 25 86 1),
    (0x2B450AAD, .vdot4 21 138 86 0),
    (0x2BE1BBAF, .vlut 119 195 87 0),
    (0x8638A931, .vscl 82 113 12 1),
    (0x03030333, .vmand 6 6 6),
    (0x010283B5, .vmor 7 5 2),
    (0x000302B7, .vmxor 5 6 0),
    (0x8002397D, .vmov 114 4 1)] : List (Nat × Instr)).all (fun p => decodeEngine .ve p.1 = .ok p.2) = true := by decide +kernel

/-- Words of the VE and the control words. -/
theorem test_decode_ve_4 : ([(0x00BB207D, .vneg 64 118 0),
    (0x010629FD, .vabs 83 12 0),
    (0x01BF067D, .vnot 12 126 0),
    (0x0227287D, .vcvt 80 78 0),
    (0x029119FD, .vcvtd 51 34),
    (0x03153DFD, .vcvtu 123 42 0),
    (0x03B582FD, .vrnd 5 107 0),
    (0x84199D7D, .vexp2 58 51 1),
    (0x04B102FD, .vlog2 5 98 0),
    (0x8535A87D, .vexp 80 107 1),
    (0x8594A4FD, .vrcp 73 41 1),
    (0x8622427D, .vrsq 132 68 1)] : List (Nat × Instr)).all (fun p => decodeEngine .ve p.1 = .ok p.2) = true := by decide +kernel

/-- Words of the VE and the control words. -/
theorem test_decode_ve_5 : ([(0x06B623FD, .vsqrt 71 108 0),
    (0x8715BC7D, .vsig 120 43 1),
    (0x8794877D, .vtanh 14 41 1),
    (0x084647FD, .vrdsum 143 140 0),
    (0x089846FD, .vrdmax 141 48 0),
    (0x091F3FFD, .vrdmin 127 62 0),
    (0x89A329FD, .vpopc 83 70 1),
    (0x0A398B7D, .vclz 22 115 0),
    (0x0AA72FFD, .vbcast 95 78 0),
    (0x0B01827D, .vmnot 4 3),
    (0x8B80A6FD, .vmcnt 77 1 1),
    (0x0C6A217D, .viota 66 0)] : List (Nat × Instr)).all (fun p => decodeEngine .ve p.1 = .ok p.2) = true := by decide +kernel

/-- Words of the VE and the control words. -/
theorem test_decode_ve_6 : ([(0x0C86007D, .vmode 12),
    (0x204388FD, .scset 17 135),
    (0x20B2AB7D, .scadde 86 101),
    (0x2114047D, .scmax 8 40),
    (0x218EBA7D, .scmin 116 29),
    (0x22218D7D, .scmov 26 67),
    (0x2287ABFD, .scbind 87 15),
    (0x236A3F7D, .scunb 126),
    (0x2392C37D, .scrd 134 37),
    (0x2442027D, .scwr 4 132),
    (0x24EA247D, .scnew 72),
    (0xD742037F, .vmovi 6 44676 1)] : List (Nat × Instr)).all (fun p => decodeEngine .ve p.1 = .ok p.2) = true := by decide +kernel

/-- Words of the AE. -/
theorem test_decode_ae_1 : ([(0xCF190C43, .ldv 49 4 6 828),
    (0x9C64C185, .stv 6 3 9 625),
    (0x5B52E147, .lds 133 11 4 365),
    (0x65F28089, .sts 2 10 12 407),
    (0x143C42CB, .gath 11 1 15 0 1 1),
    (0x001C224D, .scat 137 0 7 0 0),
    (0x23FB0F0F, .ldt 60 12 14 143),
    (0x25BC0AD1, .stt 43 0 15 150),
    (0xB53E8C13, .ldi 0 3 10 15 724),
    (0x186A0015, .pref 8 10 97),
    (0x9EB48217, .srchk 8 2 13 122 2),
    (0x0EF20919, .hist 36 8 12 59)] : List (Nat × Instr)).all (fun p => decodeEngine .ae p.1 = .ok p.2) = true := by decide +kernel

/-- Words of the AE. -/
theorem test_decode_ae_2 : ([(0x0059E09B, .atoms 130 7 6 1),
    (0x0029DE1D, .spillp 120 7 10),
    (0x003A109F, .fillp 66 8 14),
    (0x4CD97661, .paddi 9 13 78693),
    (0x00000863, .padd 1 2),
    (0xA9D04165, .pmovi 5 173889),
    (0x0000C127, .pmova 4 3),
    (0xAEABF3E9, .pmuli 15 12 178863),
    (0x000626EB, .pcmp 11 9 0 3)] : List (Nat × Instr)).all (fun p => decodeEngine .ae p.1 = .ok p.2) = true := by decide +kernel

/-- Words of the ME. -/
theorem test_decode_me : ([(0x4B2DB943, .mmul 5 110 3 1 22 1 0),
    (0x00000C85, .mfill 2 6),
    (0x00000087, .mpin 2),
    (0x00000109, .munpin 4),
    (0x0000008B, .minv 2),
    (0x0000214D, .mqry 5 2),
    (0x0000000F, .lrel),
    (0x00000291, .mclr 10),
    (0x0066F193, .mqset 6 111 2 1),
    (0x7A6FE0D5, .mqadd 3 501502),
    (0x000002D7, .mstat 11)] : List (Nat × Instr)).all (fun p => decodeEngine .me p.1 = .ok p.2) = true := by decide +kernel

/-- Words of the CE. -/
theorem test_decode_ce : ([(0x004027C3, .cpy 7 3 2 0 0 2),
    (0x00274085, .cpyt 2 0 4 14 4),
    (0x013C89C7, .cpyacc 7 4 9 7 2),
    (0x00177509, .fill 4 2 7 14 2 0),
    (0x0EC85F0B, .etch 4 7 5 473),
    (0x0000000D, .roundo 0),
    (0x0038000F, .roundc 7)] : List (Nat × Instr)).all (fun p => decodeEngine .ce p.1 = .ok p.2) = true := by decide +kernel

/-- Words of the XE. -/
theorem test_decode_xe : ([(0x0398E5C3, .xput 7 2 6 1 115),
    (0x013E2745, .xget 5 3 2 12 39),
    (0x4AE5E5C7, .xred 7 2 6 11 348 2),
    (0x159B8D89, .xsig 6 6 7 691),
    (0x018B954B, .xsend 5 2 1 7 49),
    (0x0000234D, .xadm 5 1 2),
    (0x0000024F, .xrefq 1 1),
    (0x00100D91, .xwait 6 6 2)] : List (Nat × Instr)).all (fun p => decodeEngine .xe p.1 = .ok p.2) = true := by decide +kernel

/-! ## Well-formedness: an ill-formed term for each check, refused by its name (R78) -/

/-- The SQ's checks: widths, shift amounts, hints, scopes and orderings. -/
theorem test_wellFormed_sq : ([(.sext 1 2 3, .subfield), (.zext 1 2 3, .subfield), (.slli 1 2 32 1, .subfield), (.srli 1 2 63 1, .subfield),
    (.srai 1 2 32 1, .subfield), (.roli 1 2 32 1, .subfield), (.ldx 1 2 0 3 3 0, .hint), (.ldxn 1 2 0 3 3 0, .hint),
    (.stx 1 2 0 3 3 0, .hint), (.amoadd 1 2 3 0 7 0 0, .scope), (.amoand 1 2 3 0 7 0 0, .scope), (.amoor 1 2 3 0 7 0 0, .scope),
    (.amoxor 1 2 3 0 7 0 0, .scope), (.amomin 1 2 3 0 7 0 0, .scope), (.amomax 1 2 3 0 7 0 0, .scope), (.amominn 1 2 3 0 7 0 0, .scope),
    (.amomaxn 1 2 3 0 7 0 0, .scope), (.amoswp 1 2 3 0 7 0 0, .scope), (.cas 1 2 3 0 7 0 0, .scope), (.ldo 1 2 0 7 0 0, .scope),
    (.ldo 1 2 0 1 2 0, .ord), (.sto 1 2 0 7 0 0, .scope), (.sto 1 2 0 1 1 0, .ord), (.fenceC 7 0, .scope), (.pubc 1 2 0, .scope),
    (.cache 1 2 0 0, .scope), (.cache 1 2 3 1, .subfield)] : List (Instr × Reject)).all (fun p => p.1.defect = some p.2) = true := by
  decide +kernel

/-- The SQ's checks: engines, takes, units, barriers, pairs and bit fields. -/
theorem test_wellFormed_queues : ([(.enq 6 1 2 7 7 7 7, .unit), (.enq 2 1 2 6 7 7 7, .unit), (.enq 2 1 2 7 2 7 7, .unit),
    (.enq 2 1 2 7 7 6 7, .unit), (.enq 2 1 2 7 7 7 2, .unit), (.enq 2 1 2 7 1 1 7, .unit), (.enq 2 1 2 7 1 3 1, .unit),
    (.enq 2 1 2 7 7 3 3, .unit), (.renq 1 2 0, .unit), (.renqNb 1 2 3 6, .unit), (.twait 0, .unit), (.tsig 7, .unit), (.tcnt 1 0, .unit),
    (.bpop 1 0, .unit), (.bpopS 1 6, .unit), (.bpush 1 0, .unit), (.eresume 0, .unit), (.efreeze 7, .unit), (.equery 1 0, .unit),
    (.cTwait 6, .unit), (.bara 1 0, .scope), (.barw 6 0, .scope), (.baraw 2 16, .subfield), (.baraw 5 8, .subfield), (.pqpush 1 2 2, .scope),
    (.pqpop 3 3, .subfield), (.pqpop 0 3, .subfield), (.pqpop 2 5, .scope), (.pqpeek 5 3, .subfield), (.pqpeek 2 1, .scope), (.sleepu 1 0, .unit),
    (.sleepu 1 6, .unit), (.patch 1 2 16 16, .subfield)] : List (Instr × Reject)).all (fun p => p.1.defect = some p.2) = true := by
  decide +kernel

/-- The checks of the control words and of the VE: units, counts, operand columns, banks, and the words over scales. -/
theorem test_wellFormed_ve : ([(.bexit 6, .unit), (.bskip 7 1, .unit), (.bskip 1 0, .subfield), (.bpushm 2 0 0, .unit), (.bpushm 6 0 0, .unit),
    (.bpushm 1 0 3, .subfield), (.vadd 0 1 3 0, .bank), (.vsub 0 2 4 0, .bank), (.vmul 194 1 2 0, .operand), (.vmin 200 1 2 0, .operand),
    (.vmax 0 160 2 0, .operand), (.vand 0 1 213 0, .operand), (.vor 0 144 2 0, .operand), (.vxor 212 1 2 0, .operand), (.vshl 0 1 1 0, .bank),
    (.vshr 0 0 2 0, .bank), (.vadds 0 1 3 0, .bank), (.vsubs 0 1 3 0, .bank), (.vmulh 0 1 3 0, .bank), (.vabsd 0 1 3 0, .bank),
    (.vsel 0 1 3, .bank), (.vperm 0 1 3 0, .bank), (.vlut 0 1 3 0, .bank), (.vscl 0 1 3 0, .bank), (.vfma 192 1 2 0, .operand),
    (.vfms 193 1 2 0, .operand), (.vdot4 0 1 3 0, .bank), (.vcmpeq 0 160 1 0, .operand), (.vcmpne 0 1 3 0, .bank), (.vcmplt 0 2 2 0, .bank),
    (.vcmple 0 1 171 0, .operand), (.vmov 196 1 0, .operand), (.vneg 0 165 0, .operand), (.vcvt 128 1 0, .operand), (.vcvt 0 192 0, .operand),
    (.vcvtd 128 1, .operand), (.vcvtd 0 192, .operand), (.vcvtu 192 1 0, .operand), (.vcvtu 0 128 0, .operand), (.vrdsum 202 1 0, .operand),
    (.vmcnt 194 0 0, .operand), (.viota 200 0, .operand), (.vmovi 212 0 0, .operand), (.scset 128 1, .operand), (.scadde 0 160, .operand),
    (.scmax 128 1, .operand), (.scmin 0 144, .operand), (.scmov 0 128, .operand), (.scbind 192 0, .operand), (.scrd 192 0, .operand),
    (.scwr 0 255, .operand), (.scunb 128, .operand), (.scnew 128, .operand)] : List (Instr × Reject)).all (fun p => p.1.defect = some p.2) = true := by
  decide +kernel

/-- The checks of the AE, ME, CE and XE. -/
theorem test_wellFormed_engines : ([(.ldv 200 0 0 0, .operand), (.lds 160 0 0 0, .operand), (.srchk 212 0 0 0 0, .operand), (.stv 194 0 0 0, .operand),
    (.sts 200 0 0 0, .operand), (.hist 194 0 0 0, .operand), (.atoms 160 0 0 0, .operand), (.atoms 0 0 0 5, .subfield),
    (.gath 200 0 0 0 0 0, .operand), (.gath 0 0 0 9 0 0, .subfield), (.scat 195 0 0 0 0, .operand), (.scat 0 0 0 13 1, .subfield),
    (.ldt 128 0 0 0, .operand), (.ldt 0 15 0 0, .subfield), (.stt 192 0 0 0, .operand), (.stt 0 15 0 0, .subfield), (.spillp 128 0 0, .operand),
    (.fillp 192 0 0, .operand), (.pcmp 0 1 6 0, .subfield), (.pcmp 0 1 0 1, .unit), (.pcmp 0 1 0 6, .unit), (.mmul 9 0 0 3 0 0 0, .subfield),
    (.mmul 0 0 6 2 0 0 0, .subfield), (.mmul 0 192 0 0 0 0 0, .operand), (.mmul 3 164 0 1 0 0 0, .operand), (.mmul 0 143 0 0 8 0 0, .operand),
    (.mqry 0 3, .unit), (.mqry 0 6, .unit), (.mclr 12, .subfield), (.mstat 15, .subfield), (.cpy 0 1 2 0 3 0, .subfield),
    (.cpy 0 1 2 0 0 3, .subfield), (.fill 0 1 2 0 3 0, .subfield), (.cpyacc 0 1 0 12 0, .subfield), (.cpyacc 0 1 0 0 1, .subfield),
    (.cpyt 7 1 2 0 0, .subfield), (.xred 0 1 2 0 0 4, .subfield), (.xwait 0 1 3, .subfield)] : List (Instr × Reject)).all
    (fun p => p.1.defect = some p.2) = true := by decide +kernel

/-- What single engines refuse: their own unit, the VE's words elsewhere, and pointers above p7 on the CE and the XE. -/
theorem test_wellFormed_defectOn : ([(.ae, .bexit 1, .unit), (.me, .bskip 3 1, .unit), (.ae, .bpushm 0 0 0, .opcode), (.ce, .vmsel 0, .opcode),
    (.xe, .rot 0, .opcode), (.ce, .paddi 8 0 0, .subfield), (.xe, .padd 0 8, .subfield), (.ce, .pmovi 15 0, .subfield), (.xe, .pmova 8 0, .subfield),
    (.ce, .pmuli 0 9 0, .subfield)] : List (Engine × Instr × Reject)).all (fun p => p.2.1.defectOn p.1 = some p.2.2) = true := by decide +kernel

/-- Reserved encodings are refused by name and do not fall through to a neighbour (R78): an unused opcode, a fixed bit that is set, a
reserved width, the parity rule, and a bad scope. -/
theorem test_decode_refused : decodeSq 0x7F = .error .opcode ∧ decodeSq 0x40000003 = .error .opcode ∧
    decodeEngine .ve 0x01808101 = .error .bank ∧ decodeSq 0xFFFFFFFF = .error .opcode := by decide +kernel

/-- The encoder writes the same words (R58-R77). -/
theorem test_encode : encode (.add 10 30 4 0) = 0x0009E503 ∧ encode (.vadd 2 0 1 0) = 0x00800101 ∧ encode (.ldi 6 2 7 0 2) = 0x0081C993 ∧
    encode (.mmul 0 0x10 0 0 3 1 0) = 0x41804003 ∧ encode (.cpy 1 2 3 1 0 1) = 0x0020B443 ∧ encode (.xput 1 2 3 0 12) = 0x00603443 ∧
    encode (.mclr 3) = 0xD1 ∧ encode (.roundo 2) = 0x0010000D ∧ encode (.trap 0x12) = 0x01200063 := by decide +kernel

/-- A row's word placed where the next step fetches runs as the first instruction after reset (R56, R67). -/
theorem test_withFetchWord : (match step (State.reset.withFetchWord 32 0x00140285) with | .next t => t.x 5 | _ => 0) = 10 ∧
    decodeTableWord 32 0x00140285 = some (.addi 5 0 10) ∧ decodeTableWord 32 0x00800101 = some (.vadd 2 0 1 0) := by decide +kernel

end

end Sys2Proof.Tests
end

section
/-! SUPPORT. The proofs of the statements of spec/00_scope.md: what reset leaves, what the accesses of the SQ and the AE find and write
(R5), and the freeze and the snapshot of a core (R9). -/

namespace Sys2Proof.Proofs.Scope

open Sys2Proof Sys2Proof.Machine Sys2Proof.Laws

/-! ### What reset leaves -/

/-- A key that a sparse map does not list reads as the default. -/
theorem smGet_unlisted {α : Type} (m : SMap α) (a : Nat) (d : α) (h : ∀ p ∈ m, p.1 ≠ a) : smGet m a d = d := by
  induction m with
  | nil => rfl
  | cons p t ih =>
    rw [smGet, if_neg (h p List.mem_cons_self)]
    exact ih fun q hq => h q (List.mem_cons_of_mem _ hq)

/-- The manager cores are numbered from 256 on (assumption log 9). -/
theorem managers_above {pc : Word} {p : Nat × Core} (h : p ∈ managers pc) : 256 ≤ p.1 := by
  obtain ⟨k, -, rfl⟩ := List.mem_map.1 h
  exact Nat.le_add_right ..

/-- Every compute core is fresh after reset. -/
theorem reset_coreAt_compute {n : Nat} (h : n < 256) : State.reset.coreAt n = Core.fresh := by
  unfold State.coreAt
  split
  · rfl
  · exact smGet_unlisted _ _ _ fun p hp => by have := managers_above hp; omega

/-- Every manager core runs its image from the start after reset. -/
theorem reset_coreAt_manager {n : Nat} (h : 256 ≤ n) (h' : n < 260) : State.reset.coreAt n = Core.manager 0 := by
  interval_cases n <;> rfl

/-- The registers of the SQ read zero after reset. -/
theorem reset_x (r : BitVec 5) : State.reset.x r = 0 := by
  unfold State.x
  split
  · rfl
  · show (Vector.replicate 32 (0 : Word))[r.toNat]'_ = 0
    rw [Vector.getElem_replicate]

/-- Settles O60: each clause reads the reset state at one place; only the map of the cores and the register file are looked up at a
variable index. -/
theorem resetState : Obligations.ResetState := by
  unfold Obligations.ResetState
  intro s
  have registers : ∀ n ∈ [0x001, 0x002, 0x003, 0x004, 0x005, 0x008, 0x00B, 0x00C, 0x00D] ++ (List.range 16).map (0x010 + ·),
      State.reset.sysRead n = 0 := by decide
  have manager (n : Nat) (h : 256 ≤ n) (h' : n < 260) :
      (s.coreAt n).sq.trap.status.priv = 3 ∧ (s.coreAt n).sq.run = .running := by
    rw [reset_coreAt_manager h h']; exact ⟨rfl, rfl⟩
  exact ⟨reset_x, registers, rfl, rfl, rfl, rfl, fun _ => rfl, rfl, rfl, rfl, fun _ => reset_coreAt_compute, manager,
    fun e => by cases e <;> exact ⟨rfl, rfl, rfl⟩, fun _ => rfl⟩

/-! ### What a load finds -/

/-- What a load answers: all of it from held stores, with nothing changed, or the bytes at home beneath them (R112, R116). -/
theorem found_cases {s s2 : State} {hs : List Holder} {al : Alloc} {t : Tlb} {pa n v : Nat} (h : s.found hs al t pa n = some (v, s2)) :
    (allHeld s.core.sq.spec.held pa n = true ∧ v = leNat (overlay s.core.sq.spec.held pa n []) ∧ s2 = s) ∨
    (allHeld s.core.sq.spec.held pa n = false ∧
      v = leNat (overlay s.core.sq.spec.held pa n (s.loadPhys hs al t pa n).1) ∧ s2 = (s.loadPhys hs al t pa n).2) := by
  unfold State.found at h
  simp only at h
  split at h
  case isTrue ha => cases h; exact .inl ⟨ha, rfl, rfl⟩
  case isFalse ha =>
    split at h
    · cases h
    · cases h; exact .inr ⟨by simpa using ha, rfl, rfl⟩

/-- Each byte of a value found is the one of held stores, or else the one that a load of memory answers. -/
theorem found_byte {s s2 : State} {hs : List Holder} {al : Alloc} {t : Tlb} {pa n v k : Nat} (h : s.found hs al t pa n = some (v, s2))
    (hk : k < n) :
    v / 256 ^ k % 256 = ((heldByte s.core.sq.spec.held (pa + k)).getD ((s.loadPhys hs al t pa n).1.getD k 0)).toNat := by
  rcases found_cases h with ⟨ha, rfl, -⟩ | ⟨-, rfl, -⟩
  · obtain ⟨b, hb⟩ := Option.isSome_iff_exists.1 (List.all_eq_true.1 ha k (List.mem_range.2 hk))
    rw [leNat_get, overlay_getD _ _ _ _ _ hk, hb]; rfl
  · rw [leNat_get, overlay_getD _ _ _ _ _ hk]

/-- A load of coherent package memory answers the bytes of memory at their places. -/
theorem loadPhys_getD (s : State) (hs : List Holder) (al : Alloc) {t : Tlb} {pa n k : Nat} (ht : t.nc = false) (hp : isHost pa = false)
    (hd : inDevice pa = false) (hk : k < n) : (s.loadPhys hs al t pa n).1.getD k 0 = memRead s.store.mem (pa + k) := by
  rw [(loadPhys_coherent s hs al t pa n ht hp hd).1, List.getD_eq_getElem?_getD, List.getElem?_map, List.getElem?_range hk]; rfl

/-- Outside a region a load finds the bytes of coherent package memory, and leaves every copy of a non-coherent page. -/
theorem found_unheld {s s2 : State} {hs : List Holder} {al : Alloc} {t : Tlb} {pa n v : Nat} (ht : t.nc = false) (hp : isHost pa = false)
    (hd : inDevice pa = false) (hh : s.core.sq.spec.held = []) (h : s.found hs al t pa n = some (v, s2)) :
    v = leNat ((List.range n).map fun k => memRead s.store.mem (pa + k)) ∧ s2.store.nc = s.store.nc := by
  rcases found_cases h with ⟨ha, rfl, rfl⟩ | ⟨-, rfl, rfl⟩
  · rw [hh] at ha
    obtain rfl := allHeld_nil ha
    exact ⟨rfl, rfl⟩
  · refine ⟨?_, (loadPhys_keeps s hs al t pa n).2.2.2 ht⟩
    rw [hh, (loadPhys_coherent s hs al t pa n ht hp hd).1]
    have o := overlay_nil pa ((List.range n).map fun k => memRead s.store.mem (pa + k))
    rw [List.length_map, List.length_range] at o
    rw [o]

/-- Settles O7: the value is read byte by byte out of the overlay of the held stores on the bytes at home. -/
theorem loadedValue : Obligations.LoadedValue := by
  unfold Obligations.LoadedValue
  refine ⟨fun s s2 hs t al pa n v ht hp hd hh h => ?_, fun s s2 hs t al pa n v h => ?_⟩
  · obtain ⟨hv, hnc⟩ := found_unheld ht hp hd hh h
    obtain ⟨hdata, hsame, hrest, hdie⟩ := found_keeps h
    exact ⟨hv, hdata, hnc, hsame, hrest, hdie⟩
  · intro covers
    refine ⟨fun k hk => ⟨fun old x new he hc hn => ?_, fun ht hp hd hn => ?_⟩, fun hall => ?_⟩
    · rw [found_byte h hk, he, heldByte_young old new x (pa + k) hc hn]
      exact BitVec.toNat_ofNat ..
    · rw [found_byte h hk, heldByte_none _ _ hn, loadPhys_getD s hs al ht hp hd hk]; rfl
    · rcases found_cases h with ⟨-, -, e⟩ | ⟨ha, -, -⟩
      · exact e
      · have : allHeld s.core.sq.spec.held pa n = true := List.all_eq_true.2 fun k hk => by
          obtain ⟨x, hx, hc⟩ := hall k (List.mem_range.1 hk)
          exact heldByte_some _ _ x hx hc
        rw [this] at ha; cases ha

/-! ### What a store writes -/

/-- Waking home dies leaves the storage and the core. -/
theorem wakeHomes_store (s : State) (pa n : Nat) : (s.wakeHomes pa n).store = s.store := by rw [(wakeHomes_keeps s pa n).1]

theorem wakeHomes_core (s : State) (pa n : Nat) : (s.wakeHomes pa n).core = s.core := by rw [(wakeHomes_keeps s pa n).1]

/-- No register changes where a write wakes dies and parked accesses. -/
theorem woken_x (s : State) (pa n : Nat) (ls : List Nat) (r : BitVec 5) : ((s.wakeHomes pa n).wakeLines ls).x r = s.x r := by
  rw [wakeLines_x]
  unfold State.x
  rw [wakeHomes_core]

/-- A store to the host window becomes the youngest posted write, and neither package memory nor the host's changes yet (R295). -/
theorem storeAcc_host (s : State) (hs : List Holder) (al : Alloc) (t : Tlb) {pa : Nat} (bs : List Byte) (h : isHost pa = true) :
    (s.storeAcc hs al t pa bs).store = { s.store with posted := s.store.posted ++ [(pa - 0x800000000000, bs)] } := by
  unfold State.storeAcc State.storePhys
  simp only [h, host_not_device h, Bool.true_or, if_true, Bool.false_eq_true, if_false, wakeLines_mem, wakeHomes_store]

/-- The holder whose copy a store to a sector of a non-coherent page writes (R320); none where it performs at home. -/
def ncTarget (st : Store) (hs : List Holder) (al : Alloc) (k : Nat) : Option Holder :=
  match al with
  | .all | .stream => hs.find? fun h => (st.ncOf h k).isSome || !(st.ncRoom h k).full h k
  | .l2only => hs.find? (fun h => (st.ncOf h k).isSome) <|> hs.getLast?
  | .home => hs.find? fun h => (st.ncOf h k).isSome

/-- The part of a store that lies in one sector of a non-coherent page, written to the copy of a holder. -/
def ncWrite (hs : List Holder) (pa : Nat) (bs : List Byte) (h : Holder) (s : State) (k : Nat) : State :=
  let lo := max pa (64 * k)
  let part := (bs.drop (lo - pa)).take (64 * k + 64 - lo)
  let new := patchBytes (s.store.ncBytes hs k) (lo - 64 * k) part
  let here (x : Nat × Nat) : Bool := x.2 = k && hs.any fun h => holderDie h = x.1
  let mark := if part.length = 64 then none else s.store.ncMark hs k <|> if s.store.badAt.any here then some false else none
  let st := (s.store.ncRoom h k).ncSet { holder := h, sector := k, data := new, dirty := true, mark := mark }
  { s with store := { st with badAt := st.badAt.filter fun x => !here x } }

/-- The same at home. -/
def ncWriteHome (pa : Nat) (bs : List Byte) (s : State) (k : Nat) : State :=
  let lo := max pa (64 * k)
  s.storePhys lo ((bs.drop (lo - pa)).take (64 * k + 64 - lo))

/-- A store to a non-coherent page of package memory, of which no sector is code, writes sector by sector (R320). -/
theorem storeAcc_noncoherent (s : State) (hs : List Holder) (al : Alloc) {t : Tlb} {pa : Nat} {bs : List Byte} (ht : t.nc = true)
    (hp : isHost pa = false) (hd : inDevice pa = false) (hc : ∀ k ∈ sectorsOf pa bs.length, s.store.isCode (64 * k) = false) :
    s.storeAcc hs al t pa bs = (sectorsOf pa bs.length).foldl (fun u k =>
      match ncTarget s.store hs al k with
      | none => ncWriteHome pa bs u k
      | some h => ncWrite hs pa bs h u k) (s.wakeHomes pa bs.length) := by
  have coherent : ¬(isHost pa || inDevice pa) = true := by simp [hp, hd]
  have code : ¬((sectorsOf pa bs.length).any fun k => (s.wakeHomes pa bs.length).store.isCode (64 * k)) = true := by
    rw [wakeHomes_store]
    simpa using hc
  rw [← wakeHomes_store s pa bs.length]
  unfold State.storeAcc
  rw [if_neg coherent, if_neg code, if_pos ht]
  rfl

/-- Where some holder has a copy of a sector or room for one, as the allocation asks, the store writes a copy. -/
theorem ncTarget_isSome {st : Store} {hs : List Holder} {al : Alloc} {k : Nat}
    (h : al = .l2only ∧ hs ≠ [] ∨
      ∃ h ∈ hs, (st.ncOf h k).isSome = true ∨ (al = .all ∨ al = .stream) ∧ (st.ncRoom h k).full h k = false) :
    ∃ h, ncTarget st hs al k = some h := by
  have found {p : Holder → Bool} (h : ∃ h ∈ hs, p h = true) : ∃ h, hs.find? p = some h :=
    Option.isSome_iff_exists.1 (List.find?_isSome.2 h)
  have roomy (h : ∃ h ∈ hs, (st.ncOf h k).isSome = true ∨ (st.ncRoom h k).full h k = false) :
      ∃ h, (hs.find? fun h => (st.ncOf h k).isSome || !(st.ncRoom h k).full h k) = some h :=
    found (by simpa using h)
  unfold ncTarget
  cases al with
  | all => exact roomy (by simpa using h)
  | stream => exact roomy (by simpa using h)
  | home => exact found (by simpa using h)
  | l2only =>
    have hne : hs ≠ [] := by
      rcases h with ⟨-, h⟩ | ⟨h, hm, -⟩
      · exact h
      · exact List.ne_nil_of_mem hm
    simp only [List.getLast?_eq_some_getLast hne, Option.orElse_eq_orElse]
    cases hs.find? fun h => (st.ncOf h k).isSome <;> exact ⟨_, rfl⟩

/-- Two machines differ in their copies of non-coherent pages, and in the transfers that are poisoned, alone. -/
structure OnlyCopies (s u : State) : Prop where
  data (b : List (Nat × Nat)) : { u.store.data with badAt := b } = { s.store.data with badAt := b }
  same : u = { s with store := u.store }

theorem OnlyCopies.refl (s : State) : OnlyCopies s s := ⟨fun _ => rfl, rfl⟩

theorem OnlyCopies.trans {s t u : State} (h : OnlyCopies s t) (g : OnlyCopies t u) : OnlyCopies s u :=
  ⟨fun b => (g.data b).trans (h.data b), by rw [g.same, h.same]⟩

/-- A fold whose steps change copies alone changes copies alone. -/
theorem OnlyCopies.foldl {α : Type} {f : State → α → State} {l : List α} (h : ∀ a ∈ l, ∀ s, OnlyCopies s (f s a)) (s : State) :
    OnlyCopies s (l.foldl f s) := by
  induction l generalizing s with
  | nil => exact .refl s
  | cons a l ih =>
    exact (h a List.mem_cons_self s).trans (ih (fun b hb => h b (List.mem_cons_of_mem _ hb)) _)

theorem ncWrite_onlyCopies (hs : List Holder) (pa : Nat) (bs : List Byte) (h : Holder) (s : State) (k : Nat) :
    OnlyCopies s (ncWrite hs pa bs h s k) :=
  ⟨fun b => congrArg (fun st : Store => { st with badAt := b }) (ncRoom_data s.store h k), rfl⟩

/-- A store to coherent package memory, of whose sectors no copy of a non-coherent page stands, writes its bytes alone. -/
theorem storeAcc_bytes {s : State} (hs : List Holder) (al : Alloc) {t : Tlb} {pa : Nat} {bs : List Byte} (ht : t.nc = false)
    (hp : isHost pa = false) (hd : inDevice pa = false) (hn : ∀ c ∈ s.store.nc, c.sector ∉ sectorsOf pa bs.length)
    (hw : Memory.wf s.store.mem = true) (a : Nat) :
    memRead (s.storeAcc hs al t pa bs).store.mem a = if pa ≤ a ∧ a < pa + bs.length then bs.getD (a - pa) 0 else memRead s.store.mem a := by
  rw [(storeAcc_coherent s hs al t pa bs ht hp hd hn).1, memRead_writeBytes _ _ _ _ hw]

/-- The bytes of a number, stored, read back as the number. -/
theorem storeAcc_leNat {s : State} (hs : List Holder) (al : Alloc) {t : Tlb} {pa n : Nat} (v : Nat) (ht : t.nc = false)
    (hp : isHost pa = false) (hd : inDevice pa = false) (hn : ∀ c ∈ s.store.nc, c.sector ∉ sectorsOf pa n)
    (hw : Memory.wf s.store.mem = true) :
    leNat ((List.range n).map fun k => memRead (s.storeAcc hs al t pa (leBytes n v)).store.mem (pa + k)) = v % 256 ^ n := by
  have byte (k : Nat) (hk : k < n) : memRead (s.storeAcc hs al t pa (leBytes n v)).store.mem (pa + k) = BitVec.ofNat 8 (v / 256 ^ k) := by
    rw [storeAcc_bytes hs al ht hp hd (by rwa [leBytes_length]) hw, leBytes_length, if_pos (by omega), Nat.add_sub_cancel_left,
      leBytes_getD n v k hk]
  rw [List.map_congr_left fun k hk => byte k (List.mem_range.1 hk), ← leBytes_eq_map, leNat_leBytes]

/-- A store to a non-coherent page that finds a copy, or room for one, in every sector changes copies alone. -/
theorem storeAcc_onlyCopies {s : State} {hs : List Holder} {al : Alloc} {t : Tlb} {pa : Nat} {bs : List Byte} (ht : t.nc = true)
    (hp : isHost pa = false) (hd : inDevice pa = false) (hc : ∀ k ∈ sectorsOf pa bs.length, s.store.isCode (64 * k) = false)
    (hk : ∀ k ∈ sectorsOf pa bs.length, ∃ h, ncTarget s.store hs al k = some h) :
    OnlyCopies (s.wakeHomes pa bs.length) (s.storeAcc hs al t pa bs) := by
  rw [storeAcc_noncoherent s hs al ht hp hd hc]
  refine OnlyCopies.foldl (fun k hmem u => ?_) _
  obtain ⟨h, hh⟩ := hk k hmem
  rw [hh]
  exact ncWrite_onlyCopies hs pa bs h u k

/-- Settles O9: a coherent store writes at home what `storeAcc_coherent` says; on a non-coherent page every sector goes to a copy. -/
theorem storedBytes : Obligations.StoredBytes := by
  unfold Obligations.StoredBytes
  refine ⟨fun s hs al t pa n v ht hp hd hn hw => ?_, fun s hs al t pa bs => ⟨fun hp => ?_, fun hp hd hc ht hk => ?_⟩⟩
  · have hn' : ∀ c ∈ s.store.nc, c.sector ∉ sectorsOf pa (leBytes n v).length := by rwa [leBytes_length]
    have hb := storeAcc_bytes hs al ht hp hd hn' hw
    obtain ⟨hmem, hhost, hsched, hsram, hposted, -, hsame, hrest⟩ := storeAcc_coherent s hs al t pa (leBytes n v) ht hp hd hn'
    rw [leBytes_length] at hb hsame
    exact ⟨storeAcc_leNat hs al v ht hp hd hn hw, fun a ha => by rw [hb, if_neg (by omega)], hsame, woken_x s pa n _, hrest, hhost,
      hsram, hsched, hposted, by rw [hmem]; exact writeBytes_wf _ _ _ hw⟩
  · simp only [storeAcc_host s hs al t bs hp, and_self]
  · have only : OnlyCopies (s.wakeHomes pa bs.length) (s.storeAcc hs al t pa bs) :=
      storeAcc_onlyCopies ht hp hd hc fun k hm => ncTarget_isSome (hk.imp_right fun ⟨h, hh, hall⟩ => ⟨h, hh, hall k hm⟩)
    refine ⟨(only.data s.store.badAt).trans ?_, only.same⟩
    rw [wakeHomes_store]; rfl

/-! ### The words LDV, STV and PREF -/

/-- A word that needs its operands, and no access of its class on the wheel, goes on where both are given. -/
theorem aeIssue_go {s : State} {p cls : BitVec 4} {n : Nat} {go : Out} (hm : s.memReady [p] n = true) (ho : s.inOrder cls = true) :
    aeReady [p] n s (aeOrder cls s go) = go := by
  rw [aeReady_mem hm, aeOrder_go ho]

section
variable {s : State} {opd : BitVec 8} {p cls : BitVec 4} {imm : BitVec 10}

/-- LDV and STV of an address that is not a multiple of 64 raise MISALIGNED with element 0 (R204). -/
theorem ldv_misaligned (hm : s.memReady [p] 16 = true) (ho : s.inOrder cls = true) (ha : (s.kibAddr p imm).toNat % 64 ≠ 0)
    {put : Core → LDest × Core} (hd : s.loadTarget opd = some put) :
    execLdv opd p cls imm s = .next (s.engFault .misaligned (s.kibAddr p imm) 0) := by
  unfold execLdv
  rw [aeIssue_go hm ho, aeDest_go hd]
  exact if_pos ha

theorem stv_misaligned (hm : s.memReady [p] 16 = true) (ho : s.inOrder cls = true) (ha : (s.kibAddr p imm).toNat % 64 ≠ 0)
    {b : List Byte × Core} (hb : s.storeBytes opd = some b) :
    execStv opd p cls imm s = .next (s.engFault .misaligned (s.kibAddr p imm) 0) := by
  unfold execStv
  rw [aeIssue_go hm ho, storeSource_go hb]
  exact if_pos ha

/-- An aligned LDV every sector of which can be read puts the bytes on their way to its register. -/
theorem ldv_go (hm : s.memReady [p] 16 = true) (ho : s.inOrder cls = true) (ha : (s.kibAddr p imm).toNat % 64 = 0)
    {put : Core → LDest × Core} (hd : s.loadTarget opd = some put) {todo : List (Nat × Word × Except Cause (Nat × Tlb))} {s1 : State}
    (hs : s.sectorsLeft (s.streamAgent p.toNat) { read := true } (s.kibAddr p imm) 1024 = some (todo, s1)) :
    let kept := (s.act.part.getD {}).data
    let r := todo.foldl (s1.readInto .all) (if kept.isEmpty then List.replicate 1024 0 else kept, s1)
    execLdv opd p cls imm s = .next ((r.2.launchLoad put { dest := .none, data := granOfBytes (r.1.take 1024), reqs := 16 }).wordDone 2) := by
  intro kept r
  unfold execLdv
  rw [aeIssue_go hm ho, aeDest_go hd]
  exact (if_neg (not_not.2 ha)).trans (vecRead_go hs)

/-- An aligned STV every sector of which can be written writes the bytes of its source. -/
theorem stv_go (hm : s.memReady [p] 16 = true) (ho : s.inOrder cls = true) (ha : (s.kibAddr p imm).toNat % 64 = 0)
    {src : List Byte} {c : Core} (hb : s.storeBytes opd = some (src, c)) {todo : List (Nat × Word × Except Cause (Nat × Tlb))} {s1 : State}
    (hs : (s.keepSource src).sectorsLeft (s.streamAgent p.toNat) { write := true } (s.kibAddr p imm) src.length = some (todo, s1)) :
    execStv opd p cls imm s =
      .next (State.wordDone { todo.foldl (s1.writeFrom .all src) s1 with core.sqq := c.sqq } 2) := by
  unfold execStv
  rw [aeIssue_go hm ho, storeSource_go hb]
  exact (if_neg (not_not.2 ha)).trans (vecWrite_go hs)

/-- PREF fetches piece by piece, and what it fetches counts as requests (R209). -/
theorem pref_go (hm : s.memReady [p] 16 = true) :
    let r := (piecesOf (BitVec.ofNat 64 ((s.kibAddr p imm).toNat / 64 * 64)) 1024).foldl (State.prefetch (s.streamAgent p.toNat)) (s, 0)
    execPref p cls imm s = .next ((if r.2 = 0 then r.1 else r.1.launchLoad noDest { dest := .none, reqs := r.2 }).wordDone 2) := by
  unfold execPref
  rw [aeReady_mem hm]
  rfl

end

/-! ### The sectors of a vector access -/

/-- A sector of coherent package memory: where the access to it performs. -/
def CoherentAt (x : Nat × Word × Except Cause (Nat × Tlb)) (pa : Nat) (t : Tlb) : Prop :=
  x.2.2 = .ok (pa, t) ∧ t.nc = false ∧ isHost pa = false ∧ inDevice pa = false

/-- The bytes of a sector of coherent memory, read into a buffer at their place, with memory and the core unchanged. -/
theorem readInto_coherent (s0 : State) (al : Alloc) (acc : List Byte × State) {x : Nat × Word × Except Cause (Nat × Tlb)} {pa : Nat}
    {t : Tlb} (h : CoherentAt x pa t) (hx : 64 * x.1 + 64 ≤ acc.1.length) :
    let r := s0.readInto al acc x
    r.2.store.mem = acc.2.store.mem ∧ r.2.core = acc.2.core ∧ r.1.length = acc.1.length ∧
      (r.1.drop (64 * x.1)).take 64 = (List.range 64).map fun k => memRead acc.2.store.mem (pa + k) := by
  obtain ⟨hr, ht, hp, hd⟩ := h
  obtain ⟨hbytes, hmem, hcore⟩ := loadPhys_coherent acc.2 s0.engHolders al t pa 64 ht hp hd
  have hlen : (acc.2.loadPhys s0.engHolders al t pa 64).1.length = 64 := by rw [hbytes]; simp
  have e : s0.readInto al acc x =
      (patchBytes acc.1 (64 * x.1) (acc.2.loadPhys s0.engHolders al t pa 64).1, (acc.2.loadPhys s0.engHolders al t pa 64).2) := by
    unfold State.readInto; rw [hr]
  rw [e]
  have hpatch := patch_take acc.1 (64 * x.1) (acc.2.loadPhys s0.engHolders al t pa 64).1 (by omega)
  rw [hlen] at hpatch
  exact ⟨hmem, hcore, patch_length _ _ _ (by omega), hpatch.trans hbytes⟩

/-- Sectors of coherent memory read in order leave memory, the core and the length of the buffer. -/
theorem readInto_fold (s0 : State) (al : Alloc) (l : List (Nat × Word × Except Cause (Nat × Tlb))) (acc : List Byte × State)
    (hl : ∀ x ∈ l, 64 * x.1 + 64 ≤ acc.1.length ∧ ∃ pa t, CoherentAt x pa t) :
    let r := l.foldl (s0.readInto al) acc
    r.2.store.mem = acc.2.store.mem ∧ r.2.core = acc.2.core ∧ r.1.length = acc.1.length := by
  induction l generalizing acc with
  | nil => exact ⟨rfl, rfl, rfl⟩
  | cons x l ih =>
    obtain ⟨hx, pa, t, h⟩ := hl x List.mem_cons_self
    obtain ⟨hmem, hcore, hlen, -⟩ := readInto_coherent s0 al acc h hx
    obtain ⟨imem, icore, ilen⟩ := ih (s0.readInto al acc x) fun y hy => by rw [hlen]; exact hl y (List.mem_cons_of_mem _ hy)
    exact ⟨imem.trans hmem, icore.trans hcore, ilen.trans hlen⟩

/-- What a store to coherent package memory keeps for those that follow: the registers, the storage beside package memory, the copies of
non-coherent pages, and the canonical form of memory. -/
structure StoreKeeps (s u : State) : Prop where
  regs : u.core.regs = s.core.regs
  x (r : BitVec 5) : u.x r = s.x r
  host : u.store.host = s.store.host
  sram : u.store.sram = s.store.sram
  posted : u.store.posted = s.store.posted
  nc : u.store.nc = s.store.nc
  wf : Memory.wf s.store.mem = true → Memory.wf u.store.mem = true

theorem StoreKeeps.refl (s : State) : StoreKeeps s s := ⟨rfl, fun _ => rfl, rfl, rfl, rfl, rfl, id⟩

theorem StoreKeeps.trans {s t u : State} (h : StoreKeeps s t) (g : StoreKeeps t u) : StoreKeeps s u :=
  ⟨g.regs.trans h.regs, fun r => (g.x r).trans (h.x r), g.host.trans h.host, g.sram.trans h.sram, g.posted.trans h.posted,
    g.nc.trans h.nc, g.wf ∘ h.wf⟩

/-- A coherent store keeps them. -/
theorem storeAcc_keeps {s : State} (hs : List Holder) (al : Alloc) {t : Tlb} {pa : Nat} {bs : List Byte} (ht : t.nc = false)
    (hp : isHost pa = false) (hd : inDevice pa = false) (hn : ∀ c ∈ s.store.nc, c.sector ∉ sectorsOf pa bs.length) :
    StoreKeeps s (s.storeAcc hs al t pa bs) := by
  obtain ⟨hmem, hhost, -, hsram, hposted, hnc, hsame, -⟩ := storeAcc_coherent s hs al t pa bs ht hp hd hn
  have hcore : (s.storeAcc hs al t pa bs).core = ((s.wakeHomes pa bs.length).wakeLines ((sectorsOf pa bs.length).map (· / 4))).core :=
    (congrArg State.core hsame).trans rfl
  refine ⟨?_, fun r => ?_, hhost, hsram, hposted, hnc, fun hw => ?_⟩
  · rw [hcore]
    exact (wakeLines_regs _ _).trans (by rw [wakeHomes_core])
  · refine Eq.trans ?_ (woken_x s pa bs.length ((sectorsOf pa bs.length).map (· / 4)) r)
    unfold State.x
    rw [hcore]
  · rw [hmem]; exact writeBytes_wf _ _ _ hw

/-- A sector to which a vector store writes coherent memory: no copy of a non-coherent page stands of it. -/
def WritableAt (nc : List DataCopy) (x : Nat × Word × Except Cause (Nat × Tlb)) (pa : Nat) (t : Tlb) : Prop :=
  CoherentAt x pa t ∧ ∀ c ∈ nc, c.sector ∉ sectorsOf pa 64

/-- A sector written: its bytes of the source at its address, and nothing else. -/
theorem writeFrom_coherent (s0 : State) (al : Alloc) (src : List Byte) {s : State} {x : Nat × Word × Except Cause (Nat × Tlb)} {pa : Nat}
    {t : Tlb} (h : WritableAt s.store.nc x pa t) :
    let u := s0.writeFrom al src s x
    StoreKeeps s u ∧ (Memory.wf s.store.mem = true → ∀ a, memRead u.store.mem a =
      if pa ≤ a ∧ a < pa + ((src.drop (64 * x.1)).take 64).length then ((src.drop (64 * x.1)).take 64).getD (a - pa) 0
      else memRead s.store.mem a) := by
  obtain ⟨⟨hr, ht, hp, hd⟩, hn⟩ := h
  have e : s0.writeFrom al src s x = s.storeAcc s0.engHolders al t pa ((src.drop (64 * x.1)).take 64) := by
    unfold State.writeFrom; rw [hr]
  have hn' : ∀ c ∈ s.store.nc, c.sector ∉ sectorsOf pa ((src.drop (64 * x.1)).take 64).length :=
    fun c hc hk => hn c hc (sectorsOf_sub (List.length_take_le _ _) hk)
  rw [e]
  exact ⟨storeAcc_keeps _ al ht hp hd hn', fun hw => storeAcc_bytes _ al ht hp hd hn' hw⟩

/-- Sectors written in order keep what a coherent store keeps, and every byte outside them. -/
theorem writeFrom_fold (s0 : State) (al : Alloc) (src : List Byte) (l : List (Nat × Word × Except Cause (Nat × Tlb))) (s : State)
    (hl : ∀ x ∈ l, ∃ pa t, WritableAt s.store.nc x pa t) :
    let u := l.foldl (s0.writeFrom al src) s
    StoreKeeps s u ∧ (Memory.wf s.store.mem = true → ∀ a, (∀ x ∈ l, ∀ pa t, x.2.2 = .ok (pa, t) → a < pa ∨ pa + 64 ≤ a) →
      memRead u.store.mem a = memRead s.store.mem a) := by
  induction l generalizing s with
  | nil => exact ⟨.refl s, fun _ _ _ => rfl⟩
  | cons x l ih =>
    obtain ⟨pa, t, h⟩ := hl x List.mem_cons_self
    obtain ⟨hkeep, hbyte⟩ := writeFrom_coherent s0 al src h
    obtain ⟨ikeep, ibyte⟩ := ih (s0.writeFrom al src s x) fun y hy => by rw [hkeep.nc]; exact hl y (List.mem_cons_of_mem _ hy)
    refine ⟨hkeep.trans ikeep, fun hw a ha => ?_⟩
    have outside := ha x List.mem_cons_self pa t h.1.1
    have short := List.length_take_le 64 (src.drop (64 * x.1))
    exact (ibyte (hkeep.wf hw) a fun y hy => ha y (List.mem_cons_of_mem _ hy)).trans ((hbyte hw a).trans (if_neg (by omega)))

/-- Settles O37: the words by their own lemmas, the sectors read and written by induction on their list, the last one at its end. -/
theorem vectorMemory : Obligations.VectorMemory := by
  unfold Obligations.VectorMemory
  refine ⟨fun s opd p cls imm => ?_, fun s0 s al l buf hbuf hl => ?_, fun s0 s al src l hw hl => ?_⟩
  · intro ea ag hm
    exact ⟨fun ho ha => ⟨fun _ hd => ldv_misaligned hm ho ha hd, fun _ hb => stv_misaligned hm ho ha hb⟩,
      fun ho ha _ _ _ hd hs => ldv_go hm ho ha hd hs, fun ho ha _ _ _ _ hb hs => stv_go hm ho ha hb hs, pref_go (cls := cls) hm⟩
  · have hl' : ∀ x ∈ l, 64 * x.1 + 64 ≤ buf.length ∧ ∃ pa t, CoherentAt x pa t := fun x hx => by
      obtain ⟨hi, h⟩ := hl x hx
      exact ⟨by omega, h⟩
    obtain ⟨hmem, hcore, hlen⟩ := readInto_fold s0 al l (buf, s) hl'
    refine ⟨hmem, hcore, hlen.trans hbuf, fun l' x he pa t hx => ?_⟩
    subst he
    obtain ⟨imem, -, ilen⟩ := readInto_fold s0 al l' (buf, s) fun y hy => hl' y (List.mem_append_left _ hy)
    obtain ⟨hi, pa', t', h⟩ := hl' x (List.mem_append_right _ (List.mem_singleton_self x))
    obtain ⟨rfl, rfl⟩ : pa' = pa ∧ t' = t := by simpa [h.1] using hx
    obtain ⟨-, -, -, hread⟩ := readInto_coherent s0 al (l'.foldl (s0.readInto al) (buf, s)) h (by rw [ilen]; exact hi)
    rw [List.foldl_concat, hread, imem]
  · have hl' : ∀ x ∈ l, ∃ pa t, WritableAt s.store.nc x pa t := fun x hx => by
      obtain ⟨pa, t, hr, ht, hp, hd, hn⟩ := hl x hx
      exact ⟨pa, t, ⟨hr, ht, hp, hd⟩, hn⟩
    obtain ⟨hkeep, hout⟩ := writeFrom_fold s0 al src l s hl'
    refine ⟨hkeep.regs, hkeep.x, hkeep.host, hkeep.sram, hkeep.posted, hkeep.wf hw, hout hw, fun l' x he pa t k hx hk hlen => ?_⟩
    subst he
    obtain ⟨ikeep, -⟩ := writeFrom_fold s0 al src l' s fun y hy => hl' y (List.mem_append_left _ hy)
    obtain ⟨pa', t', h⟩ := hl' x (List.mem_append_right _ (List.mem_singleton_self x))
    obtain ⟨rfl, rfl⟩ : pa' = pa ∧ t' = t := by simpa [h.1.1] using hx
    obtain ⟨-, hbyte⟩ := writeFrom_coherent s0 al src (s := l'.foldl (s0.writeFrom al src) s) (by rw [ikeep.nc]; exact h)
    have full : ((src.drop (64 * x.1)).take 64).length = 64 := by simp; omega
    rw [List.foldl_concat, hbyte (ikeep.wf hw), full, if_pos (by omega), Nat.add_sub_cancel_left]
    simp [List.getD_eq_getElem?_getD, hk]

/-! ### FREEZE, its end, and RESUME -/

/-- Dropping staged dwords touches nothing else. -/
@[simp] theorem dropStage_coreAt (s : State) (n k : Nat) : (s.dropStage n).coreAt k = s.coreAt k := rfl
@[simp] theorem dropStage_ctxAt (s : State) (n k : Nat) : (s.dropStage n).ctxAt k = s.ctxAt k := rfl
@[simp] theorem dropStage_store (s : State) (n : Nat) : (s.dropStage n).store = s.store := rfl
@[simp] theorem dropStage_ownerOf (s : State) (n k : Nat) : (s.dropStage n).ownerOf k = s.ownerOf k := rfl

/-- Noting a freeze touches the context alone. -/
@[simp] theorem noteFrozen_coreAt (s : State) (n k : Nat) : (s.noteFrozen n).coreAt k = s.coreAt k := by
  unfold State.noteFrozen
  split
  · simp only; split <;> rfl
  · rfl

@[simp] theorem noteFrozen_store (s : State) (n : Nat) : (s.noteFrozen n).store = s.store := by
  unfold State.noteFrozen
  split
  · simp only; split <;> rfl
  · rfl

/-- The context of a core that freezes is frozen then, whether it ran or had a frozen core (R360). -/
theorem noteFrozen_ctxAt {s : State} {n k : Nat} (ho : s.ownerOf n = some k) (hs : (s.ctxAt k).st = .running ∨ (s.ctxAt k).st = .frozen) :
    ((s.noteFrozen n).ctxAt k).st = .frozen := by
  unfold State.noteFrozen
  rw [ho]
  rcases hs with h | h
  · simp only [h, if_true, ctxAt_setCtx]
  · simp only [h, if_neg (show ¬CtxSt.frozen = .running by decide)]

/-- Noting a resumption touches the context alone. -/
@[simp] theorem noteResumed_coreAt (s : State) (n k : Nat) : (s.noteResumed n).coreAt k = s.coreAt k := by
  unfold State.noteResumed
  split
  · simp only; split <;> rfl
  · rfl

@[simp] theorem noteResumed_store (s : State) (n : Nat) : (s.noteResumed n).store = s.store := by
  unfold State.noteResumed
  split
  · simp only; split <;> rfl
  · rfl

/-- A frozen context runs again once no core of it is held back (R360, R373). -/
theorem noteResumed_ctxAt {s : State} {n k : Nat} (ho : s.ownerOf n = some k) (hs : (s.ctxAt k).st = .frozen)
    (hc : ∀ j ∈ (s.ctxAt k).cores, (s.coreAt j).heldBack = false) : ((s.noteResumed n).ctxAt k).st = .running := by
  have all : (s.ctxAt k).cores.all (fun j => !(s.coreAt j).heldBack) = true :=
    List.all_eq_true.2 fun j hj => by rw [hc j hj]; rfl
  unfold State.noteResumed
  rw [ho]
  simp only [hs, all, decide_true, Bool.and_self, if_true, ctxAt_setCtx]

/-- A core is held back where the manager holds it or a double trap has stopped it. -/
theorem heldBack_iff (c : Core) : c.heldBack = true ↔ c.held = true ∨ c.sq.run = .doubleTrap := by
  unfold Core.heldBack; simp

theorem heldBack_false {c : Core} (h : c.held = false) (hr : c.sq.run ≠ .doubleTrap) : c.heldBack = false := by
  rw [← Bool.not_eq_true, heldBack_iff, h]; simp [hr]

/-- Who holds a core back does not matter to its engines. -/
theorem eng_withHeld (c : Core) (b : Bool) (e : Engine) : ({ c with held := b } : Core).eng e = c.eng e := by cases e <;> rfl

/-- What holding a core does: it stops, and the manager holds it; no memory changes. -/
theorem holdCore_coreAt (s : State) (n : Nat) : (s.holdCore n).coreAt n = { (s.stopCore n).coreAt n with held := true } := by
  unfold State.holdCore
  rw [coreAt_setCoreAt, if_pos rfl]

theorem holdCore_keeps (s : State) (n : Nat) : (s.holdCore n).store = s.store ∧ (s.holdCore n).ctxs = s.ctxs := by
  obtain ⟨hstore, hctxs, -⟩ := stopCore_spec s n
  obtain ⟨kstore, kctxs, -⟩ := setCoreAt_keeps (s.stopCore n) n { (s.stopCore n).coreAt n with held := true }
  exact ⟨kstore.trans hstore, kctxs.trans hctxs⟩

/-- A core that already freezes is not stopped again. -/
theorem stopCore_freezing {s : State} {n : Nat} (h : (s.coreAt n).freezing = true) : s.stopCore n = s := by
  unfold State.stopCore; rw [if_pos h]

/-- FREEZE: refused where no context owns the core or its context neither runs nor has a frozen core, nothing where the core is held back,
and else the core is held and its context noted (R360, R373). -/
theorem freezeCmd_unowned {s : State} {n : Nat} (h : s.ownerOf n = none) : s.freezeCmd n = { s with mgmt.frzErr := true } := by
  unfold State.freezeCmd; rw [h]; rfl

theorem freezeCmd_heldBack {s : State} {n k : Nat} (h : s.ownerOf n = some k) (hb : (s.coreAt n).heldBack = true) : s.freezeCmd n = s := by
  unfold State.freezeCmd; rw [h]; exact if_pos hb

theorem freezeCmd_refused {s : State} {n k : Nat} (h : s.ownerOf n = some k) (hb : (s.coreAt n).heldBack = false)
    (hr : (s.ctxAt k).st ≠ .running) (hf : (s.ctxAt k).st ≠ .frozen) : s.freezeCmd n = { s with mgmt.frzErr := true } := by
  unfold State.freezeCmd
  rw [h]
  simp only [hb, hr, hf, decide_false, Bool.or_self, Bool.false_eq_true, if_false]
  rfl

theorem freezeCmd_go {s : State} {n k : Nat} (h : s.ownerOf n = some k) (hb : (s.coreAt n).heldBack = false)
    (hs : (s.ctxAt k).st = .running ∨ (s.ctxAt k).st = .frozen) : s.freezeCmd n = ((s.holdCore n).noteFrozen n).dropStage n := by
  unfold State.freezeCmd
  rw [h]
  simp only [hb, Bool.false_eq_true, if_false]
  exact if_pos (by simpa using hs)

/-- RESUME: refused, nothing, or the core goes on, for a park or altogether (R370, R373, R387). -/
theorem resumeCmd_unowned {s : State} {n : Nat} (h : s.ownerOf n = none) : s.resumeCmd n = { s with mgmt.frzErr := true } := by
  unfold State.resumeCmd; rw [h]; rfl

theorem resumeCmd_nothing {s : State} {n k : Nat} (h : s.ownerOf n = some k) (hs : (s.ctxAt k).st = .frozen ∨ (s.ctxAt k).st = .running)
    (hc : (s.coreAt n).frozen = false ∨ (s.coreAt n).held = false ∨ (s.coreAt n).sq.run = .doubleTrap) : s.resumeCmd n = s := by
  unfold State.resumeCmd
  rw [h]
  have allowed : ¬(decide ((s.ctxAt k).st ≠ .frozen) && decide ((s.ctxAt k).st ≠ .running)) = true := by
    simp only [Bool.and_eq_true, decide_eq_true_eq, not_and_or, not_not]; exact hs
  exact (if_neg allowed).trans (if_pos (by simpa [or_assoc] using hc))

theorem resumeCmd_go {s : State} {n k : Nat} (h : s.ownerOf n = some k) (hs : (s.ctxAt k).st = .frozen)
    (hf : (s.coreAt n).frozen = true) (hh : (s.coreAt n).held = true) (hr : (s.coreAt n).sq.run ≠ .doubleTrap) :
    s.resumeCmd n =
      ((s.setCoreAt n (if s.parks n then { s.coreAt n with held := false } else (s.coreAt n).resume)).dropStage n).noteResumed n := by
  unfold State.resumeCmd
  rw [h]
  simp [hs, hf, hh, hr]

/-- What FREEZE of a running or frozen context's core leaves (R360, R362, R364). -/
theorem freezeCmd_spec {s : State} {n k : Nat} (h : s.ownerOf n = some k) (hb : (s.coreAt n).heldBack = false)
    (hs : (s.ctxAt k).st = .running ∨ (s.ctxAt k).st = .frozen) :
    (s.freezeCmd n).coreAt n = { (s.stopCore n).coreAt n with held := true } ∧ ((s.freezeCmd n).ctxAt k).st = .frozen ∧
      (s.freezeCmd n).store = s.store := by
  obtain ⟨hstore, hctxs⟩ := holdCore_keeps s n
  have hctx : (s.holdCore n).ctxAt k = s.ctxAt k := by unfold State.ctxAt; rw [hctxs]
  rw [freezeCmd_go h hb hs]
  simp only [dropStage_coreAt, dropStage_ctxAt, dropStage_store, noteFrozen_coreAt, noteFrozen_store, holdCore_coreAt, true_and]
  exact ⟨noteFrozen_ctxAt ((ownerOf_congr hctxs n).trans h) (by rwa [hctx]), hstore⟩

/-- What RESUME of a frozen core that the manager holds leaves (R370, R373, R387). -/
theorem resumeCmd_spec {s : State} {n k : Nat} (h : s.ownerOf n = some k) (hs : (s.ctxAt k).st = .frozen)
    (hf : (s.coreAt n).frozen = true) (hh : (s.coreAt n).held = true) (hr : (s.coreAt n).sq.run ≠ .doubleTrap) :
    (s.resumeCmd n).store = s.store ∧
      (s.resumeCmd n).coreAt n = (if s.parks n then { s.coreAt n with held := false } else (s.coreAt n).resume) ∧
      ((∀ j ∈ (s.ctxAt k).cores, j ≠ n → (s.coreAt j).heldBack = false) → ((s.resumeCmd n).ctxAt k).st = .running) := by
  rw [resumeCmd_go h hs hf hh hr]
  obtain ⟨c, hc⟩ : ∃ c, c = if s.parks n then { s.coreAt n with held := false } else (s.coreAt n).resume := ⟨_, rfl⟩
  have free : c.heldBack = false := by
    rw [hc]; split
    · exact heldBack_false rfl hr
    · exact heldBack_false rfl hr
  rw [← hc]
  obtain ⟨hstore, hctxs, -⟩ := setCoreAt_keeps s n c
  have hctx : (s.setCoreAt n c).ctxAt k = s.ctxAt k := by unfold State.ctxAt; rw [hctxs]
  refine ⟨(noteResumed_store _ _).trans hstore, (noteResumed_coreAt _ _ _).trans ?_, fun hall => ?_⟩
  · rw [dropStage_coreAt, coreAt_setCoreAt, if_pos rfl]
  · refine noteResumed_ctxAt ((ownerOf_congr hctxs n).trans h) ((congrArg Ctx.st hctx).trans hs) fun j hj => ?_
    rw [dropStage_coreAt, coreAt_setCoreAt]
    split
    · exact free
    · rename_i hjn; exact hall j (by rwa [dropStage_ctxAt, hctx] at hj) hjn

/-- The end of a freeze: the core is frozen, with its stamp, once what it has issued has drained (R364, R366). -/
theorem freezeDone_waits {s : State} {n : Nat} (hd : s.drainedCore n = false) : s.freezeDone n = s := by
  unfold State.freezeDone
  simp [hd]

theorem freezeDone_go {s : State} {n : Nat} (hn : n < 256) (hz : (s.coreAt n).freezing = true) (hf : (s.coreAt n).frozen = false)
    (hd : s.drainedCore n = true) :
    s.freezeDone n = s.setCoreAt n
      { s.coreAt n with frozen := true, stamp := BitVec.ofNat 64 (n * 2 ^ 56 + s.time.toNat % 2 ^ 56) } := by
  unfold State.freezeDone
  simp only [hz, hf, hd, Nat.mod_eq_of_lt hn, Bool.not_false, Bool.and_self, if_true]

/-! ### SNAPDATA and the parts of a snapshot -/

/-- An allowed access of SNAPDATA reads or stages the dword at SNAPSEL, and OFFSET advances (R375). -/
theorem snapRead_allowed {s : State} {sec : Bool} (h : s.snapAllowed sec = true) :
    s.snapRead sec = (s.snapDword s.mgmt.snapCore.toNat s.mgmt.snapPart.toNat (s.mgmt.snapOff.toNat / 8 * 8), s.snapNext true) := by
  unfold State.snapRead
  simp only [h, if_true]

theorem snapRead_refused {s : State} {sec : Bool} (h : s.snapAllowed sec = false) : s.snapRead sec = (0, s.snapNext false) := by
  unfold State.snapRead
  simp only [h, Bool.false_eq_true, if_false]

theorem snapWrite_allowed {s : State} {sec : Bool} (v : Word) (h : s.snapAllowed sec = true) :
    let key := stageKey s.mgmt.snapCore.toNat s.mgmt.snapPart.toNat s.mgmt.snapOff.toNat
    s.snapWrite sec v = { s.snapNext true with mgmt.snapstage := smSet s.mgmt.snapstage key v } := by
  unfold State.snapWrite
  simp only [h, if_true]
  rfl

theorem snapWrite_refused {s : State} {sec : Bool} (v : Word) (h : s.snapAllowed sec = false) : s.snapWrite sec v = s.snapNext false := by
  unfold State.snapWrite
  simp only [h, Bool.false_eq_true, if_false]

/-- A dword of areas stands in the first that covers its offset. -/
theorem areaDword_covered {o n v : Nat} (l : List Area) {off : Nat} (h : o ≤ off) (h' : off < o + n) :
    areaDword (⟨o, n, v⟩ :: l) off = bits v (8 * (off - o)) 64 := by
  unfold areaDword
  rw [List.find?_cons_of_pos (by simp [h, h'])]

theorem areaDword_beyond {o n v : Nat} (l : List Area) {off : Nat} (h : o + n ≤ off) :
    areaDword (⟨o, n, v⟩ :: l) off = areaDword l off := by
  unfold areaDword
  rw [List.find?_cons_of_neg (by simp; omega)]

/-- What a part holds of a core where nothing has been staged (R372). -/
theorem snapDword_unstaged {s : State} {n part off : Nat} (h : smFind s.mgmt.snapstage (stageKey n part off) = none) :
    s.snapDword n part off = areaDword ((s.focus n).partAreas part) off := by
  unfold State.snapDword; rw [h]

theorem bits_toNat (w : Word) : bits w.toNat 0 64 = w := by unfold bits; simp

/-- Part 0 begins with its header, the pc and x1 to x31 (R367). -/
theorem part0_begins (s : State) : s.partAreas 0 = ⟨0, 64, snapHeader 0 s.core.sq.ctxid.toNat s.core.stamp⟩ ::
    ⟨0x40, 8, s.core.sq.pc.toNat⟩ :: ⟨0x48, 248, packed 8 ((s.core.sq.x.toList.drop 1).map (·.toNat))⟩ :: s.part0.drop 3 := rfl

/-- Part 0 holds the pc at 0x40 (R367). -/
theorem part0_pc (s : State) : areaDword (s.partAreas 0) 0x40 = s.core.sq.pc := by
  rw [part0_begins, areaDword_beyond _ (by decide), areaDword_covered _ (by decide) (by decide)]
  exact bits_toNat _

/-- A dword of values of 8 bytes each. -/
theorem packed_dword (vs : List Word) (j : Nat) : bits (packed 8 (vs.map (·.toNat))) (8 * (8 * j)) 64 = vs.getD j 0 := by
  have get := packed_get 8 (by decide) (vs.map (·.toNat)) (fun v hv => by
    obtain ⟨w, -, rfl⟩ := List.mem_map.1 hv
    exact w.isLt) j
  have hpow : (256 : Nat) ^ (8 * j) = 2 ^ (8 * (8 * j)) := by rw [show (256 : Nat) = 2 ^ 8 by decide, ← Nat.pow_mul]
  apply BitVec.eq_of_toNat_eq
  unfold bits
  rw [BitVec.toNat_ofNat, ← hpow, show (2 : Nat) ^ 64 = 256 ^ 8 by decide, get]
  exact List.getD_map vs (0 : Word) BitVec.toNat

/-- Part 0 holds x1 to x31 from 0x48 on (R367). -/
theorem part0_x (s : State) {k : BitVec 5} (hk : k ≠ 0) : areaDword (s.partAreas 0) (0x48 + 8 * (k.toNat - 1)) = vget s.core.sq.x k := by
  have hpos : k.toNat ≠ 0 := fun h => hk (BitVec.eq_of_toNat_eq h)
  have hlt := k.isLt
  rw [part0_begins, areaDword_beyond _ (by omega), areaDword_beyond _ (by omega), areaDword_covered _ (by omega) (by omega),
    Nat.add_sub_cancel_left, packed_dword]
  unfold vget
  rw [List.getD_eq_getElem?_getD, List.getElem?_drop, Nat.add_sub_cancel' (by omega), Vector.getElem?_toList,
    Vector.getElem?_eq_getElem (by omega)]
  rfl

/-! ### RESTORE -/

/-- RESTORE of a core that is not frozen is refused (R372). -/
theorem restoreCmd_unfrozen {s : State} {n : Nat} (sec : Bool) (h : (s.coreAt n).frozen = false) :
    s.restoreCmd n sec = { s with mgmt.frzErr := true } := by
  unfold State.restoreCmd
  split
  · rfl
  · exact if_pos (by simp [h])

/-- The image of a part: what SNAPDATA would read of it. -/
def partImage (s : State) (n p : Nat) : Image := fun off => s.snapDword n p off

/-- The core that the three parts of a snapshot give a frozen core, with the binding of unequal stamps rebuilt (R279, R372). -/
def restoredCore (s : State) (n : Nat) : Core :=
  let c := (s.coreAt n).ofParts (partImage s n 0) (partImage s n 1) (partImage s n 2)
  let same : Bool := partImage s n 1 8 = partImage s n 2 8
  { c with
    regs := if same then c.regs else c.regs.rebind
    counts.tintStamp := if same then partImage s n 1 8 else partImage s n 1 8 ^^^ (1#64 <<< 63)
    stamp := partImage s n 0 8 }

/-- RESTORE that is not refused gives the core the parts, its held stores and hosting entries translated again (R372, R418). -/
theorem restoreCmd_go {s : State} {n k : Nat} {sec : Bool} (ho : s.ownerOf n = some k) (hf : (s.coreAt n).frozen = true)
    (h0 : headerOk (partImage s n 0) 0 (s.coreAt n).sq.ctxid = true) (h1 : headerOk (partImage s n 1) 1 (s.coreAt n).sq.ctxid = true)
    (h2 : headerOk (partImage s n 2) 2 (s.coreAt n).sq.ctxid = true)
    (hc : ((s.coreAt n).ofParts (partImage s n 0) (partImage s n 1) (partImage s n 2)).fieldsOk (sec && (s.ctxAt k).secure) = true)
    (hh : (partImage s n 0).hostingOk = true)
    (hst : (s.setCoreAt n ((s.coreAt n).ofParts (partImage s n 0) (partImage s n 1) (partImage s n 2))).stageOk n = true)
    {held : List Held} {s1 s2 : State} {hosts : List Hosting}
    (hheld : State.reholdAll (restoredCore s n).sq.spec.held ((s.setCoreAt n (restoredCore s n)).focus n) = some (held, s1))
    (hhost : State.rehostAll (restoredCore s n).hosting s1 = (hosts, s2)) :
    s.restoreCmd n sec = (State.focus { s2 with core.sq.spec.held := held, core.hosting := hosts } s.cur).dropStage n := by
  unfold State.restoreCmd
  rw [ho]
  refine (if_neg ?_).trans ((if_neg ?_).trans ?_)
  · show ¬(!(s.coreAt n).frozen || !(headerOk (partImage s n 0) 0 _ && headerOk (partImage s n 1) 1 _ && headerOk (partImage s n 2) 2 _)) = true
    rw [hf, h0, h1, h2]; decide
  · show ¬(!Core.fieldsOk (Core.ofParts _ (partImage s n 0) (partImage s n 1) (partImage s n 2)) _ || !(partImage s n 0).hostingOk ||
      !(s.setCoreAt n (Core.ofParts _ (partImage s n 0) (partImage s n 1) (partImage s n 2))).stageOk n) = true
    rw [hc, hh, hst]; decide
  · show (match State.reholdAll (restoredCore s n).sq.spec.held ((s.setCoreAt n (restoredCore s n)).focus n) with
      | none => s.frzRefuse
      | some (held, s') => (State.focus { (State.rehostAll (restoredCore s n).hosting s').2 with
          core.sq.spec.held := held, core.hosting := (State.rehostAll (restoredCore s n).hosting s').1 } s.cur).dropStage n) = _
    rw [hheld]
    simp only [hhost]

/-- What the restored core takes from part 0: the pc, x1 to x31, and the views with their reserved bits 0 (R9, R367, R372). -/
theorem restoredCore_pc (s : State) (n : Nat) : (restoredCore s n).sq.pc = partImage s n 0 0x40 &&& ~~~1#64 := rfl

theorem restoredCore_x (s : State) (n : Nat) {k : BitVec 5} (hk : k ≠ 0) :
    vget (restoredCore s n).sq.x k = partImage s n 0 (0x48 + 8 * (k.toNat - 1)) :=
  (vget_tabulate _ k (by decide)).trans (if_neg fun h => hk (BitVec.eq_of_toNat_eq h))

theorem restoredCore_view (s : State) (n : Nat) (k : BitVec 3) :
    vget (restoredCore s n).regs.view k = (partImage s n 0 (0xB88 + 16 * k.toNat) &&& 0x3FF#64) ++
      (partImage s n 0 (0xB80 + 16 * k.toNat) &&& 0x03FF03FF03FFFF1F#64) := by
  have view : (restoredCore s n).regs.view = (regsOf (partImage s n 0) (partImage s n 1) (partImage s n 2) (s.coreAt n).regs).view := by
    unfold restoredCore
    simp only
    split <;> rfl
  rw [view]
  exact vget_tabulate _ k (by decide)

/-- Settles O50: each command by the lemma of its case; what a frozen core keeps is `stopCore_spec`. -/
theorem freezeAndSnapshot : Obligations.FreezeAndSnapshot := by
  unfold Obligations.FreezeAndSnapshot
  refine ⟨fun s core k => ?_, fun s core mgr v => ?_⟩
  · intro n c x
    refine ⟨fun ho => ⟨congrArg _ (freezeCmd_unowned ho), congrArg _ (resumeCmd_unowned ho)⟩, fun ho hh hr hs => ?_,
      fun ho hb => congrArg _ (freezeCmd_heldBack ho ((heldBack_iff _).2 hb)),
      fun ho hh hr h1 h2 => congrArg _ (freezeCmd_refused ho (heldBack_false hh hr) h1 h2),
      fun hz hf => ⟨fun hd => congrArg _ (freezeDone_waits hd), fun hd => congrArg _ (freezeDone_go core.isLt hz hf hd)⟩,
      fun ho hs hf hh hr => ?_, fun ho hs hc => congrArg _ (resumeCmd_nothing ho hs hc)⟩
    · obtain ⟨hcore, hctx, hstore⟩ := freezeCmd_spec ho (heldBack_false hh hr) hs
      refine ⟨s.freezeCmd n, rfl, by rw [hcore], hctx, hstore, fun hz => by rw [hcore, stopCore_freezing hz], fun hz => ?_⟩
      obtain ⟨-, -, -, -, -, hstop, -, -, hcap⟩ := stopCore_spec s n
      obtain ⟨hfreezing, hx, hpc, htrap, hregs, htok, houtq, heng⟩ := hstop hz
      rw [hcore]
      exact ⟨hfreezing, hcap k hz ho, hx, hpc, htrap, hregs, htok, houtq, fun e => by rw [eng_withHeld]; exact heng e⟩
    · obtain ⟨hstore, hcore, hctx⟩ := resumeCmd_spec ho hs hf hh hr
      refine ⟨s.resumeCmd n, rfl, hstore, fun hp => ?_, fun hp => ?_, fun hall => hctx fun j hj hjn => ?_⟩
      · rw [hcore, if_neg (by simp [hp])]; rfl
      · rw [hcore, if_pos hp]
      · obtain ⟨h1, h2⟩ := hall j hj hjn
        exact heldBack_false h1 h2
  · intro n sec sel next
    refine ⟨fun ha => ⟨?_, s.snapWrite sec v, rfl, ?_⟩, fun ha => ⟨?_, ?_⟩, fun hn => ?_,
      fun hf => congrArg _ (restoreCmd_unfrozen sec hf), ?_⟩
    · show Host.Outcome.next (State.emit (s.snapRead sec).2 (.data (leBytes 8 (s.snapRead sec).1.toNat))) = _
      rw [snapRead_allowed ha]; rfl
    · rw [snapWrite_allowed v ha]
      exact ⟨rfl, rfl, rfl, smFind_smSet ..⟩
    · show Host.Outcome.next (State.emit (s.snapRead sec).2 (.data (leBytes 8 (s.snapRead sec).1.toNat))) = _
      rw [snapRead_refused ha]; rfl
    · exact congrArg _ (snapWrite_refused v ha)
    · rw [← focus_core s n, snapDword_unstaged (hn _ _)]
      exact ⟨part0_pc _, fun k hk => by rw [snapDword_unstaged (hn _ _)]; exact part0_x _ hk⟩
    · intro k held s1 hosts s2 old m c same c' ho hf h0 h1 h2 hc hh hst hheld hhost
      exact ⟨congrArg _ (restoreCmd_go ho hf h0 h1 h2 hc hh hst hheld hhost), restoredCore_pc s n, fun k hk => restoredCore_x s n hk,
        restoredCore_view s n⟩

end Sys2Proof.Proofs.Scope
end

section
/-! SUPPORT. The proof of the statement of spec/01_first_programs.md: a pending VE write lands when its latency runs out, and not before
(R15, R138-R140, R263). -/

namespace Sys2Proof.Proofs.FirstPrograms

open Sys2Proof Sys2Proof.Machine Sys2Proof.Laws

/-! ### The elements of a granule -/

/-- A granule holds as many elements of a type as the type's count (R127). -/
theorem granule_div_width (t : Ty) : 8192 / t.width = t.count := by
  cases t <;> rfl

/-- The elements of a type lie side by side within the granule. -/
theorem elem_within (t : Ty) {j : Nat} (hj : j < t.count) : t.width * j + t.width ≤ 8192 := by
  have hfit : t.width * t.count ≤ 8192 := by
    rw [← granule_div_width]
    exact Nat.mul_div_le ..
  calc t.width * j + t.width = t.width * (j + 1) := (Nat.mul_succ ..).symm
    _ ≤ t.width * t.count := Nat.mul_le_mul_left _ hj
    _ ≤ 8192 := hfit

theorem width_pos (t : Ty) : 0 < t.width := by
  cases t <;> decide

theorem elemsOf_getD (t : Ty) (v : Granule) {j : Nat} (hj : j < t.count) :
    (elemsOf t.width v).getD j 0 = v.toNat / 2 ^ (t.width * j) % 2 ^ t.width := by
  unfold elemsOf
  rw [granule_div_width, List.getD_eq_getElem?_getD, List.getElem?_map, List.getElem?_range hj]
  rfl

/-- A merge at landing: an element is the new one where its merge bit is set, and the old one elsewhere (R139). -/
theorem elemsOf_merged (t : Ty) (merge : BitVec 1024) (old new : Granule) :
    elemsOf t.width (mergeBits (elemMask merge 0 t.width) old new) = (List.range t.count).map fun j =>
      if merge.getLsbD j then (elemsOf t.width new).getD j 0 else (elemsOf t.width old).getD j 0 := by
  rw [elemsOf, granule_div_width]
  refine List.map_congr_left fun j hj => ?_
  have hj : j < t.count := List.mem_range.1 hj
  have hmask := elemMask_elem merge t.width j (width_pos t) (elem_within t hj)
  rw [mergeBits_elem _ _ _ _ _ _ (elem_within t hj) hmask, elemsOf_getD t new hj, elemsOf_getD t old hj]

/-! ### A cycle of the VE -/

/-- The one pending write, due in this cycle, lands as a plain write of its merged value, which the latch takes (R139, R140, R263). -/
theorem veTick_lands {c : Core} {t : Ty} {g : Nat} {data : Granule} {merge : BitVec 1024}
    (hf : c.ve.frz = false) (hh : c.halted = false)
    (hp : c.vex.pend = [{ left := 1, dests := [.gran g], data := [data], merge := merge, esz := t.size, tag := .clear, latch := true }]) :
    let v := mergeBits (elemMask merge 0 t.width) (c.regs.granule g) data
    c.veTick.regs = Regs.plainWrite { c.regs with freed := 0 } g v ∧
      c.veTick.vex = { c.vex with cycle := c.vex.cycle + 1, pend := [], lat := v, latValid := true } := by
  rw [veTick_single hf hh hp]
  exact ⟨rfl, rfl⟩

/-- A pending write with a cycle less to wait. -/
def aged (w : VWrite) : VWrite := { w with left := w.left - 1 }

/-- A write with two cycles or more to wait is not due in this one. -/
theorem aged_left_ne_zero {w : VWrite} (hw : 2 ≤ w.left) : (aged w).left ≠ 0 := by
  show w.left - 1 ≠ 0
  omega

theorem veRuns_of {c : Core} (hf : c.ve.frz = false) (hh : c.halted = false) : c.veRuns = true := by
  simp [Core.veRuns, hf, hh]

/-- Where no write's latency runs out in this cycle, none lands: each has a cycle less to wait (R138). -/
theorem veTick_waits {c : Core} (hwait : ∀ w ∈ c.vex.pend, 2 ≤ w.left) (hf : c.ve.frz = false) (hh : c.halted = false) :
    c.veTick = { c with regs.freed := 0, vex.cycle := c.vex.cycle + 1, vex.pend := c.vex.pend.map aged } := by
  have hruns : Core.veRuns { c with regs.freed := 0 } = true := veRuns_of hf hh
  have hleft : ∀ w ∈ c.vex.pend.map aged, w.left ≠ 0 :=
    List.forall_mem_map.2 fun w hw => aged_left_ne_zero (hwait w hw)
  have hdue : (c.vex.pend.map aged).filter (fun w => w.left = 0) = [] :=
    List.filter_eq_nil_iff.2 fun w hw => by simpa using hleft w hw
  have hkept : (c.vex.pend.map aged).filter (fun w => w.left ≠ 0) = c.vex.pend.map aged :=
    List.filter_eq_self.2 fun w hw => by simpa using hleft w hw
  unfold aged at hdue hkept
  simp only [Core.veTick, if_pos hruns]
  rw [hdue, hkept]
  rfl

/-- Settles O34: the write that is due is a plain write of the merged value, whose elements `elemsOf_merged` gives; a write that is not
due waits by `veTick_waits`. -/
theorem vectorLanding : Obligations.VectorLanding := by
  unfold Obligations.VectorLanding
  refine ⟨fun c t g data merge hf hh hp => ?_, fun s => ⟨rfl, fun hwait hf hh => ?_⟩⟩
  · intro u
    obtain ⟨hregs, hvex⟩ := veTick_lands hf hh hp
    have hgran : u.regs.granule g = mergeBits (elemMask merge 0 t.width) (c.regs.granule g) data := by
      rw [hregs, plainWrite_granule, if_pos rfl]
    refine ⟨?_, ?_, ?_, ?_, ?_, ?_, fun k hk => ⟨?_, ?_⟩⟩
    · rw [hgran, elemsOf_merged]
    · rw [hgran, hvex]
    · rw [hvex]
    · rw [hregs, plainWrite_tag, if_pos rfl]
    · rw [hvex]
    · rw [hvex]
    · rw [hregs, plainWrite_granule, if_neg hk]; rfl
    · rw [hregs, plainWrite_tag, if_neg hk]; rfl
  · rw [veTick_waits hwait hf hh]
    exact ⟨rfl, rfl, rfl⟩

end Sys2Proof.Proofs.FirstPrograms
end

section
/-! SUPPORT. The priority queues (R18, R390, R391): the order of a queue's entries is total, the model's sort is Mathlib's insertion sort by it, and
the candidates are its first entries. -/

namespace Sys2Proof.Proofs.PriorityQueues
open Sys2Proof Sys2Proof.Machine Sys2Proof.Laws

/-! ### The order of a queue -/

/-- An entry ranks no later than another: by key, then by push order (R390). -/
abbrev PqLe (a b : PqEntry) : Prop := pqBefore a b = true

theorem pqLe_iff {a b : PqEntry} : PqLe a b ↔ a.key.toNat < b.key.toNat ∨ (a.key = b.key ∧ a.seq ≤ b.seq) := by
  simp [PqLe, pqBefore]

theorem pqLe_total (a b : PqEntry) : PqLe a b ∨ PqLe b a := by
  rw [pqLe_iff, pqLe_iff]
  rcases Nat.lt_trichotomy a.key.toNat b.key.toNat with hlt | heq | hgt
  · exact .inl (.inl hlt)
  · have hkey : a.key = b.key := BitVec.eq_of_toNat_eq heq
    rcases Nat.le_total a.seq b.seq with hle | hle
    · exact .inl (.inr ⟨hkey, hle⟩)
    · exact .inr (.inr ⟨hkey.symm, hle⟩)
  · exact .inr (.inl hgt)

theorem pqLe_trans {a b c : PqEntry} (hab : PqLe a b) (hbc : PqLe b c) : PqLe a c := by
  rw [pqLe_iff] at *
  rcases hab with hab | ⟨hab, hseq⟩
  · rcases hbc with hbc | ⟨hbc, -⟩
    · exact .inl (hab.trans hbc)
    · exact .inl (hbc ▸ hab)
  · rcases hbc with hbc | ⟨hbc, hseq'⟩
    · exact .inl (hab ▸ hbc)
    · exact .inr ⟨hab.trans hbc, hseq.trans hseq'⟩

/-! ### The sort of the entries -/

theorem pqInsert_eq_orderedInsert (e : PqEntry) (l : List PqEntry) : pqInsert e l = l.orderedInsert PqLe e := by
  induction l with
  | nil => rfl
  | cons h t ih => rw [pqInsert, List.orderedInsert_cons, ih]

theorem foldr_pqInsert (l : List PqEntry) : l.foldr pqInsert [] = l.insertionSort PqLe := by
  induction l with
  | nil => rfl
  | cons e l ih => rw [List.foldr_cons, ih, pqInsert_eq_orderedInsert, List.insertionSort_cons]

theorem pairwise_pqSort (l : List PqEntry) : (l.insertionSort PqLe).Pairwise PqLe :=
  have : Std.Total PqLe := ⟨pqLe_total⟩
  have : IsTrans PqEntry PqLe := ⟨fun _ _ _ => pqLe_trans⟩
  List.pairwise_insertionSort PqLe l

/-! ### The candidates -/

/-- The operation reaches the four dies of the package (R390). -/
abbrev Wide (s : State) (scope : BitVec 3) : Prop := scope.toNat = 4 ∧ 4 ≤ s.core.sq.maxscope.toNat

theorem pqReach_eq (s : State) (scope : BitVec 3) : s.pqReach scope = if Wide s scope then [0, 1, 2, 3] else [s.dieNo] := rfl

/-- The entries of the context in the queues reached. -/
def reached (s : State) (scope : BitVec 3) : List PqEntry :=
  ((s.pqReach scope).map fun d => (s.dieAt d).pq.filter fun e => e.ctx = s.core.sq.ctxid).flatten

theorem mem_pqReach {s : State} {scope : BitVec 3} {d : Nat} :
    d ∈ s.pqReach scope ↔ if Wide s scope then d < 4 else d = s.dieNo := by
  rw [pqReach_eq]
  by_cases hw : Wide s scope
  · rw [if_pos hw, if_pos hw]
    simp only [List.mem_cons, List.not_mem_nil, or_false]
    omega
  · rw [if_neg hw, if_neg hw, List.mem_singleton]

theorem mem_reached {s : State} {scope : BitVec 3} {x : PqEntry} :
    x ∈ reached s scope ↔ x.ctx = s.core.sq.ctxid ∧ ∃ d, (if Wide s scope then d < 4 else d = s.dieNo) ∧ x ∈ (s.dieAt d).pq := by
  simp only [reached, List.mem_flatten, List.mem_map, exists_exists_and_eq_and, List.mem_filter, decide_eq_true_eq, mem_pqReach]
  constructor
  · rintro ⟨d, hd, hx, hctx⟩
    exact ⟨hctx, d, hd, hx⟩
  · rintro ⟨hctx, d, hd, hx⟩
    exact ⟨d, hd, hx, hctx⟩

theorem pqCandidates_eq {s : State} {scope : BitVec 3} :
    s.pqCandidates scope = ((reached s scope).insertionSort PqLe).take (if Wide s scope then 32 else 8) := by
  have hlen : (if (s.pqReach scope).length = 1 then 8 else 32) = if Wide s scope then 32 else 8 := by
    rw [pqReach_eq]
    by_cases hw : Wide s scope
    · rw [if_pos hw, if_pos hw]; rfl
    · rw [if_neg hw, if_neg hw]; rfl
  rw [State.pqCandidates, foldr_pqInsert, hlen]
  rfl

/-- What the first `n` entries leave out of a sorted list ranks after each of them, and they are `n`. -/
theorem take_first {l : List PqEntry} {n : Nat} {x : PqEntry} (hl : l.Pairwise PqLe) (hx : x ∈ l) (hout : x ∉ l.take n) :
    (l.take n).length = n ∧ ∀ y ∈ l.take n, PqLe y x := by
  have hsplit := List.take_append_drop n l
  have hdrop : x ∈ l.drop n := by
    rw [← hsplit, List.mem_append] at hx
    exact hx.resolve_left hout
  constructor
  · have hpos := List.length_pos_of_mem hdrop
    rw [List.length_drop] at hpos
    rw [List.length_take]
    omega
  · intro y hy
    rw [← hsplit, List.pairwise_append] at hl
    obtain ⟨-, -, hbefore⟩ := hl
    exact hbefore y hy x hdrop

theorem candidates_first {s : State} {scope : BitVec 3} :
    let c := s.pqCandidates scope
    let n := if Wide s scope then 32 else 8
    c.length ≤ n ∧ (∀ x ∈ c, x ∈ reached s scope) ∧ c.Pairwise PqLe ∧
      ∀ x ∈ reached s scope, x ∉ c → c.length = n ∧ ∀ y ∈ c, PqLe y x := by
  intro c n
  have hc : c = ((reached s scope).insertionSort PqLe).take n := pqCandidates_eq
  have hsorted := pairwise_pqSort (reached s scope)
  rw [hc]
  refine ⟨List.length_take_le _ _, fun x hx => ?_, hsorted.sublist (List.take_sublist _ _), fun x hx hout => ?_⟩
  · exact (List.mem_insertionSort PqLe).1 (List.mem_of_mem_take hx)
  · exact take_first hsorted ((List.mem_insertionSort PqLe).2 hx) hout

/-! ### The instructions -/

theorem pqpush_inserts {s s0 : State} {ra rb : BitVec 5} {scope : BitVec 3} (h : s.resolved = some s0)
    (hquota : s0.pqHeld (s0.pqTarget (s0.pqReach scope)) < (s0.ctxAt s0.core.sq.ctxid.toNat).quota.toNat)
    (hroom : (s0.dieAt (s0.pqTarget (s0.pqReach scope))).pq.length < 65536) :
    execPqpush ra rb scope s = .next (State.adv { s0.setDie (s0.pqTarget (s0.pqReach scope))
      { s0.dieAt (s0.pqTarget (s0.pqReach scope)) with pq := (s0.dieAt (s0.pqTarget (s0.pqReach scope))).pq ++
        [{ seq := s0.ids, key := (s0.x ra).setWidth 32, value := s0.x rb, ctx := s0.core.sq.ctxid }] } with ids := s0.ids + 1 } 4) := by
  rw [execPqpush, resolve_of_resolved h]
  exact if_pos (Bool.and_eq_true_iff.2 ⟨decide_eq_true hquota, decide_eq_true hroom⟩)

theorem pqTake_empty {s s0 : State} {remove : Bool} {rd : BitVec 5} {scope : BitVec 3} (h : s.resolved = some s0)
    (hc : s0.pqCandidates scope = []) :
    pqTake remove rd scope s = .next (((State.setX
      (if remove then { s0 with core.counts.popempty := sat16 s0.core.counts.popempty 1 } else s0) rd 0).setX (rd + 1) 0x100000000).adv 4) := by
  rw [pqTake, resolve_of_resolved h]
  simp only [hc, List.drop_nil, List.head?_nil]

theorem pqTake_some {s s0 : State} {remove : Bool} {rd : BitVec 5} {scope : BitVec 3} {e : PqEntry} (h : s.resolved = some s0)
    (he : ((s0.pqCandidates scope).drop (Config.freeChoice s0.freeN (s0.pqCandidates scope).length)).head? = some e) :
    pqTake remove rd scope s = .next (((State.setX
      (if remove then { s0 with
        freeN := s0.freeN + 1, dies := s0.dies.map fun x => (x.1, { x.2 with pq := x.2.pq.filter fun y => y.seq ≠ e.seq }) }
        else { s0 with freeN := s0.freeN + 1 }) rd e.value).setX (rd + 1) (zext64 e.key)).adv 4) := by
  rw [pqTake, resolve_of_resolved h]
  simp only [he]

theorem succ_ne_self (rd : BitVec 5) : rd ≠ rd + 1 := by
  bv_omega

/-- The registers of an operation that found its queues empty. -/
theorem x_of_empty {u : State} {rd : BitVec 5} (hrd : rd ≠ 0) (hnext : rd + 1 ≠ 0) :
    (((u.setX rd 0).setX (rd + 1) 0x100000000).adv 4).x rd = 0 ∧
      (((u.setX rd 0).setX (rd + 1) 0x100000000).adv 4).x (rd + 1) = 0x100000000 := by
  constructor
  · calc _ = ((u.setX rd 0).setX (rd + 1) 0x100000000).x rd := rfl
      _ = (u.setX rd 0).x rd := x_setX_ne _ _ _ _ (succ_ne_self rd)
      _ = 0 := x_setX_self _ _ _ hrd
  · exact x_setX_self _ _ _ hnext

/-- Settles O21: the candidates are the first entries of a sorted list (`candidates_first`), and the instructions act on them as written. -/
theorem priorityQueues : Obligations.PriorityQueues := by
  unfold Obligations.PriorityQueues
  intro s s0 rd ra rb scope e h d c wide n mine
  have hmine : ∀ x, mine x ↔ x ∈ reached s0 scope := fun x => mem_reached.symm
  obtain ⟨hlen, hmem, hsorted, hrest⟩ := candidates_first (s := s0) (scope := scope)
  refine ⟨⟨hlen, fun x hx => (hmine x).2 (hmem x hx), hsorted.imp pqLe_iff.1, fun x hx hout => ?_⟩, pqpush_inserts h, fun hc => ⟨pqTake_empty h hc, ?_⟩,
    fun he => ⟨pqTake_some h he, pqTake_some h he⟩⟩
  · obtain ⟨hfull, hbefore⟩ := hrest x ((hmine x).1 hx) hout
    exact ⟨hfull, fun y hy => pqLe_iff.1 (hbefore y hy)⟩
  · refine ⟨_, pqTake_empty h hc, ?_, ?_, x_of_empty⟩
    · simp only [State.adv_dies, State.setX_dies, if_true]
    · simp only [State.adv_core_counts, State.setX_core_counts, if_true]

end Sys2Proof.Proofs.PriorityQueues
end

section
/-! SUPPORT. What coherence messages do where they arrive (R307, R309 to R311, R315 to R318): a rule per state of the holder or of the directory that a
message finds, then the steps that deliver it. -/

namespace Sys2Proof.Proofs.Answers
open Sys2Proof Sys2Proof.Machine Sys2Proof.Laws

/-! ### The delivery of a message that changes coherence alone -/

theorem stOf_eq_some {c : Coh} {h : Holder} {k : Nat} {v : CopySt} : c.stOf h k = some v ↔ ∃ x, c.copyOf h k = some x ∧ x.st = v := by
  rw [Coh.stOf, Option.map_eq_some_iff]

theorem stOf_eq_none {c : Coh} {h : Holder} {k : Nat} : c.stOf h k = none ↔ c.copyOf h k = none := by
  rw [Coh.stOf, Option.map_eq_none_iff]

theorem stOf_of_copyOf {c : Coh} {h : Holder} {k : Nat} {x : Copy} (hx : c.copyOf h k = some x) : c.stOf h k = some x.st := by
  rw [Coh.stOf, hx, Option.map_some]

/-- An entry with something under way is listed, and reads back. -/
theorem dirEnt_set_busy {c : Coh} {e : DirEnt} {d : DirId} {k : Nat} (hbusy : e.busy ≠ .stable ∨ e.down.isSome) (hd : e.dir = d)
    (hk : e.sector = k) : (c.setDirEnt e).dirEnt d k = e := by
  have hlisted : entIdle e = false := by
    rcases hbusy with hbusy | hdown
    · simp [entIdle, hbusy]
    · simp [entIdle, Option.isSome_iff_ne_none.1 hdown]
  rw [dirEnt_set c e d k hd hk, hlisted]
  rfl

/-- The coherence of a machine, replaced. -/
abbrev withCoh (s : State) (c : Coh) : State := { s with store.coh := c }

/-! ### A forward at an owner (R310, R311) -/

section
variable {c : Coh} {h : Holder} {k : Nat} {m : Bool} {ctx : BitVec 6} {w : Bool}

theorem takeFwd_gone (hst : c.stOf h k = none ∨ c.stOf h k = some .iiA) : c.takeFwd h k m ctx w = c.reply h k false := by
  unfold Coh.takeFwd
  rcases hst with hst | hst
  · rw [stOf_eq_none.1 hst]
  · obtain ⟨x, hx, hxst⟩ := stOf_eq_some.1 hst
    simp only [hx, hxst]

theorem takeFwd_kept (hst : c.stOf h k = some .miA) : ∃ n, c.takeFwd h k m ctx w = (c.setCopy h k (some .iiA) n).reply h k true := by
  obtain ⟨x, hx, hxst⟩ := stOf_eq_some.1 hst
  refine ⟨x.num, ?_⟩
  unfold Coh.takeFwd
  simp only [hx, hxst]

theorem takeFwd_cache (hd : ownDir h = none) (hst : c.stOf h k = some .s ∨ c.stOf h k = some .e ∨ c.stOf h k = some .m) :
    ∃ n, c.takeFwd h k m ctx w = (c.setCopy h k (if m then none else some .s) n).reply h k true := by
  rcases hst with hst | hst | hst <;>
  · obtain ⟨x, hx, hxst⟩ := stOf_eq_some.1 hst
    refine ⟨x.num, ?_⟩
    unfold Coh.takeFwd
    simp only [hx, hxst, hd]

theorem takeFwd_level {d : DirId} {o : Holder} (hd : ownDir h = some d) (ho : (c.dirEnt d k).owner = some o)
    (hst : c.stOf h k = some .s ∨ c.stOf h k = some .e ∨ c.stOf h k = some .m) :
    c.takeFwd h k m ctx w =
      (c.setDirEnt { c.dirEnt d k with down := some { kind := if m then .fwdM else .fwdS, left := 1 } }).send (.fwd o k m ctx w) := by
  rcases hst with hst | hst | hst <;>
  · obtain ⟨x, hx, hxst⟩ := stOf_eq_some.1 hst
    unfold Coh.takeFwd
    simp only [hx, hxst, hd, ho]

end

/-- The messages that FWD.S, and with `m` FWD.M, may be of. -/
def isFwd (h : Holder) (k : Nat) (m : Bool) (x : CohMsg) : Bool :=
  match x with
  | .fwd d j m' _ _ => d = h && j = k && m' = m
  | _ => false

theorem exec_fwd (h : Holder) (k : Nat) (m : Bool) (s : State) :
    exec (if m then .fwdM h k else .fwdS h k) s = .next (s.deliverFirst (isFwd h k m)) := by
  have hp : ∀ p q : CohMsg → Bool, (∀ x, p x = q x) → s.deliverFirst p = s.deliverFirst q := fun p q hpq => by rw [funext hpq]
  cases m
  · exact congrArg Host.Outcome.next (hp _ _ fun x => by cases x <;> simp [isFwd])
  · exact congrArg Host.Outcome.next (hp _ _ fun x => by cases x <;> simp [isFwd])

theorem fwd_delivered {s : State} {h : Holder} {k : Nat} {m : Bool} {ctx : BitVec 6} {w : Bool} {a b : List CohMsg}
    (hmsgs : s.store.coh.msgs = a ++ .fwd h k m ctx w :: b) (ha : ∀ ctx w, CohMsg.fwd h k m ctx w ∉ a)
    (hdel : s.deliverable (.fwd h k m ctx w) = true) (hq : QuietAt s.store.coh k) :
    exec (if m then .fwdM h k else .fwdS h k) s =
      .next ((withCoh s ((s.store.coh.took (.fwd h k m ctx w)).takeFwd h k m ctx w)).spillAt h) := by
  have hfirst : ∀ x ∈ a, isFwd h k m x = false := by
    intro x hx
    cases x with
    | fwd h' k' m' ctx' w' =>
      by_contra hne
      simp only [isFwd, Bool.not_eq_false, Bool.and_eq_true, decide_eq_true_eq] at hne
      obtain ⟨⟨rfl, rfl⟩, rfl⟩ := hne
      exact ha _ _ hx
    | _ => rfl
  rw [exec_fwd, deliverFirst_mid s _ _ a b hmsgs hfirst (by simp [isFwd]) hdel]
  have hquiet : QuietAt ((s.store.coh.took (.fwd h k m ctx w)).takeFwd h k m ctx w) (CohMsg.fwd h k m ctx w).sector :=
    takeFwd_quiet h m ctx w (quiet_congr rfl hq)
  rw [deliver_of s _ _ hquiet rfl]
  rfl

/-- The forwards. -/
theorem forwards (s : State) (h : Holder) (k : Nat) (m : Bool) (ctx : BitVec 6) (w : Bool) (a b : List CohMsg)
    (hmsgs : s.store.coh.msgs = a ++ .fwd h k m ctx w :: b) (ha : ∀ ctx w, CohMsg.fwd h k m ctx w ∉ a) :
    let c := s.store.coh
    let st := c.stOf h k
    let u := (c.took (.fwd h k m ctx w)).takeFwd h k m ctx w
    (ownDir h = none → st = some .s ∨ st = some .e ∨ st = some .m →
      u.stOf h k = (if m then none else some .s) ∧ u.dirs = c.dirs ∧ u.msgs = a ++ b ++ [.reply h k]) ∧
    (st = none ∨ st = some .iiA → u.copies = c.copies ∧ u.dirs = c.dirs ∧ u.msgs = a ++ b ++ [.invack h k]) ∧
    (st = some .miA → u.stOf h k = some .iiA ∧ u.dirs = c.dirs ∧ u.msgs = a ++ b ++ [.reply h k]) ∧
    (∀ d o, ownDir h = some d → (c.dirEnt d k).owner = some o → st = some .s ∨ st = some .e ∨ st = some .m →
      (u.dirEnt d k).down = some { kind := if m then .fwdM else .fwdS, left := 1 } ∧ u.copies = c.copies ∧
        u.msgs = a ++ b ++ [.fwd o k m ctx w]) := by
  intro c st u
  have htook : (c.took (.fwd h k m ctx w)).msgs = a ++ b := took_mid c _ a b hmsgs (ha ctx w)
  refine ⟨fun hd hst => ?_, fun hst => ?_, fun hst => ?_, fun d o hd ho hst => ?_⟩
  · obtain ⟨n, hu⟩ := takeFwd_cache (c := c.took (.fwd h k m ctx w)) (m := m) (ctx := ctx) (w := w) hd hst
    obtain ⟨hm, hdirs, hcopies⟩ := reply_spec ((c.took (.fwd h k m ctx w)).setCopy h k (if m then none else some .s) n) h k true
    have hu : u = _ := hu
    rw [hu]
    exact ⟨(stOf_congr hcopies h k).trans (stOf_set _ _ _ _ _), hdirs, hm.trans (congrArg (· ++ [CohMsg.reply h k]) htook)⟩
  · have hu : u = _ := takeFwd_gone (c := c.took (.fwd h k m ctx w)) hst
    obtain ⟨hm, hdirs, hcopies⟩ := reply_spec (c.took (.fwd h k m ctx w)) h k false
    rw [hu]
    exact ⟨hcopies, hdirs, hm.trans (congrArg (· ++ [CohMsg.invack h k]) htook)⟩
  · obtain ⟨n, hu⟩ := takeFwd_kept (c := c.took (.fwd h k m ctx w)) (m := m) (ctx := ctx) (w := w) hst
    obtain ⟨hm, hdirs, hcopies⟩ := reply_spec ((c.took (.fwd h k m ctx w)).setCopy h k (some .iiA) n) h k true
    have hu : u = _ := hu
    rw [hu]
    exact ⟨(stOf_congr hcopies h k).trans (stOf_set _ _ _ _ _), hdirs, hm.trans (congrArg (· ++ [CohMsg.reply h k]) htook)⟩
  · have hu : u = _ := takeFwd_level (c := c.took (.fwd h k m ctx w)) (m := m) (ctx := ctx) (w := w) hd ho hst
    obtain ⟨hdir, hsector⟩ := dirEnt_key c d k
    rw [hu]
    have hset := dirEnt_set_busy (c := c.took (.fwd h k m ctx w))
      (e := { c.dirEnt d k with down := some { kind := if m then .fwdM else .fwdS, left := 1 } }) (.inr rfl) hdir hsector
    exact ⟨congrArg DirEnt.down hset, rfl, congrArg (· ++ [CohMsg.fwd o k m ctx w]) htook⟩
/-! ### An answer at a directory (R307, R309, R311) -/

section
variable {c : Coh} {h : Holder} {k : Nat} {data : Bool} {q : Req} {n : Nat}

theorem answer_inv_more (hdown : (c.dirEnt (parentDir h) k).down = none) (hbusy : (c.dirEnt (parentDir h) k).busy = .inv q (n + 2)) :
    c.answer h k data = c.setDirEnt { c.dirEnt (parentDir h) k with busy := .inv q (n + 1) } := by
  simp only [Coh.answer, hdown, hbusy]
  rfl

theorem answer_inv_last (hdown : (c.dirEnt (parentDir h) k).down = none) (hbusy : (c.dirEnt (parentDir h) k).busy = .inv q 1) :
    c.answer h k data = c.grantM (c.dirEnt (parentDir h) k) q := by
  simp only [Coh.answer, hdown, hbusy]
  rfl

theorem answer_fwd (hdown : (c.dirEnt (parentDir h) k).down = none) (hbusy : (c.dirEnt (parentDir h) k).busy = .fwd q) :
    c.answer h k data = c.endFwd (c.dirEnt (parentDir h) k) q data := by
  simp only [Coh.answer, hdown, hbusy]

theorem answer_bi_last (hdown : (c.dirEnt (parentDir h) k).down = none) (hbusy : (c.dirEnt (parentDir h) k).busy = .bi 1) :
    c.answer h k data = c.setDirEnt { (c.dirEnt (parentDir h) k).clear with busy := .stable } := by
  simp only [Coh.answer, hdown, hbusy]
  rfl

theorem answer_down_more {dn : Down} {l : Holder} (hdown : (c.dirEnt (parentDir h) k).down = some dn)
    (hl : levelOf (parentDir h) = some l) (hleft : dn.left = n + 2) :
    c.answer h k data = c.setDirEnt { c.dirEnt (parentDir h) k with down := some { dn with left := n + 1, data := dn.data || data } } := by
  simp only [Coh.answer, hdown, (dirEnt_key c (parentDir h) k).1, hl, hleft]
  rfl

theorem answer_down_last {dn : Down} {l : Holder} (hdown : (c.dirEnt (parentDir h) k).down = some dn)
    (hl : levelOf (parentDir h) = some l) (hleft : dn.left = 1) :
    c.answer h k data = c.finishDown l (c.dirEnt (parentDir h) k) { dn with left := 0, data := dn.data || data } := by
  simp only [Coh.answer, hdown, (dirEnt_key c (parentDir h) k).1, hl, hleft]
  rfl

end

/-! ### What ends a forward, and what ends a recall -/

theorem endFwd_m {c : Coh} {e : DirEnt} {r : Req} {data : Bool} (hm : r.m = true) : c.endFwd e r data = c.grantM e r := by
  unfold Coh.endFwd
  simp only [hm, if_true]
  rfl

theorem endFwd_data {c : Coh} {e : DirEnt} {r : Req} (hm : r.m = false) (hself : r.self = false) :
    c.endFwd e r true = (c.setDirEnt { ({ e with busy := .stable } : DirEnt).clear with
      sharers := (r.child, some r.num) :: e.owner.toList.map fun o => (o, e.ownerNum) }).send (.grant r.child e.sector .s) := by
  simp [Coh.endFwd, Coh.grant, hm, hself]

theorem endFwd_clean {c : Coh} {e : DirEnt} {r : Req} (hm : r.m = false) (hself : r.self = false) (hro : readOnly r.child = false) :
    c.endFwd e r false =
      (c.setDirEnt (({ e with busy := .stable } : DirEnt).own r.child r.num)).send (.grant r.child e.sector .e) := by
  simp [Coh.endFwd, Coh.grant, hm, hself, hro]

/-- The last answer below a level to an INV is the level's own: it has no copy and records nobody. -/
theorem finishDown_inv {c : Coh} {l : Holder} {e : DirEnt} {dn : Down} (hkind : dn.kind = .inv)
    (hst : c.stOf l e.sector = none ∨ c.stOf l e.sector = some .s ∨ c.stOf l e.sector = some .e ∨ c.stOf l e.sector = some .m) :
    let u := c.finishDown l e dn
    u.dirs = (c.setDirEnt ({ e with down := none } : DirEnt).clear).dirs ∧ u.stOf l e.sector = none ∧
      u.msgs = c.msgs ++ [if c.stOf l e.sector = some .m ∨ dn.data = true then .reply l e.sector else .invack l e.sector] := by
  intro u
  let c1 := c.setDirEnt ({ e with down := none } : DirEnt).clear
  have hu : u = (c1.invCopy l e.sector dn.num).2.reply l e.sector ((c1.invCopy l e.sector dn.num).1 || dn.data) := by
    show c.finishDown l e dn = _
    simp only [Coh.finishDown, hkind]
    rfl
  obtain ⟨hdirty, hdirs, hmsgs, hcopy⟩ := invCopy_spec c1 l e.sector dn.num
  obtain ⟨rmsgs, rdirs, rcopies⟩ := reply_spec (c1.invCopy l e.sector dn.num).2 l e.sector ((c1.invCopy l e.sector dn.num).1 || dn.data)
  have hst1 : c1.stOf l e.sector = c.stOf l e.sector := rfl
  have hcopy1 : c1.copyOf l e.sector = c.copyOf l e.sector := rfl
  have hmi : c.stOf l e.sector ≠ some .miA := by
    rcases hst with hst | hst | hst | hst <;> rw [hst] <;> decide
  refine ⟨?_, ?_, ?_⟩
  · rw [hu, rdirs, hdirs]
  · rw [hu, stOf_congr rcopies, hcopy, hcopy1]
    rcases hst with hst | hst | hst | hst
    · rw [stOf_eq_none.1 hst]
    all_goals
      obtain ⟨x, hx, hxst⟩ := stOf_eq_some.1 hst
      simp only [hx, hxst]
  · rw [hu, rmsgs, hmsgs, hdirty, hst1]
    simp [hmi, c1, Coh.setDirEnt]
/-! ### The delivery of an answer -/

/-- An answer of a child: its data, or an acknowledgement. -/
abbrev answerMsg (h : Holder) (k : Nat) (data : Bool) : CohMsg := if data then .reply h k else .invack h k

/-- The answer is taken, and the requests that waited are served. -/
def answered (s : State) (h : Holder) (k : Nat) (data : Bool) : Coh :=
  ((s.store.coh.took (answerMsg h k data)).answer h k data).serveQueues k (s.store.isCode (64 * k))

theorem deliver_answer (s : State) (h : Holder) (k : Nat) (data : Bool) :
    s.deliver (answerMsg h k data) = withCoh s (answered s h k data) := by
  cases data <;> rfl

theorem answerMsg_first {s : State} {h : Holder} {k : Nat} {data : Bool} {p : CohMsg → Bool} (hm : answerMsg h k data ∈ s.store.coh.msgs)
    (hp : p (answerMsg h k data) = true) (hall : ∀ x, p x = true → x = answerMsg h k data) :
    s.deliverFirst p = (withCoh s (answered s h k data)).spillAt h := by
  have hholder : (answerMsg h k data).holder = h := by cases data <;> rfl
  have hdel : s.deliverable (answerMsg h k data) = true := by cases data <;> rfl
  rw [deliverFirst_only s p _ hm hp hall hdel, deliver_answer, hholder]

theorem mine_up {h : Holder} {k : Nat} {x : CohMsg} (hx : mine true h k x = true) : x = .reply h k := by
  cases x <;> simp [mine] at hx ⊢
  exact hx

theorem mine_reply (h : Holder) (k : Nat) : mine true h k (.reply h k) = true := by
  simp [mine]

theorem exec_answer {s : State} {h : Holder} {k : Nat} {data : Bool} (hm : answerMsg h k data ∈ s.store.coh.msgs) :
    exec (if data then .data h k { up := true, poisoned := false } else .invack h k true) s =
      .next ((withCoh s (answered s h k data)).spillAt h) := by
  cases data with
  | false =>
    refine congrArg Host.Outcome.next (answerMsg_first (data := false) hm (by simp [answerMsg]) fun x hx => ?_)
    cases x <;> simp [answerMsg] at hx ⊢
    exact hx
  | true =>
    show execData h k { up := true, poisoned := false } s = _
    rw [execData_up, answerMsg_first (data := true) hm (mine_reply h k) fun _ => mine_up]
    simp

/-- Data that arrives uncorrectable over a die boundary leaves its sector marked at home (R431). -/
theorem exec_answer_poisoned {s : State} {h : Holder} {k : Nat} (hm : CohMsg.reply h k ∈ s.store.coh.msgs) :
    exec (.data h k { up := true, poisoned := true }) s =
      .next (if s.crosses h k then ((withCoh s (answered s h k true)).spillAt h).markHome k false
        else (withCoh s (answered s h k true)).spillAt h) := by
  have hany : (s.store.coh.msgs.any fun m => mine true h k m && s.deliverable m) = true :=
    List.any_eq_true.2 ⟨_, hm, Bool.and_eq_true_iff.2 ⟨mine_reply h k, rfl⟩⟩
  show execData h k { up := true, poisoned := true } s = _
  rw [execData_up, answerMsg_first (data := true) hm (mine_reply h k) fun _ => mine_up, hany]
  cases s.crosses h k <;> simp

/-- Where nothing waits once the answer is taken, nothing more happens. -/
theorem answered_quiet {s : State} {h : Holder} {k : Nat} {data : Bool} {u : Coh}
    (hu : (s.store.coh.took (answerMsg h k data)).answer h k data = u) (hq : QuietAt u k) : answered s h k data = u := by
  rw [answered, hu, serveQueues_quiet hq]

/-! ### The answers, by what stands at the directory -/

section
variable {s : State} {h : Holder} {q : Req} {k n : Nat} {data : Bool}

theorem took_quiet {c : Coh} {m : CohMsg} (hq : QuietAt c k) : QuietAt (c.took m) k := quiet_congr rfl hq

/-- An answer that sets the directory's entry, and may send a message: the entry reads back, listed or idle. -/
theorem answered_set {e : DirEnt} {ms : List CohMsg} {u : Coh} (hq : QuietAt s.store.coh k)
    (hu : (s.store.coh.took (answerMsg h k data)).answer h k data = u)
    (hdirs : u.dirs = ((s.store.coh.took (answerMsg h k data)).setDirEnt e).dirs)
    (hmsgs : u.msgs = s.store.coh.msgs.erase (answerMsg h k data) ++ ms)
    (hkey : e.dir = parentDir h ∧ e.sector = k) (hqueue : e.queue = []) :
    (answered s h k data).dirEnt (parentDir h) k = (if entIdle e then { dir := parentDir h, sector := k } else e) ∧
      (answered s h k data).msgs = s.store.coh.msgs.erase (answerMsg h k data) ++ ms := by
  rw [answered_quiet hu (quiet_congr hdirs (quiet_set (took_quiet hq) _ hqueue))]
  exact ⟨(dirEnt_congr hdirs _ _).trans (dirEnt_set _ _ _ _ hkey.1 hkey.2), hmsgs⟩

/-- An acknowledgement is counted. -/
theorem answered_inv_more (hq : QuietAt s.store.coh k) (hdown : (s.store.coh.dirEnt (parentDir h) k).down = none)
    (hbusy : (s.store.coh.dirEnt (parentDir h) k).busy = .inv q (n + 2)) :
    ((answered s h k data).dirEnt (parentDir h) k).busy = .inv q (n + 1) ∧
      (answered s h k data).msgs = s.store.coh.msgs.erase (answerMsg h k data) := by
  obtain ⟨he, hmsgs⟩ := answered_set (ms := []) (e := { s.store.coh.dirEnt (parentDir h) k with busy := .inv q (n + 1) }) hq
    (answer_inv_more (data := data) hdown hbusy) rfl (List.append_nil _).symm (dirEnt_key _ _ _) (quiet_dirEnt hq _)
  rw [if_neg (by simp [entIdle])] at he
  exact ⟨congrArg DirEnt.busy he, hmsgs.trans (List.append_nil _)⟩

/-- A requester becomes the owner with Modified. -/
theorem answered_grantM (hq : QuietAt s.store.coh k) (hself : q.self = false)
    (hu : (s.store.coh.took (answerMsg h k data)).answer h k data =
      (s.store.coh.took (answerMsg h k data)).grantM (s.store.coh.dirEnt (parentDir h) k) q) :
    let e' := (answered s h k data).dirEnt (parentDir h) k
    e'.owner = some q.child ∧ e'.ownerNum = some q.num ∧ e'.busy = .stable ∧
      (answered s h k data).msgs = s.store.coh.msgs.erase (answerMsg h k data) ++ [.grant q.child k .m] := by
  intro e'
  obtain ⟨hd, hk⟩ := dirEnt_key s.store.coh (parentDir h) k
  obtain ⟨howner, hnum, hbusy, -, -, hmsgs, -⟩ :=
    grantM_spec (s.store.coh.took (answerMsg h k data)) (s.store.coh.dirEnt (parentDir h) k) q hself
  rw [hd, hk] at howner hnum hbusy
  rw [hk] at hmsgs
  have ha := answered_quiet hu (grantM_quiet hself (took_quiet hq) (quiet_dirEnt hq _))
  have he : e' = _ := congrArg (fun c => c.dirEnt (parentDir h) k) ha
  rw [he, ha]
  exact ⟨howner, hnum, hbusy, hmsgs⟩

/-- The owner's data ends a forward of a read: owner and requester share the sector. -/
theorem answered_fwd_data (hq : QuietAt s.store.coh k) (hself : q.self = false) (hdown : (s.store.coh.dirEnt (parentDir h) k).down = none)
    (hbusy : (s.store.coh.dirEnt (parentDir h) k).busy = .fwd q) (hm : q.m = false) :
    let e' := (answered s h k true).dirEnt (parentDir h) k
    e'.busy = .stable ∧ e'.owner = none ∧ e'.sharers.map (·.1) = q.child :: (s.store.coh.dirEnt (parentDir h) k).owner.toList ∧
      (answered s h k true).msgs = s.store.coh.msgs.erase (.reply h k) ++ [.grant q.child k .s] := by
  intro e'
  have hk := (dirEnt_key s.store.coh (parentDir h) k).2
  obtain ⟨he, hmsgs⟩ := answered_set (ms := [.grant q.child k .s]) (e := { (s.store.coh.dirEnt (parentDir h) k).clear with
      busy := .stable, sharers := (q.child, some q.num) :: (s.store.coh.dirEnt (parentDir h) k).owner.toList.map fun o =>
        (o, (s.store.coh.dirEnt (parentDir h) k).ownerNum) }) (data := true) hq
    ((answer_fwd (c := s.store.coh.took (answerMsg h k true)) (data := true) hdown hbusy).trans (endFwd_data hm hself)) rfl
    (congrArg (fun j => _ ++ [CohMsg.grant q.child j .s]) hk) (dirEnt_key _ _ _) (quiet_dirEnt hq _)
  rw [if_neg (by simp [entIdle])] at he
  have he : e' = _ := he
  rw [he]
  refine ⟨rfl, rfl, ?_, hmsgs⟩
  cases ho : (s.store.coh.dirEnt (parentDir h) k).owner <;> rfl

/-- The owner has the data no more: the requester owns the sector. -/
theorem answered_fwd_clean (hq : QuietAt s.store.coh k) (hself : q.self = false) (hdown : (s.store.coh.dirEnt (parentDir h) k).down = none)
    (hbusy : (s.store.coh.dirEnt (parentDir h) k).busy = .fwd q) (hm : q.m = false) (hro : readOnly q.child = false) :
    let e' := (answered s h k false).dirEnt (parentDir h) k
    e'.busy = .stable ∧ e'.owner = some q.child ∧
      (answered s h k false).msgs = s.store.coh.msgs.erase (.invack h k) ++ [.grant q.child k .e] := by
  intro e'
  have hk := (dirEnt_key s.store.coh (parentDir h) k).2
  obtain ⟨he, hmsgs⟩ := answered_set (ms := [.grant q.child k .e])
    (e := ({ s.store.coh.dirEnt (parentDir h) k with busy := .stable } : DirEnt).own q.child q.num) (data := false) hq
    ((answer_fwd (c := s.store.coh.took (answerMsg h k false)) (data := false) hdown hbusy).trans (endFwd_clean hm hself hro)) rfl
    (congrArg (fun j => _ ++ [CohMsg.grant q.child j .e]) hk) (dirEnt_key _ _ _) (quiet_dirEnt hq _)
  rw [if_neg (by simp [entIdle, DirEnt.own])] at he
  have he : e' = _ := he
  rw [he]
  exact ⟨rfl, rfl, hmsgs⟩

/-- The last answer to a filter victim's recall. -/
theorem answered_bi_last (hq : QuietAt s.store.coh k) (hdown : (s.store.coh.dirEnt (parentDir h) k).down = none)
    (hbusy : (s.store.coh.dirEnt (parentDir h) k).busy = .bi 1) :
    let e' := (answered s h k data).dirEnt (parentDir h) k
    e'.busy = .stable ∧ e'.owner = none ∧ e'.sharers = [] ∧
      (answered s h k data).msgs = s.store.coh.msgs.erase (answerMsg h k data) := by
  intro e'
  obtain ⟨he, hmsgs⟩ := answered_set (ms := []) (e := { (s.store.coh.dirEnt (parentDir h) k).clear with busy := .stable }) hq
    (answer_bi_last (data := data) hdown hbusy) rfl (List.append_nil _).symm (dirEnt_key _ _ _) (quiet_dirEnt hq _)
  have he : e' = _ := he
  rw [he]
  refine ⟨?_, ?_, ?_, hmsgs.trans (List.append_nil _)⟩ <;> split <;> rfl

variable {dn : Down} {l : Holder}

/-- An answer below a level is counted. -/
theorem answered_down_more (hq : QuietAt s.store.coh k) (hdown : (s.store.coh.dirEnt (parentDir h) k).down = some dn)
    (hl : levelOf (parentDir h) = some l) (hleft : dn.left = n + 2) :
    ((answered s h k data).dirEnt (parentDir h) k).down = some { dn with left := n + 1, data := dn.data || data } ∧
      (answered s h k data).msgs = s.store.coh.msgs.erase (answerMsg h k data) := by
  obtain ⟨he, hmsgs⟩ := answered_set (ms := [])
    (e := { s.store.coh.dirEnt (parentDir h) k with down := some { dn with left := n + 1, data := dn.data || data } }) hq
    (answer_down_more (data := data) hdown hl hleft) rfl (List.append_nil _).symm (dirEnt_key _ _ _) (quiet_dirEnt hq _)
  rw [if_neg (by simp [entIdle])] at he
  exact ⟨congrArg DirEnt.down he, hmsgs.trans (List.append_nil _)⟩

/-- The last answer below a level is the level's own. -/
theorem answered_down_last (hq : QuietAt s.store.coh k) (hdown : (s.store.coh.dirEnt (parentDir h) k).down = some dn)
    (hl : levelOf (parentDir h) = some l) (hleft : dn.left = 1) (hkind : dn.kind = .inv)
    (hst : s.store.coh.stOf l k = none ∨ s.store.coh.stOf l k = some .s ∨ s.store.coh.stOf l k = some .e ∨ s.store.coh.stOf l k = some .m) :
    let u := answered s h k data
    let e' := u.dirEnt (parentDir h) k
    e'.down = none ∧ e'.owner = none ∧ e'.sharers = [] ∧ u.stOf l k = none ∧
      u.msgs = s.store.coh.msgs.erase (answerMsg h k data) ++
        [if s.store.coh.stOf l k = some .m ∨ dn.data = true ∨ data = true then .reply l k else .invack l k] := by
  intro u e'
  obtain ⟨hd, hk⟩ := dirEnt_key s.store.coh (parentDir h) k
  have hu := answer_down_last (c := s.store.coh.took (answerMsg h k data)) (data := data) hdown hl hleft
  have ha : u = _ := answered_quiet hu (finishDown_quiet l _ _ (took_quiet hq) (quiet_dirEnt hq _))
  obtain ⟨hdirs, hcopy, hmsgs⟩ := finishDown_inv (c := s.store.coh.took (answerMsg h k data)) (l := l)
    (e := s.store.coh.dirEnt (parentDir h) k) (dn := { dn with left := 0, data := dn.data || data }) hkind (by rw [hk]; exact hst)
  obtain ⟨howner, hsharers, hnone⟩ := idle_or (s.store.coh.took (answerMsg h k data))
    ({ s.store.coh.dirEnt (parentDir h) k with down := none } : DirEnt).clear (parentDir h) k hd hk rfl rfl rfl
  rw [hk] at hcopy hmsgs
  have he : e' = _ := (congrArg (fun c => c.dirEnt (parentDir h) k) ha).trans (dirEnt_congr hdirs (parentDir h) k)
  rw [he]
  refine ⟨hnone, howner, hsharers, ?_, ?_⟩
  · rw [ha]; exact hcopy
  · rw [ha]
    refine hmsgs.trans ?_
    simp only [Bool.or_eq_true]
    rfl

end
/-! ### A request that waited (R307) -/

theorem serveQueue_cons {c : Coh} {d : DirId} {k n : Nat} {code : Bool} {r : Req} {rest : List Req} (hqueue : (c.dirEnt d k).queue = r :: rest)
    (hready : c.ready d k = true) :
    Coh.serveQueue d k code (n + 1) c =
      Coh.serveQueue d k code n ((c.setDirEnt { c.dirEnt d k with queue := rest }).serve r k code) := by
  simp only [Coh.serveQueue, hqueue, hready, if_true]

/-- A read of a sector that another child owns is forwarded to the owner. -/
theorem serve_forward {c : Coh} {r : Req} {k : Nat} {code : Bool} {o : Holder} (hm : r.m = false) (hperm : c.permission r.dir k = some .m)
    (ho : (c.dirEnt r.dir k).owner = some o) (hne : o ≠ r.child) :
    c.serve r k code = (c.setDirEnt { c.dirEnt r.dir k with ctx := r.ctx, window := r.window, busy := .fwd r }).send
      (.fwd o k false r.ctx r.window) := by
  simp only [Coh.serve, hm, hperm, ho, if_neg hne]
  rfl

theorem permission_setDirEnt (c : Coh) (e : DirEnt) (d : DirId) (k : Nat) : (c.setDirEnt e).permission d k = c.permission d k := by
  unfold Coh.permission
  cases levelOf d <;> rfl

/-- Of a sector's queues only one is not empty: it is the one that is served. -/
theorem serveQueues_one {c : Coh} {e : DirEnt} {k : Nat} {code : Bool} {rest : List DirEnt} (hdirs : c.dirs = e :: rest) (hk : e.sector = k)
    (hqueue : e.queue ≠ []) (hrest : ∀ x ∈ rest, x.sector = k → x.queue = []) :
    c.serveQueues k code = Coh.serveQueue e.dir k code e.queue.length c := by
  have hwait : c.dirs.filter (fun e => e.sector = k && !e.queue.isEmpty) = [e] := by
    rw [hdirs, List.filter_cons_of_pos (by simp [hk, hqueue]), List.filter_eq_nil_iff.2 fun x hx => ?_]
    simp only [Bool.and_eq_true, decide_eq_true_eq, Bool.not_eq_true', not_and, Bool.not_eq_false]
    exact fun hxk => List.isEmpty_iff.2 (hrest x hx hxk)
  rw [Coh.serveQueues, hwait]
  rfl

theorem setDirEnt_listed {c : Coh} {e : DirEnt} (hlisted : entIdle e = false) :
    (c.setDirEnt e).dirs = e :: c.dirs.filter fun x => !(x.dir = e.dir && x.sector = e.sector) := by
  unfold entIdle at hlisted
  simp only [Coh.setDirEnt, hlisted, Bool.false_eq_true, if_false]

/-- A reader that waits at an entry which is stable again is forwarded to the entry's owner. -/
theorem serveQueue_reader {g : Coh} {d : DirId} {k : Nat} {code : Bool} {p : Req} {o : Holder} (hstable : (g.dirEnt d k).busy = .stable)
    (hdown : (g.dirEnt d k).down = none) (ho : (g.dirEnt d k).owner = some o) (hqueue : (g.dirEnt d k).queue = [p])
    (hperm : g.permission d k = some .m) (hdir : p.dir = d) (hm : p.m = false) (hne : o ≠ p.child) :
    let u := Coh.serveQueue d k code 1 g
    (u.dirEnt d k).busy = .fwd p ∧ (u.dirEnt d k).queue = [] ∧ u.msgs = g.msgs ++ [.fwd o k false p.ctx p.window] := by
  intro u
  subst hdir
  have hready : g.ready p.dir k = true := by
    simp [Coh.ready, hstable, hdown, hperm, CopySt.transient]
  let e : DirEnt := { g.dirEnt p.dir k with queue := [] }
  let g1 := g.setDirEnt e
  obtain ⟨hgd, hgk⟩ := dirEnt_key g p.dir k
  have hg1 : g1.dirEnt p.dir k = e := by
    have hset := dirEnt_set g e p.dir k hgd hgk
    rwa [if_neg (by simp [entIdle, e, ho])] at hset
  have ho1 : (g1.dirEnt p.dir k).owner = some o := (congrArg DirEnt.owner hg1).trans ho
  have hu : u = _ := (serveQueue_cons hqueue hready).trans
    (serve_forward (c := g1) (code := code) hm ((permission_setDirEnt _ _ _ _).trans hperm) ho1 hne)
  obtain ⟨hd1, hk1⟩ := dirEnt_key g1 p.dir k
  have hset := dirEnt_set_busy (c := g1) (e := { g1.dirEnt p.dir k with ctx := p.ctx, window := p.window, busy := .fwd p })
    (.inl (by simp)) hd1 hk1
  rw [hu]
  exact ⟨congrArg DirEnt.busy hset, (congrArg DirEnt.queue hset).trans (congrArg DirEnt.queue hg1), rfl⟩

/-- After a grant of Modified, the queue of the entry is the one that is served. -/
theorem serveQueues_grantM {c : Coh} {e : DirEnt} {q : Req} {code : Bool} (hself : q.self = false) (hqueue : e.queue ≠ [])
    (hothers : ∀ x ∈ c.dirs, x.sector = e.sector → x.dir ≠ e.dir → x.queue = []) :
    (c.grantM e q).serveQueues e.sector code = Coh.serveQueue e.dir e.sector code e.queue.length (c.grantM e q) := by
  obtain ⟨-, -, -, -, -, -, hdirs, -⟩ := grantM_spec c e q hself
  refine serveQueues_one (e := ({ e with busy := .stable } : DirEnt).own q.child q.num)
    (hdirs.trans (setDirEnt_listed (by simp [entIdle, DirEnt.own]))) rfl hqueue fun x hx hxk => ?_
  obtain ⟨hmem, hnot⟩ := List.mem_filter.1 hx
  refine hothers x hmem hxk fun hxd => ?_
  simp [DirEnt.own, DirEnt.clear, hxd, hxk] at hnot

/-- A reader that waited behind a writer is served once the writer's last acknowledgement has come. -/
theorem answered_queue {s : State} {h : Holder} {q p : Req} {k : Nat} {data : Bool} (hself : q.self = false)
    (hothers : ∀ x ∈ s.store.coh.dirs, x.sector = k → x.dir ≠ parentDir h → x.queue = [])
    (hdown : (s.store.coh.dirEnt (parentDir h) k).down = none) (hbusy : (s.store.coh.dirEnt (parentDir h) k).busy = .inv q 1)
    (hqueue : (s.store.coh.dirEnt (parentDir h) k).queue = [p]) (hdir : p.dir = parentDir h) (hm : p.m = false) (hne : p.child ≠ q.child)
    (hperm : s.store.coh.permission (parentDir h) k = some .m) :
    let u := answered s h k data
    (u.dirEnt (parentDir h) k).busy = .fwd p ∧ (u.dirEnt (parentDir h) k).queue = [] ∧
      u.msgs = s.store.coh.msgs.erase (answerMsg h k data) ++ [.grant q.child k .m, .fwd q.child k false p.ctx p.window] := by
  intro u
  obtain ⟨hd, hk⟩ := dirEnt_key s.store.coh (parentDir h) k
  let c1 := s.store.coh.took (answerMsg h k data)
  let e := s.store.coh.dirEnt (parentDir h) k
  obtain ⟨howner, -, hstable, hwaits, hnone, hmsgs, -, hpermG, -⟩ := grantM_spec c1 e q hself
  have hserved := serveQueues_grantM (c := c1) (e := e) (code := s.store.isCode (64 * k)) hself (by rw [hqueue]; exact List.cons_ne_nil _ _)
    (by rw [hd, hk]; exact hothers)
  rw [hd, hk] at howner hstable hwaits hnone hpermG hserved
  have hu : u = Coh.serveQueue (parentDir h) k (s.store.isCode (64 * k)) 1 (c1.grantM e q) := by
    have hanswer := congrArg (fun c => c.serveQueues k (s.store.isCode (64 * k))) (answer_inv_last (c := c1) (data := data) hdown hbusy)
    exact (hanswer.trans hserved).trans (congrArg (fun n => Coh.serveQueue _ _ _ n _) (congrArg List.length hqueue))
  obtain ⟨hfwd, hempty, hall⟩ := serveQueue_reader (code := s.store.isCode (64 * k)) hstable (hnone.trans hdown) howner (hwaits.trans hqueue)
    (hpermG hperm) hdir hm hne.symm
  rw [hu]
  refine ⟨hfwd, hempty, hall.trans ?_⟩
  rw [hmsgs, hk, List.append_assoc]
  rfl

/-! ### PUTM at a directory (R311) -/

theorem takePutm_other {c : Coh} {h : Holder} {k : Nat} (ho : (c.dirEnt (parentDir h) k).owner ≠ some h) :
    c.takePutm h k = c.send (.ackPut h k) := by
  unfold Coh.takePutm
  exact if_pos ho

theorem takePutm_owner {c : Coh} {h : Holder} {k : Nat} (ho : (c.dirEnt (parentDir h) k).owner = some h)
    (hbusy : (c.dirEnt (parentDir h) k).busy = .stable) (hdown : (c.dirEnt (parentDir h) k).down = none) :
    c.takePutm h k = ((c.send (.ackPut h k)).raiseLevel (parentDir h) k).setDirEnt
      { c.dirEnt (parentDir h) k with owner := none, ownerNum := none } := by
  have hkey : ((c.send (.ackPut h k)).dirEnt (parentDir h) k) = c.dirEnt (parentDir h) k := rfl
  unfold Coh.takePutm
  simp only [hkey, hbusy, hdown, (dirEnt_key c (parentDir h) k).1]
  rw [if_neg (not_not.2 ho)]
  rfl

theorem dirEnt_set_owner {c : Coh} {e : DirEnt} {d : DirId} {k : Nat} (hd : e.dir = d) (hk : e.sector = k) (ho : e.owner = none) :
    ((c.setDirEnt e).dirEnt d k).owner = none := by
  rw [dirEnt_set _ _ _ _ hd hk]
  split
  · rfl
  · exact ho

/-- A PUTM is taken. -/
def putTaken (s : State) (h : Holder) (k : Nat) : Coh :=
  ((s.store.coh.took (.putm h k)).takePutm h k).serveQueues k (s.store.isCode (64 * k))

theorem exec_putm {s : State} {h : Holder} {k : Nat} (hm : CohMsg.putm h k ∈ s.store.coh.msgs) :
    exec (.putm h k) s = .next ((withCoh s (putTaken s h k)).spillAt h) := by
  refine congrArg Host.Outcome.next (deliverFirst_only s _ (.putm h k) hm (by simp) (fun x hx => ?_) rfl)
  cases x <;> simp at hx ⊢
  exact hx

theorem putTaken_quiet {s : State} {h : Holder} {k : Nat} {u : Coh} (hu : (s.store.coh.took (.putm h k)).takePutm h k = u) (hq : QuietAt u k) :
    putTaken s h k = u := by
  rw [putTaken, hu, serveQueues_quiet hq]

theorem putTaken_other {s : State} {h : Holder} {k : Nat} (hq : QuietAt s.store.coh k)
    (ho : (s.store.coh.dirEnt (parentDir h) k).owner ≠ some h) :
    (putTaken s h k).dirs = s.store.coh.dirs ∧ (putTaken s h k).msgs = s.store.coh.msgs.erase (.putm h k) ++ [.ackPut h k] := by
  rw [putTaken_quiet (takePutm_other (c := s.store.coh.took (.putm h k)) ho) (quiet_congr rfl hq)]
  exact ⟨rfl, rfl⟩

theorem putTaken_owner {s : State} {h : Holder} {k : Nat} (hq : QuietAt s.store.coh k)
    (ho : (s.store.coh.dirEnt (parentDir h) k).owner = some h) (hbusy : (s.store.coh.dirEnt (parentDir h) k).busy = .stable)
    (hdown : (s.store.coh.dirEnt (parentDir h) k).down = none) :
    ((putTaken s h k).dirEnt (parentDir h) k).owner = none ∧
      (putTaken s h k).msgs = s.store.coh.msgs.erase (.putm h k) ++ [.ackPut h k] := by
  obtain ⟨hd, hk⟩ := dirEnt_key s.store.coh (parentDir h) k
  obtain ⟨hmsgs, hdirs, -, -⟩ := raiseLevel_spec ((s.store.coh.took (.putm h k)).send (.ackPut h k)) (parentDir h) k
  rw [putTaken_quiet (takePutm_owner (c := s.store.coh.took (.putm h k)) ho hbusy hdown)
    (quiet_set (quiet_congr hdirs hq) _ (quiet_dirEnt hq _))]
  exact ⟨dirEnt_set_owner hd hk rfl, hmsgs⟩
/-! ### A grant at a requester (R309, R310) -/

section
variable {c : Coh} {h : Holder} {k : Nat} {g : Grant} {code : Bool} {x : Copy} {new : Option CopySt} {r : Req} {d : DirId}

theorem takeGrant_unfit (hx : c.copyOf h k = some x) (hg : granted x.st g = none) : c.takeGrant h k g code = c := by
  simp only [Coh.takeGrant, hx, hg]

theorem takeGrant_cache (hx : c.copyOf h k = some x) (hg : granted x.st g = some new) (hd : ownDir h = none) :
    c.takeGrant h k g code = c.setCopy h k new x.num := by
  simp only [Coh.takeGrant, hx, hg, hd]

theorem takeGrant_level (hx : c.copyOf h k = some x) (hg : granted x.st g = some new) (hd : ownDir h = some d) :
    c.takeGrant h k g code = (c.setCopy h k new x.num).levelGrant d k new.isNone code := by
  simp only [Coh.takeGrant, hx, hg, hd]

theorem levelGrant_keep (hbusy : (c.dirEnt d k).busy = .up r) :
    c.levelGrant d k false code = (c.setDirEnt { c.dirEnt d k with busy := .stable }).serve r k code := by
  simp only [Coh.levelGrant, hbusy]
  rfl

/-- The child of a level that may use its data once uses it once too. -/
def usesOnce (c : Coh) (r : Req) (k : Nat) : Coh :=
  if c.stOf r.child k = some .isD then c.setCopy r.child k (some .isDI) r.num else c

theorem levelGrant_once (hbusy : (c.dirEnt d k).busy = .up r) (hself : r.self = false) :
    c.levelGrant d k true code = (usesOnce (c.setDirEnt { c.dirEnt d k with busy := .stable }) r k).send (.grant r.child k .s) := by
  simp only [Coh.levelGrant, hbusy, hself, Coh.grant]
  rfl

theorem stOf_setDirEnt (c : Coh) (e : DirEnt) (h : Holder) (k : Nat) : (c.setDirEnt e).stOf h k = c.stOf h k := rfl

theorem usesOnce_dirs : (usesOnce c r k).dirs = c.dirs ∧ (usesOnce c r k).msgs = c.msgs := by
  unfold usesOnce
  split <;> exact ⟨rfl, rfl⟩

theorem usesOnce_stOf (hst : c.stOf r.child k = some .isD) : (usesOnce c r k).stOf r.child k = some .isDI := by
  rw [usesOnce, if_pos hst, stOf_set]

theorem usesOnce_stOf_ne (hne : r.child ≠ h) : (usesOnce c r k).stOf h k = c.stOf h k := by
  unfold usesOnce
  split
  · exact stOf_set_ne _ _ _ _ _ _ hne.symm
  · rfl

/-- Where no child has a copy, a write is granted Modified. -/
theorem serve_grantM (hm : r.m = true) (hperm : c.permission r.dir k = some .m) (ho : (c.dirEnt r.dir k).owner = none)
    (htargets : (c.dirEnt r.dir k).targets (some r.child) = []) :
    c.serve r k code = c.grantM { c.dirEnt r.dir k with ctx := r.ctx, window := r.window } r := by
  have htargets' : ({ c.dirEnt r.dir k with ctx := r.ctx, window := r.window } : DirEnt).targets (some r.child) = [] := htargets
  simp only [Coh.serve, hm, hperm, htargets']
  simp only [ho]
  rfl

end

/-- A grant is taken, and the requests that waited are served. -/
def grantTaken (s : State) (h : Holder) (k : Nat) (g : Grant) : Coh :=
  ((s.store.coh.took (.grant h k g)).takeGrant h k g (s.store.isCode (64 * k))).serveQueues k (s.store.isCode (64 * k))

theorem grantTaken_quiet {s : State} {h : Holder} {k : Nat} {g : Grant} {u : Coh}
    (hu : (s.store.coh.took (.grant h k g)).takeGrant h k g (s.store.isCode (64 * k)) = u) (hq : QuietAt u k) : grantTaken s h k g = u := by
  rw [grantTaken, hu, serveQueues_quiet hq]

/-- A transfer that crosses a die boundary leaves what the die reads of the sector poisoned, or whole (R431). -/
theorem exec_grant {s : State} {h : Holder} {k : Nat} {g : Grant} {a b : List CohMsg} (hmsgs : s.store.coh.msgs = a ++ .grant h k g :: b)
    (ha : ∀ g, CohMsg.grant h k g ∉ a) (hdel : s.deliverable (.grant h k g) = true) (poisoned : Bool) :
    let t := withCoh s (grantTaken s h k g)
    exec (.data h k { up := false, poisoned := poisoned }) s = .next (
      if s.crosses h k then { t.spillAt h with store.badAt :=
        let l := (t.spillAt h).store.badAt.filter fun x => x ≠ (holderDie h, k)
        if poisoned then (holderDie h, k) :: l else l }
      else t.spillAt h) := by
  intro t
  have hfirst : ∀ x ∈ a, mine false h k x = false := by
    intro x hx
    cases x with
    | grant h' k' g' =>
      by_contra hne
      simp only [mine, Bool.not_false, Bool.true_and, Bool.not_eq_false, Bool.and_eq_true, decide_eq_true_eq] at hne
      obtain ⟨rfl, rfl⟩ := hne
      exact ha _ hx
    | _ => rfl
  have hdeliver : s.deliverFirst (mine false h k) = t.spillAt h :=
    deliverFirst_mid s _ (.grant h k g) a b hmsgs hfirst (by simp [mine]) hdel
  show execData h k { up := false, poisoned := poisoned } s = _
  rw [execData_down, hdeliver]
  cases s.crosses h k <;> rfl

section
variable {s : State} {h : Holder} {k : Nat} {g : Grant} {x : Copy} {a b : List CohMsg}

/-- The message of a grant is among those on their way, and not twice before. -/
structure GrantFirst (s : State) (h : Holder) (k : Nat) (g : Grant) (x : Copy) (a b : List CohMsg) : Prop where
  copy : s.store.coh.copyOf h k = some x
  quiet : QuietAt s.store.coh k
  msgs : (s.store.coh.took (.grant h k g)).msgs = a ++ b

theorem grantTaken_cache (hf : GrantFirst s h k g x a b) (hd : ownDir h = none) :
    (grantTaken s h k g).msgs = a ++ b ∧ (∀ new, granted x.st g = some new → (grantTaken s h k g).stOf h k = new) := by
  cases hg : granted x.st g with
  | none =>
    rw [grantTaken_quiet (takeGrant_unfit (c := s.store.coh.took (.grant h k g)) hf.copy hg) (quiet_congr rfl hf.quiet)]
    exact ⟨hf.msgs, fun new hnew => nomatch hnew⟩
  | some new =>
    rw [grantTaken_quiet (takeGrant_cache (c := s.store.coh.took (.grant h k g)) hf.copy hg hd) (quiet_congr rfl hf.quiet)]
    refine ⟨hf.msgs, fun new' hnew => ?_⟩
    rw [stOf_set]
    exact Option.some.inj hnew

/-- A level whose data is used once grants it so. -/
theorem grantTaken_once {d : DirId} {r : Req} (hf : GrantFirst s h k g x a b) (hd : ownDir h = some d)
    (hbusy : (s.store.coh.dirEnt d k).busy = .up r) (hself : r.self = false) (hne : r.child ≠ h) (hst : x.st = .isDI) :
    let u := grantTaken s h k g
    u.stOf h k = none ∧ (s.store.coh.stOf r.child k = some .isD → u.stOf r.child k = some .isDI) ∧ (u.dirEnt d k).busy = .stable ∧
      u.msgs = a ++ b ++ [.grant r.child k .s] := by
  intro u
  obtain ⟨hkey, hsector⟩ := dirEnt_key s.store.coh d k
  let c1 := (s.store.coh.took (.grant h k g)).setCopy h k none x.num
  let c2 := c1.setDirEnt { c1.dirEnt d k with busy := .stable }
  have hg : granted x.st g = some none := by rw [hst]; rfl
  obtain ⟨hdirs, hmsgs⟩ := usesOnce_dirs (c := c2) (r := r) (k := k)
  have hu : u = (usesOnce c2 r k).send (.grant r.child k .s) := grantTaken_quiet
    ((takeGrant_level (c := s.store.coh.took (.grant h k g)) hf.copy hg hd).trans (levelGrant_once (c := c1) hbusy hself))
    (quiet_congr hdirs (quiet_set (quiet_congr rfl hf.quiet) _ (quiet_dirEnt hf.quiet d)))
  rw [hu]
  refine ⟨?_, fun hchild => ?_, ?_, ?_⟩
  · exact ((usesOnce_stOf_ne hne).trans (stOf_setDirEnt _ _ _ _)).trans (stOf_set _ _ _ _ _)
  · exact usesOnce_stOf ((stOf_setDirEnt _ _ _ _).trans ((stOf_set_ne _ _ _ _ _ _ hne).trans hchild))
  · refine (congrArg DirEnt.busy ((dirEnt_congr hdirs d k).trans (dirEnt_set _ _ _ _ hkey hsector))).trans ?_
    split <;> rfl
  · show (usesOnce c2 r k).msgs ++ _ = _
    rw [hmsgs]
    exact congrArg (· ++ _) hf.msgs

/-- A level that gains Modified grants the request for which it waited. -/
theorem grantTaken_up {d : DirId} {r : Req} (hf : GrantFirst s h k .m x a b) (hd : ownDir h = some d)
    (hbusy : (s.store.coh.dirEnt d k).busy = .up r) (hm : r.m = true) (hdir : r.dir = d) (hself : r.self = false)
    (ho : (s.store.coh.dirEnt d k).owner = none) (htargets : (s.store.coh.dirEnt d k).targets (some r.child) = [])
    (hst : x.st = .imD ∨ x.st = .smD) :
    let u := grantTaken s h k .m
    u.stOf h k = some .m ∧ (u.dirEnt d k).owner = some r.child ∧ (u.dirEnt d k).busy = .stable ∧
      u.msgs = a ++ b ++ [.grant r.child k .m] := by
  intro u
  subst hdir
  obtain ⟨hkey, hsector⟩ := dirEnt_key s.store.coh r.dir k
  have hlevel : levelOf r.dir = some h := own_level hd
  let c1 := (s.store.coh.took (.grant h k .m)).setCopy h k (some .m) x.num
  let c2 := c1.setDirEnt { c1.dirEnt r.dir k with busy := .stable }
  have hg : granted x.st .m = some (some .m) := by rcases hst with hst | hst <;> rw [hst] <;> rfl
  have hset : c2.dirEnt r.dir k = _ := dirEnt_set c1 { c1.dirEnt r.dir k with busy := .stable } r.dir k hkey hsector
  have hperm : ∀ c : Coh, c.permission r.dir k = c.stOf h k := fun c => by rw [Coh.permission, hlevel]
  have hperm2 : c2.permission r.dir k = some .m := ((hperm c2).trans (stOf_setDirEnt _ _ _ _)).trans (stOf_set _ _ _ _ _)
  have ho2 : (c2.dirEnt r.dir k).owner = none := dirEnt_set_owner hkey hsector ho
  have htargets2 : (c2.dirEnt r.dir k).targets (some r.child) = [] := by
    rw [hset]
    split
    · rfl
    · exact htargets
  obtain ⟨hkey2, hsector2⟩ := dirEnt_key c2 r.dir k
  have hq2 : QuietAt c2 k := quiet_set (quiet_congr rfl hf.quiet) _ (quiet_dirEnt hf.quiet _)
  let e2 : DirEnt := { c2.dirEnt r.dir k with ctx := r.ctx, window := r.window }
  have hu : u = c2.grantM e2 r := grantTaken_quiet
    (((takeGrant_level (c := s.store.coh.took (.grant h k .m)) hf.copy hg hd).trans (levelGrant_keep (c := c1) hbusy)).trans
      (serve_grantM hm hperm2 ho2 htargets2)) (grantM_quiet hself hq2 (quiet_dirEnt hq2 _))
  obtain ⟨howner, -, hstable, -, -, hmsgs, -, hkeeps, -⟩ := grantM_spec c2 e2 r hself
  have hek : e2.dir = r.dir ∧ e2.sector = k := ⟨hkey2, hsector2⟩
  rw [hek.1, hek.2] at howner hstable hkeeps
  rw [hu]
  refine ⟨(hperm _).symm.trans (hkeeps hperm2), howner, hstable, ?_⟩
  rw [hmsgs, hek.2]
  exact congrArg (· ++ _) hf.msgs

end
/-! ### An acknowledged PUTM (R310) -/

/-- The acknowledgement of a PUTM is taken: the copy kept for it goes. -/
theorem exec_ackPut {s : State} {h : Holder} {k : Nat} (hm : CohMsg.ackPut h k ∈ s.store.coh.msgs) (hq : QuietAt s.store.coh k)
    (hst : s.store.coh.stOf h k = some .miA ∨ s.store.coh.stOf h k = some .iiA) :
    exec (.invack h k false) s = .next ((withCoh s ((s.store.coh.took (.ackPut h k)).setCopy h k none)).spillAt h) := by
  have htaken : (s.store.coh.took (.ackPut h k)).takeAck h k = (s.store.coh.took (.ackPut h k)).setCopy h k none := by
    have hst' : (s.store.coh.took (.ackPut h k)).stOf h k = some .miA ∨ (s.store.coh.took (.ackPut h k)).stOf h k = some .iiA := hst
    rcases hst' with hst | hst <;> rw [Coh.takeAck, hst]
  have hdeliver : s.deliver (.ackPut h k) = withCoh s ((s.store.coh.took (.ackPut h k)).setCopy h k none) := by
    refine deliver_of s _ _ (quiet_congr rfl hq) ?_
    rw [← htaken]
    rfl
  refine congrArg Host.Outcome.next ((deliverFirst_only s _ (.ackPut h k) hm (by simp) (fun x hx => ?_) rfl).trans (by rw [hdeliver]; rfl))
  cases x <;> simp at hx ⊢
  exact hx

/-! ### Replacement (R315, R320) -/

theorem stOf_send (c : Coh) (m : CohMsg) (h : Holder) (k : Nat) : (c.send m).stOf h k = c.stOf h k := rfl

theorem ncFlush_none {s : State} {h : Holder} {k : Nat} (hnc : s.store.ncOf h k = none) : s.ncFlush [h] k = s := by
  simp only [State.ncFlush, List.reverse_cons, List.reverse_nil, List.nil_append, List.foldl_cons, List.foldl_nil, hnc]

theorem ncFlush_dirty {s : State} {h : Holder} {k : Nat} {y : DataCopy} (hnc : s.store.ncOf h k = some y) (hy : y.dirty = true) :
    s.ncFlush [h] k = State.writeBack { s with store := s.store.ncDrop h k } y := by
  simp only [State.ncFlush, List.reverse_cons, List.reverse_nil, List.nil_append, List.foldl_cons, List.foldl_nil, hnc, hy, if_true]

theorem ncOf_ncDrop (st : Store) (h : Holder) (k : Nat) : (st.ncDrop h k).ncOf h k = none :=
  find_filter_none st.nc fun x => x.holder = h && x.sector = k

theorem ncOf_sector {st : Store} {h : Holder} {k : Nat} {y : DataCopy} (hnc : st.ncOf h k = some y) : y.sector = k := by
  have hy := List.find?_some hnc
  simp only [Bool.and_eq_true, decide_eq_true_eq] at hy
  exact hy.2

theorem replace_clean {c : Coh} {h : Holder} {k : Nat} (hst : c.stOf h k = some .s ∨ c.stOf h k = some .e) :
    c.replace h k = c.setCopy h k none := by
  rcases hst with hst | hst <;> rw [Coh.replace, hst]

theorem replace_dirty {c : Coh} {h : Holder} {k : Nat} (hst : c.stOf h k = some .m) :
    c.replace h k = (c.setCopy h k (some .miA)).send (.putm h k) := by
  rw [Coh.replace, hst]

/-- A cache's replacement: its copy of a non-coherent page goes home, its fetch copy goes, and its copy is replaced. -/
def replaced (s : State) (h : Holder) (k : Nat) : State :=
  let u := s.ncFlush [h] k
  { u with store.fetch := u.store.fetch.filter fun c => !(c.holder = h && c.sector = k), store.coh := u.store.coh.replace h k }

theorem exec_replacement {s : State} {h : Holder} {k : Nat} (hd : ownDir h = none) : exec (.replacement h k) s = .next (replaced s h k) := by
  cases h with
  | cluster q => exact nomatch hd
  | l2 d => exact nomatch hd
  | _ => rfl

/-! ### The replacement of an L2's copy of a private page (R315, R317) -/

/-- A copy of a sector that a core of a die has below the die's L2. -/
def isBelow (d k : Nat) (x : Copy) : Bool := x.sector = k && holderDie x.holder = d && x.holder ≠ .l2 d

theorem isBelow_iff {d k : Nat} {x : Copy} : isBelow d k x = true ↔ x.sector = k ∧ holderDie x.holder = d ∧ x.holder ≠ .l2 d := by
  simp [isBelow, and_assoc]

/-- No copy below the L2 is left. -/
def withoutBelow (c : Coh) (d k : Nat) : Coh := { c with copies := c.copies.filter fun x => !isBelow d k x }

theorem recallPrivate_eq {c : Coh} {d k : Nat} (hchildren : (c.dirEnt (.die d) k).children = []) :
    c.recallPrivate d k =
      withoutBelow (if c.copies.any (fun x => isBelow d k x && x.st = .m) then c.raiseLevel (.die d) k else c) d k := by
  simp only [Coh.recallPrivate, hchildren]
  rfl

theorem copyOf_withoutBelow (c : Coh) (d k : Nat) : (withoutBelow c d k).copyOf (.l2 d) k = c.copyOf (.l2 d) k := by
  rw [Coh.copyOf, withoutBelow, List.find?_filter]
  refine congrArg (fun p => c.copies.find? p) (funext fun x => ?_)
  by_cases hx : x.holder = .l2 d
  · simp [isBelow, hx]
  · simp [hx]

theorem mem_setCopy {c : Coh} {h : Holder} {k : Nat} {v : Option CopySt} {n : BitVec 8} {y : Copy} (hy : y ∈ (c.setCopy h k v n).copies) :
    y ∈ c.copies ∨ y.holder = h := by
  cases v with
  | none => exact .inl (List.mem_filter.1 hy).1
  | some v =>
    rcases List.mem_cons.1 hy with rfl | hy
    · exact .inr rfl
    · exact .inl (List.mem_filter.1 hy).1

theorem not_below_withoutBelow {c : Coh} {d k : Nat} {y : Copy} (hy : y ∈ (withoutBelow c d k).copies) : isBelow d k y = false := by
  have hnot := (List.mem_filter.1 hy).2
  simpa using hnot

/-- An L2's replacement of a private page's copy that it holds in Exclusive. -/
theorem replace_recallPrivate {c : Coh} {d k : Nat} {x : Copy} (hx : c.copyOf (.l2 d) k = some x) (hst : x.st = .e)
    (hchildren : (c.dirEnt (.die d) k).children = []) :
    let u := (c.recallPrivate d k).replace (.l2 d) k
    (∀ y ∈ u.copies, isBelow d k y = false) ∧
      ((∃ y ∈ c.copies, isBelow d k y = true ∧ y.st = .m) → u.stOf (.l2 d) k = some .miA ∧ u.msgs = c.msgs ++ [.putm (.l2 d) k]) ∧
      ((∀ y ∈ c.copies, isBelow d k y = true → y.st ≠ .m) → u.stOf (.l2 d) k = none ∧ u.msgs = c.msgs) := by
  intro u
  have hnot : ∀ c' : Coh, ∀ v n, ∀ y ∈ ((withoutBelow c' d k).setCopy (.l2 d) k v n).copies, isBelow d k y = false := by
    intro c' v n y hy
    rcases mem_setCopy hy with hy | hy
    · exact not_below_withoutBelow hy
    · simp [isBelow, hy]
  by_cases hdirty : c.copies.any (fun x => isBelow d k x && x.st = .m)
  · have hraised : c.raiseLevel (.die d) k = c.setCopy (.l2 d) k (some .m) x.num := by
      simp only [Coh.raiseLevel, levelOf, hx, hst]
      rfl
    have hst1 : (withoutBelow (c.setCopy (.l2 d) k (some .m) x.num) d k).stOf (.l2 d) k = some .m := by
      rw [Coh.stOf, copyOf_withoutBelow]
      exact stOf_set _ _ _ _ _
    have hu : u = _ := (congrArg (fun c => c.replace (.l2 d) k) ((recallPrivate_eq hchildren).trans (by rw [if_pos hdirty, hraised]))).trans
      (replace_dirty hst1)
    rw [hu]
    refine ⟨hnot (c.setCopy (.l2 d) k (some .m) x.num) (some .miA) 0, fun _ => ⟨?_, rfl⟩, fun hclean => ?_⟩
    · exact (stOf_send _ _ _ _).trans (stOf_set _ _ _ _ _)
    obtain ⟨y, hy, hbelow⟩ := List.any_eq_true.1 hdirty
    simp only [Bool.and_eq_true, decide_eq_true_eq] at hbelow
    exact absurd hbelow.2 (hclean y hy hbelow.1)
  · have hst1 : (withoutBelow c d k).stOf (.l2 d) k = some .e := by
      rw [Coh.stOf, copyOf_withoutBelow, hx, Option.map_some, hst]
    have hu : u = _ := (congrArg (fun c => c.replace (.l2 d) k) ((recallPrivate_eq hchildren).trans (by rw [if_neg hdirty]))).trans
      (replace_clean (.inr hst1))
    rw [hu]
    refine ⟨hnot _ _ _, fun ⟨y, hy, hbelow, hym⟩ => ?_, fun _ => ⟨stOf_set _ _ _ _ _, rfl⟩⟩
    exact absurd (List.any_eq_true.2 ⟨y, hy, by simp [hbelow, hym]⟩) hdirty

/-- The state after an L2's replacement of a private page's copy. -/
def replacedL2 (s : State) (d k : Nat) : State :=
  { s with store.fetch := s.store.fetch.filter fun c => !(c.holder = .l2 d && c.sector = k),
           store.coh := (s.store.coh.recallPrivate d k).replace (.l2 d) k }

theorem exec_replacement_l2 {s : State} {d k : Nat} (hstable : s.store.coh.lineStable d (k / 4) = true)
    (hchildren : (s.store.coh.dirEnt (.die d) k).children = []) (hnc : s.store.ncOf (.l2 d) k = none) :
    exec (.replacement (.l2 d) k) s = .next (replacedL2 s d k) := by
  show execReplacement (.l2 d) k s = _
  simp only [execReplacement, ncFlush_none hnc, hstable, hchildren]
  rfl

/-! ### Room (R18, R313, R316) -/

theorem spillAt_room {s : State} {h : Holder} (hh : s.store.coh.copies.length + s.store.nc.length + s.store.fetch.length ≤ capacity h)
    (hl : s.store.coh.copies.length + s.store.nc.length + s.store.fetch.length ≤ capacity (.l2 (holderDie h))) : s.spillAt h = s := by
  rw [State.spillAt, spill_room s h hh, spill_room s _ hl]

theorem spill_full {s : State} {h : Holder} {x : Copy} (hfull : capacity h < (s.store.coh.copies.filter fun x => x.holder = h).length)
    (hx : ((s.store.coh.copies.filter fun x => x.holder = h).filter fun x => !x.st.transient).getLast? = some x) :
    s.spill h = s.replaceAt h x.sector := by
  have hle := List.length_filter_le (fun x : Copy => decide (x.holder = h)) s.store.coh.copies
  rw [State.spill, if_neg (by omega)]
  simp only [hx]
  rw [if_neg (by omega)]

theorem getLast?_age {c : Coh} {h : Holder} {k : Nat} {x : Copy} (hx : c.copyOf h k = some x) :
    (((c.age h k).copies.filter fun x => x.holder = h).getLast?).map Copy.sector = some k := by
  have hx' := List.find?_some hx
  have hxm : x ∈ c.copies.filter fun x => x.holder = h && x.sector = k := List.mem_filter.2 ⟨List.mem_of_find?_eq_some hx, hx'⟩
  have hmine : (c.copies.filter fun x => x.holder = h && x.sector = k).filter (fun x => x.holder = h) =
      c.copies.filter fun x => x.holder = h && x.sector = k := by
    refine List.filter_eq_self.2 fun y hy => ?_
    have hy := (List.mem_filter.1 hy).2
    simp only [Bool.and_eq_true, decide_eq_true_eq] at hy ⊢
    exact hy.1
  have hne : (c.copies.filter fun x => x.holder = h && x.sector = k) ≠ [] := List.ne_nil_of_mem hxm
  rw [Coh.age, List.filter_append, hmine, List.getLast?_append_of_ne_nil _ hne, List.getLast?_eq_some_getLast hne, Option.map_some]
  have hlast := (List.mem_filter.1 (List.getLast_mem hne)).2
  simp only [Bool.and_eq_true, decide_eq_true_eq] at hlast
  rw [hlast.2]

theorem mem_fullSet {c : Coh} {d line v : Nat} (hv : v ∈ c.fullSet d line) :
    v ∈ c.lines d ∧ line ∉ c.lines d ∧ 16 ≤ (c.fullSet d line).length ∧
      Config.filterSet v % 8192 = Config.filterSet line % 8192 := by
  by_cases hroom : ((c.lines d).length < 16 || (c.lines d).contains line) = true
  · rw [Coh.fullSet, if_pos hroom] at hv
    exact nomatch hv
  · by_cases hset : ((c.lines d).filter fun l => Config.filterSet l % 8192 = Config.filterSet line % 8192).length < 16
    · rw [Coh.fullSet, if_neg hroom, if_pos hset] at hv
      exact nomatch hv
    · have hfull : c.fullSet d line = (c.lines d).filter fun l => Config.filterSet l % 8192 = Config.filterSet line % 8192 := by
        rw [Coh.fullSet, if_neg hroom, if_neg hset]
      rw [hfull] at hv ⊢
      obtain ⟨hmem, hsame⟩ := List.mem_filter.1 hv
      simp only [Bool.or_eq_true, List.contains_iff_mem, not_or] at hroom
      exact ⟨hmem, hroom.2, Nat.le_of_not_lt hset, of_decide_eq_true hsame⟩

theorem victim_mem {c : Coh} {d v : Nat} {set : List Nat} (hv : c.victim d set = some v) : v ∈ set ∧ c.lineStable d v = true :=
  List.mem_filter.1 (List.mem_of_getLast? hv)
/-! ### The statement -/

/-- The replacement of a cache's copy: silently where it is clean, with PUTM where it is dirty, and to its home where the page is non-coherent. -/
theorem replaced_spec {s : State} {h : Holder} {k : Nat} {x : Copy} (hx : s.store.coh.copyOf h k = some x) :
    (s.store.ncOf h k = none → (replaced s h k).store.mem = s.store.mem ∧
      (x.st = .s ∨ x.st = .e → (replaced s h k).store.coh.stOf h k = none ∧ (replaced s h k).store.coh.msgs = s.store.coh.msgs) ∧
      (x.st = .m → (replaced s h k).store.coh.stOf h k = some .miA ∧
        (replaced s h k).store.coh.msgs = s.store.coh.msgs ++ [.putm h k])) ∧
    (∀ y, s.store.ncOf h k = some y → y.dirty = true → isHost (64 * k) = false → inDevice (64 * k) = false →
      (replaced s h k).store.mem = writeBytes s.store.mem (64 * k) y.data ∧ (replaced s h k).store.ncOf h k = none) := by
  have hst : s.store.coh.stOf h k = some x.st := stOf_of_copyOf hx
  refine ⟨fun hnc => ?_, fun y hnc hy hhost hdev => ?_⟩
  · simp only [replaced, ncFlush_none hnc]
    refine ⟨trivial, fun hclean => ?_, fun hdirty => ?_⟩
    · rw [replace_clean (by rcases hclean with hclean | hclean <;> simp [hst, hclean])]
      exact ⟨stOf_set _ _ _ _ _, rfl⟩
    · rw [replace_dirty (by rw [hst, hdirty])]
      exact ⟨(stOf_send _ _ _ _).trans (stOf_set _ _ _ _ _), rfl⟩
  · obtain rfl : y.sector = k := ncOf_sector hnc
    obtain ⟨hmem, hkeep⟩ := writeBack_spec { s with store := s.store.ncDrop h y.sector } y hhost hdev
    simp only [replaced, ncFlush_dirty hnc hy]
    refine ⟨hmem, ?_⟩
    show List.find? _ _ = none
    rw [hkeep]
    exact ncOf_ncDrop s.store h y.sector

/-- Settles O48, message by message: a forward (`forwards`), the answers at a directory (`answered_…`, `putTaken_…`), a grant at a cache
(`grantTaken_…`), the replacements (`replaced_spec`, `replace_recallPrivate`), and the room of a holder and of a filter set (`spillAt_room`,
`mem_fullSet`). -/
theorem coherenceAnswers : Obligations.CoherenceAnswers := by
  unfold Obligations.CoherenceAnswers
  refine ⟨?_, ?_, ?_, ⟨fun s h => ?_, fun c h k x hx => getLast?_age hx, fun c d line v hv => ?_⟩⟩
  · intro s h k m ctx w a b c st hmsgs ha hdel hq
    exact ⟨_, fwd_delivered hmsgs ha hdel hq, rfl, forwards s h k m ctx w a b hmsgs ha⟩
  · intro s h q k n c d e quiet hself
    constructor
    · intro data msg rest hm
      refine ⟨_, exec_answer hm, rfl, ?_, ?_, ?_, ?_⟩
      · rintro rfl
        exact exec_answer_poisoned hm
      · intro hq hdown
        refine ⟨answered_inv_more hq hdown, ?_, ?_, answered_bi_last hq hdown⟩
        · rintro (hbusy | ⟨hbusy, hmod⟩)
          · exact answered_grantM hq hself (answer_inv_last hdown hbusy)
          · exact answered_grantM hq hself ((answer_fwd (c := c.took msg) hdown hbusy).trans (endFwd_m hmod))
        · intro hbusy hread hro
          cases data with
          | false =>
            obtain ⟨hstable, howner, hmsgs⟩ := answered_fwd_clean hq hself hdown hbusy hread hro
            exact ⟨hstable, fun hdata => (Bool.false_ne_true hdata).elim, fun _ => ⟨howner, hmsgs⟩⟩
          | true =>
            obtain ⟨hstable, hrest⟩ := answered_fwd_data hq hself hdown hbusy hread
            exact ⟨hstable, fun _ => hrest, fun hclean => (Bool.false_ne_true hclean.symm).elim⟩
      · intro dn l hq hdown hl
        exact ⟨answered_down_more hq hdown hl, answered_down_last hq hdown hl⟩
      · intro p hothers hdown hbusy hqueue hdir hread hne hperm
        exact answered_queue hself hothers hdown hbusy hqueue hdir hread hne hperm
    · intro rest hm hq
      exact ⟨_, exec_putm hm, rfl, putTaken_other hq, putTaken_owner hq⟩
  · intro s h k g x a b c hx hq
    refine ⟨fun hmsgs ha hdel => ?_, fun hm hst => ?_, fun hd => ⟨_, exec_replacement hd, replaced_spec hx⟩, ?_⟩
    · have hf : GrantFirst s h k g x a b := ⟨hx, hq, took_mid c _ a b hmsgs (ha g)⟩
      refine ⟨withCoh s (grantTaken s h k g), rfl, exec_grant hmsgs ha hdel, fun poisoned => execData_ecc s h k poisoned, ?_, ?_, ?_⟩
      · intro hd
        obtain ⟨hm, hnew⟩ := grantTaken_cache hf hd
        refine ⟨hm, fun hst => ?_, fun hst => ?_, fun hst hg => ?_⟩
        · exact hnew _ (by rw [hst]; cases g <;> rfl)
        · exact hnew _ (by rw [hst]; rfl)
        · subst hg
          exact hnew _ (by rcases hst with hst | hst <;> rw [hst] <;> rfl)
      · intro d r hd hbusy _ hself hne hst
        exact grantTaken_once hf hd hbusy hself hne hst
      · intro d r hd hbusy hmod hdir hself ho htargets hst hg
        subst hg
        exact grantTaken_up hf hd hbusy hmod hdir hself ho htargets hst
    · have hst' : c.stOf h k = some .miA ∨ c.stOf h k = some .iiA := by
        rw [stOf_of_copyOf hx]
        exact hst.imp (congrArg some) (congrArg some)
      exact ⟨_, exec_ackPut hm hq hst', rfl, stOf_set _ _ _ _ _, rfl⟩
    · rintro d rfl hstable hchildren hnc hst below
      obtain ⟨hgone, hdirty, hclean⟩ := replace_recallPrivate hx hst hchildren
      refine ⟨_, exec_replacement_l2 hstable hchildren hnc, fun y hy hb => ?_, ?_, fun hall => ?_⟩
      · exact absurd (isBelow_iff.2 hb) (by simp [hgone y hy])
      · rintro ⟨y, hy, hb, hym⟩
        exact hdirty ⟨y, hy, isBelow_iff.2 hb, hym⟩
      · exact hclean fun y hy hb => hall y hy (isBelow_iff.1 hb)
  · exact ⟨fun hh hl => spillAt_room hh hl, fun x hfull hx => spill_full hfull hx⟩
  · obtain ⟨hmem, hstable⟩ := victim_mem hv
    obtain ⟨hline, hnew, hlen, hset⟩ := mem_fullSet hmem
    exact ⟨hline, hnew, hlen, hstable, hset⟩

end Sys2Proof.Proofs.Answers
end

section
/-! SUPPORT. The proof of the statement over RDSYS, WRSYS and the writes of single registers (R41, R98, R104-R106, R125, R129, R134, R188, R225,
R250, R254): what either instruction does once its access is allowed, the words of STATUS, and one lemma per register with a write of its own. -/

namespace Sys2Proof.Proofs.SystemRegisters

open Sys2Proof Sys2Proof.Machine Sys2Proof.Laws

/-! ### RDSYS and WRSYS (R106) -/

section
variable {s s0 : State} {rd ra : BitVec 5} {reg : BitVec 12} {a : Access}

theorem execRdsys_read (hf : s.sysFault reg.toNat = none) (hn : reg.toNat ≠ 0x14A) :
    execRdsys rd reg s = .next ((s.setX rd (s.sysRead reg.toNat)).adv 4) := by
  have hreg : reg ≠ 0x14A := fun h => hn (by rw [h]; rfl)
  rw [execRdsys, hf]
  exact if_neg hreg

theorem execRdsys_snapdata (hf : s.sysFault reg.toNat = none) (hn : reg.toNat = 0x14A) :
    execRdsys rd reg s = .next (((s.snapRead s.secureHere).2.setX rd (s.snapRead s.secureHere).1).adv 4) := by
  have hreg : reg = 0x14A := BitVec.eq_of_toNat_eq hn
  rw [execRdsys, hf]
  exact if_pos hreg

/-- A WRSYS that its privilege may make, before and after the resolution point, is the write of the register. -/
theorem execWrsys_write (hf : s.sysFault reg.toNat = none) (ha : regAccess reg.toNat = some a) (hr : s.resolved = some s0)
    (hw : a.at s.priv = .write) (hw0 : a.at s0.priv = .write) :
    execWrsys ra reg s = sysWrite reg.toNat (s0.x ra) s0 fun s => .next (s.adv 4) := by
  rw [execWrsys, hf]
  simp only [ha, Option.getD_some, hw, reduceCtorEq, decide_false, Bool.false_and, Bool.false_eq_true, if_false]
  rw [resolve_of_resolved hr, if_pos hw0]

/-- A WRSYS of a register that no privilege may write changes nothing. -/
theorem execWrsys_ignored (hf : s.sysFault reg.toNat = none) (ha : regAccess reg.toNat = some a) (hro : a.writable = false)
    (hr : s.resolved = some s0) : execWrsys ra reg s = .next (s0.adv 4) := by
  have hw0 : a.at s0.priv ≠ .write := fun h => by
    simp only [Access.writable, Bool.or_eq_false_iff, decide_eq_false_iff_not] at hro
    obtain ⟨⟨hu, hs⟩, hm⟩ := hro
    unfold Access.at at h
    split_ifs at h
    · exact hu h
    · exact hs h
    · exact hm h
  rw [execWrsys, hf]
  simp only [ha, Option.getD_some, hro, Bool.and_false, Bool.false_eq_true, if_false]
  rw [resolve_of_resolved hr, if_neg hw0]

theorem sysWrite_page {n : Nat} (h : 0x100 ≤ n) (h' : n < 0x180) (v : Word) (s : State) (go : State → Out) :
    sysWrite n v s go = go (s.writePage n v) := by
  rw [sysWrite, if_neg (by omega), if_neg (by omega), if_pos h']

theorem sysWrite_group {n : Nat} (h : 0x180 ≤ n) (h' : n < 0x200) (v : Word) (s : State) (go : State → Out) :
    sysWrite n v s go = go (s.writeGroup n v) := by
  rw [sysWrite, if_neg (by omega), if_neg (by omega), if_neg (by omega), if_pos h']

theorem sysWrite_manager {n : Nat} (h : 0x200 ≤ n) (v : Word) (s : State) (go : State → Out) :
    sysWrite n v s go = go (s.writeManager n v) := by
  rw [sysWrite, if_neg (by omega), if_neg (by omega), if_neg (by omega), if_neg (by omega)]

/-- A privilege that may write a register below the manager's may read it. -/
theorem sysFault_writable (ha : regAccess reg.toNat = some a) (hlow : reg.toNat < 0x200) (hw : a.at s.priv = .write) :
    s.sysFault reg.toNat = none := by
  have hrange : ¬ (decide (0x200 ≤ reg.toNat) && decide (reg.toNat ≤ 0x2FF) && decide (s.priv ≠ 3)) = true := by
    simp only [Bool.and_eq_true, decide_eq_true_eq]; omega
  rw [State.sysFault, if_neg hrange, ha]
  exact if_neg (by rw [hw]; exact Reach.noConfusion)

/-- A register of the scalar sequencer reads, after a WRSYS, as what the machine after the write reads it. -/
theorem execRdsys_written {t u : State} {n : Nat} {v x : Word} (ha : regAccess reg.toNat = some a) (hw0 : a.at s0.priv = .write)
    (hu : sysWrite reg.toNat v s0 (fun s => .next (s.adv 4)) = .next u) (hn : reg.toNat = n) (hlow : n < 0x040)
    (ht : ∀ go, sysWrite n v s0 go = go t) (hp : t.priv = s0.priv) (hx : (t.adv 4).sysRead n = x) :
    execRdsys rd reg u = .next ((u.setX rd x).adv 4) := by
  rw [hn, ht] at hu
  obtain rfl : t.adv 4 = u := Host.Outcome.next.inj hu
  have hpriv : a.at (t.adv 4).priv = .write := by rw [show (t.adv 4).priv = s0.priv from hp]; exact hw0
  rw [execRdsys_read (sysFault_writable ha (by omega) hpriv) (by omega), hn, hx]

end

/-! ### The words of the registers (R98, R105) -/

/-- The low bits of a word are what a mask of ones keeps. -/
theorem zext_low (v : Word) {mask : Word} {k : Nat} (h : mask.toNat = 2 ^ k - 1) : zext64 (BitVec.ofNat k v.toNat) = v &&& mask := by
  apply BitVec.eq_of_toNat_eq
  have hlt : v.toNat % 2 ^ k < 2 ^ 64 := lt_of_le_of_lt (Nat.mod_le _ _) v.isLt
  rw [BitVec.toNat_setWidth, BitVec.toNat_ofNat, BitVec.toNat_and, h, Nat.and_two_pow_sub_one_eq_mod, Nat.mod_eq_of_lt hlt]

theorem zext_field (v : Word) {mask : Word} {k : Nat} (h : mask.toNat = 2 ^ k - 1) : zext64 (field v 0 k) = v &&& mask := by
  rw [field, bits, pow_zero, Nat.div_one]
  exact zext_low v h

theorem zext_setWidth (v : Word) {mask : Word} {k : Nat} (h : mask.toNat = 2 ^ k - 1) : zext64 (v.setWidth k) = v &&& mask := by
  rw [← BitVec.ofNat_toNat]
  exact zext_low v h

theorem status_word (t : Status) : t.word =
    BitVec.ofNat 64 (t.priv.toNat + 2 ^ 2 * t.ppriv.toNat + 2 ^ 4 * t.ie.toNat + 2 ^ 5 * t.pie.toNat + 2 ^ 6 * t.intrap.toNat) := by
  have hbit (b : Bool) : bit1 b = b.toNat := by cases b <;> rfl
  unfold Status.word fields
  simp only [List.foldl_cons, List.foldl_nil, hbit]
  congr 1
  ring

/-- Bits 2 to 6 of a word. -/
theorem and_statusMask (n : Nat) : n &&& 0x7C = 2 ^ 2 * (n / 2 ^ 2 % 2 ^ 5) := by
  have hhigh : (n &&& 0x7C) / 2 ^ 2 = n / 2 ^ 2 % 2 ^ 5 := by
    rw [Nat.and_div_two_pow, ← Nat.and_two_pow_sub_one_eq_mod]
  have hlow : (n &&& 0x7C) % 2 ^ 2 = 0 := by
    rw [Nat.and_mod_two_pow]; exact Nat.and_zero _
  rw [← hhigh]
  omega

/-- STATUS after a write whose PPRIV is U or S reads as the bits written, under the privilege that has stayed (R98). -/
theorem status_written_word (t : Status) (v : Word) (priv : BitVec 2) (h : v.toNat / 4 % 4 ≤ 1) :
    (t.written v priv).word = (v &&& 0x7C#64) ||| zext64 t.priv := by
  have hp : (bits v.toNat 2 2 : BitVec 2).toNat = v.toNat / 4 % 4 := rfl
  have hkept : (t.written v priv).ppriv = bits v.toNat 2 2 := by
    have hne {c : BitVec 2} (hc : 2 ≤ c.toNat) : (bits v.toNat 2 2 : BitVec 2) ≠ c := fun e => by
      rw [← e, hp] at hc; omega
    have h2 : (bits v.toNat 2 2 : BitVec 2) ≠ 2 := hne (by decide)
    have h3 : (bits v.toNat 2 2 : BitVec 2) ≠ 3 := hne (by decide)
    refine if_neg ?_
    rw [Bool.or_eq_true, Bool.and_eq_true, decide_eq_true_eq, decide_eq_true_eq]
    exact fun e => e.elim h2 fun e => h3 e.1
  have hbit (i : Nat) : (v.getLsbD i).toNat = v.toNat / 2 ^ i % 2 := by
    rw [BitVec.getLsbD, Nat.toNat_testBit]
  have hpriv := t.priv.isLt
  apply BitVec.eq_of_toNat_eq
  rw [status_word, hkept, hp]
  show (BitVec.ofNat 64 (t.priv.toNat + 2 ^ 2 * (v.toNat / 4 % 4) + 2 ^ 4 * (v.getLsbD 4).toNat + 2 ^ 5 * (v.getLsbD 5).toNat +
    2 ^ 6 * (v.getLsbD 6).toNat)).toNat = _
  rw [hbit, hbit, hbit, BitVec.toNat_or, BitVec.toNat_and, show (0x7C#64).toNat = 0x7C from rfl, and_statusMask,
    show (zext64 t.priv).toNat = t.priv.toNat from BitVec.toNat_setWidth_of_le (by decide), ← Nat.two_pow_add_eq_or_of_lt hpriv]
  rw [BitVec.toNat_ofNat]
  omega

/-! ### PLMASK and PLTAG (R225, R250, R254) -/

section
variable {s : State} {v : Word}

/-- The enabled plates that a written mask leaves out. -/
def disabled (q : Quad) (mask : BitVec 16) : List Nat := (enabled q.plmask).filter fun p => !mask.getLsbD p

/-- The machine after a write of PLMASK. -/
def plmaskWritten (s : State) (v : Word) : State :=
  let q := s.quadAt s.quadNo
  let mask := v.setWidth 16 &&& q.avail
  s.setQuad s.quadNo { q with
    plmask := mask, plate := (disabled q mask).foldl (fun b p => setPlate b p (plateAt b p).invalid) q.plate }

theorem plmaskWrite_waits {go : State → Out}
    (h : s.anyBusy (disabled (s.quadAt s.quadNo) (v.setWidth 16 &&& (s.quadAt s.quadNo).avail)) = true) : plmaskWrite v s go = .next s :=
  if_pos h

theorem plmaskWrite_go {go : State → Out}
    (h : s.anyBusy (disabled (s.quadAt s.quadNo) (v.setWidth 16 &&& (s.quadAt s.quadNo).avail)) = false) :
    plmaskWrite v s go = go (plmaskWritten s v) :=
  if_neg (ne_true_of_eq_false h)

theorem disabled_nodup (q : Quad) (mask : BitVec 16) : (disabled q mask).Nodup := (List.nodup_range.filter _).filter _

theorem plmaskWritten_quad (s : State) (v : Word) :
    let q := s.quadAt s.quadNo
    let mask := v.setWidth 16 &&& q.avail
    ((plmaskWritten s v).quadAt s.quadNo).plmask = mask ∧
      ∀ p, p < 16 → plateAt ((plmaskWritten s v).quadAt s.quadNo).plate p =
        if p ∈ disabled q mask then (plateAt q.plate p).invalid else plateAt q.plate p := by
  intro q mask
  rw [plmaskWritten, quadAt_setQuad, if_pos rfl]
  exact ⟨rfl, fun p hp => setPlates Plate.invalid _ _ (disabled_nodup q mask) p hp⟩

theorem pltagWrite_ignored {p : Nat} {go : State → Out} (h : v.getLsbD 1 = true) : pltagWrite p v s go = go s := if_pos h

theorem pltagWrite_waits {p : Nat} {go : State → Out} (h : v.getLsbD 1 = false) (hb : s.anyBusy [p] = true) :
    pltagWrite p v s go = .next s := by
  rw [pltagWrite, if_neg (ne_true_of_eq_false h), if_pos hb]

theorem pltagWrite_go {p : Nat} {go : State → Out} (h : v.getLsbD 1 = false) (hb : s.anyBusy [p] = false) :
    pltagWrite p v s go = go (s.mapPlates [p] fun x => { x with pin := false }) := by
  rw [pltagWrite, if_neg (ne_true_of_eq_false h), if_neg (ne_true_of_eq_false hb)]

/-- A plate changed by `mapPlates` is the only one that differs. -/
theorem mapPlates_one (s : State) {n : Nat} (f : Plate → Plate) {p : Nat} (hp : p < 16) :
    plateAt ((s.mapPlates [n] f).quadAt s.quadNo).plate p =
      if p = n then f (plateAt (s.quadAt s.quadNo).plate p) else plateAt (s.quadAt s.quadNo).plate p := by
  rw [State.mapPlates, quadAt_setQuad, if_pos rfl]
  simp only [setPlates f [n] _ (List.nodup_singleton n) p hp, List.mem_singleton]

end

/-! ### ESTATE (R188) -/

section
variable {s : State} {e : Engine}

/-- The group given back was the AE's, which forgets it: nothing else of an engine changes. -/
theorem giveBack_eng (c : Core) (e : Engine) :
    c.giveBack.eng e = { c.eng e with part := (c.giveBack.eng e).part } ∧ (e ≠ .ae → c.giveBack.eng e = c.eng e) := by
  unfold Core.giveBack
  split
  · split
    · cases e
      case ae => exact ⟨rfl, fun h => absurd rfl h⟩
      all_goals exact ⟨rfl, fun _ => rfl⟩
    · exact ⟨rfl, fun _ => rfl⟩
  · exact ⟨rfl, fun _ => rfl⟩

/-- The machine whose engine a write of ESTATE changes: one of the AE gives its group back first. -/
def settled (s : State) (e : Engine) : State := if e = .ae then { s with core := s.core.giveBack } else s

theorem settled_eng (s : State) (e g : Engine) :
    (settled s e).eng g = { s.eng g with part := ((settled s e).eng g).part } ∧ (g ≠ e → (settled s e).eng g = s.eng g) := by
  unfold settled
  split
  case isTrue he => exact he ▸ giveBack_eng s.core g
  case isFalse => exact ⟨rfl, fun _ => rfl⟩

theorem settled_sq (s : State) (e : Engine) : (settled s e).core.sq = s.core.sq := by
  unfold settled
  split
  · exact giveBack_sq s.core
  · rfl

theorem estateWrite_running {v : Word} (h : (s.eng e).flt = false) (h' : (s.eng e).frz = false) : s.estateWrite e v = s :=
  if_neg (by simp [h, h'])

theorem estateWrite_stopped (v : Word) (h : (s.eng e).flt = true ∨ (s.eng e).frz = true) :
    s.estateWrite e v = (settled s e).setEng e (((settled s e).eng e).estateWrite v) :=
  if_pos (by simpa using h)

/-- A write of ESTATE to a stopped or frozen engine moves it to the written POS, with the written REM where that is not zero (R188). -/
theorem engEstateWrite_stopped {g : Eng} (v : Word) (h : g.flt = true ∨ g.frz = true) :
    (g.estateWrite v).pos = bits v.toNat 28 12 ∧
      (g.estateWrite v).rem = (if bits v.toNat 40 16 = 0 then g.rem else bits v.toNat 40 16) ∧ (g.estateWrite v).st = g.st := by
  have hstop : (g.flt || g.frz) = true := by simpa using h
  rw [Eng.estateWrite, if_pos hstop]
  exact ⟨rfl, rfl, rfl⟩

theorem estateWrite_spec (v : Word) (h : (s.eng e).flt = true ∨ (s.eng e).frz = true) :
    let t := s.estateWrite e v
    (t.eng e).pos = bits v.toNat 28 12 ∧ (t.eng e).rem = (if bits v.toNat 40 16 = 0 then (s.eng e).rem else bits v.toNat 40 16) ∧
      (t.eng e).st = (s.eng e).st ∧ (∀ g, g ≠ e → t.eng g = s.eng g) ∧ t.core.sq = s.core.sq := by
  obtain ⟨hsame, -⟩ := settled_eng s e e
  have hstop : ((settled s e).eng e).flt = true ∨ ((settled s e).eng e).frz = true := by rw [hsame]; exact h
  obtain ⟨hpos, hrem, hst⟩ := engEstateWrite_stopped v hstop
  intro t
  have ht : t = _ := estateWrite_stopped v h
  rw [ht, eng_setEng]
  refine ⟨hpos, by rw [hrem, hsame], by rw [hst, hsame], fun g hg => ?_, (setEng_sq ..).trans (settled_sq s e)⟩
  rw [setEngS, if_neg hg]
  exact (settled_eng s e g).2 hg

end

/-! ### The view words (R129, R134) -/

section
variable (s : State) (v : Word) (k : BitVec 4)

theorem setViewWord_other {i : BitVec 3} (hi : i.toNat ≠ k.toNat / 2) : (s.setViewWord k.toNat v).core.view i = s.core.view i := by
  have hne : i ≠ BitVec.ofNat 3 (k.toNat / 2) := fun h => hi (by rw [h, BitVec.toNat_ofNat]; omega)
  exact vget_set_ne _ _ _ _ _ hne

/-- The halves of the view that a write of a view word leaves: the written one, without its reserved bits, and the other as it was. -/
theorem setViewWord_view :
    let old := (s.core.view (BitVec.ofNat 3 (k.toNat / 2))).toNat
    let new := ((s.setViewWord k.toNat v).core.view (BitVec.ofNat 3 (k.toNat / 2))).toNat
    seg new (64 * (k.toNat % 2)) 64 = (v &&& viewMask k.toNat).toNat ∧
      seg new (64 - 64 * (k.toNat % 2)) 64 = seg old (64 - 64 * (k.toNat % 2)) 64 := by
  intro old new
  have hword := (v &&& viewMask k.toNat).isLt
  have hseg (a : Nat) : seg old a 64 < 2 ^ 64 := Nat.mod_lt _ (by decide)
  have hnew {lo hi : Nat} (hlo : (if k.toNat % 2 = 0 then (v &&& viewMask k.toNat).toNat else seg old 0 64) = lo)
      (hhi : (if k.toNat % 2 = 1 then (v &&& viewMask k.toNat).toNat else seg old 64 64) = hi)
      (hlt : lo < 2 ^ 64) (hlt' : hi < 2 ^ 64) : new = lo + 2 ^ 64 * hi := by
    have hset : (s.setViewWord k.toNat v).core.view (BitVec.ofNat 3 (k.toNat / 2)) = BitVec.ofNat 128 (lo + 2 ^ 64 * hi) := by
      rw [← hlo, ← hhi]
      exact vget_set_eq ..
    show ((s.setViewWord k.toNat v).core.view _).toNat = _
    rw [hset, BitVec.toNat_ofNat]
    exact Nat.mod_eq_of_lt (by omega)
  rcases Nat.mod_two_eq_zero_or_one k.toNat with hk | hk
  · rw [hnew (if_pos hk) (if_neg (by omega)) hword (hseg 64), hk]
    exact segLo _ _ hword (hseg 64)
  · rw [hnew (if_neg (by omega)) (if_pos hk) (hseg 0) hword, hk]
    exact (segLo _ _ (hseg 0) hword).symm

end

/-! ### RDSYS after WRSYS -/

/-- What RDSYS reads after a WRSYS of the value `v` to a register of the scalar sequencer, by register. -/
theorem scalar_readBack {s0 u : State} {rd : BitVec 5} {reg : BitVec 12} {a : Access} {v : Word} (ha : regAccess reg.toNat = some a)
    (hw0 : a.at s0.priv = .write) (hu : sysWrite reg.toNat v s0 (fun s => .next (s.adv 4)) = .next u) :
    let r (n : Nat) (x : Word) : Prop := reg.toNat = n → execRdsys rd reg u = .next ((u.setX rd x).adv 4)
    r 0x001 (v &&& ~~~1#64) ∧ r 0x002 (v &&& 0x0FFF0FFF#64) ∧ r 0x003 v ∧ r 0x004 (v &&& ~~~3#64) ∧ r 0x005 v ∧
      r 0x009 (v &&& 0x3F#64) ∧ r 0x00B (v &&& 0xFFFFFFFF#64) ∧ (s0.core.sq.vmodeAt ≠ some s0.time → r 0x00D (v &&& 0xF#64)) ∧
      (v.toNat / 4 % 4 ≤ 1 → r 0x000 ((v &&& 0x7C#64) ||| zext64 s0.priv)) := by
  have hback {n : Nat} {t : State} {x : Word} (ht : ∀ go, sysWrite n v s0 go = go t) (hlow : n < 0x040) (hp : t.priv = s0.priv)
      (hx : (t.adv 4).sysRead n = x) (hn : reg.toNat = n) : execRdsys rd reg u = .next ((u.setX rd x).adv 4) :=
    execRdsys_written ha hw0 hu hn hlow ht hp hx
  refine ⟨hback (fun _ => rfl) (by decide) rfl rfl, hback (fun _ => rfl) (by decide) rfl rfl, hback (fun _ => rfl) (by decide) rfl rfl,
    hback (fun _ => rfl) (by decide) rfl rfl, hback (fun _ => rfl) (by decide) rfl rfl, ?_, ?_, fun hat => ?_, fun hp => ?_⟩
  · have hctxid : zext64 (field v 0 6) = v &&& 0x3F#64 := zext_field v (by decide)
    exact hback (fun _ => rfl) (by decide) rfl hctxid
  · have hdemote : zext64 (field v 0 32) = v &&& 0xFFFFFFFF#64 := zext_field v (by decide)
    exact hback (fun _ => rfl) (by decide) rfl hdemote
  · have hvmode : zext64 (v.setWidth 4) = v &&& 0xF#64 := zext_setWidth v (by decide)
    exact hback (fun go => congrArg go (if_neg hat)) (by decide) rfl hvmode
  · exact hback (fun _ => rfl) (by decide) rfl (status_written_word _ v _ hp)

/-- Settles O26: WRSYS is the write of the register (`execWrsys_write`), RDSYS reads it back (`scalar_readBack`), and each register with a
write of its own has its lemma above. -/
theorem systemRegisters : Obligations.SystemRegisters := by
  unfold Obligations.SystemRegisters
  refine ⟨fun s s0 rd ra reg a => ?_, fun s v n k e => ?_⟩
  · intro v w hf
    have hread {n : Nat} {x : Word} (hx : s.sysRead n = x) (hlow : n < 0x14A) (hn : reg.toNat = n) :
        exec (.rdsys rd reg) s = .next ((s.setX rd x).adv 4) :=
      (execRdsys_read hf (by omega)).trans (by rw [hn, hx])
    refine ⟨execRdsys_read hf, execRdsys_snapdata hf, fun ha hr hw hw0 => ?_, fun ha hro hr _ => execWrsys_ignored hf ha hro hr, ?_,
      fun u ha hr hw hw0 hu => ?_⟩
    · have hwrite := execWrsys_write (ra := ra) hf ha hr hw hw0
      have hscalar {n : Nat} {t : State} (ht : ∀ go, sysWrite n v s0 go = go t) (hn : reg.toNat = n) :
          exec (.wrsys ra reg) s = .next (t.adv 4) := hwrite.trans (by rw [hn, ht])
      exact ⟨hscalar fun _ => rfl, hscalar fun _ => rfl, hscalar fun _ => rfl, hscalar fun _ => rfl, hscalar fun _ => rfl,
        hscalar fun _ => rfl, hscalar fun _ => rfl, hscalar fun _ => rfl, hscalar fun _ => rfl,
        fun h h' => hwrite.trans (sysWrite_page h h' ..), fun h h' => hwrite.trans (sysWrite_group h h' ..),
        fun h => hwrite.trans (sysWrite_manager h ..)⟩
    · exact ⟨hread (status_word _) (by decide), hread rfl (by decide), hread rfl (by decide), hread rfl (by decide),
        hread rfl (by decide), hread rfl (by decide), hread rfl (by decide), hread rfl (by decide), hread rfl (by decide)⟩
    · exact scalar_readBack ha hw0 ((execWrsys_write (ra := ra) hf ha hr hw hw0).symm.trans hu)
  · intro q mask lost
    exact ⟨fun h => plmaskWrite_waits h, fun h => ⟨_, plmaskWrite_go h, (plmaskWritten_quad s v).1, rfl, (plmaskWritten_quad s v).2⟩,
      fun h => pltagWrite_ignored h, fun h hb => pltagWrite_waits h hb,
      fun h hb => ⟨_, pltagWrite_go h hb, rfl, fun p hp => mapPlates_one s _ hp⟩,
      fun h => ⟨_, rfl, estateWrite_spec v h⟩, fun h h' => ⟨_, rfl, fun g => by rw [estateWrite_running h h']⟩,
      fun h => congrArg Host.Outcome.next (if_neg h), fun h => congrArg Host.Outcome.next (if_pos h),
      fun h => if_neg (ne_true_of_eq_false h),
      fun h => ⟨_, if_pos h, fun i hi => setViewWord_other s v k hi, setViewWord_view s v k⟩⟩

end Sys2Proof.Proofs.SystemRegisters
end

section
/-! SUPPORT. The proof of the statement over the control words of a block and the mode words (R41, R132, R157, R159-R164): the words that
read and write outcome queues go on where the queue has a value or room. -/

namespace Sys2Proof.Proofs.ControlWords

open Sys2Proof Sys2Proof.Machine Sys2Proof.Laws

/-- A word that pops an outcome queue with a value goes on with its oldest one (R160). -/
theorem popOutcome_cons {s : State} {u : BitVec 3} {v : Word} {rest : List Word} (h : s.core.outcome u.toNat s.actor.id = v :: rest)
    (go : Word → State → Out) : popOutcome u s go = go v { s with core := s.core.setOutcome u.toNat s.actor.id rest } := by
  rw [popOutcome, h]

/-- A word that pushes a value goes on where its outcome queue has room (R175). -/
theorem pushOr_room {s : State} {u : BitVec 3} (v : Word) (h : s.core.outcomeRoom s.actor.id u.toNat = true) (go : State → Out) :
    pushOr u v s go = go (s.pushOutcome s.actor.id u.toNat v) := by
  rw [pushOr, if_pos h]

theorem execBexit_cons {s : State} {tgt : BitVec 3} {v : Word} {rest : List Word}
    (h : s.core.outcome tgt.toNat s.actor.id = v :: rest) :
    let s' : State := { s with core := s.core.setOutcome tgt.toNat s.actor.id rest }
    execBexit tgt s = .next (if v = 0 then s'.wordDone 1 else s'.endEntry) := by
  rw [execBexit, popOutcome_cons h]

theorem execBskip_cons {s : State} {tgt : BitVec 3} {v : Word} {rest : List Word}
    (h : s.core.outcome tgt.toNat s.actor.id = v :: rest) (cnt : BitVec 8) :
    let s' : State := { s with core := s.core.setOutcome tgt.toNat s.actor.id rest }
    execBskip tgt cnt s = .next (s'.wordDone (if v = 0 then 1 else 1 + cnt.toNat)) := by
  rw [execBskip, popOutcome_cons h]

theorem execBpushm_room {s : State} {tgt : BitVec 3} (h : s.core.outcomeRoom s.actor.id tgt.toNat = true) (msk : BitVec 3)
    (summary : BitVec 2) :
    execBpushm tgt msk summary s =
      .next ((s.pushOutcome s.actor.id tgt.toNat (maskSummary (vget s.core.regs.mask msk) summary)).wordDone 1) := by
  rw [execBpushm, pushOr_room _ h]

/-- Settles O29: a word that uses an outcome queue completes once the queue has a value or room; every other word does so in every state. -/
theorem controlWords : Obligations.ControlWords := by
  unfold Obligations.ControlWords
  intro s tgt msk view cnt summary mode v rest s'
  exact ⟨rfl, rfl, fun hpop => ⟨execBexit_cons hpop, execBskip_cons hpop cnt⟩, fun hroom => execBpushm_room hroom msk summary,
    rfl, rfl, rfl⟩

end Sys2Proof.Proofs.ControlWords
end

section
/-! SUPPORT. The proof of the statement over the two-source, bitwise and fused words of the VE (R44, R46, R135-R136, R138, R145, R151):
each shape of word, once its operands are ready, schedules its function of the elements, for an integer and for a float type. -/

namespace Sys2Proof.Proofs.VectorArithmetic

open Sys2Proof Sys2Proof.Machine Sys2Proof.Laws

/-! ### The types of the arithmetic and their latencies (R136, R138) -/

theorem arithTy_int {t : Ty} (h : t.isInt = true) : arithTy t = true := by
  rw [arithTy, h, Bool.true_or]

theorem arithTy_wide {t : Ty} (h : t.isWide = true) : arithTy t = true := by
  rw [arithTy, h, Bool.or_true]

theorem latAB_int {t : Ty} (h : t.isInt = true) : latAB t = 2 := if_pos h

theorem latAB_wide {t : Ty} (h : t.isWide = true) : latAB t = 4 := if_neg (by simp [not_int_of_wide h])

/-! ### The words of two sources (R145) -/

section
variable {s : State} {d s1 s2 : BitVec 8} {m : BitVec 1} {t : Ty} {a b : Granule} {dst : VDest} {c : Core}

/-- The function of an element word of two sources, applied to elements `j` of both. -/
abbrev zipped (t : Ty) (f : Nat → Nat → Nat) (a b : Granule) : Granule :=
  packElems t.width (List.zipWith f (elemsOf t.width a) (elemsOf t.width b))

theorem veArith_int (h : s.veReady t [d, s1, s2] [d, s1, s2] [] [s1, s2] d = some ([a, b], dst, c)) (hi : t.isInt = true)
    (fi : Int → Int → Int) (ff : Mode → FVal → FVal → FVal) :
    veArith d s1 s2 m fi ff s =
      .next (s.veWrote c t 2 dst (c.activeMask m) (zipped t (fun x y => t.wrap (fi (t.int x) (t.int y))) a b)) := by
  rw [veArith_go h (arithTy_int hi), latAB_int hi, arith2_int hi]; rfl

theorem veArith_wide (h : s.veReady t [d, s1, s2] [d, s1, s2] [] [s1, s2] d = some ([a, b], dst, c)) (hw : t.isWide = true)
    (fi : Int → Int → Int) (ff : Mode → FVal → FVal → FVal) :
    let md := modeOf c.vex.mode
    veArith d s1 s2 m fi ff s =
      .next (s.veWrote c t 4 dst (c.activeMask m) (zipped t (fun x y => t.convert md (ff md (t.read md x) (t.read md y))) a b)) := by
  rw [veArith_go h (arithTy_wide hw), latAB_wide hw, arith2_real (not_int_of_wide hw)]; rfl

theorem execVabsd_int (h : s.veReady t [d, s1, s2] [d, s1, s2] [] [s1, s2] d = some ([a, b], dst, c)) (hi : t.isInt = true) :
    execVabsd d s1 s2 m s =
      .next (s.veWrote c t 2 dst (c.activeMask m) (zipped t (fun x y => t.satBits (t.int x - t.int y).natAbs) a b)) := by
  rw [execVabsd, veWord_go h (arithTy_int hi), latAB_int hi]
  simp only [if_pos hi]; rfl

theorem execVabsd_wide (h : s.veReady t [d, s1, s2] [d, s1, s2] [] [s1, s2] d = some ([a, b], dst, c)) (hw : t.isWide = true) :
    let md := modeOf c.vex.mode
    execVabsd d s1 s2 m s = .next (s.veWrote c t 4 dst (c.activeMask m)
      (zipped t (fun x y => t.convert md ((fAdd md.rm (t.read md x) (fNeg (t.read md y))).withSign false)) a b)) := by
  have hi : ¬ t.isInt = true := by simp [not_int_of_wide hw]
  rw [execVabsd, veWord_go h (arithTy_wide hw), latAB_wide hw]
  simp only [if_neg hi]; rfl

theorem veBits_go (h : s.veReady t [d, s1, s2] [d, s1, s2] [] [s1, s2] d = some ([a, b], dst, c)) {allowed : Ty → Bool}
    (ha : allowed t = true) (f : Ty → Nat → Nat → Nat) :
    veBits d s1 s2 m allowed f s = .next (s.veWrote c t 2 dst (c.activeMask m) (zipped t (f t) a b)) := by
  rw [veBits, veWord_go h ha]; rfl

end

/-! ### The words over the old destination (R145, R151) -/

section
variable {s : State} {d s1 s2 : BitVec 8} {m : BitVec 1} {t ta tb : Ty} {a b old : Granule} {dst : VDest} {c : Core}

/-- The function of an element word of two sources and the old destination, applied to elements `j` of all three. -/
abbrev zipped3 (t : Ty) (f : Nat → Nat → Nat → Nat) (a b old : Granule) : Granule :=
  packElems t.width
    (List.zipWith (fun p z => f p.1 p.2 z) (List.zip (elemsOf t.width a) (elemsOf t.width b)) (elemsOf t.width old))

theorem veFused_go (h : s.veReady t [d, s1, s2] [d, s1, s2] [] [s1, s2, d] d = some ([a, b, old], dst, c)) (ha : arithTy t = true)
    (fi : Int → Int → Int → Int) (ff : Mode → FVal → FVal → FVal → FVal) :
    let md := modeOf c.vex.mode
    veFused d s1 s2 m fi ff s =
      .next (s.veWrote c t (latAB t) dst (c.activeMask m) (zipped3 t (arith3 t md fi (ff md)) a b old)) := by
  rw [veFused, veTyped_go h ha, veIssue_go h rfl]; rfl

theorem veFused_int (h : s.veReady t [d, s1, s2] [d, s1, s2] [] [s1, s2, d] d = some ([a, b, old], dst, c)) (hi : t.isInt = true)
    (fi : Int → Int → Int → Int) (ff : Mode → FVal → FVal → FVal → FVal) :
    veFused d s1 s2 m fi ff s = .next (s.veWrote c t 2 dst (c.activeMask m)
      (zipped3 t (fun x y z => t.wrap (fi (t.int x) (t.int y) (t.int z))) a b old)) := by
  rw [veFused_go h (arithTy_int hi), latAB_int hi, arith3_int hi]

theorem veFused_wide (h : s.veReady t [d, s1, s2] [d, s1, s2] [] [s1, s2, d] d = some ([a, b, old], dst, c)) (hw : t.isWide = true)
    (fi : Int → Int → Int → Int) (ff : Mode → FVal → FVal → FVal → FVal) :
    let md := modeOf c.vex.mode
    veFused d s1 s2 m fi ff s = .next (s.veWrote c t 4 dst (c.activeMask m)
      (zipped3 t (fun x y z => t.convert md (ff md (t.read md x) (t.read md y) (t.read md z))) a b old)) := by
  rw [veFused_go h (arithTy_wide hw), latAB_wide hw, arith3_real (not_int_of_wide hw)]

/-- VDOT4 with sources of bytes that its type allows (R151). -/
theorem execVdot4_go (h : s.veReady t [d] [d] [s1, s2] [s1, s2, d] d = some ([a, b, old], dst, c)) (ht : t = .i32 ∨ t = .f32)
    (h1 : dotType s.core t s1 = some ta) (h2 : dotType s.core t s2 = some tb) :
    execVdot4 d s1 s2 m s = .next (s.veWrote c t 4 dst (c.activeMask m) (zipped3 t (dotLane t ta tb (modeOf c.vex.mode)) a b old)) := by
  have ha : (decide (t = .i32) || decide (t = .f32)) = true := by simpa using ht
  rw [execVdot4, veTyped_go h ha, h1, h2]
  simp only
  rw [veIssue_go h rfl]; rfl

/-- A lane of VDOT4 on integers adds the four products of its bytes, one by one. -/
theorem dotLane_i32 (ta tb : Ty) (md : Mode) (x y z : Nat) :
    dotLane .i32 ta tb md x y z = Ty.wrap .i32 (Ty.int .i32 z +
      (ta.int (x % 256) * tb.int (y % 256) + ta.int (x / 256 % 256) * tb.int (y / 256 % 256) +
       ta.int (x / 65536 % 256) * tb.int (y / 65536 % 256) + ta.int (x / 16777216 % 256) * tb.int (y / 16777216 % 256))) := by
  rw [dotLane, if_pos rfl, show List.range 4 = [0, 1, 2, 3] from rfl]
  simp [byteOf, add_assoc]

end

/-- Settles O31: each word is one of the shapes above, an integer and a float type apart. -/
theorem vectorArithmetic : Obligations.VectorArithmetic := by
  unfold Obligations.VectorArithmetic
  refine ⟨fun s d s1 s2 m t a b dst c h => ⟨fun hi => ?_, fun hw => ?_⟩, fun s d s1 s2 m t a b dst c h => ⟨?_, ?_, ?_, fun hi => ?_⟩,
    fun s d s1 s2 m t ta tb a b old dst c => ⟨fun h => ⟨fun hi => ?_, fun hw => ?_⟩, fun h h1 h2 => ⟨fun ht => ?_, fun ht => ?_⟩⟩⟩
  · exact ⟨veArith_int h hi _ _, veArith_int h hi _ _, veArith_int h hi _ _, veArith_int h hi _ _, veArith_int h hi _ _, execVabsd_int h hi⟩
  · exact ⟨veArith_wide h hw _ _, veArith_wide h hw _ _, veArith_wide h hw _ _, veArith_wide h hw _ _, veArith_wide h hw _ _,
      execVabsd_wide h hw⟩
  · exact veBits_go h rfl _
  · exact veBits_go h rfl _
  · exact veBits_go h rfl _
  · exact ⟨veBits_go h hi _, veBits_go h hi _, veBits_go h hi _, veBits_go h hi _, veBits_go h hi _⟩
  · exact ⟨veFused_int h hi _ _, veFused_int h hi _ _⟩
  · exact ⟨veFused_wide h hw _ _, veFused_wide h hw _ _⟩
  · subst ht
    exact (execVdot4_go h (.inl rfl) h1 h2).trans (by rw [funext₃ (dotLane_i32 ta tb (modeOf c.vex.mode))])
  · exact execVdot4_go h (.inr ht) h1 h2

end Sys2Proof.Proofs.VectorArithmetic
end

section
/-! SUPPORT. The proof of the statement over the words over scales and the scaled conversions (R47, R257-R263, R267-R270): each shape of word,
once its operands stand and its bindings are current, goes on with a free group or with the group of a granule. -/

namespace Sys2Proof.Proofs.ScaledWords

open Sys2Proof Sys2Proof.Machine Sys2Proof.Laws

/-! ### The words over the codes of s1 (R269, R270) -/

/-- The codes of two sources combined, one by one. -/
def combined (f : Nat → Nat → Nat) (old new : BitVec 256) : BitVec 256 :=
  packCodes ((List.range 32).map fun j => f (codeAt old j) (codeAt new j))

/-- SCMAX and SCMIN keep a NaN of either source (R269), here named by a disjunction of propositions. -/
theorem nanOr_eq (f : Nat → Nat → Nat) :
    (fun a b => if a = 255 || b = 255 then 255 else f a b) = fun a b => if a = 255 ∨ b = 255 then 255 else f a b := by
  funext a b
  simp only [Bool.or_eq_true, decide_eq_true_eq]

section
variable {s : State} {d s1 : BitVec 8} {g k old : Nat} {v : Granule} {c c' : Core}
variable (hd : s.core.scaledGranule d = some g) (h1 : s.core.operandOk none s1 = true)
  (hr : s.core.readSource s.act.entry.args 8 s1 = .ok (v, c))
include hd h1 hr

theorem execScwr_go (hb : s.core.regs.checkBinding g = .ok old) :
    execScwr d s1 s = .next (s.veTagged c g (.rewrite old (v.setWidth 256))) := by
  rw [execScwr, scaleWord_go hd h1 hr, needBound_go hb]
  rfl

variable (ha : c.allocate = some (k, c'))
include ha

theorem execScset_go : execScset d s1 s = .next (s.veTagged c' g (.bind k (v.setWidth 256))) := by
  rw [execScset, scaleWord_go hd h1 hr, bindNew_go ha]

variable (hb : s.core.regs.checkBinding g = .ok old)
include hb

/-- The words over the codes of d's group and of s1 go on where d's binding is current and a group is free (R269). -/
theorem scaleCombine_go (f : Nat → Nat → Nat) :
    scaleCombine f d s1 s = .next (s.veTagged c' g (.bind k (combined f (s.core.regs.groupAt old).codes (v.setWidth 256)))) := by
  rw [scaleCombine, scaleWord_go hd h1 hr, needBound_go hb, bindNew_go ha]
  rfl

theorem execScadde_go : execScadde d s1 s = .next (s.veTagged c' g (.bind k (combined
    (fun a b => if a = 255 then 255 else (satInt (a + intOf true 8 b) 0 254).toNat) (s.core.regs.groupAt old).codes (v.setWidth 256)))) := by
  rw [execScadde, scaleCombine_go hd h1 hr ha hb]

theorem execScmax_go : execScmax d s1 s = .next (s.veTagged c' g (.bind k (combined
    (fun a b => if a = 255 ∨ b = 255 then 255 else max a b) (s.core.regs.groupAt old).codes (v.setWidth 256)))) := by
  rw [execScmax, scaleCombine_go hd h1 hr ha hb, nanOr_eq]

theorem execScmin_go : execScmin d s1 s = .next (s.veTagged c' g (.bind k (combined
    (fun a b => if a = 255 ∨ b = 255 then 255 else min a b) (s.core.regs.groupAt old).codes (v.setWidth 256)))) := by
  rw [execScmin, scaleCombine_go hd h1 hr ha hb, nanOr_eq]

end

/-! ### The other scale-only words (R265, R269, R270) -/

section
variable {s : State} {d s1 : BitVec 8} {g h k old : Nat} {c c' : Core}

/-- The words whose s1 is a scaled granule go on where its binding is current (R265). -/
theorem fromBound_go (hd : s.core.scaledGranule d = some g) (h1 : s.core.scaledGranule s1 = some h)
    (hb : s.core.regs.checkBinding h = .ok old) (go : Nat → Nat → Nat → Out) : fromBound d s1 s go = go g h old := by
  rw [fromBound, hd, h1]
  exact needBound_go hb

theorem execScnew_go (hd : s.core.scaledGranule d = some g) (ha : s.core.allocate = some (k, c')) :
    execScnew d s = .next (s.veTagged c' g (.bind k (packCodes (List.replicate 32 0x7F)))) := by
  rw [execScnew, hd]
  exact bindNew_go ha

theorem execScmov_go (hd : s.core.scaledGranule d = some g) (h1 : s.core.scaledGranule s1 = some h)
    (hb : s.core.regs.checkBinding h = .ok old) (ha : s.core.allocate = some (k, c')) :
    execScmov d s1 s = .next (s.veTagged c' g (.bind k (s.core.regs.groupAt old).codes)) := by
  rw [execScmov, fromBound_go hd h1 hb, bindNew_go ha]

theorem execScbind_go (hd : s.core.scaledGranule d = some g) (h1 : s.core.scaledGranule s1 = some h)
    (hb : s.core.regs.checkBinding h = .ok old) :
    execScbind d s1 s =
      if g = h then .next (s.wordDone 2)
      else .next (s.veTagged { s.core with regs := s.core.regs.addRef old } g (.copy (s.core.regs.tagOf h))) := by
  rw [execScbind, fromBound_go hd h1 hb]
  rfl

theorem execScunb_go {w : BitVec 3} {i : BitVec 4} (hd : operand d = .main w i) (hg : s.core.granuleOf w i = some g) :
    execScunb d s = .next (s.veTagged s.core g .clear) := by
  rw [execScunb, hd]
  simp only [hg]
  rfl

theorem execScrd_go {dst : VDest} (h1 : s.core.scaledGranule s1 = some h) (hd : s.core.operandOk none d = true)
    (hb : s.core.regs.checkBinding h = .ok old) (ht : s.core.veTarget d = .ok (dst, c)) :
    execScrd d s1 s =
      .next (s.veWrote c .n8 2 dst (BitVec.allOnes 1024) ((s.core.regs.groupAt old).codes.setWidth 8192)) := by
  rw [execScrd, h1]
  simp only [hd, Bool.not_true, Bool.false_eq_true, if_false]
  rw [needBound_go hb, ht]
  rfl

end

/-! ### The scaled conversions (R47, R267, R268) -/

section
variable {s : State} {d s1 : BitVec 8} {m : BitVec 1} {g k : Nat} {t u : Ty} {regs : List VDest} {c : Core}

theorem needGroup_go {c c' : Core} (ha : c.allocate = some (k, c')) (go : Nat → Core → Out) : needGroup c s go = go k c' := by
  rw [needGroup, ha]

/-- A group allocated leaves the VE as it was. -/
theorem allocate_vex {c c' : Core} (ha : c.allocate = some (k, c')) : c'.vex = c.vex := by
  unfold Core.allocate at ha
  split at ha
  · cases ha
  · cases ha; rfl

/-- VCVTD whose operands stand, with a free group: its blocks of 32 elements, each with the scale picked for it (R267). -/
theorem execVcvtd_go (hd : s.core.scaledGranule d = some g) (ht : (s.core.operandView d).bind viewType = some t)
    (hu : s.core.wordType [s1] = some u) (hts : t.scalable = true) (huw : u.isWide = true)
    (hspan : s.core.span s1 u.size = some regs) (hover : spanOver s1 u.size = false) (ha : s.core.allocate = some (k, c)) :
    let md := modeOf s.core.vex.mode
    let src := (regs.map fun r => (elemsOf u.width (c.regAt r)).map (u.read { md with sat := false })).flatten
    let out := (chunks 32 32 src).map (scaleSelect t md)
    execVcvtd d s1 s = .next (s.veWrote c .n8 6 (.gran g) (BitVec.allOnes 1024) (packElems 8 (out.map (·.2)).flatten)
      (.bind k (packCodes (out.map (·.1))))) := by
  intro md src out
  rw [execVcvtd, hd, ht, hu]
  simp only [hts, huw, hspan, hover, Bool.not_true, Bool.or_self, Bool.false_eq_true, if_false]
  rw [needGroup_go ha, allocate_vex ha]
  rfl

/-- VCVTU whose operands stand: each element is multiplied by the scale of its block (R268). -/
theorem execVcvtu_go (h1 : s.core.scaledGranule s1 = some g) (hu : (s.core.operandView s1).bind viewType = some u)
    (ht : s.core.wordType [d] = some t) (hus : u.scalable = true) (htw : t.isWide = true)
    (hspan : s.core.span d t.size = some regs) (hover : spanOver d t.size = false) (hb : s.core.regs.checkBinding g = .ok k) :
    let md := modeOf s.core.vex.mode
    let out := ((elemsOf 8 (s.core.regs.granule g)).zipIdx).map fun p =>
      t.convert md (scaledValue u md (codeAt (s.core.regs.groupAt k).codes (p.2 / 32)) p.1)
    let w : VWrite := { left := 6, dests := regs, data := (chunks t.count t.size out).map (packElems t.width),
                        merge := s.core.activeMask m, esz := t.size, tag := (regs.headD (.ofile 0)).tagChange .clear, latch := true }
    execVcvtu d s1 m s = .next (State.wordDone { s with core := s.core.schedule w } 2) := by
  intro md out w
  rw [execVcvtu, h1, hu, ht]
  simp only [hus, htw, hspan, hover, Bool.not_true, Bool.or_self, Bool.false_eq_true, if_false]
  rw [needBound_go hb]

end

/-- Settles O35: each word is one of the shapes above. -/
theorem scaledWords : Obligations.ScaledWords := by
  unfold Obligations.ScaledWords
  refine ⟨fun s d s1 g k old v c c' => ?_, fun s d s1 m g k t u regs c => ?_⟩
  · intro codes bound mix
    exact ⟨fun hd h1 hr ha => ⟨execScset_go hd h1 hr ha, fun hb =>
        ⟨execScadde_go hd h1 hr ha hb, execScmax_go hd h1 hr ha hb, execScmin_go hd h1 hr ha hb⟩⟩,
      fun hd h1 hr hb => execScwr_go hd h1 hr hb,
      fun hd ha => ⟨execScnew_go hd ha, fun h h1 hb => execScmov_go hd h1 hb ha⟩, fun h hd h1 hb => execScbind_go hd h1 hb,
      fun w i hd hg => execScunb_go hd hg, fun h dst h1 hd hb ht => execScrd_go h1 hd hb ht⟩
  · intro md
    exact ⟨fun hd ht hu hts huw hspan hover ha => execVcvtd_go hd ht hu hts huw hspan hover ha,
       fun h1 hu ht hus htw hspan hover hb => execVcvtu_go h1 hu ht hus htw hspan hover hb⟩

end Sys2Proof.Proofs.ScaledWords
end

section
/-! SUPPORT. The proof of the statement over the words of the ME, PlateAccumulate and the accumulator tiles (R53-R55, R91, R127, R222,
R240-R244, R247, R263): the four blocks of a row and a column, on the INT32 path and on the F32 path, and the rows of a tile read back. -/

namespace Sys2Proof.Proofs.MatrixWords

open Sys2Proof Sys2Proof.Machine Sys2Proof.Laws

/-! ### The words without the lease (R244, R247) -/

section
variable {s : State} {acc : BitVec 4}

theorem execMclr_go (h : ∀ r ∈ s.core.mex.running, acc.toNat ∉ r.accs) :
    execMclr acc s = .next (State.wordDone { s with
      core.regs.ovf := s.core.regs.ovf.setIfInBounds acc.toNat 0, core.regs.nan := s.core.regs.nan.setIfInBounds acc.toNat 0 } 2) := by
  rw [execMclr, accBusy_false h]; rfl

theorem execMstat_go (h : ∀ r ∈ s.core.mex.running, acc.toNat ∉ r.accs) (hroom : s.core.outcomeRoom s.actor.id 0 = true) :
    execMstat acc s = .next ((s.pushOutcome s.actor.id 0 (BitVec.ofNat 64 ((s.core.regs.ovf.getD acc.toNat 0).toNat +
      65536 * (s.core.regs.nan.getD acc.toNat 0).toNat + 4294967296 * acc.toNat))).wordDone 2) := by
  rw [execMstat, accBusy_false h]
  exact if_pos hroom

end

/-! ### MMUL (R240-R242) -/

section
variable {s s1 s2 : State} {acc : BitVec 4} {src : BitVec 8} {q : BitVec 3} {n : BitVec 2} {rows : BitVec 7} {z sc : BitVec 1} {ta : Ty}
  {grans : List Nat} {tiles : List Tile} {w : Want} {p : Plan}

/-- An MMUL that nothing hinders starts its fills (R242). -/
theorem execMmul_starts (hlease : s.leased = some s1) (hplan : s1.core.mex.plan = none) (hmask : (s1.quadAt s1.quadNo).plmask ≠ 0)
    (htype : s1.core.aType src = some ta) (hgrans : s1.core.aGrans src (rows.toNat + 1) = some grans)
    (hpanel : State.panel q (sc = 1) (n.toNat + 1) 0 s1 = some (tiles, s2))
    (hbound : s2.core.aScaled src (sc = 1) = true → s2.core.aUnbound grans = none)
    (hserve : serveAllTiles (s1.quadAt s1.quadNo).plmask (sc = 1) (tiles.zipIdx.map fun x => (x.2, x.1))
      { bank := (s2.quadAt s2.quadNo).plate } = .ok w)
    (hacc : s2.core.accBusy (mmulTiles acc src (n.toNat + 1) grans) true = false)
    (hfill : s2.mayFill tiles (growPanel s2.core (s1.quadAt s1.quadNo).plmask q (tiles.zipIdx.map fun x => (x.2, x.1)) w) = true) :
    execMmul acc src q n rows z sc s =
      .next (s2.planned tiles (growPanel s2.core (s1.quadAt s1.quadNo).plmask q (tiles.zipIdx.map fun x => (x.2, x.1)) w) grans
        fun p s => s.stream acc src ta (rows.toNat + 1) (sc = 1) (z = 1) p) := by
  have hbad : (if s2.core.aScaled src (sc = 1) = true then s2.core.aUnbound grans else none) = none :=
    ite_eq_right_iff.2 hbound
  rw [execMmul, leaseWord_go hlease]
  simp only [hplan, hmask, htype, hgrans, Option.isNone_none, decide_false, Bool.and_false, Bool.false_eq_true, if_false]
  rw [panel_go hpanel]
  simp only [List.nil_append, hbad, hserve, hacc, Bool.false_eq_true, if_false]
  exact startOrWait_go hfill

/-- An MMUL whose fills have ended streams its A rows through the plates (R240). -/
theorem execMmul_streams (hfilled : s.filled = some (p, s1)) (htype : s.core.aType src = some ta) :
    execMmul acc src q n rows z sc s = .next (s1.stream acc src ta (rows.toNat + 1) (sc = 1) (z = 1) p) := by
  obtain ⟨hplan, hlease, hgo⟩ := filled_spec hfilled
  rw [execMmul, leaseWord_go hlease]
  simp only [hplan, htype, Option.isNone_some, Bool.false_and, Bool.false_eq_true, if_false]
  exact hgo _

end

/-! ### The blocks of a row and a column -/

/-- The operand pairs of block `k`. -/
def rowPairs (a w : List Nat) (k : Nat) : List (Nat × Nat) :=
  (List.range 32).map fun i => (a.getD (32 * k + i) 0, w.getD (32 * k + i) 0)

theorem blocks_eq {a w : List Nat} (ha : a.length = 128) (hw : w.length = 128) :
    chunks 32 4 (a.zip w) = [rowPairs a w 0, rowPairs a w 1, rowPairs a w 2, rowPairs a w 3] := by
  have hblock (k : Nat) (hk : k < 4) : (chunks 32 4 (a.zip w)).getD k [] = rowPairs a w k := by
    rw [chunks_getD _ _ _ _ hk, block_pairs a w _ _ (by omega) (by omega)]; rfl
  rw [four _ [] (chunks_length 32 4 (a.zip w)), hblock 0 (by omega), hblock 1 (by omega), hblock 2 (by omega), hblock 3 (by omega)]

/-! ### The INT32 path (R53) -/

/-- The exact sum of the products of a block. -/
def intBlock (ps : List (Nat × Nat)) : Int := (ps.map fun x => intOf true 8 x.1 * intOf true 8 x.2).sum

/-- A sum saturated to INT32. -/
abbrev sat (x : Int) : Int := satInt x (-2147483648) 2147483647

theorem sat_ne_iff (x : Int) : sat x ≠ x ↔ x < -2147483648 ∨ 2147483647 < x := by
  unfold sat satInt
  split_ifs <;> omega

/-- A block on the INT32 path adds its sum and saturates; it records overflow where it has saturated. -/
def intStep (p : Int × Bool) (ps : List (Nat × Nat)) : Int × Bool :=
  (sat (p.1 + intBlock ps), p.2 || decide (sat (p.1 + intBlock ps) ≠ p.1 + intBlock ps))

theorem plateAccumulate_int (old : Nat) (a : ARow) (w : List Nat) (xw : List (Option Int)) :
    plateAccumulate .i8 .i8 false old a w xw =
      let r := (chunks 32 4 (a.elems.zip w)).foldl intStep (intOf true 32 old, false)
      (Ty.wrap .i32 r.1, r.2, false) := by
  have hstep : (fun (p : Int × Bool) (b : List (Nat × Nat)) =>
      let s := p.1 + (b.map fun x => intOf true 8 x.1 * intOf true 8 x.2).sum
      (satInt s (-2147483648) 2147483647, p.2 || s < -2147483648 || 2147483647 < s)) = intStep := by
    funext p b
    simp only [intStep, intBlock, sat_ne_iff, Bool.decide_or, Bool.or_assoc]
  exact congrArg (fun f => (fun r : Int × Bool => (Ty.wrap .i32 r.1, r.2, false))
    ((chunks 32 4 (a.elems.zip w)).foldl f (intOf true 32 old, false))) hstep

/-! ### The F32 path (R53-R55) -/

/-- The sum of the scale exponents of block `k`, none where one of its scales is a NaN. -/
def blockExponent (sc : Bool) (xa xw : List (Option Int)) (k : Nat) : Option Int :=
  match xa.getD k none, xw.getD k none with
  | some i, some j => some (if sc then i + j else 0)
  | _, _ => none

/-- An output element before its first block: an infinity in the accumulator is recorded as an overflow (R55). -/
def startCell (old : Nat) : Cell := { val := plateVal .f32 old, ovf := (Ty.value .f32 old).isInf }

theorem plateAccumulate_float {ta tw : Ty} {sc : Bool} {a : ARow} {w : List Nat} {xw : List (Option Int)} (old : Nat)
    (hpath : ¬ (ta = .i8 ∧ tw = .i8 ∧ sc = false)) (ha : a.elems.length = 128) (hw : w.length = 128) (hxa : a.xa.length = 4)
    (hxw : xw.length = 4) :
    let x := blockExponent sc a.xa xw
    let pairs := rowPairs a.elems w
    let c := ((((startCell old).block ta tw (x 0) (pairs 0)).block ta tw (x 1) (pairs 1)).block ta tw (x 2) (pairs 2)).block
      ta tw (x 3) (pairs 3)
    plateAccumulate ta tw sc old a w xw = (Ty.convert .f32 {} c.val, c.ovf, c.nan) := by
  intro x pairs c
  have hnot : ¬ (decide (ta = .i8) && decide (tw = .i8) && !sc) = true := by
    simpa [and_assoc] using hpath
  unfold plateAccumulate
  rw [if_neg hnot, blocks_eq ha hw, scales_four _ _ _ hxa hxw]
  rfl

/-! ### Accumulator tiles (R127, R263) -/

theorem setAcc_granule (r : Regs) (t : Nat) (rows : List (List Nat)) (ovf nan : Nat) {i : Nat} (hi : i < 64) :
    (r.setAcc t rows ovf nan).granule (512 + 64 * t + i) = packElems 32 (((rows.drop (2 * i)).take 2).flatten) ∧
      (r.setAcc t rows ovf nan).tagOf (512 + 64 * t + i) = 0 := by
  obtain ⟨hin, -⟩ := foldPlain (512 + 64 * t) (chunks 2 64 rows) 0 r
  have hgran := hin i (by rw [chunks_length]; exact hi)
  rw [chunks_getD 2 64 rows i hi] at hgran
  exact hgran

theorem setAcc_outside (r : Regs) (t : Nat) (rows : List (List Nat)) (ovf nan : Nat) {k : Nat}
    (hk : k < 512 + 64 * t ∨ 576 + 64 * t ≤ k) :
    (r.setAcc t rows ovf nan).granule k = r.granule k ∧ (r.setAcc t rows ovf nan).tagOf k = r.tagOf k := by
  obtain ⟨-, hout⟩ := foldPlain (512 + 64 * t) (chunks 2 64 rows) 0 r
  exact hout k (by rw [chunks_length]; omega)

/-- Rows `2 i` and `2 i + 1` stand side by side. -/
theorem two_rows {rows : List (List Nat)} {i : Nat} (hi : 2 * i + 1 < rows.length) :
    ((rows.drop (2 * i)).take 2).flatten = rows.getD (2 * i) [] ++ rows.getD (2 * i + 1) [] := by
  have hi' : 2 * i < rows.length := Nat.lt_of_succ_lt hi
  rw [List.drop_eq_getElem_cons hi', List.drop_eq_getElem_cons hi, List.getD_eq_getElem _ _ hi', List.getD_eq_getElem _ _ hi]
  exact congrArg (rows[2 * i] ++ ·) (List.append_nil _)

theorem accRow_setAcc (r : Regs) (t ovf nan : Nat) {rows : List (List Nat)} (hrows : rows.length = 128)
    (hrow : ∀ l ∈ rows, l.length = 128 ∧ ∀ x ∈ l, x < 4294967296) {g : Nat} (hg : g < 128) :
    (r.setAcc t rows ovf nan).accRow t g = rows.getD g [] := by
  have hlisted (k : Nat) (hk : k < 128) : rows.getD k [] ∈ rows := by
    rw [List.getD_eq_getElem _ _ (by omega)]; exact List.getElem_mem _
  obtain ⟨hlen0, hlt0⟩ := hrow _ (hlisted (2 * (g / 2)) (by omega))
  obtain ⟨hlen1, hlt1⟩ := hrow _ (hlisted (2 * (g / 2) + 1) (by omega))
  have helems : elemsOf 32 ((r.setAcc t rows ovf nan).granule (512 + 64 * t + g / 2)) =
      rows.getD (2 * (g / 2)) [] ++ rows.getD (2 * (g / 2) + 1) [] := by
    rw [(setAcc_granule r t rows ovf nan (by omega)).1, two_rows (by omega)]
    refine elems_pack 32 _ (by rw [List.length_append, hlen0, hlen1]) fun x hx => ?_
    exact (List.mem_append.1 hx).elim (hlt0 x) (hlt1 x)
  rw [Regs.accRow, helems]
  rcases Nat.mod_two_eq_zero_or_one g with hmod | hmod
  · rw [hmod, Nat.mul_zero, List.drop_zero, List.take_left' hlen0, show 2 * (g / 2) = g by omega]
  · rw [hmod, Nat.mul_one, List.drop_left' hlen0, List.take_of_length_le hlen1.le, show 2 * (g / 2) + 1 = g by omega]

/-- Settles O40: the words by the lemmas above, PlateAccumulate block by block (`blocks_four` on the F32 path), a tile by `foldPlain`. -/
theorem matrixWords : Obligations.MatrixWords := by
  unfold Obligations.MatrixWords
  refine ⟨fun s q id arg grow k acc => ?_, fun s s1 s2 acc src q n rows z sc ta grans tiles w p => ⟨?_, ?_⟩,
    fun old a w xw ha hw => ?_, fun ta tw sc old a w xw hpath ha hw hxa hxw => ?_, fun r t ovf nan rows hrows hrow => ?_⟩
  · exact ⟨rfl, rfl, fun hfree => ⟨execMclr_go hfree, execMstat_go hfree⟩⟩
  · intro _ hlease hplan hmask htype hgrans hpanel hbound hserve hacc hfill
    exact execMmul_starts hlease hplan hmask htype hgrans hpanel hbound hserve hacc hfill
  · exact execMmul_streams
  · intro block sat v0 v1 v2 v3
    have hblock (k : Nat) : intBlock (rowPairs a.elems w k) = block k := by
      rw [intBlock, rowPairs, List.map_map]; rfl
    rw [plateAccumulate_int, blocks_eq ha hw]
    simp only [List.foldl_cons, List.foldl_nil, intStep, hblock, Bool.false_or]
    simp only [Bool.decide_or, Bool.or_assoc]
    rfl
  · intro pairs x nan inf add r0 r1 r2 r3 infs out
    have hout : out = _ := plateAccumulate_float old hpath ha hw hxa hxw
    obtain ⟨hnum, hnan⟩ := blocks_four ta tw (blockExponent sc a.xa xw) (rowPairs a.elems w) (startCell old) rfl
    rw [hout]
    refine ⟨fun hclean => ?_, fun hmet => ?_⟩
    · obtain ⟨hval, hovf, hflag⟩ := hnum hclean
      exact ⟨congrArg (Ty.convert .f32 {}) hval, hovf, hflag⟩
    · obtain ⟨hval, hflag, hovf⟩ := hnan hmet
      exact ⟨congrArg (Ty.convert .f32 {}) hval, hflag, hovf⟩
  · exact ⟨fun g hg => accRow_setAcc r t ovf nan hrows hrow hg, fun k hk => setAcc_outside r t rows ovf nan hk,
      fun k hk => (setAcc_granule r t rows ovf nan hk).2⟩

end Sys2Proof.Proofs.MatrixWords
end

section
/-! SUPPORT. The proof that decoding and encoding agree (R56-R95). `word` writes the encoding tables out once, field by field from bit 0
on, and `Home.table` lists the rows of each decoder by their constructors. That the model encodes and decodes by these tables is computed;
that the tables agree with each other, whatever the operands are, is proved once for all rows. The tables serve the proofs alone and are
not compiled. -/

namespace Sys2Proof.Proofs.Encodings

open Sys2Proof Sys2Proof.Laws

/-! ### Words as fields -/

/-- A field of a word: bits that the encoding fixes, or the bits of an operand. -/
inductive Field where
  | fix (n : Nat) (k : BitVec n)
  | op {n : Nat} (v : BitVec n)

open Sys2Proof.Proofs.Encodings.Field (fix op)

def Field.width : Field → Nat
  | .fix n _ => n
  | .op (n := n) _ => n

def Field.val : Field → Nat
  | .fix _ k => k.toNat
  | .op v => v.toNat

/-- The word that the fields fill from bit 0 on. -/
def pack : List Field → Nat
  | [] => 0
  | f :: l => f.val + 2 ^ f.width * pack l

/-- How many bits the fields have. -/
def width : List Field → Nat
  | [] => 0
  | f :: l => f.width + width l

/-- From bit `lo` on, word `w` reads as the fields, and they end at bit `n`. -/
def Reads (w n : Nat) : Nat → List Field → Prop
  | lo, [] => lo = n
  | lo, f :: l => seg w lo f.width = f.val ∧ Reads w n (lo + f.width) l

/-- What a decoder finds at the positions of operands. -/
abbrev Operands := Nat → (n : Nat) → BitVec n

/-- What the fields fix at a position. -/
def fixed : Nat → List Field → Nat → Nat → Option Nat
  | _, [], _, _ => none
  | p, .fix m k :: l, lo, n => if p = lo ∧ m = n then some k.toNat else fixed (p + m) l lo n
  | p, .op (n := m) _ :: l, lo, n => fixed (p + m) l lo n

/-- The operands of the fields, and those of `ρ` where there is none. -/
def operands (ρ : Operands) : Nat → List Field → Operands
  | _, [], lo, n => ρ lo n
  | p, .fix m _ :: l, lo, n => operands ρ (p + m) l lo n
  | p, .op (n := m) v :: l, lo, n => if p = lo then (if h : m = n then h ▸ v else ρ lo n) else operands ρ (p + m) l lo n

/-- The fields with other operands. -/
def fill (ρ : Operands) : Nat → List Field → List Field
  | _, [] => []
  | p, .fix m k :: l => .fix m k :: fill ρ (p + m) l
  | p, .op (n := m) _ :: l => .op (ρ p m) :: fill ρ (p + m) l

/-- The bits that the fields fix: position, width and value. -/
def fixes : Nat → List Field → List (Nat × Nat × Nat)
  | _, [] => []
  | p, .fix m k :: l => (p, m, k.toNat) :: fixes (p + m) l
  | p, .op (n := m) _ :: l => fixes (p + m) l

/-- A number to which the operands have been added, each at its position. -/
def addOps : Nat → Nat → List Field → Nat
  | _, a, [] => a
  | p, a, .fix m _ :: l => addOps (p + m) a l
  | p, a, .op (n := m) v :: l => addOps (p + m) (a + v.toNat * Nat.pow 2 p) l

/-- The word of the fields `fs` as the model writes it: first the fixed bits, from field `l` at bit `p` on, then the operands. -/
def sum (fs : List Field) : Nat → Nat → List Field → Nat
  | _, a, [] => addOps 0 a fs
  | p, a, .fix m k :: l => sum fs (p + m) (a + k.toNat * Nat.pow 2 p) l
  | p, a, .op (n := m) _ :: l => sum fs (p + m) a l

/-! ### The encoding tables (R61-R93) -/

/-- A decoder, and with it the words that it alone has. -/
inductive Home where
  /-- The 32-bit words of the SQ. -/
  | sq
  /-- The 16-bit words of the SQ. -/
  | compact
  /-- The control words of every engine's blocks. -/
  | control
  /-- The words of an engine. -/
  | own (e : Engine)
  /-- None: a row without an encoding. -/
  | event

/-- The word of an instruction: the decoder that has it, and its fields from bit 0 on. -/
structure Word where
  home : Home
  fields : List Field

/-- A 32-bit word of the SQ (R61): its major opcode in bits 6:1. -/
abbrev scalarWord (maj : BitVec 6) (l : List Field) : Word := ⟨.sq, fix 1 1 :: fix 6 maj :: l⟩

/-- A word of the VE (R72): its major opcode in bits 6:1. -/
abbrev veWord (maj : BitVec 6) (l : List Field) : Word := ⟨.own .ve, fix 1 1 :: fix 6 maj :: l⟩

/-- A word of the AE, ME, CE or XE (R75-R77): its op in bits 5:1. -/
abbrev engineWord (e : Engine) (maj : BitVec 5) (l : List Field) : Word := ⟨.own e, fix 1 1 :: fix 5 maj :: l⟩

/-- A 16-bit word of the SQ (R65): its op in bits 4:1. -/
abbrev compactWord (maj : BitVec 4) (l : List Field) : Word := ⟨.compact, fix 1 0 :: fix 4 maj :: l⟩

/-- A control word (R70): its op in bits 4:1. -/
abbrev controlWord (maj : BitVec 4) (l : List Field) : Word := ⟨.control, fix 1 0 :: fix 4 maj :: l⟩

/-- A function of major 0x01 (R82). -/
abbrev opWord (fn : BitVec 9) (rd ra : BitVec 5) (rb : Field) (w : Field) : Word := scalarWord 1 [op rd, op ra, rb, fix 9 fn, w]

/-- A word with a 15-bit immediate (R81). -/
abbrev immWord (maj : BitVec 6) (rd ra : BitVec 5) (imm : BitVec 15) : Word := scalarWord maj [op rd, op ra, op imm]

/-- A shift by an amount (R81). -/
abbrev shiftWord (fn : BitVec 8) (rd ra : BitVec 5) (amt : BitVec 6) (w : BitVec 1) : Word :=
  scalarWord 6 [op rd, op ra, op amt, op w, fix 8 fn]

/-- A load or store with a 9-bit offset (R62, R81). -/
abbrev accessWord (maj : BitVec 6) (rd ra : BitVec 5) (cls : BitVec 4) (sz : BitVec 2) (off : BitVec 9) : Word :=
  scalarWord maj [op rd, op ra, op cls, op sz, op off]

/-- A load or store with an allocation hint (R62, R81). -/
abbrev hintWord (maj : BitVec 6) (rd ra : BitVec 5) (cls : BitVec 4) (sz : BitVec 2) (signed : BitVec 1) (hint : BitVec 2)
    (off : BitVec 6) : Word :=
  scalarWord maj [op rd, op ra, op cls, op sz, fix 1 signed, op hint, op off]

/-- An atomic or ordered access (R84). -/
abbrev atomicWord (maj : BitVec 6) (rd ra rb : Field) (cls : BitVec 4) (scope : BitVec 3) (ord : BitVec 2) (wide : BitVec 1) : Word :=
  scalarWord maj [rd, ra, rb, op cls, op scope, op ord, op wide]

/-- Format V3 (R85). -/
abbrev v3Word (maj : BitVec 6) (d s1 s2 : BitVec 8) (m : Field) : Word := veWord maj [op d, op s1, op s2, m]

/-- Format VX (R86). -/
abbrev vxWord (fn d s1 : BitVec 8) (m : Field) : Word := veWord 62 [op d, op s1, fix 8 fn, m]

/-- Format AM (R88). -/
abbrev amWord (maj : BitVec 5) (opd : Field) (p cls : BitVec 4) (l : List Field) : Word := engineWord .ae maj (opd :: op p :: op cls :: l)

/-- Format AP (R89). -/
abbrev apWord (maj : BitVec 5) (pd : BitVec 4) (ps : Field) (l : List Field) : Word := engineWord .ae maj (op pd :: ps :: l)

/-- Format CX (R92, R93). -/
abbrev cxWord (e : Engine) (maj : BitVec 5) (pa pb : BitVec 3) (pc cls : Field) (l : List Field) : Word :=
  engineWord e maj (op pa :: op pb :: pc :: cls :: l)

/-- The word of an instruction. The pointer operations stand with the AE, whose pointers are the most (R77). -/
noncomputable def word : Instr → Word
  | .add rd ra rb w => opWord 0 rd ra (op rb) (op w)
  | .sub rd ra rb w => opWord 1 rd ra (op rb) (op w)
  | .and rd ra rb => opWord 2 rd ra (op rb) (fix 1 0)
  | .or rd ra rb => opWord 3 rd ra (op rb) (fix 1 0)
  | .xor rd ra rb => opWord 4 rd ra (op rb) (fix 1 0)
  | .andn rd ra rb => opWord 5 rd ra (op rb) (fix 1 0)
  | .sll rd ra rb w => opWord 8 rd ra (op rb) (op w)
  | .srl rd ra rb w => opWord 9 rd ra (op rb) (op w)
  | .sra rd ra rb w => opWord 10 rd ra (op rb) (op w)
  | .rol rd ra rb w => opWord 11 rd ra (op rb) (op w)
  | .slt rd ra rb => opWord 16 rd ra (op rb) (fix 1 0)
  | .sltn rd ra rb => opWord 17 rd ra (op rb) (fix 1 0)
  | .min rd ra rb => opWord 18 rd ra (op rb) (fix 1 0)
  | .max rd ra rb => opWord 19 rd ra (op rb) (fix 1 0)
  | .minn rd ra rb => opWord 20 rd ra (op rb) (fix 1 0)
  | .maxn rd ra rb => opWord 21 rd ra (op rb) (fix 1 0)
  | .mul rd ra rb w => opWord 32 rd ra (op rb) (op w)
  | .mulh rd ra rb => opWord 33 rd ra (op rb) (fix 1 0)
  | .mulhn rd ra rb => opWord 34 rd ra (op rb) (fix 1 0)
  | .div rd ra rb w => opWord 36 rd ra (op rb) (op w)
  | .divn rd ra rb w => opWord 37 rd ra (op rb) (op w)
  | .rem rd ra rb w => opWord 38 rd ra (op rb) (op w)
  | .remn rd ra rb w => opWord 39 rd ra (op rb) (op w)
  | .clz rd ra w => opWord 48 rd ra (fix 5 0) (op w)
  | .ctz rd ra w => opWord 49 rd ra (fix 5 0) (op w)
  | .popc rd ra w => opWord 50 rd ra (fix 5 0) (op w)
  | .bswap rd ra w => opWord 51 rd ra (fix 5 0) (op w)
  | .sext rd ra width => scalarWord 1 [op rd, op ra, op width, fix 3 0, fix 9 52, fix 1 0]
  | .zext rd ra width => scalarWord 1 [op rd, op ra, op width, fix 3 0, fix 9 53, fix 1 0]
  | .addi rd ra imm => immWord 2 rd ra imm
  | .andi rd ra imm => immWord 3 rd ra imm
  | .ori rd ra imm => immWord 4 rd ra imm
  | .xori rd ra imm => immWord 5 rd ra imm
  | .slli rd ra amt w => shiftWord 0 rd ra amt w
  | .srli rd ra amt w => shiftWord 1 rd ra amt w
  | .srai rd ra amt w => shiftWord 2 rd ra amt w
  | .roli rd ra amt w => shiftWord 3 rd ra amt w
  | .slti rd ra imm => immWord 7 rd ra imm
  | .sltni rd ra imm => immWord 8 rd ra imm
  | .movw rd k keep imm => scalarWord 9 [op rd, op k, op keep, fix 1 0, op imm]
  | .ld rd ra cls sz off => accessWord 10 rd ra cls sz off
  | .ldn rd ra cls sz off => accessWord 11 rd ra cls sz off
  | .st rd ra cls sz off => accessWord 12 rd ra cls sz off
  | .ldx rd ra cls sz hint off => hintWord 13 rd ra cls sz 1 hint off
  | .ldxn rd ra cls sz hint off => hintWord 13 rd ra cls sz 0 hint off
  | .stx rd ra cls sz hint off => hintWord 14 rd ra cls sz 0 hint off
  | .amoadd rd ra rb cls scope ord wide => atomicWord 15 (op rd) (op ra) (op rb) cls scope ord wide
  | .amoand rd ra rb cls scope ord wide => atomicWord 16 (op rd) (op ra) (op rb) cls scope ord wide
  | .amoor rd ra rb cls scope ord wide => atomicWord 17 (op rd) (op ra) (op rb) cls scope ord wide
  | .amoxor rd ra rb cls scope ord wide => atomicWord 18 (op rd) (op ra) (op rb) cls scope ord wide
  | .amomin rd ra rb cls scope ord wide => atomicWord 19 (op rd) (op ra) (op rb) cls scope ord wide
  | .amomax rd ra rb cls scope ord wide => atomicWord 20 (op rd) (op ra) (op rb) cls scope ord wide
  | .amominn rd ra rb cls scope ord wide => atomicWord 21 (op rd) (op ra) (op rb) cls scope ord wide
  | .amomaxn rd ra rb cls scope ord wide => atomicWord 22 (op rd) (op ra) (op rb) cls scope ord wide
  | .amoswp rd ra rb cls scope ord wide => atomicWord 23 (op rd) (op ra) (op rb) cls scope ord wide
  | .cas rd ra rb cls scope ord wide => atomicWord 24 (op rd) (op ra) (op rb) cls scope ord wide
  | .ldo rd ra cls scope ord wide => atomicWord 25 (op rd) (op ra) (fix 5 0) cls scope ord wide
  | .sto ra rb cls scope ord wide => atomicWord 26 (fix 5 0) (op ra) (op rb) cls scope ord wide
  | .fenceC scope mask => scalarWord 27 [op scope, fix 6 0, op mask]
  | .fenceM mask => scalarWord 28 [op mask, fix 20 0]
  | .pubc ra rb scope => scalarWord 29 [fix 5 0, op ra, op rb, op scope, fix 7 0]
  | .cache ra rb o scope => scalarWord 30 [fix 5 0, op ra, op rb, op o, op scope, fix 5 0]
  | .beq ra rb off => immWord 32 ra rb off
  | .bne ra rb off => immWord 33 ra rb off
  | .blt ra rb off => immWord 34 ra rb off
  | .bge ra rb off => immWord 35 ra rb off
  | .bltn ra rb off => immWord 36 ra rb off
  | .bgen ra rb off => immWord 37 ra rb off
  | .jal rd off => scalarWord 38 [op rd, op off]
  | .jalr rd ra imm => immWord 39 rd ra imm
  | .enq eng ra ab give take1 take2 take3 => scalarWord 40 [op eng, op ra, op ab, op give, op take1, op take2, op take3]
  | .renq ra rb eng => scalarWord 41 [fix 5 0, op ra, op rb, op eng, fix 7 0]
  | .renqNb rd ra rb eng => scalarWord 41 [op rd, op ra, op rb, op eng, fix 7 1]
  | .twait eng => scalarWord 42 [fix 15 0, fix 3 0, op eng, fix 4 0]
  | .tsig eng => scalarWord 42 [fix 15 0, fix 3 1, op eng, fix 4 0]
  | .tcnt rd eng => scalarWord 42 [op rd, fix 10 0, fix 3 2, op eng, fix 4 0]
  | .bpop rd eng => scalarWord 43 [op rd, fix 10 0, fix 2 0, op eng, fix 5 0]
  | .bpopS rd eng => scalarWord 43 [op rd, fix 10 0, fix 2 1, op eng, fix 5 0]
  | .bpush ra eng => scalarWord 43 [fix 5 0, op ra, fix 5 0, fix 2 2, op eng, fix 5 0]
  | .spec off => scalarWord 44 [fix 5 0, op off]
  | .commit => scalarWord 45 [fix 15 0, fix 10 0]
  | .abort => scalarWord 45 [fix 15 0, fix 10 1]
  | .specq rd => scalarWord 45 [op rd, fix 10 0, fix 10 2]
  | .bara scope id => scalarWord 46 [fix 15 0, fix 2 0, op scope, op id]
  | .barw scope id => scalarWord 46 [fix 15 0, fix 2 1, op scope, op id]
  | .baraw scope id => scalarWord 46 [fix 15 0, fix 2 2, op scope, op id]
  | .pqpush ra rb scope => scalarWord 47 [fix 5 0, op ra, op rb, fix 2 0, op scope, fix 5 0]
  | .pqpop rd scope => scalarWord 47 [op rd, fix 10 0, fix 2 1, op scope, fix 5 0]
  | .pqpeek rd scope => scalarWord 47 [op rd, fix 10 0, fix 2 2, op scope, fix 5 0]
  | .rdtime rd => scalarWord 48 [op rd, fix 10 0, fix 2 0, fix 8 0]
  | .sleepu ra eng => scalarWord 48 [fix 5 0, op ra, fix 5 0, fix 2 1, op eng, fix 5 0]
  | .trap code => scalarWord 49 [fix 13 0, op code]
  | .eret => scalarWord 49 [fix 13 1024, fix 12 0]
  | .wfi => scalarWord 49 [fix 13 2048, fix 12 0]
  | .brk => scalarWord 49 [fix 13 3072, fix 12 0]
  | .rdsys rd reg => scalarWord 50 [op rd, fix 5 0, op reg, fix 3 0]
  | .wrsys ra reg => scalarWord 51 [fix 5 0, op ra, op reg, fix 3 0]
  | .wview ra view => scalarWord 52 [fix 5 0, op ra, fix 5 0, op view, fix 7 0]
  | .tdset ra id => scalarWord 53 [fix 5 0, op ra, fix 5 0, op id, fix 2 0]
  | .patch ra rb off width => scalarWord 54 [fix 5 0, op ra, op rb, op off, op width]
  | .tlbinvVa ra => scalarWord 55 [fix 5 0, op ra, fix 5 0, fix 10 0]
  | .tlbinvCtx ra => scalarWord 55 [fix 5 0, op ra, fix 5 0, fix 10 1]
  | .tlbinvAll => scalarWord 55 [fix 15 0, fix 10 2]
  | .eresume eng => scalarWord 56 [fix 15 0, fix 2 0, op eng, fix 5 0]
  | .efreeze eng => scalarWord 56 [fix 15 0, fix 2 1, op eng, fix 5 0]
  | .equery rd eng => scalarWord 56 [op rd, fix 10 0, fix 2 2, op eng, fix 5 0]
  | .cAddi rd imm => compactWord 1 [op rd, op imm]
  | .cMov rd rs => compactWord 2 [op rd, op rs, fix 1 0]
  | .cAdd rd rs => compactWord 3 [op rd, op rs, fix 1 0]
  | .cSub rd rs => compactWord 4 [op rd, op rs, fix 1 0]
  | .cLd rd off => compactWord 5 [op rd, op off]
  | .cSt rd off => compactWord 6 [op rd, op off]
  | .cBeqz ra off => compactWord 7 [op ra, op off]
  | .cBnez ra off => compactWord 8 [op ra, op off]
  | .cJ off => compactWord 9 [op off]
  | .cSlli rd amt => compactWord 10 [op rd, op amt]
  | .cSrli rd amt => compactWord 11 [op rd, op amt]
  | .cAndi rd imm => compactWord 12 [op rd, op imm]
  | .cRet => compactWord 13 [fix 11 0]
  | .cTwait eng => compactWord 14 [op eng, fix 8 0]
  | .nop => controlWord 1 [fix 11 0]
  | .bexit tgt => controlWord 2 [op tgt, fix 8 0]
  | .bskip tgt cnt => controlWord 3 [op tgt, op cnt]
  | .stop => controlWord 4 [fix 11 0]
  | .bpushm tgt msk summary => controlWord 5 [op tgt, op msk, op summary, fix 3 0]
  | .vmsel msk => controlWord 6 [op msk, fix 8 0]
  | .rot view => controlWord 7 [op view, fix 8 0]
  | .vadd d s1 s2 m => v3Word 0 d s1 s2 (op m)
  | .vsub d s1 s2 m => v3Word 1 d s1 s2 (op m)
  | .vmul d s1 s2 m => v3Word 2 d s1 s2 (op m)
  | .vfma d s1 s2 m => v3Word 3 d s1 s2 (op m)
  | .vfms d s1 s2 m => v3Word 4 d s1 s2 (op m)
  | .vmin d s1 s2 m => v3Word 5 d s1 s2 (op m)
  | .vmax d s1 s2 m => v3Word 6 d s1 s2 (op m)
  | .vand d s1 s2 m => v3Word 7 d s1 s2 (op m)
  | .vor d s1 s2 m => v3Word 8 d s1 s2 (op m)
  | .vxor d s1 s2 m => v3Word 9 d s1 s2 (op m)
  | .vshl d s1 s2 m => v3Word 10 d s1 s2 (op m)
  | .vshr d s1 s2 m => v3Word 11 d s1 s2 (op m)
  | .vadds d s1 s2 m => v3Word 12 d s1 s2 (op m)
  | .vsubs d s1 s2 m => v3Word 13 d s1 s2 (op m)
  | .vmulh d s1 s2 m => v3Word 14 d s1 s2 (op m)
  | .vabsd d s1 s2 m => v3Word 15 d s1 s2 (op m)
  | .vcmpeq d s1 s2 m => veWord 16 [op d, fix 5 0, op s1, op s2, op m]
  | .vcmpne d s1 s2 m => veWord 17 [op d, fix 5 0, op s1, op s2, op m]
  | .vcmplt d s1 s2 m => veWord 18 [op d, fix 5 0, op s1, op s2, op m]
  | .vcmple d s1 s2 m => veWord 19 [op d, fix 5 0, op s1, op s2, op m]
  | .vsel d s1 s2 => v3Word 20 d s1 s2 (fix 1 0)
  | .vperm d s1 s2 m => v3Word 21 d s1 s2 (op m)
  | .vdot4 d s1 s2 m => v3Word 22 d s1 s2 (op m)
  | .vlut d s1 s2 m => v3Word 23 d s1 s2 (op m)
  | .vscl d s1 s2 m => v3Word 24 d s1 s2 (op m)
  | .vmand d s1 s2 => veWord 25 [op d, fix 5 0, op s1, fix 5 0, op s2, fix 6 0]
  | .vmor d s1 s2 => veWord 26 [op d, fix 5 0, op s1, fix 5 0, op s2, fix 6 0]
  | .vmxor d s1 s2 => veWord 27 [op d, fix 5 0, op s1, fix 5 0, op s2, fix 6 0]
  | .vmov d s1 m => vxWord 0 d s1 (op m)
  | .vneg d s1 m => vxWord 1 d s1 (op m)
  | .vabs d s1 m => vxWord 2 d s1 (op m)
  | .vnot d s1 m => vxWord 3 d s1 (op m)
  | .vcvt d s1 m => vxWord 4 d s1 (op m)
  | .vcvtd d s1 => vxWord 5 d s1 (fix 1 0)
  | .vcvtu d s1 m => vxWord 6 d s1 (op m)
  | .vrnd d s1 m => vxWord 7 d s1 (op m)
  | .vexp2 d s1 m => vxWord 8 d s1 (op m)
  | .vlog2 d s1 m => vxWord 9 d s1 (op m)
  | .vexp d s1 m => vxWord 10 d s1 (op m)
  | .vrcp d s1 m => vxWord 11 d s1 (op m)
  | .vrsq d s1 m => vxWord 12 d s1 (op m)
  | .vsqrt d s1 m => vxWord 13 d s1 (op m)
  | .vsig d s1 m => vxWord 14 d s1 (op m)
  | .vtanh d s1 m => vxWord 15 d s1 (op m)
  | .vrdsum d s1 m => vxWord 16 d s1 (op m)
  | .vrdmax d s1 m => vxWord 17 d s1 (op m)
  | .vrdmin d s1 m => vxWord 18 d s1 (op m)
  | .vpopc d s1 m => vxWord 19 d s1 (op m)
  | .vclz d s1 m => vxWord 20 d s1 (op m)
  | .vbcast d s1 m => vxWord 21 d s1 (op m)
  | .vmnot d s1 => veWord 62 [op d, fix 5 0, op s1, fix 5 0, fix 8 22, fix 1 0]
  | .vmcnt d s1 m => veWord 62 [op d, op s1, fix 5 0, fix 8 23, op m]
  | .viota d m => veWord 62 [op d, fix 8 212, fix 8 24, op m]
  | .vmode mode => veWord 62 [fix 8 0, op mode, fix 4 0, fix 8 25, fix 1 0]
  | .scset d s1 => vxWord 64 d s1 (fix 1 0)
  | .scadde d s1 => vxWord 65 d s1 (fix 1 0)
  | .scmax d s1 => vxWord 66 d s1 (fix 1 0)
  | .scmin d s1 => vxWord 67 d s1 (fix 1 0)
  | .scmov d s1 => vxWord 68 d s1 (fix 1 0)
  | .scbind d s1 => vxWord 69 d s1 (fix 1 0)
  | .scunb d => veWord 62 [op d, fix 8 212, fix 8 70, fix 1 0]
  | .scrd d s1 => vxWord 71 d s1 (fix 1 0)
  | .scwr d s1 => vxWord 72 d s1 (fix 1 0)
  | .scnew d => veWord 62 [op d, fix 8 212, fix 8 73, fix 1 0]
  | .vmovi d imm m => veWord 63 [op d, op imm, op m]
  | .ldv opd p cls imm => amWord 1 (op opd) p cls [op imm]
  | .stv opd p cls imm => amWord 2 (op opd) p cls [op imm]
  | .lds opd p cls imm => amWord 3 (op opd) p cls [op imm]
  | .sts opd p cls imm => amWord 4 (op opd) p cls [op imm]
  | .gath opd p cls idx size zp => amWord 5 (op opd) p cls [op idx, op size, op zp, fix 3 0]
  | .scat opd p cls idx size => amWord 6 (op opd) p cls [op idx, op size, fix 4 0]
  | .ldt opd p cls id => amWord 7 (op opd) p cls [op id, fix 2 0]
  | .stt opd p cls id => amWord 8 (op opd) p cls [op id, fix 2 0]
  | .ldi pd size p cls imm => engineWord .ae 9 [op pd, op size, fix 2 0, op p, op cls, op imm]
  | .pref p cls imm => amWord 10 (fix 8 0) p cls [op imm]
  | .srchk opd p cls cols k => amWord 11 (op opd) p cls [op cols, op k]
  | .hist opd p cls experts => amWord 12 (op opd) p cls [op experts, fix 2 0]
  | .atoms opd p cls o => amWord 13 (op opd) p cls [op o, fix 7 0]
  | .spillp opd p cls => amWord 14 (op opd) p cls [fix 10 0]
  | .fillp opd p cls => amWord 15 (op opd) p cls [fix 10 0]
  | .paddi pd ps imm => apWord 16 pd (op ps) [op imm]
  | .padd pd ps => apWord 17 pd (op ps) [fix 18 0]
  | .pmovi pd imm => apWord 18 pd (fix 4 0) [op imm]
  | .pmova pd arg => apWord 19 pd (fix 4 0) [op arg, fix 16 0]
  | .pmuli pd ps imm => apWord 20 pd (op ps) [op imm]
  | .pcmp ps pt cond tgt => engineWord .ae 21 [op ps, op pt, op cond, op tgt, fix 12 0]
  | .mmul acc src q n rows z sc => engineWord .me 1 [op acc, op src, op q, op n, op rows, op z, op sc]
  | .mfill q reps => engineWord .me 2 [op q, op reps, fix 20 0]
  | .mpin q => engineWord .me 3 [op q, fix 23 0]
  | .munpin q => engineWord .me 4 [op q, fix 23 0]
  | .minv q => engineWord .me 5 [op q, fix 23 0]
  | .mqry q tgt => engineWord .me 6 [op q, fix 3 0, op tgt, fix 17 0]
  | .lrel => engineWord .me 7 [fix 26 0]
  | .mclr acc => engineWord .me 8 [op acc, fix 22 0]
  | .mqset q id arg grow => engineWord .me 9 [op q, fix 3 0, op id, op arg, op grow, fix 9 0]
  | .mqadd q k => engineWord .me 10 [op q, fix 3 0, op k]
  | .mstat acc => engineWord .me 11 [op acc, fix 22 0]
  | .cpy pa pb pc cls dspace sspace => cxWord .ce 1 pa pb (op pc) (op cls) [op dspace, op sspace, fix 9 0]
  | .cpyt pa pb pc cls id => cxWord .ce 2 pa pb (op pc) (op cls) [op id, fix 5 0]
  | .cpyacc pa pb cls acc ty => cxWord .ce 3 pa pb (fix 3 0) (op cls) [op acc, op ty, fix 5 0]
  | .fill pa pb pc cls dspace esz => cxWord .ce 4 pa pb (op pc) (op cls) [op dspace, op esz, fix 9 0]
  | .etch pa pb pc ch => cxWord .ce 5 pa pb (op pc) (fix 4 0) [op ch, fix 4 0]
  | .roundo id => engineWord .ce 6 [fix 13 0, op id, fix 9 0]
  | .roundc id => engineWord .ce 7 [fix 13 0, op id, fix 9 0]
  | .xput pa pb pc cls dev => cxWord .xe 1 pa pb (op pc) (op cls) [op dev, fix 3 0]
  | .xget pa pb pc cls dev => cxWord .xe 2 pa pb (op pc) (op cls) [op dev, fix 3 0]
  | .xred pa pb pc cls dev o => cxWord .xe 3 pa pb (op pc) (op cls) [op dev, op o]
  | .xsig pa pb cls dev => cxWord .xe 4 pa pb (fix 3 0) (op cls) [op dev, fix 3 0]
  | .xsend pa pb pc cls tgt => cxWord .xe 5 pa pb (op pc) (op cls) [op tgt, fix 5 0]
  | .xadm pa pb pc => engineWord .xe 6 [op pa, op pb, op pc, fix 17 0]
  | .xrefq pa pb => engineWord .xe 7 [op pa, op pb, fix 20 0]
  | .xwait pa pb cond => engineWord .xe 8 [op pa, op pb, fix 7 0, op cond, fix 11 0]
  | .entryStart .. | .repetitionEnd .. | .entryComplete .. | .veWriteLand .. | .dataQueueArrival .. | .aeLoadReturn ..
  | .ldiDataReturn .. | .scratchpadAccessComplete .. | .sleepuWake .. | .queueWaitResume .. | .checkResolve ..
  | .asyncTrapEntry .. | .parkWake .. | .pageReclassify .. | .leaseGrant .. | .leaseRunEnd .. | .plateFillComplete ..
  | .mmulComplete .. | .gets .. | .getm .. | .putm .. | .inv .. | .invack .. | .fwdS .. | .fwdM .. | .data .. | .replacement ..
  | .create .. | .start .. | .destroy .. | .scrubComplete .. | .freeze .. | .freezeComplete .. | .resume .. | .restore ..
  | .snapdataAccess .. | .graphaddrWrite .. | .triggerWrite .. | .launchRegisterWrite .. | .groupPlace .. | .quantumExpiry ..
  | .coreExit .. | .groupFail .. | .launchEnd .. | .completionInterrupt .. | .rowArrival .. | .sendAnswer .. | .refusalArrival ..
  | .etchUnitRun .. | .etchYield .. | .roundAck .. | .remoteAccess .. | .remoteAck .. | .flitReceive .. | .replayRequest ..
  | .laneFailure .. | .trainComplete .. | .linkStart .. | .linkStop .. | .startSequence .. | .minimalModeRetry ..
  | .thermalTrip .. | .attestationRequest .. | .worldqWrite .. | .worldrWrite .. | .worlduWrite .. | .debugstWrite .. | .quadP1 ..
  | .quadP2 .. | .quadWake .. | .dieSleep .. | .dieWake .. | .fnpolicyWrite .. | .plmaskWrite .. | .pltagWrite ..
  | .estateWrite .. | .vmodeWrite .. | .viewWordWrite .. | .apertureRead .. | .apertureWrite .. | .illegalInstruction ..
  | .fetchFault .. | .hostLinkCompletion .. | .debugAccess .. | .watchdog .. | .podJob .. | .quadP0 .. => ⟨.event, []⟩

/-! ### The decoders' tables (R65-R93) -/

/-- A row of a decoder: the instruction that it reads. -/
abbrev Row := Operands → Instr

/-- A row without operands. -/
def row0 (i : Instr) : Row := fun _ => i

section
variable {a b c d e f g : Nat}

/-- A row with one operand, at its position. -/
def row1 (i : BitVec a → Instr) (p : Nat) : Row := fun ρ => i (ρ p a)

def row2 (i : BitVec a → BitVec b → Instr) (p q : Nat) : Row := fun ρ => i (ρ p a) (ρ q b)

def row3 (i : BitVec a → BitVec b → BitVec c → Instr) (p q r : Nat) : Row := fun ρ => i (ρ p a) (ρ q b) (ρ r c)

def row4 (i : BitVec a → BitVec b → BitVec c → BitVec d → Instr) (p q r s : Nat) : Row :=
  fun ρ => i (ρ p a) (ρ q b) (ρ r c) (ρ s d)

def row5 (i : BitVec a → BitVec b → BitVec c → BitVec d → BitVec e → Instr) (p q r s t : Nat) : Row :=
  fun ρ => i (ρ p a) (ρ q b) (ρ r c) (ρ s d) (ρ t e)

def row6 (i : BitVec a → BitVec b → BitVec c → BitVec d → BitVec e → BitVec f → Instr) (p q r s t u : Nat) : Row :=
  fun ρ => i (ρ p a) (ρ q b) (ρ r c) (ρ s d) (ρ t e) (ρ u f)

def row7 (i : BitVec a → BitVec b → BitVec c → BitVec d → BitVec e → BitVec f → BitVec g → Instr) (p q r s t u v : Nat) : Row :=
  fun ρ => i (ρ p a) (ρ q b) (ρ r c) (ρ s d) (ρ t e) (ρ u f) (ρ v g)

end

/-- What an opcode selects: a row, or the rows that differ in `n` bits from bit `lo` on. -/
inductive Cell where
  | one (r : Row)
  | sub (lo n : Nat) (l : List (Nat × Row))

noncomputable def sqTable : List (Nat × Cell) := [
  (1, .sub 22 9 [
    (0, row4 .add 7 12 17 31), (1, row4 .sub 7 12 17 31), (2, row3 .and 7 12 17), (3, row3 .or 7 12 17), (4, row3 .xor 7 12 17),
    (5, row3 .andn 7 12 17), (8, row4 .sll 7 12 17 31), (9, row4 .srl 7 12 17 31), (10, row4 .sra 7 12 17 31), (11, row4 .rol 7 12 17 31),
    (16, row3 .slt 7 12 17), (17, row3 .sltn 7 12 17), (18, row3 .min 7 12 17), (19, row3 .max 7 12 17), (20, row3 .minn 7 12 17),
    (21, row3 .maxn 7 12 17), (32, row4 .mul 7 12 17 31), (33, row3 .mulh 7 12 17), (34, row3 .mulhn 7 12 17), (36, row4 .div 7 12 17 31),
    (37, row4 .divn 7 12 17 31), (38, row4 .rem 7 12 17 31), (39, row4 .remn 7 12 17 31), (48, row3 .clz 7 12 31), (49, row3 .ctz 7 12 31),
    (50, row3 .popc 7 12 31), (51, row3 .bswap 7 12 31), (52, row3 .sext 7 12 17), (53, row3 .zext 7 12 17)]),
  (2, .one (row3 .addi 7 12 17)), (3, .one (row3 .andi 7 12 17)), (4, .one (row3 .ori 7 12 17)), (5, .one (row3 .xori 7 12 17)),
  (6, .sub 24 8 [
    (0, row4 .slli 7 12 17 23), (1, row4 .srli 7 12 17 23), (2, row4 .srai 7 12 17 23), (3, row4 .roli 7 12 17 23)]),
  (7, .one (row3 .slti 7 12 17)), (8, .one (row3 .sltni 7 12 17)), (9, .one (row4 .movw 7 12 14 16)), (10, .one (row5 .ld 7 12 17 21 23)),
  (11, .one (row5 .ldn 7 12 17 21 23)), (12, .one (row5 .st 7 12 17 21 23)),
  (13, .sub 23 1 [
    (0, row6 .ldxn 7 12 17 21 24 26), (1, row6 .ldx 7 12 17 21 24 26)]),
  (14, .one (row6 .stx 7 12 17 21 24 26)), (15, .one (row7 .amoadd 7 12 17 22 26 29 31)), (16, .one (row7 .amoand 7 12 17 22 26 29 31)),
  (17, .one (row7 .amoor 7 12 17 22 26 29 31)), (18, .one (row7 .amoxor 7 12 17 22 26 29 31)),
  (19, .one (row7 .amomin 7 12 17 22 26 29 31)), (20, .one (row7 .amomax 7 12 17 22 26 29 31)),
  (21, .one (row7 .amominn 7 12 17 22 26 29 31)), (22, .one (row7 .amomaxn 7 12 17 22 26 29 31)),
  (23, .one (row7 .amoswp 7 12 17 22 26 29 31)), (24, .one (row7 .cas 7 12 17 22 26 29 31)), (25, .one (row6 .ldo 7 12 22 26 29 31)),
  (26, .one (row6 .sto 12 17 22 26 29 31)), (27, .one (row2 .fenceC 7 16)), (28, .one (row1 .fenceM 7)), (29, .one (row3 .pubc 12 17 22)),
  (30, .one (row4 .cache 12 17 22 24)), (32, .one (row3 .beq 7 12 17)), (33, .one (row3 .bne 7 12 17)), (34, .one (row3 .blt 7 12 17)),
  (35, .one (row3 .bge 7 12 17)), (36, .one (row3 .bltn 7 12 17)), (37, .one (row3 .bgen 7 12 17)), (38, .one (row2 .jal 7 12)),
  (39, .one (row3 .jalr 7 12 17)), (40, .one (row7 .enq 7 10 15 20 23 26 29)),
  (41, .sub 25 7 [
    (0, row3 .renq 12 17 22), (1, row4 .renqNb 7 12 17 22)]),
  (42, .sub 22 3 [
    (0, row1 .twait 25), (1, row1 .tsig 25), (2, row2 .tcnt 7 25)]),
  (43, .sub 22 2 [
    (0, row2 .bpop 7 24), (1, row2 .bpopS 7 24), (2, row2 .bpush 12 24)]),
  (44, .one (row1 .spec 12)),
  (45, .sub 22 10 [
    (0, row0 .commit), (1, row0 .abort), (2, row1 .specq 7)]),
  (46, .sub 22 2 [
    (0, row2 .bara 24 27), (1, row2 .barw 24 27), (2, row2 .baraw 24 27)]),
  (47, .sub 22 2 [
    (0, row3 .pqpush 12 17 24), (1, row2 .pqpop 7 24), (2, row2 .pqpeek 7 24)]),
  (48, .sub 22 2 [
    (0, row1 .rdtime 7), (1, row2 .sleepu 12 24)]),
  (49, .sub 7 13 [
    (0, row1 .trap 20), (1024, row0 .eret), (2048, row0 .wfi), (3072, row0 .brk)]),
  (50, .one (row2 .rdsys 7 17)), (51, .one (row2 .wrsys 12 17)), (52, .one (row2 .wview 12 22)), (53, .one (row2 .tdset 12 22)),
  (54, .one (row4 .patch 12 17 22 27)),
  (55, .sub 22 10 [
    (0, row1 .tlbinvVa 12), (1, row1 .tlbinvCtx 12), (2, row0 .tlbinvAll)]),
  (56, .sub 22 2 [
    (0, row1 .eresume 24), (1, row1 .efreeze 24), (2, row2 .equery 7 24)])]

noncomputable def compactTable : List (Nat × Cell) := [
  (1, .one (row2 .cAddi 5 10)), (2, .one (row2 .cMov 5 10)), (3, .one (row2 .cAdd 5 10)), (4, .one (row2 .cSub 5 10)),
  (5, .one (row2 .cLd 5 10)), (6, .one (row2 .cSt 5 10)), (7, .one (row2 .cBeqz 5 10)), (8, .one (row2 .cBnez 5 10)),
  (9, .one (row1 .cJ 5)), (10, .one (row2 .cSlli 5 10)), (11, .one (row2 .cSrli 5 10)), (12, .one (row2 .cAndi 5 10)),
  (13, .one (row0 .cRet)), (14, .one (row1 .cTwait 5))]

noncomputable def controlTable : List (Nat × Cell) := [
  (1, .one (row0 .nop)), (2, .one (row1 .bexit 5)), (3, .one (row2 .bskip 5 8)), (4, .one (row0 .stop)), (5, .one (row3 .bpushm 5 8 11)),
  (6, .one (row1 .vmsel 5)), (7, .one (row1 .rot 5))]

noncomputable def veTable : List (Nat × Cell) := [
  (0, .one (row4 .vadd 7 15 23 31)), (1, .one (row4 .vsub 7 15 23 31)), (2, .one (row4 .vmul 7 15 23 31)),
  (3, .one (row4 .vfma 7 15 23 31)), (4, .one (row4 .vfms 7 15 23 31)), (5, .one (row4 .vmin 7 15 23 31)),
  (6, .one (row4 .vmax 7 15 23 31)), (7, .one (row4 .vand 7 15 23 31)), (8, .one (row4 .vor 7 15 23 31)), (9, .one (row4 .vxor 7 15 23 31)),
  (10, .one (row4 .vshl 7 15 23 31)), (11, .one (row4 .vshr 7 15 23 31)), (12, .one (row4 .vadds 7 15 23 31)),
  (13, .one (row4 .vsubs 7 15 23 31)), (14, .one (row4 .vmulh 7 15 23 31)), (15, .one (row4 .vabsd 7 15 23 31)),
  (16, .one (row4 .vcmpeq 7 15 23 31)), (17, .one (row4 .vcmpne 7 15 23 31)), (18, .one (row4 .vcmplt 7 15 23 31)),
  (19, .one (row4 .vcmple 7 15 23 31)), (20, .one (row3 .vsel 7 15 23)), (21, .one (row4 .vperm 7 15 23 31)),
  (22, .one (row4 .vdot4 7 15 23 31)), (23, .one (row4 .vlut 7 15 23 31)), (24, .one (row4 .vscl 7 15 23 31)),
  (25, .one (row3 .vmand 7 15 23)), (26, .one (row3 .vmor 7 15 23)), (27, .one (row3 .vmxor 7 15 23)),
  (62, .sub 23 8 [
    (0, row3 .vmov 7 15 31), (1, row3 .vneg 7 15 31), (2, row3 .vabs 7 15 31), (3, row3 .vnot 7 15 31), (4, row3 .vcvt 7 15 31),
    (5, row2 .vcvtd 7 15), (6, row3 .vcvtu 7 15 31), (7, row3 .vrnd 7 15 31), (8, row3 .vexp2 7 15 31), (9, row3 .vlog2 7 15 31),
    (10, row3 .vexp 7 15 31), (11, row3 .vrcp 7 15 31), (12, row3 .vrsq 7 15 31), (13, row3 .vsqrt 7 15 31), (14, row3 .vsig 7 15 31),
    (15, row3 .vtanh 7 15 31), (16, row3 .vrdsum 7 15 31), (17, row3 .vrdmax 7 15 31), (18, row3 .vrdmin 7 15 31),
    (19, row3 .vpopc 7 15 31), (20, row3 .vclz 7 15 31), (21, row3 .vbcast 7 15 31), (22, row2 .vmnot 7 15), (23, row3 .vmcnt 7 15 31),
    (24, row2 .viota 7 31), (25, row1 .vmode 15), (64, row2 .scset 7 15), (65, row2 .scadde 7 15), (66, row2 .scmax 7 15),
    (67, row2 .scmin 7 15), (68, row2 .scmov 7 15), (69, row2 .scbind 7 15), (70, row1 .scunb 7), (71, row2 .scrd 7 15),
    (72, row2 .scwr 7 15), (73, row1 .scnew 7)]),
  (63, .one (row3 .vmovi 7 15 31))]

noncomputable def aeTable : List (Nat × Cell) := [
  (1, .one (row4 .ldv 6 14 18 22)), (2, .one (row4 .stv 6 14 18 22)), (3, .one (row4 .lds 6 14 18 22)), (4, .one (row4 .sts 6 14 18 22)),
  (5, .one (row6 .gath 6 14 18 22 26 28)), (6, .one (row5 .scat 6 14 18 22 26)), (7, .one (row4 .ldt 6 14 18 22)),
  (8, .one (row4 .stt 6 14 18 22)), (9, .one (row5 .ldi 6 10 14 18 22)), (10, .one (row3 .pref 14 18 22)),
  (11, .one (row5 .srchk 6 14 18 22 30)), (12, .one (row4 .hist 6 14 18 22)), (13, .one (row4 .atoms 6 14 18 22)),
  (14, .one (row3 .spillp 6 14 18)), (15, .one (row3 .fillp 6 14 18)), (16, .one (row3 .paddi 6 10 14)), (17, .one (row2 .padd 6 10)),
  (18, .one (row2 .pmovi 6 14)), (19, .one (row2 .pmova 6 14)), (20, .one (row3 .pmuli 6 10 14)), (21, .one (row4 .pcmp 6 10 14 17))]

noncomputable def meTable : List (Nat × Cell) := [
  (1, .one (row7 .mmul 6 10 18 21 23 30 31)), (2, .one (row2 .mfill 6 9)), (3, .one (row1 .mpin 6)), (4, .one (row1 .munpin 6)),
  (5, .one (row1 .minv 6)), (6, .one (row2 .mqry 6 12)), (7, .one (row0 .lrel)), (8, .one (row1 .mclr 6)),
  (9, .one (row4 .mqset 6 12 20 22)), (10, .one (row2 .mqadd 6 12)), (11, .one (row1 .mstat 6))]

noncomputable def pointerTable : List (Nat × Cell) := [
  (16, .one (row3 .paddi 6 10 14)), (17, .one (row2 .padd 6 10)), (18, .one (row2 .pmovi 6 14)), (19, .one (row2 .pmova 6 14)),
  (20, .one (row3 .pmuli 6 10 14))]

noncomputable def ceTable : List (Nat × Cell) := [
  (1, .one (row6 .cpy 6 9 12 15 19 21)), (2, .one (row5 .cpyt 6 9 12 15 19)), (3, .one (row5 .cpyacc 6 9 15 19 23)),
  (4, .one (row6 .fill 6 9 12 15 19 21)), (5, .one (row4 .etch 6 9 12 19)), (6, .one (row1 .roundo 19)), (7, .one (row1 .roundc 19))]

noncomputable def xeTable : List (Nat × Cell) := [
  (1, .one (row5 .xput 6 9 12 15 19)), (2, .one (row5 .xget 6 9 12 15 19)), (3, .one (row6 .xred 6 9 12 15 19 29)),
  (4, .one (row4 .xsig 6 9 15 19)), (5, .one (row5 .xsend 6 9 12 15 19)), (6, .one (row3 .xadm 6 9 12)), (7, .one (row2 .xrefq 6 9)),
  (8, .one (row3 .xwait 6 9 19))]

/-- The rows of the decoder; the CE and the XE have the pointer operations too (R77). -/
noncomputable def Home.table : Home → List (Nat × Cell)
  | .sq => sqTable
  | .compact => compactTable
  | .control => controlTable
  | .own .ve => veTable
  | .own .ae => aeTable
  | .own .me => meTable
  | .own .ce => ceTable ++ pointerTable
  | .own .xe => xeTable ++ pointerTable
  | .event => []

/-- The decoder's function. -/
def Home.raw : Home → Nat → Option Instr
  | .sq => rawSq
  | .compact => rawCompact
  | .control => rawControl
  | .own e => rawEngine e
  | .event => fun _ => none

/-- Bit 0 of the decoder's words (R56). -/
def Home.lengthBit : Home → Nat
  | .sq | .own _ => 1
  | .compact | .control | .event => 0

/-- The length of the decoder's words (R56). -/
def Home.bits : Home → Nat
  | .sq | .own _ => 32
  | .compact | .control => 16
  | .event => 0

/-- How many bits the decoder's opcode has. -/
def Home.opcode : Home → Nat
  | .sq | .own .ve => 6
  | .compact | .control => 4
  | .own _ => 5
  | .event => 0

/-! ### Reading by a table -/

/-- The fields of a row's word; its operands do not matter. -/
noncomputable def shape (r : Row) : List Field := (word (r fun _ n => 0#n)).fields

/-- A selection by a number, as Lean compiles a match on literals. -/
def pick {α : Type} (x : Nat) : List (Nat × α) → α → α
  | [], d => d
  | (k, a) :: l, d => dite (x = k) (Eq.ndrec_symm (motive := fun _ => α) a) fun _ => pick x l d

/-- The word has these bits. -/
def Has (w : Nat) : List (Nat × Nat × Nat) → Prop
  | [] => True
  | [z] => seg w z.1 z.2.1 = z.2.2
  | z :: y :: l => seg w z.1 z.2.1 = z.2.2 ∧ Has w (y :: l)

def Has.decide (w : Nat) : (l : List (Nat × Nat × Nat)) → Decidable (Has w l)
  | [] => instDecidableTrue
  | [z] => instDecidableEqNat (seg w z.1 z.2.1) z.2.2
  | z :: y :: l => @instDecidableAnd _ _ (instDecidableEqNat (seg w z.1 z.2.1) z.2.2) (Has.decide w (y :: l))

/-- The bits that a decoder checks once the opcode and the bits at `lo` have selected the row. -/
noncomputable def checks (lo : Nat) (r : Row) : List (Nat × Nat × Nat) := ((fixes 0 (shape r)).drop 2).filter fun z => !Nat.beq z.1 lo

/-- A row reads a word that has the bits `l`. -/
def accept (w : Nat) (r : Row) : List (Nat × Nat × Nat) → Option Instr
  | [] => some (r (bits w))
  | z :: l => @ite _ (Has w (z :: l)) (Has.decide w (z :: l)) (some (r (bits w))) none

noncomputable def Cell.eval (w : Nat) : Cell → Option Instr
  | .one r => accept w r (checks 0 r)
  | .sub lo n l => pick (seg w lo n) (l.map fun r => (r.1, accept w r.2 (checks lo r.2))) none

section
set_option smartUnfolding false

/-- The decoders read by their tables: a match on literals unfolds to the selections that `pick` writes out. -/
theorem raw_eq (d : Home) (w : Nat) : d.raw w = pick (seg w 1 d.opcode) (d.table.map fun c => (c.1, c.2.eval w)) none := by
  rcases d with _ | _ | _ | ⟨_ | _ | _ | _ | _⟩ | _
  all_goals rfl

end

/-- The rows of a cell that opcode `k` selects, each with the bits by which the decoder comes to it. -/
noncomputable def Cell.reads (n k : Nat) : Cell → List (Row × List (Nat × Nat × Nat))
  | .one r => [(r, (1, n, k) :: checks 0 r)]
  | .sub lo m l => l.map fun r => (r.2, (1, n, k) :: (lo, m, r.1) :: checks lo r.2)

noncomputable def Home.reads (d : Home) : List (Row × List (Nat × Nat × Nat)) := d.table.flatMap fun c => c.2.reads d.opcode c.1

/-- The row that the fixed bits of a word select, and the position of the bits that select it within its cell. -/
noncomputable def Word.row (x : Word) : Option (Nat × Row) :=
  match (fixed 0 x.fields 1 x.home.opcode).bind (x.home.table.lookup ·) with
  | none => none
  | some (.one r) => some (0, r)
  | some (.sub lo n l) => ((fixed 0 x.fields lo n).bind (l.lookup ·)).map fun r => (lo, r)

/-- The fields fix these bits. -/
def fixesAll (fs : List Field) (l : List (Nat × Nat × Nat)) : Bool :=
  l.all fun z => match fixed 0 fs z.1 z.2.1 with | none => false | some k => k.beq z.2.2

/-- The instruction that a decoder reads, of a word's fields alone. -/
noncomputable def Word.read (ρ : Operands) (x : Word) : Option Instr :=
  match x.row with
  | none => none
  | some (lo, r) => bif fixesAll x.fields (checks lo r) then some (r (operands ρ 0 x.fields)) else none

/-- The check of R70 and R77 by the engine whose word it is. -/
def Home.defect (d : Home) (i : Instr) : Option Reject :=
  match d with
  | .own e => i.defectOn e
  | _ => none

/-- The model encodes by the tables, and a decoder finds the row of the word. Each instruction is a lemma of its own, so that the kernel
forgets what it has unfolded before it comes to the next. -/
theorem word_spec (i : Instr) (ρ : Operands) :
    ((word i).read ρ, sum (word i).fields 0 0 (word i).fields, width (word i).fields, (word i).home.bits, (word i).home.defect i) =
      ((if wordBits i = 0 then none else some i), encode i, wordBits i, wordBits i, none) := by
  cases i <;> as_aux_lemma => rfl

/-- A row's instruction has the fields of the row, with the operands it is given. -/
theorem row_fields (d : Home) (ρ : Operands) :
    (d.reads.map fun p => (word (p.1 ρ)).fields) = d.reads.map fun p => fill ρ 0 (shape p.1) := by
  rcases d with _ | _ | _ | ⟨_ | _ | _ | _ | _⟩ | _
  all_goals rfl

/-- A row's word has its decoder's length, and bits that it fixes are checked on the way to the row. -/
theorem row_checked (d : Home) : (d.reads.all fun p => (width (shape p.1)).beq d.bits &&
    (fixes 0 (shape p.1)).all fun z => ((0, 1, d.lengthBit) :: p.2).contains z) = true := by
  rcases d with _ | _ | _ | ⟨_ | _ | _ | _ | _⟩ | _
  all_goals decide +kernel

/-! ### Words and their fields -/

theorem Field.val_lt (f : Field) : f.val < 2 ^ f.width := by
  cases f with
  | fix n k => exact k.isLt
  | op v => exact v.isLt

theorem toNat_bits (w lo n : Nat) : (bits w lo n).toNat = seg w lo n := BitVec.toNat_ofNat ..

theorem bits_eq_of_seg {w lo n : Nat} {v : BitVec n} (h : seg w lo n = v.toNat) : bits w lo n = v :=
  BitVec.eq_of_toNat_eq ((toNat_bits w lo n).trans h)

theorem seg_add (w lo a b : Nat) : seg w lo (a + b) = seg w lo a + 2 ^ a * seg w (lo + a) b := by
  simp only [seg, pow_add, Nat.mod_mul, Nat.div_div_eq_div_mul]

/-- A word that reads as the fields is the word that holds them. -/
theorem seg_of_reads {w n lo : Nat} {l : List Field} (h : Reads w n lo l) : lo + width l = n ∧ seg w lo (width l) = pack l := by
  induction l generalizing lo with
  | nil => exact ⟨h, Nat.mod_one _⟩
  | cons f l ih =>
    obtain ⟨hf, hl⟩ := h
    obtain ⟨hend, hseg⟩ := ih hl
    exact ⟨by rw [width, ← Nat.add_assoc, hend], by rw [width, seg_add, hf, hseg, pack]⟩

/-- The word that holds the fields reads as them. -/
theorem reads_pack {a lo : Nat} (l : List Field) (ha : a < 2 ^ lo) : Reads (a + 2 ^ lo * pack l) (lo + width l) lo l := by
  induction l generalizing a lo with
  | nil => rfl
  | cons f l ih =>
    have hword : a + 2 ^ lo * pack (f :: l) = (a + 2 ^ lo * f.val) + 2 ^ (lo + f.width) * pack l := by
      rw [pack, pow_add]; ring
    have hlow : a + 2 ^ lo * f.val < 2 ^ (lo + f.width) := by
      rw [pow_add]
      calc a + 2 ^ lo * f.val < 2 ^ lo * (f.val + 1) := by rw [Nat.mul_succ]; omega
        _ ≤ 2 ^ lo * 2 ^ f.width := Nat.mul_le_mul_left _ f.val_lt
    refine ⟨?_, ?_⟩
    · rw [seg, Nat.add_mul_div_left _ _ (Nat.two_pow_pos lo), Nat.div_eq_of_lt ha, Nat.zero_add, pack, Nat.add_mul_mod_self_left,
        Nat.mod_eq_of_lt f.val_lt]
    · rw [hword, width, ← Nat.add_assoc]
      exact ih hlow

theorem addOps_add (p a : Nat) (l : List Field) : addOps p a l = addOps p 0 l + a := by
  induction l generalizing p a with
  | nil => exact (Nat.zero_add a).symm
  | cons f l ih =>
    cases f with
    | fix m k => exact ih (p + m) a
    | op v => rw [addOps, addOps, ih, ih (a := 0 + _)]; omega

theorem sum_add_addOps (fs : List Field) (p a : Nat) (l : List Field) :
    sum fs p a l + addOps p 0 l = addOps 0 0 fs + a + 2 ^ p * pack l := by
  induction l generalizing p a with
  | nil => rw [sum, addOps_add, addOps, pack, Nat.mul_zero]
  | cons f l ih =>
    cases f with
    | fix m k =>
      rw [sum, addOps, ih, pack, Nat.pow_eq, Field.val, Field.width, pow_add]
      ring
    | op v =>
      rw [sum, addOps, addOps_add, ← Nat.add_assoc, ih, pack, Nat.pow_eq, Field.val, Field.width, pow_add]
      ring

theorem sum_eq_pack (fs : List Field) : sum fs 0 0 fs = pack fs := by
  have h := sum_add_addOps fs 0 0 fs
  rw [pow_zero, Nat.one_mul] at h
  omega

theorem seg_of_fixed {w n p lo m k : Nat} {fs : List Field} (h : Reads w n p fs) (hk : fixed p fs lo m = some k) : seg w lo m = k := by
  induction fs generalizing p with
  | nil => cases hk
  | cons f l ih =>
    obtain ⟨hf, hl⟩ := h
    cases f with
    | op v => exact ih hl hk
    | fix a c =>
      rw [fixed] at hk
      split at hk
      next hpos =>
        obtain ⟨rfl, rfl⟩ := hpos
        exact hf.trans (Option.some.inj hk)
      next => exact ih hl hk

/-- A word gives its fields the operands that they have. -/
theorem operands_of_reads {w n p : Nat} {fs : List Field} (h : Reads w n p fs) : operands (bits w) p fs = bits w := by
  induction fs generalizing p with
  | nil => rfl
  | cons f l ih =>
    obtain ⟨hf, hl⟩ := h
    cases f with
    | fix a c => exact ih hl
    | op v =>
      funext lo m
      rw [operands]
      split
      next hpos =>
        subst hpos
        split
        next hm => subst hm; exact (bits_eq_of_seg hf).symm
        next => rfl
      next => exact congrFun (congrFun (ih hl) lo) m

theorem width_fill (ρ : Operands) (p : Nat) (fs : List Field) : width (fill ρ p fs) = width fs := by
  induction fs generalizing p with
  | nil => rfl
  | cons f l ih =>
    cases f with
    | fix m k => exact congrArg (m + ·) (ih (p + m))
    | op v => exact congrArg (_ + ·) (ih _)

/-- A word that has the fixed bits reads as the fields, with its own bits as operands. -/
theorem reads_fill {w p : Nat} {fs : List Field} (h : ∀ z ∈ fixes p fs, seg w z.1 z.2.1 = z.2.2) :
    Reads w (p + width fs) p (fill (bits w) p fs) := by
  induction fs generalizing p with
  | nil => rfl
  | cons f l ih =>
    rw [width, ← Nat.add_assoc]
    cases f with
    | fix m k => exact ⟨h _ List.mem_cons_self, ih fun z hz => h z (List.mem_cons_of_mem _ hz)⟩
    | op v => exact ⟨(toNat_bits ..).symm, ih h⟩

/-! ### Decoders and their tables -/

theorem pick_cons {α : Type} (x k : Nat) (a : α) (l : List (Nat × α)) (d : α) : pick x ((k, a) :: l) d = if x = k then a else pick x l d := by
  by_cases h : x = k
  · subst h; rw [pick, dif_pos rfl, if_pos rfl]
  · rw [pick, dif_neg h, if_neg h]

theorem pick_of_lookup {α β : Type} {k : Nat} {b : β} {l : List (Nat × β)} (f : β → α) (d : α) (h : l.lookup k = some b) :
    pick k (l.map fun c => (c.1, f c.2)) d = f b := by
  induction l with
  | nil => cases h
  | cons c l ih =>
    rw [List.map_cons, pick_cons]
    rw [List.lookup_cons] at h
    by_cases hk : k = c.1
    · rw [if_pos hk]
      simp only [hk, beq_self_eq_true, Option.some.injEq] at h
      rw [h]
    · rw [if_neg hk]
      simp only [beq_eq_false_iff_ne.2 hk] at h
      exact ih h

theorem exists_of_pick {α : Type} {x : Nat} {i : α} {l : List (Nat × Option α)} (h : pick x l none = some i) :
    ∃ c ∈ l, x = c.1 ∧ c.2 = some i := by
  induction l with
  | nil => cases h
  | cons c l ih =>
    rw [pick_cons] at h
    split at h
    next hx => exact ⟨c, List.mem_cons_self, hx, h⟩
    next =>
      obtain ⟨c', hc', hi⟩ := ih h
      exact ⟨c', List.mem_cons_of_mem _ hc', hi⟩

theorem has_iff {w : Nat} {l : List (Nat × Nat × Nat)} : Has w l ↔ ∀ z ∈ l, seg w z.1 z.2.1 = z.2.2 := by
  induction l with
  | nil => exact ⟨fun _ => nofun, fun _ => trivial⟩
  | cons z l ih =>
    cases l with
    | nil => exact (List.forall_mem_singleton (p := fun z : Nat × Nat × Nat => seg w z.1 z.2.1 = z.2.2)).symm
    | cons y l => rw [List.forall_mem_cons, ← ih]; rfl

theorem accept_eq_some {w : Nat} {r : Row} {l : List (Nat × Nat × Nat)} {i : Instr} :
    accept w r l = some i ↔ (∀ z ∈ l, seg w z.1 z.2.1 = z.2.2) ∧ r (bits w) = i := by
  cases l with
  | nil => exact ⟨fun h => ⟨nofun, Option.some.inj h⟩, fun h => congrArg some h.2⟩
  | cons z l =>
    rw [accept, ← has_iff]
    split
    next hw => exact ⟨fun h => ⟨hw, Option.some.inj h⟩, fun h => congrArg some h.2⟩
    next hw => exact ⟨nofun, fun h => absurd h.1 hw⟩

section
variable {d : Home} {w : Nat} {i : Instr}

theorem Cell.exists_read {c : Cell} {n k : Nat} (hk : seg w 1 n = k) (h : c.eval w = some i) :
    ∃ p ∈ c.reads n k, (∀ z ∈ p.2, seg w z.1 z.2.1 = z.2.2) ∧ p.1 (bits w) = i := by
  cases c with
  | one r =>
    obtain ⟨hchecks, hi⟩ := accept_eq_some.1 h
    exact ⟨_, List.mem_singleton_self _, List.forall_mem_cons.2 ⟨hk, hchecks⟩, hi⟩
  | sub lo m l =>
    obtain ⟨c, hc, hx, hi⟩ := exists_of_pick h
    obtain ⟨r, hr, rfl⟩ := List.mem_map.1 hc
    obtain ⟨hchecks, hi⟩ := accept_eq_some.1 hi
    exact ⟨_, List.mem_map_of_mem hr, List.forall_mem_cons.2 ⟨hk, List.forall_mem_cons.2 ⟨hx, hchecks⟩⟩, hi⟩

/-- A decoder that reads an instruction has come to one of its rows. -/
theorem exists_read_of_raw (h : d.raw w = some i) : ∃ p ∈ d.reads, (∀ z ∈ p.2, seg w z.1 z.2.1 = z.2.2) ∧ p.1 (bits w) = i := by
  rw [raw_eq] at h
  obtain ⟨c, hc, hx, hi⟩ := exists_of_pick h
  obtain ⟨c, hcell, rfl⟩ := List.mem_map.1 hc
  obtain ⟨p, hp, hread⟩ := Cell.exists_read hx hi
  exact ⟨p, List.mem_flatMap.2 ⟨c, hcell, hp⟩, hread⟩

/-- A decoder that reads an instruction has found its fields. -/
theorem reads_of_raw (h0 : seg w 0 1 = d.lengthBit) (h : d.raw w = some i) : Reads w d.bits 0 (word i).fields := by
  obtain ⟨p, hp, hfound, rfl⟩ := exists_read_of_raw h
  obtain ⟨hwidth, hfixes⟩ := Bool.and_eq_true_iff.1 (List.all_eq_true.1 (row_checked d) p hp)
  have hbits : 0 + width (shape p.1) = d.bits := (Nat.zero_add _).trans (Nat.eq_of_beq_eq_true hwidth)
  have hfields : (word (p.1 (bits w))).fields = fill (bits w) 0 (shape p.1) := List.map_inj_left.1 (row_fields d (bits w)) p hp
  rw [hfields, ← hbits]
  have hall : ∀ z ∈ (0, 1, d.lengthBit) :: p.2, seg w z.1 z.2.1 = z.2.2 := List.forall_mem_cons.2 ⟨h0, hfound⟩
  exact reads_fill fun z hz => hall z (List.contains_iff_mem.1 (List.all_eq_true.1 hfixes z hz))

theorem seg_of_fixesAll {n : Nat} {fs : List Field} {l : List (Nat × Nat × Nat)} (h : Reads w n 0 fs) (hl : fixesAll fs l = true) :
    ∀ z ∈ l, seg w z.1 z.2.1 = z.2.2 := by
  intro z hz
  have hz := List.all_eq_true.1 hl z hz
  cases hk : fixed 0 fs z.1 z.2.1 with
  | none => rw [hk] at hz; cases hz
  | some k =>
    rw [hk] at hz
    exact (seg_of_fixed h hk).trans (Nat.eq_of_beq_eq_true hz)

/-- A decoder comes to the row that the fixed bits of a word select. -/
theorem raw_of_row {x : Word} {n lo : Nat} {r : Row} (h : Reads w n 0 x.fields) (hr : x.row = some (lo, r)) :
    x.home.raw w = accept w r (checks lo r) := by
  rw [raw_eq]
  unfold Word.row at hr
  split at hr
  next => cases hr
  next r' hc =>
    obtain ⟨k, hk, hcell⟩ := Option.bind_eq_some_iff.1 hc
    obtain ⟨rfl, rfl⟩ := Prod.mk.inj (Option.some.inj hr)
    rw [seg_of_fixed h hk]
    exact pick_of_lookup (Cell.eval w) none hcell
  next lo' m l hc =>
    obtain ⟨k, hk, hcell⟩ := Option.bind_eq_some_iff.1 hc
    obtain ⟨r', hr', heq⟩ := Option.map_eq_some_iff.1 hr
    obtain ⟨j, hj, hrow⟩ := Option.bind_eq_some_iff.1 hr'
    obtain ⟨rfl, rfl⟩ := Prod.mk.inj heq
    rw [seg_of_fixed h hk, pick_of_lookup (Cell.eval w) none hcell, Cell.eval, seg_of_fixed h hj]
    exact pick_of_lookup (fun r => accept w r (checks lo' r)) none hrow

/-- What is read of a word's fields alone, the decoder reads of the word. -/
theorem raw_of_read {x : Word} {n : Nat} (h : Reads w n 0 x.fields) (hi : x.read (bits w) = some i) : x.home.raw w = some i := by
  unfold Word.read at hi
  split at hi
  next => cases hi
  next lo r hr =>
    cases hchecks : fixesAll x.fields (checks lo r) with
    | false => rw [hchecks] at hi; cases hi
    | true =>
      rw [hchecks, cond_true, operands_of_reads h] at hi
      rw [raw_of_row h hr]
      exact accept_eq_some.2 ⟨seg_of_fixesAll h hchecks, Option.some.inj hi⟩

end

/-! ### The word of an instruction -/

section
variable (i : Instr)

theorem read_word (ρ : Operands) : (word i).read ρ = if wordBits i = 0 then none else some i := congrArg Prod.fst (word_spec i ρ)

theorem encode_eq_pack : encode i = pack (word i).fields :=
  (congrArg (fun s => s.2.1) (word_spec i fun _ n => 0#n)).symm.trans (sum_eq_pack _)

theorem width_word : width (word i).fields = wordBits i := congrArg (fun s => s.2.2.1) (word_spec i fun _ n => 0#n)

theorem bits_word : (word i).home.bits = wordBits i := congrArg (fun s => s.2.2.2.1) (word_spec i fun _ n => 0#n)

/-- An engine refuses none of its own words (R70, R77). -/
theorem defect_word : (word i).home.defect i = none := congrArg (fun s => s.2.2.2.2) (word_spec i fun _ n => 0#n)

theorem reads_encode : Reads (encode i) (wordBits i) 0 (word i).fields := by
  have h := reads_pack (word i).fields (a := 0) (lo := 0) Nat.one_pos
  rwa [pow_zero, Nat.one_mul, Nat.zero_add, Nat.zero_add, ← encode_eq_pack, width_word] at h

end

theorem encode_of_reads {w n : Nat} {i : Instr} (hw : w < 2 ^ n) (h : Reads w n 0 (word i).fields) : wordBits i = n ∧ encode i = w := by
  obtain ⟨hend, hseg⟩ := seg_of_reads h
  rw [Nat.zero_add] at hend
  rw [hend, seg, pow_zero, Nat.div_one, Nat.mod_eq_of_lt hw] at hseg
  exact ⟨(width_word i).symm.trans hend, (encode_eq_pack i).trans hseg.symm⟩

/-- The decoder reads an instruction from its word. -/
theorem raw_encode {i : Instr} (hn : wordBits i ≠ 0) : (word i).home.raw (encode i) = some i :=
  raw_of_read (reads_encode i) ((read_word i _).trans (if_neg hn))

/-- The control words (R70). -/
theorem rawControl_cases {w : Nat} {i : Instr} (h : rawControl w = some i) : i = .nop ∨ (∃ t, i = .bexit t) ∨ (∃ t k, i = .bskip t k) ∨
    i = .stop ∨ (∃ t m c, i = .bpushm t m c) ∨ (∃ m, i = .vmsel m) ∨ ∃ v, i = .rot v := by
  obtain ⟨p, hp, -, rfl⟩ := exists_read_of_raw (d := .control) h
  clear h
  obtain rfl | hp := List.mem_cons.1 hp
  · exact .inl rfl
  obtain rfl | hp := List.mem_cons.1 hp
  · exact .inr (.inl ⟨_, rfl⟩)
  obtain rfl | hp := List.mem_cons.1 hp
  · exact .inr (.inr (.inl ⟨_, _, rfl⟩))
  obtain rfl | hp := List.mem_cons.1 hp
  · exact .inr (.inr (.inr (.inl rfl)))
  obtain rfl | hp := List.mem_cons.1 hp
  · exact .inr (.inr (.inr (.inr (.inl ⟨_, _, _, rfl⟩))))
  obtain rfl | hp := List.mem_cons.1 hp
  · exact .inr (.inr (.inr (.inr (.inr (.inl ⟨_, rfl⟩)))))
  · obtain rfl := List.mem_singleton.1 hp
    exact .inr (.inr (.inr (.inr (.inr (.inr ⟨_, rfl⟩)))))

/-- A control word names one unit at most, and stands in the blocks of an engine that it does not name (R70). -/
theorem defectOn_control {w : Nat} {i : Instr} (h : rawControl w = some i) : ∃ e, i.defectOn e = none := by
  have hother (t : BitVec 3) : ∃ e : Engine, need (decide (t.toNat ≠ e.id)) .unit = none := by
    by_cases ht : t.toNat = 2
    · exact ⟨.ae, by rw [ht]; rfl⟩
    · exact ⟨.ve, if_pos (decide_eq_true ht)⟩
  obtain rfl | ⟨t, rfl⟩ | ⟨t, k, rfl⟩ | rfl | ⟨t, m, c, rfl⟩ | ⟨m, rfl⟩ | ⟨v, rfl⟩ := rawControl_cases h
  case inr.inl => exact hother t
  case inr.inr.inl => exact hother t
  all_goals exact ⟨.ve, rfl⟩

/-! ### The checks of R78 -/

theorem checked_eq_ok {r : Option Instr} {i : Instr} : checked r = .ok i ↔ r = some i ∧ i.WellFormed := by
  cases r with
  | none => exact ⟨nofun, nofun⟩
  | some j =>
    cases hj : j.defect with
    | none => simpa [checked, hj] using fun h : j = i => h ▸ hj
    | some x => simpa [checked, hj] using fun h : j = i => by rw [← h, hj]; nofun

theorem checkedOn_eq_ok {e : Engine} {r : Option Instr} {i : Instr} :
    checkedOn e r = .ok i ↔ r = some i ∧ i.WellFormed ∧ i.defectOn e = none := by
  rw [← and_assoc, ← checked_eq_ok, checkedOn]
  cases checked r with
  | error x => exact ⟨nofun, nofun⟩
  | ok j =>
    cases hj : j.defectOn e with
    | none => simpa [hj] using fun h : j = i => h ▸ hj
    | some x => simpa [hj] using fun h : j = i => by rw [← h, hj]; nofun

/-! ### The two lengths of words (R56) -/

section
variable {w : Nat} {i : Instr}

theorem decodeSq_even (h0 : w % 2 = 0) : decodeSq w = .ok i ↔ rawCompact (w % 2 ^ 16) = some i ∧ i.WellFormed := by
  rw [decodeSq, if_pos h0, checked_eq_ok]

theorem decodeSq_odd (h0 : w % 2 = 1) : decodeSq w = .ok i ↔ rawSq (w % 2 ^ 32) = some i ∧ i.WellFormed := by
  rw [decodeSq, if_neg (by omega), checked_eq_ok]

theorem decodeEngine_even {e : Engine} (h0 : w % 2 = 0) :
    decodeEngine e w = .ok i ↔ rawControl (w % 2 ^ 16) = some i ∧ i.WellFormed ∧ i.defectOn e = none := by
  rw [decodeEngine, if_pos h0, checkedOn_eq_ok]

theorem decodeEngine_odd {e : Engine} (h0 : w % 2 = 1) :
    decodeEngine e w = .ok i ↔ rawEngine e (w % 2 ^ 32) = some i ∧ i.WellFormed ∧ i.defectOn e = none := by
  rw [decodeEngine, if_neg (by omega), checkedOn_eq_ok]

/-- What a decoder reads, from the low bits of a word, is what those bits encode. -/
theorem encode_of_raw {d : Home} (hn : 0 < d.bits) (h0 : w % 2 = d.lengthBit) (h : d.raw (w % 2 ^ d.bits) = some i) :
    encode i = w % 2 ^ wordBits i := by
  have hbit : seg (w % 2 ^ d.bits) 0 1 = d.lengthBit := by
    rw [seg, pow_zero, Nat.div_one, pow_one, Nat.mod_mod_of_dvd _ (dvd_pow_self 2 hn.ne'), h0]
  obtain ⟨hbits, henc⟩ := encode_of_reads (Nat.mod_lt _ (Nat.two_pow_pos _)) (reads_of_raw hbit h)
  rw [hbits, henc]

/-- The word of an instruction has its decoder's bit 0, and the decoder reads the instruction from it. -/
theorem raw_encode_home {d : Home} (hd : (word i).home = d) (hn : wordBits i ≠ 0) :
    encode i % 2 = d.lengthBit ∧ d.raw (encode i % 2 ^ d.bits) = some i := by
  have hraw := raw_encode hn
  have hbits := bits_word i
  rw [hd] at hraw hbits
  have hlow : encode i % 2 = d.lengthBit ∧ encode i < 2 ^ d.bits := by
    obtain ⟨hshort, hlong⟩ := Words.all i
    rw [← hbits] at hshort hlong hn
    match d with
    | .sq | .own _ => exact hlong rfl
    | .compact | .control => exact hshort rfl
    | .event => exact absurd rfl hn
  exact ⟨hlow.1, by rw [Nat.mod_eq_of_lt hlow.2]; exact hraw⟩

end

/-- Settles O58: a decoder has found the fields of what it reads (`reads_of_raw`), and reads what has encoded them (`raw_encode`). -/
theorem roundTrip : Obligations.RoundTrip := by
  unfold Obligations.RoundTrip
  refine ⟨fun w i h => ?_, fun e w i h => ?_, fun i hw hn => ?_⟩
  · rcases Nat.mod_two_eq_zero_or_one w with h0 | h0
    · obtain ⟨hraw, hw⟩ := (decodeSq_even h0).1 h
      exact ⟨hw, encode_of_raw (d := .compact) (by decide) h0 hraw⟩
    · obtain ⟨hraw, hw⟩ := (decodeSq_odd h0).1 h
      exact ⟨hw, encode_of_raw (d := .sq) (by decide) h0 hraw⟩
  · rcases Nat.mod_two_eq_zero_or_one w with h0 | h0
    · obtain ⟨hraw, hw, he⟩ := (decodeEngine_even h0).1 h
      exact ⟨hw, he, encode_of_raw (d := .control) (by decide) h0 hraw⟩
    · obtain ⟨hraw, hw, he⟩ := (decodeEngine_odd h0).1 h
      exact ⟨hw, he, encode_of_raw (d := .own e) (Nat.succ_pos _) h0 hraw⟩
  · match hd : (word i).home with
    | .sq =>
      obtain ⟨hbit, hraw⟩ := raw_encode_home hd hn
      exact .inl ((decodeSq_odd hbit).2 ⟨hraw, hw⟩)
    | .compact =>
      obtain ⟨hbit, hraw⟩ := raw_encode_home hd hn
      exact .inl ((decodeSq_even hbit).2 ⟨hraw, hw⟩)
    | .control =>
      obtain ⟨hbit, hraw⟩ := raw_encode_home hd hn
      obtain ⟨e, he⟩ := defectOn_control hraw
      exact .inr ⟨e, (decodeEngine_even hbit).2 ⟨hraw, hw, he⟩⟩
    | .own e =>
      have hown := defect_word i
      rw [hd] at hown
      obtain ⟨hbit, hraw⟩ := raw_encode_home hd hn
      exact .inr ⟨e, (decodeEngine_odd hbit).2 ⟨hraw, hw, hown⟩⟩
    | .event => exact absurd ((bits_word i).symm.trans (congrArg Home.bits hd)) hn

end Sys2Proof.Proofs.Encodings
end

section
/-! SUPPORT. The scalar instructions that only write rd (O5), the aligned loads (O6) and the spec's own words (O57). -/

namespace Sys2Proof.Proofs.Words

open Sys2Proof Sys2Proof.Machine Sys2Proof.Laws

theorem frame_setX_jump (s : State) (rd : BitVec 5) (v pc : Word) :
    ((s.setX rd v).jump pc).besideX = s.besideX ∧ ∀ r : BitVec 5, r ≠ rd → ((s.setX rd v).jump pc).x r = s.x r :=
  ⟨besideX_setX s rd v, fun r hr => x_setX_ne s rd r v hr⟩

/-- Settles O5: each instruction of the list is a write of rd and a move of the pc. -/
theorem scalarFrame : Obligations.ScalarFrame := by
  unfold Obligations.ScalarFrame
  intro s t rd ra rb w imm amt off20 width k unit keep imm16 i hi ht
  have hshape : ∃ v pc, exec i s = .next ((s.setX rd v).jump pc) := by
    clear ht
    revert i
    simp only [List.forall_mem_cons, List.not_mem_nil, IsEmpty.forall_iff, implies_true, and_true]
    repeat' apply And.intro
    all_goals exact ⟨_, _, rfl⟩
  obtain ⟨v, pc, hv⟩ := hshape
  obtain rfl := Host.Outcome.next.inj (hv.symm.trans ht)
  exact frame_setX_jump s rd v pc

/-- Settles O6: each form is the one load rule at its own address. -/
theorem sqLoads : Obligations.SqLoads := by
  unfold Obligations.SqLoads
  intro s s1 s2 rd ra cls sz hint off off6 pa v t n ea eax eac r
  refine ⟨fun h0 h1 h2 => ⟨ld_go rd true h0 h1 h2, ld_go rd false h0 h1 h2⟩,
    fun h0 h1 h2 => ⟨ld_go rd true h0 h1 h2, ld_go rd false h0 h1 h2⟩, fun h0 h1 h2 => ?_⟩
  have hd : extendTo true 8 v = BitVec.ofNat 64 v := BitVec.signExtend_eq _
  exact hd ▸ ld_go rd true h0 h1 h2

/-- Settles O57: the decoders run on the fixed words. -/
theorem decodeWords : Obligations.DecodeWords := by
  unfold Obligations.DecodeWords
  decide +kernel

end Sys2Proof.Proofs.Words
end

section
/-! SUPPORT. A turn of the schedule: the first entry is taken, the unit is not held back, the word is fetched and run (O56). -/

namespace Sys2Proof.Proofs.Steps

open Sys2Proof Sys2Proof.Machine Sys2Proof.Laws Sys2Proof.Proofs.Encodings

/-! ### The schedule (assumption log 1) -/

section
variable {s : State} {t : Turn} {rest : List Turn}

theorem step_refills (h : s.schedule = []) : step s = .next { s.pass 1 with schedule := s.defaultRound } := by
  rw [step, nextTurn, h]

theorem step_postpones {l : List Turn} (h : s.schedule = t :: rest) (hp : s.postpone t rest = some l) :
    step s = .next { s.pass t.dt with schedule := l } := by
  rw [step, nextTurn, h]
  simp only [hp]

theorem step_takes (h : s.schedule = t :: rest) (hp : s.postpone t rest = none) :
    step s = takeTurn exec t { s with schedule := rest } := by
  rw [step, nextTurn, h]
  simp only [hp]

end

theorem wordBits_of_length_zero {i : Instr} (h : wordBits i / 8 = 0) : wordBits i = 0 := by
  rcases sizes i with hb | hb | hb
  · exact hb
  · rw [hb] at h; exact absurd h (by decide)
  · rw [hb] at h; exact absurd h (by decide)

/-! ### A turn of an SQ (R56, R336, R431) -/

section
variable {run : Instr → State → Out} {s s1 : State} {i : Instr} {w : Nat}

theorem sqTurn_issues (hh : s.core.halted = false) (hr : s.core.sq.run = .running) (hp : s.core.sq.parked = none ∨ s.core.sq.woken = true)
    (hf : s.ieNow = false ∨ s.core.firstPending = none) (hn : s.core.sq.nextAt.toNat ≤ s.time.toNat)
    (he : s.core.sq.pc ≠ s.core.sq.exitAddr ∨ 256 ≤ s.cur) : sqTurn run s = sqIssue run s := by
  have hlive : (s.core.halted || decide (s.core.sq.run ≠ .running)) = false := by rw [hh, hr]; rfl
  have hfault : (if s.ieNow then s.core.firstPending else none) = none := by
    rcases hf with h | h <;> simp [h]
  have hpark : (s.core.sq.parked.isSome && !s.core.sq.woken) = false := by
    rcases hp with h | h <;> simp [h]
  have hexit : (decide (s.core.sq.pc = s.core.sq.exitAddr) && decide (s.cur < 256)) = false := by
    rcases he with h | h
    · simp [h]
    · simp [Nat.not_lt.2 h]
  unfold sqTurn
  simp only [hlive, hfault, hpark, hexit, Nat.not_lt.2 hn, if_false, Bool.false_eq_true]

theorem sqWord_decoded (hd : decodeSq w = .ok i) : sqWord run w s = run i (s.refetch i) := by
  rw [sqWord, hd]

theorem sqIssue_held (hh : s.core.sq.holds s.time = some w) (hd : decodeSq w = .ok i) :
    sqIssue run s = run i ((s.issued w).refetch i) := by
  rw [sqIssue, hh]
  exact sqWord_decoded hd

section
variable {h : BitVec 16} {h2 : Option (BitVec 16)} (hh : s.core.sq.holds s.time = none) (ha : s.core.sq.aheadWord = none)
  (hf : s.fetchSq = (.ok h s1, h2))
include hh ha hf

theorem sqIssue_fetched (hd : decodeSq (wordOf h h2) = .ok i) (hr : s1.reply.toNat ≤ s1.time.toNat) :
    sqIssue run s = run i ((s1.issued (wordOf h h2)).refetch i) := by
  rw [sqIssue, hh]
  simp only [ha, hf, Option.isSome_none, Bool.false_eq_true, if_false, Nat.not_lt.2 hr]
  exact sqWord_decoded hd

theorem sqIssue_delayed (hr : s1.time.toNat < s1.reply.toNat) :
    sqIssue run s = .next { s1.issued (wordOf h h2) with core.sq.nextAt := s1.reply } := by
  rw [sqIssue, hh]
  simp only [ha, hf, Option.isSome_none, Bool.false_eq_true, if_false, hr, if_true]

end

/-! ### A fetch of the bytes of an instruction (R56, R329) -/

/-- The fetch leaves a copy of the sector. -/
def fetched (s : State) (pa : Nat) (t : Tlb) : State :=
  (s.noteReply s.dieNo (64 * sectorOf pa) 64).keepFetch (.icache s.cur) (sectorOf pa) t

theorem fetched_core (s : State) (pa : Nat) (t : Tlb) : (fetched s pa t).core = s.core := by
  rw [fetched, (keepFetch_spec _ _ _ _).2.1, noteReply_keeps]

theorem fetched_cur (s : State) (pa : Nat) (t : Tlb) : (fetched s pa t).cur = s.cur := by
  rw [fetched, (keepFetch_spec _ _ _ _).2.2.1, noteReply_keeps]

/-- The copy that a fetch leaves holds the sector as memory has it. -/
theorem fetched_copy {pa : Nat} (hh : isHost pa = false) (hd : inDevice pa = false) (s : State) (t : Tlb) :
    (fetched s pa t).store.fetchCopy (.icache s.cur) (sectorOf pa) =
      some { holder := .icache s.cur, sector := sectorOf pa, data := readBytes s.store.mem (64 * sectorOf pa) 64 } := by
  rw [← home_plain s pa hh hd, fetched, (keepFetch_spec _ _ _ _).1, noteReply_keeps]

theorem isDevice_of_not_inDevice {pa : Nat} (h : inDevice pa = false) : isDevice pa = false := by
  rw [isDevice, h]; rfl

/-- No device register begins within a sector. -/
theorem inDevice_sector {pa pb : Nat} (h : sectorOf pb = sectorOf pa) (hd : inDevice pa = false) : inDevice pb = false := by
  unfold inDevice sectorOf at *
  simp only [decide_eq_false_iff_not] at *
  omega

section
variable {pa : Nat} {t t2 : Tlb} (hh : isHost pa = false) (hd : inDevice pa = false)
  (ht : s.translate s.sqAgent { fetch := true } s.core.sq.pc = .ok pa t s)
  (hlen : pa % 64 + wordBits i / 8 ≤ 64) (hc : s.store.fetchCopy (.icache s.cur) (sectorOf pa) = none)
  (hu : s.store.unpublished (sectorOf pa) = false) (hm : s.markAt [.icache s.cur] { t with nc := false } (sectorOf pa) = none)
  (hmem : readBytes s.store.mem pa (wordBits i / 8) = encodeBytes i)
include hh hd ht hlen hc hu hm hmem

theorem fetchHalf_first (hb : 16 ≤ wordBits i) :
    s.fetchHalf (.icache s.cur) s.sqAgent s.core.sq.pc = .ok (bits (encode i) 0 16) (fetched s pa t) := by
  have hhalf := half_read s.store.mem pa (by omega)
  rw [← enc_half i s.store.mem pa 0 (by omega) hmem]
  exact (fetch_new s _ pa t _ ht hh hd hc hu hm).trans (by rw [sectorOf, hhalf]; rfl)

theorem fetchSq_short (hb : wordBits i = 16) : s.fetchSq = (.ok (bits (encode i) 0 16) (fetched s pa t), none) := by
  have heven : (bits (encode i) 0 16).toNat % 2 = 0 := by rw [(word_one hb).1]; exact (word_one hb).2
  rw [State.fetchSq, State.fetchAt, fetchHalf_first hh hd ht hlen hc hu hm hmem hb.ge]
  exact if_pos heven

theorem fetchSq_long (hb : wordBits i = 32)
    (ht2 : (fetched s pa t).translate (fetched s pa t).sqAgent { fetch := true } (s.core.sq.pc + 2) = .ok (pa + 2) t2 (fetched s pa t)) :
    s.fetchSq = (.ok (bits (encode i) 0 16) (fetched s pa t), some (bits (encode i) 16 16)) := by
  have hodd : ¬ (bits (encode i) 0 16).toNat % 2 = 0 := by rw [(word_two hb).1]; decide
  have hsec : sectorOf (pa + 2) = sectorOf pa := by unfold sectorOf; omega
  have hdev : isDevice (pa + 2) = false := isDevice_of_not_inDevice (inDevice_sector hsec hd)
  have hcopy := fetched_copy hh hd s t
  rw [← hsec] at hcopy
  have hhalf : halfAt (readBytes s.store.mem (64 * sectorOf (pa + 2)) 64) (pa + 2) = bits (encode i) 16 16 := by
    rw [← enc_half i s.store.mem pa 1 (by omega) hmem]
    exact half_read s.store.mem (pa + 2) (by omega)
  have hsecond := fetch_kept _ _ _ t2 s.cur _ ht2 hdev hcopy
  rw [State.fetchSq, State.fetchAt, fetchHalf_first hh hd ht hlen hc hu hm hmem (by omega)]
  simp only [hodd, if_false]
  rw [fetched_cur, hsecond, hhalf]

end

end

/-! ### A turn of an engine (R67) -/

section
variable {run : Instr → State → Out} {s : State} {i : Instr} {e : Engine}

/-- No row of an engine's decoder is a BSKIP. -/
theorem asInstr_own {len p w : Nat} (hd : decodeEngine s.actor w = .ok i) (hraw : rawEngine s.actor (w % 2 ^ 32) = some i) :
    s.asInstr len p w = .instr i s := by
  obtain ⟨q, hq, -, rfl⟩ := exists_read_of_raw (d := .own s.actor) hraw
  rw [State.asInstr, hd]
  clear hd hraw
  generalize s.actor = e at hq
  revert q
  refine List.map_inj_left.1 ?_
  cases e <;> rfl

theorem asInstr_control {len p w : Nat} (hd : decodeEngine s.actor w = .ok i) (hraw : rawControl (w % 2 ^ 16) = some i)
    (hb : ∀ c k, i ≠ .bskip c k) : s.asInstr len p w = .instr i s := by
  rw [State.asInstr, hd]
  obtain rfl | ⟨t, rfl⟩ | ⟨t, k, rfl⟩ | rfl | ⟨t, m, c, rfl⟩ | ⟨m, rfl⟩ | ⟨v, rfl⟩ := rawControl_cases hraw
  case inr.inr.inl => exact absurd rfl (hb t k)
  all_goals rfl

theorem asInstr_decoded {len p w : Nat} (hd : decodeEngine s.actor w = .ok i) (hb : ∀ c k, i ≠ .bskip c k) :
    s.asInstr len p w = .instr i s := by
  rcases Nat.mod_two_eq_zero_or_one w with h0 | h0
  · exact asInstr_control hd ((decodeEngine_even h0).1 hd).1 hb
  · exact asInstr_own hd ((decodeEngine_odd h0).1 hd).1

theorem wordAt_kept (hs : s.act.passStop = none) (hd : decodeEngine s.actor (encode i) = .ok i) (hb : ∀ c k, i ≠ .bskip c k)
    (h0 : smFind s.act.words s.act.pos.toNat = some (bits (encode i) 0 16))
    (h1 : wordBits i / 8 = 2 ∨ (wordBits i / 8 = 4 ∧ smFind s.act.words (s.act.pos.toNat + 1) = some (bits (encode i) 16 16) ∧
      s.act.pos.toNat + 1 < s.act.len)) : s.wordAt = .instr i s := by
  unfold State.wordAt
  simp only [hs, Option.filter_none, h0]
  rcases h1 with hn | ⟨hn, h2, hlen⟩
  · have hbits : wordBits i = 16 := by rcases sizes i with h | h | h <;> omega
    obtain ⟨hw, heven⟩ := word_one hbits
    simp only [hw, heven, if_true]
    exact asInstr_decoded hd hb
  · have hbits : wordBits i = 32 := by rcases sizes i with h | h | h <;> omega
    obtain ⟨hodd, hw⟩ := word_two hbits
    simp only [hodd, Nat.one_ne_zero, if_false, Nat.not_le.2 hlen, h2, hw]
    exact asInstr_decoded hd hb

theorem meCycle_eq (s : State) : s.meCycle = if s.actor = .me ∧ s.core.mex.plan = none then { s with core.mex.nextAt := s.time + 1 } else s := by
  simp only [State.meCycle, Bool.and_eq_true, decide_eq_true_eq, Option.isNone_iff_eq_none]

theorem meWaits_eq_false (h : s.actor = .me → s.core.mex.plan.isSome = true ∨ s.act.wait ≠ 0 ∨ s.core.mex.nextAt.toNat ≤ s.time.toNat) :
    s.meWaits = false := by
  unfold State.meWaits
  by_cases ha : s.actor = .me
  · rcases h ha with hp | hw | ht
    · simp [Option.isNone_eq_false_iff.2 hp]
    · simp only [decide_eq_false hw, Bool.and_false, Bool.false_and]
    · simp [Nat.not_lt.2 ht]
  · simp [ha]

/-- A word that may issue, and whose bytes are there, is run in its issue cycle. -/
theorem engineIssue_runs (hme : s.meWaits = false) (hn : s.act.nextAt.toNat ≤ s.time.toNat) (hw : s.wordAt = .instr i s) (hr : s.reply = 0) :
    engineIssue run s = run i s.meCycle := by
  have hback : ¬ s.time.toNat < s.reply.toNat := by rw [hr]; exact Nat.not_lt_zero _
  unfold engineIssue
  simp only [hme, Nat.not_lt.2 hn, decide_false, Bool.or_self, Bool.false_eq_true, if_false, hw, hback]

/-- An engine that no fault, freeze or park holds back comes to the word at its position. -/
theorem engineTurn_issues (hf : (s.eng e).flt = false) (hz : (s.eng e).frz = false) (hh : s.core.halted = false)
    (hp : (s.eng e).parked = none ∨ (s.eng e).woken = true) (hs : (s.eng e).st = .running) (hr : (s.eng e).repass = false)
    (ha : (s.eng e).atEnd = false) : engineTurn run e s = engineIssue run { s with actor := e } := by
  have hpark : ((s.eng e).parked.isSome && !(s.eng e).woken) = false := by
    rcases hp with h | h <;> simp [h]
  have hact : ({ s with actor := e } : State).act = s.eng e := rfl
  unfold engineTurn
  simp only [hact, hf, hz, hh, hs, hpark, Bool.or_self, Bool.and_false, Bool.false_eq_true, reduceCtorEq, if_false]
  unfold engineRun
  simp only [hact, hr, ha, hs, Bool.false_eq_true, Bool.not_false, decide_true, Bool.and_self, if_false, if_true]

end

/-! ### The obligation -/

/-- Settles O56: the schedule's first entry is taken, and a unit that nothing holds back issues the word that it holds or fetches. -/
theorem stepRuns : Obligations.StepRuns := by
  unfold Obligations.StepRuns
  intro s core dt rest i d
  extract_lets s0 n issued runs
  have hcur : s0.cur = core := focus_cur _ _
  have hreply : s0.reply = 0 := (focus_reply _ _).trans (pass_reply _ _)
  refine ⟨step_refills, fun t l => step_postpones, fun h hp hn => ?_, step_takes, step_takes, fun h hp hh hr hpark hf hn he => ?_,
    fun e h hp hh => ?_⟩
  case refine_1 =>
    have hbits : wordBits i = 0 := wordBits_of_length_zero hn
    rw [step_takes h hp]
    exact if_pos hbits
  case refine_2 =>
    have hissue : step s = sqIssue exec s0 := (step_takes h hp).trans (sqTurn_issues hh hr hpark hf hn (by rwa [hcur]))
    rw [hissue]
    refine ⟨fun w => sqIssue_held, fun hheld hahead => ⟨fun hw h2 s1 hf hd => ?_, ?_⟩⟩
    · exact ⟨sqIssue_fetched hheld hahead hf hd, sqIssue_delayed hheld hahead hf⟩
    intro pa t ht hhost hdev hlen hc hu hm hd hmem s1 hback
    have hs1 : s1 = fetched s0 pa t := by rw [fetched, hcur]
    rw [← hcur] at hc hm
    refine ⟨fun hn => ?_, fun hn t2 ht2 => ?_⟩
    · have hbits : wordBits i = 16 := by rcases sizes i with h | h | h <;> omega
      have hword : wordOf (bits (encode i) 0 16) none = encode i := (word_one hbits).1
      have hfetch := fetchSq_short hhost hdev ht hlen hc hu hm hmem hbits
      rw [← hs1] at hfetch
      rw [← hword] at hd ⊢
      exact sqIssue_fetched hheld hahead hfetch hd hback
    · have hbits : wordBits i = 32 := by rcases sizes i with h | h | h <;> omega
      have hword : wordOf (bits (encode i) 0 16) (some (bits (encode i) 16 16)) = encode i := (word_two hbits).2
      rw [hs1] at ht2
      have hfetch := fetchSq_long hhost hdev ht hlen hc hu hm hmem hbits ht2
      rw [← hs1] at hfetch
      rw [← hword] at hd ⊢
      exact sqIssue_fetched hheld hahead hfetch hd hback
  case refine_3 =>
    intro s1 g p taken hflt hfrz hpark hst hrep hend hnext hme hstop hd hb h0 h1
    have hturn : step s = engineIssue exec s1 := (step_takes h hp).trans (engineTurn_issues hflt hfrz hh hpark hst hrep hend)
    have htaken : taken = s1.meCycle := (meCycle_eq s1).symm
    rw [hturn, htaken]
    exact engineIssue_runs (meWaits_eq_false hme) hnext (wordAt_kept hstop hd hb h0 h1) hreply

end Sys2Proof.Proofs.Steps
end

section
/-! SUPPORT. Waits that end, wakes of parked accesses, the reclassification of a page and the traps of a fetch (O46). -/

namespace Sys2Proof.Proofs.Waits

open Sys2Proof Sys2Proof.Machine Sys2Proof.Laws

/-! ### A trap from U (R99, R102) -/

/-- A synchronous fault at U outside a region enters the trap. -/
theorem raise_user {s : State} (c : Cause) (addr : Word) (ha : s.core.sq.spec.act = false) (hp : s.core.sq.trap.status.priv = 0) :
    s.raise c addr = { { s.abandon with core.sq := s.abandon.core.sq.interrupt } with
      core.sq.trap :=
        { s.core.sq.trap with
          epc := s.core.sq.pc, badaddr := addr, cause := causeWord c.code 0 0 false
          status := { intrap := true, pie := s.core.sq.trap.status.ie, ie := false, ppriv := 0, priv := 1 } }
      core.sq.pc := s.core.sq.trap.tvec } := by
  have h3 : s.core.sq.trap.status.priv ≠ 3 := by rw [hp]; decide
  have h1 : s.core.sq.trap.status.priv ≠ 1 := by rw [hp]; decide
  have htrap : s.raise c addr = s.trapEntry c.code 0 0 addr s.core.sq.pc false := if_neg (by rw [ha]; decide)
  rw [htrap, trap_us _ _ _ _ _ _ _ h3 fun h => h1 h.1, hp]

/-- What the trap of a fetch leaves (R99). -/
theorem fetchTrap_enters {s : State} (c : Cause) (addr : Word) (ha : s.core.sq.spec.act = false) (hp : s.core.sq.trap.status.priv = 0) :
    let u := s.raise c addr
    u.core.sq.pc = s.core.sq.trap.tvec ∧ u.core.sq.trap.epc = s.core.sq.pc ∧ u.core.sq.trap.badaddr = addr ∧
      u.core.sq.trap.cause = causeWord c.code 0 0 false ∧ u.core.sq.x = s.core.sq.x ∧
      u.core.sq.trap.status = { intrap := true, pie := s.core.sq.trap.status.ie, ie := false, ppriv := 0, priv := 1 } ∧
      u.store = s.store ∧ u.core.regs = s.core.regs := by
  obtain ⟨-, hx, -, -, hstore, -⟩ := abandon_core s
  obtain ⟨-, hregs⟩ := leaveLine_tok s
  rw [raise_user c addr ha hp]
  exact ⟨rfl, rfl, rfl, rfl, hx, rfl, hstore, hregs⟩

theorem raise_tok {s : State} (c : Cause) (addr : Word) (ha : s.core.sq.spec.act = false) (hp : s.core.sq.trap.status.priv = 0) :
    (s.raise c addr).core.tok = s.core.tok := by
  rw [raise_user c addr ha hp]
  exact (leaveLine_tok s).1

/-! ### Waits that end (R177, R217) -/

section
variable {s : State} {t : Word} {f : BitVec 3}

theorem sleepuWake_due (hl : s.sqLive = true) (hs : s.core.sq.sleep = some (t, f)) (ht : t.toNat ≤ s.time.toNat) :
    exec .sleepuWake s = .next (s.sleepDone f) := by
  show execSleepuWake s = _
  simp only [execSleepuWake, hs, hl, Bool.true_and, decide_eq_true ht, if_true]

theorem sleepuWake_early (hs : s.core.sq.sleep = some (t, f)) (ht : s.time.toNat < t.toNat) : exec .sleepuWake s = .next s := by
  show execSleepuWake s = _
  simp only [execSleepuWake, hs, decide_eq_false (Nat.not_le.2 ht), Bool.and_false, Bool.false_eq_true, if_false]

end

theorem sleepDone_kept {s : State} {f : BitVec 3} (h : f = 7 ∨ (s.core.tokq f.toNat 0).present ≠ 0) :
    s.sleepDone f = State.adv { s with core.sq.sleep := none } 4 :=
  if_neg fun ⟨hne, hp⟩ => h.elim hne fun h => h hp

theorem sleepDone_missed {s : State} {f : BitVec 3} (hf : f ≠ 7) (hp : (s.core.tokq f.toNat 0).present = 0) :
    s.sleepDone f = State.raise { s with core.sq.sleep := none } .promiseMissed 0 :=
  if_pos ⟨hf, hp⟩

theorem queueWaitResume_sq {s : State} (hl : s.sqLive = true) : exec (.queueWaitResume .sq) s = .next (s.hurry s.cur .sq) := by
  show execQueueWaitResume .sq s = _
  simp only [execQueueWaitResume, hl, if_true]

theorem queueWaitResume_eng {s : State} {e : Engine} (hl : s.sqLive = true) (h1 : 1 ≤ (s.eng e).wait.toNat) (h6 : (s.eng e).wait.toNat ≤ 6) :
    exec (.queueWaitResume (.eng e)) s = .next (s.hurry s.cur (.eng e)) := by
  have hh : s.core.halted = false := by
    simpa using (Bool.and_eq_true_iff.1 hl).2
  show execQueueWaitResume (.eng e) s = _
  simp only [execQueueWaitResume, hh, decide_eq_true h1, decide_eq_true h6, Bool.not_false, Bool.and_self, if_true]

/-! ### Parks that wake (R355) -/

section
variable (s : State) (line : Nat)

theorem wakeLines_watched (h : ∃ d ∈ s.dies, line ∈ d.2.monitors) : s.wakeLines [line] = { s with
    dies := wakeDies s.dies [line]
    core := s.core.wake [line]
    others := s.others.map fun c => (c.1, c.2.wake [line])
    mgmt.arrivals := s.mgmt.arrivals.map fun a => if a.parked.any [line].contains then { a with woken := true } else a } := by
  obtain ⟨d, hd, hm⟩ := h
  exact if_pos (List.any_eq_true.2 ⟨d, hd, List.any_eq_true.2 ⟨line, hm, by simp⟩⟩)

theorem wakeLines_unwatched (h : ∀ d ∈ s.dies, line ∉ d.2.monitors) : s.wakeLines [line] = s := by
  refine if_neg fun hany => ?_
  obtain ⟨d, hd, hmon⟩ := List.any_eq_true.1 hany
  obtain ⟨l, hl, hmem⟩ := List.any_eq_true.1 hmon
  obtain rfl : l = line := by simpa using hmem
  exact h d hd hl

theorem wakeDies_disarms {ds : SMap Die} : ∀ d ∈ wakeDies ds [line], line ∉ d.2.monitors := by
  intro d hd
  obtain ⟨c, -, rfl⟩ := List.mem_map.1 hd
  simp

theorem arrivals_woken {l : List Arrival} :
    ∀ a ∈ l.map fun a => if a.parked.any [line].contains then { a with woken := true } else a, a.parked = some line → a.woken = true := by
  intro a ha hp
  obtain ⟨b, -, rfl⟩ := List.mem_map.1 ha
  by_cases hb : b.parked.any [line].contains = true
  · rw [if_pos hb]
  · rw [if_neg hb] at hp
    simp [hp] at hb

/-- The wake moves one access of another package on, and puts the turns of the woken units first. -/
theorem parkWake_spec : ∃ sch, exec (.parkWake line) s = .next { s.arriveAgain line with schedule := sch } ∧
    (∀ x ∈ (s.arriveAgain line).schedule, x ∈ sch) ∧
    ∀ c ∈ smSet (s.arriveAgain line).others (s.arriveAgain line).cur (s.arriveAgain line).core,
      ∀ u ∈ c.2.wokenUnits line, .unit c.1 u 0 ∈ sch := by
  obtain ⟨sch, hgo, hkept, hnew⟩ := wake_sched line
    (smSet (s.arriveAgain line).others (s.arriveAgain line).cur (s.arriveAgain line).core) (s.arriveAgain line)
  exact ⟨sch, congrArg Host.Outcome.next hgo, hkept, hnew⟩

theorem arriveAgain_none (h : ∀ a ∈ s.mgmt.arrivals, a.parked ≠ none ∧ (a.parked = some line → a.woken = false)) :
    s.arriveAgain line = s := by
  have hnone : (s.mgmt.arrivals.find? fun a => a.parked.isNone || (a.parked = some line && a.woken)) = none := by
    refine List.find?_eq_none.2 fun a ha => ?_
    obtain ⟨hparked, hasleep⟩ := h a ha
    simpa [hparked] using hasleep
  rw [State.arriveAgain, hnone]

theorem arriveAgain_some {a : Arrival}
    (h : s.mgmt.arrivals.find? (fun a => a.parked.isNone || (a.parked = some line && a.woken)) = some a) :
    s.arriveAgain line = State.arriveAccess { s with mgmt.arrivals := s.mgmt.arrivals.erase a } a := by
  rw [State.arriveAgain, h]

end

theorem mem_wokenUnits_sq {c : Core} {line : Nat} (hp : c.sq.parked = some line) (hw : c.sq.woken = true) : .sq ∈ c.wokenUnits line := by
  simp [Core.wokenUnits, hp, hw]

theorem mem_wokenUnits_eng {c : Core} {line : Nat} {e : Engine} (hp : (c.eng e).parked = some line) (hw : (c.eng e).woken = true) :
    .eng e ∈ c.wokenUnits line := by
  have he : e ∈ engines := by cases e <;> decide
  refine List.mem_append_right _ (List.mem_map_of_mem (List.mem_filter.2 ⟨he, ?_⟩))
  simp [hp, hw]

/-! ### A page that is reclassified (R318) -/

section
variable {s : State} {leaf : Nat}

theorem leaf_plain (h : leaf < s.packageTop) : isHost leaf = false ∧ inDevice leaf = false := by
  unfold State.packageTop at h
  unfold isHost inDevice
  simp only [Bool.and_eq_false_iff, decide_eq_false_iff_not]
  omega

theorem readHome_lt (hh : isHost leaf = false) (hd : inDevice leaf = false) : leNat (s.store.readHome leaf 8) < 2 ^ 64 := by
  have hlt := leNat_lt (readBytes s.store.mem leaf 8)
  rw [readBytes_length] at hlt
  rw [readHome_bytes _ _ _ hh hd, ← readHome_map]
  exact hlt

theorem shared_lt {e : Nat} (h : e < 2 ^ 64) : setSeg (setSeg e 7 1 1) 62 2 2 < 2 ^ 64 := by
  have h7 : setSeg e 7 1 1 < 2 ^ 64 := by rw [setSeg7]; omega
  rw [setSeg62 _ h7]
  omega

theorem writeLeaf_reads {e : Nat} (hh : isHost leaf = false) (hd : inDevice leaf = false) (hw : Memory.wf s.store.mem = true) (he : e < 2 ^ 64) :
    leNat ((s.writeLeaf leaf e).store.readHome leaf 8) = e := by
  have hread := readBytes_writeBytes s.store.mem leaf 0 8 (leBytes 8 e) hw (by rw [leBytes_length])
  rw [List.drop_zero, Nat.add_zero, List.take_of_length_le (leBytes_length 8 e).le] at hread
  rw [readHome_bytes _ _ _ hh hd, ← readHome_map, State.writeLeaf, storePhys_mem _ _ _ hh hd, hread, leNat_leBytes]
  exact Nat.mod_eq_of_lt he

end

/-- A write at home wakes accesses, and leaves the rest of the core and the copies of the caches. -/
theorem storePhys_keeps (s : State) (pa : Nat) (bs : List Byte) :
    (s.storePhys pa bs).core.counts = s.core.counts ∧ (s.storePhys pa bs).core.sq.pc = s.core.sq.pc ∧
      (s.storePhys pa bs).core.sq.x = s.core.sq.x ∧ (s.storePhys pa bs).store.coh = s.store.coh := by
  have hwake (u : State) (l : List Nat) : (u.wakeLines l).core.counts = u.core.counts ∧ (u.wakeLines l).core.sq.pc = u.core.sq.pc := by
    unfold State.wakeLines; split <;> exact ⟨rfl, rfl⟩
  unfold State.storePhys
  simp only
  split
  · split <;> exact ⟨rfl, rfl, rfl, rfl⟩
  · refine ⟨(hwake _ _).1, (hwake _ _).2, wakeLines_sqx _ _, ?_⟩
    rw [wakeLines_mem]
    simp only
    split <;> rfl

/-- The machine of a reclassification before the translations of the page are dropped. -/
def leafShared (s : State) (a e size : Nat) : State :=
  let u := (s.recall (frameOf e) size s.core.sq.ctxid).2.writeLeaf a (setSeg e 62 2 2)
  { u with store.privs := u.store.privs.filter fun r => r.1 ≠ a }

theorem reclassify_eq (s : State) (a e size : Nat) : (s.reclassify a e size).2 = (leafShared s a e size).dropTlb fun t => t.entry = a := rfl

theorem leafShared_keeps (s : State) (a e size : Nat) :
    (leafShared s a e size).core.counts = s.core.counts ∧ (leafShared s a e size).core.sq.pc = s.core.sq.pc ∧
      (leafShared s a e size).core.sq.x = s.core.sq.x := by
  have hcore : (s.recall (frameOf e) size s.core.sq.ctxid).2.core = s.core := by
    rw [(recall_still s (frameOf e) size s.core.sq.ctxid).1.same]
  obtain ⟨hcounts, hpc, hx, -⟩ := storePhys_keeps (s.recall (frameOf e) size s.core.sq.ctxid).2 a (leBytes 8 (setSeg e 62 2 2))
  rw [hcore] at hcounts hpc hx
  exact ⟨hcounts, hpc, hx⟩

/-- No copy of the page is left. -/
theorem leafShared_copies (s : State) (a e size : Nat) :
    ∀ c ∈ (leafShared s a e size).store.coh.copies, ¬ (frameOf e < 64 * c.sector + 64 ∧ 64 * c.sector < frameOf e + size) := by
  intro c hc
  obtain ⟨-, -, -, hcoh⟩ := storePhys_keeps (s.recall (frameOf e) size s.core.sq.ctxid).2 a (leBytes 8 (setSeg e 62 2 2))
  have hmem : c ∈ (s.recall (frameOf e) size s.core.sq.ctxid).2.store.coh.copies := by rw [← hcoh]; exact hc
  simpa [sectorIn] using (recall_still s (frameOf e) size s.core.sq.ctxid).2 c hmem

theorem leafShared_leaf {s : State} {a e : Nat} (size : Nat) (hh : isHost a = false) (hd : inDevice a = false) (hw : Memory.wf s.store.mem = true)
    (he : setSeg e 62 2 2 < 2 ^ 64) : leNat ((leafShared s a e size).store.readHome a 8) = setSeg e 62 2 2 := by
  have hdata := (recall_still s (frameOf e) size s.core.sq.ctxid).1.data
  have hmem : (s.recall (frameOf e) size s.core.sq.ctxid).2.store.mem = s.store.mem := (congrArg Store.mem hdata :)
  exact writeLeaf_reads hh hd (by rw [hmem]; exact hw) he

section
variable (s : State) (a : Nat)

/-- No translation through the leaf is left in a core. -/
theorem core_dropTlb (c : Core) : (∀ u ∈ (c.dropTlb fun t => t.entry = a).sq.tlb, u.entry ≠ a) ∧
    ∀ u ∈ (c.dropTlb fun t => t.entry = a).stream ++ (c.dropTlb fun t => t.entry = a).ahead, u.2.entry ≠ a := by
  refine ⟨fun u hu => by simpa using (List.mem_filter.1 hu).2, fun u hu => ?_⟩
  rcases List.mem_append.1 hu with hu | hu
  · simpa using (List.mem_filter.1 hu).2
  · simpa using (List.mem_filter.1 hu).2

theorem others_dropTlb : ∀ c ∈ (s.dropTlb fun t => t.entry = a).others,
    (∀ u ∈ c.2.sq.tlb, u.entry ≠ a) ∧ ∀ u ∈ c.2.stream ++ c.2.ahead, u.2.entry ≠ a := by
  intro c hc
  obtain ⟨d, -, rfl⟩ := List.mem_map.1 hc
  exact core_dropTlb a d.2

theorem quads_dropTlb : ∀ q ∈ (s.dropTlb fun t => t.entry = a).quads, ∀ u ∈ q.2.tlb, u.entry ≠ a := by
  intro q hq u hu
  obtain ⟨d, -, rfl⟩ := List.mem_map.1 hq
  simpa using (List.mem_filter.1 hu).2

end

/-- The fill of another core's page has been counted. -/
def fillCounted (s : State) : State := { s with core.counts.priv := sat32 s.core.counts.priv 1 }

/-- The event counts the fill and reclassifies the page. -/
theorem pageReclassify_go {s : State} {leaf level : Nat} (h8 : leaf % 8 = 0) (htop : leaf < s.packageTop) (hlev : level ≤ 2)
    (hv : seg (leNat (s.store.readHome leaf 8)) 0 1 = 1) (hleaf : isLeaf (leNat (s.store.readHome leaf 8)) = true)
    (hm : s.malformed false level (leNat (s.store.readHome leaf 8)) = false) (hp : seg (leNat (s.store.readHome leaf 8)) 62 2 = 1)
    (ho : seg (leNat (s.store.readHome leaf 8)) 54 8 ≠ s.cur) (hc : s.cur < 256) (hx : seg (leNat (s.store.readHome leaf 8)) 3 1 = 0) :
    exec (.pageReclassify leaf level) s =
      .next ((fillCounted s).reclassify leaf (setSeg (leNat (s.store.readHome leaf 8)) 7 1 1)
        (leafSize level (leNat (s.store.readHome leaf 8)))).2 := by
  have hclass := classify_other s s.cur { entry := leNat (s.store.readHome leaf 8), addr := leaf, level := level, bad := false } hx hp ho
  refine (if_pos ?_ : execPageReclassify leaf level s = _).trans (congrArg Host.Outcome.next hclass)
  simp only [h8, htop, hlev, hv, hleaf, hm, hp, ho, hc, decide_true, Bool.not_false, Bool.and_self, ne_eq, not_false_eq_true]

/-! ### A word that is no instruction, and a fetch that faults (R78, R332, R336) -/

theorem decodeSq_rejects {w : Nat} (h : (decodeSq w).toOption = none) : ∃ r, decodeSq w = .error r := by
  cases hd : decodeSq w with
  | ok i => rw [hd] at h; cases h
  | error r => exact ⟨r, rfl⟩

section
variable {s s' : State} {w : Nat} {h : BitVec 16} {h2 : Option (BitVec 16)} {f : EFault} (hl : s.sqLive = true)
include hl

theorem illegalInstruction_held (hh : s.core.sq.holds s.time = some w) (hd : (decodeSq w).toOption = none) :
    exec .illegalInstruction s = .next (s.raise .illegalInstruction 0) := by
  obtain ⟨r, hr⟩ := decodeSq_rejects hd
  show execIllegalInstruction s = _
  simp only [execIllegalInstruction, hl, Bool.not_true, Bool.false_eq_true, if_false, hh, hr]

theorem illegalInstruction_fetched (hh : s.core.sq.holds s.time = none) (hf : s.fetchSq = (.ok h s', h2))
    (hd : (decodeSq (wordOf h h2)).toOption = none) : exec .illegalInstruction s = .next (s'.raise .illegalInstruction 0) := by
  obtain ⟨r, hr⟩ := decodeSq_rejects hd
  show execIllegalInstruction s = _
  simp only [execIllegalInstruction, hl, Bool.not_true, Bool.false_eq_true, if_false, hh, hf, hr]

theorem fetchFault_raises (hh : s.core.sq.holds s.time = none) (hf : s.fetchSq = (.fault f s', h2)) :
    exec .fetchFault s = .next (s'.unpark.raise f.cause f.addr) := by
  show execFetchFault s = _
  simp only [execFetchFault, hl, hh, Option.isSome_none, Bool.not_true, Bool.or_self, Bool.false_eq_true, if_false, hf]

end

theorem fetchFault_held {s : State} {w : Nat} (hh : s.core.sq.holds s.time = some w) : exec .fetchFault s = .next s := by
  show execFetchFault s = _
  simp only [execFetchFault, hh, Option.isSome_some, Bool.or_true, if_true]

/-! ### The obligation -/

/-- Settles O46: each event is one rule, and the traps are the one trap entry from U. -/
theorem waitsAndFetches : Obligations.WaitsAndFetches := by
  unfold Obligations.WaitsAndFetches
  refine ⟨fun s t f e hl => ⟨fun hs ht => ⟨fun hf => ?_, fun hf hp ha hpriv => ?_⟩, sleepuWake_early, queueWaitResume_sq hl,
      queueWaitResume_eng hl⟩,
    fun s line => ?_, fun s leaf level => ?_, fun s s' h h2 f hl => ?_⟩
  case refine_1 => rw [sleepuWake_due hl hs ht, sleepDone_kept hf]
  case refine_2 =>
    obtain ⟨hpc, hepc, hbad, hcause, hx, -⟩ := fetchTrap_enters (s := { s with core.sq.sleep := none }) .promiseMissed 0 ha hpriv
    have htok := raise_tok (s := { s with core.sq.sleep := none }) .promiseMissed 0 ha hpriv
    rw [sleepuWake_due hl hs ht, sleepDone_missed hf hp]
    exact ⟨_, rfl, hpc, hepc, hbad, hcause, hx, htok⟩
  case refine_3 =>
    intro u woken
    refine ⟨fun h => ?_, wakeLines_unwatched s line, fun h => ?_, fun a h => ?_⟩
    · have hu : u = _ := wakeLines_watched s line h
      have hothers : ∀ c ∈ u.others, woken c.2 := by
        rw [hu]
        intro c hc
        obtain ⟨d, -, rfl⟩ := List.mem_map.1 hc
        exact wake_woken d.2 line
      rw [hu] at hothers ⊢
      exact ⟨wake_woken s.core line, hothers, arrivals_woken line, wakeDies_disarms line, rfl, rfl, rfl⟩
    · obtain ⟨sch, hgo, hkept, hnew⟩ := parkWake_spec s line
      rw [arriveAgain_none s line h] at hgo hkept hnew
      exact ⟨_, hgo, rfl, fun c hc hpark hw => hnew c hc _ (mem_wokenUnits_sq hpark hw),
        fun c hc e hpark hw => hnew c hc _ (mem_wokenUnits_eng hpark hw), hkept⟩
    · obtain ⟨sch, hgo, -⟩ := parkWake_spec s line
      rw [arriveAgain_some s line h] at hgo
      exact ⟨_, hgo, rfl⟩
  case refine_4 =>
    intro e e' size h8 htop hwf hlev hv hleaf hm hpv ho hc hx
    obtain ⟨hhost, hdev⟩ := leaf_plain htop
    have hframe : frameOf (setSeg e 7 1 1) = frameOf e := frameOf7 e
    obtain ⟨hcounts, hpc, hxs⟩ := leafShared_keeps (fillCounted s) leaf (setSeg e 7 1 1) size
    have hcopies := leafShared_copies (fillCounted s) leaf (setSeg e 7 1 1) size
    rw [hframe] at hcopies
    refine ⟨_, pageReclassify_go h8 htop hlev hv hleaf hm hpv ho hc hx, ?_⟩
    rw [reclassify_eq]
    exact ⟨leafShared_leaf size hhost hdev hwf (shared_lt (readHome_lt hhost hdev)), hcopies, (core_dropTlb leaf _).1,
      fun c hc => (others_dropTlb _ leaf c hc).1, fun c hc => (others_dropTlb _ leaf c hc).2, quads_dropTlb _ leaf,
      congrArg CoreCounts.priv hcounts, hpc, hxs⟩
  case refine_5 =>
    intro taken ha hp
    refine ⟨fun w hh => ⟨fetchFault_held hh, fun heq hd => ?_⟩, fun hh hf hd => ?_, fun hh hf => ?_⟩
    · subst heq
      exact ⟨_, illegalInstruction_held hl hh hd, fetchTrap_enters _ _ ha hp⟩
    · exact ⟨_, illegalInstruction_fetched hl hh hf hd, fetchTrap_enters _ _ ha hp⟩
    · exact ⟨_, fetchFault_raises hl hh hf, fetchTrap_enters (s := s'.unpark) _ _ ha hp⟩

end Sys2Proof.Proofs.Waits
end
